-- ==== Sys2Proof/Word.lean ====
section
/-! DEFINITION. The machine's words and bytes (00_scope R1, R5). -/

namespace Sys2Proof

/-- A byte of any memory. -/
abbrev Byte := BitVec 8

/-- A 64-bit register value or virtual address. -/
abbrev Word := BitVec 64

/-- A string of bytes held as a little-endian number: byte i is `x / 256 ^ i % 256` (R1).
Bytes above the last one written read as zero. -/
abbrev Blob := Nat

end Sys2Proof
end

