-- ==== Sys2Proof/Config.lean ====
section
/-! DEFINITION. What an implementation fixes and the free values: values the manual leaves open (log 3).
Every free value is an opaque constant with no body, applied to a counter that `State` holds or to the place it
belongs to, so a statement about it holds whatever it is. -/

namespace Sys2Proof.Config

/-- Seed of a stochastic generator, by the number of the generator (R109). A generator forces it nonzero. -/
opaque freeSeed : Nat → BitVec 32

/-- A 64-bit value that the manual calls undefined or does not state; one fresh value per count (log 3). -/
opaque freeWord : Nat → BitVec 64

/-- A byte string that the manual leaves undefined, such as unwritten sidecar bytes (R117, log 3). -/
opaque freeBlob : Nat → Nat

/-- The form in which a stack controller stores a block's bytes, but for the block of zeros: its own compression decides (R258). -/
opaque freeForm : Nat → BitVec 2

/-- A choice among the possibilities that the manual leaves to the device: the next pair that an unordered
reduction adds (R170), the next element of an unordered `vamo` (R304), the L1 victim (R226). -/
opaque freePick : Nat → Nat

end Sys2Proof.Config
end

