-- ==== Sys2Proof/Syntax.lean ====
section
/-! DEFINITION. The instructions and the steps of the machine, one constructor for each row of the opcode table. -/

namespace Sys2Proof

/-- A general register `s0`–`s31` (R122). -/
abbrev Reg := Fin 32
/-- A predicate register `k0`–`k15` (R122). -/
abbrev KReg := Fin 16
/-- A pointer register `p0`–`p7` (R123). -/
abbrev PReg := Fin 8
/-- A vector register `v0`–`v63`. -/
abbrev VReg := Fin 64

/-- An element type (R7, R58). `b8 p n x` is the binary8 form with precision p + 1, unsigned when n, extended when x. -/
inductive ETy where
  | i8 | i16 | i32 | i64 | n8 | n16 | n32 | n64 | f64 | f32 | f16 | bf16 | e4m3 | e5m2 | mxf4
  | b8 (p : Fin 7) (n x : Bool)
deriving DecidableEq, Repr

/-- A rounding selection of an instruction (R57): `dyn` is the code 000, which reads `VSTATE.RM`. -/
inductive RmSel where
  | dyn | rne | rtz | rup | rdn | rst
deriving DecidableEq, Repr

/-- The format of a scalar floating instruction (R148). -/
inductive FFmt where
  | f64 | f32 | f16 | bf16
deriving DecidableEq, Repr

/-- The relation of `fcmp` and `vfcmp` (R149, R164). -/
inductive FRel where
  | eq | lt | le | un
deriving DecidableEq, Repr

/-- The condition of `cmp` and `cmpi` (R141). -/
inductive Cond where
  | eq | ne | lt | ge | ltn | gen
deriving DecidableEq, Repr

/-- The relation of `vcmp` (R161). -/
inductive VRel where
  | eq | ne | lt | le | gt | ge
deriving DecidableEq, Repr

/-- A memory-model scope (R269). -/
inductive Scope where
  | core | clu | die | pkg | fab
deriving DecidableEq, Repr

/-- The type of an atomic (R300). -/
inductive AmoTy where
  | i32 | i64 | n32 | n64 | f32 | bf16
deriving DecidableEq, Repr

/-- The operation of an atomic (R300). -/
inductive AmoOp where
  | add | min | max | and | or | xor | swap | cas
deriving DecidableEq, Repr

/-- The type of a scalar load (R145). -/
inductive LdTy where
  | i8 | i16 | i32 | i64 | n8 | n16 | n32
deriving DecidableEq, Repr

/-- The width of a scalar store (R146). -/
inductive StW where
  | b | h | w | d
deriving DecidableEq, Repr

/-- A source of a vector instruction (R55): main file with its chain bit, operand file, last-result latch, scalar
broadcast. -/
inductive VSrc where
  | v (r : VReg) (chain : Bool)
  | o (e : Fin 8)
  | lat (u : Fin 7)
  | s (r : Reg)
deriving DecidableEq, Repr

/-- The fields of a vector instruction (R54, R57). A memory instruction's p field stands in `a` (R171), the source
type code of `vcvt` in `c` (R165). -/
structure VF where
  c : VSrc
  b : VSrc
  a : VSrc
  d : VReg
  msk : Option (Fin 8)
  ty : ETy
  rm : RmSel
  sat : Bool
  ord : Bool
  ux : Bool
deriving DecidableEq, Repr

/-- The fields of a matrix instruction (R59). -/
structure MF where
  kd : KReg
  kc : KReg
  kr : KReg
  c : VReg
  b : VReg
  a : VReg
  t : Fin 8
  s : Reg
  ty : ETy
  rm : RmSel
  sat : Bool
  ca : Bool
  fx : BitVec 5
deriving DecidableEq, Repr

/-- An operand code of a micro-operation (R356). -/
inductive UOpd where
  | h (i : Fin 8) | xd | xa | xb | ximm | zero | lc
deriving DecidableEq, Repr

/-- The fields of a vector micro-operation (R355, R358). -/
structure UV where
  vd : VReg
  va : VReg
  vb : VReg
  j : Fin 8
  ty : ETy
deriving DecidableEq, Repr

/-- A system register that some chapter assigns (R130 and the chapters it names). -/
inductive SysReg where
  | vstate | lcount | thread | cycle | lanebusy | regerr | mstate | tshape (i : Fin 8) | carve
  | tframe | tvec | tstat | ttimer | ipend | orbase | orcnt | orflt0 | orflt1 | orprobe | sscr | lease
  | fqueue | liftw | taskrec | ctxtab | recmap | ptroot | ctxid | mcvec | mcframe
deriving DecidableEq, Repr

/-- Why a transfer stops (R350). -/
inductive StopWhy where
  | translation | link | refused | mismatch | poison | scratchpad | counter
deriving DecidableEq, Repr

/-- What the boot finds (R408, R409): the firmware signature, the dies that fail their self-test, the stacks that do
not train, whether the links train, the harvest exceptions as (linear core, enabled, 48-lane), compression per stack, whether the host
port supports flit mode at 32 GT/s (R403). -/
structure BootFacts where
  signature : Bool
  dieFails : List (Fin 8)
  stackFails : List (Fin 8)
  linksTrain : Bool
  harvest : List (Nat × Bool × Bool)
  compress : BitVec 8
  flit : Bool
deriving DecidableEq, Repr

/-- The operands of a micro-operation (R355–R358); a field that the operation does not use holds its default. -/
structure UF where
  d : UOpd := .zero
  a : UOpd := .zero
  b : UOpd := .zero
  imm : BitVec 11 := 0
  off : BitVec 8 := 0
  r : Reg := 0
  e : Fin 8 := 0
  ldt : LdTy := .i8
  stw : StW := .b
  sat : Bool := false
  tgt : Fin 256 := 0
  v : UV := { vd := 0, va := 0, vb := 0, j := 0, ty := .i8 }
deriving DecidableEq, Repr

/-- The arguments of a step outside an instruction stream: what it acts on, as the environment or the turn policy
names it (log 2). A step reads the fields that its meaning names and no other. -/
structure Ev where
  core : Nat := 0
  slot : Fin 4 := 0
  id : Nat := 0
  pa : Nat := 0
  die : Fin 8 := 0
  slice : Fin 32 := 0
  bank : Fin 16 := 0
  link : Nat := 0
  port : Fin 8 := 0
  op : AmoOp := .add
  ty : AmoTy := .i32
  flag : Bool := false
  v : Word := 0
  expect : Word := 0
  data : List Byte := []
  parts : List (List Byte) := []
  reg : SysReg := .vstate
  why : StopWhy := .translation
  facts : BootFacts :=
    { signature := true, dieFails := [], stackFails := [], linksTrain := true, harvest := [], compress := 0, flit := true }
deriving DecidableEq, Repr

/-- The instructions and steps of the machine: one constructor for each row of the opcode table. -/
inductive Instr where
  -- scalar register-to-register (R136–R138)
  | add (d a b : Reg) | sub (d a b : Reg) | and (d a b : Reg) | or (d a b : Reg) | xor (d a b : Reg)
  | sll (d a b : Reg) | srl (d a b : Reg) | sra (d a b : Reg) | slt (d a b : Reg) | sltn (d a b : Reg)
  | mul (d a b : Reg) | mulh (d a b : Reg) | mulhn (d a b : Reg)
  | div (d a b : Reg) | divn (d a b : Reg) | rem (d a b : Reg) | remn (d a b : Reg)
  | clz (d a : Reg) | ctz (d a : Reg) | popc (d a : Reg) | rev (d a : Reg)
  | bext (d a b : Reg) | bdep (d a b : Reg) | rotl (d a b : Reg) | rotr (d a b : Reg)
  -- scalar floating point (R148–R150)
  | fadd (f : FFmt) (rm : RmSel) (d a b : Reg) | fsub (f : FFmt) (rm : RmSel) (d a b : Reg)
  | fmul (f : FFmt) (rm : RmSel) (d a b : Reg) | fdiv (f : FFmt) (rm : RmSel) (d a b : Reg)
  | fsqrt (f : FFmt) (rm : RmSel) (d a : Reg)
  | fmin (f : FFmt) (d a b : Reg) | fmax (f : FFmt) (d a b : Reg)
  | fcmp (r : FRel) (f : FFmt) (d a b : Reg) | fclass (f : FFmt) (d a : Reg)
  | fmvToOperand (d : Fin 8) (a : Reg) | fmvFromOperand (d : Reg) (a : Fin 8) (b : Reg)
  | fcvt (dst src : ETy) (sat : Bool) (rm : RmSel) (d a : Reg)
  -- predicates (R141)
  | kand (d a b : KReg) | kor (d a b : KReg) | kxor (d a b : KReg) | knot (d a : KReg)
  | kmovKK (d a : KReg) | kmovSK (d : Reg) (a : KReg) | kmovKS (d : KReg) (a : Reg)
  | cmp (c : Cond) (d : KReg) (a b : Reg)
  -- atomics (R300)
  | amoAdd (ty : AmoTy) (sr far : Bool) (d a b : Reg)
  | amoMin (ty : AmoTy) (far : Bool) (d a b : Reg) | amoMax (ty : AmoTy) (far : Bool) (d a b : Reg)
  | amoAnd (ty : AmoTy) (far : Bool) (d a b : Reg) | amoOr (ty : AmoTy) (far : Bool) (d a b : Reg)
  | amoXor (ty : AmoTy) (far : Bool) (d a b : Reg) | amoSwap (ty : AmoTy) (far : Bool) (d a b : Reg)
  | cas (ty : AmoTy) (far : Bool) (d a b : Reg)
  -- queue objects (R313); `k` is the d or b field of a `.nb` form
  | qpush (e16 nb : Bool) (k : KReg) (a b : Reg) | qpop (e16 nb : Bool) (d a : Reg) (k : KReg)
  | qsteal (e16 nb : Bool) (d a : Reg) (k : KReg)
  | qcount (d a : Reg) | qpoll (d a : Reg) (k : KReg) | qinit (d a b : Reg)
  -- tasks and engines (R341, R347)
  | tpost (d a : Reg) | tdone | tspawn (d a b : Reg) | tgrp (d a : Reg) | tyield | cntarm (d a b : Reg)
  | cpy (d a b : Reg) | gath (d a b : Reg) | coll (d a b : Reg)
  -- carve-out, barrier (R229, R233)
  | carve (d a : Reg) | carveq (n : Fin 3) (d : Reg) | tbar | szero (a b : Reg)
  -- vector control (R154, R178, R179)
  | vstrip (sz : Fin 5) (d a : Reg) (k : KReg) | vfetch (msk : Option (Fin 8)) (a : Reg) | vpjoin
  -- fences (R275)
  | fence (sc : Scope) | fenceAcq (sc : Scope) | fenceRel (sc : Scope)
  -- immediates (R139)
  | addi (d a : Reg) (imm : BitVec 12) | andi (d a : Reg) (imm : BitVec 12) | ori (d a : Reg) (imm : BitVec 12)
  | xori (d a : Reg) (imm : BitVec 12)
  | slli (d a : Reg) (sh : BitVec 6) | srli (d a : Reg) (sh : BitVec 6) | srai (d a : Reg) (sh : BitVec 6)
  | cmpi (c : Cond) (d : KReg) (a : Reg) (imm : BitVec 12)
  -- loads, system registers (R145, R135)
  | ld (ty : LdTy) (d a : Reg) (imm : BitVec 12) | ldHome (ty : LdTy) (d a : Reg) (imm : BitVec 12)
  | ldLast (ty : LdTy) (d a : Reg) (imm : BitVec 12)
  | sysrd (d : Reg) (r : SysReg) | syswr (a : Reg) (r : SysReg)
  | sysset (d a : Reg) (r : SysReg) | sysclr (d a : Reg) (r : SysReg)
  -- cache instructions (R262, R256)
  | prefL1 (a : Reg) (imm : BitVec 12) | prefL2 (a : Reg) (imm : BitVec 12)
  | wake (a : Reg) (imm : BitVec 12) | wakeAll (a : Reg) (imm : BitVec 12)
  | flush (a : Reg) (imm : BitVec 12) | flushMem (a : Reg) (imm : BitVec 12)
  | inval (a : Reg) (imm : BitVec 12) | drop (a : Reg) (imm : BitVec 12)
  -- pointers, slice scratch (R124, R254)
  | pset (d : PReg) (a : Reg) (sz : Fin 5) | padv (d : Reg) (a : PReg) (imm : BitVec 12)
  | ssld (ty : LdTy) (d a : Reg) (imm : BitVec 12)
  -- hints (R63): a, f3 and d have no meaning and are kept
  | nop (a : Reg) (f3 : Fin 8) (d : Reg) | pause (a : Reg) (f3 : Fin 8) (d : Reg)
  | spin (a : Reg) (f3 : Fin 8) (d : Reg)
  -- stores, branches (R146, R142–R144, R140)
  | st (wd : StW) (a b : Reg) (off : BitVec 12)
  | brAny (k : KReg) (n : Bool) (off : BitVec 16) | brAll (k : KReg) (n : Bool) (off : BitVec 16) | br (off : BitVec 16)
  | jal (d : Reg) (imm : BitVec 20) | jalr (d a : Reg) (imm : BitVec 12)
  | lui (d : Reg) (imm : BitVec 20) | auipc (d : Reg) (imm : BitVec 20) | loop (off : BitVec 16)
  | ssst (wd : StW) (a b : Reg) (off : BitVec 12)
  -- routine invocation (R60)
  | rtn (slot : Fin 64) (d a b : Reg) (imm : BitVec 7)
  -- a convoy: the units its header declares and the raw words of its slots (R50, R51)
  | convoyIssue (units : List (Fin 7)) (slots : List (BitVec 64))
  -- vector integer (R161)
  | vaddInt (f : VF) | vsubInt (f : VF) | vmulInt (f : VF) | vmulh (f : VF) | vminInt (f : VF) | vmaxInt (f : VF)
  | vmacc (f : VF) | vdivInt (f : VF) | vrem (f : VF) | vand (f : VF) | vor (f : VF) | vxor (f : VF)
  | vsll (f : VF) | vsrl (f : VF) | vsra (f : VF) | vmv (f : VF) | vcmp (r : VRel) (f : VF)
  -- vector floating (R163–R165)
  | vaddFloat (f : VF) | vsubFloat (f : VF) | vmulFloat (f : VF) | vdivFloat (f : VF)
  | vfma (f : VF) | vfms (f : VF) | vfnma (f : VF) | vsqrt (f : VF)
  | vminFloat (f : VF) | vmaxFloat (f : VF) | vfcmp (r : FRel) (f : VF) | vfclass (f : VF)
  | vsgnj (f : VF) | vsgnn (f : VF) | vsgnx (f : VF) | vcvt (f : VF)
  -- masks (R166)
  | vmand (f : VF) | vmor (f : VF) | vmxor (f : VF) | vmnot (f : VF) | vmpop (f : VF) | vmfirst (f : VF)
  | vmerge (f : VF) | vmk (f : VF) | viota (f : VF) | vid (f : VF)
  -- permutes (R167)
  | vslideup (f : VF) | vslidedn (f : VF) | vperm (f : VF) | vcompress (f : VF) | vbcast (f : VF) | vtoo (f : VF)
  -- reductions (R169)
  | vredsum (f : VF) | vredmin (f : VF) | vredmax (f : VF) | vredand (f : VF) | vredor (f : VF) | vredxor (f : VF)
  -- vector memory (R171, R266)
  | vld (f : VF) | vldHome (f : VF) | vldLast (f : VF) | vlds (f : VF) | vldsHome (f : VF) | vldx (f : VF)
  | vldxPeer (f : VF) | vldxHome (f : VF) | vldff (f : VF) | ldt (f : VF) | vldo (f : VF)
  | vst (f : VF) | vsts (f : VF) | vstx (f : VF) | vstxPeer (f : VF)
  -- vector atomics (R303)
  | vamoAdd (f : VF) | vamoMin (f : VF) | vamoMax (f : VF) | vamoAnd (f : VF) | vamoOr (f : VF) | vamoXor (f : VF)
  | vamoSwap (f : VF) | vamoCas (f : VF)
  -- matrix (R193, R223)
  | mmode (f : MF) | mshape (f : MF) | mzero (f : MF) | mzeroAcc (f : MF) | mldb (f : MF) | mmul (f : MF)
  | mopa (f : MF) | mgmul (f : MF) | mdrain (f : MF) | mdrainx (f : MF) | mrecv (f : MF) | mrecvCancel (f : MF)
  | mchain (f : MF) | mchainAccept (f : MF) | munchain (f : MF) | mwait (f : MF) | mmulx (f : MF)
  | mrinv (f : MF) | mrinvAll (f : MF) | mrpf (f : MF) | mrprobe (f : MF)
  -- system long forms (R375, R385, R382, R391, R392, R265, R362)
  | trap (imm : BitVec 32) | tret | brk (imm : BitVec 32)
  | watchCore (i : Fin 2) (d a b : Reg) | watchHome (i : Fin 2) (d a b : Reg) | watchCount (i : Fin 2) (d a b : Reg)
  | ctxsave (rel incr : Bool) (d a b : Reg) | ctxload (d a : Reg)
  | tlbinvVa (a b : Reg) | tlbinvCtx (a b : Reg) | tlbinvAll (a b : Reg)
  | sysfence (imm : BitVec 2) | travset (d a : Reg) (die : Fin 8) (entry : Fin 64)
  | rbind (d a : Reg) (slot : Fin 64) | rload (d : Reg) (slot : Fin 64)
  | runbind (d : Reg) (slot : Fin 64) | runbindCtx (d a : Reg) (slot : Fin 64) | rquery (d : Reg) (slot : Fin 64)
  -- encodings that are no instruction, and hints without a name (R67, R63)
  | unassignedEncoding (slot : Nat) | otherHintCode (code : BitVec 12) (a : Reg) (f3 : Fin 8) (d : Reg)
  -- micro-operations of a routine (R357, R358); their operands are the `UF` that the routine's state holds
  | umov | umovi | uhi | urds | uwrs | urdo | uwro
  | uadd | usub | umul | uand | uor | uxor | usll | usrl | usra | uslt | usltn | umin | umax | uaddi
  | ufadd | ufsub | ufmul | ufma | ufmin | ufmax | ufcvti | uicvtf | uld | ust
  | uvadd | uvsub | uvmul | uvmin | uvmax | uvand | uvor | uvxor | uvfma
  | ubeq | ubne | ublt | uj | uloop | uend
  -- steps of the machine outside an instruction stream; their arguments are the `Ev` that the state holds (log 2)
  | teamBarrierRelease | pauseExpiry | matrixSequence | mdrainxRowArrival
  | interruptTake | timerCompare | preemptRequest | coreOutOfService | farAtomicAtHome | recall | leaseRequest
  | leaseExpiry | dirtyWriteback | lastDrop | bankDrowsy | bankWake | linkRetry | linkDown | queueRouterEntry
  | crossoverHoldExpiry | pairNotice | pairAck | queueOpAtHome | placeTask | taskStart | taskReclaim | liftAging
  | segmentReport | groupIssue | faultQueuePush | resumeReleased | engineDecrement | transferStop | collectiveComplete
  | hostAtomic | hostPostedWrite | sysregWrite | mstateRead | carveWrite | ortableWrite | leaseWrite | sscrWrite
  | liftContextWrite | drowsyWrite | bootclr | bootok | moduleReset | startWatchdog | peerPortDown | d3hot
  | level2McheckReset | taskEndedAfterTrap | inputPowerFault | peerPostedWrite | mrpfFetchCompletion
deriving DecidableEq, Repr

end Sys2Proof
end

