-- ==== Sys2Proof/Machine/State.lean ====
section
/-! DEFINITION. The state of the machine as plain data, and the state after reset (INVENTORY.md, State). Every register of the
manual has one home here; views that the manual lays out as words (`VSTATE`, `MSTATE`, `TSTAT`, …) are composed by
the accessors of `Machine/Sys.lean`. -/

namespace Sys2Proof.Machine

/-- Bytes by address, strictly rising, no entry equal to 0, which an unlisted address reads as (log 4). -/
abbrev Mem := List Host.Cell

/-- A rounding mode that `VSTATE.RM` may hold (R106). -/
inductive Rm where
  | rne | rtz | rup | rdn | rst
deriving DecidableEq, Repr

/-! ## Per control thread -/

/-- A vector register with its hidden tags (R117, R152, R380). -/
structure VRegister where
  data : Blob
  tag : Bool
  side : Blob
  vb : Nat
  dirty : Bool
deriving DecidableEq, Repr

/-- The vector state of a thread (R120, R131). -/
structure VecState where
  v : Vector VRegister 64
  m : Vector Nat 8
  o : Vector Blob 8
  lat : Vector Blob 7
  vlen : Nat
  vl : Nat
  fx : BitVec 5
  rm : Rm
deriving DecidableEq, Repr

/-- A convoy whose header has issued (R155): its address, its slots, the next slot, what it read at issue, and the
address after it. Its element i runs on lane lane0 + i; `lender` names the sibling whose idle lanes it borrows, and `lent` says that
it has lent its own (R37). -/
structure Convoy where
  hdr : Word
  units : List (Fin 7)
  slots : List (BitVec 64)
  next : Nat
  vl : Nat
  rm : Rm
  after : Word
  lane0 : Nat
  lender : Option (Fin 4)
  lent : Bool
deriving DecidableEq, Repr

/-- The slot being executed: its convoy's header and number, VL and RM read at issue, the element to start from, the
operands captured at an earlier issue, and the NOWATCH mark (R371). -/
structure Issue where
  hdr : Word
  slot : Nat
  vl : Nat
  rm : Rm
  prog : Nat
  captured : Option (Word × Word × Word)
  nowatch : Bool
deriving DecidableEq, Repr

/-- A replay entry still to reissue (R371, R376). -/
structure Replay where
  pc : Word
  vector : Bool
  slot : Nat
  prog : Nat
  vl : Nat
  rm : Rm
  opa : Word
  opb : Word
  opc : Word
  nowatch : Bool
deriving DecidableEq, Repr

/-- A 32-byte sector of an L1 line: stored bytes, the bytes that each thread stored, the SCLK cycle of the first store,
poison (R147, R248, R259, R274); `full` when one store wrote the whole sector, which clears poison (R260). -/
structure L1Sector where
  dmask : BitVec 32
  own : Vector (BitVec 32) 4
  since : Nat
  full : Bool
  poison : Bool
deriving DecidableEq, Repr

/-- An L1 line: the line address (PA as issued / 128), its way, its bytes, whether it holds a granted copy or only
stored bytes, the grant's stamp and expiry, and exclusive ownership (R226, R248, R271, R283, R394). -/
structure L1Line where
  tag : Nat
  way : Nat
  data : Blob
  filled : Bool
  sec : Vector L1Sector 4
  grant : Nat
  expiry : Nat
  excl : Bool
deriving DecidableEq, Repr

/-- A register that an instruction writes, a latch and the flags apart. -/
inductive Dest where
  | v (r : VReg) | m (i : Fin 8) | s (r : Reg) | o (e : Fin 8)
deriving DecidableEq, Repr

/-- n bytes with their value, of the scratchpad or at a physical address. -/
structure Chunk where
  spad : Bool
  addr : Nat
  n : Nat
  v : Nat
deriving DecidableEq, Repr

/-- What stood where an instruction has changed something: a register, the latch of a unit, the flags; an L1 line, none where there was none,
with what it has become; n bytes of the scratchpad with what they have become. -/
inductive Undo where
  | v (r : VReg) (x : VRegister) | m (i : Fin 8) (x : Nat) | s (r : Reg) (x : Word) | o (e : Fin 8) (x : Blob)
  | lat (u : Fin 7) (x : Blob) | fx (x : BitVec 5)
  | line (tag : Nat) (old : Option L1Line) (new : L1Line) | spad (off n old new : Nat)
deriving DecidableEq, Repr

/-- A scalar load, or a vector slot, whose effects no later instruction of its thread has used, so that it may still be under way when the
thread traps (R372, log 46): its replay entry, the slot's word and unit, what it writes and how to take that back, the lane time that it
added, the bits of an element, the elements that it has performed, and whether it may stand at one of them; what its elements took from
registers, as (element, value), where a value above every element's stands for all; what it read and, by elements, stored where. -/
structure Late where
  entry : Replay
  word : BitVec 64
  unit : Fin 7
  dest : List Dest
  undo : List Undo
  busy : Word
  bits : Nat
  done : List Nat
  parts : Bool
  took : List (Nat × Blob)
  seen : List Chunk
  stored : List (Nat × Chunk)
deriving DecidableEq, Repr

/-- A routine being run (R356, R360, R361), of the context and slot that its `rtn` looked up; `cur` holds the operands of the
micro-operation being executed. -/
structure RtnState where
  ctx : Nat
  slot : Fin 64
  upc : Nat
  lc : Word
  h : Vector Word 8
  rm : Rm
  d : Reg
  a : Reg
  b : Reg
  imm : BitVec 7
  cur : UF
deriving DecidableEq, Repr

/-- One virtual processor (R32, R180, R370), a thread of its own for what its fences acquire (R275). -/
structure Vp where
  pc : Word
  stopped : Bool
  never : Bool
  s : Vector Word 32
  k : Vector Word 16
  acqL1 : Nat
  acqRdc : Nat
deriving DecidableEq, Repr

/-- A VP phase (R32–R34): VL at `vfetch`, the join address, the thread's own `s` and `k` registers and acquire points, the VPs, the group
being served with the members that have still to perform its current instruction, the member whose copies stand in the
thread's registers, and the group's block as the range [blkFrom, blkTop) fetched so far and the instructions that the group may
still perform from it. -/
structure VpState where
  vl : Nat
  join : Word
  s : Vector Word 32
  k : Vector Word 16
  acqL1 : Nat
  acqRdc : Nat
  vps : List Vp
  group : List Nat
  todo : List Nat
  cur : Option Nat
  blkFrom : Word
  blkTop : Word
  blkLeft : Nat
deriving DecidableEq, Repr

/-- An answer to a queue operation (R314). -/
inductive QAns where
  | done | entry (lo hi : Word) | empty | full | bad (cause : Nat) | poison (hdr pa : Nat) | nomem (pa : Nat)
  | count (c : Nat) | status (x : Nat)
deriving DecidableEq, Repr

/-- What a thread waits for (R63, R233, R210, R314, R378); `saving` in a `ctxsave` whose siblings have still to reach a boundary
(R383); a thread stopped with `any` set by `ctxsave` or `ctxload` goes on with whichever frame the
handler returns from, one stopped by an interrupt with the INTR frame (R376). -/
inductive Wait where
  | none
  | pause (until_ : Nat)
  | tbar
  | mwait
  | saving
  | queue (msg : Nat) (i : Instr)
  | stopped (any : Bool)
deriving DecidableEq, Repr

/-- A control thread (R120, R368). `rwatch` holds the address of the instruction whose first matching access ignores core
watchpoints (R376); `ending` says that the task has ended and the thread issues nothing new (R343); `atBar` says that the thread
waited at a `tbar` when it trapped (R233, R379); `mcStop` that the thread was stopped when it took a machine check, with its `any`, or none
once the handler that stopped it has returned (R376, R378); `recent` what may still be under way, the latest first, and `flight`
the entries of those that are (R372); `polling` holds the table entry that a `qpoll` is querying, the bits before it and the
entries after it (R316). -/
structure Thread where
  occ : Bool
  pc : Word
  s : Vector Word 32
  k : Vector Word 16
  p : Vector Word 8
  psz : Vector (Fin 5) 8
  vec : VecState
  lcount : Word
  laneBusy : Word
  tframe : Word
  level : BitVec 2
  intrap : Bool
  imask : Bool
  gen : BitVec 32
  acqL1 : Nat
  acqRdc : Nat
  convoy : Option Convoy
  issue : Option Issue
  replay : List Replay
  rtn : Option RtnState
  vp : Option VpState
  vpHeld : Option VpState
  rwatch : Option Word
  wait : Wait
  spin : Nat
  qans : Option QAns
  polling : Option (Nat × Nat × List Word)
  ending : Bool
  atBar : Bool
  mcStop : Option (Option Bool)
  recent : List Late
  flight : List Replay
deriving DecidableEq, Repr

/-! ## Per core -/

/-- A TLB entry (R387, R388, R390): context, first address, page size, frame and rights. -/
structure TlbEntry where
  ctx : Nat
  va : Nat
  size : Nat
  pa : Nat
  r : Bool
  w : Bool
  x : Bool
  u : Bool
  rc : Bool
deriving DecidableEq, Repr

/-- A core watchpoint (R385); length 2 ^ len, clear when neither rd nor wr. -/
structure CoreWatch where
  addr : Word
  rd : Bool
  wr : Bool
  len : Nat
deriving DecidableEq, Repr

/-- The mode of the multiply-cell array (R182). -/
inductive MMode where
  | v | ws | rs | follow
deriving DecidableEq, Repr

/-- A tile view (R183); rows 0 marks it undefined. -/
structure TShape where
  owner : Fin 4
  rows : Nat
  cols : Nat
  base : VReg
deriving DecidableEq, Repr

/-- A column of the weight latches: its bytes, one loaded bit per element, the scale bytes of `.mxf4` (R181, R198). -/
structure LatCol where
  data : Blob
  loaded : Nat
  scales : Blob
deriving DecidableEq, Repr

/-- A posted matrix instruction with what it read at posting (R186, R415); `chained` when it needs the chain that its core then
led (R209). -/
structure MEntry where
  mop : Nat
  f : MF
  slot : Fin 4
  vl : Nat
  rm : Rm
  sv : Word
  sv1 : Word
  kr : Word
  kr1 : Word
  kc : Word
  kc1 : Word
  kd : Word
  level : BitVec 2
  chained : Bool
deriving DecidableEq, Repr

/-- What an `mmulx` bound at gate 0: the cause and index of each row and the distinct records (R218–R221, R415). -/
structure Bound where
  cause : List Nat
  idx : List Nat
  recs : List (Nat × Blob)
deriving DecidableEq, Repr

/-- A receptive window (R204): sender core id, rows, first row, rows seen. -/
structure Recv where
  sender : Nat
  cnt : Nat
  row0 : Nat
  seen : Nat
deriving DecidableEq, Repr

/-- A deferred matrix fault held in the queue (R189): cause 1 MEM, 2 CHAIN, 3 RECORD, the address or record index,
whether the poster has still to take MFAULT, and whether that became a machine check (R377). -/
structure MHeld where
  cause : Nat
  addr : Word
  untaken : Bool
  checked : Bool
deriving DecidableEq, Repr

/-- The matrix state of a core (R181–R189). Of the running instruction: `gate`, `bound` for an `mmulx` past gate 0, `xlive` while
the latches hold the record of the last granted row it streamed, `ctr` the translated counter of an `mdrainx`. -/
structure Mat where
  mode : MMode
  mvl : BitVec 2
  wlive : Bool
  alive : Bool
  fcause : BitVec 4
  chain : BitVec 3
  partner : Nat
  tshape : Vector TShape 8
  latTy : ETy
  lat : List LatCol
  acc : Blob
  recv : Vector (Option Recv) 8
  queue : List MEntry
  started : Bool
  gate : Nat
  bound : Option Bound
  held : Option MHeld
  xlive : Bool
  ctr : Option Nat
deriving DecidableEq, Repr

/-- The system registers held per core that are plain words. -/
structure CoreRegs where
  tvec : Word
  ttimer : Word
  ipend : BitVec 3
  ctxid : BitVec 16
  ptroot : Word
  lease : BitVec 13
  orbase : Word
  orcnt : BitVec 13
  orflt0 : Word
  orflt1 : Word
  orprobe : Word
  carve : Word
  regerr : Word
  taskrec : Word
  mcvec : Word
  mcframe : Word
deriving DecidableEq, Repr

/-- A queue kind cache entry (R309). -/
structure KEntry where
  addr : Nat
  kind : Nat
  esz : Nat
  win : Nat
deriving DecidableEq, Repr

/-- A binding of the routine store (R351): the image address and the resident words. -/
structure Binding where
  ctx : Nat
  slot : Nat
  image : Word
  words : Option (List (BitVec 32))
deriving DecidableEq, Repr

/-- A core. `parked` holds the threads that are not in focus; most recent first in every cache list; `sent` lists, as
(slot, line), the remote-homed lines written back since the thread's last release at `.die` or wider (R282, R290). -/
structure Core where
  parked : List (Nat × Thread)
  team : Nat
  absorb : Bool
  task : Option Nat
  sys : CoreRegs
  watch : Vector CoreWatch 2
  mat : Mat
  spad : Mem
  l1 : List L1Line
  pred : List (Nat × Nat)
  sent : List (Nat × Nat)
  kcache : List KEntry
  rcache : List (Nat × Blob)
  rpend : List Nat
  tlb : List TlbEntry
  ibuf : List (Nat × Blob)
  binds : List Binding
  lastSplit : Option Word
  heldOut : Nat
  imgMap : Option (List Nat)
  laneGen : List (Nat × BitVec 32)
  drainGen : List (Nat × BitVec 32)
  lastSlot : Nat
  issued : Nat
  outOfService : Bool
deriving DecidableEq, Repr

/-! ## The package -/

/-- A 32-byte sector that L2 holds otherwise than the media: the way of its line, its home bytes, which of them are newer than the
media, poison (R248, R250, R253, R259). A clean line that is as the media has it is not listed. -/
structure L2Sector where
  addr : Nat
  way : Nat
  data : Blob
  dmask : BitVec 32
  poison : Bool
deriving DecidableEq, Repr

/-- An RDC line of a die (R249, R250, R271). -/
structure RdcLine where
  die : Nat
  tag : Nat
  data : Blob
  poison : BitVec 4
  grant : Nat
  expiry : Nat
deriving DecidableEq, Repr

/-- A home watchpoint (R385, R386). -/
structure HomeWatch where
  slice : Nat
  idx : Nat
  lin : Nat
  rd : Bool
  wr : Bool
  len : Nat
  ctx : Nat
  core : Nat
  hits : Nat
deriving DecidableEq, Repr

/-- A queue operation (R313). -/
inductive QOp where
  | push | pop | steal | count | init
deriving DecidableEq, Repr

/-- Where a queue message stands: on its way, behind an earlier message in a router, held in a router's crossover table until
a time, matched and waiting for the acknowledgement of its pair notice, or the notice itself (R310, R311, R399). -/
inductive QPlace where
  | moving | queued | held (until_ : Nat) | matched | notice | ack
deriving DecidableEq, Repr

/-- A message of the queue class (R309–R311). `core` is its source: a core, 2,048 for the host, 2,049 + j for peer port j; `path` lists
the routers still to enter. -/
structure QMsg where
  id : Nat
  op : QOp
  core : Nat
  slot : Nat
  hdr : Nat
  lin : Nat
  e16 : Bool
  lo : Word
  hi : Word
  pairable : Bool
  win : Nat
  router : Nat
  path : List Nat
  at_ : Nat
  place : QPlace
  mate : Nat
deriving DecidableEq, Repr

/-- A tile descriptor (R320). -/
structure TileD where
  addr : Word
  stride : Nat
  spad : Nat
  rows : Nat
  cols : Nat
  ty : Nat
deriving DecidableEq, Repr

/-- Where a task stands in the Lift (R326): `ending` after `tdone` or `tyield`, with output copies and successors or without;
`outputs` once its team's work is complete and its core idle. -/
inductive Phase where
  | pending | ready | staging | running | ending (outputs : Bool) | outputs | faulted
deriving DecidableEq, Repr

/-- A task that the Lift holds (R323–R330). `rec_` is the linear address of its record, its own or its group's; `succs` the
successor list as read at dispatch, an entry none where it could not be read; `image` the virtual address of a released image,
with its MN, VN and PORTV (R213, R381); `root` the `PTROOT` that the task was placed with (R338); `aged` the levels gained by
waiting; `held` the scratchpad that holds its outputs. -/
structure LTask where
  id : Nat
  rec_ : Nat
  own : Bool
  ctx : Nat
  entry : Word
  arg : Word
  team : Nat
  absorb : Bool
  dies : BitVec 8
  prio : Nat
  lanes : Nat
  pos : Nat
  carve : Word
  succ : Word
  succs : Option (List (Option (Word × Word)))
  ins : List TileD
  outs : List TileD
  idx : Nat × Nat × Nat
  phase : Phase
  since : Nat
  seg : Nat
  core : Nat
  image : Option Word
  mn : Nat
  vn : Nat
  portv : Bool
  cause : Nat
  leaving : Nat
  extra : Nat
  tried : Nat
  aged : Nat
  held : Mem
  root : Word
deriving DecidableEq, Repr

/-- A task group being issued (R331, R332): `at_` counts the positions of its traversal. -/
structure LGroup where
  id : Nat
  rec_ : Nat
  ctx : Nat
  tmpl : LTask
  inst : Word
  n0 : Nat
  n1 : Nat
  n2 : Nat
  order : Nat
  w : Nat
  at_ : Nat
  issued : Nat
deriving DecidableEq, Repr

/-- The kind of an engine command (R347). -/
inductive EKind where
  | cpy | gath | coll
deriving DecidableEq, Repr

/-- A command in an engine's queue (R347, R348). `blk` is the command block as read at issue, `counter` the physical address of
its counter, and `ctx`, `root` and `level` the rights of its accesses (R414). -/
structure ECmd where
  id : Nat
  kind : EKind
  die : Nat
  eng : Nat
  blk : Blob
  counter : Nat
  ctx : Nat
  root : Nat
  level : BitVec 2
  core : Nat
  sent : Nat
  counted : Nat
deriving DecidableEq, Repr

/-- A row that `mdrainx` has sent (R203): sender, receiver, tile, row, the columns sent with their values, the bytes
that its delivery counts, and the counter. -/
structure MRow where
  id : Nat
  src : Nat
  dst : Nat
  tile : Fin 8
  cols : Nat
  row : Nat
  vals : List (Nat × Nat)
  bytes : Nat
  counter : Nat
  ctx : Nat
deriving DecidableEq, Repr

/-- A posted write that an I/O die has received and that has not reached its home (R276, R403). -/
structure Posted where
  pa : Nat
  data : List Byte
deriving DecidableEq, Repr

/-- The start state of the module (R407–R410); `stopped` when a failure has stopped the start, `stat` the boot status word as the start
left it in the capability list, `facts` what the start found. -/
structure Boot where
  mode : BitVec 2
  fails : Nat
  reason : Nat
  mreason : Nat
  live : Nat
  ok : Bool
  ports : BitVec 8
  compress : BitVec 8
  stopped : Bool
  stat : Nat
  facts : BootFacts
deriving DecidableEq, Repr

/-- What the environment does beyond the steps of the opcode table: choices that the manual leaves to the device or to
chance (log 2). -/
inductive EnvMove where
  /-- An L1 line of a set without a free way leaves its way: dirty sectors go home, exclusivity is returned (R248, R394). -/
  | evictL1 (core tag : Nat)
  /-- L2 writes a line to the media (R250). -/
  | evictL2 (lin : Nat)
  /-- An RDC slice drops a copy (R250). -/
  | evictRdc (die tag : Nat)
  /-- The core fetches a code block again (R69). -/
  | refetch (core : Nat)
  /-- A TLB gives up an entry (R390). -/
  | evictTlb (core : Nat) (va : Nat)
  /-- A parity error of one lane's granule is found by the read that comes next and rebuilt (R128, R395, log 2). -/
  | parity (core : Nat) (slot : Fin 4) (lane loc : Nat)
  /-- A parity error that cannot be rebuilt (R128, SUB 2), a scalar double-bit error (R129, SUB 3), an error that the running matrix
instruction finds in its latches or accumulators (R214, SUB 4). -/
  | parityFatal (core : Nat) (slot : Fin 4) (sub : Nat)
  /-- A single-bit scalar error is corrected (R129). -/
  | scalarFixed (core : Nat)
  /-- An uncorrectable media error in the sector at lin, or in the metadata entry of its block (R259). -/
  | mediaError (lin : Nat) (entry : Bool)
  /-- An uncorrectable error in sector i of an L1 line, of a line of a die's RDC, of the L2 copy of the line at lin (R259). -/
  | l1Error (core tag : Nat) (i : Fin 4)
  | rdcError (die tag : Nat) (i : Fin 4)
  | l2Error (lin : Nat)
  /-- An I/O die receives a posted write from the host or a peer; it reaches its home later (R276). -/
  | receive (pa : Nat) (data : List Byte)
  /-- A queue operation of the host (`port` none) or of the module on a peer port arrives, pairable with a window or not (R307, R312). -/
  | outsideQueue (port : Option (Fin 8)) (op : QOp) (pa : Nat) (e16 : Bool) (lo hi : Word) (win : Option Nat)
  /-- The host loads n bytes of one sector through BAR2 or its HDM range, or stores there through CXL.mem (R403). -/
  | hostLoad (lin n : Nat)
  | hostStore (lin : Nat) (data : List Byte)
  /-- The host loads, or stores, n bytes of configuration space through BAR0 (R403, R405). -/
  | hostCfgLoad (off n : Nat)
  | hostCfgStore (off n v : Nat)
  /-- The host changes its own memory, or a peer its own. -/
  | hostMem (addr : Nat) (data : List Byte)
  | peerMem (port : Fin 8) (addr : Nat) (data : List Byte)
  /-- Home slices read the time base this many SCLK cycles behind a core, at most 64 (R272). -/
  | lag (n : Nat)
deriving DecidableEq, Repr

/-- A turn: what the next step does (log 2). -/
inductive Turn where
  | run (core slot : Nat)
  | step (i : Instr) (e : Ev)
  | ticks (n : Nat)
  | env (m : EnvMove)
  /-- A barrel turn in which, if the thread traps, its latest loads are still under way, each at the element named (R372). -/
  | late (core slot : Nat) (progs : List Nat)
  /-- A barrel turn during which the host link (none) or a peer port goes down, before the accesses of the elements from n up are answered
  (R401). -/
  | falls (core slot : Nat) (port : Option (Fin 8)) (n : Nat)
deriving DecidableEq, Repr

/-- What a `ctxsave` has noted of an image: its record, its address, the bytes of its matrix section, if it has one, and the
matrix state that it shows. R415's layout has no room for the scale bytes of `.mxf4` latches and for the chain, which R192 and
R212 restore (log 16). -/
structure Kept where
  rec_ : Nat
  va : Nat
  sec : Option Blob
  mat : Mat
deriving DecidableEq, Repr

/-- Memory and caches of the package, and what the slices and stacks hold. `kept` lists the notes of the images that this module has
written, the latest first. -/
structure Store where
  media : Mem
  l2 : List L2Sector
  poison : List Nat
  pblk : List Nat
  rdc : List RdcLine
  sscr : List (Nat × Word)
  ss : List (Nat × Mem)
  homeW : List HomeWatch
  sliceGen : List (Nat × BitVec 32)
  l2tlb : List (Nat × TlbEntry)
  trav : List (Nat × BitVec 256)
  marks : List (Nat × Nat)
  atomLog : List (Nat × Nat × Nat)
  drowsy : List Nat
  host : Mem
  peer : List (Nat × Mem)
  posted : List Posted
  kept : List Kept
deriving DecidableEq, Repr

/-- The Lift, the engines and the messages in flight. `insts` gives the indices of instance records that have still to be
dispatched (R332); `lastCtx` the context served last in each segment and its placements in that turn (R334); `checks` the sources
of machine checks that no thread was there to take (R21, R404); `hostReply` what the last load of the host returned, and whether
it was poisoned (R403); `used` the number, context and virtual address of each queue operation, command and row in flight whose
access has been translated (R391); `drops` the lines whose drops by last-use loads are on their way to the home slices (R261);
`falling` the link that goes down during the turn, none the host link, and the first element whose access it does not answer
(R401). -/
structure Fabric where
  tasks : List LTask
  groups : List LGroup
  insts : List (Nat × Nat × Nat × Nat)
  cmds : List ECmd
  msgs : List QMsg
  rows : List MRow
  nextId : Nat
  lastCtx : List (Nat × Nat × Nat)
  linkFails : List (Nat × Nat × Nat)
  linksDown : List (Nat × Nat)
  reported : Nat
  checks : List Nat
  hostReply : Nat × Bool
  used : List (Nat × Nat × Nat)
  drops : List Nat
  falling : Option (Option (Fin 8) × Nat)
deriving DecidableEq, Repr

/-- The state of the module. The thread in focus is `th`, at `slot` of core `coreId`, whose other state is `core`;
`others` holds the other cores by linear number; a core that it does not list is as at reset. -/
structure State where
  th : Thread
  slot : Fin 4
  core : Core
  coreId : Nat
  others : List (Nat × Core)
  store : Store
  fab : Fabric
  boot : Boot
  harvest : List (Nat × Bool × Bool)
  drowsyThresh : Vector Nat 8
  ctxtab : Word
  recmap : Word
  time : Nat
  seq : Nat
  lag : Nat
  free : Nat
  schedule : List Turn
  ev : Ev
deriving DecidableEq, Repr

/-! ## Outcomes -/

/-- Why a step ends in a fault. -/
inductive Fault where
  /-- Raised by `step` when the start ended in MODE 11 or a failure has stopped it: no instruction can run until the next
  reset (R408, R409). Safe: the hardware runs nothing either. -/
  | bootHalted
deriving DecidableEq, Repr

/-- Why an instruction is refused. -/
inductive Refusal where
  /-- An instruction whose meaning is not written. Raised by the refused arms of `exec`. Safe: no claim can rest on it. -/
  | notModelled (mnemonic : String)
deriving DecidableEq, Repr

/-! ## Reset -/

def VRegister.zero : VRegister := { data := 0, tag := false, side := 0, vb := 0, dirty := false }

/-- Vector state at task start for a register length (R27, R131). -/
def VecState.init (vlen : Nat) : VecState :=
  { v := Vector.replicate 64 .zero, m := Vector.replicate 8 0, o := Vector.replicate 8 0, lat := Vector.replicate 7 0,
    vlen, vl := 0, fx := 0, rm := .rne }

/-- The number of a thread's generator (R109). -/
def threadGenNo (core slot : Nat) : Nat := core * 256 + slot

/-- A generator's state at reset: the seed, forced nonzero (R109, log 3). -/
def seedOf (n : Nat) : BitVec 32 := if Config.freeSeed n = 0 then 1 else Config.freeSeed n

/-- An empty thread slot: every register zero, `VSTATE.RM` to nearest even (R27, R131, log 1). -/
def Thread.reset (core slot : Nat) : Thread :=
  { occ := false, pc := 0, s := Vector.replicate 32 0, k := Vector.replicate 16 0, p := Vector.replicate 8 0,
    psz := Vector.replicate 8 0, vec := .init 0, lcount := 0, laneBusy := 0, tframe := 0, level := 0, intrap := false,
    imask := false, gen := seedOf (threadGenNo core slot), acqL1 := 0, acqRdc := 0, convoy := none, issue := none,
    replay := [], rtn := none, vp := none, vpHeld := none, rwatch := none, wait := .none, spin := 0, qans := none,
    polling := none, ending := false, atBar := false, mcStop := none, recent := [], flight := [] }

def L1Sector.clean : L1Sector := { dmask := 0, own := Vector.replicate 4 0, since := 0, full := false, poison := false }

def CoreWatch.clear : CoreWatch := { addr := 0, rd := false, wr := false, len := 0 }

def TShape.undef : TShape := { owner := 0, rows := 0, cols := 0, base := 0 }

/-- Matrix state at reset and at task start (R182). -/
def Mat.reset : Mat :=
  { mode := .v, mvl := 2, wlive := false, alive := false, fcause := 0, chain := 0, partner := 0,
    tshape := Vector.replicate 8 .undef, latTy := .i8, lat := [], acc := 0, recv := Vector.replicate 8 none, queue := [],
    started := false, gate := 0, bound := none, held := none, xlive := false, ctr := none }

/-- The per-core registers at reset (R134, R217, R222, R224, R227, R271, R337, R368, R411; `CTXID` and `PTROOT`
log 1). -/
def CoreRegs.reset : CoreRegs :=
  { tvec := 0, ttimer := 0, ipend := 0, ctxid := 0, ptroot := 0, lease := 1024, orbase := 0, orcnt := 0, orflt0 := 0,
    orflt1 := 0, orprobe := 0, carve := 0, regerr := 0, taskrec := 0, mcvec := 0, mcframe := 0 }

/-- A core on which no task has run since reset (R393). -/
def Core.reset : Core :=
  { parked := [], team := 0, absorb := false, task := none, sys := .reset, watch := Vector.replicate 2 .clear,
    mat := .reset, spad := [], l1 := [], pred := [], sent := [], kcache := [], rcache := [], rpend := [], tlb := [], ibuf := [],
    binds := [], lastSplit := none, heldOut := 0, imgMap := none, laneGen := [], drainGen := [], lastSlot := 3, issued := 0,
    outOfService := false }

def Store.reset : Store :=
  { media := [], l2 := [], poison := [], pblk := [], rdc := [], sscr := [], ss := [], homeW := [], sliceGen := [],
    l2tlb := [], trav := [], marks := [], atomLog := [], drowsy := [], host := [], peer := [], posted := [], kept := [] }

def Fabric.reset : Fabric :=
  { tasks := [], groups := [], insts := [], cmds := [], msgs := [], rows := [], nextId := 1, lastCtx := [], linkFails := [],
    linksDown := [], reported := 0, checks := [], hostReply := (0, false), used := [], drops := [], falling := none }

/-- What a start finds when every die, stack, link and core is good (log 5). -/
def goodFacts : BootFacts :=
  { signature := true, dieFails := [], stackFails := [], linksTrain := true, harvest := [], compress := 0, flit := true }

/-- A full-mode start that the boot ROM has begun: the failed-start counter has been raised from 0, every die, stack,
link and core is good, and firmware has still to store `BOOTOK` (R408, log 5). -/
def Boot.reset : Boot :=
  { mode := 0, fails := 1, reason := 0, mreason := 0, live := 0, ok := false, ports := 255, compress := 0, stopped := false,
    stat := 2 ^ 32, facts := goodFacts }

/-- The module right after reset: no task, nothing in memory or in any cache, time 0, and the focus on slot 0 of
core 0 (log 1, log 4, log 5). -/
def State.reset : State :=
  { th := .reset 0 0, slot := 0, core := .reset, coreId := 0, others := [], store := .reset, fab := .reset,
    boot := .reset, harvest := [], drowsyThresh := Vector.replicate 8 4096, ctxtab := 0, recmap := 0, time := 0, seq := 0,
    lag := 0, free := 0, schedule := [], ev := {} }

end Sys2Proof.Machine
end

