-- ==== Sys2Proof/Machine/Bits.lean ====
section
/-! DEFINITION. Byte strings held as numbers, registers in vectors, sign extension, association lists and the byte memories
(00_scope R1; log 4). -/

namespace Sys2Proof.Machine

/-! ## Byte strings -/

/-- Bytes off to off + n − 1 of a byte string, as a little-endian number. -/
def getB (x : Blob) (off n : Nat) : Nat := x / 256 ^ off % 256 ^ n

/-- The byte string with bytes off to off + n − 1 replaced by the low n bytes of v. -/
def putB (x : Blob) (off n v : Nat) : Blob :=
  x % 256 ^ off + 256 ^ off * (v % 256 ^ n) + 256 ^ (off + n) * (x / 256 ^ (off + n))

/-- Bits off to off + n − 1. -/
def getBits (x off n : Nat) : Nat := x / 2 ^ off % 2 ^ n

/-- The number with bits off to off + n − 1 replaced by the low n bits of v. -/
def putBits (x off n v : Nat) : Nat :=
  x % 2 ^ off + 2 ^ off * (v % 2 ^ n) + 2 ^ (off + n) * (x / 2 ^ (off + n))

/-- Bit i of a mask held as a number. -/
def bit (x i : Nat) : Bool := x / 2 ^ i % 2 = 1

/-- The n lowest-index bytes that a list gives, as a number. -/
def ofBytes : List Byte → Nat
  | [] => 0
  | b :: bs => b.toNat + 256 * ofBytes bs

/-- The first n bytes of a number. -/
def toBytes : Nat → Nat → List Byte
  | 0, _ => []
  | n + 1, x => BitVec.ofNat 8 x :: toBytes n (x / 256)

/-- The signed value of the low w bits. -/
def sint (w x : Nat) : Int := if 2 * (x % 2 ^ w) < 2 ^ w then (x % 2 ^ w : Nat) else (x % 2 ^ w : Nat) - (2 ^ w : Nat)

/-- The low w bits of an integer, in two's complement. -/
def uint (w : Nat) (x : Int) : Nat := (x % (2 ^ w : Nat)).toNat

/-- Sign extension of an immediate to 64 bits. -/
def sext (x : BitVec n) : Word := x.signExtend 64

/-- A word from a number, and the low n bytes of a word extended by a type's signedness (R145). -/
def wd (n : Nat) : Word := BitVec.ofNat 64 n

def extend (signed : Bool) (bytes x : Nat) : Word :=
  if signed then BitVec.ofInt 64 (sint (8 * bytes) x) else wd (x % 256 ^ bytes)

/-- Smaller multiple of n that is at least x, for n > 0. -/
def roundUp (x n : Nat) : Nat := (x + n - 1) / n * n

/-- Floor of the base 2 logarithm; 0 for 0. -/
def log2 (x : Nat) : Nat := Nat.log2 x

/-! ## Vectors of registers -/

/-- Register i of a file. -/
def rd (v : Vector α n) (i : Fin n) : α := v[i.val]

/-- The file with register i replaced. -/
def wr (v : Vector α n) (i : Fin n) (x : α) : Vector α n := v.set i.val x

/-! ## Association lists -/

/-- The value of a key, if any. -/
def look [BEq κ] (l : List (κ × α)) (k : κ) : Option α := (l.find? (fun p => p.1 == k)).map (·.2)

/-- The list without a key. -/
def unset [BEq κ] (l : List (κ × α)) (k : κ) : List (κ × α) := l.filter (fun p => !(p.1 == k))

/-- The list with a key set, keys rising. -/
def assoc (l : List (Nat × α)) (k : Nat) (x : α) : List (Nat × α) :=
  match l with
  | [] => [(k, x)]
  | (j, y) :: r => if k < j then (k, x) :: (j, y) :: r else if k = j then (k, x) :: r else (j, y) :: assoc r k x

/-! ## Byte memories -/

/-- What a memory's address reads as: the listed byte, else zero (log 4). -/
def Mem.read (m : Mem) (a : Nat) : Byte :=
  match m with
  | [] => 0
  | (j, b) :: r => if a < j then 0 else if a = j then b else Mem.read r a

/-- The memory with one byte written; a zero byte is not listed. -/
def Mem.write (m : Mem) (a : Nat) (b : Byte) : Mem :=
  match m with
  | [] => if b = 0 then [] else [(a, b)]
  | (j, c) :: r =>
    if a < j then (if b = 0 then (j, c) :: r else (a, b) :: (j, c) :: r)
    else if a = j then (if b = 0 then r else (a, b) :: r)
    else (j, c) :: Mem.write r a b

/-- The canonical form: addresses strictly rising, no entry equal to what an unlisted address reads as. -/
def Mem.wf (m : Mem) : Bool :=
  match m with
  | [] => true
  | [(_, b)] => b != 0
  | (a, b) :: (a', b') :: r => b != 0 && decide (a < a') && Mem.wf ((a', b') :: r)

/-- n bytes from address a up, as a number (R1). -/
def Mem.readN (m : Mem) (a : Nat) : Nat → Nat
  | 0 => 0
  | n + 1 => (Mem.read m a).toNat + 256 * Mem.readN m (a + 1) n

/-- The memory with the low n bytes of v written from address a up (R1). -/
def Mem.writeN (m : Mem) (a : Nat) : Nat → Nat → Mem
  | 0, _ => m
  | n + 1, v => Mem.writeN (Mem.write m a (BitVec.ofNat 8 v)) (a + 1) n (v / 256)

/-- The memory with n zero bytes from address a up: every entry of the range removed. -/
def Mem.clear (m : Mem) (a n : Nat) : Mem := m.filter (fun c => c.1 < a || a + n ≤ c.1)

/-- Triples in lexicographic order. -/
def before (x y : Nat × Nat × Nat) : Bool :=
  decide (x.1 < y.1) || (x.1 == y.1 && (decide (x.2.1 < y.2.1) || (x.2.1 == y.2.1 && decide (x.2.2 < y.2.2))))

end Sys2Proof.Machine
end

