-- ==== Sys2Proof/Machine/Codes.lean ====
section
/-! DEFINITION. The code tables of the encodings and what an encoding must satisfy beyond the ranges of its fields
(03_instruction_words R55–R61, 07 R161–R171, 08 R193, 09 R223, 11 R266, 13 R300–R303). -/

namespace Sys2Proof

/-- The type of a 6-bit code, none for a reserved code (R58). -/
def ETy.ofCode (n : Nat) : Option ETy :=
  if n < 32 then
    match n with
    | 0 => some .i8 | 1 => some .i16 | 2 => some .i32 | 3 => some .i64
    | 4 => some .n8 | 5 => some .n16 | 6 => some .n32 | 7 => some .n64
    | 8 => some .f64 | 9 => some .f32 | 10 => some .f16 | 11 => some .bf16
    | 12 => some .e4m3 | 13 => some .e5m2 | 14 => some .mxf4
    | _ => none
  else if n < 64 ∧ n % 8 ≠ 0 then
    some (.b8 (Fin.ofNat 7 (n % 8 - 1)) (n / 16 % 2 = 1) (n / 8 % 2 = 1))
  else none

/-- The 6-bit code of a type (R58). -/
def ETy.code : ETy → Nat
  | .i8 => 0 | .i16 => 1 | .i32 => 2 | .i64 => 3 | .n8 => 4 | .n16 => 5 | .n32 => 6 | .n64 => 7
  | .f64 => 8 | .f32 => 9 | .f16 => 10 | .bf16 => 11 | .e4m3 => 12 | .e5m2 => 13 | .mxf4 => 14
  | .b8 p n x => 32 + (if n then 16 else 0) + (if x then 8 else 0) + (p.val + 1)

/-- Integer types (R7). -/
def ETy.isInt : ETy → Bool
  | .i8 | .i16 | .i32 | .i64 | .n8 | .n16 | .n32 | .n64 => true
  | .f64 | .f32 | .f16 | .bf16 | .e4m3 | .e5m2 | .mxf4 | .b8 _ _ _ => false

/-- Signed integer types. -/
def ETy.isSigned : ETy → Bool
  | .i8 | .i16 | .i32 | .i64 => true
  | .n8 | .n16 | .n32 | .n64 | .f64 | .f32 | .f16 | .bf16 | .e4m3 | .e5m2 | .mxf4 | .b8 _ _ _ => false

/-- The four floating types that the vector arithmetic takes (R163). -/
def ETy.isFloat4 : ETy → Bool
  | .f64 | .f32 | .f16 | .bf16 => true
  | .i8 | .i16 | .i32 | .i64 | .n8 | .n16 | .n32 | .n64 | .e4m3 | .e5m2 | .mxf4 | .b8 _ _ _ => false

/-- The types that `mldb`, `mmul`, `mopa` and `mgmul` accept as inputs (R193). -/
def ETy.isMatIn : ETy → Bool
  | .bf16 | .f16 | .e4m3 | .e5m2 | .mxf4 | .b8 _ _ _ => true
  | .i8 | .i16 | .i32 | .i64 | .n8 | .n16 | .n32 | .n64 | .f64 | .f32 => false

/-- Width in bits of an element (R152); 4 for `.mxf4`. -/
def ETy.bits : ETy → Nat
  | .i8 | .n8 | .e4m3 | .e5m2 | .b8 _ _ _ => 8
  | .i16 | .n16 | .f16 | .bf16 => 16
  | .i32 | .n32 | .f32 => 32
  | .i64 | .n64 | .f64 => 64
  | .mxf4 => 4

/-- The width classes of R199: 8-bit types, 16-bit floating types, `.mxf4`; other types are in no class. -/
def ETy.matClass : ETy → Nat
  | .e4m3 | .e5m2 | .b8 _ _ _ => 1
  | .bf16 | .f16 => 2
  | .mxf4 => 3
  | .i8 | .i16 | .i32 | .i64 | .n8 | .n16 | .n32 | .n64 | .f64 | .f32 => 0

/-- The rounding selection of a 3-bit code, none for 110 and 111 (R57). -/
def RmSel.ofCode : Nat → Option RmSel
  | 0 => some .dyn | 1 => some .rne | 2 => some .rtz | 3 => some .rup | 4 => some .rdn | 5 => some .rst
  | _ => none

/-- The 3-bit code of a rounding selection (R57). -/
def RmSel.code : RmSel → Nat
  | .dyn => 0 | .rne => 1 | .rtz => 2 | .rup => 3 | .rdn => 4 | .rst => 5

/-- Format code of the scalar floating instructions (R148). -/
def FFmt.ofCode : Nat → Option FFmt
  | 0 => some .f64 | 1 => some .f32 | 2 => some .f16 | 3 => some .bf16 | _ => none

def FFmt.code : FFmt → Nat
  | .f64 => 0 | .f32 => 1 | .f16 => 2 | .bf16 => 3

/-- The element type of a scalar floating format. -/
def FFmt.ety : FFmt → ETy
  | .f64 => .f64 | .f32 => .f32 | .f16 => .f16 | .bf16 => .bf16

def FRel.ofCode : Nat → Option FRel
  | 0 => some .eq | 1 => some .lt | 2 => some .le | 3 => some .un | _ => none

def FRel.code : FRel → Nat
  | .eq => 0 | .lt => 1 | .le => 2 | .un => 3

/-- Condition code of `cmp` and `cmpi` (R141). -/
def Cond.ofCode : Nat → Option Cond
  | 0 => some .eq | 1 => some .ne | 2 => some .lt | 3 => some .ge | 4 => some .ltn | 5 => some .gen | _ => none

def Cond.code : Cond → Nat
  | .eq => 0 | .ne => 1 | .lt => 2 | .ge => 3 | .ltn => 4 | .gen => 5

def VRel.ofCode : Nat → Option VRel
  | 0 => some .eq | 1 => some .ne | 2 => some .lt | 3 => some .le | 4 => some .gt | 5 => some .ge | _ => none

def VRel.code : VRel → Nat
  | .eq => 0 | .ne => 1 | .lt => 2 | .le => 3 | .gt => 4 | .ge => 5

/-- Scope code (R269). -/
def Scope.ofCode : Nat → Option Scope
  | 0 => some .core | 1 => some .clu | 2 => some .die | 3 => some .pkg | 4 => some .fab | _ => none

def Scope.code : Scope → Nat
  | .core => 0 | .clu => 1 | .die => 2 | .pkg => 3 | .fab => 4

/-- Type code of an atomic (R300). -/
def AmoTy.ofCode : Nat → Option AmoTy
  | 0 => some .i32 | 1 => some .i64 | 2 => some .n32 | 3 => some .n64 | 4 => some .f32 | 5 => some .bf16 | _ => none

def AmoTy.code : AmoTy → Nat
  | .i32 => 0 | .i64 => 1 | .n32 => 2 | .n64 => 3 | .f32 => 4 | .bf16 => 5

/-- The element type of an atomic's type. -/
def AmoTy.ety : AmoTy → ETy
  | .i32 => .i32 | .i64 => .i64 | .n32 => .n32 | .n64 => .n64 | .f32 => .f32 | .bf16 => .bf16

/-- The atomic type of an element type, where there is one (R303). -/
def AmoTy.ofEty : ETy → Option AmoTy
  | .i32 => some .i32 | .i64 => some .i64 | .n32 => some .n32 | .n64 => some .n64
  | .f32 => some .f32 | .bf16 => some .bf16
  | .i8 | .i16 | .n8 | .n16 | .f64 | .f16 | .e4m3 | .e5m2 | .mxf4 | .b8 _ _ _ => none

/-- The types that each atomic operation accepts (R300). -/
def amoAccepts (op : AmoOp) (ty : AmoTy) : Bool :=
  match op with
  | .add => ty = .i32 ∨ ty = .i64 ∨ ty = .f32 ∨ ty = .bf16
  | .and | .or | .xor => ty = .i32 ∨ ty = .i64 ∨ ty = .n32 ∨ ty = .n64
  | .min | .max | .swap | .cas => true

/-- Type code of a scalar load (R145). -/
def LdTy.ofCode : Nat → Option LdTy
  | 0 => some .i8 | 1 => some .i16 | 2 => some .i32 | 3 => some .i64 | 4 => some .n8 | 5 => some .n16
  | 6 => some .n32 | _ => none

def LdTy.code : LdTy → Nat
  | .i8 => 0 | .i16 => 1 | .i32 => 2 | .i64 => 3 | .n8 => 4 | .n16 => 5 | .n32 => 6

/-- Bytes that a scalar load reads (R145). -/
def LdTy.bytes : LdTy → Nat
  | .i8 | .n8 => 1 | .i16 | .n16 => 2 | .i32 | .n32 => 4 | .i64 => 8

def StW.ofCode : Nat → Option StW
  | 0 => some .b | 1 => some .h | 2 => some .w | 3 => some .d | _ => none

def StW.code : StW → Nat
  | .b => 0 | .h => 1 | .w => 2 | .d => 3

/-- Bytes that a scalar store writes (R146). -/
def StW.bytes : StW → Nat
  | .b => 1 | .h => 2 | .w => 4 | .d => 8

/-- The register of a 12-bit number, none where no chapter assigns it (R130, R182, R183, R217, R227, R252, R271, R322,
R337, R338, R368, R387, R411). -/
def SysReg.ofNum (n : Nat) : Option SysReg :=
  match n with
  | 0x000 => some .vstate | 0x001 => some .lcount | 0x002 => some .thread | 0x003 => some .cycle
  | 0x004 => some .lanebusy | 0x005 => some .regerr | 0x100 => some .mstate
  | 0x108 => some (.tshape 0) | 0x109 => some (.tshape 1) | 0x10A => some (.tshape 2) | 0x10B => some (.tshape 3)
  | 0x10C => some (.tshape 4) | 0x10D => some (.tshape 5) | 0x10E => some (.tshape 6) | 0x10F => some (.tshape 7)
  | 0x140 => some .carve | 0x180 => some .tframe | 0x181 => some .tvec | 0x182 => some .tstat
  | 0x183 => some .ttimer | 0x184 => some .ipend | 0x1C0 => some .orbase | 0x1C1 => some .orcnt
  | 0x1C2 => some .orflt0 | 0x1C3 => some .orflt1 | 0x1C4 => some .orprobe | 0x200 => some .sscr
  | 0x240 => some .lease | 0x280 => some .fqueue | 0x281 => some .liftw | 0x282 => some .taskrec
  | 0x284 => some .ctxtab | 0x285 => some .recmap | 0x2C0 => some .ptroot | 0x2C1 => some .ctxid
  | 0x300 => some .mcvec | 0x301 => some .mcframe
  | _ => none

/-- The number of a system register. -/
def SysReg.num : SysReg → Nat
  | .vstate => 0x000 | .lcount => 0x001 | .thread => 0x002 | .cycle => 0x003 | .lanebusy => 0x004
  | .regerr => 0x005 | .mstate => 0x100 | .tshape i => 0x108 + i.val | .carve => 0x140 | .tframe => 0x180
  | .tvec => 0x181 | .tstat => 0x182 | .ttimer => 0x183 | .ipend => 0x184 | .orbase => 0x1C0 | .orcnt => 0x1C1
  | .orflt0 => 0x1C2 | .orflt1 => 0x1C3 | .orprobe => 0x1C4 | .sscr => 0x200 | .lease => 0x240
  | .fqueue => 0x280 | .liftw => 0x281 | .taskrec => 0x282 | .ctxtab => 0x284 | .recmap => 0x285
  | .ptroot => 0x2C0 | .ctxid => 0x2C1 | .mcvec => 0x300 | .mcframe => 0x301

/-- Registers that have a write level; the others take only `sysrd` (R135). -/
def SysReg.writable : SysReg → Bool
  | .thread | .cycle | .lanebusy | .tshape _ | .orflt0 | .orflt1 | .orprobe | .taskrec => false
  | .vstate | .lcount | .regerr | .mstate | .carve | .tframe | .tvec | .tstat | .ttimer | .ipend | .orbase | .orcnt
  | .sscr | .lease | .fqueue | .liftw | .ctxtab | .recmap | .ptroot | .ctxid | .mcvec | .mcframe => true

/-- A source that the instruction does not use must have no bit set (R55). -/
def VSrc.unused (x : VSrc) : Bool := x = .v 0 false

/-- A level-11 source (R55). -/
def VSrc.isScalar : VSrc → Bool
  | .s _ => true | .v _ _ | .o _ | .lat _ => false

/-- A level-00 source (R55). -/
def VSrc.isMain : VSrc → Bool
  | .v _ _ => true | .s _ | .o _ | .lat _ => false

/-- A mask operand: level 00 and index below 8 (R166). A chain bit is legal at level 00 (R55) and has no effect. -/
def VSrc.isMask : VSrc → Bool
  | .v r _ => r.val < 8 | .s _ | .o _ | .lat _ => false

/-- The p field of a memory instruction, or a mask index without chain bit (R171, R176). -/
def VSrc.isPtr : VSrc → Bool
  | .v r ch => r.val < 8 ∧ ch = false | .s _ | .o _ | .lat _ => false

/-- No rounding and none of `.sat`, `.ord`, ux (R57). -/
def VF.plain (f : VF) : Bool := f.rm = .dyn ∧ f.sat = false ∧ f.ord = false ∧ f.ux = false

/-- Integer instructions of two sources (R161). -/
def okInt2 (sat : Bool) (f : VF) : Bool :=
  f.ty.isInt ∧ f.rm = .dyn ∧ (f.sat = false ∨ sat) ∧ f.ord = false ∧ f.ux = false ∧ f.c.unused

/-- `vmacc` (R161). -/
def okMacc (f : VF) : Bool := f.ty.isInt ∧ f.rm = .dyn ∧ f.ord = false ∧ f.ux = false

/-- `vmv` (R161). -/
def okMv (f : VF) : Bool := f.ty.isInt ∧ f.plain ∧ f.b.unused ∧ f.c.unused

/-- `vcmp` (R161, R162). -/
def okCmp (f : VF) : Bool := f.ty.isInt ∧ f.plain ∧ f.c.unused ∧ f.d.val < 8

/-- Floating instructions of two and three sources (R163). -/
def okFlt2 (f : VF) : Bool := f.ty.isFloat4 ∧ f.sat = false ∧ f.ord = false ∧ f.ux = false ∧ f.c.unused

def okFlt3 (f : VF) : Bool := f.ty.isFloat4 ∧ f.sat = false ∧ f.ord = false ∧ f.ux = false

def okFlt1 (f : VF) : Bool := okFlt2 f ∧ f.b.unused

/-- Floating instructions on the ALU (R164). -/
def okFAlu2 (f : VF) : Bool := f.ty.isFloat4 ∧ f.plain ∧ f.c.unused

def okFAlu1 (f : VF) : Bool := okFAlu2 f ∧ f.b.unused

def okFCmp (f : VF) : Bool := okFAlu2 f ∧ f.d.val < 8

/-- The source type of `vcvt`, in the register field of c (R165). -/
def vcvtSrc (f : VF) : Option ETy :=
  match f.c with
  | .v r false => ETy.ofCode r.val
  | .v _ true | .o _ | .lat _ | .s _ => none

/-- `vcvt` (R165). -/
def okCvt (f : VF) : Bool :=
  match vcvtSrc f with
  | none => false
  | some src =>
    f.b.unused ∧ f.ord = false ∧ f.ux = false ∧ src ≠ f.ty ∧ (f.rm = .dyn ∨ !(src.isInt && f.ty.isInt))

/-- Mask instructions (R166). -/
def okM2 (f : VF) : Bool := f.ty = .i8 ∧ f.plain ∧ f.d.val < 8 ∧ f.a.isMask ∧ f.b.isMask ∧ f.c.unused

def okM1 (f : VF) : Bool := f.ty = .i8 ∧ f.plain ∧ f.d.val < 8 ∧ f.a.isMask ∧ f.b.unused ∧ f.c.unused

def okMScalar (f : VF) : Bool := f.ty = .i8 ∧ f.plain ∧ f.d.val < 32 ∧ f.a.isMask ∧ f.b.unused ∧ f.c.unused

def okMerge (f : VF) : Bool := f.ty ≠ .mxf4 ∧ f.plain ∧ f.c.isMask

def okMk (f : VF) : Bool := f.ty = .i8 ∧ f.plain ∧ f.d.val < 8 ∧ f.a.isScalar ∧ f.b.unused ∧ f.c.unused

def okIota (f : VF) : Bool := f.ty.isInt ∧ f.plain ∧ f.a.isMask ∧ f.b.unused ∧ f.c.unused

def okId (f : VF) : Bool := f.ty.isInt ∧ f.plain ∧ f.a.unused ∧ f.b.unused ∧ f.c.unused

/-- Permutes and slides (R167). -/
def okSlide (f : VF) : Bool := f.plain ∧ f.b.isScalar ∧ f.c.unused

def okPerm (f : VF) : Bool := f.ty ≠ .mxf4 ∧ f.plain ∧ f.c.unused

def okCompress (f : VF) : Bool := f.plain ∧ f.b.unused ∧ f.c.unused

def okToo (f : VF) : Bool := f.ty = .n64 ∧ f.plain ∧ f.d.val < 8 ∧ f.a.isMain ∧ f.b.isScalar ∧ f.c.unused

/-- Reductions (R169). -/
def okRedSum (f : VF) : Bool :=
  (f.ty.isInt ∨ f.ty.isFloat4) ∧ (f.rm = .dyn ∨ f.ty.isFloat4) ∧ (f.sat = false ∨ f.ty.isInt) ∧ f.ux = false ∧
    f.c.unused

def okRedMin (f : VF) : Bool := (f.ty.isInt ∨ f.ty.isFloat4) ∧ f.plain ∧ f.c.unused

def okRedBit (f : VF) : Bool := f.ty.isInt ∧ f.plain ∧ f.c.unused

/-- Vector memory instructions (R171–R176, R266). -/
def okScaleB (f : VF) : Bool := if f.ty = .mxf4 then f.b.isScalar else f.b.unused

def okLd (f : VF) : Bool := f.plain ∧ f.a.isPtr ∧ okScaleB f ∧ f.c.unused

def okLds (f : VF) : Bool := f.plain ∧ f.ty ≠ .mxf4 ∧ f.a.isPtr ∧ f.b.isScalar ∧ f.c.unused

def okLdx (f : VF) : Bool := f.plain ∧ f.ty ≠ .mxf4 ∧ f.a.isPtr ∧ f.b.isMain ∧ f.c.unused

def okLdxPeer (f : VF) : Bool :=
  f.rm = .dyn ∧ f.sat = false ∧ f.ord = false ∧ f.ux = true ∧ f.ty ≠ .mxf4 ∧ f.a.isPtr ∧ f.b.isMain ∧ f.c.isPtr

def okLdff (f : VF) : Bool := f.plain ∧ f.ty ≠ .mxf4 ∧ f.a.isPtr ∧ f.b.unused ∧ f.c.unused

def okLdt (f : VF) : Bool := f.plain ∧ f.ty ≠ .mxf4 ∧ f.a.unused ∧ f.b.isScalar ∧ f.c.isScalar

def okLdo (f : VF) : Bool := f.plain ∧ f.ty = .n64 ∧ f.d.val < 8 ∧ f.a.isPtr ∧ f.b.unused ∧ f.c.unused

def okSt (f : VF) : Bool := f.plain ∧ f.d.val = 0 ∧ f.a.isPtr ∧ okScaleB f

def okSts (f : VF) : Bool := f.plain ∧ f.ty ≠ .mxf4 ∧ f.d.val = 0 ∧ f.a.isPtr ∧ f.b.isScalar

def okStx (f : VF) : Bool := f.plain ∧ f.ty ≠ .mxf4 ∧ f.d.val = 0 ∧ f.a.isPtr ∧ f.b.isMain

def okStxPeer (f : VF) : Bool :=
  f.rm = .dyn ∧ f.sat = false ∧ f.ord = false ∧ f.ux = true ∧ f.ty ≠ .mxf4 ∧ f.d.val < 8 ∧ f.a.isPtr ∧ f.b.isMain

/-- `vamo` (R303). -/
def okAmo (op : AmoOp) (f : VF) : Bool :=
  match AmoTy.ofEty f.ty with
  | none => false
  | some ty =>
    amoAccepts op ty ∧ f.sat = false ∧ f.a.isPtr ∧ f.b.isMain ∧
      (f.rm = .dyn ∨ (f.rm = .rst ∧ op = .add ∧ ty = .bf16)) ∧
      (if op = .cas then f.ux = false else (f.ux = true ∨ f.d.val = 0))

/-- All fields of a matrix instruction zero (R59). -/
def MF.zero : MF :=
  { kd := 0, kc := 0, kr := 0, c := 0, b := 0, a := 0, t := 0, s := 0, ty := .i8, rm := .dyn, sat := false,
    ca := false, fx := 0 }

/-- The fields that each matrix instruction may use (R193, R223). -/
def okMmode (f : MF) : Bool :=
  f = { MF.zero with t := f.t, fx := f.fx } ∧ f.fx.toNat % 4 ≠ 3 ∧ f.fx.toNat < 16 ∧ (f.t = 0 ∨ f.fx.toNat / 4 % 2 = 1)

def okMshape (f : MF) : Bool := f = { MF.zero with t := f.t, s := f.s, ty := .f32, fx := f.fx } ∧ f.fx.toNat < 2

def okMzero (f : MF) : Bool := f = { MF.zero with t := f.t }

def okMfx1 (f : MF) : Bool := f = { MF.zero with fx := 1 }

def okMldb (f : MF) : Bool := f = { MF.zero with s := f.s, kc := f.kc, kd := f.kd, ty := f.ty } ∧ f.ty.isMatIn

def okMmul (f : MF) : Bool :=
  f = { MF.zero with t := f.t, a := f.a, s := f.s, kr := f.kr, kc := f.kc, kd := f.kd, ty := f.ty, ca := f.ca } ∧
    f.ty.isMatIn

def okMopa (f : MF) : Bool :=
  f = { MF.zero with a := f.a, b := f.b, s := f.s, kr := f.kr, kc := f.kc, kd := f.kd, ty := f.ty, ca := f.ca } ∧
    f.ty.isMatIn

def okMgmul (f : MF) : Bool :=
  f = { MF.zero with
        t := f.t, a := f.a, b := f.b, c := f.c, s := f.s, kr := f.kr, kc := f.kc, kd := f.kd, ty := f.ty, ca := f.ca } ∧
    f.ty.isMatIn

def okMdrain (f : MF) : Bool :=
  f = { f with kd := 0, ca := false } ∧ f.fx.toNat < 8 ∧ !f.ty.isInt ∧ f.ty ≠ .f64 ∧
    (f.t = 0 ∨ f.fx.toNat / 4 % 2 = 0) ∧ (f.a = 0 ∨ f.fx.toNat % 2 = 1) ∧ (f.b = 0 ∨ f.fx.toNat / 2 % 2 = 1)

def okMdrainx (f : MF) : Bool := f = { MF.zero with t := f.t, s := f.s, kr := f.kr, kc := f.kc } ∧ f.s.val ≤ 30

def okMrecv (f : MF) : Bool := f = { MF.zero with t := f.t, s := f.s }

def okMrecvCancel (f : MF) : Bool := f = { MF.zero with t := f.t, fx := 1 }

def okMchain (f : MF) : Bool := f = { MF.zero with s := f.s, fx := f.fx } ∧ f.fx.toNat < 2

def okMchainAccept (f : MF) : Bool := f = { MF.zero with s := f.s, fx := f.fx } ∧ f.fx.toNat / 2 = 1

def okMnone (f : MF) : Bool := f = MF.zero

def okMs (f : MF) : Bool := f = { MF.zero with s := f.s }

def okMrprobe (f : MF) : Bool := f = { MF.zero with s := f.s, ty := f.ty } ∧ f.s.val ≤ 30 ∧ f.ty.isMatIn

/-- `fcvt`: types within 0x00–0x0D, and no rounding between two integer types (R150). -/
def okFcvt (dst src : ETy) (rm : RmSel) : Bool :=
  dst.code < 14 ∧ src.code < 14 ∧ (rm = .dyn ∨ !(dst.isInt && src.isInt))

/-- The types of a vector micro-operation (R358). -/
def okUv (bitwise : Bool) (f : UV) : Bool := f.ty.isInt ∨ (f.ty.isFloat4 ∧ bitwise = false)

/-! ## Operations of the matrix queue -/

/-- The operations by their mop codes (R193, R220, R223). -/
def mopMmode : Nat := 0x00
def mopMshape : Nat := 0x01
def mopMzero : Nat := 0x02
def mopMldb : Nat := 0x03
def mopMmul : Nat := 0x04
def mopMopa : Nat := 0x05
def mopMgmul : Nat := 0x06
def mopMdrain : Nat := 0x07
def mopMdrainx : Nat := 0x08
def mopMrecv : Nat := 0x09
def mopMchain : Nat := 0x0A
def mopMunchain : Nat := 0x0B
def mopMwait : Nat := 0x0C
def mopMmulx : Nat := 0x10
def mopMrinv : Nat := 0x11
def mopMrpf : Nat := 0x12
def mopMrprobe : Nat := 0x13

end Sys2Proof
end

