-- ==== Sys2Proof/Machine/Num.lean ====
section
/-! DEFINITION. Number formats, exact values and the rounding of an exact value into a format (05_number_formats R93–R112). -/

namespace Sys2Proof.Machine

/-- An exact value. `fin n m e st` is (−1)^n × m × 2^e; with `st` the magnitude lies strictly between m and m + 1 units,
which a quotient or a root needs. A NaN keeps whether it was signalling (R94). -/
inductive Val where
  | nan (signalling : Bool)
  | inf (neg : Bool)
  | fin (neg : Bool) (m : Nat) (e : Int) (st : Bool)
deriving DecidableEq, Repr

/-- A floating format (R94–R98, R100): width, trailing significand bits, bias, sign bit, −0, the magnitude codes of the
largest finite value and of infinity, and the canonical NaN (R79). -/
structure Fmt where
  width : Nat
  t : Nat
  bias : Nat
  signed : Bool
  negZero : Bool
  maxCode : Nat
  infCode : Option Nat
  nan : Nat
  ieee : Bool
deriving DecidableEq, Repr

/-- The format of a floating type (R94, R95, R97, R98, R100). Integer types have none. -/
def tyFmt : ETy → Option Fmt
  | .f64 => some { width := 64, t := 52, bias := 1023, signed := true, negZero := true, maxCode := 0x7FEFFFFFFFFFFFFF,
                   infCode := some 0x7FF0000000000000, nan := 0x7FF8000000000000, ieee := true }
  | .f32 => some { width := 32, t := 23, bias := 127, signed := true, negZero := true, maxCode := 0x7F7FFFFF,
                   infCode := some 0x7F800000, nan := 0x7FC00000, ieee := true }
  | .f16 => some { width := 16, t := 10, bias := 15, signed := true, negZero := true, maxCode := 0x7BFF,
                   infCode := some 0x7C00, nan := 0x7E00, ieee := true }
  | .bf16 => some { width := 16, t := 7, bias := 127, signed := true, negZero := true, maxCode := 0x7F7F,
                    infCode := some 0x7F80, nan := 0x7FC0, ieee := true }
  | .e4m3 => some { width := 8, t := 3, bias := 7, signed := true, negZero := true, maxCode := 0x7E, infCode := none,
                    nan := 0x7F, ieee := true }
  | .e5m2 => some { width := 8, t := 2, bias := 15, signed := true, negZero := true, maxCode := 0x7B,
                    infCode := some 0x7C, nan := 0x7E, ieee := true }
  | .mxf4 => some { width := 4, t := 1, bias := 1, signed := true, negZero := true, maxCode := 7, infCode := none,
                    nan := 0, ieee := true }
  | .b8 p n x =>
    some { width := 8, t := p.val, bias := if n then 2 ^ (7 - p.val) else 2 ^ (6 - p.val), signed := !n, negZero := false,
           maxCode := (if n then 0xFE else 0x7F) - (if x then 1 else 0),
           infCode := if x then some (if n then 0xFE else 0x7F) else none, nan := if n then 0xFF else 0x80,
           ieee := false }
  | .i8 | .i16 | .i32 | .i64 | .n8 | .n16 | .n32 | .n64 => none

/-- The format of a floating type; an integer type, which no caller gives, answers `.f32`. -/
def fmtOf (ty : ETy) : Fmt :=
  match tyFmt ty with
  | some f => f
  | none => { width := 32, t := 23, bias := 127, signed := true, negZero := true, maxCode := 0x7F7FFFFF,
              infCode := some 0x7F800000, nan := 0x7FC00000, ieee := true }

/-- Whether a code is a NaN (R94–R96). E2M1 has none. -/
def Fmt.isNan (f : Fmt) (c : Nat) : Bool :=
  if f.ieee then f.infCode.getD f.maxCode < c % 2 ^ (f.width - 1) else c = f.nan

/-- The value of a code (R94–R96, R100). -/
def Fmt.decode (f : Fmt) (c : Nat) : Val :=
  let neg := f.signed && bit c (f.width - 1)
  let m := if f.signed then c % 2 ^ (f.width - 1) else c
  if f.isNan c then .nan (f.ieee && !(bit c (f.t - 1)))
  else if f.infCode = some m then .inf neg
  else
    let e := m / 2 ^ f.t
    let fr := m % 2 ^ f.t
    if e = 0 then .fin neg fr (1 - f.bias - f.t) false else .fin neg (2 ^ f.t + fr) (e - f.bias - f.t) false

/-- The code of a sign and a magnitude code; a zero without −0 is code 0 (R103). -/
def Fmt.pack (f : Fmt) (neg : Bool) (mag : Nat) : Nat :=
  if neg && f.signed && (mag != 0 || f.negZero) then 2 ^ (f.width - 1) + mag else mag

/-! ## Flags -/

def fxNV : BitVec 5 := 16
def fxDZ : BitVec 5 := 8
def fxOF : BitVec 5 := 4
def fxUF : BitVec 5 := 2
def fxNX : BitVec 5 := 1

/-- A result of a rounding: the code, the flags raised, and whether a random value was drawn (R104, R108). -/
structure Rounded where
  code : Nat
  fx : BitVec 5
  drew : Bool
deriving DecidableEq, Repr

/-- The magnitude m × 2^e (with st) cut at quantum 2^q: the units below, whether it is exact, how it compares with half
a unit, and the 16 bits below the cut (R107, R108). -/
structure Cut where
  units : Nat
  exact : Bool
  cmpHalf : Ordering
  q16 : Nat

def cut (m : Nat) (e q : Int) (st : Bool) : Cut :=
  if q ≤ e then { units := m * 2 ^ (e - q).toNat, exact := !st, cmpHalf := .lt, q16 := 0 }
  else
    let sh := (q - e).toNat
    let r := m % 2 ^ sh
    { units := m / 2 ^ sh, exact := r = 0 && !st,
      cmpHalf := if 2 * r < 2 ^ sh then .lt else if 2 * r = 2 ^ sh && !st then .eq else .gt,
      q16 := r * 2 ^ 16 / 2 ^ sh }

/-- Whether a magnitude that is not a member of the format's set rounds away from zero (R107): `odd` is bit 0 of the
encoding of the neighbour toward zero. -/
def roundsUp (mode : Rm) (neg odd : Bool) (c : Cut) (rnd : Nat) : Bool :=
  match mode with
  | .rne => c.cmpHalf = .gt || (c.cmpHalf = .eq && odd)
  | .rtz => false
  | .rup => !neg
  | .rdn => neg
  | .rst => 2 ^ 16 ≤ c.q16 + rnd

/-- The magnitude code, unbounded above, that a nonzero magnitude rounds to, whether it was exact, and whether the
result is tiny (R104, R107). -/
def roundMag (f : Fmt) (mode : Rm) (neg : Bool) (m : Nat) (e : Int) (st : Bool) (rnd : Nat) : Nat × Bool × Bool :=
  let emin : Int := 1 - f.bias
  let top : Int := e + log2 m
  let c := cut m e (max top emin - f.t) st
  let code := (max top emin - emin).toNat * 2 ^ f.t + c.units
  let up := !c.exact && roundsUp mode neg (code % 2 = 1) c rnd
  let c' := cut m e (top - f.t) st
  let odd' := if f.t = 0 then (top - emin + 1) % 2 = 1 else c'.units % 2 = 1
  let up' := !c'.exact && roundsUp mode neg odd' c' rnd
  let topAfter := if up' && c'.units + 1 = 2 ^ (f.t + 1) then top + 1 else top
  (if up then code + 1 else code, c.exact, topAfter < emin)

/-- `RoundToFormat` and `FitRange` for a floating format (R102–R110). R110 names no flag for −∞ with `.sat` into a format without
a sign, whose result is +0: the model's choice is to raise none (log 44). -/
def roundFloat (f : Fmt) (mode : Rm) (sat : Bool) (rnd : Nat) (x : Val) : Rounded :=
  match x with
  | .nan s => { code := f.nan, fx := if s then fxNV else 0, drew := false }
  | .inf neg =>
    if neg && !f.signed then
      if sat then { code := 0, fx := 0, drew := false } else { code := f.nan, fx := fxNV, drew := false }
    else if sat then { code := f.pack neg f.maxCode, fx := 0, drew := false }
    else
      match f.infCode with
      | some ic => { code := f.pack neg ic, fx := 0, drew := false }
      | none => { code := f.nan, fx := fxNV, drew := false }
  | .fin neg m e st =>
    if m = 0 && !st then { code := f.pack neg 0, fx := 0, drew := false }
    else
      let (code, exact, tiny) := roundMag f mode neg m e st rnd
      let drew := !exact && mode = .rst
      let nx := if exact then 0 else fxNX
      if code = 0 then { code := f.pack neg 0, fx := nx ||| (if exact then 0 else fxUF), drew }
      else if neg && !f.signed then
        if sat then { code := 0, fx := fxNX ||| (if tiny then fxUF else 0), drew } else { code := f.nan, fx := fxNV, drew }
      else if code ≤ f.maxCode then
        { code := f.pack neg code, fx := nx ||| (if tiny && !exact then fxUF else 0), drew }
      else if sat then { code := f.pack neg f.maxCode, fx := fxOF ||| fxNX, drew }
      else
        match f.infCode with
        | none => { code := f.nan, fx := fxOF ||| fxNX ||| fxNV, drew }
        | some ic =>
          if mode = .rtz || (!neg && mode = .rdn) || (neg && mode = .rup) then
            { code := f.pack neg f.maxCode, fx := fxOF ||| fxNX, drew }
          else { code := f.pack neg ic, fx := fxOF ||| fxNX, drew }

/-- Rounding to an integer of w bits (R107, R110). -/
def roundInt (signed : Bool) (w : Nat) (mode : Rm) (sat : Bool) (rnd : Nat) (x : Val) : Rounded :=
  let lo : Int := if signed then -(2 ^ (w - 1) : Nat) else 0
  let hi : Int := if signed then (2 ^ (w - 1) : Nat) - 1 else (2 ^ w : Nat) - 1
  let indef : Nat := if signed then 2 ^ (w - 1) else 2 ^ w - 1
  match x with
  | .nan _ => { code := if sat then 0 else indef, fx := fxNV, drew := false }
  | .inf neg => { code := if sat then uint w (if neg then lo else hi) else indef, fx := fxNV, drew := false }
  | .fin neg m e st =>
    let c := cut m e 0 st
    let up := !c.exact && roundsUp mode neg (c.units % 2 = 1) c rnd
    let mag : Int := (if up then c.units + 1 else c.units : Nat)
    let g := if neg then -mag else mag
    let drew := !c.exact && mode = .rst
    if g < lo || hi < g then { code := if sat then uint w (if g < lo then lo else hi) else indef, fx := fxNV, drew }
    else { code := uint w g, fx := if c.exact then 0 else fxNX, drew }

/-! ## Exact arithmetic -/

/-- The value of an integer. -/
def Val.ofInt (x : Int) : Val := .fin (x < 0) x.natAbs 0 false

def Val.neg : Val → Val
  | .nan s => .nan s
  | .inf n => .inf (!n)
  | .fin n m e st => .fin (!n) m e st

def Val.isNan : Val → Bool
  | .nan _ => true | .inf _ | .fin _ _ _ _ => false

def Val.isSnan : Val → Bool
  | .nan s => s | .inf _ | .fin _ _ _ _ => false

def Val.isNeg : Val → Bool
  | .nan _ => false | .inf n => n | .fin n _ _ _ => n

def Val.isZero : Val → Bool
  | .fin _ m _ st => m = 0 && !st | .nan _ | .inf _ => false

/-- The signed integer of a finite value in units of 2^e0, for e0 at most its exponent. -/
def finUnits (neg : Bool) (m : Nat) (e e0 : Int) : Int :=
  let u : Int := (m * 2 ^ (e - e0).toNat : Nat)
  if neg then -u else u

/-- The exact sum of two finite values without sticky bits; the sign of a zero sum by R103. -/
def addFin (rdn : Bool) (n1 : Bool) (m1 : Nat) (e1 : Int) (n2 : Bool) (m2 : Nat) (e2 : Int) : Val :=
  let e0 := min e1 e2
  let x := finUnits n1 m1 e1 e0 + finUnits n2 m2 e2 e0
  if x = 0 then .fin (if n1 = n2 then n1 else rdn) 0 e0 false else .fin (x < 0) x.natAbs e0 false

/-- A value and whether the operation itself was invalid (NV beyond a signalling input). -/
structure Exact where
  v : Val
  nv : Bool
  dz : Bool

def Val.anyNan (a b : Val) : Val := .nan (a.isSnan || b.isSnan)

/-- a + b, exactly (R148, R163). -/
def Val.add (rdn : Bool) (a b : Val) : Exact :=
  match a, b with
  | .nan _, _ => ⟨.anyNan a b, false, false⟩
  | _, .nan _ => ⟨.anyNan a b, false, false⟩
  | .inf n, .inf n' => if n = n' then ⟨.inf n, false, false⟩ else ⟨.nan false, true, false⟩
  | .inf n, .fin _ _ _ _ => ⟨.inf n, false, false⟩
  | .fin _ _ _ _, .inf n => ⟨.inf n, false, false⟩
  | .fin n m e _, .fin n' m' e' _ => ⟨addFin rdn n m e n' m' e', false, false⟩

/-- a × b, exactly. -/
def Val.mul (a b : Val) : Exact :=
  match a, b with
  | .nan _, _ => ⟨.anyNan a b, false, false⟩
  | _, .nan _ => ⟨.anyNan a b, false, false⟩
  | .inf n, .inf n' => ⟨.inf (n != n'), false, false⟩
  | .inf n, .fin n' m _ _ => if m = 0 then ⟨.nan false, true, false⟩ else ⟨.inf (n != n'), false, false⟩
  | .fin n m _ _, .inf n' => if m = 0 then ⟨.nan false, true, false⟩ else ⟨.inf (n != n'), false, false⟩
  | .fin n m e _, .fin n' m' e' _ => ⟨.fin (n != n') (m * m') (e + e') false, false, false⟩

/-- a × b + c, exactly; ∞ × 0 is invalid even when c is a quiet NaN (R163). -/
def Val.fma (rdn : Bool) (a b c : Val) : Exact :=
  let p := Val.mul a b
  if p.nv then ⟨.nan (c.isSnan), true, false⟩
  else if p.v.isNan || c.isNan then ⟨.nan (a.isSnan || b.isSnan || c.isSnan), false, false⟩
  else Val.add rdn p.v c

/-- a / b to `bits` significant bits and a sticky bit (R148, R163). -/
def Val.div (bits : Nat) (a b : Val) : Exact :=
  match a, b with
  | .nan _, _ => ⟨.anyNan a b, false, false⟩
  | _, .nan _ => ⟨.anyNan a b, false, false⟩
  | .inf _, .inf _ => ⟨.nan false, true, false⟩
  | .inf n, .fin n' _ _ _ => ⟨.inf (n != n'), false, false⟩
  | .fin n _ _ _, .inf n' => ⟨.fin (n != n') 0 0 false, false, false⟩
  | .fin n m e _, .fin n' m' e' _ =>
    if m' = 0 then (if m = 0 then ⟨.nan false, true, false⟩ else ⟨.inf (n != n'), false, true⟩)
    else if m = 0 then ⟨.fin (n != n') 0 0 false, false, false⟩
    else
      let sh := bits + log2 m' + 1
      ⟨.fin (n != n') (m * 2 ^ sh / m') (e - e' - sh) (m * 2 ^ sh % m' != 0), false, false⟩

/-- The integer square root, by bits from bit k down: the largest r with r × r ≤ x and r below 2^(k+1). -/
def sqrtBits (x : Nat) : Nat → Nat → Nat
  | 0, r => if (r + 1) * (r + 1) ≤ x then r + 1 else r
  | k + 1, r => if (r + 2 ^ (k + 1)) * (r + 2 ^ (k + 1)) ≤ x then sqrtBits x k (r + 2 ^ (k + 1)) else sqrtBits x k r

/-- √a to `bits` significant bits and a sticky bit (R148, R163). -/
def Val.sqrt (bits : Nat) (a : Val) : Exact :=
  match a with
  | .nan s => ⟨.nan s, false, false⟩
  | .inf n => if n then ⟨.nan false, true, false⟩ else ⟨.inf false, false, false⟩
  | .fin n m e _ =>
    if m = 0 then ⟨.fin n 0 0 false, false, false⟩
    else if n then ⟨.nan false, true, false⟩
    else
      let sh := 2 * bits + (if (e - 2 * bits) % 2 = 0 then 0 else 1)
      let x := m * 2 ^ sh
      let r := sqrtBits x (log2 x / 2 + 1) 0
      ⟨.fin false r ((e - sh) / 2) (r * r != x), false, false⟩

/-- Significant bits that a quotient or a root keeps before its sticky bit: the format's, and the 16 below the rounding
point that a stochastic rounding compares with its draw, with room for the neighbour at unbounded range (R104, R107, R108). -/
def Fmt.quotBits (f : Fmt) : Nat := f.t + 20

/-- A rounded floating operation: the exact result into the format, with the operation's own flags (R102–R110). -/
def roundExact (f : Fmt) (mode : Rm) (sat : Bool) (rnd : Nat) (x : Exact) : Rounded :=
  let r := roundFloat f mode sat rnd x.v
  { r with fx := r.fx ||| (if x.nv then fxNV else 0) ||| (if x.dz then fxDZ else 0) }

/-! ## Comparison, minimum, class -/

/-- a < b, for values that are not NaN; −0 and +0 are equal. -/
def Val.lt (a b : Val) : Bool :=
  match a, b with
  | .nan _, _ => false
  | _, .nan _ => false
  | .inf n, .inf n' => n && !n'
  | .inf n, .fin _ _ _ _ => n
  | .fin _ _ _ _, .inf n' => !n'
  | .fin n m e _, .fin n' m' e' _ => finUnits n m e (min e e') < finUnits n' m' e' (min e e')

def Val.eq (a b : Val) : Bool := !a.isNan && !b.isNan && !Val.lt a b && !Val.lt b a

/-- a is the lesser, with −0 less than +0 (R148). -/
def Val.less (a b : Val) : Bool := Val.lt a b || (Val.eq a b && a.isNeg && !b.isNeg)

/-- `fmin` and `fmax` on codes (R148): the code and the flags. -/
def fminmax (f : Fmt) (mx : Bool) (a b : Nat) : Nat × BitVec 5 :=
  let x := f.decode a
  let y := f.decode b
  let fx := if x.isSnan || y.isSnan then fxNV else 0
  if x.isNan then (if y.isNan then f.nan else b, fx)
  else if y.isNan then (a, fx)
  else (if (Val.less y x) != mx then b else a, fx)

/-- `fcmp` and `vfcmp` (R149, R164): the relation and the flags. -/
def fcompare (f : Fmt) (r : FRel) (a b : Nat) : Bool × BitVec 5 :=
  let x := f.decode a
  let y := f.decode b
  let snan := x.isSnan || y.isSnan
  let nan := x.isNan || y.isNan
  match r with
  | .eq => (Val.eq x y, if snan then fxNV else 0)
  | .lt => (Val.lt x y, if nan then fxNV else 0)
  | .le => (Val.lt x y || Val.eq x y, if nan then fxNV else 0)
  | .un => (nan, if snan then fxNV else 0)

/-- The class bits of a code (R149). -/
def fclassify (f : Fmt) (c : Nat) : Nat :=
  match f.decode c with
  | .nan s => if s then 256 else 512
  | .inf n => if n then 1 else 128
  | .fin n m _ _ =>
    if m = 0 then (if n then 8 else 16)
    else if m < 2 ^ f.t then (if n then 4 else 32)
    else if n then 2 else 64

/-! ## Conversion -/

/-- The value of a code of any type but `.mxf4` blocks, whose scale is applied by the caller (R111). -/
def tyVal (ty : ETy) (c : Nat) : Val :=
  match tyFmt ty with
  | some f => f.decode c
  | none => .ofInt (if ty.isSigned then sint ty.bits c else (c % 2 ^ ty.bits : Nat))

/-- An integer clamped to a type's range (R93). -/
def clampInt (ty : ETy) (x : Int) : Nat :=
  let w := ty.bits
  let lo : Int := if ty.isSigned then -(2 ^ (w - 1) : Nat) else 0
  let hi : Int := if ty.isSigned then (2 ^ (w - 1) : Nat) - 1 else (2 ^ w : Nat) - 1
  uint w (if x < lo then lo else if hi < x then hi else x)

/-- The integer value of a code of an integer type. -/
def tyInt (ty : ETy) (c : Nat) : Int := if ty.isSigned then sint ty.bits c else (c % 2 ^ ty.bits : Nat)

/-- The value x into type D (R107, R110, R111); `.mxf4` takes the block rule of R112 instead. -/
def roundTo (dst : ETy) (mode : Rm) (sat : Bool) (rnd : Nat) (x : Val) : Rounded :=
  match tyFmt dst with
  | some f => roundFloat f mode sat rnd x
  | none => roundInt dst.isSigned dst.bits mode sat rnd x

/-- A conversion of one element (R111). -/
def convert (dst src : ETy) (mode : Rm) (sat : Bool) (rnd c : Nat) : Rounded :=
  if dst.isInt && src.isInt then
    let x := tyInt src c
    { code := if sat then clampInt dst x else uint dst.bits x, fx := 0, drew := false }
  else roundTo dst mode sat rnd (tyVal src c)

/-- A value times 2^k. -/
def Val.scale (k : Int) : Val → Val
  | .nan s => .nan s
  | .inf n => .inf n
  | .fin n m e st => .fin n m (e + k) st

/-- The value of an `.mxf4` element under its scale byte (R100, R101). -/
def mxf4Val (nibble scale : Nat) : Val :=
  if scale = 255 then .nan false
  else
    match tyFmt .mxf4 with
    | some f => (f.decode (nibble % 16)).scale (scale - 127)
    | none => .nan false

/-- The exponent E of a block of values that holds a nonzero finite value and nothing else (R112). -/
def mxf4Exp (xs : List Val) : Option Int :=
  let tops := xs.filterMap (fun x => match x with
    | .fin _ m e _ => if m = 0 then none else some (e + log2 m)
    | .nan _ | .inf _ => none)
  match tops with
  | [] => none
  | t :: ts => some (max (-127) (min 127 (ts.foldl max t - 2)))

/-- The scale byte of a block of values (R112). -/
def mxf4Scale (xs : List Val) : Nat :=
  if xs.any (fun x => match x with | .fin _ _ _ _ => false | .nan _ | .inf _ => true) then 255
  else match mxf4Exp xs with
    | none => 0
    | some e => (e + 127).toNat

/-- One element of a block of values (R112): +0 in a block without a nonzero value or with a NaN or an infinity; such a
block's elements read as NaN, which raises NV for a value that was not a quiet NaN (R102, R110, log 9). -/
def mxf4Elem (xs : List Val) (mode : Rm) (rnd : Nat) (x : Val) : Rounded :=
  if mxf4Scale xs = 255 then { code := 0, fx := if x.isNan && !x.isSnan then 0 else fxNV, drew := false }
  else match mxf4Exp xs with
    | none => { code := 0, fx := 0, drew := false }
    | some e => roundTo .mxf4 mode true rnd (x.scale (-e))

/-! ## Generators -/

/-- One step of a generator (R109): the new state, whose bits [31:16] are the value drawn. -/
def genStep (s : BitVec 32) : BitVec 32 :=
  let a := s ^^^ (s <<< 13)
  let b := a ^^^ (a >>> 17)
  b ^^^ (b <<< 5)

/-- The value that the next draw of a generator returns. -/
def genDraw (s : BitVec 32) : Nat := (genStep s).toNat / 65536

end Sys2Proof.Machine
end

