-- ==== Sys2Proof/Machine/Space.lean ====
section
/-! DEFINITION. The physical address map, homes, cores by number, and time (00_scope R4–R5, 01 R15–R20, 11 R239–R243,
22 R401). -/

namespace Sys2Proof.Machine

/-! ## Cores -/

/-- The 11-bit core id of a linear core number (R5). -/
def coreIdOf (n : Nat) : Nat := n / 192 * 256 + n % 192 / 6 * 8 + n % 6

/-- The linear number of a core id, none for a reserved slot value (R5). -/
def linearOf (id : Nat) : Option Nat :=
  if id % 8 < 6 ∧ id < 2048 then some (id / 256 * 192 + id / 8 % 32 * 6 + id % 8) else none

/-- The die and the router of a core (R5, R16). -/
def dieOf (n : Nat) : Nat := n / 192
def routerOf (n : Nat) : Nat := n % 192 / 6

/-- The cluster of a core, numbered die × 32 + router (R17). -/
def clusterOf (n : Nat) : Nat := n / 192 * 32 + n % 192 / 6

/-- A die has a neighbour at its east or west edge (R15). -/
def hasEast (d : Nat) : Bool := d % 4 < 3
def hasWest (d : Nat) : Bool := 0 < d % 4

/-- An edge core: column 0 or 7 with a neighbour die on that side (R18). -/
def isEdge (n : Nat) : Bool :=
  (routerOf n % 8 = 0 && hasWest (dieOf n)) || (routerOf n % 8 = 7 && hasEast (dieOf n))

/-- Whether the harvest map enables a core; cores it does not list are enabled with 64 lanes (R19, log 5). -/
def State.enabled (s : State) (n : Nat) : Bool :=
  n < 1536 && (match look s.harvest n with | some (e, _) => e | none => true)

/-- The lane count N of a core (R20). -/
def State.lanes (s : State) (n : Nat) : Nat :=
  match look s.harvest n with | some (_, true) => 48 | some (_, false) => 64 | none => 64

/-- A core by linear number. -/
def State.coreAt (s : State) (n : Nat) : Core :=
  if n = s.coreId then s.core else (look s.others n).getD .reset

def State.setCore (s : State) (n : Nat) (c : Core) : State :=
  if n = s.coreId then { s with core := c } else { s with others := assoc s.others n c }

/-- The numbers of the cores that the state lists, the one in focus first. -/
def State.coreNos (s : State) : List Nat := s.coreId :: (s.others.map (·.1)).filter (· != s.coreId)

/-- A thread by core and slot. -/
def State.threadAt (s : State) (n j : Nat) : Thread :=
  if n = s.coreId ∧ j = s.slot.val then s.th else (look (s.coreAt n).parked j).getD (.reset n j)

def State.setThread (s : State) (n j : Nat) (t : Thread) : State :=
  if n = s.coreId ∧ j = s.slot.val then { s with th := t }
  else
    let c := s.coreAt n
    s.setCore n { c with parked := assoc c.parked j t }

/-- Every core back out of focus, and core n's slot j in focus. -/
def State.focus (s : State) (n : Nat) (j : Fin 4) : State :=
  if n = s.coreId ∧ j = s.slot then s
  else
    let c := { s.core with parked := assoc s.core.parked s.slot.val s.th }
    let s1 := { s with core := c, others := if n = s.coreId then s.others else assoc s.others s.coreId c }
    let c2 := if n = s.coreId then c else (look s.others n).getD .reset
    { s1 with
      th := (look c2.parked j.val).getD (.reset n j.val), slot := j, coreId := n,
      core := { c2 with parked := unset c2.parked j.val }, others := unset s1.others n }

/-! ## Time -/

/-- Ticks of 1/8 ns: an NCLK cycle is 4 ticks, an SCLK cycle 5, an ACLK cycle 10 (R4, log 6). -/
def nclk : Nat := 4
def sclk : Nat := 5
def aclk : Nat := 10

/-- SCLK cycles since reset (R133). -/
def State.cycle (s : State) : Nat := s.time / sclk

/-! ## Addresses -/

/-- What a physical address reaches (R239–R241, R401, R405). -/
inductive Place where
  | media (lin : Nat)
  | host (off : Nat)
  | peer (port : Fin 8) (lin : Nat)
  | cfg (off : Nat)
  | none
deriving DecidableEq, Repr

/-- The linear address of an interleaved offset (R241). -/
def interleave (o : Nat) : Nat :=
  (Nat.xor (getBits o 12 3) (getBits o 15 3)) * 2 ^ 36 + getBits o 15 24 * 2 ^ 12 + o % 2 ^ 12

/-- The top 64 MiB of a stack hold metadata (R240). -/
def isMetadata (lin : Nat) : Bool := 0xFFC000000 ≤ lin % 2 ^ 36

/-- Lin of an address in the linear or the interleaved window (R241). -/
def linOf (pa : Nat) : Option Nat :=
  if pa < 2 ^ 39 then some pa
  else if 2 ^ 48 ≤ pa ∧ pa < 2 ^ 48 + 2 ^ 39 then some (interleave (pa - 2 ^ 48))
  else none

/-- The stack of a die is present (R239, R409): in minimal mode only the live die's. -/
def State.stackPresent (s : State) (d : Nat) : Bool := s.boot.mode = 0 || (s.boot.mode = 1 && d = s.boot.live)

/-- What a physical address reaches in this state of the module. A peer, a module of this kind, offers no metadata bytes either
(R240, R401). -/
def State.place (s : State) (pa : Nat) : Place :=
  if pa < 2 ^ 39 then
    if isMetadata pa || !s.stackPresent (pa / 2 ^ 36) then .none else .media pa
  else if 2 ^ 48 ≤ pa ∧ pa < 2 ^ 48 + 2 ^ 39 then
    let lin := interleave (pa - 2 ^ 48)
    if isMetadata lin || s.boot.mode != 0 then .none else .media lin
  else if 2 ^ 50 ≤ pa ∧ pa < 2 ^ 50 + 2 ^ 49 then
    if s.fab.linksDown.contains (16, 0) then .none else .host (pa - 2 ^ 50)
  else if 2 ^ 50 + 2 ^ 49 ≤ pa ∧ pa < 2 ^ 51 then
    let port := Fin.ofNat 8 ((pa - (2 ^ 50 + 2 ^ 49)) / 2 ^ 46)
    let o := (pa - (2 ^ 50 + 2 ^ 49)) % 2 ^ 46
    if !(s.boot.ports.getLsbD port.val) then .none
    else
      let lin := if o < 2 ^ 39 then o else interleave (o - 2 ^ 39)
      if 2 ^ 40 ≤ o || isMetadata lin then .none else .peer port lin
  else if 2 ^ 51 ≤ pa ∧ pa < 2 ^ 52 then .cfg (pa - 2 ^ 51)
  else .none

/-- The home slice index of a linear address (R243). -/
def sliceHash (l : Nat) : Nat :=
  Nat.xor (getBits l 7 5) (Nat.xor (getBits l 12 5) (Nat.xor (getBits l 17 5)
    (Nat.xor (getBits l 22 5) (Nat.xor (getBits l 27 5) (getBits l 32 5)))))

def homeDie (lin : Nat) : Nat := lin / 2 ^ 36

/-- The home slice, numbered die × 32 + slice (R243). -/
def homeSlice (lin : Nat) : Nat := homeDie lin * 32 + sliceHash lin

/-- The bank of a line within its slice, numbered slice × 16 + bank (R243). -/
def homeBank (lin : Nat) : Nat := homeSlice lin * 16 + getBits lin 13 4

/-- The edge column by which a message leaves die d towards die e from column x. -/
def exitColumn (d e x : Nat) : Nat :=
  if d % 4 < e % 4 then 7 else if e % 4 < d % 4 then 0 else if x ≤ 3 then 0 else 7

/-- No interposer port is up on the way from a router of die d to another die: the message cannot be sent. The ports of the edge router of
row y are links 2 y and 2 y + 1 of its die in the west column and 8 + 2 y and 9 + 2 y in the east column (R15, R245, R247, log 52). -/
def State.wayDown (s : State) (d router die : Nat) : Bool :=
  let port := (if exitColumn d die (router % 8) = 0 then 0 else 8) + router / 8 * 2
  die != d && [port, port + 1].all (fun l => s.fab.linksDown.contains (d, l))

/-- The same from core n's router. -/
def State.cutOff (s : State) (n die : Nat) : Bool := s.wayDown (dieOf n) (routerOf n) die

/-- The same for an engine of die d and a linear address: an engine stands at no router, and its way lies in the row and the column half of
the address's home router, a choice of the model (log 52). -/
def State.engineCut (s : State) (d lin : Nat) : Bool := s.wayDown d (sliceHash lin) (homeDie lin)

/-- A peer port is down: its window raises NOMEM until the next module reset, and its bit of the links capability is clear. -/
def State.portOff (s : State) (j : Fin 8) : State :=
  { s with boot := { s.boot with ports := BitVec.ofNat 8 (putBits s.boot.ports.toNat j.val 1 0) } }

/-- A link of the module goes down: the host link, or that of a peer port (R401, R404). -/
def State.linkFalls (s : State) (port : Option (Fin 8)) : State :=
  let k := match port with | none => (16, 0) | some j => (17, j.val)
  let s1 : State := if s.fab.linksDown.contains k then s else { s with fab := { s.fab with linksDown := k :: s.fab.linksDown } }
  match port with
  | none => s1
  | some j => s1.portOff j

/-- The scratchpad window (R228). -/
def spw : Nat := 0x00FFFF0000000000

def inSpw (va : Nat) : Bool := spw ≤ va && va < spw + 2 ^ 20

/-- Device configuration space begins here (R405). -/
def cfgBase : Nat := 2 ^ 51

end Sys2Proof.Machine
end

