-- ==== Sys2Proof/Machine/Home.lean ====
section
/-! DEFINITION. The home slices: L2 over the stack media, poison, home watchpoints, armed marks, recalls of exclusive lines, RDC
copies (11 R248–R251, R259–R260; 12 R271, R283; 13 R297–R298, R324; 16 R385–R386). -/

namespace Sys2Proof.Machine

/-! ## Bytes under a mask -/

/-- The first n bytes of `new` where the mask has a bit and of `old` elsewhere. -/
def blendB : Nat → Blob → Blob → Nat → Blob
  | 0, _, _, _ => 0
  | n + 1, old, new, m => (if m % 2 = 1 then new % 256 else old % 256) + 256 * blendB n (old / 256) (new / 256) (m / 2)

/-- The mask of bytes off to off + n − 1. -/
def maskB (off n : Nat) : BitVec 32 := BitVec.ofNat 32 ((2 ^ n - 1) * 2 ^ off)

/-! ## Sectors of L2 over the media -/

/-- The 32 bytes and the poison of sector k (bytes 32 k upward of the linear space) as its home slice holds them. -/
def Store.sector (st : Store) (k : Nat) : Blob × Bool :=
  match st.l2.find? (fun x => x.addr == k) with
  | some x => (x.data, x.poison)
  | none => (st.media.readN (32 * k) 32, st.poison.contains k)

/-- The sector as the media holds it. -/
def Store.mediaSector (st : Store) (k : Nat) : Blob × Bool := (st.media.readN (32 * k) 32, st.poison.contains k)

def Store.dirtyMask (st : Store) (k : Nat) : BitVec 32 :=
  match st.l2.find? (fun x => x.addr == k) with
  | some x => x.dmask
  | none => 0

def Store.dropSector (st : Store) (k : Nat) : Store := { st with l2 := st.l2.filter (fun x => x.addr != k) }

/-- A sector's poison in the media set or cleared; the last cleared sector of a poisoned block clears PBLK (R260). -/
def Store.poisonMedia (st : Store) (k : Nat) (on : Bool) : Store :=
  if on then (if st.poison.contains k then st else { st with poison := k :: st.poison })
  else
    let rest := st.poison.filter (· != k)
    { st with poison := rest, pblk := st.pblk.filter (fun b => b != k / 16 || rest.any (fun j => j / 16 == b)) }

/-- L2 writes the sector's newer bytes to the media, with its poison, and keeps it clean; its other bytes are the media's own. A clean
sector that L2 found bad is dropped (R250, R259, R262). -/
def Store.cleanSector (st : Store) (k : Nat) : Store :=
  match st.l2.find? (fun x => x.addr == k) with
  | none => st
  | some x =>
    if x.dmask = 0 then st.dropSector k
    else
      let st1 := (st.dropSector k).poisonMedia k x.poison
      { st1 with media := st1.media.writeN (32 * k) 32 x.data }

def Store.cleanLine (st : Store) (line : Nat) : Store :=
  [0, 1, 2, 3].foldl (fun t i => t.cleanSector (4 * line + i)) st

/-- L2 writes the newer bytes of the line's dirty sectors to the media and keeps the line; a clean sector that it found bad stays so
(R262). -/
def Store.flushLine (st : Store) (line : Nat) : Store :=
  [0, 1, 2, 3].foldl (fun t i => if t.dirtyMask (4 * line + i) = 0 then t else t.cleanSector (4 * line + i)) st

/-! ## Ways (R250, R253) -/

/-- Ways of an L2 slice that hold lines: 16 less those that its slice scratch has taken. -/
def Store.l2Ways (st : Store) (slice : Nat) : Nat := 16 - ((look st.sscr slice).getD 0).toNat % 16

/-- The set of a line, numbered slice × 2,048 + set (log 51). -/
def l2Set (line : Nat) : Nat := homeSlice (128 * line) * 2048 + line % 2048

/-- The way of a line: its own, else the lowest free one of its set, else that of the line of the set that was written longest ago, which
goes to the media. Which line leaves is the slice's own choice: `evictL2` may have made another leave before (R250, log 51). -/
def Store.l2Room (st : Store) (line : Nat) : Store × Nat :=
  match st.l2.find? (fun x => x.addr / 4 == line) with
  | some x => (st, x.way)
  | none =>
    let mine := st.l2.filter (fun x => l2Set (x.addr / 4) == l2Set line)
    match (List.range (st.l2Ways (homeSlice (128 * line)))).find? (fun w => mine.all (fun x => x.way != w)), mine.getLast? with
    | some w, _ => (st, w)
    | none, some x => (st.cleanLine (x.addr / 4), x.way)
    | none, none => (st, 0)

/-- L2 holds the sector with these bytes, newer than the media where `dmask` says so. -/
def Store.putSector (st : Store) (k : Nat) (data : Blob) (dmask : BitVec 32) (poison : Bool) : Store :=
  let r := st.l2Room (k / 4)
  { r.1 with l2 := { addr := k, way := r.2, data, dmask, poison } :: r.1.l2.filter (fun x => x.addr != k) }

/-- The slice writes the lines of its ways from w upward to the media and drops them, lowest way first (R253). -/
def Store.emptyWays (st : Store) (slice w : Nat) : Store :=
  (List.range 16).foldl (fun t i =>
    if i < w then t
    else (t.l2.filter (fun x => x.way == i && homeSlice (32 * x.addr) == slice)).foldl (fun u x => u.cleanSector x.addr) t) st

/-- The home slice drops its line without writing it back (R261). -/
def Store.dropHomeLine (st : Store) (line : Nat) : Store :=
  { st with l2 := st.l2.filter (fun x => x.addr / 4 != line) }

/-! ## Home watchpoints (R386) -/

/-- The bank is awake: it has been accessed (R255). -/
def Store.wake (st : Store) (bank : Nat) : Store := { st with drowsy := st.drowsy.filter (fun b => b != bank) }

/-- The bank of a line is awake. -/
def Store.wakeLine (st : Store) (line : Nat) : Store := st.wake (homeBank (128 * line))

/-- Every bank of a slice is awake. -/
def Store.wakeSlice (st : Store) (slice : Nat) : Store := { st with drowsy := st.drowsy.filter (fun b => b / 16 != slice) }

/-- Some byte of the masked sectors lies in the watched region, and the access is a write, or a read that the watchpoint watches;
an atomic is a read and a write. -/
def HomeWatch.hit (w : HomeWatch) (ps : List (Nat × BitVec 32)) (r write : Bool) : Bool :=
  (write || (r && w.rd)) && ps.any (fun p =>
    (List.range 32).any (fun i => p.2.getLsbD i && decide (w.lin ≤ 32 * p.1 + i) && decide (32 * p.1 + i < w.lin + 2 ^ w.len)))

def State.setIpend (s : State) (n : Nat) (bits : BitVec 3) : State :=
  let c := s.coreAt n
  s.setCore n { c with sys := { c.sys with ipend := c.sys.ipend ||| bits } }

/-- One access has reached the home of some masked sectors of a line: its bank is awake (R255), watchpoints count it and flag
the core that set them. -/
def State.noteAccess (s : State) (ps : List (Nat × BitVec 32)) (r write : Bool) : State :=
  let hits := s.store.homeW.filter (fun w => w.hit ps r write)
  let s1 := { s with store := { s.store with
    drowsy := s.store.drowsy.filter (fun b => !ps.any (fun p => b == homeBank (32 * p.1)))
    homeW := s.store.homeW.map (fun w =>
      if w.hit ps r write then { w with hits := min (w.hits + 1) (2 ^ 32 - 1) } else w) } }
  hits.foldl (fun t w =>
    let c := t.coreAt w.core
    if c.task.isSome && c.sys.ctxid.toNat == w.ctx then t.setIpend w.core 4 else t) s1

/-- An access to one masked sector. -/
def State.noteHome (s : State) (k : Nat) (mask : BitVec 32) (r write : Bool) : State := s.noteAccess [(k, mask)] r write

/-- The whole of a line. -/
def lineMasks (line : Nat) : List (Nat × BitVec 32) := [0, 1, 2, 3].map (fun i => (4 * line + i, BitVec.allOnes 32))

/-! ## Writes at the home -/

/-- Any write to the ARM word of an armed counter object clears its mark (R324). -/
def Store.writeMarks (st : Store) (k : Nat) (mask : BitVec 32) : Store :=
  if (mask &&& maskB 16 8) = 0 then st else { st with marks := st.marks.filter (fun m => m.1 != 32 * k) }

/-! ## PENDING records (R323, R326) -/

/-- The segment that a READY task enters (R333): the die of its record's home when its mask has it, else the lowest die of its
mask on that row of sockets, else the lowest die of its mask. -/
def LTask.segment (t : LTask) : Nat :=
  let d := homeDie t.rec_
  let mine := (List.range 8).filter (fun i => t.dies.getLsbD i)
  if t.dies.getLsbD d then d
  else ((mine.find? (fun i => i / 4 == d / 4)).orElse (fun _ => mine.head?)).getD 0

def LTask.enterReady (t : LTask) (now : Nat) : LTask := { t with phase := .ready, since := now, seg := t.segment, aged := 0 }

/-- A PENDING record whose PEND, in the sector just written, is 0 becomes READY. -/
def State.wakePending (s : State) (k : Nat) : State :=
  let hit := fun (t : LTask) => t.phase == .pending && t.rec_ == 32 * k
  if s.fab.tasks.any hit && (getB (s.store.sector k).1 24 7 == 0) then
    let x := s.store.sector k
    let s1 := { s with
      fab := { s.fab with tasks := s.fab.tasks.map (fun t => if hit t then t.enterReady s.time else t) }
      store := s.store.putSector k (putB x.1 20 1 2) (s.store.dirtyMask k ||| maskB 20 1) x.2 }
    s1.noteHome k (maskB 20 1) false true
  else s

/-- The masked bytes of a sector as the home holds them change. `carried` is poison that comes with the data; `full` says that
one store wrote the whole sector, which clears its poison (R259, R260). -/
def State.setHome (s : State) (k : Nat) (data : Blob) (mask : BitVec 32) (carried full : Bool) : State :=
  let old := s.store.sector k
  let st := s.store.putSector k (blendB 32 old.1 data mask.toNat) (s.store.dirtyMask k ||| mask)
    (carried || (old.2 && !full))
  { s with store := st.writeMarks k mask }

/-- The home merges the masked bytes of a sector (R248); `upd` marks the write of an atomic. -/
def State.mergeHome (s : State) (k : Nat) (data : Blob) (mask : BitVec 32) (carried full upd : Bool) : State :=
  if mask = 0 then s else ((s.setHome k data mask carried full).noteHome k mask upd true).wakePending k

/-! ## RDC copies (R248–R250) -/

def Store.rdcFind (st : Store) (die tag : Nat) : Option RdcLine := st.rdc.find? (fun x => x.die == die && x.tag == tag)

def Store.rdcDrop (st : Store) (die tag : Nat) : Store :=
  { st with rdc := st.rdc.filter (fun x => !(x.die == die && x.tag == tag)) }

/-- The set of a die's RDC that holds a tag, numbered slice × 512 + set; the slice is the hash of the PA as issued (R249, log 51). -/
def rdcSet (tag : Nat) : Nat := sliceHash (128 * tag) * 512 + tag % 512

/-- A copy enters its set of 16 ways; from a full set the copy that entered first leaves (R250, log 51). -/
def Store.rdcPut (st : Store) (x : RdcLine) : Store :=
  let mine := fun (y : RdcLine) => y.die == x.die && rdcSet y.tag == rdcSet x.tag
  let st1 := st.rdcDrop x.die x.tag
  { st1 with rdc := x :: (st1.rdc.filter mine).take 15 ++ st1.rdc.filter (fun y => !mine y) }

/-- The bank of a die's RDC slice that holds a tag (R249, R255). -/
def rdcBank (die tag : Nat) : Nat := (die * 32 + sliceHash (128 * tag)) * 16 + getBits (128 * tag) 13 4

/-- A write-back on its way home merges its bytes into the RDC copy of the writer's die, whose bank it wakes (R248, R255). -/
def Store.rdcMerge (st : Store) (die tag i : Nat) (data : Blob) (mask : BitVec 32) (carried full : Bool) : Store :=
  { st with
    drowsy := if (st.rdcFind die tag).isSome then (st.wake (rdcBank die tag)).drowsy else st.drowsy
    rdc := st.rdc.map (fun x =>
      if x.die == die && x.tag == tag then
        { x with
          data := putB x.data (32 * i) 32 (blendB 32 (getB x.data (32 * i) 32) data mask.toNat)
          poison := BitVec.ofNat 4 (putBits x.poison.toNat i 1 (if carried || (bit x.poison.toNat i && !full) then 1 else 0)) }
      else x) }

/-- The linear line of an L1 or RDC tag, and the tag of its other alias (R241, R242). -/
def linLine (tag : Nat) : Nat := ((linOf (128 * tag)).getD 0) / 128

/-- The interleaved alias of a linear address: the inverse of `interleave` (R241). -/
def aliasOf (lin : Nat) : Nat :=
  let hi := getBits lin 12 24
  2 ^ 48 + hi * 2 ^ 15 + (Nat.xor (lin / 2 ^ 36 % 8) (hi % 8)) * 2 ^ 12 + lin % 2 ^ 12

def otherTag (tag : Nat) : Nat :=
  if 128 * tag < 2 ^ 39 then aliasOf (128 * tag) / 128 else linLine tag

/-- Whether the line is homed to another die than the core's. -/
def remoteTo (n tag : Nat) : Bool := homeDie (128 * linLine tag) != dieOf n

/-! ## L1 lines -/

def Core.line (c : Core) (tag : Nat) : Option L1Line := c.l1.find? (fun l => l.tag == tag)

def Core.dropL1 (c : Core) (tag : Nat) : Core := { c with l1 := c.l1.filter (fun l => l.tag != tag) }

/-- The core with a line replaced, or added in front. -/
def Core.putLine (c : Core) (l : L1Line) : Core :=
  if c.l1.any (fun x => x.tag == l.tag) then { c with l1 := c.l1.map (fun x => if x.tag == l.tag then l else x) }
  else { c with l1 := l :: c.l1 }

/-- The two-bit counter of a line moved up or down (R298). -/
def Core.bump (c : Core) (tag : Nat) (up : Bool) : Core :=
  let i := tag % 256
  let v := (look c.pred i).getD 0
  { c with pred := assoc c.pred i (if up then min (v + 1) 3 else v - 1) }

/-- The dirty bytes of sector i of core n's line go home, through the RDC slice of its die for a remote line (R248). -/
def State.sendSector (s : State) (n : Nat) (l : L1Line) (i : Fin 4) : State :=
  let x := rd l.sec i
  if x.dmask = 0 then s
  else
    let data := getB l.data (32 * i.val) 32
    let s1 := s.mergeHome (4 * linLine l.tag + i.val) data x.dmask x.poison x.full false
    if remoteTo n l.tag then
      let s2 := { s1 with store := s1.store.rdcMerge (dieOf n) l.tag i.val data x.dmask x.poison x.full }
      let c := s2.coreAt n
      let who := (List.range 4).filter (fun j => (x.own[j]?.getD 0) != 0)
      s2.setCore n { c with sent := (who.map (fun j => (j, l.tag))).filter (fun p => !c.sent.contains p) ++ c.sent }
    else s1

def State.sendLine (s : State) (n : Nat) (l : L1Line) : State :=
  [0, 1, 2, 3].foldl (fun t i => t.sendSector n l i) s

/-! ## Recall of an exclusive line (R283) -/

/-- Core n holds a line of this linear line exclusive. -/
def Core.exclLine (c : Core) (line : Nat) : Option L1Line := c.l1.find? (fun l => l.excl && linLine l.tag == line)

/-- Core n returns ownership and data of the line to the home (R234, R283, R298). -/
def State.recallFrom (s : State) (n line : Nat) : State :=
  let c := s.coreAt n
  match c.exclLine line with
  | none => s
  | some l => (s.setCore n ((c.dropL1 l.tag).bump l.tag true)).sendLine n l

/-- Core n's exclusive line of this linear line is the one excepted, by core and tag. -/
def State.keeps (s : State) (keep : Option (Nat × Nat)) (n line : Nat) : Bool :=
  ((s.coreAt n).exclLine line).any (fun l => keep == some (n, l.tag))

/-- Before any request for the line, the home recalls it from every core that holds it exclusive; a core's write-back of a line leaves that
line with it, and not the same line under its other alias. -/
def State.recall (s : State) (line : Nat) (keep : Option (Nat × Nat)) : State :=
  s.coreNos.foldl (fun t n => if t.keeps keep n line then t else t.recallFrom n line) s

/-- A core's exclusive line is newer than home: the sector as memory stands, exclusive bytes included. -/
def State.sectorNow (s : State) (k : Nat) : Blob × Bool :=
  s.coreNos.foldl (fun x n =>
    match (s.coreAt n).exclLine (k / 4) with
    | none => x
    | some l =>
      let i := Fin.ofNat 4 k
      let y := rd l.sec i
      (blendB 32 x.1 (getB l.data (32 * i.val) 32) y.dmask.toNat, y.poison || (x.2 && !y.full))) (s.store.sector k)

/-- One byte of device memory at its home, exclusive lines included. -/
def State.homeByte (s : State) (lin : Nat) : Byte := BitVec.ofNat 8 (getB (s.sectorNow (lin / 32)).1 (lin % 32) 1)

/-- n bytes within one sector at their home. -/
def State.homeBytes (s : State) (lin n : Nat) : Nat := getB (s.sectorNow (lin / 32)).1 (lin % 32) n

def State.homePoison (s : State) (lin : Nat) : Bool := (s.sectorNow (lin / 32)).2

/-! ## Accesses that the home slice performs for engines, the Lift, walkers, links and far requests -/

/-- A read of n bytes within one sector at the home slice. -/
def State.homeRead (s : State) (lin n : Nat) : State :=
  (s.recall (lin / 128) none).noteHome (lin / 32) (maskB (lin % 32) n) true false

/-- A write of n bytes within one sector at the home slice. A write of all 32 bytes clears the sector's poison. -/
def State.homeWrite (s : State) (lin n v : Nat) (carried : Bool) : State :=
  (s.recall (lin / 128) none).mergeHome (lin / 32) (v % 256 ^ n * 256 ^ (lin % 32)) (maskB (lin % 32) n) carried (n == 32) false

/-- A write of n bytes within one sector at the home slice that watchpoints do not count by itself (R318). -/
def State.quietWrite (s : State) (lin n v : Nat) : State :=
  ((s.recall (lin / 128) none).setHome (lin / 32) (v % 256 ^ n * 256 ^ (lin % 32)) (maskB (lin % 32) n) false (n == 32)).wakePending
    (lin / 32)

/-- A write at home of a run of n bytes at linear or interleaved address pa, split where sectors end; `fuel` bounds the
number of sectors. -/
def State.devWriteN : Nat → State → Nat → Nat → Nat → State
  | 0, s, _, _, _ => s
  | fuel + 1, s, pa, n, v =>
    if n = 0 then s
    else
      let m := min n (32 - pa % 32)
      State.devWriteN fuel (s.homeWrite ((linOf pa).getD 0) m v false) (pa + m) (n - m) (v / 256 ^ m)

/-- The n bytes of such a run, and whether a sector of them is poisoned. -/
def State.devBytesN : Nat → State → Nat → Nat → Nat × Bool
  | 0, _, _, _ => (0, false)
  | fuel + 1, s, pa, n =>
    if n = 0 then (0, false)
    else
      let m := min n (32 - pa % 32)
      let lin := (linOf pa).getD 0
      let r := State.devBytesN fuel s (pa + m) (n - m)
      (s.homeBytes lin m + 256 ^ m * r.1, s.homePoison lin || r.2)

/-- The reads of such a run, as recalls and watchpoints see them. -/
def State.devReadN : Nat → State → Nat → Nat → State
  | 0, s, _, _ => s
  | fuel + 1, s, pa, n =>
    if n = 0 then s
    else
      let m := min n (32 - pa % 32)
      State.devReadN fuel (s.homeRead ((linOf pa).getD 0) m) (pa + m) (n - m)

end Sys2Proof.Machine
end

