-- ==== Sys2Proof/Machine/CfgSpace.lean ====
section
/-! DEFINITION. Device configuration space: the capability list, pre-emption words, die control blocks and management words
(22 R405–R410, R413). -/

namespace Sys2Proof.Machine

/-! ## The capability list (R407) -/

/-- The boot status word (R410). -/
def Boot.status (b : Boot) : Nat :=
  b.mode.toNat + 256 * b.mreason + 2 ^ 16 * (if b.fails = 0 then 0 else b.reason) + 2 ^ 24 * (if b.mode = 1 then b.live else 0)
    + 2 ^ 32 * b.fails

/-- The byte of a core in the harvest map. -/
def State.harvestByte (s : State) (n : Nat) : Nat :=
  (if s.enabled n then 1 else 0) + (if s.lanes n = 48 then 2 else 0)

/-- A pair of cores joined across a die edge, west to east (R18, R206): the k-th of the 6 × 4 × 6 possible, by die,
then row, then slot, an order that is the model's (log 63). -/
def edgePair (k : Nat) : Nat × Nat :=
  let q := k / 24
  let d := q + q / 3
  let y := k % 24 / 6
  (192 * d + (8 * y + 7) * 6 + k % 6, 192 * (d + 1) + 8 * y * 6 + k % 6)

/-- The chain map: every edge pair whose two cores are both enabled. -/
def State.chainMap (s : State) : List (Nat × Nat) :=
  ((List.range 144).map edgePair).filter (fun p => s.enabled p.1 && s.enabled p.2)

/-- Bytes of a list of numbers of w bytes each. -/
def packB (w : Nat) : List Nat → Blob
  | [] => 0
  | x :: xs => x % 256 ^ w + 256 ^ w * packB w xs

/-- The bodies of the records: id, length in bytes, bytes. -/
def State.capBodies (s : State) : List (Nat × Nat × Blob) :=
  let cm := s.chainMap
  [(1, 8, s.boot.stat),
   (2, 1536, packB 1 ((List.range 1536).map s.harvestByte)),
   (3, 4 + 4 * cm.length, cm.length + 2 ^ 32 * packB 4 (cm.map (fun p => coreIdOf p.1 + 2 ^ 16 * coreIdOf p.2))),
   (4, 12, packB 4 [8192, 256, 64]),
   (5, 8, s.boot.compress.toNat),
   (6, 8, (if s.boot.mode = 0 then 255 else 2 ^ s.boot.live) + 256 * 64),
   (7, 8, (if s.boot.mode = 0 then 7 else 5) + 16 * 16 + (if s.boot.mode = 0 || s.boot.facts.flit then 1024 else 0) + 2 ^ 16 * s.boot.ports.toNat)]

/-- The list laid out from offset `at_`: each record's header and body, the next at the next multiple of 8 (log 10). -/
def capList (at_ : Nat) : List (Nat × Nat × Blob) → Blob
  | [] => 0
  | (id, n, body) :: rest =>
    let next := at_ + roundUp (8 + n) 8
    let hdr := id + 2 ^ 16 + (8 + n) * 2 ^ 24 + (if rest.isEmpty then 0 else next) * 2 ^ 40
    hdr + 2 ^ 64 * (body % 256 ^ n) + 256 ^ (roundUp (8 + n) 8) * capList next rest

/-! ## Loads and stores (R405) -/

/-- What kind of word an offset from CFG lies in. -/
inductive CfgWord where
  | caps | preempt (core : Nat) | control (die : Fin 8) (off : Nat) | bootclr | bootok | none
deriving DecidableEq, Repr

def cfgWord (off : Nat) : CfgWord :=
  if off < 0x100000 then .caps
  else if off < 0x100000 + 64 * 1536 then
    (if off % 64 < 8 then .preempt ((off - 0x100000) / 64) else .none)
  else if 0x200000 ≤ off ∧ off < 0x208000 then .control (Fin.ofNat 8 ((off - 0x200000) / 4096)) (off % 4096)
  else if 0x300000 ≤ off ∧ off < 0x300008 then .bootclr
  else if 0x300008 ≤ off ∧ off < 0x300010 then .bootok
  else .none

/-- A load of n bytes at a level, the host's at level 1; none where it raises NOMEM. In MODE 11 only this space is served (R409). R405
gives the loads of the list and of the control blocks to level 1 and the host and does not say what one at level 0 returns: it returns a
free value (log 36). -/
def State.cfgLoad (s : State) (level off n : Nat) : Option Nat :=
  let closed := getB (Config.freeBlob off) 0 n
  match cfgWord off with
  | .caps => some (if level = 0 then closed else getB (capList 0 s.capBodies) off n)
  | .preempt _ => some 0
  | .control d o => some (if level = 0 then closed else getB (rd s.drowsyThresh d) o n)
  | .bootclr => some 0
  | .bootok => some 0
  | .none => none

/-- `BOOTCLR` clears the failed-start counter (R405, R408). -/
def State.bootClear (s : State) (v : Nat) : State :=
  if v = 0x00C1EA2F then { s with boot := { s.boot with fails := 0 } } else s

/-- A failure stops the start, and its reason is recorded (R408, R410). -/
def Boot.stop (b : Boot) (why : Nat) : Boot :=
  let b1 := { b with stopped := true, reason := why }
  { b1 with stat := b1.status }

/-- `BOOTOK` ends a start: it stops the watchdog, and clears the counter in full mode; the capability list stays from then on as the start
leaves it (R407, R408). After a failure that stopped the start, or a second time, it does nothing. -/
def Boot.done (b : Boot) : Boot :=
  let b1 := { b with ok := true, fails := if b.mode = 0 then 0 else b.fails }
  { b1 with stat := b1.status }

/-- A start is under way: nothing has stopped it and firmware has not ended it. -/
def Boot.starting (b : Boot) : Bool := !b.ok && !b.stopped && b.mode != 3

/-- 10 s in ticks. -/
def watchdogTicks : Nat := 80000000000

/-- A store to `BOOTOK` ends a start within 10 s of reset; later the watchdog has detected its lack (R408). -/
def State.bootDone (s : State) (v : Nat) : State :=
  if v = 0x00B0070C ∧ s.boot.starting = true ∧ s.time < watchdogTicks then { s with boot := s.boot.done } else s

/-- A store to `DROWSY`: a threshold of 1–255 is discarded (R413). -/
def State.setDrowsy (s : State) (d : Fin 8) (v : Nat) : State :=
  if 1 ≤ v % 2 ^ 16 ∧ v % 2 ^ 16 ≤ 255 then s else { s with drowsyThresh := wr s.drowsyThresh d (v % 2 ^ 16) }

/-- Who stores into configuration space: a thread's level, or the host. -/
inductive Writer where
  | level (l : Nat) | host
deriving DecidableEq, Repr

/-- A store of n bytes; none where it raises NOMEM. -/
def State.cfgStore (s : State) (who : Writer) (off n v : Nat) : Option State :=
  match cfgWord off with
  | .caps => some s
  | .preempt c => some (if off % 8 = 0 && v % 2 = 1 && who != .level 0 then s.setIpend c 2 else s)
  | .control d o =>
    some (if o < 8 && who == .level 2 then s.setDrowsy d (putB (rd s.drowsyThresh d) o n v) else s)
  | .bootclr => some (if off % 8 = 0 && (who == .host || who == .level 2) then s.bootClear (v % 256 ^ n) else s)
  | .bootok => some (if off % 8 = 0 && who == .level 2 then s.bootDone (v % 256 ^ n) else s)
  | .none => none

end Sys2Proof.Machine
end

