-- ==== Sys2Proof/Machine/Cache.lean ====
section
/-! DEFINITION. The L1 of the core in focus: plain, `.home` and `.last` loads, stores, write-backs, exclusive lines, and the
release and acquire halves of a fence (11 R248–R249, R261–R263; 12 R271–R276; 17 R394). -/

namespace Sys2Proof.Machine

/-- L1 ways of the split in force (R226, R227). -/
def Core.ways (c : Core) : Nat := getBits c.sys.carve.toNat 8 6

/-- The way of a new line: the lowest free one of its set, else the device's own choice, whose line then leaves
(R226, R394; log 3). -/
def State.newWay (s : State) (tag : Nat) : State × Nat :=
  let used := (s.core.l1.filter (fun l => l.tag % 64 == tag % 64)).map (·.way)
  match (List.range s.core.ways).find? (fun w => !used.contains w) with
  | some w => (s, w)
  | none => ({ s with free := s.free + 1 }, Config.freePick s.free % max s.core.ways 1)

/-- A line put into L1: in its own way when L1 holds it, else in a new way; an L1 without ways keeps nothing. -/
def State.putL1 (s : State) (l : L1Line) : State :=
  match s.core.line l.tag with
  | some old => { s with core := s.core.putLine { l with way := old.way } }
  | none =>
    if s.core.ways = 0 then s
    else
      let (s1, w) := s.newWay l.tag
      { s1 with core := s1.core.putLine { l with way := w } }

/-! ## Fetching a line -/

/-- What a fetch brings: 128 bytes, poison by sector, the grant's stamp and its expiry. -/
structure Fetched where
  data : Blob
  poison : BitVec 4
  grant : Nat
  expiry : Nat
deriving DecidableEq, Repr

/-- The four sectors of a line at home as one byte string, and their poison. -/
def Store.homeLine (st : Store) (line : Nat) : Blob × BitVec 4 :=
  [3, 2, 1, 0].foldl (fun (x : Blob × BitVec 4) i =>
    let y := st.sector (4 * line + i)
    (getB y.1 0 32 + 2 ^ 256 * x.1, (x.2 <<< 1) ||| (if y.2 then 1 else 0))) (0, 0)

/-- A read of the whole line at its home slice. -/
def State.readLine (s : State) (line : Nat) : State :=
  (s.recall line none).noteAccess (lineMasks line) true false

/-- The cycle at which a lease granted now ends, as the home slice counts (R271, R272). -/
def State.leaseEnd (s : State) : Nat := s.cycle - s.lag + s.core.sys.lease.toNat

def State.grantNow (s : State) (line : Nat) : State × Fetched :=
  let s1 := s.readLine line
  let x := s1.store.homeLine line
  (s1, { data := x.1, poison := x.2, grant := s.seq, expiry := s.leaseEnd })

/-- A lease from the home slice, and the RDC copy that the die takes under it. -/
def State.rdcFill (s : State) (die tag : Nat) : State × Fetched :=
  let (s1, f) := s.grantNow (linLine tag)
  ({ s1 with store := (s1.store.rdcPut
      { die, tag, data := f.data, poison := f.poison, grant := f.grant, expiry := f.expiry }).wake (rdcBank die tag) }, f)

/-- The RDC copy of its die that a load of the thread may use (R249, R271, R276). -/
def State.rdcCopy (s : State) (tag : Nat) : Option RdcLine :=
  if remoteTo s.coreId tag then
    (s.store.rdcFind (dieOf s.coreId) tag).filter (fun x => decide (s.cycle ≤ x.expiry) && decide (s.th.acqRdc ≤ x.grant))
  else none

/-- A plain fetch: from the home slice of this die, or for a remote line from this die's RDC slice, which takes a lease on
a miss (R249). An L1 copy of an RDC copy keeps its grant and the smaller expiry (R271, R276). -/
def State.fetchLine (s : State) (tag : Nat) : State × Fetched :=
  if remoteTo s.coreId tag then
    let die := dieOf s.coreId
    match s.rdcCopy tag with
    | some x =>
      ({ s with store := s.store.wake (rdcBank die tag) },
        { data := x.data, poison := x.poison, grant := x.grant, expiry := min x.expiry s.leaseEnd })
    | none => s.rdcFill die tag
  else s.grantNow (linLine tag)

/-- An L1 line of a fetch, under the dirty bytes that L1 holds. A dirty sector keeps its poison, and one that a store has written
whole has no other (R259, R260). -/
def overlay (old : Option L1Line) (tag : Nat) (f : Fetched) (excl : Bool) : L1Line :=
  match old with
  | none =>
    { tag, way := 0, data := f.data, filled := true,
      sec := Vector.ofFn (fun i => { L1Sector.clean with poison := f.poison.getLsbD i.val }),
      grant := f.grant, expiry := f.expiry, excl }
  | some l =>
    { l with
      data := [3, 2, 1, 0].foldl (fun x i =>
        blendB 32 (getB f.data (32 * i) 32) (getB l.data (32 * i) 32) (rd l.sec (Fin.ofNat 4 i)).dmask.toNat + 2 ^ 256 * x) 0
      filled := true
      sec := Vector.ofFn (fun i =>
        let x := rd l.sec i
        { x with poison := if x.full then x.poison else f.poison.getLsbD i.val || (x.poison && x.dmask != 0) })
      grant := f.grant, expiry := f.expiry, excl }

/-- A load of this thread may use the line's copy (R271, R276); an exclusive line is the newest copy. -/
def State.usable (s : State) (l : L1Line) : Bool :=
  l.excl || (l.filled && decide (s.cycle ≤ l.expiry) && decide (s.th.acqL1 ≤ l.grant))

/-! ## Loads -/

/-- The kind of a load (R145, R249, R261). -/
inductive LoadKind where
  | plain | home | last
deriving DecidableEq, Repr

/-- n bytes of the line from byte off of it, and the poison of their sector. -/
def L1Line.get (l : L1Line) (off n : Nat) : Nat × Bool := (getB l.data off n, (rd l.sec (Fin.ofNat 4 (off / 32))).poison)

/-- A plain load of n bytes within one sector of device memory. -/
def State.l1Read (s : State) (pa n : Nat) : State × Nat × Bool :=
  let tag := pa / 128
  match (s.core.line tag).filter s.usable with
  | some l => (s, l.get (pa % 128) n)
  | none =>
    let (s1, f) := s.fetchLine tag
    let l := overlay (s1.core.line tag) tag f false
    (s1.putL1 l, l.get (pa % 128) n)

/-- A `.home` load: the value at the home slice under the thread's own stored bytes (R249). It meets the poison of the home's sector, unless
one store of the thread has written the whole sector, and the poison of the L1 sector where its bytes come from there (R260). -/
def State.l1ReadHome (s : State) (pa n : Nat) : State × Nat × Bool :=
  let lin := (linOf pa).getD 0
  let s1 := s.homeRead lin n
  let x := s1.store.sector (lin / 32)
  match s1.core.line (pa / 128) with
  | none => (s1, getB x.1 (lin % 32) n, x.2)
  | some l =>
    let y := rd l.sec (Fin.ofNat 4 (pa / 32))
    let mine := y.dmask &&& rd y.own s.slot
    (s1, getB (blendB 32 x.1 (getB l.data (pa / 32 % 4 * 32) 32) mine.toNat) (lin % 32) n,
      (x.2 && !(y.full && mine == BitVec.allOnes 32)) || (y.poison && mine &&& maskB (lin % 32) n != 0))

/-- The drops of a last-use load on one line: L1 and RDC lose it unwritten, and the drop of the home slice's line is on its way behind the
load (R261). -/
def State.dropLast (s : State) (tag : Nat) : State :=
  let s1 := { s with core := s.core.dropL1 tag }
  let st := if remoteTo s.coreId tag then s1.store.rdcDrop (dieOf s.coreId) tag else s1.store
  { s1 with store := st, fab := { s1.fab with drops := s1.fab.drops ++ [linLine tag] } }

/-- A drop on its way reaches the home of a line, which recalls the line, as for every request, and discards it unwritten. -/
def State.dropHome (s : State) (line : Nat) : State :=
  let s1 := s.recall line none
  { s1 with store := (s1.store.dropHomeLine line).wakeLine line, fab := { s1.fab with drops := s1.fab.drops.erase line } }

/-- Every drop on its way reaches its home, in order. -/
def State.settleDrops (s : State) : State := s.fab.drops.foldl State.dropHome s

/-! ## Stores -/

/-- A sector with n bytes stored at off by a thread in a cycle. -/
def L1Sector.stored (x : L1Sector) (off n : Nat) (slot : Fin 4) (now : Nat) : L1Sector :=
  let m := maskB off n
  { dmask := x.dmask ||| m
    own := wr x.own slot (rd x.own slot ||| m)
    since := if x.dmask = 0 then now else x.since
    full := x.full || n == 32
    poison := x.poison && n != 32 }

/-- The line with n bytes stored. -/
def L1Line.store (l : L1Line) (off n v : Nat) (slot : Fin 4) (now : Nat) : L1Line :=
  let i := Fin.ofNat 4 (off / 32)
  { l with data := putB l.data off n v, sec := wr l.sec i ((rd l.sec i).stored (off % 32) n slot now) }

/-- An L1 line that holds no copy yet, only what will be stored. -/
def L1Line.empty (tag : Nat) : L1Line :=
  { tag, way := 0, data := 0, filled := false, sec := Vector.replicate 4 .clean, grant := 0, expiry := 0, excl := false }

/-- A store past an L1 that has no ways: it is merged at home at once. -/
def State.storeThrough (s : State) (pa n v : Nat) : State :=
  let lin := (linOf pa).getD 0
  let s1 := s.homeWrite lin n v false
  let st := s1.store.rdcMerge (dieOf s.coreId) (pa / 128) (pa / 32 % 4) (v % 256 ^ n * 256 ^ (pa % 32))
    (maskB (pa % 32) n) false (n == 32)
  { s1 with store := st }

/-- A store of n bytes within one sector of device memory: into L1, without ownership (R248). -/
def State.l1Write (s : State) (pa n v : Nat) : State :=
  if s.core.ways = 0 then s.storeThrough pa n v
  else s.putL1 (((s.core.line (pa / 128)).getD (.empty (pa / 128))).store (pa % 128) n v s.slot s.cycle)

/-- One store has written the whole sector at pa: its poison is cleared (R260). -/
def State.l1Full (s : State) (pa : Nat) : State :=
  match s.core.line (pa / 128) with
  | some l =>
    let i := Fin.ofNat 4 (pa / 32)
    { s with core := s.core.putLine { l with sec := wr l.sec i { (rd l.sec i) with full := true, poison := false } } }
  | none =>
    let k := (linOf pa).getD 0 / 32
    { s with store := s.store.putSector k (s.store.sector k).1 (s.store.dirtyMask k) false }

/-! ## Write-backs -/

/-- Sectors of the line made clean where `sel` holds. -/
def L1Line.clean (l : L1Line) (sel : L1Sector → Bool) : L1Line :=
  { l with sec := l.sec.map (fun x => if sel x then { L1Sector.clean with poison := x.poison } else x) }

/-- Core n writes back the sectors of a line that `sel` chooses; the line stays in its way, clean (R248, R262, R394). -/
def State.writeBack (s : State) (n tag : Nat) (sel : L1Sector → Bool) : State :=
  match (s.coreAt n).line tag with
  | none => s
  | some l =>
    let s1 := [0, 1, 2, 3].foldl (fun t i => if sel (rd l.sec i) then t.sendSector n l i else t)
      (s.recall (linLine tag) (some (n, tag)))
    s1.setCore n ((s1.coreAt n).putLine (l.clean sel))

/-- The line leaves core n's L1: dirty sectors go home, ownership is returned (R234, R248). -/
def State.evict (s : State) (n tag : Nat) : State :=
  let s1 := s.writeBack n tag (fun _ => true)
  s1.setCore n ((s1.coreAt n).dropL1 tag)

/-- Before the home slice performs a request of this core itself (a far atomic, a record, a counter): the core's stored bytes
of the line go home, and its copies under this alias end (R147, R273), and what it writes counts as written back by the thread (R282). -/
def State.homeReady (s : State) (pa : Nat) : State :=
  let tag := pa / 128
  let s1 := (s.evict s.coreId tag).recall (linLine tag) none
  let p := (s1.slot.val, tag)
  let sent := if remoteTo s1.coreId tag && !s1.core.sent.contains p then p :: s1.core.sent else s1.core.sent
  { s1 with store := s1.store.rdcDrop (dieOf s1.coreId) tag, core := { s1.core with sent } }

/-- The line exclusive in L1, for a near atomic (R297, R298). The die's RDC copy under this alias leaves: it is older (R273). -/
def State.own (s : State) (tag : Nat) : State × L1Line :=
  match (s.core.line tag).filter (·.excl) with
  | some l => ({ s with core := s.core.bump tag false }, l)
  | none =>
    let (s1, f) := s.grantNow (linLine tag)
    let l := overlay (s1.core.line tag) tag f true
    (({ s1 with store := s1.store.rdcDrop (dieOf s.coreId) tag } : State).putL1 l, l)

/-- Poison that the core's read-modify-write of the sector at pa would meet: at home, or in what its own threads have stored (R260,
R302). -/
def State.atomicPoison (s : State) (pa : Nat) : Bool :=
  match s.core.line (pa / 128) with
  | some l =>
    let x := rd l.sec (Fin.ofNat 4 (pa / 32))
    if x.full then x.poison else s.homePoison ((linOf pa).getD 0) || (x.poison && x.dmask != 0)
  | none => s.homePoison ((linOf pa).getD 0)

/-! ## Fences (R276) -/

/-- Lines that hold a dirty sector with a byte that the thread in focus stored. -/
def State.dirtyLines (s : State) : List Nat :=
  (s.core.l1.filter (fun l => l.sec.toList.any (fun x => x.dmask != 0 && rd x.own s.slot != 0))).map (·.tag)

/-- Posted writes that the I/O dies have received reach their homes, in order (R276). -/
def State.drainPosted (s : State) : State :=
  let s1 := s.store.posted.foldl (fun t p => t.devWriteN (p.data.length + 1) p.pa p.data.length (ofBytes p.data)) s
  { s1 with store := { s1.store with posted := [] } }

/-- The release half of a fence at a scope code: the thread's dirty sectors go home; from `.die` on, this die's RDC copy
under the other alias of each remote line ends (R276, R282, R290). -/
def State.release (s : State) (scope : Nat) : State :=
  if scope = 0 then s
  else
    let s1 := s.dirtyLines.foldl (fun t tag => t.writeBack t.coreId tag (fun x => rd x.own t.slot != 0)) s
    if scope = 1 then s1
    else
      let mine := s1.core.sent.filter (fun p => p.1 == s1.slot.val)
      let st := mine.foldl (fun t p => t.rdcDrop (dieOf s1.coreId) (otherTag p.2)) s1.store
      { s1 with store := st, core := { s1.core with sent := s1.core.sent.filter (fun p => p.1 != s1.slot.val) } }

/-- A stored byte of the thread in focus has to cross a link that is down on its way home: a release cannot complete (R277). -/
def State.releaseCut (s : State) (scope : Nat) : Bool :=
  decide (1 ≤ scope) && s.dirtyLines.any (fun tag => s.cutOff s.coreId (homeDie (128 * linLine tag)))

/-- The acquire half: posted writes come home from `.pkg` on, and later loads use no earlier L1 copy, from `.pkg` on no
earlier RDC copy either. -/
def State.acquire (s : State) (scope : Nat) : State :=
  let s1 := if 3 ≤ scope then s.drainPosted else s
  { s1 with th := { s1.th with
      acqL1 := if 1 ≤ scope then s1.seq else s1.th.acqL1
      acqRdc := if 3 ≤ scope then s1.seq else s1.th.acqRdc } }

end Sys2Proof.Machine
end

