-- ==== Sys2Proof/Machine/Translate.lean ====
section
/-! DEFINITION. Address translation: page walks, TLBs, rights, record pages (16 R387–R390, 14 R321–R322, R414). -/

namespace Sys2Proof.Machine

/-- What an access needs of a page (R388). -/
inductive Need where
  | read | write | atomic | exec
deriving DecidableEq, Repr

/-- The rights of an access: its context, the root of its tables, its privilege level. -/
structure Rights where
  ctx : Nat
  root : Nat
  level : Nat
deriving DecidableEq, Repr

/-- The result of a walk: an entry, or a subcause of R389 with the address that FPA holds. -/
inductive Walked where
  | page (e : TlbEntry)
  | bad (sub fpa : Nat)
deriving DecidableEq, Repr

/-! ## Page table entries (R388) -/

def pteValid (e : Nat) : Bool := bit e 0
def pteLeaf (e : Nat) : Bool := bit e 1 || bit e 2 || bit e 3
def ptePa (e : Nat) : Nat := getBits e 12 40 * 4096
def pteReserved (e : Nat) : Bool := getBits e 52 12 != 0 || getBits e 9 3 != 0 || getBits e 5 2 != 0

/-- Bytes of a leaf page by level. -/
def leafSize (level : Nat) : Nat := if level = 1 then 2 ^ 30 else if level = 2 then 2 ^ 21 else 2 ^ 12

/-- The index of a virtual address at a level. -/
def vaIndex (va level : Nat) : Nat :=
  if level = 0 then getBits va 39 17 else getBits va (39 - 9 * level) 9

/-- A leaf that is malformed at this level: any bit or alignment that R388 refuses. -/
def leafBad (e va level : Nat) : Bool :=
  level == 0 || pteReserved e || (bit e 2 && !bit e 1) ||
    (if bit e 7 then
      level != 3 || ptePa e < getBits va 12 4 * 4096 || (ptePa e - getBits va 12 4 * 4096) % 65536 != 0
    else ptePa e % leafSize level != 0)

def pointerBad (e level : Nat) : Bool := level == 3 || pteReserved e || bit e 7

/-- The TLB entry of a leaf for a page of a context. A C leaf covers its whole group. -/
def leafEntry (e va level ctx : Nat) : TlbEntry :=
  let size := if bit e 7 then 65536 else leafSize level
  { ctx, va := va / size * size, size, pa := if bit e 7 then ptePa e - getBits va 12 4 * 4096 else ptePa e,
    r := bit e 1, w := bit e 2, x := bit e 3, u := bit e 4, rc := bit e 8 }

/-- A table entry as its home holds it; none where a walk may not read (R390). -/
def State.pte (s : State) (pa : Nat) : Option (Nat × Bool) :=
  match s.place pa with
  | .media lin => some (s.homeBytes lin 8, s.homePoison lin)
  | _ => none

/-- The entry of a C group that the access uses: its own when the group is alike, else the device's choice among the
valid C leaves of the group (R388; log 3). `tab` is the table's address. -/
def State.groupEntry (s : State) (tab va e : Nat) : Nat :=
  let base := getBits va 12 9 / 16 * 16
  let mine := getBits va 12 4
  let all := (List.range 16).filterMap (fun j => (s.pte (tab + 8 * (base + j))).map (fun x => (j, x.1)))
  if all.all (fun p => p.2 + 4096 * mine == e + 4096 * p.1) then e
  else
    let ok := all.filter (fun p => pteValid p.2 && bit p.2 7 && !leafBad p.2 (va - 4096 * mine + 4096 * p.1) 3)
    match ok[Config.freePick s.free % max ok.length 1]? with
    | some (j, x) => x + 4096 * mine - 4096 * j
    | none => e

/-- The walk from a level down, `fuel` levels left; the addresses of the entries it reads are listed. -/
def State.walkFrom (s : State) (va ctx : Nat) : Nat → Nat → Nat → Walked × List Nat
  | 0, _, _ => (.bad 4 0, [])
  | fuel + 1, tab, level =>
    let pa := tab + 8 * vaIndex va level
    match s.pte pa with
    | none => (.bad 6 pa, [])
    | some (e, poison) =>
      if poison then (.bad 5 0, [pa])
      else if !pteValid e then (.bad 1 0, [pa])
      else if pteLeaf e then
        if leafBad e va level then (.bad 4 0, [pa])
        else (.page (leafEntry (if bit e 7 then s.groupEntry tab va e else e) va level ctx), [pa])
      else if pointerBad e level then (.bad 4 0, [pa])
      else
        let r := State.walkFrom s va ctx fuel (ptePa e) (level + 1)
        (r.1, pa :: r.2)

def State.walk (s : State) (va : Nat) (r : Rights) : Walked × List Nat := s.walkFrom va r.ctx 4 r.root 0

/-- The reads of a walk at the home slices, as recalls and watchpoints see them, and the free value it may have used. -/
def State.walked (s : State) (pas : List Nat) : State :=
  pas.foldl (fun t pa => t.homeRead ((linOf pa).getD 0) 8) { s with free := s.free + 1 }

/-! ## TLBs (R390) -/

def TlbEntry.covers (e : TlbEntry) (ctx va : Nat) : Bool := e.ctx == ctx && decide (e.va ≤ va) && decide (va < e.va + e.size)

/-- Something of the fabric with this number is in flight. -/
def Fabric.inFlight (f : Fabric) (id : Nat) : Bool :=
  f.msgs.any (fun m => m.id == id) || f.cmds.any (fun c => c.id == id) || f.rows.any (fun r => r.id == id)

/-- An access that has been translated and is still to be performed, with its virtual address (R391). -/
def State.noteUse (s : State) (id va : Nat) : State :=
  { s with fab := { s.fab with
      used := (id, s.core.sys.ctxid.toNat, va) :: s.fab.used.filter (fun u => s.fab.inFlight u.1) } }

/-- The context and the virtual address of the counter that a running `mdrainx` of core n has translated. -/
def State.counterUse (s : State) (n : Nat) : Option (Nat × Nat) :=
  let c := s.coreAt n
  match c.mat.ctr, c.mat.queue with
  | some _, e :: _ => some (c.sys.ctxid.toNat, e.sv1.toNat)
  | _, _ => none

/-- An access in flight, or a running `mdrainx`, has used an entry, still held by some TLB of the package, that `gone` names. -/
def State.usesEntry (s : State) (gone : TlbEntry → Bool) : Bool :=
  let held := (s.coreNos.flatMap (fun n => (s.coreAt n).tlb)) ++ s.store.l2tlb.map (·.2)
  let uses := fun (u : Nat × Nat) => held.any (fun e => gone e && e.covers u.1 u.2)
  s.fab.used.any (fun u => s.fab.inFlight u.1 && uses u.2) || s.coreNos.any (fun n => (s.counterUse n).any uses)

/-- The entry that the core's L1 TLB or its cluster's L2 TLB holds. -/
def State.tlbHit (s : State) (ctx va : Nat) : Option TlbEntry :=
  match s.core.tlb.find? (fun e => e.covers ctx va) with
  | some e => some e
  | none => (s.store.l2tlb.find? (fun p => p.1 == clusterOf s.coreId && p.2.covers ctx va)).map (·.2)

/-- An entry enters the L1 and L2 TLBs, whose oldest entries leave. -/
def State.tlbFill (s : State) (e : TlbEntry) : State :=
  let cl := clusterOf s.coreId
  let mine := (s.store.l2tlb.filter (fun p => p.1 == cl)).take 4095
  { s with
    core := { s.core with tlb := e :: s.core.tlb.take 63 }
    store := { s.store with l2tlb := (cl, e) :: mine ++ s.store.l2tlb.filter (fun p => p.1 != cl) } }

/-- The page grants the access at the level (R367, R388). -/
def TlbEntry.grants (e : TlbEntry) (need : Need) (level : Nat) : Bool :=
  (match need with
    | .read => e.r
    | .write => e.w
    | .atomic => e.r && e.w
    | .exec => e.x) && (e.u || level != 0)

/-! ## Translation -/

/-- A translated address with its page's record attribute, or the subcause and FPA of a fault. -/
inductive Xlated where
  | ok (pa : Nat) (rc : Bool)
  | bad (sub fpa : Nat)
deriving DecidableEq, Repr

def TlbEntry.xlate (e : TlbEntry) (va : Nat) (need : Need) (level : Nat) : Xlated :=
  if e.grants need level then .ok (e.pa + (va - e.va)) e.rc else .bad 2 0

/-- A walk whose result is checked and not kept, as the Lift and the engines translate (R414). -/
def State.xlateOf (s : State) (va : Nat) (need : Need) (r : Rights) : Xlated :=
  if 2 ^ 56 ≤ va then .bad 3 0
  else
    match (s.walk va r).1 with
    | .bad sub fpa => .bad sub fpa
    | .page e => e.xlate va need r.level

/-- Such a translation with the reads of its walk. An address of the scratchpad window is never translated: whoever has no scratchpad there
reaches nothing (R228, R387). -/
def State.xlateAs (s : State) (va : Nat) (need : Need) (r : Rights) : State × Xlated :=
  if inSpw va then (s, .bad 3 0)
  else (if 2 ^ 56 ≤ va then s else s.walked (s.walk va r).2, s.xlateOf va need r)

/-- The rights of the thread in focus. -/
def State.rights (s : State) : Rights :=
  { ctx := s.core.sys.ctxid.toNat, root := s.core.sys.ptroot.toNat, level := s.th.level.toNat }

/-- A translation for the thread in focus, through the TLBs (R387–R390). A walk that faults, also for a right, leaves no entry. -/
def State.translate (s : State) (va : Nat) (need : Need) : State × Xlated :=
  let r := s.rights
  if 2 ^ 56 ≤ va then (s, .bad 3 0)
  else
    match s.tlbHit r.ctx va with
    | some e => (s, e.xlate va need r.level)
    | none =>
      let w := s.walk va r
      let s1 := s.walked w.2
      match w.1 with
      | .bad sub fpa => (s1, .bad sub fpa)
      | .page e => (if e.grants need r.level then s1.tlbFill e else s1, e.xlate va need r.level)

/-! ## Record pages (R321, R322) -/

/-- The record map's entry for a linear address: its context where the granule is marked. -/
def State.recContext (s : State) (lin : Nat) : Option Nat :=
  match s.place (s.recmap.toNat + 4 * (lin / 65536)) with
  | .media m =>
    let e := s.homeBytes m 4
    if bit e 31 then some (e % 65536) else none
  | _ => none

/-- The record map's entry for a linear address is read at its home (R322). -/
def State.readMap (s : State) (lin : Nat) : State :=
  match s.place (s.recmap.toNat + 4 * (lin / 65536)) with
  | .media m => s.homeRead m 4
  | .host _ | .peer _ _ | .cfg _ | .none => s

/-- The address lies in a record page of the context: the record attribute, and a granule marked for it. -/
def State.isRecordOf (s : State) (pa : Nat) (rc : Bool) (ctx : Nat) : Bool :=
  match s.place pa with
  | .media lin => rc && s.recContext lin == some ctx
  | _ => false

/-- That test as it is made: for a page with the record attribute the map is read, which is a request for its line (R297). -/
def State.checkRecord (s : State) (pa : Nat) (rc : Bool) (ctx : Nat) : State × Bool :=
  (match s.place pa with
    | .media lin => if rc then s.readMap lin else s
    | _ => s, s.isRecordOf pa rc ctx)

/-- The word is the DEPS word of a 256-byte block of a marked granule. -/
def State.isDeps (s : State) (lin : Nat) : Bool := lin % 256 / 4 == 4 && (s.recContext lin).isSome

end Sys2Proof.Machine
end

