-- ==== Sys2Proof/Machine/Boot.lean ====
section
/-! DEFINITION. Start-up and module reset (22 R408–R410, R412; 16 R377). -/

namespace Sys2Proof.Machine

/-- The dies that a minimal-mode start can bring up (R409). -/
def dieStarts (f : BootFacts) (d : Fin 8) : Bool := !f.dieFails.contains d && !f.stackFails.contains d

/-- The reason why a full-mode start fails: DIETEST, HBMTRAIN, LINKTRAIN (R408, R410). -/
def fullFailure (f : BootFacts) : Nat :=
  if f.dieFails != [] then 2 else if f.stackFails != [] then 3 else if !f.linksTrain then 4 else 0

/-- Why the die tried just before the live one was passed over (R410). -/
def passedOver (f : BootFacts) (live : Nat) : Nat :=
  if live = 0 then 0 else if f.dieFails.contains (Fin.ofNat 8 (live - 1)) then 2 else 3

/-- A module ships with at least 1,472 of its cores enabled, at most 128 of them with 48 lanes (R19). -/
def shippedFacts (f : BootFacts) : Bool :=
  let on := (List.range 1536).filter (fun n => match look f.harvest n with | some (e, _) => e | none => true)
  decide (1472 ≤ on.length) &&
    decide ((on.filter (fun n => match look f.harvest n with | some (_, w) => w | none => false)).length ≤ 128)

/-- The state in which the boot ROM and firmware leave the start, from the failed-start counter and what they find. -/
def bootFound (fails reason : Nat) (f : BootFacts) : Boot :=
  let base : Boot :=
    { mode := 0, fails, reason, mreason := 0, live := 0, ok := false, ports := 0, compress := f.compress, stopped := false
      stat := 0, facts := f }
  if !f.signature then { base with mode := 3, reason := 1 }
  else if fails < 3 then
    let why := fullFailure f
    if why = 0 then { base with fails := fails + 1, ports := 255 }
    else { base with fails := fails + 1, reason := why, stopped := true }
  else
    match (List.range 8).find? (fun d => dieStarts f (Fin.ofNat 8 d)) with
    | some d => { base with mode := 1, live := d, mreason := passedOver f d }
    | none => { base with mode := 3 }

/-- That state with its status word in the capability list (R407). -/
def bootStart (fails reason : Nat) (f : BootFacts) : Boot :=
  let b := bootFound fails reason f
  { b with stat := b.status }

/-- The harvest exceptions of a start: in minimal mode every core of every other die is disabled (R409). -/
def harvestAfter (b : Boot) (f : BootFacts) : List (Nat × Bool × Bool) :=
  if b.mode = 1 then
    ((List.range 1536).filter (fun n => dieOf n != b.live)).map (fun n => (n, false, false)) ++
      f.harvest.filter (fun x => dieOf x.1 == b.live)
  else f.harvest

/-- A module reset with the counter at `fails`: everything as at reset but the counter, the reason, what lies outside the
module, what the environment has listed, and the count of free values (log 5). A harvest that no shipped module has is none that a start
finds: the last one stands (R19). -/
def State.resetModule (s : State) (fails reason : Nat) (f0 : BootFacts) : State :=
  let f := if shippedFacts f0 then f0 else { f0 with harvest := s.boot.facts.harvest }
  let b := bootStart fails reason f
  { State.reset with
    boot := b, harvest := harvestAfter b f, schedule := s.schedule, free := s.free
    store := { Store.reset with host := s.store.host, peer := s.store.peer } }

/-- The counter before a reset that is not counted as a failed start: an attempt that it interrupts is taken back, one that had failed is
not (R377, R408, R412). -/
def State.uncounted (s : State) : Nat := if s.boot.mode = 0 && s.boot.starting then s.boot.fails - 1 else s.boot.fails

/-- A reset by the management logic after a machine check at level 2: not counted as a failed start (R377). What the start
finds is what the last one found (log 5). -/
def State.resetUncounted (s : State) (f : BootFacts) : State := s.resetModule s.uncounted s.boot.reason f

/-- What a start finds when nothing has changed since the last one. -/
def State.sameFacts (s : State) : BootFacts := s.boot.facts

end Sys2Proof.Machine
end

