-- ==== Sys2Proof/Machine/Sys.lean ====
section
/-! DEFINITION. The registers of a thread and the system registers: accessors, layouts, privilege levels
(06 R122, R130–R135; 08 R182–R183; 09 R217, R222, R224; 10 R227; 11 R252–R253; 12 R271; 14 R322, R337–R338; 16 R368, R387;
22 R411). -/

namespace Sys2Proof.Machine

/-! ## General, predicate and pointer registers (R122, R123) -/

/-- `s` register r; `s0` reads zero. -/
def Thread.getS (t : Thread) (r : Reg) : Word := if r = 0 then 0 else rd t.s r

/-- `s` register r written; a write to `s0` is discarded. -/
def Thread.setS (t : Thread) (r : Reg) (v : Word) : Thread := if r = 0 then t else { t with s := wr t.s r v }

/-- `k` register r; `k0` reads all ones. -/
def Thread.getK (t : Thread) (r : KReg) : Word := if r = 0 then BitVec.allOnes 64 else rd t.k r

def Thread.setK (t : Thread) (r : KReg) (v : Word) : Thread := if r = 0 then t else { t with k := wr t.k r v }

def State.getS (s : State) (r : Reg) : Word := s.th.getS r
def State.setS (s : State) (r : Reg) (v : Word) : State := { s with th := s.th.setS r v }
def State.getK (s : State) (r : KReg) : Word := s.th.getK r
def State.setK (s : State) (r : KReg) (v : Word) : State := { s with th := s.th.setK r v }
def State.getP (s : State) (r : PReg) : Word := rd s.th.p r

/-- A pointer register written; its size code stays. -/
def State.setP (s : State) (r : PReg) (v : Word) : State := { s with th := { s.th with p := wr s.th.p r v } }

def State.setPc (s : State) (pc : Word) : State := { s with th := { s.th with pc } }

/-- The instruction is done: the PC moves past its n bytes. -/
def State.advance (s : State) (n : Nat) : State := s.setPc (s.th.pc + wd n)

/-- Sticky flags raised in `VSTATE.FX` (R104). -/
def State.raise (s : State) (fx : BitVec 5) : State :=
  { s with th := { s.th with vec := { s.th.vec with fx := s.th.vec.fx ||| fx } } }

/-! ## Fields -/

/-- A field of w bits at position off of a register word. -/
def field (x : Word) (off w : Nat) : Nat := getBits x.toNat off w

/-- A word with only the bits [hi:lo] kept. -/
def keep (x : Word) (hi lo : Nat) : Word := wd (getBits x.toNat lo (hi - lo + 1) * 2 ^ lo)

/-- The code of a rounding mode (R106). -/
def rmCode : Rm → Nat
  | .rne => 1 | .rtz => 2 | .rup => 3 | .rdn => 4 | .rst => 5

def rmOf : Nat → Option Rm
  | 1 => some .rne | 2 => some .rtz | 3 => some .rup | 4 => some .rdn | 5 => some .rst | _ => none

/-! ## Words of the registers that are views -/

def VecState.word (v : VecState) : Word := wd (rmCode v.rm + v.fx.toNat * 8 + v.vl * 2 ^ 16 + v.vlen * 2 ^ 32)

def Thread.tstat (t : Thread) : Word :=
  wd (t.level.toNat + (if t.intrap then 4 else 0) + (if t.imask then 8 else 0))

/-- `THREAD` (R132). -/
def State.threadWord (s : State) : Word :=
  wd (s.slot.val + s.core.team * 16 + s.lanes s.coreId * 256 + coreIdOf s.coreId * 2 ^ 16)

def mmodeCode : MMode → Nat
  | .v => 0 | .ws => 1 | .rs => 2 | .follow => 3

/-- `MSTATE` (R182). -/
def Mat.word (m : Mat) : Word :=
  wd (mmodeCode m.mode + m.mvl.toNat * 4 + m.chain.toNat * 16 + (if m.alive then 256 else 0) + (if m.wlive then 512 else 0)
    + m.queue.length * 2 ^ 10 + m.partner * 2 ^ 16
    + ((List.range 8).filter (fun i => (rd m.recv (Fin.ofNat 8 i)).isSome)).foldl (fun x i => x + 2 ^ (36 + i)) 0
    + m.fcause.toNat * 2 ^ 44)

/-- `TSHAPE` (R183): the type field is always `.f32`. -/
def TShape.word (t : TShape) : Word :=
  wd (t.base.val + t.cols * 2 ^ 8 + t.rows * 2 ^ 16 + 9 * 2 ^ 26 + t.owner.val * 2 ^ 32)

/-- Free granules as the running task counts them (R236). -/
def Core.freeGranules (c : Core) : Nat := 40 - c.heldOut

/-- The split in force, a word in the layout of R87. -/
def Core.split (c : Core) : Word := keep c.sys.carve 31 0

def splitRegs (w : Word) : Nat := field w 0 6
def splitL1 (w : Word) : Nat := field w 8 6
def splitSpad (w : Word) : Nat := field w 16 6

/-- Bytes of the scratchpad in force (R226). -/
def Core.spadSize (c : Core) : Nat := splitSpad c.sys.carve * 8192

/-- A request word breaks R225 on its reserved bits, REGS or L1. -/
def splitMalformed (w : Word) : Bool :=
  field w 22 42 != 0 || field w 14 2 != 0 || field w 6 2 != 0 || splitRegs w < 2 || splitL1 w < 1

/-- Granules that a request asks for. -/
def splitSum (w : Word) : Nat := splitRegs w + splitL1 w + splitSpad w

/-- The status of `carve` for a request (R230). -/
def Core.carveStatus (c : Core) (w : Word) : Nat :=
  if splitMalformed w then 1
  else if c.freeGranules < splitSum w then 2
  else if splitRegs w ≠ splitRegs c.split ∧
      (c.mat.mode ≠ .v ∨ c.mat.recv.toList.any Option.isSome = true ∨
        (1 ≤ c.mat.chain.toNat ∧ c.mat.chain.toNat ≤ 5)) then 3
  else 0

/-- The accepted request held as the pending split (R227, R230). -/
def Core.pend (c : Core) (w : Word) : Core :=
  { c with sys := { c.sys with
      carve := wd (c.sys.carve.toNat % 2 ^ 32 + 2 ^ 32 * (w.toNat % 2 ^ 32) + 2 ^ 54) } }

/-- Bytes of a vector register under a share mode (R31). -/
def vlenOf (regs team : Nat) (absorb : Bool) : Nat :=
  regs * 8192 / (if absorb then max team 1 else 4) / 64 / 64 * 64

/-! ## Slice scratch (R252, R253) -/

def State.sscrOf (s : State) (cluster : Nat) : Word := (look s.store.sscr cluster).getD 0
def State.ssOf (s : State) (cluster : Nat) : Mem := (look s.store.ss cluster).getD []

def State.setSs (s : State) (cluster : Nat) (m : Mem) : State :=
  { s with store := { s.store with ss := assoc s.store.ss cluster m } }

/-- A write of `SSCR` that its SIZE accepts: bytes beyond a smaller SIZE are lost, a new OWNER finds zeros. The banks whose lines or scratch
bytes this touches are awake (R255). -/
def State.writeSscr (s : State) (v : Word) : State :=
  let cl := clusterOf s.coreId
  let old := s.sscrOf cl
  let m := s.ssOf cl
  let kept := if field v 32 16 ≠ field old 32 16 then [] else m.filter (fun c => c.1 < field v 0 4 * 262144)
  let new := wd (field v 0 4 + field v 32 16 * 2 ^ 32)
  let st0 := if field old 0 4 < field v 0 4 then s.store.emptyWays cl (16 - field v 0 4) else s.store
  let st := if field old 0 4 < field v 0 4 ∨ field v 32 16 ≠ field old 32 16 then st0.wakeSlice cl else st0
  (({ s with store := { st with sscr := assoc st.sscr cl new } }).setSs cl kept)

/-! ## The context table (R338) -/

/-- The linear address of a byte of context c's entry, where it lies in device memory. -/
def State.ctxEntry (s : State) (c off : Nat) : Option Nat :=
  match s.place (s.ctxtab.toNat + 128 * c + off) with
  | .media lin => some lin
  | _ => none

def State.ctxWord (s : State) (c off : Nat) : Word :=
  match s.ctxEntry c off with
  | some lin => wd (s.homeBytes lin 8)
  | none => 0

def State.setCtxWord (s : State) (c off : Nat) (v : Word) : State :=
  match s.ctxEntry c off with
  | some lin => s.homeWrite lin 8 v.toNat false
  | none => s

/-! ## Reading and writing (R135) -/

/-- The lowest level that may read a register. -/
def sysReadLevel : SysReg → Nat
  | .tframe | .tvec | .ttimer | .ipend | .fqueue | .ctxtab | .recmap | .ptroot | .ctxid => 1
  | .mcvec | .mcframe => 2
  | .vstate | .lcount | .thread | .cycle | .lanebusy | .regerr | .mstate | .tshape _ | .carve | .tstat | .orbase | .orcnt
  | .orflt0 | .orflt1 | .orprobe | .sscr | .lease | .liftw | .taskrec => 0

/-- The lowest level that may write a register. -/
def sysWriteLevel : SysReg → Nat
  | .vstate | .lcount | .mstate | .thread | .cycle | .lanebusy | .tshape _ | .orflt0 | .orflt1 | .orprobe | .taskrec => 0
  | .regerr | .carve | .tframe | .tvec | .tstat | .ttimer | .ipend | .orbase | .orcnt | .sscr | .lease | .fqueue
  | .liftw | .ctxtab | .recmap | .ptroot | .ctxid => 1
  | .mcvec | .mcframe => 2

/-- The value that a read returns. -/
def State.sysValue (s : State) : SysReg → Word
  | .vstate => s.th.vec.word
  | .lcount => s.th.lcount
  | .thread => s.threadWord
  | .cycle => wd s.cycle
  | .lanebusy => s.th.laneBusy
  | .regerr => s.core.sys.regerr
  | .mstate => s.core.mat.word
  | .tshape i => (rd s.core.mat.tshape i).word
  | .carve => s.core.sys.carve
  | .tframe => s.th.tframe
  | .tvec => s.core.sys.tvec
  | .tstat => s.th.tstat
  | .ttimer => s.core.sys.ttimer
  | .ipend => wd s.core.sys.ipend.toNat
  | .orbase => s.core.sys.orbase
  | .orcnt => wd s.core.sys.orcnt.toNat
  | .orflt0 => s.core.sys.orflt0
  | .orflt1 => s.core.sys.orflt1
  | .orprobe => s.core.sys.orprobe
  | .sscr => s.sscrOf (clusterOf s.coreId)
  | .lease => wd s.core.sys.lease.toNat
  | .fqueue => keep (s.ctxWord s.core.sys.ctxid.toNat 0x40) 55 7
  | .liftw => keep (s.ctxWord s.core.sys.ctxid.toNat 0x48) 4 0
  | .taskrec => s.core.sys.taskrec
  | .ctxtab => s.ctxtab
  | .recmap => s.recmap
  | .ptroot => s.core.sys.ptroot
  | .ctxid => wd s.core.sys.ctxid.toNat
  | .mcvec => s.core.sys.mcvec
  | .mcframe => s.core.sys.mcframe

def State.setSys (s : State) (f : CoreRegs) : State := { s with core := { s.core with sys := f } }

/-- A write of `ORBASE` or `ORCNT` empties the record cache (R217), and cancels the fetches of `mrpf` under way, a choice of the model
(log 29). -/
def State.clearRecords (s : State) : State := { s with core := { s.core with rcache := [], rpend := [] } }

/-- `MSTATE.FCAUSE` cleared by a read (R182). -/
def State.clearFcause (s : State) : State := { s with core := { s.core with mat := { s.core.mat with fcause := 0 } } }

/-- The split that the pending fields of a `CARVE` word ask for. -/
def carveWord (v : Word) : Word := wd (field v 32 6 + 2 ^ 8 * field v 40 6 + 2 ^ 16 * field v 48 6)

/-- A kernel write of `CARVE`: none where it raises RESOP (R227). -/
def State.writeCarve (s : State) (v : Word) : Option State :=
  let w := carveWord v
  if bit v.toNat 54 then
    if s.core.carveStatus w = 0 then some { s with core := s.core.pend w } else none
  else some (s.setSys { s.core.sys with
    carve := wd (s.core.sys.carve.toNat % 2 ^ 32 + 2 ^ 32 * w.toNat) })

/-- The state after a write of v, none where a reserved value raises RESOP. A register without a write level keeps its
value. `REGERR` takes every value of LANE and LOC: R134 says what hardware records there and reserves no value (log 57). -/
def State.sysPut (s : State) (r : SysReg) (v : Word) : Option State :=
  match r with
  | .vstate =>
    match rmOf (field v 0 3) with
    | some rm => some { s with th := { s.th with vec := { s.th.vec with rm, fx := BitVec.ofNat 5 (field v 3 5) } } }
    | none => none
  | .lcount => some { s with th := { s.th with lcount := v } }
  | .regerr => some (s.setSys { s.core.sys with
      regerr := wd (field v 0 8 + field v 8 7 * 2 ^ 8 + field v 16 32 * 2 ^ 16) })
  | .mstate => some s
  | .carve => s.writeCarve v
  | .tframe => some { s with th := { s.th with tframe := keep v 51 12 } }
  | .tvec => some (s.setSys { s.core.sys with tvec := keep v 55 2 })
  | .tstat => some { s with th := { s.th with intrap := bit v.toNat 2, imask := bit v.toNat 3 } }
  | .ttimer => some (s.setSys { s.core.sys with ttimer := v })
  | .ipend => some (s.setSys { s.core.sys with ipend := s.core.sys.ipend &&& ~~~(BitVec.ofNat 3 v.toNat) })
  | .orbase => some ((s.setSys { s.core.sys with orbase := keep v 55 6 }).clearRecords)
  | .orcnt =>
    if 4096 < field v 0 13 then none
    else some ((s.setSys { s.core.sys with orcnt := BitVec.ofNat 13 v.toNat }).clearRecords)
  | .sscr => if 8 < field v 0 4 then none else some (s.writeSscr v)
  | .lease =>
    if field v 0 13 < 256 ∨ 4096 < field v 0 13 then none
    else some (s.setSys { s.core.sys with lease := BitVec.ofNat 13 v.toNat })
  | .fqueue => some (s.setCtxWord s.core.sys.ctxid.toNat 0x40 (keep v 55 7))
  | .liftw =>
    if field v 0 5 = 0 ∨ 16 < field v 0 5 then none
    else some (s.setCtxWord s.core.sys.ctxid.toNat 0x48 (keep v 4 0))
  | .ctxtab => some { s with ctxtab := keep v 51 12 }
  | .recmap => some { s with recmap := keep v 51 12 }
  | .ptroot => some (s.setSys { s.core.sys with ptroot := keep v 51 20 })
  | .ctxid => some (s.setSys { s.core.sys with ctxid := BitVec.ofNat 16 v.toNat })
  | .mcvec => some (s.setSys { s.core.sys with mcvec := keep v 55 2 })
  | .mcframe => some (s.setSys { s.core.sys with mcframe := keep v 51 12 })
  | .thread | .cycle | .lanebusy | .tshape _ | .orflt0 | .orflt1 | .orprobe | .taskrec => some s

end Sys2Proof.Machine
end

