-- ==== Sys2Proof/Machine/Ops.lean ====
section
/-! DEFINITION. Taking a trap and a machine check, the trap frame, and the access pipeline of a thread: checks, watchpoints,
scratchpad, device memory, outside windows (16 R367–R377, R385; 06 R147; 10 R228; 11 R239, R260). -/

namespace Sys2Proof.Machine

/-- What a meaning answers. -/
abbrev Out := Host.Outcome State Fault Refusal

/-! ## Traps (R369) -/

/-- A trap: cause, subcause, FVA, FPA, FELEM and the MATRIX words of its frame. -/
structure Trap where
  cause : Nat
  sub : Nat := 0
  fva : Word := 0
  fpa : Word := 0
  felem : Word := 0
  m0 : Word := 0
  m1 : Word := 0
deriving DecidableEq, Repr

namespace Cause

def illegal : Trap := { cause := 1 }
def priv : Trap := { cause := 2 }
def resop : Trap := { cause := 3 }
def ialign (tgt : Word) : Trap := { cause := 4, fva := tgt }
def dalign (va : Nat) : Trap := { cause := 5, fva := wd va }
def xlate (sub va fpa : Nat) : Trap := { cause := 6, sub, fva := wd va, fpa := wd fpa }
def ixlate (sub va fpa : Nat) : Trap := { cause := 7, sub, fva := wd va, fpa := wd fpa }
def poison (va pa : Nat) : Trap := { cause := 8, fva := wd (va / 32 * 32), fpa := wd (pa / 32 * 32) }
def nomem (va pa : Nat) : Trap := { cause := 9, fva := wd va, fpa := wd pa }
def spadr (off : Nat) : Trap := { cause := 10, fva := wd off }
def ssrange (off : Word) : Trap := { cause := 11, fva := off }
def trav (sub entry x : Nat) : Trap := { cause := 12, sub, fpa := wd entry, felem := wd x }
def qempty (hdr : Nat) : Trap := { cause := 13, fva := wd hdr }
def qfull (hdr : Nat) : Trap := { cause := 14, fva := wd hdr }
def qbad (why hdr : Nat) : Trap := { cause := 15, sub := why, fva := wd hdr }
def mfault (c : Nat) (m0 m1 : Word) : Trap := { cause := 16, sub := c, m0, m1 }
def routineMiss (why slot : Nat) : Trap := { cause := 17, sub := why, felem := wd slot }
def watch (i va : Nat) : Trap := { cause := 18, sub := i, fva := wd va }
def brk (imm : BitVec 32) : Trap := { cause := 19, fva := imm.setWidth 64 }
def syscall (imm : BitVec 32) : Trap := { cause := 20, fva := imm.setWidth 64 }
def intr (bits : Nat) : Trap := { cause := 32, sub := bits }
def stop : Trap := { cause := 33 }
def mcheck (src : Nat) : Trap := { cause := 63, sub := src }

end Cause

/-! ## The trap frame (R370, R371) -/

/-- The words of a replay entry. -/
def Replay.words (r : Replay) : List Word :=
  [r.pc,
   wd (r.prog + r.slot * 2 ^ 16 + (if r.vector then 2 ^ 20 else 0) + (if r.nowatch then 2 ^ 25 else 0)),
   wd (rmCode r.rm + r.vl * 2 ^ 16), r.opa, r.opb, r.opc, 0, 0]

/-- The entry of the slot that is being executed (R371, R372). -/
def Issue.entry (i : Issue) : Replay :=
  { pc := i.hdr, vector := true, slot := i.slot, prog := i.prog, vl := i.vl, rm := i.rm,
    opa := (i.captured.getD (0, 0, 0)).1, opb := (i.captured.getD (0, 0, 0)).2.1, opc := (i.captured.getD (0, 0, 0)).2.2,
    nowatch := i.nowatch }

/-- Every issued instruction that has not finished, in program order: the loads still under way, the slot being executed, then
what is still to be reissued (R372). -/
def Thread.unfinished (t : Thread) : List Replay :=
  t.flight ++ (match t.issue with | some i => [i.entry] | none => []) ++ t.replay

/-- The words of the size codes of `p0`–`p7`. -/
def Thread.psizes (t : Thread) : Word :=
  wd ((List.range 8).foldl (fun x j => x + (rd t.psz (Fin.ofNat 8 j)).val * 2 ^ (3 * j)) 0)

/-- n words of a list, padded with zero words. -/
def padWords (n : Nat) (ws : List Word) : List Word := (ws ++ List.replicate n 0).take n

def Vp.word (v : Vp) : Word := v.pc ||| (if v.stopped then 1 else 0) ||| (if v.never then 2 else 0)

/-- The words of a frame, from offset 0 up. -/
def frameWords (th : Thread) (t : Trap) (rpc : Word) : List Word :=
  let reps := th.unfinished
  let info := t.cause + t.sub * 2 ^ 8 + th.level.toNat * 2 ^ 16 + reps.length * 2 ^ 24
    + (match th.convoy with | some c => 2 ^ 32 + c.next * 2 ^ 33 | none => 0)
    + (if th.vp.isSome then 2 ^ 40 else 0) + (if th.imask then 2 ^ 41 else 0)
  [wd info, rpc, t.fva, t.fpa, t.felem, (match th.convoy with | some c => c.hdr | none => 0), t.m0, t.m1]
    ++ th.s.toList.drop 1 ++ th.k.toList.drop 1 ++ th.p.toList ++ [th.psizes, 0]
    ++ (match th.rtn with
        | some r => [wd (2 ^ 63 + r.slot.val + r.upc * 2 ^ 16 + rmCode r.rm * 2 ^ 32), r.lc] ++ r.h.toList
        | none => List.replicate 10 0)
    ++ List.replicate 22 0
    ++ padWords 192 (reps.flatMap Replay.words)
    ++ (match th.vp with
        | some v => [wd v.vl, v.join] ++ v.vps.map Vp.word
        | none => [0, 0])

/-! ## Virtual processors parked for a trap (R35) -/

/-- The VP that stands in the thread's registers goes back into its copies, and the thread's own registers and acquire points return. -/
def Thread.parkVp (t : Thread) : Thread :=
  match t.vp with
  | none => t
  | some v =>
    match v.cur with
    | none => t
    | some i =>
      let vps := v.vps.modify i (fun x => { x with pc := t.pc, s := t.s, k := t.k, acqL1 := t.acqL1, acqRdc := t.acqRdc })
      { t with s := v.s, k := v.k, acqL1 := v.acqL1, acqRdc := v.acqRdc, vp := some { v with vps, cur := none } }

def State.parkVp (s : State) : State := { s with th := s.th.parkVp }

/-- The thread is in a VP phase. -/
def State.inVp (s : State) : Bool := s.th.vp.isSome

/-- The VP that is performing an instruction. -/
def State.vpIndex (s : State) : Option Nat :=
  match s.th.vp with
  | some v => v.cur
  | none => none

/-! ## Physical accesses of a thread -/

/-- A store of n bytes within one sector at physical address pa, by the thread in focus. -/
def State.writePa (s : State) (pa n v : Nat) : State :=
  match s.place pa with
  | .media _ => s.l1Write pa n v
  | .host off => { s with store := { s.store with host := s.store.host.writeN off n v } }
  | .peer j lin =>
    { s with store := { s.store with
        peer := assoc s.store.peer j.val (((look s.store.peer j.val).getD []).writeN lin n v) } }
  | .cfg off => (s.cfgStore (.level s.th.level.toNat) off n v).getD s
  | .none => s

/-- A load of n bytes within one sector at physical address pa, and whether its sector is poisoned. -/
def State.readPa (s : State) (kind : LoadKind) (pa n : Nat) : State × Nat × Bool :=
  match s.place pa with
  | .media _ => if kind = .home then s.l1ReadHome pa n else s.l1Read pa n
  | .host off => (s, s.store.host.readN off n, false)
  | .peer j lin => (s, ((look s.store.peer j.val).getD []).readN lin n, false)
  | .cfg off => (s, (s.cfgLoad s.th.level.toNat off n).getD 0, false)
  | .none => (s, 0, false)

/-- An access to pa raises no NOMEM (R239, R401, R405). -/
def State.present (s : State) (pa n : Nat) : Bool :=
  match s.place pa with
  | .cfg off => (s.cfgLoad s.th.level.toNat off n).isSome
  | .none => false
  | .media _ | .host _ | .peer _ _ => true

/-- Device configuration space, where atomics raise RESOP at any offset (R405). -/
def State.inCfg (s : State) (pa : Nat) : Bool :=
  match s.place pa with
  | .cfg _ => true
  | .none | .media _ | .host _ | .peer _ _ => false

/-- Words stored upward from a physical address. -/
def State.writeWords (s : State) (pa : Nat) : List Word → State
  | [] => s
  | w :: ws => (s.writePa pa 8 w.toNat).writeWords (pa + 8) ws

/-- A frame area can be written: it lies in device memory. -/
def State.frameOk (s : State) (pa n : Nat) : Bool :=
  match s.place pa, s.place (pa + n - 1) with
  | .media _, .media _ => true
  | _, _ => false

/-! ## Taking a trap (R373, R377) -/

/-- The thread's work in progress leaves it: the frame holds it now. The VP copies stay with the core until `tret`. -/
def Thread.enter (t : Thread) (pc : Word) : Thread :=
  { t with pc, convoy := none, issue := none, replay := [], rtn := none, vpHeld := t.vp.orElse (fun _ => t.vpHeld), vp := none,
           wait := .none, rwatch := none, qans := none, polling := none, atBar := t.atBar || t.wait == .tbar, recent := [], flight := [] }

/-- `mwait` entries of a thread leave the queue (R396). -/
def Mat.dropWaits (m : Mat) (slot : Fin 4) : Mat :=
  { m with queue := m.queue.filter (fun e => !(e.mop == mopMwait && e.slot == slot)) }

/-- A thread that traps while it waits at an `mwait` takes its entry out of the queue: the `mwait` runs again after `tret` (R374,
R396). -/
def State.leaveMwait (s : State) : State :=
  match s.th.wait with
  | .mwait => { s with core := { s.core with mat := s.core.mat.dropWaits s.slot } }
  | .none | .pause _ | .tbar | .saving | .queue _ _ | .stopped _ => s

/-- Whether the thread is stopped, and how (R378). -/
def Thread.stoppedBy (t : Thread) : Option (Option Bool) :=
  match t.wait with
  | .stopped any => some (some any)
  | .none | .pause _ | .tbar | .mwait | .saving | .queue _ _ => none

/-- A machine check with source `src` on the thread in focus, whose frame holds no address, element or matrix word (R369). It changes no
INTRAP. A stopped thread is stopped again after its handler (R378). On a thread at level 2, or with a frame that cannot be written, the
module is reset. During a start it stops the start (R408, R410). -/
def State.machineCheck (s : State) (src : Nat) (rpc : Word) : State :=
  let s0 := s.parkVp.leaveMwait
  let ws := frameWords s0.th (Cause.mcheck src) rpc
  let base := s0.core.sys.mcframe.toNat
  if s.boot.starting = true then { s with boot := s.boot.stop 6 }
  else if s0.th.level = 2 ∨ s0.frameOk base (8 * ws.length) = false then s.resetUncounted s.sameFacts
  else
    let s1 := s0.writeWords base ws
    { s1 with th := { (s1.th.enter s1.core.sys.mcvec) with level := 2, imask := true, mcStop := s0.th.stoppedBy } }

/-- The trap t is taken on the thread in focus, with RPC `rpc`: the frame is written, the level becomes 1, INTRAP and IMASK
are set, and the PC goes to `TVEC`. A trap inside a trap, or a frame that cannot be written, is a machine check. -/
def State.enterTrap (s : State) (t : Trap) (rpc : Word) : State :=
  let s0 := s.parkVp.leaveMwait
  let ws := frameWords s0.th t rpc
  let base := s0.th.tframe.toNat
  if s0.th.intrap = true ∨ s0.frameOk base (8 * ws.length) = false then s.machineCheck 1 rpc
  else
    let s1 := s0.writeWords base ws
    { s1 with th := { (s1.th.enter s1.core.sys.tvec) with level := 1, intrap := true, imask := true } }

/-- The instruction at the PC raises t and has had no effect: RPC addresses it (R372). In a VP phase FELEM names the VP
(R35). -/
def State.fault (s : State) (t : Trap) : State :=
  s.enterTrap (match s.vpIndex with | some i => { t with felem := wd i } | none => t) s.th.pc

/-- A vector slot raises t: it is the last entry of the replay queue, and RPC addresses the instruction after its convoy,
where the PC already stands (R372). -/
def State.slotFault (s : State) (t : Trap) : State := s.enterTrap t s.th.pc

/-! ## Locating an access -/

/-- Where an access goes: the scratchpad, or a physical address of a page with or without the record attribute. -/
inductive Target where
  | spad (off : Nat)
  | mem (pa : Nat) (rc : Bool)
deriving DecidableEq, Repr

/-- The checks of an access of n bytes at va but for alignment and watchpoints: scratchpad window, translation, presence
(R228, R239, R387–R390). -/
def State.locate (s : State) (va n : Nat) (need : Need) : State × Except Trap Target :=
  if inSpw va then
    if s.core.spadSize < va - spw + n then (s, .error (Cause.spadr (va - spw))) else (s, .ok (.spad (va - spw)))
  else
    let (s1, x) := s.translate va need
    match x with
    | .bad sub fpa => (s1, .error (Cause.xlate sub va fpa))
    | .ok pa rc =>
      if s1.present pa n || (need == .atomic && s1.inCfg pa) then (s1, .ok (.mem pa rc))
      else (s1, .error (Cause.nomem va pa))

/-- The lowest core watchpoint that an access matches (R385, R386). -/
def Core.watchHit (c : Core) (va n : Nat) (r w : Bool) : Option Nat :=
  [0, 1].find? (fun i =>
    let x := rd c.watch (Fin.ofNat 2 i)
    ((r && x.rd) || (w && x.wr)) && decide (va < x.addr.toNat + 2 ^ x.len) && decide (x.addr.toNat < va + n))

/-- The instruction being executed is the one that `RWATCH` is for (R376). -/
def Thread.rwatchNow (t : Thread) : Bool :=
  match t.issue with
  | some i => t.rwatch == some i.hdr
  | none => t.replay.isEmpty && t.rwatch == some t.pc

/-- Watchpoints of an access: RWATCH lets the first match pass (R376). -/
def State.watchAt (s : State) (va n : Nat) (r w : Bool) : State × Except Trap Unit :=
  match s.core.watchHit va n r w with
  | none => (s, .ok ())
  | some i =>
    if s.th.rwatchNow then ({ s with th := { s.th with rwatch := none } }, .ok ()) else (s, .error (Cause.watch i va))

/-- The place of an access after the checks that precede watchpoints: alignment to `al`, location. -/
def State.reachUnwatched (s : State) (va n al : Nat) (need : Need) : State × Except Trap Target :=
  if va % al ≠ 0 then (s, .error (Cause.dalign va)) else s.locate va n need

/-- The place of an access after all checks that precede it. -/
def State.reach (s : State) (va n al : Nat) (need : Need) : State × Except Trap Target :=
  let (s1, x) := s.reachUnwatched va n al need
  match x with
  | .error t => (s1, .error t)
  | .ok tg =>
    let (s2, y) := s1.watchAt va n (need = .read || need = .atomic) (need = .write || need = .atomic)
    match y with
    | .error t => (s2, .error t)
    | .ok () => (s2, .ok tg)

/-- n bytes read at a place, with the address of the poisoned sector if there is one. -/
def State.readAt (s : State) (kind : LoadKind) (tg : Target) (n : Nat) : State × Nat × Option Nat :=
  match tg with
  | .spad off => (s, s.core.spad.readN off n, none)
  | .mem pa _ =>
    let (s1, v, p) := s.readPa kind pa n
    (s1, v, if p then some pa else none)

/-- n bytes written at a place. -/
def State.writeAt (s : State) (tg : Target) (n v : Nat) : State :=
  match tg with
  | .spad off => { s with core := { s.core with spad := s.core.spad.writeN off n v } }
  | .mem pa _ => s.writePa pa n v

/-- The drops of a `.last` load at a place (R261): the scratchpad and uncached windows are not affected. -/
def State.dropAt (s : State) (tg : Target) : State :=
  match tg with
  | .spad _ => s
  | .mem pa _ =>
    match s.place pa with
    | .media _ => s.dropLast (pa / 128)
    | .host _ | .peer _ _ | .cfg _ | .none => s

/-- The place of an access that core watchpoints watch or, for an element that a replay entry exempts, do not (R371). -/
def State.reachWith (s : State) (watched : Bool) (va n al : Nat) (need : Need) : State × Except Trap Target :=
  if watched then s.reach va n al need else s.reachUnwatched va n al need

/-- A load of n bytes, aligned to its size, by the thread in focus. -/
def State.loadWith (s : State) (watched : Bool) (kind : LoadKind) (va n : Nat) : State × Except Trap Nat :=
  let (s1, x) := s.reachWith watched va n n .read
  match x with
  | .error t => (s1, .error t)
  | .ok tg =>
    let (s2, v, p) := s1.readAt kind tg n
    match p with
    | some pa => (s2, .error (Cause.poison va pa))
    | none => (if kind = .last then s2.dropAt tg else s2, .ok v)

def State.load (s : State) (kind : LoadKind) (va n : Nat) : State × Except Trap Nat := s.loadWith true kind va n

/-- The end of a spin mark (R63). -/
def State.unspin (s : State) : State := { s with th := { s.th with spin := 0 } }

/-- A store of n bytes, aligned to its size, by the thread in focus. It ends a spin mark (R63). -/
def State.store1 (s : State) (va n v : Nat) : State × Except Trap Unit :=
  let (s1, x) := s.reach va n n .write
  match x with
  | .error t => (s1, .error t)
  | .ok tg => ((s1.writeAt tg n v).unspin, .ok ())

/-- Loads of words upward from va, each translated. -/
def State.loadWords (s : State) (va : Nat) : Nat → State × Except Trap (List Word)
  | 0 => (s, .ok [])
  | n + 1 =>
    let (s1, x) := s.load .plain va 8
    match x with
    | .error t => (s1, .error t)
    | .ok v =>
      let (s2, y) := s1.loadWords (va + 8) n
      match y with
      | .error t => (s2, .error t)
      | .ok vs => (s2, .ok (wd v :: vs))

/-! ## Shapes of a meaning -/

/-- The thread in focus is the one that has taken MFAULT for the entry held at the head of the queue. -/
def State.ownsHeld (s : State) : Bool :=
  match s.core.mat.held, s.core.mat.queue.head? with
  | some h, some e => !h.untaken && e.slot == s.slot
  | _, _ => false

/-- The core's matrix queue holds instructions whose effects come before those of the thread's next instruction (R188). The handler that has
taken a deferred fault does not wait for the entry, which only its `tret` resumes (R189). -/
def State.matBusy (s : State) : Bool := !s.core.mat.queue.isEmpty && !s.ownsHeld

/-- The core's matrix queue holds an entry: an access to `MSTATE`, a `TSHAPE`, `ORFLT0`, `ORFLT1` or `ORPROBE` waits, in a handler as
elsewhere (R188, R222). -/
def State.queueHeld (s : State) : Bool := !s.core.mat.queue.isEmpty

/-- A request that changes the register granules reads `MSTATE`, and first waits for every entry of the core's matrix queue (R188, R230). -/
def State.carveHeld (s : State) (w : Word) : Bool := splitRegs w != splitRegs s.core.split && s.queueHeld

/-- An instruction that is not VP-safe raises ILLEGAL in a fetched block (R35). -/
def State.notVp (s : State) (body : State) : State := if s.inVp then s.fault Cause.illegal else body

/-- A privileged instruction raises PRIV below its level (R61). -/
def State.atLevel (s : State) (n : Nat) (body : State) : State :=
  if s.th.level.toNat < n then s.fault Cause.priv else body

end Sys2Proof.Machine
end

