-- ==== Sys2Proof/Machine/Lift.lean ====
section
/-! DEFINITION. The Lift's records: the context table, task and group records, dispatch, faulted records, counters, and what an
atomic at home brings about (02 R26–R29; 14 R319–R327, R331–R332, R338–R339, R350; 16 R414). -/

namespace Sys2Proof.Machine

/-! ## The context table (R338) -/

/-- A usable entry of the context table. -/
structure CtxEntry where
  ptroot : Word
  lease : Word
  orbase : Word
  orcnt : Word
  tvec : Word
  tfbase : Nat
  fstride : Nat
  fqueue : Word
  liftw : Nat
deriving DecidableEq, Repr

/-- Context c's entry, none where it is not valid or not well formed: what its home holds once the line has been recalled. -/
def State.ctxUsable (s : State) (c : Nat) : Option CtxEntry :=
  match s.ctxEntry c 0, s.ctxEntry c 127 with
  | some lin, some _ =>
    let x := (State.devBytesN 4 (s.recall (lin / 128) none) lin 128).1
    let q := fun o => getB x o 8
    if q 0 ≠ 1 || q 0x30 % 4096 != 0 || q 0x30 / 2 ^ 52 != 0 || getB x 0x38 4 == 0 || decide (65535 < getB x 0x38 4) ||
        getB x 0x3C 4 != 0 || getB x 0x50 48 != 0 || decide (q 0x10 % 2 ^ 13 < 256) || decide (4096 < q 0x10 % 2 ^ 13) ||
        decide (4096 < q 0x20 % 2 ^ 13) || q 0x48 % 32 == 0 || decide (16 < q 0x48 % 32) then none
    else some
      { ptroot := wd (q 8), lease := wd (q 0x10), orbase := wd (q 0x18), orcnt := wd (q 0x20), tvec := wd (q 0x28),
        tfbase := q 0x30, fstride := getB x 0x38 4, fqueue := keep (wd (q 0x40)) 55 7, liftw := q 0x48 % 32 }
  | _, _ => none

/-- The rights of an access that the device makes for a context (R414). -/
def CtxEntry.rights (e : CtxEntry) (ctx level : Nat) : Rights := { ctx, root := (keep e.ptroot 51 20).toNat, level }

/-- The frame area of the thread in slot j of core n, as `TFRAME` holds it: the bits that it reserves read as zero (R10, R338, R368). -/
def CtxEntry.frameArea (e : CtxEntry) (n j : Nat) : Word := keep (wd (e.tfbase + (4 * n + j) * e.fstride * 4096)) 51 12

/-- The rights of the copies and successors of a task: level 0 under the tables that it was placed with (R338, R414). -/
def LTask.rights (t : LTask) : Rights := { ctx := t.ctx, root := t.root.toNat, level := 0 }

/-- Context c's entry is read at its home (R297, R386). -/
def State.readCtx (s : State) (c : Nat) : State :=
  match s.ctxEntry c 0 with
  | some lin => s.readLine (lin / 128)
  | none => s

/-- A translation in a context through its table entry, which the device reads with it. -/
def State.ctxXlate (s : State) (ctx va : Nat) (need : Need) (level : Nat) : State × Xlated :=
  let s1 := s.readCtx ctx
  match s.ctxUsable ctx with
  | none => (s1, .bad 6 0)
  | some e => s1.xlateAs va need (e.rights ctx level)

/-- m bytes within one sector that the Lift reads at a physical address, none where they cannot be read. -/
def State.liftRead (s : State) (pa m level : Nat) : State × Option Nat :=
  match s.place pa with
  | .media lin => let t := s.homeRead lin m; (t, if t.homePoison lin then none else some (t.homeBytes lin m))
  | .host off => (s, some (s.store.host.readN off m))
  | .peer j lin => (s, some (((look s.store.peer j.val).getD []).readN lin m))
  | .cfg off => (s, s.cfgLoad level off m)
  | .none => (s, none)

/-- n bytes of virtual memory that the Lift reads with some rights, by sectors; `fuel` bounds their number. -/
def State.bytesAs (r : Rights) : Nat → State → Nat → Nat → State × Option Nat
  | 0, s, _, n => (s, if n = 0 then some 0 else none)
  | fuel + 1, s, va, n =>
    if n = 0 then (s, some 0)
    else
      let m := min n (32 - va % 32)
      let (s1, x) := s.xlateAs (va % 2 ^ 64) .read r
      match x with
      | .bad _ _ => (s1, none)
      | .ok pa _ =>
        let (s2, v) := s1.liftRead pa m r.level
        match v with
        | none => (s2, none)
        | some v =>
          let (s3, y) := State.bytesAs r fuel s2 (va + m) (n - m)
          (s3, y.map (fun w => v + 256 ^ m * w))

/-! ## Task records (R319, R320) -/

/-- Width in bits of a type code, none for a reserved one. -/
def tyBits (code : Nat) : Option Nat := (ETy.ofCode code).map ETy.bits

def TileD.rowBytes (t : TileD) : Nat := t.cols * ((tyBits t.ty).getD 8) / 8

/-- The tile descriptor of 32 bytes, none where it is malformed under a scratchpad of `spad` bytes. -/
def parseTile (x : Blob) (spad : Nat) : Option TileD :=
  let t : TileD := { addr := wd (getB x 0 8), stride := getB x 8 4, spad := getB x 12 4, rows := getB x 16 4,
                     cols := getB x 20 4, ty := getB x 24 1 }
  match tyBits t.ty with
  | none => none
  | some bits =>
    if getB x 25 7 != 0 || t.rows == 0 || t.cols == 0 || (bits == 4 && t.cols % 2 == 1) ||
        (decide (1 < t.rows) && decide (t.stride < t.rowBytes)) || decide (spad < t.spad + t.rows * t.rowBytes) then none
    else some t

def parseTiles (x : Blob) (at_ spad : Nat) : Nat → Option (List TileD)
  | 0 => some []
  | n + 1 =>
    match parseTile (getB x at_ 32) spad, parseTiles x (at_ + 32) spad n with
    | some t, some ts => some (t :: ts)
    | _, _ => none

/-- A task with nothing in it, at a record of a context. -/
def LTask.blank (rec_ ctx : Nat) : LTask :=
  { id := 0, rec_, own := true, ctx, entry := 0, arg := 0, team := 1, absorb := false, dies := 255, prio := 0, lanes := 0,
    pos := 0, carve := 0, succ := 0, succs := some [], ins := [], outs := [], idx := (0, 0, 0), phase := .pending, since := 0,
    seg := 0, core := 0, image := none, mn := 0, vn := 0, portv := true, cause := 0, leaving := 0, extra := 0, tried := 0,
    aged := 0, held := [], root := 0 }

/-- The control word has a bit set that R319 reserves. -/
def ctlReserved (c : Nat) : Bool :=
  getBits c 40 24 != 0 || getBits c 26 9 != 0 || getBits c 12 4 != 0 || getBits c 5 3 != 0 || bit c 3

/-- The task of a 256-byte record, none where the record is malformed. -/
def parseTask (x : Blob) (rec_ ctx : Nat) : Option LTask :=
  let c := getB x 0x28 8
  let carve := wd (getB x 0x30 4)
  let spad := splitSpad carve * 8192
  if getB x 0x16 2 != 0 || getB x 0x34 4 != 0 || getB x 0x1F 1 != 0 || ctlReserved c || getB x 0 1 % 4 != 0 ||
      c % 8 == 0 || decide (4 < c % 8) || getBits c 16 8 == 0 || getBits c 8 2 == 3 || getBits c 10 2 == 3 ||
      decide (4 < getBits c 35 3) || decide (2 < getBits c 38 2) || splitMalformed carve then none
  else
    match parseTiles x 0x40 spad (getBits c 35 3), parseTiles x 0xC0 spad (getBits c 38 2) with
    | some ins, some outs =>
      some { LTask.blank rec_ ctx with
        entry := wd (getB x 0 8), arg := wd (getB x 8 8), team := c % 8, absorb := bit c 4, dies := BitVec.ofNat 8 (c / 2 ^ 16),
        prio := getBits c 24 2, lanes := getBits c 8 2, pos := getBits c 10 2, carve, succ := wd (getB x 0x38 8), ins, outs }
    | _, _ => none

/-- The 256 bytes of a record at its home. -/
def State.recBytes (s : State) (rec_ : Nat) : Blob := (State.devBytesN 8 s rec_ 256).1

/-- The two lines of a record are read at their home by the Lift, whose requests recall them (R297, R386). -/
def State.readRec (s : State) (rec_ : Nat) : State := (s.readLine (rec_ / 128)).readLine (rec_ / 128 + 1)

/-- The byte at offset `off` of a record. -/
def State.recByte (s : State) (rec_ off : Nat) : Nat := s.homeBytes (rec_ + off) 1

/-! ## Successor lists as read at dispatch (R325) -/

/-- n entries of 16 bytes from va up, an entry none where it cannot be read. -/
def State.readEntries (r : Rights) : Nat → State → Nat → State × List (Option (Word × Word))
  | 0, s, _ => (s, [])
  | n + 1, s, va =>
    let (s1, x) := State.bytesAs r 3 s va 16
    let (s2, xs) := State.readEntries r n s1 (va + 16)
    (s2, x.map (fun w => (wd w, wd (w / 2 ^ 64))) :: xs)

/-- The successor list, none where no entry of it can be applied. -/
def State.readSuccs (s : State) (ctx : Nat) (succ : Word) : State × Option (List (Option (Word × Word))) :=
  if succ = 0 then (s, some [])
  else
    let s1 := s.readCtx ctx
    match s.ctxUsable ctx with
    | none => (s1, none)
    | some e =>
      let (s2, h) := State.bytesAs (e.rights ctx 0) 3 s1 succ.toNat 8
      match h with
      | none => (s2, none)
      | some h =>
        if 255 < h then (s2, none)
        else
          let (s3, es) := State.readEntries (e.rights ctx 0) h s2 (succ.toNat + 8)
          (s3, some es)

/-! ## Lists of tasks -/

def State.setFab (s : State) (f : Fabric) : State := { s with fab := f }

def State.taskById (s : State) (id : Nat) : Option LTask := s.fab.tasks.find? (fun t => t.id == id)

/-- A task put at the end of the Lift's list with a fresh number. -/
def State.addTask (s : State) (t : LTask) : State :=
  s.setFab { s.fab with tasks := s.fab.tasks ++ [{ t with id := s.fab.nextId }], nextId := s.fab.nextId + 1 }

def State.putTask (s : State) (t : LTask) : State :=
  s.setFab { s.fab with tasks := s.fab.tasks.map (fun x => if x.id == t.id then t else x) }

def State.dropTask (s : State) (id : Nat) : State :=
  s.setFab { s.fab with tasks := s.fab.tasks.filter (fun x => x.id != id) }

/-- STATE written by the Lift as a plain store at the record's home; an instance without a record has none (R323, R332). -/
def State.putRecState (s : State) (t : LTask) (state : Nat) : State :=
  if t.own then s.homeWrite (t.rec_ + 0x14) 1 state false else s

/-- STATE and CAUSE. -/
def State.putRecCause (s : State) (t : LTask) (state cause : Nat) : State :=
  if t.own then s.homeWrite (t.rec_ + 0x14) 2 (state + 256 * cause) false else s

/-- The record goes to FAULTED (R326): its entry waits for the fault queue, but for cause NOCTX, which pushes none (R339). -/
def State.faultTask (s : State) (t : LTask) (cause leaving extra : Nat) : State :=
  let s1 := (s.putRecCause t 6 cause).dropTask t.id
  if cause = 9 then s1 else s1.addTask { t with phase := .faulted, cause, leaving, extra, tried := 0, held := [] }

/-! ## Dispatch (R323, R327) -/

/-- A task enters the Lift: PENDING while PEND is not 0, else READY. -/
def State.enterLift (s : State) (t : LTask) (pend : Nat) : State :=
  let r := s.readSuccs t.ctx t.succ
  let t1 := { t with succs := r.2 }
  if pend % 2 ^ 56 ≠ 0 then (r.1.putRecCause t1 1 0).addTask { t1 with phase := .pending }
  else (r.1.putRecCause t1 2 0).addTask (t1.enterReady s.time)

/-- The indices of an instance record, which it keeps until it is dispatched (R332). -/
def State.takeIndex (s : State) (rec_ : Nat) : State × (Nat × Nat × Nat) :=
  match s.fab.insts.find? (fun p => p.1 == rec_) with
  | some p => (s.setFab { s.fab with insts := s.fab.insts.filter (fun p => p.1 != rec_) }, p.2)
  | none => (s, (0, 0, 0))

/-! ## Groups (R331, R332) -/

/-- A group as its record and template give it, none where it is malformed. The Lift reads the template. -/
def State.parseGroup (s : State) (x : Blob) (rec_ ctx : Nat) : State × Option LGroup :=
  let n0 := getB x 0x18 2
  let n1 := getB x 0x1A 2
  let n2 := getB x 0x1C 2
  let order := getB x 0x1E 1
  let w := getB x 0x1F 1
  let dies := getB x 0x20 1
  if getB x 0x16 1 != 1 || getB x 0x17 1 != 0 || getB x 0x21 7 != 0 || getB x 0x30 208 != 0 || n0 == 0 || n1 == 0 || n2 == 0 ||
      decide (2 ^ 24 < n0 * n1 * n2) || decide (3 < order) || w == 0 || decide (64 < w) || (decide (2 ≤ order) && w != 1) then
    (s, none)
  else
    let (s1, p) := s.ctxXlate ctx (getB x 0 8) .read 0
    match p with
    | .bad _ _ => (s1, none)
    | .ok pa _ =>
      match s1.place pa with
      | .media lin =>
        if lin % 256 ≠ 0 then (s1, none)
        else
          let s2 := s1.readRec lin
          (s2, (parseTask (s2.recBytes lin) lin ctx).map (fun t =>
            { id := 0, rec_, ctx, tmpl := { t with dies := if dies = 0 then t.dies else BitVec.ofNat 8 dies }
              inst := wd (getB x 8 8), n0, n1, n2, order, w, at_ := 0, issued := 0 }))
      | .host _ | .peer _ _ | .cfg _ | .none => (s1, none)

/-- The home of instance l's record, none where its address is not in a record page of the group's context. -/
def State.instHome (s : State) (g : LGroup) (l : Nat) : State × Option Nat :=
  let (s1, p) := s.ctxXlate g.ctx (g.inst.toNat + 256 * l) .write 0
  match p with
  | .bad _ _ => (s1, none)
  | .ok pa rc =>
    match s1.place pa with
    | .media lin => let r := s1.checkRecord pa rc g.ctx; (r.1, if r.2 then some lin else none)
    | .host _ | .peer _ _ | .cfg _ | .none => (s1, none)

/-- The template as an instance's record: STATE 0, the group's die mask (R332). -/
def LGroup.image (g : LGroup) (x : Blob) : Blob := putB (putB x 0x14 1 0) 0x2A 1 g.tmpl.dies.toNat

/-- Instance records written from index l up, n of them; false when one could not be. -/
def State.writeInsts (s : State) (g : LGroup) (x : Blob) (l : Nat) : Nat → State × Bool
  | 0 => (s, true)
  | n + 1 =>
    let (s0, p) := s.instHome g l
    match p with
    | none => (s0, false)
    | some lin =>
      let s1 := State.devWriteN 8 s0 lin 256 (g.image x)
      let at_ := (lin, l % g.n0, l / g.n0 % g.n1, l / (g.n0 * g.n1))
      (s1.setFab { s1.fab with insts := s1.fab.insts.filter (fun p => p.1 != lin) ++ [at_] }).writeInsts g x (l + 1) n

/-- The start of a group at its record, which the Lift has read: the state after it, and whether the group was malformed (R331,
R332). A group that a later check refuses goes to STATE 6 and to the fault queue. -/
def State.startGroup (s : State) (rec_ ctx : Nat) : State × Bool :=
  let (s0, y) := s.parseGroup (s.recBytes rec_) rec_ ctx
  match y with
  | none => (s0, true)
  | some g =>
    let began := fun (t : State) =>
      let t1 := (t.homeWrite (rec_ + 0x28) 8 0 false).homeWrite (rec_ + 0x14) 2 2 false
      t1.setFab { t1.fab with groups := t1.fab.groups ++ [{ g with id := t1.fab.nextId }], nextId := t1.fab.nextId + 1 }
    if g.inst = 0 then (began s0, false)
    else if g.inst.toNat % 256 ≠ 0 then (s0, true)
    else
      let (s1, first) := s0.instHome g 0
      if first.isNone then (s1, true)
      else
        let r := s1.writeInsts g (s1.recBytes g.tmpl.rec_) 0 (g.n0 * g.n1 * g.n2)
        if r.2 then (began r.1, false)
        else (r.1.faultTask (LTask.blank rec_ ctx) 4 (s.recByte rec_ 0x14) 0, false)

/-- The Lift takes the record whose DEPS word an atomic has left at 0. -/
def State.dispatch (s0 : State) (rec_ : Nat) : State :=
  let s1 := s0.readMap rec_
  match s1.recContext rec_ with
  | none => s1
  | some ctx =>
    let s := s1.readRec rec_
    let x := s.recBytes rec_
    let held := getB x 0x14 1
    if held ≠ 0 ∧ held ≠ 8 then s
    else if getB x 0x16 1 = 1 then
      let r := s.startGroup rec_ ctx
      if r.2 then s.faultTask (LTask.blank rec_ ctx) 4 held 0 else r.1
    else
      match parseTask x rec_ ctx with
      | none => s.faultTask (LTask.blank rec_ ctx) 4 held 0
      | some t =>
        let r := s.takeIndex rec_
        r.1.enterLift { t with idx := r.2 } (getB x 0x18 8)

/-! ## Atomics at home (R297, R298) -/

/-- The line was the object of another core's atomic within the last 256 NCLK cycles; this one is noted. -/
def State.noteAtomic (s : State) (line : Nat) (core : Option Nat) : State × Bool :=
  let recent := s.store.atomLog.filter (fun a => decide (s.time < a.2.2 + 256 * nclk))
  let contended := recent.any (fun a => a.1 == line && some a.2.1 != core)
  match core with
  | some n => ({ s with store := { s.store with atomLog := (line, n, s.time) :: recent } }, contended)
  | none => ({ s with store := { s.store with atomLog := recent } }, contended)

/-- An atomic performed at the home slice on n bytes: the new value by `f` of the old one, none for no write. -/
def State.homeUpdate (s : State) (lin n : Nat) (f : Nat → Option Nat) : State × Nat :=
  let s1 := s.recall (lin / 128) none
  let old := getB (s1.store.sector (lin / 32)).1 (lin % 32) n
  match f old with
  | none => (s1.noteHome (lin / 32) (maskB (lin % 32) n) true false, old)
  | some v => (s1.mergeHome (lin / 32) (v % 256 ^ n * 256 ^ (lin % 32)) (maskB (lin % 32) n) false false true, old)

/-! ## Posting, counters, firing (R324, R342) -/

/-- The record's DEPS is decremented far; at 0 it is dispatched. -/
def State.postRecord (s : State) (rec_ : Nat) : State × Nat :=
  let r := s.homeUpdate (rec_ + 0x10) 4 (fun x => some ((x + 2 ^ 32 - 1) % 2 ^ 32))
  (if r.2 = 1 then r.1.dispatch rec_ else r.1, r.2)

/-- The same for core n, as a far atomic of it (R342): whether its reply is marked contended comes along (R298). -/
def State.postBy (s : State) (rec_ n : Nat) : State × Nat × Bool :=
  let (s1, contended) := s.noteAtomic (rec_ / 128) (some n)
  let (s2, old) := s1.postRecord rec_
  (s2, old, contended)

/-- The mark of an armed counter object at a linear address. -/
def State.armed (s : State) (lin : Nat) : Option Nat := look s.store.marks lin

/-- The mark and the ARM word of a counter object cleared, as a firing and R350 do. -/
def State.disarm (s : State) (lin : Nat) : State :=
  let s1 := s.homeWrite (lin + 16) 8 0 false
  { s1 with store := { s1.store with marks := unset s1.store.marks lin } }

/-- An armed counter object whose VALUE is 0 posts its record. -/
def State.fireAt (s : State) (lin : Nat) : State :=
  match s.armed lin with
  | none => s
  | some r => if s.homeBytes lin 7 = 0 then ((s.disarm lin).postRecord r).1 else s

/-- A decrement of the counter at lin by n (R324): not performed, and false, on a poisoned sector. -/
def State.decrement (s0 : State) (lin n : Nat) : State × Bool :=
  let s := s0.recall (lin / 128) none
  if s.homePoison lin then (s, false)
  else
    let v := s.homeBytes lin 7
    let s1 := s.homeWrite lin 7 (v - n) false
    let s2 := if v < n then s1.homeWrite (lin + 8) 8 (Nat.lor (s1.homeBytes (lin + 8) 8) (2 ^ 62)) false else s1
    (s2.fireAt lin, true)

/-- What an atomic at lin brings about at its home: the dispatch of a record whose DEPS word it touched and left at
0, the firing of an armed object whose VALUE it touched (R324, R327). -/
def State.afterAtomic (s : State) (lin : Nat) : State :=
  if s.isDeps lin then (if s.homeBytes (lin / 256 * 256 + 0x10) 4 = 0 then s.dispatch (lin / 256 * 256) else s)
  else if lin % 32 < 8 then s.fireAt (lin / 32 * 32)
  else s

end Sys2Proof.Machine
end

