-- ==== Sys2Proof/Machine/Flags.lean ====
section
/-! DEFINITION. Conditions, comparisons and the sticky floating flags (05 R104; 06 R141, R148–R150; 07 R161–R165). -/

namespace Sys2Proof.Machine

/-- The condition of `cmp` and `cmpi` (R141). -/
def condHolds (c : Cond) (a b : Word) : Bool :=
  match c with
  | .eq => a == b
  | .ne => a != b
  | .lt => a.slt b
  | .ge => !a.slt b
  | .ltn => a.ult b
  | .gen => !a.ult b

/-- All ones when the condition holds, else 0 (R141). -/
def condMask (b : Bool) : Word := if b then BitVec.allOnes 64 else 0

/-- The relation of `vcmp` on two elements of an integer type (R161, R162). -/
def vrelHolds (r : VRel) (a b : Int) : Bool :=
  match r with
  | .eq => a == b
  | .ne => a != b
  | .lt => a < b
  | .le => a ≤ b
  | .gt => b < a
  | .ge => b ≤ a

/-- Exact results of the rounding operations of R148 and R163. -/
inductive FOp where
  | add | sub | mul | div | sqrt
deriving DecidableEq, Repr

/-- A floating operation on two codes, exactly, then rounded once, with its flags (R102–R110, R148). -/
def FOp.eval (op : FOp) (f : Fmt) (m : Rm) (rnd a b : Nat) : Rounded :=
  let x := f.decode a
  let y := f.decode b
  let rdn := m = .rdn
  roundExact f m false rnd (match op with
    | .add => Val.add rdn x y
    | .sub => Val.add rdn x y.neg
    | .mul => Val.mul x y
    | .div => Val.div f.quotBits x y
    | .sqrt => Val.sqrt f.quotBits x)

/-- The fused forms (R163): signs of the product and of c. -/
def fusedEval (f : Fmt) (m : Rm) (negMul negC : Bool) (rnd a b c : Nat) : Rounded :=
  let x := f.decode a
  let x' := if negMul then x.neg else x
  let z := f.decode c
  roundExact f m false rnd (Val.fma (m = .rdn) x' (f.decode b) (if negC then z.neg else z))

/-- The sign instructions (R164): the canonical NaN for a NaN, else the magnitude of a under the sign that `g` gives. -/
def signEval (f : Fmt) (g : Bool → Bool → Bool) (a b : Nat) : Nat :=
  if f.isNan a then f.nan
  else a % 2 ^ (f.width - 1) + (if g (bit a (f.width - 1)) (bit b (f.width - 1)) then 2 ^ (f.width - 1) else 0)

end Sys2Proof.Machine
end

