-- ==== Sys2Proof/Machine/Scalar.lean ====
section
/-! DEFINITION. Scalar integer, bit, immediate, predicate, branch and jump instructions, and hints (06 R136–R144; 03 R63). -/

namespace Sys2Proof.Machine

/-! ## Values -/

/-- Signed quotient, truncated toward zero; all ones for a divisor of 0 (R137). -/
def divS (a b : Word) : Word := if b = 0 then BitVec.allOnes 64 else a.sdiv b

/-- Unsigned quotient (R137). -/
def divU (a b : Word) : Word := if b = 0 then BitVec.allOnes 64 else a.udiv b

/-- Signed remainder with the sign of a; a for a divisor of 0 (R137). -/
def remS (a b : Word) : Word := if b = 0 then a else a.srem b

/-- Unsigned remainder (R137). -/
def remU (a b : Word) : Word := if b = 0 then a else a.umod b

/-- High half of the signed product (R137). -/
def mulHighS (a b : Word) : Word := BitVec.ofInt 64 (a.toInt * b.toInt / 2 ^ 64)

/-- High half of the unsigned product (R137). -/
def mulHighU (a b : Word) : Word := wd (a.toNat * b.toNat / 2 ^ 64)

/-- Number of leading zero bits of the low n bits of x (R138). -/
def leading : Nat → Nat → Nat
  | 0, _ => 0
  | n + 1, x => if bit x n then 0 else 1 + leading n x

/-- Number of trailing zero bits of n bits (R138). -/
def trailing : Nat → Nat → Nat
  | 0, _ => 0
  | n + 1, x => if x % 2 = 1 then 0 else 1 + trailing n (x / 2)

/-- Number of one bits of the low n bits (R138). -/
def ones : Nat → Nat → Nat
  | 0, _ => 0
  | n + 1, x => x % 2 + ones n (x / 2)

/-- The low n bits in reverse order (R138). -/
def reverse : Nat → Nat → Nat
  | 0, _ => 0
  | n + 1, x => x % 2 * 2 ^ n + reverse n (x / 2)

/-- The bits of a at the positions where b is 1, packed from bit 0 (R138). -/
def extractBits : Nat → Nat → Nat → Nat
  | 0, _, _ => 0
  | n + 1, a, b =>
    if b % 2 = 1 then a % 2 + 2 * extractBits n (a / 2) (b / 2) else extractBits n (a / 2) (b / 2)

/-- The low bits of a placed, lowest first, at the positions where b is 1 (R138). -/
def depositBits : Nat → Nat → Nat → Nat
  | 0, _, _ => 0
  | n + 1, a, b =>
    if b % 2 = 1 then a % 2 + 2 * depositBits n (a / 2) (b / 2) else 2 * depositBits n a (b / 2)

/-- The shift count of a word: its bits [5:0] (R136). -/
def count6 (b : Word) : Nat := b.toNat % 64

/-! ## Shapes -/

/-- An instruction that writes one `s` register and moves on. -/
def State.result (s : State) (d : Reg) (v : Word) : State := (s.setS d v).advance 4

/-- An instruction that writes one `k` register and moves on. -/
def State.resultK (s : State) (d : KReg) (v : Word) : State := (s.setK d v).advance 4

/-! ## Integer operations (R136) -/

def execAdd (d a b : Reg) (s : State) : Out := .next (s.result d (s.getS a + s.getS b))
def execSub (d a b : Reg) (s : State) : Out := .next (s.result d (s.getS a - s.getS b))
def execAnd (d a b : Reg) (s : State) : Out := .next (s.result d (s.getS a &&& s.getS b))
def execOr (d a b : Reg) (s : State) : Out := .next (s.result d (s.getS a ||| s.getS b))
def execXor (d a b : Reg) (s : State) : Out := .next (s.result d (s.getS a ^^^ s.getS b))
def execSll (d a b : Reg) (s : State) : Out := .next (s.result d (s.getS a <<< count6 (s.getS b)))
def execSrl (d a b : Reg) (s : State) : Out := .next (s.result d (s.getS a >>> count6 (s.getS b)))
def execSra (d a b : Reg) (s : State) : Out := .next (s.result d ((s.getS a).sshiftRight (count6 (s.getS b))))
def execSlt (d a b : Reg) (s : State) : Out := .next (s.result d (if (s.getS a).slt (s.getS b) then 1 else 0))
def execSltn (d a b : Reg) (s : State) : Out := .next (s.result d (if (s.getS a).ult (s.getS b) then 1 else 0))

/-! ## Multiply and divide (R137) -/

def execMul (d a b : Reg) (s : State) : Out := .next (s.result d (s.getS a * s.getS b))
def execMulh (d a b : Reg) (s : State) : Out := .next (s.result d (mulHighS (s.getS a) (s.getS b)))
def execMulhn (d a b : Reg) (s : State) : Out := .next (s.result d (mulHighU (s.getS a) (s.getS b)))
def execDiv (d a b : Reg) (s : State) : Out := .next (s.result d (divS (s.getS a) (s.getS b)))
def execDivn (d a b : Reg) (s : State) : Out := .next (s.result d (divU (s.getS a) (s.getS b)))
def execRem (d a b : Reg) (s : State) : Out := .next (s.result d (remS (s.getS a) (s.getS b)))
def execRemn (d a b : Reg) (s : State) : Out := .next (s.result d (remU (s.getS a) (s.getS b)))

/-! ## Bit operations (R138) -/

def execClz (d a : Reg) (s : State) : Out := .next (s.result d (wd (leading 64 (s.getS a).toNat)))
def execCtz (d a : Reg) (s : State) : Out := .next (s.result d (wd (trailing 64 (s.getS a).toNat)))
def execPopc (d a : Reg) (s : State) : Out := .next (s.result d (wd (ones 64 (s.getS a).toNat)))
def execRev (d a : Reg) (s : State) : Out := .next (s.result d (wd (reverse 64 (s.getS a).toNat)))
def execBext (d a b : Reg) (s : State) : Out :=
  .next (s.result d (wd (extractBits 64 (s.getS a).toNat (s.getS b).toNat)))
def execBdep (d a b : Reg) (s : State) : Out :=
  .next (s.result d (wd (depositBits 64 (s.getS a).toNat (s.getS b).toNat)))
def execRotl (d a b : Reg) (s : State) : Out := .next (s.result d ((s.getS a).rotateLeft (count6 (s.getS b))))
def execRotr (d a b : Reg) (s : State) : Out := .next (s.result d ((s.getS a).rotateRight (count6 (s.getS b))))

/-! ## Immediates (R139, R140) -/

def execAddi (d a : Reg) (imm : BitVec 12) (s : State) : Out := .next (s.result d (s.getS a + sext imm))
def execAndi (d a : Reg) (imm : BitVec 12) (s : State) : Out := .next (s.result d (s.getS a &&& sext imm))
def execOri (d a : Reg) (imm : BitVec 12) (s : State) : Out := .next (s.result d (s.getS a ||| sext imm))
def execXori (d a : Reg) (imm : BitVec 12) (s : State) : Out := .next (s.result d (s.getS a ^^^ sext imm))
def execSlli (d a : Reg) (sh : BitVec 6) (s : State) : Out := .next (s.result d (s.getS a <<< sh.toNat))
def execSrli (d a : Reg) (sh : BitVec 6) (s : State) : Out := .next (s.result d (s.getS a >>> sh.toNat))
def execSrai (d a : Reg) (sh : BitVec 6) (s : State) : Out := .next (s.result d ((s.getS a).sshiftRight sh.toNat))
def execCmpi (c : Cond) (d : KReg) (a : Reg) (imm : BitVec 12) (s : State) : Out :=
  .next (s.resultK d (condMask (condHolds c (s.getS a) (sext imm))))

/-- An upper immediate: imm in bits [31:12], sign-extended (R48, R140). -/
def upper (imm : BitVec 20) : Word := sext (imm ++ (0 : BitVec 12))

def execLui (d : Reg) (imm : BitVec 20) (s : State) : Out := .next (s.result d (upper imm))
def execAuipc (d : Reg) (imm : BitVec 20) (s : State) : Out := .next (s.result d (s.th.pc + upper imm))

/-! ## Predicates (R141) -/

def execKand (d a b : KReg) (s : State) : Out := .next (s.resultK d (s.getK a &&& s.getK b))
def execKor (d a b : KReg) (s : State) : Out := .next (s.resultK d (s.getK a ||| s.getK b))
def execKxor (d a b : KReg) (s : State) : Out := .next (s.resultK d (s.getK a ^^^ s.getK b))
def execKnot (d a : KReg) (s : State) : Out := .next (s.resultK d (~~~ s.getK a))
def execKmovKK (d a : KReg) (s : State) : Out := .next (s.resultK d (s.getK a))
def execKmovSK (d : Reg) (a : KReg) (s : State) : Out := .next (s.result d (s.getK a))
def execKmovKS (d : KReg) (a : Reg) (s : State) : Out := .next (s.resultK d (s.getS a))
def execCmp (c : Cond) (d : KReg) (a b : Reg) (s : State) : Out :=
  .next (s.resultK d (condMask (condHolds c (s.getS a) (s.getS b))))

/-! ## Branches, jumps, the loop (R142–R144) -/

/-- The target of an offset that counts parcels from the PC. -/
def State.target (s : State) (off : BitVec n) : Word := s.th.pc + sext off * 4

/-- A branch: to the target when the test holds, else to the next instruction. -/
def State.branch (s : State) (test : Bool) (off : BitVec 16) : State :=
  if test then s.setPc (s.target off) else s.advance 4

def execBrAny (k : KReg) (n : Bool) (off : BitVec 16) (s : State) : Out :=
  .next (s.branch ((s.getK k != 0) != n) off)
def execBrAll (k : KReg) (n : Bool) (off : BitVec 16) (s : State) : Out :=
  .next (s.branch ((s.getK k == BitVec.allOnes 64) != n) off)
def execBr (off : BitVec 16) (s : State) : Out := .next (s.branch true off)

def execJal (d : Reg) (imm : BitVec 20) (s : State) : Out :=
  .next ((s.setS d (s.th.pc + 4)).setPc (s.target imm))

def execJalr (d a : Reg) (imm : BitVec 12) (s : State) : Out :=
  let tgt := s.getS a + sext imm
  if tgt.toNat % 4 ≠ 0 then .next (s.fault (Cause.ialign tgt))
  else .next ((s.setS d (s.th.pc + 4)).setPc tgt)

/-- `LCOUNT` counts down; the branch is taken while it is not zero. Not VP-safe (R151). -/
def execLoop (off : BitVec 16) (s : State) : Out :=
  .next (s.notVp (
    let n := s.th.lcount - 1
    ({ s with th := { s.th with lcount := n } }).branch (n != 0) off))

/-! ## Hints (R63) -/

def execNop (_ : Reg) (_ : Fin 8) (_ : Reg) (s : State) : Out := .next (s.advance 4)

/-- The thread takes no barrel turn for the 16 SCLK cycles after this one; it stands at its `pause` until then (R374). -/
def execPause (_ : Reg) (_ : Fin 8) (_ : Reg) (s : State) : Out :=
  .next { s with th := { s.th with wait := .pause (s.cycle + 16) } }

/-- A pause ends as its thread takes a turn: the thread goes on after it. -/
def Thread.wake (t : Thread) : Thread :=
  match t.wait with
  | .pause _ => { t with wait := .none, pc := t.pc + 4 }
  | .none | .queue _ _ | .tbar | .mwait | .saving | .stopped _ => t

/-- The barrel may give a spinning thread one turn in four. -/
def execSpin (_ : Reg) (_ : Fin 8) (_ : Reg) (s : State) : Out :=
  .next (({ s with th := { s.th with spin := 3 } }).advance 4)

def execOtherHintCode (_ : BitVec 12) (_ : Reg) (_ : Fin 8) (_ : Reg) (s : State) : Out := .next (s.advance 4)

end Sys2Proof.Machine
end

