-- ==== Sys2Proof/Machine/Operands.lean ====
section
/-! DEFINITION. Operands of vector instructions: sources, active elements, destinations, masks, latches and generators
(03 R55, R57; 05 R109, R117–R118; 06 R125–R127; 07 R152–R162, R180; 16 R380). -/

namespace Sys2Proof.Machine

/-! ## What the slot read at issue (R155) -/

/-- The slot being executed. Without one, the values that a convoy header issuing now would read. -/
def State.slotNow (s : State) : Issue :=
  match s.th.issue with
  | some i => i
  | none =>
    { hdr := s.th.pc, slot := 0, vl := s.th.vec.vl, rm := s.th.vec.rm, prog := 0, captured := none, nowatch := false }

def State.vl (s : State) : Nat := s.slotNow.vl

/-- The rounding mode of an instruction: its own, or `VSTATE.RM` as the convoy's header read it (R57, R155). -/
def State.mode (s : State) (r : RmSel) : Rm :=
  match r with
  | .dyn => s.slotNow.rm
  | .rne => .rne | .rtz => .rtz | .rup => .rup | .rdn => .rdn | .rst => .rst

/-- The lane count N of the core in focus. -/
def State.nLanes (s : State) : Nat := s.lanes s.coreId

def State.vlen (s : State) : Nat := s.th.vec.vlen

/-- VLMAX at a width in bits (R153). -/
def State.vlmax (s : State) (bits : Nat) : Nat := s.vlen * 8 / bits

/-! ## Sources (R55, R125–R127, R157, R180) -/

/-- Which source a field is. -/
inductive Which where
  | a | b | c
deriving DecidableEq, Repr

/-- The scalar that a source supplies to element i: as captured at issue, or VP i's own copy. -/
def State.scalar (s : State) (w : Which) (r : Reg) (i : Nat) : Word :=
  match s.th.vp with
  | some v =>
    match v.vps[i]? with
    | some x => if r = 0 then 0 else rd x.s r
    | none => 0
  | none =>
    match s.slotNow.captured with
    | some (x, y, z) => (match w with | .a => x | .b => y | .c => z)
    | none => s.getS r

/-- The base pointer of a memory instruction as captured at issue (R171, R371). -/
def State.pointer (s : State) (x : VSrc) : Nat :=
  match s.slotNow.captured with
  | some (p, _, _) => p.toNat
  | none =>
    match x with
    | .v r _ => (s.getP (Fin.ofNat 8 r.val)).toNat
    | .o _ | .lat _ | .s _ => 0

def State.vreg (s : State) (r : VReg) : VRegister := rd s.th.vec.v r

/-- Element i of a source at a width in bits. An operand-file entry or a latch repeats with its group size (R125). -/
def State.elem (s : State) (w : Which) (x : VSrc) (bits i : Nat) : Nat :=
  match x with
  | .v r _ => getBits (s.vreg r).data (i * bits) bits
  | .o e => getBits (rd s.th.vec.o e) (i % (64 * s.nLanes / bits) * bits) bits
  | .lat u => getBits (rd s.th.vec.lat u) (i % (64 * s.nLanes / bits) * bits) bits
  | .s r => (s.scalar w r i).toNat % 2 ^ bits

/-- A mask register's bits. -/
def State.mask (s : State) (m : Fin 8) : Nat := rd s.th.vec.m m

/-- The mask register that a source field names. -/
def State.maskOf (s : State) (x : VSrc) : Nat :=
  match x with
  | .v r _ => s.mask (Fin.ofNat 8 r.val)
  | .o _ | .lat _ | .s _ => 0

/-- The source fields of a vector instruction that name registers other than pointers and masks, each with the registers it reads from there
on: an index group up to eight, any other one (R158, R161–R177, R303). -/
def regSources (i : Instr) : List (VSrc × Nat) :=
  match i with
  | .vld f | .vldHome f | .vldLast f | .vlds f | .vldsHome f | .vldff f | .ldt f | .vldo f =>
    ([f.b, f.c].filter VSrc.isScalar).map (fun x => (x, 1))
  | .vldx f | .vldxPeer f | .vldxHome f => [(f.b, 8)]
  | .vst f | .vsts f => ([f.b].filter VSrc.isScalar).map (fun x => (x, 1)) ++ [(f.c, 1)]
  | .vamoCas f => [(f.b, 8), (f.c, 1), (.v f.d false, 1)]
  | .vstx f | .vstxPeer f | .vamoAdd f | .vamoMin f | .vamoMax f | .vamoAnd f | .vamoOr f | .vamoXor f | .vamoSwap f => [(f.b, 8), (f.c, 1)]
  | .vmv f | .vsqrt f | .vfclass f | .vcvt f | .vmk f | .vcompress f => [(f.a, 1)]
  | .vmacc f | .vfma f | .vfms f | .vfnma f => [(f.a, 1), (f.b, 1), (f.c, 1)]
  | .vaddInt f | .vsubInt f | .vmulInt f | .vmulh f | .vminInt f | .vmaxInt f | .vdivInt f | .vrem f | .vand f | .vor f | .vxor f | .vsll f
  | .vsrl f | .vsra f | .vcmp _ f | .vaddFloat f | .vsubFloat f | .vmulFloat f | .vdivFloat f | .vminFloat f | .vmaxFloat f | .vfcmp _ f
  | .vsgnj f | .vsgnn f | .vsgnx f | .vmerge f | .vslideup f | .vslidedn f | .vperm f | .vbcast f | .vtoo f | .vredsum f | .vredmin f
  | .vredmax f | .vredand f | .vredor f | .vredxor f => [(f.a, 1), (f.b, 1)]
  | _ => []

/-! ## Active elements (R157, R180) -/

/-- Element i takes part, for i below VL. -/
def State.active (s : State) (msk : Option (Fin 8)) (i : Nat) : Bool :=
  (match msk with | none => true | some m => bit (s.mask m) i) &&
    (match s.th.vp with | none => true | some v => v.group.contains i)

/-- The active elements in increasing order. -/
def State.actives (s : State) (f : VF) : List Nat := (List.range s.vl).filter (s.active f.msk)

/-- VL exceeds VLMAX at one of the widths, in bits (R158). -/
def State.tooLong (s : State) (bits : List Nat) : Bool := bits.any (fun b => s.vlmax b < s.vl)

/-- An instruction of type `.mxf4` whose VL or mask does not go by whole blocks (R118). In a fetched block the members of the group count as
the mask, a choice of the model: a group that holds part of a block breaks the rule (log 25). -/
def State.mxBroken (s : State) (f : VF) : Bool :=
  s.vl % 32 != 0 ||
    (List.range (s.vl / 32)).any (fun j =>
      (List.range 32).any (fun i => s.active f.msk (32 * j + i) != s.active f.msk (32 * j)))

/-! ## Destinations (R117, R380) -/

/-- A byte string with elements of a width in bits replaced. -/
def putElems (data : Blob) (bits : Nat) : List (Nat × Nat) → Blob
  | [] => data
  | (i, v) :: es => putElems (putBits data (i * bits) bits v) bits es

/-- The end in bytes of the highest element written. -/
def topByte (bits : Nat) (es : List (Nat × Nat)) : Nat := es.foldl (fun t e => max t (((e.1 + 1) * bits + 7) / 8)) 0

def State.setV (s : State) (r : VReg) (x : VRegister) : State :=
  { s with th := { s.th with vec := { s.th.vec with v := wr s.th.vec.v r x } } }

/-- Elements written with a type other than `.mxf4`: the tag clears; nothing happens where there are none. -/
def State.writeV (s : State) (r : VReg) (bits : Nat) (es : List (Nat × Nat)) : State :=
  if es.isEmpty then s
  else
    let x := s.vreg r
    s.setV r { data := putElems x.data bits es, tag := false, side := x.side,
               vb := max x.vb (roundUp (topByte bits es) 64), dirty := true }

/-- The sidecar of a register: what no one has written while it was untagged is a free value (R117, log 3). -/
def State.sidecar (s : State) (r : VReg) : State × Blob :=
  let x := s.vreg r
  if x.tag then (s, x.side) else ({ s with free := s.free + 1 }, Config.freeBlob s.free % 256 ^ (s.vlen / 16))

/-- `.mxf4` elements and the scale bytes of their blocks written: the tag is set. -/
def State.writeMx (s : State) (r : VReg) (es sides : List (Nat × Nat)) : State :=
  if es.isEmpty then s
  else
    let (s1, side) := s.sidecar r
    let x := s.vreg r
    s1.setV r { data := putElems x.data 4 es, tag := true, side := putElems side 8 sides,
                vb := max x.vb (roundUp (topByte 4 es) 64), dirty := true }

def State.setM (s : State) (m : Fin 8) (x : Nat) : State :=
  { s with th := { s.th with vec := { s.th.vec with m := wr s.th.vec.m m x } } }

/-- A mask result: bits of active elements written, bits at VL and above cleared, inactive bits below VL kept (R162). -/
def State.writeM (s : State) (m : Fin 8) (bits : List (Nat × Bool)) : State :=
  s.setM m (bits.foldl (fun x b => putBits x b.1 1 (if b.2 then 1 else 0)) (s.mask m % 2 ^ s.vl))

def State.setO (s : State) (e : Fin 8) (x : Blob) : State :=
  { s with th := { s.th with vec := { s.th.vec with o := wr s.th.vec.o e x } } }

/-! ## Last-result latches (R126) -/

def State.setLat (s : State) (u : Fin 7) (x : Blob) : State :=
  { s with th := { s.th with vec := { s.th.vec with lat := wr s.th.vec.lat u x } } }

/-- Element group j of a register, 8N bytes; bytes at VLEN or above are +0. -/
def State.group (s : State) (r : VReg) (j : Nat) : Blob := getB (s.vreg r).data (j * (8 * s.nLanes)) (8 * s.nLanes)

/-- The group that a latch takes at a width in bits. -/
def State.lastGroup (s : State) (bits : Nat) : Nat := (s.vl - 1) / (64 * s.nLanes / bits)

/-- A latch takes the last group of the destination register, which the instruction has written. -/
def State.latchV (s : State) (u : Fin 7) (r : VReg) (bits : Nat) : State :=
  if s.vl = 0 then s else s.setLat u (s.group r (s.lastGroup bits))

/-- The store latch takes the last group of the store data, as it stands once the instruction is done; store data that is no main-file
register gives the group of its elements (log 24). -/
def State.latchStore (s : State) (f : VF) (bits : Nat) : State :=
  if s.vl = 0 then s
  else
    match f.c with
    | .v r _ => s.setLat 3 (s.group r (s.lastGroup bits))
    | .o _ | .lat _ | .s _ =>
      let g := 64 * s.nLanes / bits
      s.setLat 3 (putElems 0 bits ((List.range g).map (fun i => (i, s.elem .c f.c bits (s.lastGroup bits * g + i)))))

/-! ## Stochastic generators (R109) -/

def laneGenNo (core lane : Nat) : Nat := core * 256 + 16 + lane
def drainGenNo (core lane : Nat) : Nat := core * 256 + 96 + lane
def sliceGenNo (slice : Nat) : Nat := 1536 * 256 + slice

def State.laneGenOf (s : State) (lane : Nat) : BitVec 32 := (look s.core.laneGen lane).getD (seedOf (laneGenNo s.coreId lane))

/-- The lane's generator steps, when a value was drawn. -/
def State.laneStep (s : State) (lane : Nat) (drew : Bool) : State :=
  if drew then { s with core := { s.core with laneGen := assoc s.core.laneGen lane (genStep (s.laneGenOf lane)) } } else s

/-- The thread's generator steps, when a value was drawn. -/
def State.genStepped (s : State) (drew : Bool) : State :=
  if drew then { s with th := { s.th with gen := genStep s.th.gen } } else s

/-- The lane that element 0 of the slot runs on: a convoy that borrows a sibling's idle lanes begins after the sibling's own (R37). -/
def State.lane0 (s : State) : Nat :=
  match s.th.convoy with
  | some c => c.lane0
  | none => 0

/-- Elements rounded in increasing order, each with the draw of the lane that holds it: the results and the flags (R109, R159). -/
def State.roundEach (s : State) (g : Nat → Nat → Rounded) : List Nat → State × List (Nat × Nat) × BitVec 5
  | [] => (s, [], 0)
  | i :: is =>
    let lane := (s.lane0 + i) % s.nLanes
    let r := g i (genDraw (s.laneGenOf lane))
    let (s2, es, fx) := (s.laneStep lane r.drew).roundEach g is
    (s2, (i, r.code) :: es, r.fx ||| fx)

/-! ## The end of a slot -/

/-- Lane-ACLK cycles of a slot that works through its groups at `rate` groups a cycle (R37, R133, R156; log 6). -/
def State.laneCycles (s : State) (bits rate : Nat) : Nat :=
  let groups := (s.vl * bits + 64 * s.nLanes - 1) / (64 * s.nLanes)
  (groups + rate - 1) / rate * min s.vl s.nLanes

def State.busy (s : State) (n : Nat) : State := { s with th := { s.th with laneBusy := s.th.laneBusy + wd n } }

/-- A memory slot is busy for one group a cycle at best, and longer for the time that its accesses take, which the manual leaves open
(R156, log 3, log 6). -/
def State.busyFree (s : State) (bits : Nat) : State :=
  ({ s with free := s.free + 1 } : State).busy (s.laneCycles bits 1 + (Config.freeWord s.free).toNat % 2 ^ 32)

/-- The slot has finished; the convoy ends with its last slot. A convoy that `tret` has still to fetch again stays. -/
def Thread.slotDone (t : Thread) : Thread :=
  match t.convoy with
  | some c => if c.slots.length ≤ c.next && !c.slots.isEmpty then { t with issue := none, convoy := none } else { t with issue := none }
  | none => { t with issue := none }

def State.slotDone (s : State) : State := { s with th := s.th.slotDone }

/-- The slot raises RESOP and changes nothing. -/
def State.slotResop (s : State) : State := s.slotFault Cause.resop

/-- A vector slot in a fetched block that is not VP-safe raises ILLEGAL and names the lowest VP of the group (R35, R160). The header
of its convoy has refused it already (`execConvoyIssue`), unless memory has changed since. -/
def State.slotNotVp (s : State) (body : State) : State :=
  match s.th.vp with
  | some v => s.slotFault { Cause.illegal with felem := wd (v.group.headD 0) }
  | none => body

end Sys2Proof.Machine
end

