-- ==== Sys2Proof/Machine/VectorOps.lean ====
section
/-! DEFINITION. The shapes that the computing vector instructions share: elementwise results, mask results, rounded results
(07 R157–R164). -/

namespace Sys2Proof.Machine

/-- A source is tagged. Only main-file registers carry tags: an operand-file entry, a latch or a scalar counts as untagged, so a `.mxf4`
source of `vcvt` of another level than 00, and a `.mxf4` store of one, raise RESOP, which R165 and R173 leave open (log 25). -/
def State.taggedSrc (s : State) (x : VSrc) : Bool :=
  match x with
  | .v r _ => (s.vreg r).tag
  | .o _ | .lat _ | .s _ => false

/-- A slot on the ALU, FMA, permute or reduce unit that writes elements of v[d] at a width: the elements, the latch, the lane
time. -/
def State.finishV (s : State) (u : Fin 7) (f : VF) (bits rate : Nat) (es : List (Nat × Nat)) : State :=
  (((s.writeV f.d bits es).latchV u f.d bits).busy (s.laneCycles bits rate)).slotDone

/-- A slot that writes element i of v[d] as g i for each active i (R157, R158). -/
def State.elementwise (s : State) (u : Fin 7) (f : VF) (rate : Nat) (g : Nat → Nat) : State :=
  if s.tooLong [f.ty.bits] then s.slotResop
  else s.finishV u f f.ty.bits rate ((s.actives f).map (fun i => (i, g i)))

/-- A slot that writes bit i of m[d] as g i for each active i (R162). `bits` is the width at which it reads vector registers, when
it reads any. -/
def State.maskwise (s : State) (f : VF) (bits : Option Nat) (g : Nat → Bool) : State :=
  if s.tooLong bits.toList then s.slotResop
  else ((s.writeM (Fin.ofNat 8 f.d.val) ((s.actives f).map (fun i => (i, g i)))).busy
    (s.laneCycles (bits.getD 8) 1)).slotDone

/-- The width of the vector registers that a comparison reads. -/
def readBits (f : VF) : Option Nat := if f.a.isMain || f.b.isMain then some f.ty.bits else none

/-- The three sources of element i as codes of the instruction's type. -/
def State.srcA (s : State) (f : VF) (i : Nat) : Nat := s.elem .a f.a f.ty.bits i
def State.srcB (s : State) (f : VF) (i : Nat) : Nat := s.elem .b f.b f.ty.bits i
def State.srcC (s : State) (f : VF) (i : Nat) : Nat := s.elem .c f.c f.ty.bits i

/-- A slot of unit u that rounds each active element (R159, R163). -/
def State.rounded (s : State) (u : Fin 7) (f : VF) (rate : Nat) (g : Nat → Nat → Rounded) : State :=
  if s.tooLong [f.ty.bits] then s.slotResop
  else
    let (s1, es, fx) := s.roundEach g (s.actives f)
    (s1.raise fx).finishV u f f.ty.bits rate es

/-- A slot of the ALU whose elements raise flags and do not round (R164). -/
def State.flagged (s : State) (f : VF) (g : Nat → Nat × BitVec 5) : State :=
  if s.tooLong [f.ty.bits] then s.slotResop
  else (s.raise ((s.actives f).foldl (fun fx i => fx ||| (g i).2) 0)).finishV 0 f f.ty.bits 1
    ((s.actives f).map (fun i => (i, (g i).1)))

end Sys2Proof.Machine
end

