-- ==== Sys2Proof/Machine/VectorMem.lean ====
section
/-! DEFINITION. Vector loads and stores (07 R171–R177, 11 R266–R268). -/

namespace Sys2Proof.Machine

/-! ## Elements in increasing order (R174) -/

/-- A fault of the slot at element e: the elements below it are complete, and the trap names it. -/
def State.elemFault (s : State) (e : Nat) (t : Trap) : State :=
  let issue := s.th.issue.map (fun i => { i with prog := e, nowatch := i.nowatch && i.prog == e })
  ({ s with th := { s.th with issue } } : State).slotFault (if t.cause = 12 then t else { t with felem := wd e })

/-- Core watchpoints watch element i, unless the slot's replay entry exempts it (R371). -/
def State.watches (s : State) (i : Nat) : Bool := !(s.slotNow.nowatch && s.slotNow.prog == i)

/-- The elements still to be performed. -/
def State.remaining (s : State) (f : VF) : List Nat := (s.actives f).filter (fun i => decide (s.slotNow.prog ≤ i))

/-- What a run over elements did: their values or zeros, the places touched, and the element that faulted. -/
structure ElemRun where
  vals : List (Nat × Nat) := []
  places : List (Target × Nat) := []
  stop : Option (Nat × Trap) := none
deriving DecidableEq, Repr

/-- In a fetched block element i of a vector load is VP i's: it loads under that VP's acquire points (R160, R275). -/
def State.asElem (s : State) (i : Nat) : State :=
  match s.th.vp.bind (fun v => v.vps[i]?) with
  | some x => { s with th := { s.th with acqL1 := max s.th.acqL1 x.acqL1, acqRdc := max s.th.acqRdc x.acqRdc } }
  | none => s

/-- A link that goes down during the turn is down for the accesses of element i and those above (R401). -/
def State.fallAt (s : State) (i : Nat) : State :=
  match s.fab.falling with
  | some (port, n) => if n ≤ i then s.linkFalls port else s
  | none => s

/-- Element i loaded, n bytes at va. -/
def State.loadElem (s : State) (kind : LoadKind) (va n i : Nat) : State × Except Trap (Nat × Target) :=
  let (s1, x) := (s.fallAt i).reachWith (s.watches i) va n n .read
  match x with
  | .error t => (s1, .error t)
  | .ok tg =>
    let (s2, v, p) := (s1.asElem i).readAt kind tg n
    let s3 : State := { s2 with th := s1.th }
    match p with
    | some pa => (s3, .error (Cause.poison va pa))
    | none => (s3, .ok (v, tg))

def State.loadElems (s : State) (kind : LoadKind) (n : Nat) (ea : Nat → Nat) : List Nat → State × ElemRun
  | [] => (s, {})
  | i :: is =>
    let (s1, x) := s.loadElem kind (ea i) n i
    match x with
    | .error t => (s1, { stop := some (i, t) })
    | .ok (v, tg) =>
      let (s2, r) := s1.loadElems kind n ea is
      (s2, { r with vals := (i, v) :: r.vals, places := (tg, n) :: r.places })

def State.storeElems (s : State) (n : Nat) (ea val : Nat → Nat) : List Nat → State × ElemRun
  | [] => (s, {})
  | i :: is =>
    let (s1, x) := (s.fallAt i).reachWith (s.watches i) (ea i) n n .write
    match x with
    | .error t => (s1, { stop := some (i, t) })
    | .ok tg =>
      let (s2, r) := (s1.writeAt tg n (val i)).storeElems n ea val is
      (s2, { r with places := (tg, n) :: r.places })

/-- The lines that a `.last` load touched are dropped (R261). -/
def State.dropAll (s : State) (ps : List (Target × Nat)) : State := ps.foldl (fun t p => t.dropAt p.1) s

/-- The places of elements that a slot had performed before it was resumed, by their addresses. -/
def State.relocate (s : State) (need : Need) : List (Nat × Nat) → State × List (Target × Nat)
  | [] => (s, [])
  | (va, n) :: l =>
    let (s1, x) := s.locate va n need
    let (s2, ps) := s1.relocate need l
    (s2, match x with | .ok tg => (tg, n) :: ps | .error _ => ps)

/-- The lines of the elements that a `.last` load had completed before it was resumed. -/
def State.dropEarlier (s : State) (vas : List (Nat × Nat)) : State :=
  let (s1, ps) := s.relocate .read vas
  s1.dropAll ps

/-- Active elements below the one that the slot started from. -/
def State.earlier (s : State) (f : VF) : List Nat := (s.actives f).filter (fun i => decide (i < s.slotNow.prog))

/-- Their addresses and bytes, for a type other than `.mxf4`. -/
def State.earlierAt (s : State) (f : VF) (ea : Nat → Nat) : List (Nat × Nat) := (s.earlier f).map (fun i => (ea i, f.ty.bits / 8))

/-- The bytes of each sector of device memory that stores to these places covered. -/
def covered (ps : List (Target × Nat)) : List (Nat × BitVec 32) :=
  ps.foldl (fun l p =>
    match p.1 with
    | .spad _ => l
    | .mem pa _ => assoc l (pa / 32) ((look l (pa / 32)).getD 0 ||| maskB (pa % 32) p.2)) []

/-- One instruction that has stored every byte of a sector clears its poison (R260). -/
def State.clearFull (s : State) (ps : List (Target × Nat)) : State :=
  (covered ps).foldl (fun t c =>
    if c.2 = BitVec.allOnes 32 then
      (match t.place (32 * c.1) with | .media _ => t.l1Full (32 * c.1) | _ => t)
    else t) s

/-! ## Addresses -/

/-- A stride or a scale address: source b of element i. -/
def State.bScalar (s : State) (f : VF) (i : Nat) : Word :=
  match f.b with
  | .s r => s.scalar .b r i
  | .v _ _ | .o _ | .lat _ => 0

/-- Element i of the index group that starts at v[b] (R171). -/
def State.index (s : State) (f : VF) (i : Nat) : Nat :=
  match f.b with
  | .v r _ => getB (s.vreg (Fin.ofNat 64 (r.val + i * 8 / s.vlen))).data (i * 8 % s.vlen) 8
  | .o _ | .lat _ | .s _ => 0

/-- The index group would pass `v63` (R158). -/
def State.spanBreaks (s : State) (f : VF) : Bool :=
  match f.b with
  | .v r _ => 64 < r.val + (s.vl * 8 + s.vlen - 1) / s.vlen
  | .o _ | .lat _ | .s _ => true

def State.unitEa (s : State) (f : VF) (i : Nat) : Nat := (s.pointer f.a + i * f.ty.bits / 8) % 2 ^ 64
def State.strideEa (s : State) (f : VF) (i : Nat) : Nat := (wd (s.pointer f.a) + wd i * s.bScalar f i).toNat
def State.indexEa (s : State) (f : VF) (i : Nat) : Nat := (s.pointer f.a + s.index f i) % 2 ^ 64

/-- The scale address of the block that holds element i (R173); addresses wrap (R171). -/
def State.scaleEa (s : State) (f : VF) (i : Nat) : Nat := ((s.bScalar f i).toNat + i / 32) % 2 ^ 64

/-! ## Loads -/

/-- The end of a load slot: its elements are written, then it finishes or faults. With `last` it drops the lines of every active element:
of those that it has performed now, and at the addresses `vas` those of the elements before (R261). -/
def State.loadEnd (s : State) (f : VF) (bits : Nat) (r : ElemRun) (last : Bool) (vas : List (Nat × Nat) := []) : State :=
  let s1 := s.writeV f.d bits r.vals
  match r.stop with
  | some (e, t) => s1.elemFault e t
  | none => (((if last then (s1.dropEarlier vas).dropAll r.places else s1).latchV 2 f.d bits).busyFree bits).slotDone

/-- A load slot of a type other than `.mxf4`. -/
def State.vload (s : State) (f : VF) (kind : LoadKind) (ea : Nat → Nat) : State :=
  if s.tooLong [f.ty.bits] then s.slotResop
  else
    let (s1, r) := s.loadElems (if kind = .home then .home else .plain) (f.ty.bits / 8) ea (s.remaining f)
    s1.loadEnd f f.ty.bits r (kind == .last) (s.earlierAt f ea)

/-- Bytes of packed `.mxf4` elements 2j and 2j + 1 from P + j, with the block's scale byte after its first byte (R173). -/
def State.loadMx (s : State) (f : VF) (kind : LoadKind) : List Nat → State × ElemRun × List (Nat × Nat)
  | [] => (s, {}, [])
  | i :: is =>
    if i % 2 = 1 then s.loadMx f kind is
    else
      let (s1, x) := s.loadElem kind (s.unitEa f i) 1 i
      match x with
      | .error t => (s1, { stop := some (i, t) }, [])
      | .ok (v, tg) =>
        if i % 32 = 0 then
          let (s2, y) := s1.loadElem kind (s.scaleEa f i) 1 i
          match y with
          | .error t => (s2, { stop := some (i, t) }, [])
          | .ok (sc, tg2) =>
            let (s3, r, q) := s2.loadMx f kind is
            (s3, { r with vals := (i, v % 16) :: (i + 1, v / 16) :: r.vals, places := (tg, 1) :: (tg2, 1) :: r.places },
              (i / 32, sc) :: q)
        else
          let (s2, r, q) := s1.loadMx f kind is
          (s2, { r with vals := (i, v % 16) :: (i + 1, v / 16) :: r.vals, places := (tg, 1) :: r.places }, q)

/-- The bytes of `.mxf4` that element i brings along: those of elements 2 j and 2 j + 1 with the first, a block's scale with its first
element. -/
def State.mxBytes (s : State) (f : VF) (i : Nat) : List (Nat × Nat) :=
  if i % 2 = 1 then [] else (s.unitEa f i, 1) :: (if i % 32 = 0 then [(s.scaleEa f i, 1)] else [])

/-- The bytes of the elements that the slot had performed before. -/
def State.earlierMx (s : State) (f : VF) : List (Nat × Nat) := (s.earlier f).flatMap (s.mxBytes f)

/-- A load slot of type `.mxf4` (R118, R173, R174). -/
def State.vloadMx (s : State) (f : VF) (kind : LoadKind) : State :=
  if s.tooLong [4] || s.mxBroken f then s.slotResop
  else
    match s.remaining f with
    | [] => ((if kind = .last then s.dropEarlier (s.earlierMx f) else s).latchV 2 f.d 4).slotDone
    | e :: es =>
      if s.pointer f.a % 16 ≠ 0 then s.elemFault e (Cause.dalign (s.unitEa f e))
      else
        let (s1, r, q) := s.loadMx f (if kind = .home then .home else .plain) (e :: es)
        let s2 := s1.writeMx f.d r.vals q
        match r.stop with
        | some (x, t) => s2.elemFault x t
        | none => (((if kind = .last then (s2.dropEarlier (s.earlierMx f)).dropAll r.places else s2).latchV 2 f.d 4).busyFree 4).slotDone

def State.vloadUnit (s : State) (f : VF) (kind : LoadKind) : State :=
  if f.ty = .mxf4 then s.vloadMx f kind else s.vload f kind (s.unitEa f)

def execVld (f : VF) (s : State) : Out := .next (s.vloadUnit f .plain)
def execVldHome (f : VF) (s : State) : Out := .next (s.vloadUnit f .home)
def execVldLast (f : VF) (s : State) : Out := .next (s.vloadUnit f .last)
def execVlds (f : VF) (s : State) : Out := .next (s.vload f .plain (s.strideEa f))
def execVldsHome (f : VF) (s : State) : Out := .next (s.vload f .home (s.strideEa f))
def execVldx (f : VF) (s : State) : Out :=
  .next (if s.spanBreaks f then s.slotResop else s.vload f .plain (s.indexEa f))
def execVldxHome (f : VF) (s : State) : Out :=
  .next (if s.spanBreaks f then s.slotResop else s.vload f .home (s.indexEa f))

/-- `vldff` (R175): a fault above the lowest active element truncates VL. -/
def execVldff (f : VF) (s : State) : Out :=
  .next (s.slotNotVp (
    if s.tooLong [f.ty.bits] then s.slotResop
    else
      let (s1, r) := s.loadElems .plain (f.ty.bits / 8) (s.unitEa f) (s.remaining f)
      match r.stop with
      | some (e, _) =>
        if (s.actives f).head? = some e then s1.loadEnd f f.ty.bits r false
        else
          let s2 := s1.loadEnd f f.ty.bits { r with stop := none } false
          { s2 with th := { s2.th with vec := { s2.th.vec with vl := e } } }
      | none => s1.loadEnd f f.ty.bits r false))

/-- `vldo` (R172): 8N bytes into an operand-file entry. -/
def execVldo (f : VF) (s : State) : Out :=
  .next (s.slotNotVp (
    let (s1, r) := s.loadElems .plain 8 (fun e => (s.pointer f.a + 8 * e) % 2 ^ 64)
      ((List.range s.nLanes).filter (fun e => decide (s.slotNow.prog ≤ e)))
    let o := Fin.ofNat 8 f.d.val
    let s2 := s1.setO o (putElems (rd s1.th.vec.o o) 64 r.vals)
    match r.stop with
    | some (e, t) => s2.elemFault e t
    | none => (s2.busyFree 64).slotDone))

/-! ## Stores -/

/-- The end of a store slot: its elements have been stored, those at `vas` before it was resumed (R260). -/
def State.storeEnd (s : State) (f : VF) (bits : Nat) (r : ElemRun) (vas : List (Nat × Nat) := []) : State :=
  let (s0, ps) := s.relocate .write vas
  let s1 := (s0.clearFull (ps ++ r.places)).unspin
  match r.stop with
  | some (e, t) => s1.elemFault e t
  | none => ((s1.latchStore f bits).busyFree bits).slotDone

/-- A store slot of a type other than `.mxf4`. -/
def State.vstore (s : State) (f : VF) (ea : Nat → Nat) : State :=
  if s.tooLong [f.ty.bits] then s.slotResop
  else
    let (s1, r) := s.storeElems (f.ty.bits / 8) ea (s.srcC f) (s.remaining f)
    s1.storeEnd f f.ty.bits r (s.earlierAt f ea)

/-- Packed `.mxf4` elements stored to P + j, with each block's scale byte after its first byte. -/
def State.storeMx (s : State) (f : VF) (side : Blob) : List Nat → State × ElemRun
  | [] => (s, {})
  | i :: is =>
    if i % 2 = 1 then s.storeMx f side is
    else
      let (s1, x) := (s.fallAt i).reachWith (s.watches i) (s.unitEa f i) 1 1 .write
      match x with
      | .error t => (s1, { stop := some (i, t) })
      | .ok tg =>
        let v := s.srcC f i + 16 * s.srcC f (i + 1)
        if i % 32 = 0 then
          let (s2, y) := s1.reachWith (s.watches i) (s.scaleEa f i) 1 1 .write
          match y with
          | .error t => (s2, { stop := some (i, t) })
          | .ok tg2 =>
            let (s3, r) := ((s2.writeAt tg 1 v).writeAt tg2 1 (getB side (i / 32) 1)).storeMx f side is
            (s3, { r with places := (tg, 1) :: (tg2, 1) :: r.places })
        else
          let (s2, r) := (s1.writeAt tg 1 v).storeMx f side is
          (s2, { r with places := (tg, 1) :: r.places })

/-- A store slot of type `.mxf4` (R118, R173): the data register is tagged. A source that is no main-file register has no tag and
counts as untagged (log 25). -/
def State.vstoreMx (s : State) (f : VF) : State :=
  match f.c with
  | .v r _ =>
    if s.tooLong [4] || s.mxBroken f || !(s.vreg r).tag then s.slotResop
    else
      match s.remaining f with
      | [] => (s.latchStore f 4).slotDone
      | e :: es =>
        if s.pointer f.a % 16 ≠ 0 then s.elemFault e (Cause.dalign (s.unitEa f e))
        else
          let (s1, run) := s.storeMx f (s.vreg r).side (e :: es)
          s1.storeEnd f 4 run (s.earlierMx f)
  | .o _ | .lat _ | .s _ => s.slotResop

def execVst (f : VF) (s : State) : Out := .next (if f.ty = .mxf4 then s.vstoreMx f else s.vstore f (s.unitEa f))
def execVsts (f : VF) (s : State) : Out := .next (s.vstore f (s.strideEa f))
def execVstx (f : VF) (s : State) : Out :=
  .next (if s.spanBreaks f then s.slotResop else s.vstore f (s.indexEa f))

/-! ## Other cores' scratchpads (R176) -/

/-- The core and the scratchpad offset that element i names, where the element does not fail. -/
def State.peerPlace (s : State) (f : VF) (i : Nat) : Option (Nat × Nat) :=
  let x := s.index f i
  let off := (s.pointer f.a + x % 2 ^ 53) % 2 ^ 64
  match linearOf (x / 2 ^ 53) with
  | none => none
  | some n =>
    let c := s.coreAt n
    if s.enabled n && c.task.isSome && c.sys.ctxid == s.core.sys.ctxid && decide (off + f.ty.bits / 8 ≤ c.spadSize) then
      some (n, off) else none

/-- Element i has a place and a misaligned address, which raises DALIGN (R174); an element that fails traps never (R176). -/
def State.peerMisaligned (s : State) (f : VF) (i : Nat) : Bool :=
  match s.peerPlace f i with
  | some p => p.2 % (f.ty.bits / 8) != 0
  | none => false

/-- The elements that a `.peer` slot performs, those below the lowest misaligned one, and that one with its trap. -/
def State.peerElems (s : State) (f : VF) : List Nat × Option (Nat × Trap) :=
  let es := s.remaining f
  (es.takeWhile (fun i => !s.peerMisaligned f i),
    (es.find? (s.peerMisaligned f)).map (fun i => (i, Cause.dalign (s.indexEa f i))))

/-- The failure mask: the bits of the elements performed. -/
def State.peerMask (s : State) (f : VF) (m : Fin 8) (es : List Nat) : State :=
  s.writeM m (es.map (fun i => (i, (s.peerPlace f i).isNone)))

def execVldxPeer (f : VF) (s : State) : Out :=
  let m := match f.c with | .v r _ => Fin.ofNat 8 r.val | .o _ | .lat _ | .s _ => 0
  let es := s.peerElems f
  let vals := es.1.filterMap (fun i =>
    (s.peerPlace f i).map (fun p => (i, (s.coreAt p.1).spad.readN p.2 (f.ty.bits / 8))))
  .next (
    if s.tooLong [f.ty.bits] || s.spanBreaks f then s.slotResop
    else (s.peerMask f m es.1).loadEnd f f.ty.bits { vals, stop := es.2 } false)

/-- n bytes written into the scratchpad of a core. -/
def State.spadWrite (s : State) (core off n v : Nat) : State :=
  let c := s.coreAt core
  s.setCore core { c with spad := c.spad.writeN off n v }

def execVstxPeer (f : VF) (s : State) : Out :=
  .next (
    if s.tooLong [f.ty.bits] || s.spanBreaks f then s.slotResop
    else
      let es := s.peerElems f
      let s1 := es.1.foldl (fun t i =>
        match s.peerPlace f i with
        | some (n, off) => t.spadWrite n off (f.ty.bits / 8) (s.srcC f i)
        | none => t) s
      (s1.peerMask f (Fin.ofNat 8 f.d.val) es.1).storeEnd f f.ty.bits { stop := es.2 })

/-! ## Column-order loads (R264–R268) -/

/-- A traverse-table entry of a stack, as a number. -/
def State.travEntry (s : State) (die entry : Nat) : Nat := ((look s.store.trav (die * 64 + entry)).getD 0).toNat

def travValid (e : Nat) : Bool := bit e 224
def travCtx (e : Nat) : Nat := getBits e 208 16
def travSize (e : Nat) : Nat := 2 ^ getBits e 192 3
def travCols (e : Nat) : Nat := getBits e 160 32
def travRows (e : Nat) : Nat := getBits e 128 32
def travStride (e : Nat) : Nat := getBits e 64 40
def travBase (e : Nat) : Nat := getBits e 0 52

/-- The address of the element at column-order index x, where the tensor has it and the stack's visible bytes hold it. -/
def travAddr (e die x : Nat) : Option Nat :=
  if travRows e * travCols e ≤ x then none
  else
    let a := travBase e + x % travRows e * travStride e + x / travRows e * travSize e
    if a < die * 2 ^ 36 ∨ die * 2 ^ 36 + 0xFFC000000 < a + travSize e then none else some a

/-- Elements gathered from the media, up to the first that faults. They have no virtual address: POISON gives 0 for it (DESIGN CHOICE,
log 68). -/
def State.gatherElems (s : State) (e die entry e0 : Nat) : List Nat → ElemRun
  | [] => {}
  | i :: is =>
    match travAddr e die (e0 + i) with
    | none => { stop := some (i, Cause.trav 2 ((8 + die) * 64 + entry) (e0 + i)) }
    | some a =>
      if s.store.poison.contains (a / 32) then { stop := some (i, Cause.poison 0 a) }
      else
        let r := s.gatherElems e die entry e0 is
        { r with vals := (i, s.store.media.readN a (travSize e)) :: r.vals }

/-- `ldt` on a stack's entry from element index e0. -/
def State.ldtFrom (s : State) (f : VF) (die entry e0 : Nat) : State :=
  match s.remaining f with
  | [] => (s.latchV 2 f.d f.ty.bits).slotDone
  | e :: es =>
    let x := s.travEntry die entry
    let stop := fun c => s.elemFault e (Cause.trav c ((8 + die) * 64 + entry) (e0 + e))
    if !s.stackPresent die then stop 4
    else if !travValid x then stop 1
    else if s.core.sys.ctxid.toNat ≠ travCtx x then stop 3
    else if f.ty.bits ≠ 8 * travSize x then s.slotResop
    else s.loadEnd f f.ty.bits (s.gatherElems x die entry e0 (e :: es)) false

def execLdt (f : VF) (s : State) : Out :=
  .next (s.slotNotVp (
    if (s.actives f).isEmpty then (s.latchV 2 f.d f.ty.bits).slotDone
    else if s.tooLong [f.ty.bits] then s.slotResop
    else
      let sel := (s.bScalar f 0).toNat
      let e0 := match f.c with | .s r => (s.scalar .c r 0).toNat | .v _ _ | .o _ | .lat _ => 0
      s.ldtFrom f (getBits sel 8 3) (getBits sel 0 6) e0))

end Sys2Proof.Machine
end

