-- ==== Sys2Proof/Machine/Atomics.lean ====
section
/-! DEFINITION. Scalar and vector atomics, near and far (13 R297–R304; 22 R402, R405). -/

namespace Sys2Proof.Machine

/-! ## The operation (R301) -/

/-- The new value of an atomic, none for no write, and whether a random value was drawn. -/
def amoNew (op : AmoOp) (ty : AmoTy) (sr : Bool) (rnd old v expect : Nat) : Option Nat × Bool :=
  let e := ty.ety
  let keepOld := fun (less : Bool) => if less then v else old
  match op with
  | .add =>
    if e.isInt then (some ((old + v) % 2 ^ e.bits), false)
    else
      let r := FOp.add.eval (fmtOf e) (if sr then .rst else .rne) rnd old v
      (some r.code, r.drew)
  | .min => (some (if e.isInt then keepOld (tyInt e v < tyInt e old) else (fminmax (fmtOf e) false old v).1), false)
  | .max => (some (if e.isInt then keepOld (tyInt e old < tyInt e v) else (fminmax (fmtOf e) true old v).1), false)
  | .and => (some (Nat.land old v), false)
  | .or => (some (Nat.lor old v), false)
  | .xor => (some (Nat.xor old v), false)
  | .swap => (some v, false)
  | .cas => (if old = expect then some v else none, false)

/-- What an atomic asks for. `lane` names the lane of a `vamo` element, which rounds on the scratchpad (R109). -/
structure AmoReq where
  op : AmoOp
  ty : AmoTy
  sr : Bool
  far : Bool
  v : Nat
  expect : Nat
  lane : Option Nat
deriving DecidableEq, Repr

def AmoReq.bytes (q : AmoReq) : Nat := q.ty.ety.bits / 8

/-! ## Where it may be performed (R299, R402, R405) -/

/-- The operations and types that host memory performs (R402). -/
def hostAtomicOk (op : AmoOp) (ty : AmoTy) : Bool :=
  (op == .add || op == .swap || op == .cas) && ty.ety.isInt

/-- The fault of an atomic that has passed the checks of an access. -/
def State.amoFault (s : State) (va : Nat) (tg : Target) (op : AmoOp) (ty : AmoTy) : Option Trap :=
  match tg with
  | .spad _ => none
  | .mem pa _ =>
    match s.place pa with
    | .media _ => if s.atomicPoison pa then some (Cause.poison va pa) else none
    | .host _ => if hostAtomicOk op ty then none else some Cause.resop
    | .peer _ _ => none
    | .cfg _ | .none => some Cause.resop

/-! ## Performing it -/

/-- The home slice's generator (R109). -/
def State.sliceGenOf (s : State) (slice : Nat) : BitVec 32 := (look s.store.sliceGen slice).getD (seedOf (sliceGenNo slice))

def State.sliceStep (s : State) (slice : Nat) (drew : Bool) : State :=
  if drew then { s with store := { s.store with sliceGen := assoc s.store.sliceGen slice (genStep (s.sliceGenOf slice)) } }
  else s

/-- The atomic at the home slice of a line of device memory, for a core or for a source outside the module: the old value, and
whether the reply is marked contended (R298). -/
def State.amoHome (s : State) (q : AmoReq) (lin : Nat) (core : Option Nat) : State × Nat × Bool :=
  let slice := homeSlice lin
  let rnd := genDraw (s.sliceGenOf slice)
  let (s1, contended) := s.noteAtomic (lin / 128) core
  let (s2, old) := s1.homeUpdate lin q.bytes (fun x => (amoNew q.op q.ty q.sr rnd x q.v q.expect).1)
  ((s2.sliceStep slice (amoNew q.op q.ty q.sr rnd old q.v q.expect).2).afterAtomic lin, old, contended)

/-- A far request of the core in focus. -/
def State.amoFar (s : State) (q : AmoReq) (pa : Nat) : State × Nat :=
  let (s1, old, contended) := (s.homeReady pa).amoHome q ((linOf pa).getD 0) (some s.coreId)
  ({ s1 with core := s1.core.bump (pa / 128) contended }, old)

/-- The atomic in the core's L1, in a line held exclusive (R297). -/
def State.amoNear (s : State) (q : AmoReq) (pa : Nat) : State × Nat :=
  let (s1, l) := s.own (pa / 128)
  let old := (l.get (pa % 128) q.bytes).1
  match (amoNew q.op q.ty false 0 old q.v q.expect).1 with
  | none => (s1, old)
  | some v =>
    let cur := (s1.core.line (pa / 128)).getD l
    ({ s1 with core := s1.core.putLine (cur.store (pa % 128) q.bytes v s1.slot s1.cycle) }, old)

/-- Whether a request on device memory runs far: what R299, R321 and R324 force, else the predictor; a core whose L1 has no way
cannot own a line. -/
def State.runsFar (s : State) (q : AmoReq) (pa : Nat) : Bool :=
  let lin := (linOf pa).getD 0
  q.far || q.sr || s.isDeps lin || (s.armed (lin / 32 * 32)).isSome || s.core.ways == 0 ||
    decide (2 ≤ (look s.core.pred (pa / 128 % 256)).getD 0)

/-- The draw of an atomic on the scratchpad, and the state after its generator has stepped (R299). -/
def State.spadDraw (s : State) (q : AmoReq) : Nat :=
  match q.lane with
  | some l => genDraw (s.laneGenOf l)
  | none => genDraw s.th.gen

def State.spadDrew (s : State) (q : AmoReq) (drew : Bool) : State :=
  match q.lane with
  | some l => s.laneStep l drew
  | none => s.genStepped drew

/-- The atomic at its place: the old value. -/
def State.amoAt (s : State) (q : AmoReq) (tg : Target) : State × Nat :=
  match tg with
  | .spad off =>
    let old := s.core.spad.readN off q.bytes
    let r := amoNew q.op q.ty q.sr (s.spadDraw q) old q.v q.expect
    let s1 := s.spadDrew q r.2
    match r.1 with
    | none => (s1, old)
    | some v => ({ s1 with core := { s1.core with spad := s1.core.spad.writeN off q.bytes v } }, old)
  | .mem pa _ =>
    match s.place pa with
    | .media _ => if s.runsFar q pa then s.amoFar q pa else s.amoNear q pa
    | .host off =>
      let old := s.store.host.readN off q.bytes
      match (amoNew q.op q.ty false 0 old q.v q.expect).1 with
      | none => (s, old)
      | some v => ({ s with store := { s.store with host := s.store.host.writeN off q.bytes v } }, old)
    | .peer j lin =>
      let m := (look s.store.peer j.val).getD []
      let old := m.readN lin q.bytes
      let s1 := if q.sr then { s with free := s.free + 1 } else s
      match (amoNew q.op q.ty q.sr (Config.freePick s.free % 65536) old q.v q.expect).1 with
      | none => (s1, old)
      | some v => ({ s1 with store := { s1.store with peer := assoc s1.store.peer j.val (m.writeN lin q.bytes v) } }, old)
    | .cfg _ | .none => (s, 0)

/-! ## Scalar forms (R300–R302) -/

/-- The request of an atomic that meets poison: it is made, and finds the poison; no atomic is performed (R297, R302). -/
def State.amoMeets (s : State) (q : AmoReq) (tg : Target) : State :=
  match tg with
  | .spad _ => s
  | .mem pa _ =>
    match s.place pa with
    | .media lin => if s.runsFar q pa then (s.homeReady pa).homeRead lin q.bytes else (s.own (pa / 128)).1
    | .host _ | .peer _ _ | .cfg _ | .none => s

/-- A scalar atomic at s[a] with operand s[b]; s[d] is also what `cas` compares with. -/
def State.amo (s : State) (op : AmoOp) (ty : AmoTy) (sr far : Bool) (d a b : Reg) : State :=
  let va := (s.getS a).toNat
  let w := 2 ^ ty.ety.bits
  let q : AmoReq := { op, ty, sr, far, v := (s.getS b).toNat % w, expect := (s.getS d).toNat % w, lane := none }
  let (s1, x) := s.reach va q.bytes q.bytes .atomic
  match x with
  | .error t => s1.fault t
  | .ok tg =>
    match s1.amoFault va tg op ty with
    | some t => (s1.amoMeets q tg).fault t
    | none =>
      let (s2, old) := s1.amoAt q tg
      s2.result d (extend ty.ety.isSigned q.bytes old)

def execAmoAdd (ty : AmoTy) (sr far : Bool) (d a b : Reg) (s : State) : Out := .next (s.amo .add ty sr far d a b)
def execAmoMin (ty : AmoTy) (far : Bool) (d a b : Reg) (s : State) : Out := .next (s.amo .min ty false far d a b)
def execAmoMax (ty : AmoTy) (far : Bool) (d a b : Reg) (s : State) : Out := .next (s.amo .max ty false far d a b)
def execAmoAnd (ty : AmoTy) (far : Bool) (d a b : Reg) (s : State) : Out := .next (s.amo .and ty false far d a b)
def execAmoOr (ty : AmoTy) (far : Bool) (d a b : Reg) (s : State) : Out := .next (s.amo .or ty false far d a b)
def execAmoXor (ty : AmoTy) (far : Bool) (d a b : Reg) (s : State) : Out := .next (s.amo .xor ty false far d a b)
def execAmoSwap (ty : AmoTy) (far : Bool) (d a b : Reg) (s : State) : Out := .next (s.amo .swap ty false far d a b)
def execCas (ty : AmoTy) (far : Bool) (d a b : Reg) (s : State) : Out := .next (s.amo .cas ty false far d a b)

/-! ## Vector forms (R303, R304) -/

/-- Elements checked in increasing order up to the first that faults: their places, and that element. -/
def State.checkElems (s : State) (q : Nat → AmoReq) (ea : Nat → Nat) : List Nat → State × List (Nat × Target) × Option (Nat × Trap)
  | [] => (s, [], none)
  | i :: is =>
    let n := (q i).bytes
    let (s1, x) := s.reachWith (s.watches i) (ea i) n n .atomic
    match x with
    | .error t => (s1, [], some (i, t))
    | .ok tg =>
      match s1.amoFault (ea i) tg (q i).op (q i).ty with
      | some t => (s1.amoMeets (q i) tg, [], some (i, t))
      | none =>
        let (s2, ps, e) := s1.checkElems q ea is
        (s2, (i, tg) :: ps, e)

/-- Elements performed, in order with `.ord`, else in an order of the device's choice (R177; log 3): the old values. `n` bounds
their number. -/
def State.performElems (s : State) (ord : Bool) (q : Nat → AmoReq) : Nat → List (Nat × Target) → State × List (Nat × Nat)
  | 0, _ => (s, [])
  | n + 1, ps =>
    let k := if ord then 0 else Config.freePick s.free % max ps.length 1
    match ps[k]? with
    | none => (s, [])
    | some (i, tg) =>
      let (s1, old) := (if ord then s else { s with free := s.free + 1 }).amoAt (q i) tg
      let (s2, es) := s1.performElems ord q n (ps.eraseIdx k)
      (s2, (i, old) :: es)

/-- A vector atomic: every active element is checked upward before any is performed, and those below the first that faults are performed
(R304). The store latch takes the group of the data register after the old values are written, which R126 leaves open where it is the
destination too (log 24). -/
def State.vamo (s : State) (op : AmoOp) (f : VF) : State :=
  match AmoTy.ofEty f.ty with
  | none => s.slotFault Cause.illegal
  | some ty =>
    let body :=
      if s.tooLong [f.ty.bits] || s.spanBreaks f then s.slotResop
      else
        let old := fun i => getBits (s.vreg f.d).data (i * f.ty.bits) f.ty.bits
        let q := fun i => ({ op, ty, sr := f.rm == .rst, far := false, v := s.srcC f i, expect := old i,
                             lane := some ((s.lane0 + i) % s.nLanes) } : AmoReq)
        let (s1, ps, e) := s.checkElems q (s.indexEa f) (s.remaining f)
        let (s2, es) := s1.performElems f.ord q ps.length ps
        let s3 := if f.ux || op == .cas then s2.writeV f.d f.ty.bits es else s2
        match e with
        | some (i, t) => s3.elemFault i t
        | none => ((s3.latchStore f f.ty.bits).busyFree f.ty.bits).slotDone
    if f.ord then s.slotNotVp body else body

def execVamoAdd (f : VF) (s : State) : Out := .next (s.vamo .add f)
def execVamoMin (f : VF) (s : State) : Out := .next (s.vamo .min f)
def execVamoMax (f : VF) (s : State) : Out := .next (s.vamo .max f)
def execVamoAnd (f : VF) (s : State) : Out := .next (s.vamo .and f)
def execVamoOr (f : VF) (s : State) : Out := .next (s.vamo .or f)
def execVamoXor (f : VF) (s : State) : Out := .next (s.vamo .xor f)
def execVamoSwap (f : VF) (s : State) : Out := .next (s.vamo .swap f)
def execVamoCas (f : VF) (s : State) : Out := .next (s.vamo .cas f)

end Sys2Proof.Machine
end

