-- ==== Sys2Proof/Machine/Carve.lean ====
section
/-! DEFINITION. The carve-out, the team barrier and the change of split (10 R225–R237). -/

namespace Sys2Proof.Machine

/-! ## Asking for a split (R230, R232) -/

/-- Granules free as R236 counts them, the running task's own split not among them. -/
def Core.idleGranules (c : Core) : Nat := c.freeGranules - splitSum c.split

/-- `carve`. It reads `MSTATE` only to refuse a change of registers. -/
def execCarve (d a : Reg) (s : State) : Out :=
  let w := s.getS a
  .next (s.notVp (
    if splitMalformed w then s.result d 1
    else if s.core.freeGranules < splitSum w then s.result d 2
    else if s.carveHeld w then s
    else
      let st := s.core.carveStatus w
      (if st = 0 then { s with core := s.core.pend w } else s).result d (wd st)))

def execCarveq (n : Fin 3) (d : Reg) (s : State) : Out :=
  let c := s.core.sys.carve
  .next (s.notVp (s.result d (match n with
    | 0 => keep c 31 0
    | 1 => c >>> 32
    | 2 => wd s.core.idleGranules)))

/-! ## The barrier (R233) -/

/-- Slots of core n that hold a thread. -/
def State.teamSlots (s : State) (n : Nat) : List Nat := (List.range 4).filter (fun j => (s.threadAt n j).occ)

/-- Each thread of core n's team changed. -/
def State.mapTeam (s : State) (n : Nat) (f : Thread → Thread) : State :=
  (s.teamSlots n).foldl (fun t j => t.setThread n j (f (t.threadAt n j))) s

/-- `tbar`: the thread takes no barrel turn until the barrier releases the team. -/
def execTbar (s : State) : Out := .next (s.notVp { s with th := { s.th with wait := .tbar } })

/-! ## The change of split (R234, R237) -/

/-- A thread's registers after a change of register granules: zero, untagged, VLEN anew. -/
def Thread.recut (t : Thread) (vlen : Nat) : Thread :=
  { t with vec := { t.vec with v := Vector.replicate 64 .zero, vlen, vl := 0 } }

/-- The lines of core n in ways from `ways` up leave L1, in increasing way and set order. -/
def State.reclaimWays (s : State) (n ways : Nat) : State :=
  (List.range 64).foldl (fun t w =>
    if w < ways then t
    else (List.range 64).foldl (fun t set =>
      match (t.coreAt n).l1.find? (fun l => l.way == w && l.tag % 64 == set) with
      | some l => t.evict n l.tag
      | none => t) t) s

/-- Lines left in ways from `ways` up, among them a line that shares the way of another about to leave (R226). -/
def State.reclaimRest (s : State) (n ways : Nat) : State :=
  ((s.coreAt n).l1.filter (fun l => decide (ways ≤ l.way))).foldl (fun t l => t.evict n l.tag) s

/-- Core n's split becomes w: registers, L1, scratchpad. The stored bytes of reclaimed ways go home also where every link on their
way is down, a choice of the model: R234 wants them home first, and R277 has fences alone wait (log 52). -/
def State.applySplit (s : State) (n : Nat) (w : Word) : State :=
  let old := (s.coreAt n).split
  let s1 :=
    if splitRegs w ≠ splitRegs old then
      let c := s.coreAt n
      let s0 := s.setCore n { c with mat := { c.mat with tshape := c.mat.tshape.map (fun t => { t with rows := 0 }) } }
      s0.mapTeam n (fun t => t.recut (vlenOf (splitRegs w) c.team c.absorb))
    else s
  let s2 := if splitL1 w < splitL1 old then (s1.reclaimWays n (splitL1 w)).reclaimRest n (splitL1 w) else s1
  let c := s2.coreAt n
  s2.setCore n { c with
    spad := c.spad.filter (fun b => b.1 < splitSpad w * 8192)
    sys := { c.sys with carve := wd (c.sys.carve.toNat / 2 ^ 32 * 2 ^ 32 + w.toNat % 2 ^ 32) } }

/-- The pending split applied, `PVALID` cleared. -/
def State.applyPending (s : State) (n : Nat) : State :=
  let c := s.coreAt n
  if bit c.sys.carve.toNat 54 then
    let w := wd (field c.sys.carve 32 22)
    let s1 := s.applySplit n w
    let c1 := s1.coreAt n
    s1.setCore n { c1 with sys := { c1.sys with carve := wd (putBits c1.sys.carve.toNat 54 1 0) } }
  else s

/-- Core n's matrix queue holds instructions. -/
def State.matBusyAt (s : State) (n : Nat) : Bool := !(s.coreAt n).mat.queue.isEmpty

/-- Every team thread of core n has reached a `tbar` and the team's work has drained: its matrix queue, and the fetches of records that its
`mrpf` asked for. -/
def State.barrierFull (s : State) (n : Nat) : Bool :=
  !(s.teamSlots n).isEmpty && (s.teamSlots n).all (fun j => (s.threadAt n j).wait == .tbar) && !s.matBusyAt n &&
    (s.coreAt n).rpend.isEmpty

def Thread.pastBarrier (t : Thread) : Thread := { t with wait := .none, pc := t.pc + 4 }

/-- The barrier of core `ev.core` releases its team. -/
def execTeamBarrierRelease (s : State) : Out :=
  let n := s.ev.core
  .next (if s.barrierFull n then (s.applyPending n).mapTeam n Thread.pastBarrier else s)

/-! ## Zeroing scratchpad (R235) -/

/-- `szero` (R235). A core watchpoint is checked against the whole range at once, and FVA gives the range's start: R235 gives its stores no
width, a choice of the model (log 60). -/
def execSzero (a b : Reg) (s : State) : Out :=
  let x := (s.getS a).toNat
  let n := (s.getS b).toNat
  .next (s.notVp (
    if x % 128 ≠ 0 ∨ n % 128 ≠ 0 ∨ s.core.spadSize < x + n then s.fault Cause.resop
    else if n = 0 then s.advance 4
    else
      let (s1, w) := s.watchAt (spw + x) n false true
      match w with
      | .error t => s1.fault t
      | .ok () => ({ s1 with core := { s1.core with spad := s1.core.spad.clear x n } }.unspin).advance 4))

end Sys2Proof.Machine
end

