-- ==== Sys2Proof/Machine/MatState.lean ====
section
/-! DEFINITION. Chains and receptive windows as other events act on them (08 R204, R207–R209). -/

namespace Sys2Proof.Machine

def State.setMat (s : State) (n : Nat) (m : Mat) : State :=
  let c := s.coreAt n
  s.setCore n { c with mat := m }

/-- Core n is the leader of a joined chain, or its follower (R207). -/
def Mat.leads (m : Mat) : Bool := m.chain == 2 || m.chain == 3
def Mat.follows (m : Mat) : Bool := m.chain == 4 || m.chain == 5

/-- Core p's chain names core n as its partner. -/
def State.partnerIs (s : State) (p n : Nat) : Bool := linearOf (s.coreAt p).mat.partner == some n

/-- A follower back in V mode with latches at +0, its chain code as given (R208, R209). -/
def Mat.freed (m : Mat) (chain : BitVec 3) : Mat := { m with mode := .v, chain, lat := [], partner := 0 }

/-- A leader that has lost its chain: its latches no longer hold the chained layout (R208, R209). What `mmulx` has loaded
for columns N and up stays in use until it loads again (DESIGN CHOICE, log 67). -/
def Mat.alone (m : Mat) (chain : BitVec 3) : Mat := { m with chain, wlive := false, partner := 0 }

/-- The joined chain of core n ends, with this code on the leader and that on the follower; a partner that is no longer joined to
it keeps its state. -/
def State.partChain (s : State) (n : Nat) (leader follower : BitVec 3) : State :=
  let m := (s.coreAt n).mat
  match linearOf m.partner with
  | none => s
  | some p =>
    let m2 := (s.coreAt p).mat
    if m.leads then
      let s1 := s.setMat n (m.alone leader)
      if m2.follows && s.partnerIs p n then s1.setMat p (m2.freed follower) else s1
    else if m.follows then
      let s1 := s.setMat n (m.freed follower)
      if m2.leads && s.partnerIs p n then s1.setMat p (m2.alone leader) else s1
    else s

/-- A pre-emption, fault or end of core n's task breaks its chain (R209). -/
def State.breakChain (s : State) (n : Nat) : State := s.partChain n 7 7

/-- Every window of core n closes (R204). -/
def State.closeWindows (s : State) (n : Nat) : State :=
  s.setMat n { (s.coreAt n).mat with recv := Vector.replicate 8 none }

end Sys2Proof.Machine
end

