-- ==== Sys2Proof/Machine/Tasks.lean ====
section
/-! DEFINITION. Task instructions (14 R341–R346; 12 R279). None is VP-safe. -/

namespace Sys2Proof.Machine

/-- A release at `.pkg` before the instruction's effect: it waits for the core's matrix queue (R188, R279). -/
def State.afterRelease (s : State) (scope : Nat) (body : State → State) : State :=
  if s.matBusy || s.releaseCut scope then s else body (s.release scope)

/-- A record of 256 bytes at va, translated as a load of that size, in a record page of the issuing task's context: the home of
its first byte (R321, R341). -/
def State.reachRecord (s : State) (va : Nat) : State × Except Trap Nat :=
  let (s1, x) := s.reach va 256 256 .read
  match x with
  | .error t => (s1, .error t)
  | .ok (.spad _) => (s1, .error Cause.resop)
  | .ok (.mem pa rc) =>
    let (s2, mine) := s1.checkRecord pa rc s1.core.sys.ctxid.toNat
    (s2, if mine then .ok pa else .error Cause.resop)

/-- The poisoned sector of n bytes at a place of device memory, lowest first. -/
def State.poisonIn (s : State) (pa n : Nat) : Option Nat :=
  ((List.range ((n + 31) / 32)).map (fun i => pa + 32 * i)).find? (fun a => s.homePoison ((linOf a).getD 0))

/-- The lowest poisoned sector of n bytes at pa that a request of the core at their home would meet, its own stored bytes included. -/
def State.poisonFor (s : State) (pa n : Nat) : Option Nat :=
  ((List.range ((n + 31) / 32)).map (fun i => pa + 32 * i)).find? s.atomicPoison

/-- `tpost` (R342). -/
def execTpost (d a : Reg) (s : State) : Out :=
  let va := (s.getS a).toNat
  .next (s.notVp (
    let (s1, x) := s.reachRecord va
    match x with
    | .error t => s1.fault t
    | .ok pa =>
      if s1.atomicPoison pa then ((s1.homeReady pa).homeRead ((linOf pa).getD 0 + 0x10) 4).fault (Cause.poison (va + 0x10) (pa + 0x10))
      else s1.afterRelease 3 (fun t =>
        let (s2, old, contended) := (t.homeReady pa).postBy ((linOf pa).getD 0) t.coreId
        ({ s2 with core := s2.core.bump (pa / 128) contended } : State).result d (wd old))))

/-! ## The end of a task (R329, R343) -/

/-- A thread of an ended task that still has something to complete. -/
def Thread.finishing (t : Thread) : Bool :=
  t.issue.isSome || !t.replay.isEmpty || t.rtn.isSome || t.convoy.isSome

/-- A thread of an ended task issues nothing new; what it has issued goes on, a convoy of a fetched block on the VPs that it was issued
for. -/
def Thread.endTask (t : Thread) : Thread := { t with ending := true, vp := if t.finishing then t.vp else none, wait := .none }

/-- A deferred matrix fault of an ended task drops the instructions that the queue still holds; the fault and its gate stay for the task's
record (R330). -/
def State.dropHeld (s : State) (n : Nat) : State :=
  let m := (s.coreAt n).mat
  if m.held.isSome then s.setMat n { m with queue := [] } else s

/-- Core n's team ends: no thread issues again, windows close, a chain breaks, a held fault drops the matrix queue. -/
def State.endTeam (s : State) (n : Nat) : State := (((s.mapTeam n Thread.endTask).closeWindows n).breakChain n).dropHeld n

/-- The task of the core in focus ends; its outputs and successors follow, or do not. -/
def State.endTask (s : State) (outputs : Bool) : State :=
  let s1 := match s.core.task.bind s.taskById with
    | some t =>
      let s0 := s.putTask { t with phase := .ending outputs }
      if outputs then s0.putRecState t 5 else s0
    | none => s
  s1.endTeam s1.coreId

/-- `tdone` releases the thread's earlier stores at `.pkg` (R279). It does not wait for the matrix queue, which the core completes afterwards
(R330). -/
def execTdone (s : State) : Out := .next (s.notVp (((s.release 3).endTask true).advance 4))
def execTyield (s : State) : Out := .next (s.notVp ((s.endTask false).advance 4))

/-! ## Copies, groups, counters -/

/-- A copy of a record written at its home, STATE 0, and an atomic add of 0 on its DEPS (R344). -/
def State.spawnAt (s : State) (pa : Nat) (x : Blob) : State :=
  let lin := (linOf pa).getD 0
  let s1 := (s.homeReady pa).homeReady (pa + 128)
  let s2 := State.devWriteN 8 s1 lin 256 (putB x 0x14 1 0)
  let r := s2.homeUpdate (lin + 0x10) 4 some
  if r.2 = 0 then r.1.dispatch lin else r.1

/-- `tspawn` (R344). A busy target is status 1 whatever the template's TYPE, and a poisoned target raises nothing (DESIGN CHOICE, log 70). -/
def execTspawn (d a b : Reg) (s : State) : Out :=
  let va := (s.getS a).toNat
  .next (s.notVp (
    if va % 256 ≠ 0 then s.fault (Cause.dalign va)
    else
      let (s1, x) := s.loadWords va 32
      match x with
      | .error t => s1.fault t
      | .ok ws =>
        let (s2, y) := s1.reachRecord (s1.getS b).toNat
        match y with
        | .error t => s2.fault t
        | .ok pa =>
          let tmpl := packB 8 (ws.map BitVec.toNat)
          s2.afterRelease 3 (fun t0 =>
            let lin := (linOf pa).getD 0
            let t := (t0.homeReady pa).homeRead (lin + 0x14) 1
            let held := t.recByte lin 0x14
            if held ≠ 0 ∧ held ≠ 8 then t.result d 1
            else if getB tmpl 0x16 1 ≠ 0 then t.result d 2
            else (t.spawnAt pa tmpl).result d 0)))

/-- `tgrp` (R345). -/
def execTgrp (d a : Reg) (s : State) : Out :=
  let va := (s.getS a).toNat
  .next (s.notVp (
    let (s1, x) := s.reachRecord va
    match x with
    | .error t => s1.fault t
    | .ok pa =>
      match s1.poisonFor pa 256 with
      | some p => (((s1.homeReady pa).homeReady (pa + 128)).readRec ((linOf pa).getD 0)).fault (Cause.poison (va + (p - pa)) p)
      | none =>
        s1.afterRelease 3 (fun t0 =>
          let lin := (linOf pa).getD 0
          let t := ((t0.homeReady pa).homeReady (pa + 128)).readRec lin
          if t.recByte lin 0x14 ≠ 0 ∧ t.recByte lin 0x14 ≠ 8 then t.result d 2
          else
            let r := t.startGroup lin t.core.sys.ctxid.toNat
            r.1.result d (if r.2 then 1 else 0))))

/-- A counter object of 32 bytes at va, translated as a load of that size, in device memory (R341, R346). -/
def State.reachCounter (s : State) (va : Nat) : State × Except Trap Nat :=
  let (s1, x) := s.reach va 32 32 .read
  match x with
  | .error t => (s1, .error t)
  | .ok (.spad _) => (s1, .error Cause.resop)
  | .ok (.mem pa _) =>
    match s1.place pa with
    | .media lin => if s1.atomicPoison pa then ((s1.homeReady pa).homeRead lin 24, .error (Cause.poison va pa)) else (s1, .ok pa)
    | .host _ | .peer _ _ | .cfg _ | .none => (s1, .error Cause.resop)

/-- `cntarm` at its counter's home: the status (R346). `arm` is the record address given, with its home, or none to disarm. -/
def State.arm (s : State) (lin : Nat) (arm : Option (Word × Nat)) : State × Nat :=
  if bit (s.homeBytes (lin + 8) 8) 63 then (s, 3)
  else
    match arm with
    | none => (s.disarm lin, 0)
    | some (va, r) =>
      if (s.armed lin).isSome then (s, 2)
      else if s.homeBytes lin 7 = 0 then ((s.postBy r s.coreId).1, 1)
      else
        let s1 := s.homeWrite (lin + 16) 8 va.toNat false
        ({ s1 with store := { s1.store with marks := (lin, r) :: s1.store.marks } }, 0)

/-- `cntarm` (R346). A posting is a release as `tpost`'s is. -/
def execCntarm (d a b : Reg) (s : State) : Out :=
  let vb := s.getS b
  .next (s.notVp (
    let (s1, x) := s.reachCounter (s.getS a).toNat
    match x with
    | .error t => s1.fault t
    | .ok pa =>
      let (s2, y) := if vb = 0 then (s1, .ok 0) else s1.reachRecord vb.toNat
      match y with
      | .error t => s2.fault t
      | .ok rpa =>
        s2.afterRelease 3 (fun t0 =>
          let t := (t0.homeReady pa).homeRead ((linOf pa).getD 0) 24
          let r := t.arm ((linOf pa).getD 0) (if vb = 0 then none else some (vb, (linOf rpa).getD 0))
          r.1.result d (wd r.2))))

end Sys2Proof.Machine
end

