-- ==== Sys2Proof/Machine/Queues.lean ====
section
/-! DEFINITION. Queue objects: headers, operations at home, routers and crossover, the queue instructions (11 R245–R246;
13 R305–R318; 20 R398–R399). -/

namespace Sys2Proof.Machine

/-! ## Headers (R305) -/

/-- The fields of a header. -/
structure QHdr where
  kind : Nat
  esz : Nat
  win : Nat
  cap : Nat
  count : Nat
  head : Nat
  tail : Nat
  npush : Nat
  npop : Nat
deriving DecidableEq, Repr

def parseQ (x : Blob) : QHdr :=
  { kind := getBits x 0 2, esz := getBits x 3 1, win := getBits x 8 6, cap := getBits x 192 32, count := getBits x 224 32,
    head := getBits x 256 32, tail := getBits x 288 32, npush := getBits x 320 64, npop := getBits x 384 64 }

/-- Bytes of an entry. -/
def QHdr.size (h : QHdr) : Nat := if h.esz = 1 then 16 else 8

/-- The object at pa with cap entries of size bytes lies in one window and outside the metadata bytes. -/
def State.ringOk (s : State) (pa cap size : Nat) : Bool :=
  let e := pa + 128 + cap * size - 1
  match s.place pa, s.place e with
  | .media x, .media y => if pa < 2 ^ 39 then decide (e < 2 ^ 39) && x / 2 ^ 36 == y / 2 ^ 36 else true
  | .peer i _, .peer j y =>
    let o := pa % 2 ^ 46
    i == j && !isMetadata y &&
      (if o < 2 ^ 39 then decide (e % 2 ^ 46 < 2 ^ 39) && o / 2 ^ 36 == e % 2 ^ 46 / 2 ^ 36 else true)
  | _, _ => false

def qReserved (x : Blob) : Bool := bit x 2 || getBits x 4 4 != 0 || getBits x 14 178 != 0 || getBits x 512 512 != 0

def State.qMalformed (s : State) (pa : Nat) (x : Blob) : Bool :=
  let h := parseQ x
  qReserved x || h.cap == 0 || decide (2 ^ 24 < h.cap) || decide (h.cap ≤ h.head) || decide (h.cap ≤ h.tail) ||
    decide (h.cap < h.count) || !s.ringOk pa h.cap h.size

/-! ## Bytes of an object at its home -/

/-- n bytes within 128 of a header or entry, and the lowest poisoned sector of them. -/
def State.qBytes (s : State) (pa n : Nat) : Nat × Option Nat :=
  match s.place pa with
  | .media _ => ((s.devBytesN 5 pa n).1, s.poisonIn (pa / 32 * 32) n)
  | .peer j lin => (((look s.store.peer j.val).getD []).readN lin n, none)
  | .host _ | .cfg _ | .none => (0, none)

/-- n bytes within one sector written. -/
def State.qPut (s : State) (pa n v : Nat) : State :=
  match s.place pa with
  | .media lin => s.quietWrite lin n v
  | .peer j lin =>
    { s with store := { s.store with
        peer := assoc s.store.peer j.val (((look s.store.peer j.val).getD []).writeN lin n v) } }
  | .host _ | .cfg _ | .none => s

/-- Home watchpoints see one access to n bytes within a line (R318). -/
def State.qNote (s : State) (pa n : Nat) (r w : Bool) : State :=
  match s.place pa with
  | .media lin => s.noteAccess (if n = 128 then lineMasks (lin / 128) else [(lin / 32, maskB (lin % 32) n)]) r w
  | .host _ | .peer _ _ | .cfg _ | .none => s

/-- A request for the line at pa comes to its home, which recalls it from a core that holds it exclusive and wakes its bank (R255, R283,
R297). -/
def State.qOpen (s : State) (pa : Nat) : State :=
  match s.place pa with
  | .media lin =>
    let s1 := s.recall (lin / 128) none
    { s1 with store := s1.store.wake (homeBank lin) }
  | .host _ | .peer _ _ | .cfg _ | .none => s

/-- COUNT, HEAD, TAIL, NPUSH and NPOP written (R306). -/
def State.qStore (s : State) (pa : Nat) (h : QHdr) : State :=
  (s.qPut (pa + 28) 4 h.count).qPut (pa + 32) 24
    (h.head + 2 ^ 32 * h.tail + 2 ^ 64 * (h.npush % 2 ^ 64) + 2 ^ 128 * (h.npop % 2 ^ 64))

/-! ## Operations at home (R306, R316, R317) -/

/-- A control word of `qinit` that breaks R317. -/
def State.qBadControl (s : State) (pa : Nat) (v : Word) : Bool :=
  let cap := field v 32 25
  field v 2 1 != 0 || field v 4 4 != 0 || field v 14 18 != 0 || field v 57 7 != 0 || cap == 0 || decide (2 ^ 24 < cap) ||
    !s.ringOk pa cap (if bit v.toNat 3 then 16 else 8)

def State.qInitAt (s : State) (pa : Nat) (v : Word) : State × QAns :=
  if s.qBadControl pa v then (s, .status 1)
  else
    let s1 := s.qPut pa 32 (v.toNat % 2 ^ 14 + 2 ^ 192 * field v 32 25)
    ((((s1.qPut (pa + 32) 32 0).qPut (pa + 64) 32 0).qPut (pa + 96) 32 0).qNote pa 128 false true, .status 0)

def State.qPushAt (s : State) (pa : Nat) (h : QHdr) (lo hi : Word) : State × QAns :=
  if h.count = h.cap then (s.qNote pa 128 true false, .full)
  else
    let e := pa + 128 + h.tail * h.size
    let s1 := (s.qPut e h.size (lo.toNat + 2 ^ 64 * hi.toNat)).qNote e h.size false true
    ((s1.qStore pa { h with tail := (h.tail + 1) % h.cap, count := h.count + 1, npush := h.npush + 1 }).qNote pa 128 true true,
      .done)

def State.qTakeAt (s0 : State) (pa : Nat) (h : QHdr) (steal : Bool) : State × QAns :=
  if h.count = 0 then (s0.qNote pa 128 true false, .empty)
  else
    let oldest := steal || h.kind == 0 || h.kind == 2
    let last := (h.tail + h.cap - 1) % h.cap
    let i := if oldest then h.head else last
    let s := s0.qOpen (pa + 128 + i * h.size)
    let r := s.qBytes (pa + 128 + i * h.size) h.size
    match r.2 with
    | some p => (s, .poison pa p)
    | none =>
      let g := { h with
        head := if oldest then (h.head + 1) % h.cap else h.head
        tail := if oldest then h.tail else last
        count := h.count - 1, npop := h.npop + 1 }
      ((s.qStore pa g).qNote pa 128 true true, .entry (wd r.1) (wd (r.1 / 2 ^ 64)))

/-- The operation at the home of the object at pa. -/
def State.qAt (s : State) (op : QOp) (e16 : Bool) (lo hi : Word) (pa : Nat) : State × QAns :=
  if op = .init then s.qInitAt pa lo
  else
    let r := s.qBytes pa 128
    match r.2 with
    | some p => (s, .poison pa p)
    | none =>
      let h := parseQ r.1
      if s.qMalformed pa r.1 then (if op = .count then s else s.qNote pa 128 true false, .bad 1)
      else if op = .count then (s, .count h.count)
      else if e16 ≠ (h.esz == 1) then (s.qNote pa 128 true false, .bad 2)
      else
        match op with
        | .push => s.qPushAt pa h lo hi
        | .pop => s.qTakeAt pa h false
        | .steal => s.qTakeAt pa h true
        | .count | .init => (s, .count h.count)

/-- A push that the Lift performs at home on a queue of 16-byte entries: whether it was performed (R339). -/
def State.homePush (s : State) (pa : Nat) (w0 w1 : Word) : State × Bool :=
  match s.place pa with
  | .media _ =>
    if pa % 128 ≠ 0 then (s, false)
    else
      let r := (s.qOpen pa).qAt .push true w0 w1 pa
      (r.1, r.2 == .done)
  | .host _ | .peer _ _ | .cfg _ | .none => (s, false)

/-! ## The queue kind cache (R309) -/

def Core.kindPut (c : Core) (e : KEntry) : Core := { c with kcache := (e :: c.kcache.filter (fun x => x.addr != e.addr)).take 16 }

/-- A reply from home carries the header's KIND, ESZ and W, which core n keeps. A poisoned header gives none. -/
def State.keepKind (s : State) (n pa : Nat) : State :=
  let r := s.qBytes pa 128
  match r.2 with
  | some _ => s
  | none =>
    let h := parseQ r.1
    if 1536 ≤ n then s
    else s.setCore n ((s.coreAt n).kindPut { addr := pa, kind := h.kind, esz := h.esz, win := h.win })

/-- The window with which core n stamps an operation as pairable, none where it is not. -/
def Core.pairWindow (c : Core) (op : QOp) (pa : Nat) (e16 : Bool) : Option Nat :=
  if op = .push ∨ op = .pop then
    (c.kcache.find? (fun e => e.addr == pa && decide (e.kind ≤ 1) && (e.esz == 1) == e16)).map (·.win)
  else none

/-! ## Routes (R245) -/

/-- A router's number: 64 for each die, compute routers first, then slice routers. -/
def routerNo (die layer r : Nat) : Nat := die * 64 + layer * 32 + r

/-- Sockets 16 (the host link) and 17 (the peer ports) as routers. -/
def socketNo (socket : Nat) : Nat := socket * 64

/-- Columns, or rows, passed on the way from x to y. -/
def between (x y : Nat) : List Nat :=
  if x ≤ y then (List.range (y - x)).map (fun i => x + 1 + i) else (List.range (x - y)).map (fun i => x - 1 - i)

/-- The routers of a layer that a message enters on its way along X, then Y. -/
def walkXY (die layer x y x1 y1 : Nat) : List Nat :=
  (between x x1).map (fun i => routerNo die layer (8 * y + i)) ++ (between y y1).map (fun j => routerNo die layer (8 * j + x1))

/-- The column at which it enters die e. -/
def entryColumn (d e x : Nat) : Nat := if d % 4 = e % 4 then exitColumn d e x else 7 - exitColumn d e x

/-- The edge column nearer a column. -/
def nearEdge (x : Nat) : Nat := if x ≤ 3 then 0 else 7

/-- The routers that a message enters after router `src` on its way to router `dst`; either may be a socket. Within a die it goes along X,
then Y, then Z. Towards another die it goes up first when it starts at a slice router, leaves in its own row by the exit edge, and enters
in that row; from a socket it enters in the row of its destination, which R245 leaves open (log 54). -/
def route (src dst : Nat) : List Nat :=
  let x := src % 8
  let y := src % 32 / 8
  let x1 := dst % 8
  let y1 := dst % 32 / 8
  let d := src / 64
  let e := dst / 64
  let up := if 32 ≤ src % 64 then [routerNo d 0 (src % 32)] else []
  let down := if 32 ≤ dst % 64 then [dst] else []
  if d = e then
    walkXY d (src % 64 / 32) x y x1 y1 ++ (if src % 64 / 32 = dst % 64 / 32 then [] else [dst])
  else if 8 ≤ e then up ++ walkXY d 0 x y (nearEdge x) y ++ [dst]
  else if 8 ≤ d then routerNo e 0 (8 * y1 + nearEdge x1) :: walkXY e 0 (nearEdge x1) y1 x1 y1 ++ down
  else
    up ++ walkXY d 0 x y (exitColumn d e x) y ++ routerNo e 0 (8 * y + entryColumn d e x) ::
      walkXY e 0 (entryColumn d e x) y x1 y1 ++ down

/-- The slice router above which a linear address is homed. -/
def homeRouter (lin : Nat) : Nat := routerNo (homeDie lin) 1 (sliceHash lin)

/-- The routers that a message of core n enters on its way to the home of a linear address. -/
def routeTo (n lin : Nat) : List Nat :=
  let r := routerNo (dieOf n) 0 (routerOf n)
  r :: route r (homeRouter lin)

/-- The port by which a message enters a router from another (R310): west, east, north, south, up, down, interposer. -/
def portOf (old new : Nat) : Nat :=
  if old / 64 ≠ new / 64 then 12
  else if old / 32 ≠ new / 32 then 10
  else
    let x := new % 8
    let u := old % 8
    let y := new % 32 / 8
    let v := old % 32 / 8
    if u < x then 6 else if x < u then 7 else if v < y then 8 else if y < v then 9 else 0

/-- The port by which a message enters the next router of its path: its core's slot at the first. -/
def QMsg.port (m : QMsg) : Nat :=
  match m.path with
  | r :: _ => if m.router = r then m.core % 6 else portOf m.router r
  | [] => 0

/-! ## Messages -/

def State.msgById (s : State) (id : Nat) : Option QMsg := s.fab.msgs.find? (fun m => m.id == id)

def State.setMsgs (s : State) (ms : List QMsg) : State := s.setFab { s.fab with msgs := ms }

def State.putMsg (s : State) (m : QMsg) : State :=
  s.setMsgs (s.fab.msgs.map (fun x => if x.id == m.id then m else x))

def State.dropMsg (s : State) (id : Nat) : State := s.setMsgs (s.fab.msgs.filter (fun x => x.id != id))

/-- The answer reaches the thread that waits for message id; that of an operation from outside leaves the module. -/
def State.answer (s : State) (m : QMsg) (a : QAns) : State :=
  let t := s.threadAt m.core m.slot
  match t.wait with
  | .queue id _ => if id = m.id then s.setThread m.core m.slot { t with qans := some a } else s
  | .none | .pause _ | .tbar | .mwait | .saving | .stopped _ => s

/-- The operation leaves the core in focus, whose thread waits for its answer in instruction i. One for a peer's memory goes to the edge
of the die and pairs only in that module's routers (R245, R312). -/
def State.sendQueue (s : State) (op : QOp) (pa : Nat) (e16 : Bool) (lo hi : Word) (i : Instr) : State :=
  let p := s.core.pairWindow op pa e16
  let lin := (linOf pa).getD 0
  let path := match s.place pa with
    | .media _ => routeTo s.coreId lin
    | .peer _ _ =>
      let r := routerNo (dieOf s.coreId) 0 (routerOf s.coreId)
      r :: route r (socketNo 17)
    | _ => []
  let near := match s.place pa with | .media _ => p.isSome | _ => false
  let id := s.fab.nextId
  let m : QMsg :=
    { id, op, core := s.coreId, slot := s.slot.val, hdr := pa, lin, e16, lo, hi, pairable := near, win := p.getD 0,
      router := path.headD 0, path, at_ := s.time + nclk, place := .moving, mate := 0 }
  let s1 := match s.place pa with | .media _ => s.homeReady pa | _ => s
  let c := match s1.core.kcache.find? (fun e => e.addr == pa) with
    | some e => if op = .init then { s1.core with kcache := s1.core.kcache.filter (fun e => e.addr != pa) }
                else if p.isSome then s1.core.kindPut e else s1.core
    | none => s1.core
  { s1 with
    core := c
    fab := { s1.fab with msgs := s1.fab.msgs ++ [m], nextId := id + 1 }
    th := { s1.th with wait := .queue id i, qans := none } }

/-- A queue operation on the object at va, translated to pa (R391). -/
def State.sendFrom (s : State) (va : Nat) (op : QOp) (pa : Nat) (e16 : Bool) (lo hi : Word) (i : Instr) : State :=
  (s.sendQueue op pa e16 lo hi i).noteUse s.fab.nextId va

/-! ## Routers (R310, R311, R399) -/

def QPlace.isHeld : QPlace → Bool
  | .held _ => true
  | .moving | .queued | .matched | .notice | .ack => false

/-- The message stands in router r, held or behind an earlier one. -/
def QMsg.inRouter (m : QMsg) (r : Nat) : Bool := m.router == r && (m.place.isHeld || m.place == .queued)

/-- The router at which a message starts: its core's, or the socket of the host link or of the peer ports. -/
def QMsg.source (m : QMsg) : Nat :=
  if m.core < 1536 then routerNo (dieOf m.core) 0 (routerOf m.core) else if m.core = 2048 then socketNo 16 else socketNo 17

/-- Two messages that a router keeps in order: one source router, one destination slice (R246, R310). -/
def QMsg.sameWay (m n : QMsg) : Bool := m.source == n.source && homeSlice m.lin == homeSlice n.lin

/-- The message leaves its router one hop later. -/
def QMsg.forward (m : QMsg) (now : Nat) : QMsg := { m with place := .moving, at_ := now + nclk }

/-- Messages of one way in a router leave it in order, up to the first that is held. -/
def forwardFrom (r now : Nat) (of : QMsg) : Bool → List QMsg → List QMsg
  | _, [] => []
  | stuck, m :: ms =>
    if m.inRouter r && m.sameWay of then
      if stuck || m.place.isHeld then m :: forwardFrom r now of true ms else m.forward now :: forwardFrom r now of false ms
    else m :: forwardFrom r now of stuck ms

def State.forwardWay (s : State) (r : Nat) (of : QMsg) : State := s.setMsgs (forwardFrom r s.time of false s.fab.msgs)

/-- A held operation, its W cycles not over, that an entering one meets in the NCLK cycle of a time. -/
def QMsg.meets (h m : QMsg) (r now : Nat) : Bool :=
  h.router == r && (match h.place with | .held u => decide (now / nclk < u / nclk) | _ => false) && h.hdr == m.hdr && h.e16 == m.e16 &&
    ((h.op == .push && m.op == .pop) || (h.op == .pop && m.op == .push))

/-- A match: both operations wait until their pair notice has been acknowledged. -/
def State.pair (s : State) (h m : QMsg) (r : Nat) : State :=
  let id := s.fab.nextId
  let note : QMsg :=
    { h with id, op := .push, pairable := false, win := 0, router := r, path := [], at_ := s.time + nclk * (m.path.length + 1),
             place := .notice, mate := h.id }
  let s1 := (s.putMsg { h with place := .matched, mate := m.id }).putMsg { m with place := .matched, mate := h.id }
  (s1.setFab { s1.fab with msgs := s1.fab.msgs ++ [note], nextId := id + 1 }).forwardWay r h

/-- The message enters the next router of its path. -/
def State.enterRouter (s : State) (m : QMsg) (r : Nat) (rest : List Nat) : State :=
  let m1 := { m with router := r, path := rest }
  let s1 := s.setMsgs (s.fab.msgs.filter (fun x => x.id != m.id) ++ [m1])
  let table := s1.fab.msgs.filter (fun x => x.router == r && x.place.isHeld)
  match (if m.pairable then table.find? (fun h => h.meets m1 r s.time) else none) with
  | some h => s1.pair h m1 r
  | none =>
    let place := if m.pairable && m.win != 0 && decide (table.length < 16) then QPlace.held (s.time + m.win * nclk) else .queued
    (s1.putMsg { m1 with place }).forwardWay r m1

/-- The place of a kind of operation among those that reach one object in one NCLK cycle (R307). -/
def QOp.rank : QOp → Nat
  | .init => 0 | .push => 1 | .pop => 2 | .steal => 3 | .count => 4

/-- The order of messages that enter one router, by NCLK cycle and port (R310), or that reach one object at home, by NCLK cycle, kind and
source (R307); then the order in which they were sent. -/
def QMsg.turn (m : QMsg) : Nat × Nat × Nat :=
  match m.path with
  | _ :: _ => (m.at_ / nclk, m.port, m.id)
  | [] => (m.at_ / nclk, m.op.rank * 4096 + m.core, m.id)

/-- Two moving messages that come to the same router, or to the same object at home, through whichever alias (R241, R307). -/
def State.meetAt (s : State) (m x : QMsg) : Bool :=
  x.place == .moving &&
    (match m.path, x.path with
      | r :: _, q :: _ => r == q
      | [], [] => s.place m.hdr == s.place x.hdr
      | _, _ => false)

/-- The fault queue onto which the Lift is about to push a record (R339), none where it is no such time or the queue cannot be reached. -/
def State.pushDue (s : State) (t : LTask) : Option Nat :=
  if t.phase == .faulted && decide (t.tried ≤ s.time) then
    match s.ctxUsable t.ctx with
    | none => none
    | some e =>
      match s.xlateOf e.fqueue.toNat .atomic (e.rights t.ctx 1) with
      | .ok pa _ => if e.fqueue = 0 then none else some pa
      | .bad _ _ => none
  else none

/-- The place of the Lift's push in the order of R307: a source after every core, and before the host and the peers, as the model has it
(log 62). -/
def State.pushTurn (s : State) : Nat × Nat × Nat := (s.time / nclk, QOp.push.rank * 4096 + 1536, 0)

/-- A moving message takes its next step in its NCLK cycle, after every message, and at an object every push of the Lift, that
comes before it there. -/
def State.msgMayStep (s : State) (m : QMsg) : Bool :=
  m.place == .moving && decide (m.at_ / nclk ≤ s.time / nclk) &&
    s.fab.msgs.all (fun x => !(s.meetAt m x && before x.turn m.turn)) &&
    (!m.path.isEmpty || !before s.pushTurn m.turn ||
      s.fab.tasks.all (fun t => (s.pushDue t).all (fun pa => s.place pa != s.place m.hdr)))

/-- The Lift may push a faulted record: no operation comes before it at its object (R307, R339). -/
def State.pushMayRun (s : State) (t : LTask) : Bool :=
  (s.pushDue t).all (fun pa => s.fab.msgs.all (fun x =>
    !(x.place == .moving && x.path.isEmpty && s.place x.hdr == s.place pa && before x.turn s.pushTurn)))

/-- Message `ev.id` enters a router. -/
def execQueueRouterEntry (s : State) : Out :=
  .next (match s.msgById s.ev.id with
    | some m =>
      match m.path with
      | r :: rest => if s.msgMayStep m then s.enterRouter m r rest else s
      | [] => s
    | none => s)

/-- The hold of message `ev.id` ends unmatched. -/
def execCrossoverHoldExpiry (s : State) : Out :=
  .next (match s.msgById s.ev.id with
    | some m =>
      match m.place with
      | .held u => if u / nclk ≤ s.time / nclk then (s.putMsg { m with place := .queued }).forwardWay m.router m else s
      | .moving | .queued | .matched | .notice | .ack => s
    | none => s)

/-- Pair notice `ev.id` reaches home: PAIRS rises by 1, unless its sector is poisoned (R306), and the acknowledgement starts. -/
def execPairNotice (s : State) : Out :=
  .next (match s.msgById s.ev.id with
    | some m =>
      if m.place = .notice ∧ m.at_ / nclk ≤ s.time / nclk then
        let s0 := s.qOpen m.hdr
        let r := s0.qBytes (m.hdr + 56) 8
        let s1 := if r.2.isSome then s0 else s0.qPut (m.hdr + 56) 8 (r.1 + 1)
        s1.putMsg { m with place := .ack, at_ := m.at_ + nclk }
      else s
    | none => s)

/-- Acknowledgement `ev.id` reaches the router, which answers both operations. -/
def execPairAck (s : State) : Out :=
  .next (match s.msgById s.ev.id with
    | some m =>
      if m.place = .ack ∧ m.at_ / nclk ≤ s.time / nclk then
        let s0 := s.dropMsg m.id
        match s0.msgById m.mate with
        | some h =>
          match s0.msgById h.mate with
          | some g =>
            let push := if h.op = .push then h else g
            let pop := if h.op = .push then g else h
            (((s0.answer push .done).answer pop (.entry push.lo push.hi)).dropMsg push.id).dropMsg pop.id
          | none => s0
        | none => s0
      else s
    | none => s)

/-- Message `ev.id` is performed at home, and its answer returns. One on its way to a peer whose port has gone down is answered with NOMEM
(R401, R404). -/
def execQueueOpAtHome (s : State) : Out :=
  .next (match s.msgById s.ev.id with
    | some m =>
      if m.path = [] ∧ s.msgMayStep m = true then
        match s.place m.hdr with
        | .none => (s.answer m (.nomem m.hdr)).dropMsg m.id
        | .media _ | .host _ | .peer _ _ | .cfg _ =>
          let r := (s.qOpen m.hdr).qAt m.op m.e16 m.lo m.hi m.hdr
          ((r.1.keepKind m.core m.hdr).answer m r.2).dropMsg m.id
      else s
    | none => s)

/-! ## Queue instructions (R313–R317); none is VP-safe -/

/-- The place of a header for an operation at issue: alignment, QBAD cause 3, RESOP, translation, presence (R312, R314, R405). -/
def State.headerAt (s : State) (x : Nat) (need : Need) : State × Except Trap Nat :=
  if x % 128 ≠ 0 then (s, .error (Cause.dalign x))
  else if inSpw x then (s, .error (Cause.qbad 3 x))
  else
    let (s1, t) := s.translate x need
    match t with
    | .bad sub fpa => (s1, .error (Cause.xlate sub x fpa))
    | .ok pa _ =>
      match s1.place pa with
      | .host _ => (s1, .error (Cause.qbad 3 x))
      | .cfg _ => (s1, .error Cause.resop)
      | .none => (s1, .error (Cause.nomem x pa))
      | .media _ | .peer _ _ => (s1, .ok pa)

/-- The same, and then watchpoints (R318). -/
def State.reachHeader (s : State) (x : Nat) (need : Need) : State × Except Trap Nat :=
  let (s1, t) := s.headerAt x need
  match t with
  | .error e => (s1, .error e)
  | .ok pa =>
    let (s2, w) := s1.watchAt x 128 (need != .write) (need == .write || need == .atomic)
    match w with
    | .error e => (s2, .error e)
    | .ok () => (s2, .ok pa)

/-- An operation goes out, or the one that the thread waits for has been answered. Its header is translated as an atomic's address, that of
`qinit` as a store's, those of `qcount` and `qpoll` as a load's (DEDUCED, log 69). -/
def State.queueOp (s : State) (i : Instr) (op : QOp) (x : Word) (e16 : Bool) (lo hi : Word) (fin : State → QAns → State) :
    State :=
  match s.th.wait, s.th.qans with
  | .queue _ _, some a => fin { s with th := { s.th with wait := .none, qans := none } } a
  | .queue _ _, none => s
  | _, _ =>
    s.notVp (
      let (s1, t) := s.reachHeader x.toNat (match op with | .init => .write | .count => .read | _ => .atomic)
      match t with
      | .error e => s1.fault e
      | .ok pa =>
        if op = .push then s1.afterRelease 3 (fun u => u.sendFrom x.toNat op pa e16 lo hi i)
        else s1.sendFrom x.toNat op pa e16 lo hi i)

/-- What an answer that is no success comes to (R314). -/
def State.queueFail (s : State) (x : Word) (nb : Bool) (k : KReg) (a : QAns) : State :=
  match a with
  | .empty => if nb then (s.setK k 0).advance 4 else s.fault (Cause.qempty x.toNat)
  | .full => if nb then (s.setK k 0).advance 4 else s.fault (Cause.qfull x.toNat)
  | .bad c => s.fault (Cause.qbad c x.toNat)
  | .poison hdr pa => s.fault (Cause.poison (x.toNat + (pa - hdr)) pa)
  | .nomem pa => s.fault (Cause.nomem x.toNat pa)
  | .done | .entry _ _ | .count _ | .status _ => s

def State.setKnb (s : State) (nb : Bool) (k : KReg) : State := if nb then s.setK k (BitVec.allOnes 64) else s

/-- The register after r, for the second word of an entry. -/
def nextReg (r : Reg) : Reg := r + 1

def execQpush (e16 nb : Bool) (k : KReg) (a b : Reg) (s : State) : Out :=
  let x := s.getS a
  .next (s.queueOp (.qpush e16 nb k a b) .push x e16 (s.getS b) (if e16 then s.getS (nextReg b) else 0) (fun t ans =>
    match ans with
    | .done => (t.setKnb nb k).advance 4
    | .entry _ _ | .empty | .full | .bad _ | .poison _ _ | .nomem _ | .count _ | .status _ => t.queueFail x nb k ans))

/-- `qpop` and `qsteal`: an entry is an acquire at `.pkg` before its registers are written (R315). -/
def State.take (s : State) (i : Instr) (op : QOp) (e16 nb : Bool) (d a : Reg) (k : KReg) : State :=
  let x := s.getS a
  s.queueOp i op x e16 0 0 (fun t ans =>
    match ans with
    | .entry lo hi =>
      let u := (t.acquire 3).setS d lo
      ((if e16 then u.setS (nextReg d) hi else u).setKnb nb k).advance 4
    | .done | .empty | .full | .bad _ | .poison _ _ | .nomem _ | .count _ | .status _ => t.queueFail x nb k ans)

def execQpop (e16 nb : Bool) (d a : Reg) (k : KReg) (s : State) : Out := .next (s.take (.qpop e16 nb d a k) .pop e16 nb d a k)
def execQsteal (e16 nb : Bool) (d a : Reg) (k : KReg) (s : State) : Out :=
  .next (s.take (.qsteal e16 nb d a k) .steal e16 nb d a k)

def execQcount (d a : Reg) (s : State) : Out :=
  let x := s.getS a
  .next (s.queueOp (.qcount d a) .count x false 0 0 (fun t ans =>
    match ans with
    | .count c => t.result d (wd c)
    | .done | .entry _ _ | .empty | .full | .bad _ | .poison _ _ | .nomem _ | .status _ => t.queueFail x false 0 ans))

def execQinit (d a b : Reg) (s : State) : Out :=
  let x := s.getS a
  .next (s.queueOp (.qinit d a b) .init x false (s.getS b) 0 (fun t ans =>
    match ans with
    | .status c => t.result d (wd c)
    | .done | .entry _ _ | .empty | .full | .bad _ | .poison _ _ | .nomem _ | .count _ => t.queueFail x false 0 ans))

/-- The entries of a poll table from entry j on: each one selected that names a queue object in device memory is queried at its home, one
after the other, and the thread waits for each answer; it alone is an access that watchpoints see. An entry that R316 gives bit 0 is passed
over (R316, R318). -/
def State.pollNext (s : State) (i : Instr) (sel : Word) (d : Reg) : Nat → Nat → List Word → State
  | _, bits, [] => ({ s with th := { s.th with polling := none } } : State).result d (wd bits)
  | j, bits, x :: xs =>
    if sel.getLsbD j && x != 0 then
      let (s1, t) := s.headerAt x.toNat .read
      match t with
      | .error _ => s1.pollNext i sel d (j + 1) bits xs
      | .ok pa =>
        match s1.place pa with
        | .media _ =>
          let (s2, w) := s1.watchAt x.toNat 128 true false
          match w with
          | .error e => s2.fault e
          | .ok () => ({ s2 with th := { s2.th with polling := some (j, bits, xs) } } : State).sendFrom x.toNat .count pa false 0 0 i
        | .host _ | .peer _ _ | .cfg _ | .none => s1.pollNext i sel d (j + 1) bits xs
    else s.pollNext i sel d (j + 1) bits xs

/-- A query found a COUNT that is not 0; a malformed or poisoned header gives bit 0. -/
def QAns.some? : QAns → Bool
  | .count c => c != 0
  | .done | .entry _ _ | .empty | .full | .bad _ | .poison _ _ | .nomem _ | .status _ => false

/-- The 8 words of a poll table, read as a plain load. -/
def State.readTable (s : State) (tg : Target) (va : Nat) : State × Except Trap (List Word) :=
  (List.range 8).foldl (fun (x : State × Except Trap (List Word)) j =>
    match x.2 with
    | .error _ => x
    | .ok ws =>
      let at_ := match tg with | .spad off => Target.spad (off + 8 * j) | .mem pa rc => .mem (pa + 8 * j) rc
      let (s1, v, p) := x.1.readAt .plain at_ 8
      match p with
      | some pa => (s1, .error (Cause.poison (va + 8 * j) pa))
      | none => (s1, .ok (ws ++ [wd v]))) (s, .ok [])

def execQpoll (d a : Reg) (k : KReg) (s : State) : Out :=
  let va := (s.getS a).toNat
  .next (
    match s.th.wait, s.th.qans, s.th.polling with
    | .queue _ _, some ans, some (j, bits, xs) =>
      ({ s with th := { s.th with wait := .none, qans := none } } : State).pollNext (.qpoll d a k) (s.getK k) d (j + 1)
        (bits + if ans.some? then 2 ^ j else 0) xs
    | .queue _ _, _, _ => s
    | _, _, _ =>
      s.notVp (
        let (s1, t) := s.reach va 64 64 .read
        match t with
        | .error e => s1.fault e
        | .ok tg =>
          let (s2, ws) := s1.readTable tg va
          match ws with
          | .error e => s2.fault e
          | .ok ws => s2.pollNext (.qpoll d a k) (s.getK k) d 0 0 ws))

/-- A queue operation of the host or of a peer module comes in at the socket of its link (R245, R307, R312). -/
def State.outsideQueue (s : State) (port : Option (Fin 8)) (op : QOp) (pa : Nat) (e16 : Bool) (lo hi : Word) (win : Option Nat) :
    State :=
  match s.place pa with
  | .media lin =>
    let from_ := match port with | none => socketNo 16 | some _ => socketNo 17
    let m : QMsg :=
      { id := s.fab.nextId, op, core := match port with | none => 2048 | some j => 2049 + j.val
        slot := 0, hdr := pa, lin, e16, lo, hi
        pairable := win.isSome && (op == .push || op == .pop), win := win.getD 0 % 64, router := from_
        path := route from_ (homeRouter lin), at_ := s.time + nclk, place := .moving, mate := 0 }
    if pa % 128 = 0 then s.setFab { s.fab with msgs := s.fab.msgs ++ [m], nextId := m.id + 1 } else s
  | .host _ | .peer _ _ | .cfg _ | .none => s

end Sys2Proof.Machine
end

