-- ==== Sys2Proof/Machine/LiftRun.lean ====
section
/-! DEFINITION. The Lift at work: placement and staging, start, reclaim, ageing, segment reports, group issue, the fault queue
(02 R27–R28, R39; 10 R236–R237; 14 R325–R339, R343; 16 R381, R393; 22 R406, R414). -/

namespace Sys2Proof.Machine

/-- Ticks of a microsecond. -/
def usec : Nat := 8000

/-! ## Copies between a context's memory and the device (R328, R329, R347, R414) -/

/-- m bytes within one sector that an engine reads at a physical address, and whether they are poisoned; none where no engine
reads. -/
def State.chunkRead (s : State) (pa m : Nat) : State × Option (Nat × Bool) :=
  match s.place pa with
  | .media lin => let t := s.homeRead lin m; (t, some (t.homeBytes lin m, t.homePoison lin))
  | .host off => (s, some (s.store.host.readN off m, false))
  | .peer j lin => (s, some (((look s.store.peer j.val).getD []).readN lin m, false))
  | .cfg _ | .none => (s, none)

/-- m bytes within one sector that an engine writes; false where no engine writes. -/
def State.chunkWrite (s : State) (pa m v : Nat) (poison : Bool) : State × Bool :=
  match s.place pa with
  | .media lin => (s.homeWrite lin m v poison, true)
  | .host off => ({ s with store := { s.store with host := s.store.host.writeN off m v } }, true)
  | .peer j lin =>
    ({ s with store := { s.store with
        peer := assoc s.store.peer j.val (((look s.store.peer j.val).getD []).writeN lin m v) } }, true)
  | .cfg _ | .none => (s, false)

/-- With `ev.flag` bulk data has stayed uncorrectable on its links: what an engine of die `die` moves to or from a place across a link
arrives poisoned (R247). -/
def State.spoilt (s : State) (die pa : Nat) : Bool :=
  s.ev.flag && (match s.place pa with
    | .media lin => homeDie lin != die
    | .host _ | .peer _ _ => true
    | .cfg _ | .none => false)

/-- What an engine of die `die` moves to or from a place would have to cross a link that is down: the transfer stops (R247, R350). -/
def State.linkCut (s : State) (die pa : Nat) : Bool :=
  match s.place pa with
  | .media lin => s.engineCut die lin
  | .host _ | .peer _ _ | .cfg _ | .none => false

/-- n bytes from a virtual address into core k's scratchpad at `off`, by sectors; false where the copy stops. `fuel` bounds the
number of sectors. -/
def State.copyIn (r : Rights) (k : Nat) : Nat → State → Nat → Nat → Nat → State × Bool
  | 0, s, _, _, n => (s, n == 0)
  | fuel + 1, s, va, off, n =>
    if n = 0 then (s, true)
    else
      let m := min n (32 - va % 32)
      let (s0, p) := s.xlateAs (va % 2 ^ 64) .read r
      match p with
      | .bad _ _ => (s0, false)
      | .ok pa _ =>
        if s0.linkCut (dieOf k) pa then (s0, false) else
        let (s1, x) := s0.chunkRead pa m
        match x with
        | some (v, poison) =>
          if poison || s1.spoilt (dieOf k) pa then (s1, false)
          else
            let c := s1.coreAt k
            State.copyIn r k fuel (s1.setCore k { c with spad := c.spad.writeN off m v }) (va + m) (off + m) (n - m)
        | none => (s1, false)

/-- n bytes of a scratchpad from `off` to a virtual address, copied by an engine of a die. -/
def State.copyOut (r : Rights) (die : Nat) (spad : Mem) : Nat → State → Nat → Nat → Nat → State × Bool
  | 0, s, _, _, n => (s, n == 0)
  | fuel + 1, s, va, off, n =>
    if n = 0 then (s, true)
    else
      let m := min n (32 - va % 32)
      let (s0, p) := s.xlateAs (va % 2 ^ 64) .write r
      match p with
      | .bad _ _ => (s0, false)
      | .ok pa _ =>
        if s0.linkCut die pa then (s0, false) else
        let (s1, ok) := s0.chunkWrite pa m (spad.readN off m) (s0.spoilt die pa)
        if ok then State.copyOut r die spad fuel s1 (va + m) (off + m) (n - m) else (s1, false)

/-- A step for each row of a tile while the copy goes on. -/
def eachRow (t : TileD) (f : State → Nat → Nat → State × Bool) (s : State) : State × Bool :=
  (List.range t.rows).foldl (fun x r =>
    if x.2 then f x.1 (t.addr.toNat + r * t.stride) (t.spad + r * t.rowBytes) else x) (s, true)

def eachTile (ts : List TileD) (f : TileD → State → State × Bool) (s : State) : State × Bool :=
  ts.foldl (fun x t => if x.2 then f t x.1 else x) (s, true)

/-! ## Which core a task matches (R335, R213, R381) -/

def LTask.request (t : LTask) : Nat := splitSum t.carve

/-- What does not change while the task waits: an enabled core in service, its die, lanes, position, the request against 40
granules, the lanes of a released image. -/
def State.couldRun (s : State) (t : LTask) (n : Nat) : Bool :=
  s.enabled n && !(s.coreAt n).outOfService && t.dies.getLsbD (dieOf n) &&
    (t.lanes == 0 || (t.lanes == 1 && s.lanes n == 64) || (t.lanes == 2 && s.lanes n == 48)) &&
    (t.pos == 0 || (t.pos == 1 && !isEdge n) || (t.pos == 2 && isEdge n)) && decide (t.request ≤ 40) &&
    (t.image.isNone || (decide (t.mn ≤ s.lanes n) && (t.portv || s.lanes n == t.vn)))

/-- The core is idle and has the granules. -/
def State.matches_ (s : State) (t : LTask) (n : Nat) : Bool :=
  s.couldRun t n && (s.coreAt n).task.isNone && decide (t.request ≤ (s.coreAt n).freeGranules)

/-- The translation of the address of the first input tile, none where there is no tile. -/
def State.firstTile (s : State) (t : LTask) : Option (State × Xlated) :=
  t.ins.head?.map (fun i => s.ctxXlate t.ctx i.addr.toNat .read 0)

/-- The home slice of the first input tile, else of the record. -/
def State.homeRouter (s : State) (t : LTask) : Nat :=
  match s.firstTile t with
  | some (_, .ok pa _) => (match s.place pa with | .media lin => sliceHash lin | _ => sliceHash t.rec_)
  | some (_, .bad _ _) | none => sliceHash t.rec_

def absDiff (x y : Nat) : Nat := (x - y) + (y - x)

def hopsTo (n router : Nat) : Nat := absDiff (routerOf n % 8) (router % 8) + absDiff (routerOf n / 8) (router / 8)

/-- The order of preference among matching cores: last split, hops, linear number. -/
def State.rank (s : State) (t : LTask) (router n : Nat) : Nat × Nat × Nat :=
  (if (s.coreAt n).lastSplit == some t.carve then 0 else 1, hopsTo n router, n)

/-- The core of a die that the Lift chooses for a task, none where none matches. -/
def State.bestCore (s : State) (t : LTask) (die : Nat) : Option Nat :=
  let router := s.homeRouter t
  ((List.range 192).map (fun i => 192 * die + i)).foldl (fun (b : Option Nat) n =>
    if s.matches_ t n then
      match b with
      | none => some n
      | some m => if before (s.rank t router n) (s.rank t router m) then some n else some m
    else b) none

/-- Some core of the module could run the task. -/
def State.placeable (s : State) (t : LTask) : Bool := (List.range 1536).any (fun n => s.couldRun t n)

/-! ## Ageing and choice (R334) -/

/-- Levels that a task has gained by waiting: one for each 64 µs. -/
def LTask.gained (t : LTask) (now : Nat) : Nat := (now - t.since) / (64 * usec)

def LTask.effective (t : LTask) : Nat := t.prio - t.aged

/-- Every READY task gains the levels it has waited for. -/
def State.ageTasks (s : State) : State :=
  s.setFab { s.fab with tasks := s.fab.tasks.map (fun t => if t.phase == .ready then { t with aged := t.gained s.time } else t) }

/-- A task put in order of entry to READY, after those that entered with it. -/
def LTask.inOrder (t : LTask) : List LTask → List LTask
  | [] => [t]
  | x :: xs => if t.since < x.since then t :: x :: xs else x :: t.inOrder xs

/-- READY tasks of a segment, in order of entry to READY. -/
def State.segTasks (s : State) (die : Nat) : List LTask :=
  (s.fab.tasks.filter (fun t => t.phase == .ready && t.seg == die)).foldl (fun l t => t.inOrder l) []

def least (l : List Nat) : Option Nat :=
  l.foldl (fun (m : Option Nat) n => match m with | none => some n | some x => some (min x n)) none

/-- Each level of a segment has a turn of contexts of its own (R334). -/
def levelKey (die level : Nat) : Nat := die * 4 + level

/-- The next task of a segment with its core, and the context turn it belongs to. -/
def State.pickTask (s : State) (die : Nat) : Option (LTask × Nat × Nat × Nat) :=
  let cand := (s.segTasks die).filterMap (fun t => (s.bestCore t die).map (fun n => (t, n)))
  match least (cand.map (fun c => c.1.effective)) with
  | none => none
  | some top =>
    let best := cand.filter (fun c => c.1.effective == top)
    let turn := (look s.fab.lastCtx (levelKey die top)).getD (0, 0)
    let weight := fun c => match s.ctxUsable c with | some e => e.liftw | none => 0
    let ctxs := best.map (fun c => c.1.ctx)
    let next := if ctxs.contains turn.1 && decide (turn.2 < weight turn.1) then some (turn.1, turn.2 + 1)
      else ((least (ctxs.filter (fun c => decide (turn.1 < c)))).orElse (fun _ => least ctxs)).map (fun c => (c, 1))
    match next with
    | none => none
    | some (c, k) => (best.find? (fun x => x.1.ctx == c)).map (fun x => (x.1, x.2, c, k))

def execLiftAging (s : State) : Out := .next s.ageTasks

/-! ## Staging (R328, R237, R338) -/

/-- The core's registers and caches as a task of context c starts from them; what outlives tasks is kept. R30 does not say which slot a new
task's barrel serves first: here slot 0 (log 1). -/
def Core.forTask (c : Core) (t : LTask) (e : CtxEntry) : Core :=
  { c with
    team := t.team, absorb := t.absorb, task := some t.id
    sys := { CoreRegs.reset with
      ctxid := BitVec.ofNat 16 t.ctx, ptroot := keep e.ptroot 51 20, lease := BitVec.ofNat 13 e.lease.toNat,
      orbase := keep e.orbase 55 6, orcnt := BitVec.ofNat 13 e.orcnt.toNat, tvec := keep e.tvec 55 2,
      carve := wd (t.carve.toNat % 2 ^ 32), taskrec := wd t.rec_, regerr := c.sys.regerr, mcvec := c.sys.mcvec,
      mcframe := c.sys.mcframe }
    watch := Vector.replicate 2 .clear, mat := .reset, spad := [], pred := [], kcache := [], rcache := [], rpend := []
    ibuf := [], imgMap := none, lastSlot := 3 }

/-- A thread of the team in slot j, standing where the task is to start (R27). -/
def LTask.thread (t : LTask) (e : CtxEntry) (n j : Nat) (gen : BitVec 32) : Thread :=
  { Thread.reset n j with
    pc := t.entry
    s := Vector.ofFn (fun (r : Fin 32) =>
      match r.val with
      | 1 => t.arg
      | 2 => wd j
      | 3 => wd t.team
      | 4 => wd t.idx.1
      | 5 => wd t.idx.2.1
      | 6 => wd t.idx.2.2
      | _ => 0)
    vec := .init (vlenOf (splitRegs t.carve) t.team t.absorb)
    tframe := e.frameArea n j
    gen }

/-- The team's threads set in core n's slots; `on` says whether they run already. -/
def State.setTeam (s : State) (n : Nat) (t : LTask) (e : CtxEntry) (on : Bool) : State :=
  (List.range 4).foldl (fun u j =>
    let gen := (u.threadAt n j).gen
    u.setThread n j (if j < t.team then { t.thread e n j gen with occ := on, acqL1 := u.seq, acqRdc := u.seq }
      else { Thread.reset n j with gen })) s

/-- Core n is idle: no task, no thread, no chain, its granules free. -/
def State.idleCore (s : State) (n : Nat) : State :=
  let s1 := (List.range 4).foldl (fun u j => u.setThread n j { Thread.reset n j with gen := (u.threadAt n j).gen }) (s.breakChain n)
  let c := s1.coreAt n
  s1.setCore n { c with task := none, spad := [], mat := .reset }

/-- Core n is idle once a task has ended on it, or has released it: the split in force becomes its last split (R393). -/
def State.vacate (s : State) (n : Nat) : State :=
  let c := s.coreAt n
  (s.setCore n { c with lastSplit := some c.split }).idleCore n

/-- The task stands staged on core n: split applied, scratchpad zero, context registers loaded, input tiles copied. A released
image takes its core and waits for its load. -/
def State.stage (s : State) (t : LTask) (e : CtxEntry) (n : Nat) : State :=
  let s1 := if splitL1 t.carve < (s.coreAt n).ways then (s.reclaimWays n (splitL1 t.carve)).reclaimRest n (splitL1 t.carve) else s
  let s2 := s1.setCore n ((s1.coreAt n).forTask t e)
  let s3 := (s2.setTeam n t e false).drainPosted
  let t1 := { t with phase := .staging, core := n, root := keep e.ptroot 51 20 }
  match t.image with
  | some _ => s3.putTask t1
  | none =>
    let s4 := (s3.putRecState t1 3).putTask t1
    let r := eachTile t.ins (fun d => eachRow d (fun u va off => State.copyIn t1.rights n (d.rowBytes / 32 + 2) u va off d.rowBytes)) s4
    if r.2 then r.1 else (r.1.idleCore n).faultTask t1 5 3 0

/-- What the Lift reads to place a task: the entry of its context, and the walk that finds the home of its first input tile (R335, R338). -/
def State.placeReads (s : State) (t : LTask) : State :=
  match (s.readCtx t.ctx).firstTile t with
  | some (u, _) => u
  | none => s.readCtx t.ctx

/-- The state that a task leaves when it cannot be placed: READY, or RUNNING for a released image. -/
def LTask.waitState (t : LTask) : Nat := if t.image.isSome then 4 else 2

/-- Segment `ev.die` serves its READY tasks: one whose context has no usable entry or that no core can run faults, else the next
of R334 is placed. -/
def execPlaceTask (s : State) : Out :=
  let s1 := s.ageTasks
  let mine := s1.segTasks s.ev.die.val
  .next (
    match mine.find? (fun t => (s1.ctxUsable t.ctx).isNone) with
    | some t => s1.faultTask t 9 t.waitState 0
    | none =>
      match mine.find? (fun t => !s1.placeable t) with
      | some t => s1.faultTask t 2 t.waitState 0
      | none =>
        match s1.pickTask s.ev.die.val with
        | none => s1
        | some (t, n, c, k) =>
          match s1.ctxUsable t.ctx with
          | none => s1
          | some e => ((s1.placeReads t).setFab { (s1.placeReads t).fab with lastCtx := assoc s1.fab.lastCtx (levelKey s.ev.die.val t.effective) (c, k) }).stage t e n)

/-- A task's start finds no pending interrupt on its core (R27, R406). -/
def State.clearIpend (s : State) (n : Nat) : State :=
  let c := s.coreAt n
  s.setCore n { c with sys := { c.sys with ipend := 0 } }

/-- Task `ev.id` starts: its threads stand in the state of R27, which is an acquire of each at `.pkg` (R279), and STATE becomes
RUNNING. -/
def execTaskStart (s : State) : Out :=
  .next (match s.taskById s.ev.id with
    | some t =>
      if t.phase = .staging ∧ t.image = none then
        let s1 := (List.range 4).foldl (fun u j =>
          if j < t.team then u.setThread t.core j { u.threadAt t.core j with occ := true, acqL1 := u.seq, acqRdc := u.seq } else u)
          s.drainPosted
        ((s1.clearIpend t.core).putRecState t 4).putTask { t with phase := .running }
      else s
    | none => s)

/-! ## Segment reports (R333) -/

/-- The segment that a READY task moves to: its own while its die has a core for it, else the lowest of its mask that has. -/
def State.betterSegment (s : State) (t : LTask) : Nat :=
  if (s.bestCore t t.seg).isSome then t.seg
  else ((List.range 8).find? (fun d => d != t.seg && t.dies.getLsbD d && (s.bestCore t d).isSome)).getD t.seg

def execSegmentReport (s : State) : Out :=
  .next (s.setFab { s.fab with
    tasks := s.fab.tasks.map (fun t => if t.phase == .ready then { t with seg := s.betterSegment t } else t)
    reported := s.time })

/-! ## The end of a task (R325, R329, R330, R343) -/

/-- Core n's ended team has completed its convoys, routines, queue operations and matrix queue. -/
def State.teamDone (s : State) (n : Nat) : Bool :=
  (s.teamSlots n).all (fun j => (s.threadAt n j).ending && !(s.threadAt n j).finishing) && (!s.matBusyAt n || (s.coreAt n).mat.held.isSome) &&
    !s.fab.msgs.any (fun m => m.core == n && m.place != .notice && m.place != .ack)

/-- Every stored byte of core n goes home. -/
def State.sendAll (s : State) (n : Nat) : State :=
  (s.coreAt n).l1.foldl (fun t l => t.writeBack n l.tag (fun _ => true)) s

/-- A release at `.pkg` of everything that core n's team has stored: its bytes go home, and its die's RDC copies under the other alias end
(R276, R282, R329). -/
def State.releaseAll (s : State) (n : Nat) : State :=
  let s1 := s.sendAll n
  let c := s1.coreAt n
  ({ s1 with store := c.sent.foldl (fun t p => t.rdcDrop (dieOf n) (otherTag p.2)) s1.store } : State).setCore n { c with sent := [] }

/-- The granules of the scratchpad, of the split that the task has ended with, that hold its outputs (R236). -/
def LTask.outGranules (t : LTask) : Nat :=
  ((List.range (splitSpad t.carve)).filter (fun g => t.outs.any (fun d =>
    decide (d.spad < 8192 * (g + 1)) && decide (8192 * g < d.spad + d.rows * d.rowBytes)))).length

/-- Core n's granules for outputs grow or shrink. -/
def State.holdOut (s : State) (n : Nat) (f : Nat → Nat) : State :=
  let c := s.coreAt n
  s.setCore n { c with heldOut := f c.heldOut }

/-- The ended task leaves its core once its team's work is complete: to FAULTED after a trap or a deferred matrix fault, to its
outputs after `tdone`, to RECLAIMED after `tyield`. -/
def State.leaveCore (s : State) (t : LTask) (outputs : Bool) : State :=
  let n := t.core
  let held := (s.coreAt n).mat.held
  let gate := (s.coreAt n).mat.gate
  let spad := (s.coreAt n).spad
  let t1 := { t with phase := .outputs, held := spad, carve := (s.coreAt n).split }
  let s1 := (s.releaseAll n).vacate n
  match held with
  | some h =>
    if t.cause = 3 then s1.faultTask t 3 4 0
    else s1.faultTask t 8 (if outputs then 5 else 4) (h.cause % 16 * 2 ^ 16 + gate % 256 * 2 ^ 24)
  | none =>
    if t.cause = 3 then s1.faultTask t 3 4 0
    else if outputs then
      (s1.putTask t1).holdOut n (fun h => h + t1.outGranules)
    else (s1.putRecState t 8).dropTask t.id

/-- One successor entry applied with the rights of the ended task; false where it is skipped. -/
def State.applySucc (s : State) (r : Rights) (e : Option (Word × Word)) : State × Bool :=
  match e with
  | none => (s, false)
  | some (target, w) =>
    if field w 56 7 ≠ 0 then (s, false)
    else
      let (s1, p) := s.xlateAs target.toNat .atomic r
      match p with
      | .bad _ _ => (s1, false)
      | .ok pa rc =>
        match s1.place pa with
        | .media lin =>
          if bit w.toNat 63 then
            if target.toNat % 32 = 0 ∨ (target.toNat % 256 = 0x18 ∧ rc = true) then s1.decrement lin (field w 0 56) else (s1, false)
          else if target.toNat % 256 ≠ 0 then (s1, false)
          else
            let (s2, mine) := s1.checkRecord pa rc r.ctx
            if mine = false then (s2, false)
            else if s2.homePoison lin then (s2.homeRead (lin + 0x10) 4, false)
            else ((s2.postRecord lin).1, true)
        | .host _ | .peer _ _ | .cfg _ | .none => (s1, false)

/-- The successor list applied in order: whether every entry was. -/
def State.applySuccs (s : State) (t : LTask) : State × Bool :=
  match t.succs with
  | none => (s, false)
  | some es => es.foldl (fun x e => let r := x.1.applySucc t.rights e; (r.1, x.2 && r.2)) (s, true)

/-- The outputs of an ended task go home, its successors follow, and its record is RECLAIMED. -/
def State.finishTask (s : State) (t : LTask) : State :=
  let r := eachTile t.outs (fun d =>
    eachRow d (fun u va off => State.copyOut t.rights (dieOf t.core) t.held (d.rowBytes / 32 + 2) u va off d.rowBytes)) s
  let s1 := r.1.holdOut t.core (fun h => h - t.outGranules)
  if r.2 = false then s1.faultTask t 6 5 0
  else
    let q := s1.applySuccs t
    if q.2 then (q.1.putRecState t 8).dropTask t.id
    else
      ((q.1.putRecCause t 8 7).dropTask t.id).addTask
        { LTask.blank t.rec_ t.ctx with own := false, phase := .faulted, cause := 7, leaving := 5 }

/-- Task `ev.id`, ended, is reclaimed in two turns: its core is freed, then its outputs and successors go out. -/
def execTaskReclaim (s : State) : Out :=
  .next (match s.taskById s.ev.id with
    | some t =>
      match t.phase with
      | .ending o => if s.teamDone t.core then s.leaveCore t o else s
      | .outputs => s.finishTask t
      | .pending | .ready | .staging | .running | .faulted => s
    | none => s)

/-- The device kernel ends the task of core `ev.core` after a trap (R326, R339). -/
def execTaskEndedAfterTrap (s : State) : Out :=
  let n := s.ev.core
  .next (match (s.coreAt n).task.bind s.taskById with
    | some t =>
      if t.phase = .running ∧ (s.teamSlots n).any (fun j => (s.threadAt n j).intrap) = true then
        (s.putTask { t with phase := .ending false, cause := 3 }).endTeam n
      else s
    | none => s)

/-! ## Group issue (R28, R332) -/

/-- Position p of a plane of n0 × n1 in bands of w along the second dimension: the fast index and the banded one. -/
def bandPoint (n0 n1 w p : Nat) : Nat × Nat :=
  let b := p / (n0 * w)
  let q := p % (n0 * w)
  let h := min w (n1 - b * w)
  (q / h, b * w + q % h)

/-- Every second bit of d, from bit `from_`. -/
def everySecond (d from_ : Nat) : Nat := (List.range 17).foldl (fun x i => x + (if bit d (2 * i + from_) then 2 ^ i else 0)) 0

/-- One turn of the Hilbert curve at scale s. -/
def hilbertStep (st : Nat × Nat × Nat) (i : Nat) : Nat × Nat × Nat :=
  let s := 2 ^ i
  let (x, y, t) := st
  let rx := t / 2 % 2
  let ry := Nat.xor t rx % 2
  let (x1, y1) := if ry = 0 then (if rx = 1 then (s - 1 - y, s - 1 - x) else (y, x)) else (x, y)
  (x1 + s * rx, y1 + s * ry, t / 4)

/-- Smallest exponent e with 2 ^ e ≥ n, up to 16. -/
def squareLog (n : Nat) : Nat := ((List.range 17).find? (fun e => decide (n ≤ 2 ^ e))).getD 16

/-- Point d of a group's plane, none where the curve leaves the extents. -/
def LGroup.point (g : LGroup) (d : Nat) : Option (Nat × Nat) :=
  let inside := fun (p : Nat × Nat) => if p.1 < g.n0 ∧ p.2 < g.n1 then some p else none
  match g.order with
  | 0 => some (bandPoint g.n0 g.n1 g.w d)
  | 1 => some ((bandPoint g.n1 g.n0 g.w d).2, (bandPoint g.n1 g.n0 g.w d).1)
  | 2 => inside (everySecond d 0, everySecond d 1)
  | _ =>
    let r := (List.range (squareLog (max g.n0 g.n1))).foldl hilbertStep (0, 0, d)
    inside (r.1, r.2.1)

/-- Positions of a plane. -/
def LGroup.plane (g : LGroup) : Nat :=
  if g.order ≤ 1 then g.n0 * g.n1 else 4 ^ squareLog (max g.n0 g.n1)

/-- Instance (x, y, z) is issued. -/
def State.issueInstance (s : State) (g : LGroup) (x y z : Nat) : State :=
  if g.inst = 0 then s.enterLift { g.tmpl with rec_ := g.rec_, own := false, idx := (x, y, z) } 0
  else
    let (s1, p) := s.instHome g (x + g.n0 * (y + g.n1 * z))
    match p with
    | some lin => (s1.postRecord lin).1
    | none => s1

/-- The next position of group `ev.id`; after the last, STATE 5 and RECLAIMED. -/
def execGroupIssue (s : State) : Out :=
  .next (match s.fab.groups.find? (fun g => g.id == s.ev.id) with
    | none => s
    | some g =>
      if g.plane * g.n2 ≤ g.at_ then
        let s1 := (s.homeWrite (g.rec_ + 0x14) 1 5 false).homeWrite (g.rec_ + 0x14) 1 8 false
        s1.setFab { s1.fab with groups := s1.fab.groups.filter (fun h => h.id != g.id) }
      else
        let put := fun (t : State) (h : LGroup) =>
          t.setFab { t.fab with groups := t.fab.groups.map (fun k => if k.id == h.id then h else k) }
        match g.point (g.at_ % g.plane) with
        | none => put s { g with at_ := g.at_ + 1 }
        | some (x, y) =>
          let s1 := s.issueInstance g x y (g.at_ / g.plane)
          put (s1.homeWrite (g.rec_ + 0x28) 8 (g.issued + 1) false) { g with at_ := g.at_ + 1, issued := g.issued + 1 })

/-! ## The fault queue (R339) -/

/-- The header of a context's fault queue, as translated at level 1. -/
def State.faultQueueAt (s : State) (ctx : Nat) : State × Option Nat :=
  match s.ctxUsable ctx with
  | none => (s.readCtx ctx, none)
  | some e =>
    if e.fqueue = 0 then (s.readCtx ctx, none)
    else
      let (s1, p) := s.ctxXlate ctx e.fqueue.toNat .atomic 1
      match p with
      | .ok pa _ => (s1, some pa)
      | .bad _ _ => (s1, none)

def LTask.faultWord (t : LTask) : Word := wd (t.cause + t.leaving * 2 ^ 8 + t.extra)

/-- Faulted record `ev.id` is pushed on its context's fault queue, in its turn among the operations there, and goes to RECLAIMED with CAUSE
kept, or the push is tried again a microsecond later. -/
def execFaultQueuePush (s : State) : Out :=
  .next (match s.taskById s.ev.id with
    | some t =>
      if t.phase = .faulted ∧ t.tried ≤ s.time ∧ s.pushMayRun t = true then
        let again := fun (u : State) => u.putTask { t with tried := s.time + usec }
        let (s1, p) := s.faultQueueAt t.ctx
        match p with
        | none => again s1
        | some pa =>
          let r := s1.homePush pa (wd t.rec_) t.faultWord
          if r.2 then (r.1.putRecState t 8).dropTask t.id else again r.1
      else s
    | none => s)

end Sys2Proof.Machine
end

