-- ==== Sys2Proof/WellFormed.lean ====
section
/-! DEFINITION. What makes an instruction well formed beyond the ranges of its fields (R54–R61, R67, R135, R150, R161–R176,
R193, R223, R300, R303, R313, R356). The decoder refuses an encoding whose instruction is not well formed. -/

namespace Sys2Proof

/-- The instruction is one that some legal encoding holds (R67). The steps that no encoding holds are well formed
when their arguments name parts of the machine. The slot words of a convoy are checked by the decoder (R51). -/
def Instr.wf (i : Instr) : Bool :=
  match i with
  | .add _ _ _ | .sub _ _ _ | .and _ _ _ | .or _ _ _ | .xor _ _ _ | .sll _ _ _ | .srl _ _ _ | .sra _ _ _
  | .slt _ _ _ | .sltn _ _ _ | .mul _ _ _ | .mulh _ _ _ | .mulhn _ _ _ | .div _ _ _ | .divn _ _ _
  | .rem _ _ _ | .remn _ _ _ | .clz _ _ | .ctz _ _ | .popc _ _ | .rev _ _ | .bext _ _ _ | .bdep _ _ _
  | .rotl _ _ _ | .rotr _ _ _ | .fadd _ _ _ _ _ | .fsub _ _ _ _ _ | .fmul _ _ _ _ _ | .fdiv _ _ _ _ _
  | .fsqrt _ _ _ _ | .fmin _ _ _ _ | .fmax _ _ _ _ | .fcmp _ _ _ _ _ | .fclass _ _ _ | .fmvToOperand _ _
  | .fmvFromOperand _ _ _ => true
  | .fcvt dst src _ rm _ _ => okFcvt dst src rm
  | .kand _ _ _ | .kor _ _ _ | .kxor _ _ _ | .knot _ _ | .kmovKK _ _ | .kmovSK _ _ | .kmovKS _ _
  | .cmp _ _ _ _ => true
  | .amoAdd ty sr _ _ _ _ => amoAccepts .add ty && (!sr || ty == .bf16)
  | .amoMin ty _ _ _ _ => amoAccepts .min ty
  | .amoMax ty _ _ _ _ => amoAccepts .max ty
  | .amoAnd ty _ _ _ _ => amoAccepts .and ty
  | .amoOr ty _ _ _ _ => amoAccepts .or ty
  | .amoXor ty _ _ _ _ => amoAccepts .xor ty
  | .amoSwap ty _ _ _ _ => amoAccepts .swap ty
  | .cas ty _ _ _ _ => amoAccepts .cas ty
  | .qpush e16 nb k _ b => (nb || k == 0) && (!e16 || b.val != 31)
  | .qpop e16 nb d _ k | .qsteal e16 nb d _ k => (nb || k == 0) && (!e16 || d.val != 31)
  | .qcount _ _ | .qpoll _ _ _ | .qinit _ _ _ | .tpost _ _ | .tdone | .tspawn _ _ _ | .tgrp _ _ | .tyield
  | .cntarm _ _ _ | .cpy _ _ _ | .gath _ _ _ | .coll _ _ _ | .carve _ _ | .carveq _ _ | .tbar
  | .szero _ _ | .vstrip _ _ _ _ | .vfetch _ _ | .vpjoin | .fence _ | .fenceAcq _
  | .fenceRel _ | .addi _ _ _ | .andi _ _ _ | .ori _ _ _ | .xori _ _ _ | .slli _ _ _ | .srli _ _ _
  | .srai _ _ _ | .cmpi _ _ _ _ | .ld _ _ _ _ | .ldHome _ _ _ _ | .ldLast _ _ _ _ | .sysrd _ _ => true
  | .syswr _ r | .sysset _ _ r | .sysclr _ _ r => r.writable
  | .prefL1 _ _ | .prefL2 _ _ | .wake _ _ | .wakeAll _ _ | .flush _ _ | .flushMem _ _ | .inval _ _
  | .drop _ _ | .pset _ _ _ | .padv _ _ _ | .ssld _ _ _ _ | .nop _ _ _ | .pause _ _ _
  | .spin _ _ _ | .st _ _ _ _ | .brAny _ _ _ | .brAll _ _ _ | .br _ | .jal _ _ | .jalr _ _ _ | .lui _ _
  | .auipc _ _ | .loop _ | .ssst _ _ _ _ | .rtn _ _ _ _ _ => true
  | .convoyIssue units slots => slots.length == units.length && 1 <= units.length && units.length <= 6 && units.Nodup
  | .vaddInt f | .vsubInt f | .vmulInt f => okInt2 true f
  | .vmulh f | .vminInt f | .vmaxInt f => okInt2 false f
  | .vmacc f => okMacc f
  | .vdivInt f | .vrem f | .vand f | .vor f | .vxor f | .vsll f | .vsrl f | .vsra f => okInt2 false f
  | .vmv f => okMv f
  | .vcmp _ f => okCmp f
  | .vaddFloat f | .vsubFloat f | .vmulFloat f | .vdivFloat f => okFlt2 f
  | .vfma f | .vfms f | .vfnma f => okFlt3 f
  | .vsqrt f => okFlt1 f
  | .vminFloat f | .vmaxFloat f => okFAlu2 f
  | .vfcmp _ f => okFCmp f
  | .vfclass f => okFAlu1 f
  | .vsgnj f | .vsgnn f | .vsgnx f => okFAlu2 f
  | .vcvt f => okCvt f
  | .vmand f | .vmor f | .vmxor f => okM2 f
  | .vmnot f => okM1 f
  | .vmpop f | .vmfirst f => okMScalar f
  | .vmerge f => okMerge f
  | .vmk f => okMk f
  | .viota f => okIota f
  | .vid f => okId f
  | .vslideup f | .vslidedn f => okSlide f
  | .vperm f => okPerm f
  | .vcompress f => okCompress f
  | .vbcast f => okSlide f
  | .vtoo f => okToo f
  | .vredsum f => okRedSum f
  | .vredmin f | .vredmax f => okRedMin f
  | .vredand f | .vredor f | .vredxor f => okRedBit f
  | .vld f | .vldHome f | .vldLast f => okLd f
  | .vlds f | .vldsHome f => okLds f
  | .vldx f => okLdx f
  | .vldxPeer f => okLdxPeer f
  | .vldxHome f => okLdx f
  | .vldff f => okLdff f
  | .ldt f => okLdt f
  | .vldo f => okLdo f
  | .vst f => okSt f
  | .vsts f => okSts f
  | .vstx f => okStx f
  | .vstxPeer f => okStxPeer f
  | .vamoAdd f => okAmo .add f
  | .vamoMin f => okAmo .min f
  | .vamoMax f => okAmo .max f
  | .vamoAnd f => okAmo .and f
  | .vamoOr f => okAmo .or f
  | .vamoXor f => okAmo .xor f
  | .vamoSwap f => okAmo .swap f
  | .vamoCas f => okAmo .cas f
  | .mmode f => okMmode f
  | .mshape f => okMshape f
  | .mzero f => okMzero f
  | .mzeroAcc f => okMfx1 f
  | .mldb f => okMldb f
  | .mmul f => okMmul f
  | .mopa f => okMopa f
  | .mgmul f => okMgmul f
  | .mdrain f => okMdrain f
  | .mdrainx f => okMdrainx f
  | .mrecv f => okMrecv f
  | .mrecvCancel f => okMrecvCancel f
  | .mchain f => okMchain f
  | .mchainAccept f => okMchainAccept f
  | .munchain f | .mwait f => okMnone f
  | .mmulx f => okMgmul f
  | .mrinv f => okMs f
  | .mrinvAll f => okMfx1 f
  | .mrpf f => okMs f
  | .mrprobe f => okMrprobe f
  | .trap _ | .tret | .brk _ | .watchCore _ _ _ _
  | .watchHome _ _ _ _ | .watchCount _ _ _ _ | .ctxsave _ _ _ _ _ | .ctxload _ _ | .tlbinvVa _ _
  | .tlbinvCtx _ _ | .tlbinvAll _ _ | .sysfence _ | .travset _ _ _ _ | .rbind _ _ _ | .rload _ _
  | .runbind _ _ | .runbindCtx _ _ _ | .rquery _ _ => true
  | .unassignedEncoding _ => false
  | .otherHintCode code _ _ _ => 3 ≤ code.toNat
  | .umov | .umovi | .uhi | .urds | .uwrs | .urdo | .uwro | .uadd | .usub | .umul | .uand | .uor | .uxor
  | .usll | .usrl | .usra | .uslt | .usltn | .umin | .umax | .uaddi | .ufadd | .ufsub | .ufmul | .ufma | .ufmin
  | .ufmax | .ufcvti | .uicvtf | .uld | .ust | .uvadd | .uvsub | .uvmul | .uvmin | .uvmax | .uvand | .uvor
  | .uvxor | .uvfma | .ubeq | .ubne | .ublt | .uj | .uloop | .uend | .teamBarrierRelease | .pauseExpiry
  | .matrixSequence | .mdrainxRowArrival | .interruptTake | .timerCompare | .preemptRequest | .coreOutOfService
  | .farAtomicAtHome | .recall | .leaseRequest | .leaseExpiry | .dirtyWriteback | .lastDrop | .bankDrowsy
  | .bankWake | .linkRetry | .linkDown | .queueRouterEntry | .crossoverHoldExpiry | .pairNotice | .pairAck
  | .queueOpAtHome | .placeTask | .taskStart | .taskReclaim | .liftAging | .segmentReport | .groupIssue
  | .faultQueuePush | .resumeReleased | .engineDecrement | .transferStop | .collectiveComplete | .hostAtomic
  | .hostPostedWrite | .sysregWrite | .mstateRead | .carveWrite | .ortableWrite | .leaseWrite | .sscrWrite
  | .liftContextWrite | .drowsyWrite | .bootclr | .bootok | .moduleReset | .startWatchdog | .peerPortDown
  | .d3hot | .level2McheckReset | .taskEndedAfterTrap | .inputPowerFault | .peerPostedWrite
  | .mrpfFetchCompletion => true

/-- The operands of a micro-operation are ones that some word of a resident routine holds: fields that the operation
does not use are default, `ximm` is no destination, and the types are those of the row (R356–R359). -/
def Instr.ufWf (i : Instr) (f : UF) : Bool :=
  match i with
  | .umov | .uicvtf => f = { d := f.d, a := f.a } ∧ f.d ≠ .ximm
  | .umovi => f = { d := f.d, imm := f.imm } ∧ f.d ≠ .ximm
  | .uhi | .uaddi => f = { d := f.d, a := f.a, imm := f.imm } ∧ f.d ≠ .ximm
  | .urds => f = { d := f.d, r := f.r } ∧ f.d ≠ .ximm
  | .uwrs => f = { a := f.a, r := f.r }
  | .urdo => f = { d := f.d, b := f.b, e := f.e } ∧ f.d ≠ .ximm
  | .uwro => f = { a := f.a, b := f.b, e := f.e }
  | .uadd | .usub | .umul | .uand | .uor | .uxor | .usll | .usrl | .usra | .uslt | .usltn | .umin | .umax
  | .ufadd | .ufsub | .ufmul | .ufma | .ufmin | .ufmax => f = { d := f.d, a := f.a, b := f.b } ∧ f.d ≠ .ximm
  | .ufcvti => f = { d := f.d, a := f.a, sat := f.sat } ∧ f.d ≠ .ximm
  | .uld => f = { d := f.d, a := f.a, ldt := f.ldt, off := f.off } ∧ f.d ≠ .ximm
  | .ust => f = { a := f.a, b := f.b, stw := f.stw, off := f.off }
  | .uvadd | .uvsub | .uvmul | .uvmin | .uvmax | .uvfma => f = { v := f.v } ∧ okUv false f.v
  | .uvand | .uvor | .uvxor => f = { v := f.v } ∧ okUv true f.v
  | .ubeq | .ubne | .ublt => f = { a := f.a, b := f.b, tgt := f.tgt }
  | .uj | .uloop => f = { tgt := f.tgt }
  | _ => f = {}

end Sys2Proof
end

