-- ==== Sys2Proof/Decode.lean ====
section
/-! DEFINITION. The decoder and the encoder (03_instruction_words R43–R67, 06 R136–R150, 07 R154, R161–R179, 08 R193, 09 R223,
10 R229, 11 R254, R262, R265, 12 R275, 13 R300, R303, R313, 14 R341, R347, 15 R355–R359, R362, 16 R375, R382, R385,
R391, R392). Encodings are held as one number with bit 0 the least significant bit of the first parcel. -/

namespace Sys2Proof

/-- Field [lo + n − 1 : lo] of an encoding. -/
def fld (w lo n : Nat) : Nat := w / 2 ^ lo % 2 ^ n

def reg (n : Nat) : Reg := Fin.ofNat 32 n

/-- A `k` register field: bit 4 must be 0 (R122). -/
def kreg (n : Nat) : Option KReg := if n < 16 then some (Fin.ofNat 16 n) else none

/-- A `p` register or operand-file field: bits [4:3] must be 0 (R122). -/
def preg (n : Nat) : Option (Fin 8) := if n < 8 then some (Fin.ofNat 8 n) else none

/-- The mask field: 0000, or 1iii (R57, R178). -/
def mskOf (n : Nat) : Option (Option (Fin 8)) :=
  if n = 0 then some none else if 8 ≤ n then some (some (Fin.ofNat 8 (n - 8))) else none

def mskCode : Option (Fin 8) → Nat
  | none => 0
  | some i => 8 + i.val

def bitOf (n : Nat) : Bool := n = 1

def bitCode (b : Bool) : Nat := if b then 1 else 0

/-! ## Scalar instructions -/

/-- SR majors 0x00–0x02, the integer instructions (R136–R138). -/
def decodeInt (op f7 f3 : Nat) (d a b : Reg) : Option Instr :=
  match op with
  | 0 =>
    match f7, f3 with
    | 0, 0 => some (.add d a b) | 1, 0 => some (.sub d a b) | 0, 1 => some (.and d a b) | 0, 2 => some (.or d a b)
    | 0, 3 => some (.xor d a b) | 0, 4 => some (.sll d a b) | 0, 5 => some (.srl d a b) | 1, 5 => some (.sra d a b)
    | 0, 6 => some (.slt d a b) | 0, 7 => some (.sltn d a b) | _, _ => none
  | 1 =>
    match f7, f3 with
    | 0, 0 => some (.mul d a b) | 0, 1 => some (.mulh d a b) | 0, 2 => some (.mulhn d a b) | 0, 4 => some (.div d a b)
    | 0, 5 => some (.divn d a b) | 0, 6 => some (.rem d a b) | 0, 7 => some (.remn d a b) | _, _ => none
  | 2 =>
    match f7, f3 with
    | 0, 0 => if b = 0 then some (.clz d a) else none
    | 0, 1 => if b = 0 then some (.ctz d a) else none
    | 0, 2 => if b = 0 then some (.popc d a) else none
    | 0, 3 => if b = 0 then some (.rev d a) else none
    | 0, 4 => some (.bext d a b) | 0, 5 => some (.bdep d a b) | 0, 6 => some (.rotl d a b) | 0, 7 => some (.rotr d a b)
    | _, _ => none
  | _ => none

/-- SR major 0x03, scalar floating arithmetic (R148). -/
def decodeFlt (f7 f3 : Nat) (d a b : Reg) : Option Instr :=
  match FFmt.ofCode (f7 % 4), RmSel.ofCode f3 with
  | some f, some rm =>
    match f7 / 4 with
    | 0 => some (.fadd f rm d a b) | 4 => some (.fsub f rm d a b) | 8 => some (.fmul f rm d a b)
    | 12 => some (.fdiv f rm d a b)
    | 16 => if b = 0 then some (.fsqrt f rm d a) else none
    | 20 => if f3 = 0 then some (.fmin f d a b) else none
    | 24 => if f3 = 0 then some (.fmax f d a b) else none
    | _ => none
  | _, _ => none

/-- SR major 0x04, compares, classes, moves and conversions (R149, R150). -/
def decodeFcmp (f7 f3 : Nat) (d a b : Reg) : Option Instr :=
  match f7 / 32 with
  | 0 =>
    if f7 < 4 then
      match FFmt.ofCode f7, FRel.ofCode f3 with
      | some f, some r => some (.fcmp r f d a b)
      | _, _ => none
    else none
  | 1 =>
    if f7 < 36 ∧ f3 = 0 ∧ b = 0 then
      match FFmt.ofCode (f7 % 4) with
      | some f => some (.fclass f d a)
      | none => none
    else none
  | 2 =>
    if f7 = 64 ∧ f3 = 0 ∧ b = 0 then (preg d.val).map (fun e => .fmvToOperand e a)
    else if f7 = 64 ∧ f3 = 1 then (preg a.val).map (fun e => .fmvFromOperand d e b)
    else none
  | 3 =>
    match ETy.ofCode (f7 % 16), ETy.ofCode b.val, RmSel.ofCode f3 with
    | some dst, some src, some rm =>
      if okFcvt dst src rm then some (.fcvt dst src (bitOf (f7 / 16 % 2)) rm d a) else none
    | _, _, _ => none
  | _ => none

/-- SR major 0x05, predicates (R141). -/
def decodePred (f7 f3 : Nat) (d a b : Reg) : Option Instr :=
  match f7 with
  | 0 =>
    match f3 with
    | 0 => match kreg d.val, kreg a.val, kreg b.val with
      | some d, some a, some b => some (.kand d a b) | _, _, _ => none
    | 1 => match kreg d.val, kreg a.val, kreg b.val with
      | some d, some a, some b => some (.kor d a b) | _, _, _ => none
    | 2 => match kreg d.val, kreg a.val, kreg b.val with
      | some d, some a, some b => some (.kxor d a b) | _, _, _ => none
    | 3 => match kreg d.val, kreg a.val with
      | some d, some a => if b = 0 then some (.knot d a) else none | _, _ => none
    | 4 => match kreg d.val, kreg a.val with
      | some d, some a => if b = 0 then some (.kmovKK d a) else none | _, _ => none
    | 5 => match kreg a.val with
      | some a => if b = 0 then some (.kmovSK d a) else none | none => none
    | 6 => match kreg d.val with
      | some d => if b = 0 then some (.kmovKS d a) else none | none => none
    | _ => none
  | 1 =>
    match kreg d.val, Cond.ofCode f3 with
    | some d, some c => some (.cmp c d a b)
    | _, _ => none
  | _ => none

/-- SR major 0x06, atomics (R300). -/
def decodeAmo (f7 f3 : Nat) (d a b : Reg) : Option Instr :=
  match AmoTy.ofCode f3 with
  | none => none
  | some ty =>
    let far := bitOf (f7 % 2)
    let sr := bitOf (f7 / 2 % 2)
    if f7 / 4 % 2 = 1 then none
    else
      match f7 / 8 with
      | 0 => if amoAccepts .add ty ∧ (sr = false ∨ ty = .bf16) then some (.amoAdd ty sr far d a b) else none
      | 1 => if sr = false ∧ amoAccepts .min ty then some (.amoMin ty far d a b) else none
      | 2 => if sr = false ∧ amoAccepts .max ty then some (.amoMax ty far d a b) else none
      | 3 => if sr = false ∧ amoAccepts .and ty then some (.amoAnd ty far d a b) else none
      | 4 => if sr = false ∧ amoAccepts .or ty then some (.amoOr ty far d a b) else none
      | 5 => if sr = false ∧ amoAccepts .xor ty then some (.amoXor ty far d a b) else none
      | 6 => if sr = false ∧ amoAccepts .swap ty then some (.amoSwap ty far d a b) else none
      | 7 => if sr = false ∧ amoAccepts .cas ty then some (.cas ty far d a b) else none
      | _ => none

/-- SR major 0x07, queue instructions (R313). -/
def decodeQueue (f7 f3 : Nat) (d a b : Reg) : Option Instr :=
  let nb := bitOf (f7 % 2)
  let e16 := bitOf (f7 / 2 % 2)
  if 4 ≤ f7 then none
  else
    match f3 with
    | 0 => match kreg d.val with
      | some k => if (nb ∨ k = 0) ∧ (e16 = false ∨ b.val ≠ 31) then some (.qpush e16 nb k a b) else none
      | none => none
    | 1 => match kreg b.val with
      | some k => if (nb ∨ k = 0) ∧ (e16 = false ∨ d.val ≠ 31) then some (.qpop e16 nb d a k) else none
      | none => none
    | 2 => match kreg b.val with
      | some k => if (nb ∨ k = 0) ∧ (e16 = false ∨ d.val ≠ 31) then some (.qsteal e16 nb d a k) else none
      | none => none
    | 3 => if f7 = 0 ∧ b = 0 then some (.qcount d a) else none
    | 4 => match kreg b.val with
      | some k => if f7 = 0 then some (.qpoll d a k) else none
      | none => none
    | 5 => if f7 = 0 then some (.qinit d a b) else none
    | _ => none

/-- SR majors 0x08 and 0x09, tasks and engines (R341, R347). -/
def decodeTask (op f7 f3 : Nat) (d a b : Reg) : Option Instr :=
  if f7 ≠ 0 then none
  else
    match op, f3 with
    | 8, 0 => if b = 0 then some (.tpost d a) else none
    | 8, 1 => if d = 0 ∧ a = 0 ∧ b = 0 then some .tdone else none
    | 8, 2 => some (.tspawn d a b)
    | 8, 3 => if b = 0 then some (.tgrp d a) else none
    | 8, 4 => if d = 0 ∧ a = 0 ∧ b = 0 then some .tyield else none
    | 8, 5 => some (.cntarm d a b)
    | 9, 0 => some (.cpy d a b)
    | 9, 1 => some (.gath d a b)
    | 9, 2 => some (.coll d a b)
    | _, _ => none

/-- SR major 0x0A, the carve-out (R229). -/
def decodeCarve (f7 f3 : Nat) (d a b : Reg) : Option Instr :=
  match f3 with
  | 0 => if f7 = 0 ∧ b = 0 then some (.carve d a) else none
  | 1 => if f7 < 3 ∧ a = 0 ∧ b = 0 then some (.carveq (Fin.ofNat 3 f7) d) else none
  | 2 => if f7 = 0 ∧ d = 0 ∧ a = 0 ∧ b = 0 then some .tbar else none
  | 3 => if f7 = 0 ∧ d = 0 then some (.szero a b) else none
  | _ => none

/-- SR major 0x0B, vector control (R154, R178, R179). -/
def decodeVctl (f7 f3 : Nat) (d a b : Reg) : Option Instr :=
  match f3 with
  | 0 => match kreg b.val with
    | some k => if f7 < 5 then some (.vstrip (Fin.ofNat 5 f7) d a k) else none
    | none => none
  | 1 => match mskOf f7 with
    | some m => if f7 < 16 ∧ d = 0 ∧ b = 0 then some (.vfetch m a) else none
    | none => none
  | 2 => if f7 = 0 ∧ d = 0 ∧ a = 0 ∧ b = 0 then some .vpjoin else none
  | _ => none

/-- SR major 0x0C, fences (R275). -/
def decodeFence (f7 f3 : Nat) (d a b : Reg) : Option Instr :=
  match Scope.ofCode f7 with
  | some sc =>
    if d = 0 ∧ a = 0 ∧ b = 0 then
      match f3 with
      | 0 => some (.fence sc) | 1 => some (.fenceAcq sc) | 2 => some (.fenceRel sc) | _ => none
    else none
  | none => none

/-- Quadrant 00 (R46, R62). -/
def decodeSR (w : Nat) : Option Instr :=
  let f7 := fld w 25 7
  let b := reg (fld w 20 5)
  let a := reg (fld w 15 5)
  let f3 := fld w 12 3
  let d := reg (fld w 7 5)
  match fld w 2 5 with
  | 0 => decodeInt 0 f7 f3 d a b
  | 1 => decodeInt 1 f7 f3 d a b
  | 2 => decodeInt 2 f7 f3 d a b
  | 3 => decodeFlt f7 f3 d a b
  | 4 => decodeFcmp f7 f3 d a b
  | 5 => decodePred f7 f3 d a b
  | 6 => decodeAmo f7 f3 d a b
  | 7 => decodeQueue f7 f3 d a b
  | 8 => decodeTask 8 f7 f3 d a b
  | 9 => decodeTask 9 f7 f3 d a b
  | 10 => decodeCarve f7 f3 d a b
  | 11 => decodeVctl f7 f3 d a b
  | 12 => decodeFence f7 f3 d a b
  | _ => none

/-- System register forms, SI major 0x07 (R135). A number no chapter assigns, or a write of a register without a write
level, is an unlisted function value. -/
def decodeSys (f3 : Nat) (d a : Reg) (imm : Nat) : Option Instr :=
  match SysReg.ofNum imm with
  | none => none
  | some r =>
    match f3 with
    | 0 => if a = 0 then some (.sysrd d r) else none
    | 1 => if d = 0 ∧ r.writable then some (.syswr a r) else none
    | 2 => if r.writable then some (.sysset d a r) else none
    | 3 => if r.writable then some (.sysclr d a r) else none
    | _ => none

/-- The hint family, SI major 0x1F (R63). -/
def decodeHint (f3 : Nat) (d a : Reg) (imm : Nat) : Instr :=
  let f := Fin.ofNat 8 f3
  match imm with
  | 0 => .nop a f d
  | 1 => .pause a f d
  | 2 => .spin a f d
  | _ => .otherHintCode (BitVec.ofNat 12 imm) a f d

/-- Quadrant 01 (R47, R62, R139, R145, R262, R124, R254). -/
def decodeSI (w : Nat) : Option Instr :=
  let imm := fld w 20 12
  let i12 := BitVec.ofNat 12 imm
  let a := reg (fld w 15 5)
  let f3 := fld w 12 3
  let d := reg (fld w 7 5)
  match fld w 2 5 with
  | 0 => if f3 = 0 then some (.addi d a i12) else none
  | 1 => match f3 with
    | 0 => some (.andi d a i12) | 1 => some (.ori d a i12) | 2 => some (.xori d a i12) | _ => none
  | 2 =>
    if imm < 64 then
      match f3 with
      | 0 => some (.slli d a (BitVec.ofNat 6 imm)) | 1 => some (.srli d a (BitVec.ofNat 6 imm))
      | 2 => some (.srai d a (BitVec.ofNat 6 imm)) | _ => none
    else none
  | 3 => match kreg d.val, Cond.ofCode f3 with
    | some k, some c => some (.cmpi c k a i12) | _, _ => none
  | 4 => (LdTy.ofCode f3).map (fun t => .ld t d a i12)
  | 5 => (LdTy.ofCode f3).map (fun t => .ldHome t d a i12)
  | 6 => (LdTy.ofCode f3).map (fun t => .ldLast t d a i12)
  | 7 => decodeSys f3 d a imm
  | 8 =>
    if d = 0 then
      match f3 with
      | 0 => some (.prefL1 a i12) | 1 => some (.prefL2 a i12) | 2 => some (.wake a i12) | 3 => some (.wakeAll a i12)
      | _ => none
    else none
  | 9 =>
    if d = 0 then
      match f3 with
      | 0 => some (.flush a i12) | 1 => some (.flushMem a i12) | 2 => some (.inval a i12) | 3 => some (.drop a i12)
      | _ => none
    else none
  | 10 => match f3 with
    | 0 => match preg d.val with
      | some p => if imm < 5 then some (.pset p a (Fin.ofNat 5 imm)) else none
      | none => none
    | 1 => (preg a.val).map (fun p => .padv d p i12)
    | _ => none
  | 11 => (LdTy.ofCode f3).map (fun t => .ssld t d a i12)
  | 31 => some (decodeHint f3 d a imm)
  | _ => none

/-- Quadrant 10 (R48, R62, R140, R142–R144, R146, R254). -/
def decodeQ2 (w : Nat) : Option Instr :=
  let a := reg (fld w 15 5)
  let b := reg (fld w 20 5)
  let f3 := fld w 12 3
  let d := reg (fld w 7 5)
  let off12 := BitVec.ofNat 12 (fld w 25 7 * 32 + fld w 7 5)
  let off16 := BitVec.ofNat 16 (fld w 16 16)
  let k := Fin.ofNat 16 (fld w 12 4)
  let n := bitOf (fld w 11 1)
  let fn4 := fld w 7 4
  let imm20 := BitVec.ofNat 20 (fld w 12 20)
  match fld w 2 5 with
  | 0 => (StW.ofCode f3).map (fun t => .st t a b off12)
  | 1 => match fn4 with
    | 0 => some (.brAny k n off16) | 1 => some (.brAll k n off16)
    | 2 => if k = 0 ∧ n = false then some (.br off16) else none
    | _ => none
  | 2 => some (.jal d imm20)
  | 3 => if f3 = 0 then some (.jalr d a (BitVec.ofNat 12 (fld w 20 12))) else none
  | 4 => some (.lui d imm20)
  | 5 => some (.auipc d imm20)
  | 6 => if fn4 = 0 ∧ k = 0 ∧ n = false then some (.loop off16) else none
  | 7 => (StW.ofCode f3).map (fun t => .ssst t a b off12)
  | _ => none

/-! ## Vector, matrix and convoy -/

/-- A vector source from its level, register and chain fields (R55). -/
def decodeSrc (level r chain : Nat) : Option VSrc :=
  match level with
  | 0 => some (.v (Fin.ofNat 64 r) (bitOf chain))
  | 1 => if r < 8 ∧ chain = 0 then some (.o (Fin.ofNat 8 r)) else none
  | 2 => if r < 7 ∧ chain = 0 then some (.lat (Fin.ofNat 7 r)) else none
  | 3 => if r < 32 ∧ chain = 0 then some (.s (reg r)) else none
  | _ => none

/-- The fields of a vector instruction (R54, R57, R58); `none` for a reserved code. -/
def decodeVF (w : Nat) : Option VF :=
  match decodeSrc (fld w 55 2) (fld w 58 6) (fld w 57 1), decodeSrc (fld w 46 2) (fld w 49 6) (fld w 48 1),
    decodeSrc (fld w 37 2) (fld w 40 6) (fld w 39 1), mskOf (fld w 27 4), ETy.ofCode (fld w 21 6),
    RmSel.ofCode (fld w 18 3) with
  | some c, some b, some a, some msk, some ty, some rm =>
    some { c, b, a, d := Fin.ofNat 64 (fld w 31 6), msk, ty, rm, sat := bitOf (fld w 17 1), ord := bitOf (fld w 16 1),
           ux := bitOf (fld w 15 1) }
  | _, _, _, _, _, _ => none

/-- The instruction of a vop (R64, R161–R171, R303); the assembler's choice of the operation is by vop alone. -/
def vopInstr (vop : Nat) (f : VF) : Option Instr :=
  match vop with
  | 0x00 => some (.vaddInt f) | 0x01 => some (.vsubInt f) | 0x02 => some (.vmulInt f) | 0x03 => some (.vmulh f)
  | 0x04 => some (.vminInt f) | 0x05 => some (.vmaxInt f) | 0x06 => some (.vmacc f) | 0x07 => some (.vdivInt f)
  | 0x08 => some (.vrem f) | 0x09 => some (.vand f) | 0x0A => some (.vor f) | 0x0B => some (.vxor f)
  | 0x0C => some (.vsll f) | 0x0D => some (.vsrl f) | 0x0E => some (.vsra f) | 0x0F => some (.vmv f)
  | 0x10 => some (.vcmp .eq f) | 0x11 => some (.vcmp .ne f) | 0x12 => some (.vcmp .lt f) | 0x13 => some (.vcmp .le f)
  | 0x14 => some (.vcmp .gt f) | 0x15 => some (.vcmp .ge f)
  | 0x40 => some (.vaddFloat f) | 0x41 => some (.vsubFloat f) | 0x42 => some (.vmulFloat f)
  | 0x43 => some (.vdivFloat f) | 0x44 => some (.vfma f) | 0x45 => some (.vfms f) | 0x46 => some (.vfnma f)
  | 0x47 => some (.vsqrt f)
  | 0x60 => some (.vminFloat f) | 0x61 => some (.vmaxFloat f)
  | 0x62 => some (.vfcmp .eq f) | 0x63 => some (.vfcmp .lt f) | 0x64 => some (.vfcmp .le f) | 0x65 => some (.vfcmp .un f)
  | 0x66 => some (.vfclass f) | 0x67 => some (.vsgnj f) | 0x68 => some (.vsgnn f) | 0x69 => some (.vsgnx f)
  | 0x70 => some (.vcvt f)
  | 0x80 => some (.vmand f) | 0x81 => some (.vmor f) | 0x82 => some (.vmxor f) | 0x83 => some (.vmnot f)
  | 0x84 => some (.vmpop f) | 0x85 => some (.vmfirst f) | 0x86 => some (.vmerge f) | 0x87 => some (.vmk f)
  | 0x88 => some (.viota f) | 0x89 => some (.vid f)
  | 0x90 => some (.vslideup f) | 0x91 => some (.vslidedn f) | 0x92 => some (.vperm f) | 0x93 => some (.vcompress f)
  | 0x94 => some (.vbcast f) | 0x95 => some (.vtoo f)
  | 0xA0 => some (.vredsum f) | 0xA1 => some (.vredmin f) | 0xA2 => some (.vredmax f) | 0xA3 => some (.vredand f)
  | 0xA4 => some (.vredor f) | 0xA5 => some (.vredxor f)
  | 0xB0 => some (.vld f) | 0xB1 => some (.vldHome f) | 0xB2 => some (.vldLast f) | 0xB3 => some (.vlds f)
  | 0xB4 => some (.vldsHome f) | 0xB5 => some (if f.ux then .vldxPeer f else .vldx f) | 0xB6 => some (.vldxHome f)
  | 0xB7 => some (.vldff f) | 0xB8 => some (.ldt f) | 0xB9 => some (.vldo f)
  | 0xD0 => some (.vst f) | 0xD1 => some (.vsts f) | 0xD2 => some (if f.ux then .vstxPeer f else .vstx f)
  | 0xE0 => some (.vamoAdd f) | 0xE1 => some (.vamoMin f) | 0xE2 => some (.vamoMax f) | 0xE3 => some (.vamoAnd f)
  | 0xE4 => some (.vamoOr f) | 0xE5 => some (.vamoXor f) | 0xE6 => some (.vamoSwap f) | 0xE7 => some (.vamoCas f)
  | _ => none

/-- A 64-bit vector slot (R54). -/
def decodeVector (w : Nat) : Option Instr :=
  if fld w 0 7 = 3 then
    match decodeVF w with
    | some f => (vopInstr (fld w 7 8) f).filter Instr.wf
    | none => none
  else none

/-- The unit of a vop, by its range (R64). -/
def vopUnit (vop : Nat) : Option Nat :=
  if vop < 0x40 then some 0 else if vop < 0x60 then some 1 else if vop < 0x90 then some 0
  else if vop < 0xA0 then some 4 else if vop < 0xB0 then some 5 else if vop < 0xD0 then some 2
  else if vop < 0xF0 then some 3 else none

/-- The fields of a matrix instruction (R59). -/
def decodeMF (w : Nat) : Option MF :=
  match ETy.ofCode (fld w 20 6), RmSel.ofCode (fld w 17 3) with
  | some ty, some rm =>
    some { kd := Fin.ofNat 16 (fld w 60 4), kc := Fin.ofNat 16 (fld w 56 4), kr := Fin.ofNat 16 (fld w 52 4),
           c := Fin.ofNat 64 (fld w 46 6), b := Fin.ofNat 64 (fld w 40 6), a := Fin.ofNat 64 (fld w 34 6),
           t := Fin.ofNat 8 (fld w 31 3), s := reg (fld w 26 5), ty, rm, sat := bitOf (fld w 16 1),
           ca := bitOf (fld w 15 1), fx := BitVec.ofNat 5 (fld w 10 5) }
  | _, _ => none

/-- The instruction of a mop and its flags (R65, R193, R223). -/
def mopInstr (mop : Nat) (f : MF) : Option Instr :=
  match mop with
  | 0x00 => some (.mmode f) | 0x01 => some (.mshape f)
  | 0x02 => some (if f.fx = 0 then .mzero f else .mzeroAcc f)
  | 0x03 => some (.mldb f) | 0x04 => some (.mmul f) | 0x05 => some (.mopa f) | 0x06 => some (.mgmul f)
  | 0x07 => some (.mdrain f) | 0x08 => some (.mdrainx f)
  | 0x09 => some (if f.fx = 0 then .mrecv f else .mrecvCancel f)
  | 0x0A => some (if f.fx.toNat < 2 then .mchain f else .mchainAccept f)
  | 0x0B => some (.munchain f) | 0x0C => some (.mwait f)
  | 0x10 => some (.mmulx f)
  | 0x11 => some (if f.fx = 0 then .mrinv f else .mrinvAll f)
  | 0x12 => some (.mrpf f) | 0x13 => some (.mrprobe f)
  | _ => none

/-- A 64-bit matrix instruction (R59). -/
def decodeMatrix (w : Nat) : Option Instr :=
  if fld w 0 4 = 7 then
    match decodeMF w with
    | some f => (mopInstr (fld w 4 6) f).filter Instr.wf
    | none => none
  else none

/-- What a convoy slot holds: a matrix instruction in the matrix-post slot, else a vector instruction of the slot's
unit (R51, R52). -/
def decodeSlot (unit w : Nat) : Option Instr :=
  if unit = 6 then decodeMatrix w
  else if vopUnit (fld w 7 8) = some unit then decodeVector w else none

/-- Slot i of a convoy held as one number behind its header parcel. -/
def slotWord (w i : Nat) : Nat := fld w (32 + 64 * i) 64

/-- The lowest offending slot of a convoy whose header declares the units `all`, from slot i on: unit 7, a unit that two slots name, or
a slot that is illegal (R51). -/
def badSlot (w : Nat) (all : List Nat) : Nat → List Nat → Option Nat
  | _, [] => none
  | i, u :: us =>
    if u = 7 ∨ 2 ≤ all.count u ∨ (decodeSlot u (slotWord w i)).isNone then some i else badSlot w all (i + 1) us

/-- The unit codes that the header declares for n slots. -/
def headerUnits (w n : Nat) : List Nat := (List.range n).map (fun i => fld w (7 + 3 * i) 3)

/-- A convoy: header and slots (R50, R51). A header whose n or reserved bits are at fault names slot 0, and one with a unit field
where it has no slot names that position. -/
def decodeConvoy (w : Nat) : Instr :=
  let n := fld w 4 3
  if n = 0 ∨ n = 7 ∨ fld w 25 7 ≠ 0 then .unassignedEncoding 0
  else
    match (badSlot w (headerUnits w n) 0 (headerUnits w n)).orElse
        (fun _ => (List.range 6).find? (fun i => decide (n ≤ i) && fld w (7 + 3 * i) 3 != 0)) with
    | some i => .unassignedEncoding i
    | none =>
      .convoyIssue ((headerUnits w n).map (Fin.ofNat 7)) ((List.range n).map (fun i => BitVec.ofNat 64 (slotWord w i)))

/-! ## Routine invocation and system long forms -/

/-- A routine invocation (R60). -/
def decodeRtn (w : Nat) : Instr :=
  .rtn (Fin.ofNat 64 (fld w 4 6)) (reg (fld w 10 5)) (reg (fld w 15 5)) (reg (fld w 20 5)) (BitVec.ofNat 7 (fld w 25 7))

/-- The watchpoint forms (R385). -/
def decodeWatch (imm : Nat) (d a b : Reg) : Option Instr :=
  let i := Fin.ofNat 2 (imm % 2)
  match imm / 2 with
  | 0 => some (.watchCore i d a b)
  | 8 => some (.watchHome i d a b)
  | 24 => some (.watchCount i d a b)
  | _ => none

/-- A system long form (R61, R66, R265, R362, R375, R382, R385, R391, R392). -/
def decodeSystem (w : Nat) : Option Instr :=
  let imm := fld w 32 32
  let b := reg (fld w 22 5)
  let a := reg (fld w 17 5)
  let d := reg (fld w 12 5)
  let slot := Fin.ofNat 64 (imm % 64)
  if fld w 27 5 ≠ 0 then none
  else
    match fld w 4 8 with
    | 0x00 => if a = 0 ∧ b = 0 ∧ d = 0 then some (.trap (BitVec.ofNat 32 imm)) else none
    | 0x01 => if a = 0 ∧ b = 0 ∧ d = 0 ∧ imm = 0 then some .tret else none
    | 0x02 => if a = 0 ∧ b = 0 ∧ d = 0 then some (.brk (BitVec.ofNat 32 imm)) else none
    | 0x03 => decodeWatch imm d a b
    | 0x04 => if imm < 4 then some (.ctxsave (bitOf (imm % 2)) (bitOf (imm / 2)) d a b) else none
    | 0x05 => if imm = 0 ∧ b = 0 then some (.ctxload d a) else none
    | 0x06 =>
      if d = 0 then
        match imm with
        | 0 => some (.tlbinvVa a b) | 1 => some (.tlbinvCtx a b) | 2 => some (.tlbinvAll a b) | _ => none
      else none
    | 0x07 => if a = 0 ∧ b = 0 ∧ d = 0 ∧ imm < 4 then some (.sysfence (BitVec.ofNat 2 imm)) else none
    | 0x10 =>
      if b = 0 ∧ imm < 2048 ∧ imm / 64 % 4 = 0 then
        some (.travset d a (Fin.ofNat 8 (imm / 256)) (Fin.ofNat 64 (imm % 64)))
      else none
    | 0x20 => if b = 0 ∧ imm < 64 then some (.rbind d a slot) else none
    | 0x21 => if b = 0 ∧ a = 0 ∧ imm < 64 then some (.rload d slot) else none
    | 0x22 =>
      if b = 0 ∧ a = 0 ∧ imm < 64 then some (.runbind d slot)
      else if b = 0 ∧ 64 ≤ imm ∧ imm < 128 then some (.runbindCtx d a slot)
      else none
    | 0x23 => if b = 0 ∧ a = 0 ∧ imm < 64 then some (.rquery d slot) else none
    | _ => none

/-! ## Whole instructions -/

/-- Bytes that the first parcel gives its instruction (R43, R50), whether or not it is legal. -/
def instrLen (parcel : Nat) : Nat :=
  match fld parcel 0 4 with
  | 3 => 4 + 8 * fld parcel 4 3
  | 7 => 8
  | 15 => 8
  | _ => 4

/-- The instruction whose bits are w, numbered from the first parcel's bit 0; w's bits above its length do not matter
(R43, R67). -/
def decodeInstr (w : Nat) : Instr :=
  let scalar := fun (o : Option Instr) => o.getD (.unassignedEncoding 0)
  match fld w 0 2 with
  | 0 => scalar (decodeSR w)
  | 1 => scalar (decodeSI w)
  | 2 => scalar (decodeQ2 w)
  | _ =>
    match fld w 2 2 with
    | 0 => decodeConvoy w
    | 1 => scalar (decodeMatrix w)
    | 2 => decodeRtn w
    | _ => scalar (decodeSystem w)

/-- Little-endian number of a list of bytes (R1). -/
def leNat : List Byte → Nat
  | [] => 0
  | b :: bs => b.toNat + 256 * leNat bs

/-- The first n bytes of a number, lowest first (R1). -/
def leBytes : Nat → Nat → List Byte
  | 0, _ => []
  | n + 1, x => BitVec.ofNat 8 x :: leBytes n (x / 256)

/-- The decoder on bytes: the instruction and the bytes after it. Only a list that ends inside an instruction has no
answer; every word that is no instruction is `unassignedEncoding`. -/
def decodeBytes (bs : List Byte) : Option (Instr × List Byte) :=
  if bs.length < 4 then none
  else
    let n := instrLen (leNat (bs.take 4))
    if bs.length < n then none else some (decodeInstr (leNat (bs.take n)), bs.drop n)

/-! ## Micro-operations of the routine store -/

/-- An operand code, none for a code that is not allowed (R356). -/
def UOpd.ofCode (n : Nat) : Option UOpd :=
  if n < 8 then some (.h (Fin.ofNat 8 n))
  else
    match n with
    | 8 => some .xd | 9 => some .xa | 10 => some .xb | 11 => some .ximm | 12 => some .zero | 13 => some .lc
    | _ => none

def UOpd.code : UOpd → Nat
  | .h i => i.val | .xd => 8 | .xa => 9 | .xb => 10 | .ximm => 11 | .zero => 12 | .lc => 13

/-- UA micro-operations of three operands (R357). -/
def uop3 (uop : Nat) : Option Instr :=
  match uop with
  | 0x08 => some .uadd | 0x09 => some .usub | 0x0A => some .umul | 0x0B => some .uand | 0x0C => some .uor
  | 0x0D => some .uxor | 0x0E => some .usll | 0x0F => some .usrl | 0x10 => some .usra | 0x11 => some .uslt
  | 0x12 => some .usltn | 0x13 => some .umin | 0x14 => some .umax | 0x18 => some .ufadd | 0x19 => some .ufsub
  | 0x1A => some .ufmul | 0x1B => some .ufma | 0x1C => some .ufmin | 0x1D => some .ufmax
  | _ => none

/-- UV micro-operations (R358). -/
def uopV (uop : Nat) : Option Instr :=
  match uop with
  | 0x28 => some .uvadd | 0x29 => some .uvsub | 0x2A => some .uvmul | 0x2B => some .uvmin | 0x2C => some .uvmax
  | 0x2D => some .uvand | 0x2E => some .uvor | 0x2F => some .uvxor | 0x30 => some .uvfma
  | _ => none

/-- The vector fields of a micro-operation (R355, R358). -/
def decodeUV (w : Nat) : Option UV :=
  (ETy.ofCode (fld w 0 5)).map (fun ty =>
    { vd := Fin.ofNat 64 (fld w 20 6), va := Fin.ofNat 64 (fld w 14 6), vb := Fin.ofNat 64 (fld w 8 6),
      j := Fin.ofNat 8 (fld w 5 3), ty })

/-- The operation and operands of a micro-operation word, from its fields; none where a field that the operation uses
holds a code that is not allowed (R355–R358). Fields that must be 0 are checked by `decodeMicro`. -/
def microFields (uop : Nat) (dst oa ob : Option UOpd) (w : Nat) : Option (Instr × UF) :=
  let imm := fld w 0 11
  let i11 := BitVec.ofNat 11 imm
  let off := BitVec.ofNat 8 (fld w 0 8)
  let sz := fld w 8 3
  let tgt := Fin.ofNat 256 (fld w 0 8)
  match uop with
  | 0x00 => match dst, oa with | some d, some a => some (.umov, { d, a }) | _, _ => none
  | 0x01 => dst.map (fun d => (.umovi, { d, imm := i11 }))
  | 0x02 => match dst, oa with | some d, some a => some (.uhi, { d, a, imm := i11 }) | _, _ => none
  | 0x03 => dst.map (fun d => (.urds, { d, r := reg imm }))
  | 0x04 => oa.map (fun a => (.uwrs, { a, r := reg imm }))
  | 0x05 => match dst, ob with | some d, some b => some (.urdo, { d, b, e := Fin.ofNat 8 imm }) | _, _ => none
  | 0x06 => match oa, ob with | some a, some b => some (.uwro, { a, b, e := Fin.ofNat 8 imm }) | _, _ => none
  | 0x15 => match dst, oa with | some d, some a => some (.uaddi, { d, a, imm := i11 }) | _, _ => none
  | 0x1E => match dst, oa with | some d, some a => some (.ufcvti, { d, a, sat := bitOf imm }) | _, _ => none
  | 0x1F => match dst, oa with | some d, some a => some (.uicvtf, { d, a }) | _, _ => none
  | 0x20 => match dst, oa, LdTy.ofCode sz with
    | some d, some a, some t => some (.uld, { d, a, ldt := t, off }) | _, _, _ => none
  | 0x21 => match oa, ob, StW.ofCode sz with
    | some a, some b, some t => some (.ust, { a, b, stw := t, off }) | _, _, _ => none
  | 0x38 => match oa, ob with | some a, some b => some (.ubeq, { a, b, tgt }) | _, _ => none
  | 0x39 => match oa, ob with | some a, some b => some (.ubne, { a, b, tgt }) | _, _ => none
  | 0x3A => match oa, ob with | some a, some b => some (.ublt, { a, b, tgt }) | _, _ => none
  | 0x3B => some (.uj, { tgt })
  | 0x3C => some (.uloop, { tgt })
  | 0x3F => some (.uend, {})
  | _ =>
    match uopV uop with
    | some i => (decodeUV w).map (fun v => (i, { v }))
    | none =>
      match uop3 uop, dst, oa, ob with
      | some i, some d, some a, some b => some (i, { d, a, b })
      | _, _, _, _ => none

/-! ## The encoder -/

/-- SR words (R46). -/
def srW (f7 b a f3 d op : Nat) : Nat := f7 * 2 ^ 25 + b * 2 ^ 20 + a * 2 ^ 15 + f3 * 2 ^ 12 + d * 2 ^ 7 + op * 4

/-- SI words (R47). -/
def siW (imm a f3 d op : Nat) : Nat := imm * 2 ^ 20 + a * 2 ^ 15 + f3 * 2 ^ 12 + d * 2 ^ 7 + op * 4 + 1

/-- SS words (R48). -/
def ssW (off b a f3 op : Nat) : Nat :=
  off / 32 * 2 ^ 25 + b * 2 ^ 20 + a * 2 ^ 15 + f3 * 2 ^ 12 + off % 32 * 2 ^ 7 + op * 4 + 2

/-- SC words (R48). -/
def scW (off k n fn4 op : Nat) : Nat := off * 2 ^ 16 + k * 2 ^ 12 + n * 2 ^ 11 + fn4 * 2 ^ 7 + op * 4 + 2

/-- SJ words (R48). -/
def sjW (imm d op : Nat) : Nat := imm * 2 ^ 12 + d * 2 ^ 7 + op * 4 + 2

/-- Level, register and chain fields of a source (R55), as (register, chain, level). -/
def VSrc.fields : VSrc → Nat × Nat × Nat
  | .v r ch => (r.val, bitCode ch, 0)
  | .o e => (e.val, 0, 1)
  | .lat u => (u.val, 0, 2)
  | .s r => (r.val, 0, 3)

/-- The 64-bit word of a vector instruction (R54). -/
def vecW (vop : Nat) (f : VF) : Nat :=
  f.c.fields.1 * 2 ^ 58 + f.c.fields.2.1 * 2 ^ 57 + f.c.fields.2.2 * 2 ^ 55 +
    f.b.fields.1 * 2 ^ 49 + f.b.fields.2.1 * 2 ^ 48 + f.b.fields.2.2 * 2 ^ 46 +
    f.a.fields.1 * 2 ^ 40 + f.a.fields.2.1 * 2 ^ 39 + f.a.fields.2.2 * 2 ^ 37 +
    f.d.val * 2 ^ 31 + mskCode f.msk * 2 ^ 27 + f.ty.code * 2 ^ 21 + f.rm.code * 2 ^ 18 + bitCode f.sat * 2 ^ 17 +
    bitCode f.ord * 2 ^ 16 + bitCode f.ux * 2 ^ 15 + vop * 2 ^ 7 + 3

/-- The 64-bit word of a matrix instruction (R59). -/
def matW (mop : Nat) (f : MF) : Nat :=
  f.kd.val * 2 ^ 60 + f.kc.val * 2 ^ 56 + f.kr.val * 2 ^ 52 + f.c.val * 2 ^ 46 + f.b.val * 2 ^ 40 + f.a.val * 2 ^ 34 +
    f.t.val * 2 ^ 31 + f.s.val * 2 ^ 26 + f.ty.code * 2 ^ 20 + f.rm.code * 2 ^ 17 + bitCode f.sat * 2 ^ 16 +
    bitCode f.ca * 2 ^ 15 + f.fx.toNat * 2 ^ 10 + mop * 2 ^ 4 + 7

/-- The 64-bit word of a system long form (R61). -/
def sysW (imm b a d sop : Nat) : Nat := imm * 2 ^ 32 + b * 2 ^ 22 + a * 2 ^ 17 + d * 2 ^ 12 + sop * 2 ^ 4 + 15

/-- UA and UM words (R355); `lo` holds the low 11 bits. -/
def uaW (uop d a b lo : Nat) : Nat := uop * 2 ^ 26 + d * 2 ^ 21 + a * 2 ^ 16 + b * 2 ^ 11 + lo

/-- UV words (R355). -/
def uvW (uop : Nat) (f : UV) : Nat :=
  uop * 2 ^ 26 + f.vd.val * 2 ^ 20 + f.va.val * 2 ^ 14 + f.vb.val * 2 ^ 8 + f.j.val * 2 ^ 5 + f.ty.code

/-- Slots behind a header parcel, slot 0 lowest. -/
def slotsW : List (BitVec 64) → Nat
  | [] => 0
  | x :: xs => x.toNat + 2 ^ 64 * slotsW xs

/-- Unit fields of a header from unit0 up. -/
def unitsW : List (Fin 7) → Nat
  | [] => 0
  | u :: us => u.val + 8 * unitsW us

/-- The words of an instruction as one number, from the encoding tables; none for a micro-operation and for a step
that has no encoding. -/
def encode (i : Instr) : Option Nat :=
  match i with
  | .add d a b => some (srW 0 b.val a.val 0 d.val 0)
  | .sub d a b => some (srW 1 b.val a.val 0 d.val 0)
  | .and d a b => some (srW 0 b.val a.val 1 d.val 0)
  | .or d a b => some (srW 0 b.val a.val 2 d.val 0)
  | .xor d a b => some (srW 0 b.val a.val 3 d.val 0)
  | .sll d a b => some (srW 0 b.val a.val 4 d.val 0)
  | .srl d a b => some (srW 0 b.val a.val 5 d.val 0)
  | .sra d a b => some (srW 1 b.val a.val 5 d.val 0)
  | .slt d a b => some (srW 0 b.val a.val 6 d.val 0)
  | .sltn d a b => some (srW 0 b.val a.val 7 d.val 0)
  | .mul d a b => some (srW 0 b.val a.val 0 d.val 1)
  | .mulh d a b => some (srW 0 b.val a.val 1 d.val 1)
  | .mulhn d a b => some (srW 0 b.val a.val 2 d.val 1)
  | .div d a b => some (srW 0 b.val a.val 4 d.val 1)
  | .divn d a b => some (srW 0 b.val a.val 5 d.val 1)
  | .rem d a b => some (srW 0 b.val a.val 6 d.val 1)
  | .remn d a b => some (srW 0 b.val a.val 7 d.val 1)
  | .clz d a => some (srW 0 0 a.val 0 d.val 2)
  | .ctz d a => some (srW 0 0 a.val 1 d.val 2)
  | .popc d a => some (srW 0 0 a.val 2 d.val 2)
  | .rev d a => some (srW 0 0 a.val 3 d.val 2)
  | .bext d a b => some (srW 0 b.val a.val 4 d.val 2)
  | .bdep d a b => some (srW 0 b.val a.val 5 d.val 2)
  | .rotl d a b => some (srW 0 b.val a.val 6 d.val 2)
  | .rotr d a b => some (srW 0 b.val a.val 7 d.val 2)
  | .fadd f rm d a b => some (srW (0 + f.code) b.val a.val rm.code d.val 3)
  | .fsub f rm d a b => some (srW (16 + f.code) b.val a.val rm.code d.val 3)
  | .fmul f rm d a b => some (srW (32 + f.code) b.val a.val rm.code d.val 3)
  | .fdiv f rm d a b => some (srW (48 + f.code) b.val a.val rm.code d.val 3)
  | .fsqrt f rm d a => some (srW (64 + f.code) 0 a.val rm.code d.val 3)
  | .fmin f d a b => some (srW (80 + f.code) b.val a.val 0 d.val 3)
  | .fmax f d a b => some (srW (96 + f.code) b.val a.val 0 d.val 3)
  | .fcmp r f d a b => some (srW f.code b.val a.val r.code d.val 4)
  | .fclass f d a => some (srW (32 + f.code) 0 a.val 0 d.val 4)
  | .fmvToOperand d a => some (srW 64 0 a.val 0 d.val 4)
  | .fmvFromOperand d a b => some (srW 64 b.val a.val 1 d.val 4)
  | .fcvt dst src sat rm d a => some (srW (96 + 16 * bitCode sat + dst.code) src.code a.val rm.code d.val 4)
  | .kand d a b => some (srW 0 b.val a.val 0 d.val 5)
  | .kor d a b => some (srW 0 b.val a.val 1 d.val 5)
  | .kxor d a b => some (srW 0 b.val a.val 2 d.val 5)
  | .knot d a => some (srW 0 0 a.val 3 d.val 5)
  | .kmovKK d a => some (srW 0 0 a.val 4 d.val 5)
  | .kmovSK d a => some (srW 0 0 a.val 5 d.val 5)
  | .kmovKS d a => some (srW 0 0 a.val 6 d.val 5)
  | .cmp c d a b => some (srW 1 b.val a.val c.code d.val 5)
  | .amoAdd ty sr far d a b => some (srW (2 * bitCode sr + bitCode far) b.val a.val ty.code d.val 6)
  | .amoMin ty far d a b => some (srW (8 + bitCode far) b.val a.val ty.code d.val 6)
  | .amoMax ty far d a b => some (srW (16 + bitCode far) b.val a.val ty.code d.val 6)
  | .amoAnd ty far d a b => some (srW (24 + bitCode far) b.val a.val ty.code d.val 6)
  | .amoOr ty far d a b => some (srW (32 + bitCode far) b.val a.val ty.code d.val 6)
  | .amoXor ty far d a b => some (srW (40 + bitCode far) b.val a.val ty.code d.val 6)
  | .amoSwap ty far d a b => some (srW (48 + bitCode far) b.val a.val ty.code d.val 6)
  | .cas ty far d a b => some (srW (56 + bitCode far) b.val a.val ty.code d.val 6)
  | .qpush e16 nb k a b => some (srW (2 * bitCode e16 + bitCode nb) b.val a.val 0 k.val 7)
  | .qpop e16 nb d a k => some (srW (2 * bitCode e16 + bitCode nb) k.val a.val 1 d.val 7)
  | .qsteal e16 nb d a k => some (srW (2 * bitCode e16 + bitCode nb) k.val a.val 2 d.val 7)
  | .qcount d a => some (srW 0 0 a.val 3 d.val 7)
  | .qpoll d a k => some (srW 0 k.val a.val 4 d.val 7)
  | .qinit d a b => some (srW 0 b.val a.val 5 d.val 7)
  | .tpost d a => some (srW 0 0 a.val 0 d.val 8)
  | .tdone => some (srW 0 0 0 1 0 8)
  | .tspawn d a b => some (srW 0 b.val a.val 2 d.val 8)
  | .tgrp d a => some (srW 0 0 a.val 3 d.val 8)
  | .tyield => some (srW 0 0 0 4 0 8)
  | .cntarm d a b => some (srW 0 b.val a.val 5 d.val 8)
  | .cpy d a b => some (srW 0 b.val a.val 0 d.val 9)
  | .gath d a b => some (srW 0 b.val a.val 1 d.val 9)
  | .coll d a b => some (srW 0 b.val a.val 2 d.val 9)
  | .carve d a => some (srW 0 0 a.val 0 d.val 10)
  | .carveq n d => some (srW n.val 0 0 1 d.val 10)
  | .tbar => some (srW 0 0 0 2 0 10)
  | .szero a b => some (srW 0 b.val a.val 3 0 10)
  | .vstrip sz d a k => some (srW sz.val k.val a.val 0 d.val 11)
  | .vfetch msk a => some (srW (mskCode msk) 0 a.val 1 0 11)
  | .vpjoin => some (srW 0 0 0 2 0 11)
  | .fence sc => some (srW sc.code 0 0 0 0 12)
  | .fenceAcq sc => some (srW sc.code 0 0 1 0 12)
  | .fenceRel sc => some (srW sc.code 0 0 2 0 12)
  | .addi d a imm => some (siW imm.toNat a.val 0 d.val 0)
  | .andi d a imm => some (siW imm.toNat a.val 0 d.val 1)
  | .ori d a imm => some (siW imm.toNat a.val 1 d.val 1)
  | .xori d a imm => some (siW imm.toNat a.val 2 d.val 1)
  | .slli d a sh => some (siW sh.toNat a.val 0 d.val 2)
  | .srli d a sh => some (siW sh.toNat a.val 1 d.val 2)
  | .srai d a sh => some (siW sh.toNat a.val 2 d.val 2)
  | .cmpi c d a imm => some (siW imm.toNat a.val c.code d.val 3)
  | .ld ty d a imm => some (siW imm.toNat a.val ty.code d.val 4)
  | .ldHome ty d a imm => some (siW imm.toNat a.val ty.code d.val 5)
  | .ldLast ty d a imm => some (siW imm.toNat a.val ty.code d.val 6)
  | .sysrd d r => some (siW r.num 0 0 d.val 7)
  | .syswr a r => some (siW r.num a.val 1 0 7)
  | .sysset d a r => some (siW r.num a.val 2 d.val 7)
  | .sysclr d a r => some (siW r.num a.val 3 d.val 7)
  | .prefL1 a imm => some (siW imm.toNat a.val 0 0 8)
  | .prefL2 a imm => some (siW imm.toNat a.val 1 0 8)
  | .wake a imm => some (siW imm.toNat a.val 2 0 8)
  | .wakeAll a imm => some (siW imm.toNat a.val 3 0 8)
  | .flush a imm => some (siW imm.toNat a.val 0 0 9)
  | .flushMem a imm => some (siW imm.toNat a.val 1 0 9)
  | .inval a imm => some (siW imm.toNat a.val 2 0 9)
  | .drop a imm => some (siW imm.toNat a.val 3 0 9)
  | .pset d a sz => some (siW sz.val a.val 0 d.val 10)
  | .padv d a imm => some (siW imm.toNat a.val 1 d.val 10)
  | .ssld ty d a imm => some (siW imm.toNat a.val ty.code d.val 11)
  | .nop a f3 d => some (siW 0 a.val f3.val d.val 31)
  | .pause a f3 d => some (siW 1 a.val f3.val d.val 31)
  | .spin a f3 d => some (siW 2 a.val f3.val d.val 31)
  | .st wd a b off => some (ssW off.toNat b.val a.val wd.code 0)
  | .brAny k n off => some (scW off.toNat k.val (bitCode n) 0 1)
  | .brAll k n off => some (scW off.toNat k.val (bitCode n) 1 1)
  | .br off => some (scW off.toNat 0 0 2 1)
  | .jal d imm => some (sjW imm.toNat d.val 2)
  | .jalr d a imm => some (siW imm.toNat a.val 0 d.val 3 + 1)
  | .lui d imm => some (sjW imm.toNat d.val 4)
  | .auipc d imm => some (sjW imm.toNat d.val 5)
  | .loop off => some (scW off.toNat 0 0 0 6)
  | .ssst wd a b off => some (ssW off.toNat b.val a.val wd.code 7)
  | .rtn slot d a b imm => some (imm.toNat * 2 ^ 25 + b.val * 2 ^ 20 + a.val * 2 ^ 15 + d.val * 2 ^ 10 + slot.val * 2 ^ 4 + 11)
  | .convoyIssue units slots => some (slotsW slots * 2 ^ 32 + unitsW units * 2 ^ 7 + units.length * 2 ^ 4 + 3)
  | .vaddInt f => some (vecW 0x00 f)
  | .vsubInt f => some (vecW 0x01 f)
  | .vmulInt f => some (vecW 0x02 f)
  | .vmulh f => some (vecW 0x03 f)
  | .vminInt f => some (vecW 0x04 f)
  | .vmaxInt f => some (vecW 0x05 f)
  | .vmacc f => some (vecW 0x06 f)
  | .vdivInt f => some (vecW 0x07 f)
  | .vrem f => some (vecW 0x08 f)
  | .vand f => some (vecW 0x09 f)
  | .vor f => some (vecW 0x0A f)
  | .vxor f => some (vecW 0x0B f)
  | .vsll f => some (vecW 0x0C f)
  | .vsrl f => some (vecW 0x0D f)
  | .vsra f => some (vecW 0x0E f)
  | .vmv f => some (vecW 0x0F f)
  | .vcmp r f => some (vecW (0x10 + r.code) f)
  | .vaddFloat f => some (vecW 0x40 f)
  | .vsubFloat f => some (vecW 0x41 f)
  | .vmulFloat f => some (vecW 0x42 f)
  | .vdivFloat f => some (vecW 0x43 f)
  | .vfma f => some (vecW 0x44 f)
  | .vfms f => some (vecW 0x45 f)
  | .vfnma f => some (vecW 0x46 f)
  | .vsqrt f => some (vecW 0x47 f)
  | .vminFloat f => some (vecW 0x60 f)
  | .vmaxFloat f => some (vecW 0x61 f)
  | .vfcmp r f => some (vecW (0x62 + r.code) f)
  | .vfclass f => some (vecW 0x66 f)
  | .vsgnj f => some (vecW 0x67 f)
  | .vsgnn f => some (vecW 0x68 f)
  | .vsgnx f => some (vecW 0x69 f)
  | .vcvt f => some (vecW 0x70 f)
  | .vmand f => some (vecW 0x80 f)
  | .vmor f => some (vecW 0x81 f)
  | .vmxor f => some (vecW 0x82 f)
  | .vmnot f => some (vecW 0x83 f)
  | .vmpop f => some (vecW 0x84 f)
  | .vmfirst f => some (vecW 0x85 f)
  | .vmerge f => some (vecW 0x86 f)
  | .vmk f => some (vecW 0x87 f)
  | .viota f => some (vecW 0x88 f)
  | .vid f => some (vecW 0x89 f)
  | .vslideup f => some (vecW 0x90 f)
  | .vslidedn f => some (vecW 0x91 f)
  | .vperm f => some (vecW 0x92 f)
  | .vcompress f => some (vecW 0x93 f)
  | .vbcast f => some (vecW 0x94 f)
  | .vtoo f => some (vecW 0x95 f)
  | .vredsum f => some (vecW 0xA0 f)
  | .vredmin f => some (vecW 0xA1 f)
  | .vredmax f => some (vecW 0xA2 f)
  | .vredand f => some (vecW 0xA3 f)
  | .vredor f => some (vecW 0xA4 f)
  | .vredxor f => some (vecW 0xA5 f)
  | .vld f => some (vecW 0xB0 f)
  | .vldHome f => some (vecW 0xB1 f)
  | .vldLast f => some (vecW 0xB2 f)
  | .vlds f => some (vecW 0xB3 f)
  | .vldsHome f => some (vecW 0xB4 f)
  | .vldx f => some (vecW 0xB5 f)
  | .vldxPeer f => some (vecW 0xB5 f)
  | .vldxHome f => some (vecW 0xB6 f)
  | .vldff f => some (vecW 0xB7 f)
  | .ldt f => some (vecW 0xB8 f)
  | .vldo f => some (vecW 0xB9 f)
  | .vst f => some (vecW 0xD0 f)
  | .vsts f => some (vecW 0xD1 f)
  | .vstx f => some (vecW 0xD2 f)
  | .vstxPeer f => some (vecW 0xD2 f)
  | .vamoAdd f => some (vecW 0xE0 f)
  | .vamoMin f => some (vecW 0xE1 f)
  | .vamoMax f => some (vecW 0xE2 f)
  | .vamoAnd f => some (vecW 0xE3 f)
  | .vamoOr f => some (vecW 0xE4 f)
  | .vamoXor f => some (vecW 0xE5 f)
  | .vamoSwap f => some (vecW 0xE6 f)
  | .vamoCas f => some (vecW 0xE7 f)
  | .mmode f => some (matW 0x00 f)
  | .mshape f => some (matW 0x01 f)
  | .mzero f => some (matW 0x02 f)
  | .mzeroAcc f => some (matW 0x02 f)
  | .mldb f => some (matW 0x03 f)
  | .mmul f => some (matW 0x04 f)
  | .mopa f => some (matW 0x05 f)
  | .mgmul f => some (matW 0x06 f)
  | .mdrain f => some (matW 0x07 f)
  | .mdrainx f => some (matW 0x08 f)
  | .mrecv f => some (matW 0x09 f)
  | .mrecvCancel f => some (matW 0x09 f)
  | .mchain f => some (matW 0x0A f)
  | .mchainAccept f => some (matW 0x0A f)
  | .munchain f => some (matW 0x0B f)
  | .mwait f => some (matW 0x0C f)
  | .mmulx f => some (matW 0x10 f)
  | .mrinv f => some (matW 0x11 f)
  | .mrinvAll f => some (matW 0x11 f)
  | .mrpf f => some (matW 0x12 f)
  | .mrprobe f => some (matW 0x13 f)
  | .trap imm => some (sysW imm.toNat 0 0 0 0x00)
  | .tret => some (sysW 0 0 0 0 0x01)
  | .brk imm => some (sysW imm.toNat 0 0 0 0x02)
  | .watchCore i d a b => some (sysW i.val b.val a.val d.val 0x03)
  | .watchHome i d a b => some (sysW (16 + i.val) b.val a.val d.val 0x03)
  | .watchCount i d a b => some (sysW (48 + i.val) b.val a.val d.val 0x03)
  | .ctxsave rel incr d a b => some (sysW (bitCode rel + 2 * bitCode incr) b.val a.val d.val 0x04)
  | .ctxload d a => some (sysW 0 0 a.val d.val 0x05)
  | .tlbinvVa a b => some (sysW 0 b.val a.val 0 0x06)
  | .tlbinvCtx a b => some (sysW 1 b.val a.val 0 0x06)
  | .tlbinvAll a b => some (sysW 2 b.val a.val 0 0x06)
  | .sysfence imm => some (sysW imm.toNat 0 0 0 0x07)
  | .travset d a die entry => some (sysW (die.val * 256 + entry.val) 0 a.val d.val 0x10)
  | .rbind d a slot => some (sysW slot.val 0 a.val d.val 0x20)
  | .rload d slot => some (sysW slot.val 0 0 d.val 0x21)
  | .runbind d slot => some (sysW slot.val 0 0 d.val 0x22)
  | .runbindCtx d a slot => some (sysW (64 + slot.val) 0 a.val d.val 0x22)
  | .rquery d slot => some (sysW slot.val 0 0 d.val 0x23)
  | .otherHintCode code a f3 d => some (siW code.toNat a.val f3.val d.val 31)
  | .unassignedEncoding _ | .umov | .umovi | .uhi | .urds | .uwrs | .urdo | .uwro | .uadd | .usub | .umul
  | .uand | .uor | .uxor | .usll | .usrl | .usra | .uslt | .usltn | .umin | .umax | .uaddi | .ufadd | .ufsub
  | .ufmul | .ufma | .ufmin | .ufmax | .ufcvti | .uicvtf | .uld | .ust | .uvadd | .uvsub | .uvmul | .uvmin
  | .uvmax | .uvand | .uvor | .uvxor | .uvfma | .ubeq | .ubne | .ublt | .uj | .uloop | .uend
  | .teamBarrierRelease | .pauseExpiry | .matrixSequence | .mdrainxRowArrival | .interruptTake | .timerCompare
  | .preemptRequest | .coreOutOfService | .farAtomicAtHome | .recall | .leaseRequest | .leaseExpiry
  | .dirtyWriteback | .lastDrop | .bankDrowsy | .bankWake | .linkRetry | .linkDown | .queueRouterEntry
  | .crossoverHoldExpiry | .pairNotice | .pairAck | .queueOpAtHome | .placeTask | .taskStart | .taskReclaim
  | .liftAging | .segmentReport | .groupIssue | .faultQueuePush | .resumeReleased | .engineDecrement
  | .transferStop | .collectiveComplete | .hostAtomic | .hostPostedWrite | .sysregWrite | .mstateRead
  | .carveWrite | .ortableWrite | .leaseWrite | .sscrWrite | .liftContextWrite | .drowsyWrite | .bootclr
  | .bootok | .moduleReset | .startWatchdog | .peerPortDown | .d3hot | .level2McheckReset | .taskEndedAfterTrap
  | .inputPowerFault | .peerPostedWrite | .mrpfFetchCompletion => none

/-- The word of a micro-operation and its operands (R355–R358); none for an instruction that is no micro-operation. -/
def encodeMicro (i : Instr) (f : UF) : Option Nat :=
  match i with
  | .umov => some (uaW 0x00 f.d.code f.a.code 0 0)
  | .umovi => some (uaW 0x01 f.d.code 0 0 f.imm.toNat)
  | .uhi => some (uaW 0x02 f.d.code f.a.code 0 f.imm.toNat)
  | .urds => some (uaW 0x03 f.d.code 0 0 f.r.val)
  | .uwrs => some (uaW 0x04 0 f.a.code 0 f.r.val)
  | .urdo => some (uaW 0x05 f.d.code 0 f.b.code f.e.val)
  | .uwro => some (uaW 0x06 0 f.a.code f.b.code f.e.val)
  | .uadd => some (uaW 0x08 f.d.code f.a.code f.b.code 0)
  | .usub => some (uaW 0x09 f.d.code f.a.code f.b.code 0)
  | .umul => some (uaW 0x0A f.d.code f.a.code f.b.code 0)
  | .uand => some (uaW 0x0B f.d.code f.a.code f.b.code 0)
  | .uor => some (uaW 0x0C f.d.code f.a.code f.b.code 0)
  | .uxor => some (uaW 0x0D f.d.code f.a.code f.b.code 0)
  | .usll => some (uaW 0x0E f.d.code f.a.code f.b.code 0)
  | .usrl => some (uaW 0x0F f.d.code f.a.code f.b.code 0)
  | .usra => some (uaW 0x10 f.d.code f.a.code f.b.code 0)
  | .uslt => some (uaW 0x11 f.d.code f.a.code f.b.code 0)
  | .usltn => some (uaW 0x12 f.d.code f.a.code f.b.code 0)
  | .umin => some (uaW 0x13 f.d.code f.a.code f.b.code 0)
  | .umax => some (uaW 0x14 f.d.code f.a.code f.b.code 0)
  | .uaddi => some (uaW 0x15 f.d.code f.a.code 0 f.imm.toNat)
  | .ufadd => some (uaW 0x18 f.d.code f.a.code f.b.code 0)
  | .ufsub => some (uaW 0x19 f.d.code f.a.code f.b.code 0)
  | .ufmul => some (uaW 0x1A f.d.code f.a.code f.b.code 0)
  | .ufma => some (uaW 0x1B f.d.code f.a.code f.b.code 0)
  | .ufmin => some (uaW 0x1C f.d.code f.a.code f.b.code 0)
  | .ufmax => some (uaW 0x1D f.d.code f.a.code f.b.code 0)
  | .ufcvti => some (uaW 0x1E f.d.code f.a.code 0 (bitCode f.sat))
  | .uicvtf => some (uaW 0x1F f.d.code f.a.code 0 0)
  | .uld => some (uaW 0x20 f.d.code f.a.code 0 (f.ldt.code * 256 + f.off.toNat))
  | .ust => some (uaW 0x21 0 f.a.code f.b.code (f.stw.code * 256 + f.off.toNat))
  | .uvadd => some (uvW 0x28 f.v)
  | .uvsub => some (uvW 0x29 f.v)
  | .uvmul => some (uvW 0x2A f.v)
  | .uvmin => some (uvW 0x2B f.v)
  | .uvmax => some (uvW 0x2C f.v)
  | .uvand => some (uvW 0x2D f.v)
  | .uvor => some (uvW 0x2E f.v)
  | .uvxor => some (uvW 0x2F f.v)
  | .uvfma => some (uvW 0x30 f.v)
  | .ubeq => some (uaW 0x38 0 f.a.code f.b.code f.tgt.val)
  | .ubne => some (uaW 0x39 0 f.a.code f.b.code f.tgt.val)
  | .ublt => some (uaW 0x3A 0 f.a.code f.b.code f.tgt.val)
  | .uj => some (uaW 0x3B 0 0 0 f.tgt.val)
  | .uloop => some (uaW 0x3C 0 0 0 f.tgt.val)
  | .uend => some (uaW 0x3F 0 0 0 0)
  | _ => none

/-- A micro-operation word (R355–R359): the operation and operands that its fields hold, refused unless every field that
the row does not use is 0 and the operands are allowed, that is unless the word is the one that encodes them. A branch
target is checked against COUNT with the whole image (R359). -/
def decodeMicro (w : Nat) : Option (Instr × UF) :=
  match microFields (fld w 26 6) ((UOpd.ofCode (fld w 21 5)).filter (fun x => x != .ximm)) (UOpd.ofCode (fld w 16 5))
    (UOpd.ofCode (fld w 11 5)) w with
  | some (i, f) => if i.ufWf f && encodeMicro i f == some w then some (i, f) else none
  | none => none

/-- What the decoder reads from an instruction whose low bits are w, every bit above nbits being zero. A word that is no
instruction of the main map and that is a micro-operation of the routine store is read as that micro-operation
(log 8). -/
def decodeTableWord (nbits w : Nat) : Option Instr :=
  match decodeBytes (leBytes 60 (w % 2 ^ nbits)) with
  | some (.unassignedEncoding n, _) =>
    match decodeMicro (w % 2 ^ 32) with
    | some i => some i.1
    | none => some (.unassignedEncoding n)
  | some (i, _) => some i
  | none => none

end Sys2Proof
end

