-- ==== Sys2Proof/Machine/VectorCtl.lean ====
section
/-! DEFINITION. Strip-mining, convoys at issue, virtual processors, and encodings that are no instruction (02 R32–R36;
03 R51–R53, R67; 07 R154–R155, R178–R180; 08 R190). -/

namespace Sys2Proof.Machine

/-! ## Strip-mining (R154) -/

/-- Element bits of a size code (R123). -/
def sizeBits (sz : Fin 5) : Nat := if sz = 4 then 4 else 8 * 2 ^ sz.val

/-- n elements of a size code in bytes, modulo 2^64: half bytes for code 4. -/
def sizeTimes (sz : Fin 5) (n : Int) : Word := BitVec.ofInt 64 (if sz = 4 then n / 2 else n * (2 ^ sz.val : Nat))

/-- The pointers that bits [7:0] of a mask choose move past n elements. -/
def Thread.stepPointers (t : Thread) (sel : Word) (n : Nat) : Thread :=
  { t with p := Vector.ofFn (fun j => if sel.getLsbD j.val then rd t.p j + sizeTimes (rd t.psz j) n else rd t.p j) }

/-- The granted vector length (R154). -/
def grantVl (n vlen : Nat) (sz : Fin 5) : Nat :=
  let vl := min n (vlen * 8 / sizeBits sz)
  if sz = 4 ∧ 32 ≤ vl then vl - vl % 32 else vl

def execVstrip (sz : Fin 5) (d a : Reg) (k : KReg) (s : State) : Out :=
  .next (s.notVp (
    let old := s.th.vec.vl
    let sel := s.getK k
    if old % 2 = 1 ∧ (List.range 8).any (fun j => sel.getLsbD j && rd s.th.psz (Fin.ofNat 8 j) == 4) = true then
      s.fault Cause.resop
    else
      let n := (s.getS a).toNat
      let vl := grantVl n s.vlen sz
      let t := s.th.stepPointers sel old
      ({ s with th := { t with vec := { t.vec with vl } } }).result d (wd (n - vl))))

/-! ## Convoys (R155) -/

/-- Every VP of the served group stands at an address. -/
def Thread.groupPc (t : Thread) (pc : Word) : Thread :=
  match t.vp with
  | none => t
  | some v =>
    let vps := v.vps.mapIdx (fun i x => if v.group.contains i then { x with pc } else x)
    { t with vp := some { v with todo := [], vps } }

/-- The vector length that a header reads: in a fetched block that of `vfetch` (R155, R180). -/
def Thread.issueVl (t : Thread) : Nat := match t.vp with | some v => v.vl | none => t.vec.vl

/-- The header issues: VL and RM are read once, and the PC moves past the convoy. Its element 0 runs on lane `lane0`, where it borrows
lanes of `lender`. -/
def Thread.issueConvoy (t : Thread) (units : List (Fin 7)) (slots : List (BitVec 64)) (lane0 : Nat) (lender : Option (Fin 4)) :
    Thread :=
  let after := t.pc + wd (4 + 8 * slots.length)
  { (t.groupPc after) with
    pc := after
    convoy := some { hdr := t.pc, units, slots, next := 0, vl := t.issueVl, rm := t.vec.rm, after, lane0, lender, lent := false } }

/-- A thread's convoy changed, where one is under way. -/
def Thread.onConvoy (t : Thread) (f : Convoy → Convoy) : Thread := { t with convoy := t.convoy.map f }

/-- The convoy has idle lanes for vl elements, out of n, and has lent none (R37). -/
def Convoy.canLend (c : Convoy) (n vl : Nat) : Bool := !c.lent && c.lender.isNone && decide (c.vl + vl ≤ n)

/-- The sibling whose convoy lends its idle lanes to a convoy of vl elements of the thread in focus, and the convoy's VL: the first that
can, counting back from the thread's own slot. Threads issue in barrel order, so the first sibling after the owner whose convoy can
use the lanes is the first to come here (R37, log 50). -/
def State.lenderFor (s : State) (vl : Nat) : Option (Fin 4 × Nat) :=
  [3, 2, 1].findSome? (fun d =>
    let j := (s.slot.val + d) % 4
    match (s.threadAt s.coreId j).convoy with
    | some c => if (s.threadAt s.coreId j).occ && c.canLend s.nLanes vl then some (Fin.ofNat 4 j, c.vl) else none
    | none => none)

/-- The thread in focus takes back the lanes that it has lent: a borrower goes on with its own lanes (R37). -/
def State.reclaimLanes (s : State) : State :=
  { s with core := { s.core with parked := s.core.parked.map (fun p =>
      (p.1, p.2.onConvoy (fun c => if c.lender = some s.slot then { c with lane0 := 0, lender := none } else c))) } }

/-- The convoy of the thread in slot j has lent its idle lanes. -/
def State.markLent (s : State) (j : Fin 4) : State :=
  { s with core := { s.core with parked := s.core.parked.map (fun p =>
      (p.1, if p.1 = j.val then p.2.onConvoy (fun c => { c with lent := true }) else p.2)) } }

/-- The header issues for the thread in focus, on lanes of its own or on idle ones that a sibling lends (R37, R155). -/
def State.issueConvoy (s : State) (units : List (Fin 7)) (slots : List (BitVec 64)) : State :=
  let s1 := s.reclaimLanes
  match s1.lenderFor s1.th.issueVl with
  | some (j, n) => { (s1.markLent j) with th := s1.th.issueConvoy units slots n (some j) }
  | none => { s1 with th := s1.th.issueConvoy units slots 0 none }

/-- A slot's instruction may stand in a fetched block (R35, R160, R266, R304). -/
def vpSafeSlot (i : Instr) : Bool :=
  match i with
  | .vmpop _ | .vmfirst _ | .viota _ | .vslideup _ | .vslidedn _ | .vperm _ | .vcompress _ | .vbcast _ | .vtoo _ | .vredsum _
  | .vredmin _ | .vredmax _ | .vredand _ | .vredor _ | .vredxor _ | .vldff _ | .vldo _ | .ldt _ => false
  | .vamoAdd f | .vamoMin f | .vamoMax f | .vamoAnd f | .vamoOr f | .vamoXor f | .vamoSwap f | .vamoCas f => !f.ord
  | _ => true

/-- Every slot of a convoy may stand in a fetched block: no matrix slot may. -/
def vpSafeConvoy (units : List (Fin 7)) (slots : List (BitVec 64)) : Bool :=
  (List.range slots.length).all (fun i =>
    match units[i]?, slots[i]? with
    | some u, some w => u != 6 && (match decodeSlot u.val w.toNat with | some x => vpSafeSlot x | none => true)
    | _, _ => true)

/-- A convoy header. In a fetched block a convoy with a slot that is not VP-safe raises ILLEGAL, which names the VP (R35); else the
convoy issues once for the group. Vector slots wait for the core's matrix queue (R188); an FMA slot outside V mode raises RESOP at
the header (R190). -/
def execConvoyIssue (units : List (Fin 7)) (slots : List (BitVec 64)) (s : State) : Out :=
  .next (
    if s.inVp && !vpSafeConvoy units slots then s.fault Cause.illegal
    else if units.any (fun u => u != 6) && s.matBusy then s
    else if units.contains 1 && s.core.mat.mode != .v then s.fault Cause.resop
    else s.parkVp.issueConvoy units slots)

/-- An encoding that is no instruction raises ILLEGAL at itself; a convoy names its lowest offending slot (R51, R67). -/
def execUnassignedEncoding (slot : Nat) (s : State) : Out := .next (s.fault { Cause.illegal with felem := wd slot })

/-! ## Virtual processors -/

def Vp.done (v : Vp) : Bool := v.stopped || v.never

/-- `vfetch` (R178): the VPs are the active elements below VL, and their copies start from the thread's registers. -/
def Thread.startVps (t : Thread) (acts : List Nat) (join : Word) : Thread :=
  let pc := t.pc + 4
  let v : VpState :=
    { vl := t.vec.vl, join, s := t.s, k := t.k, acqL1 := t.acqL1, acqRdc := t.acqRdc
      vps := (List.range t.vec.vl).map (fun i =>
        { pc, stopped := false, never := !acts.contains i, s := t.s, k := t.k, acqL1 := t.acqL1, acqRdc := t.acqRdc })
      group := acts, todo := acts, cur := none, blkFrom := pc, blkTop := pc, blkLeft := 63 }
  { t with vp := some v }

/-- IALIGN comes before the ILLEGAL of a `vfetch` in a fetched block (R45). -/
def execVfetch (msk : Option (Fin 8)) (a : Reg) (s : State) : Out :=
  let join := s.getS a
  .next (if join.toNat % 4 ≠ 0 then s.fault (Cause.ialign join) else s.notVp (
      let acts := (List.range s.th.vec.vl).filter (s.active msk)
      if acts.isEmpty then s.setPc (join + 4) else { s with th := s.th.startVps acts join }))

/-- A VP stops at the join; when every VP has stopped, the thread goes on after it with its own registers (R34). -/
def Thread.stopVp (t : Thread) (v : VpState) (i : Nat) : Thread :=
  let vps := v.vps.modify i (fun x => { x with stopped := true })
  if vps.all Vp.done then { t with vp := none, pc := v.join + 4 } else { t with vp := some { v with vps } }

/-- `vpjoin` (R34, R178, R179). A VP at another `vpjoin` than the one that `vfetch` named raises ILLEGAL (log 11). -/
def execVpjoin (s : State) : Out :=
  .next (
    match s.vpIndex with
    | none => s.fault Cause.illegal
    | some i =>
      match s.parkVp.th.vp with
      | some v => if s.th.pc ≠ v.join then s.fault Cause.illegal else { s with th := s.parkVp.th.stopVp v i }
      | none => s)

/-- The group of unfinished VPs at one address whose lowest index follows `after` in the rotation (R33). R33 gives the order of increasing
lowest VP and no start after a split: the model's choice is to go on after the lowest VP of the group just served, so that a part without
that VP comes first (log 55). -/
def nextGroup (vps : List Vp) (after : Nat) : List Nat :=
  let live := (List.range vps.length).filter (fun i => match vps[i]? with | some x => !x.done | none => false)
  let pcOf := fun i => (vps[i]?.map (·.pc)).getD 0
  let leaders := live.filter (fun i => !live.any (fun j => decide (j < i) && pcOf j == pcOf i))
  match (leaders.find? (fun i => decide (after < i))).orElse (fun _ => leaders.head?) with
  | some i => live.filter (fun j => pcOf j == pcOf i)
  | none => []

/-- The next VP of a group stands in the thread's registers, with its own acquire points (R275). -/
def Thread.loadVp (t : Thread) (v : VpState) (i : Nat) (todo : List Nat) : Thread :=
  match v.vps[i]? with
  | some x =>
    { t with s := x.s, k := x.k, pc := x.pc, acqL1 := max t.acqL1 x.acqL1, acqRdc := max t.acqRdc x.acqRdc, vp := some { v with cur := some i, todo } }
  | none => { t with vp := some { v with todo } }

/-- The served group goes on: all its unfinished members stand at one address of its block, of which it has instructions left to
perform. R33 fetches a block of at most 64 instructions at the group's PC and does not say how far it reaches: here it is what the group
has fetched on its way, straight on from where it began; a branch back to that stays in the block, a branch past it leaves the block, and
the block ends after 64 instructions performed, so that a group that loops gives up its turn as well (R40, log 55). -/
def VpState.goesOn (v : VpState) : Option (List Nat) :=
  let live := v.group.filter (fun i => match v.vps[i]? with | some x => !x.done | none => false)
  match live.head?.bind (fun i => v.vps[i]?) with
  | none => none
  | some x =>
    if live.all (fun i => (v.vps[i]?.map (·.pc)) == some x.pc) &&
        decide (0 < v.blkLeft) && decide (v.blkFrom.toNat ≤ x.pc.toNat) && decide (x.pc.toNat ≤ v.blkTop.toNat) then some live else none

/-- The next VP to perform an instruction: the rest of the served group, else the group's next instruction, else the next
group of the rotation with a block of its own. -/
def Thread.vpTurn (t0 : Thread) : Thread :=
  let t := t0.parkVp
  match t.vp with
  | none => t
  | some v =>
    match v.todo with
    | i :: rest => t.loadVp v i rest
    | [] =>
      match v.goesOn with
      | some (i :: rest) => t.loadVp { v with group := i :: rest, blkLeft := v.blkLeft - 1 } i rest
      | _ =>
        match nextGroup v.vps (v.group.headD 0) with
        | i :: rest =>
          let pc := (v.vps[i]?.map (·.pc)).getD 0
          t.loadVp { v with group := i :: rest, blkFrom := pc, blkTop := pc, blkLeft := 63 } i rest
        | [] => { t with vp := none, pc := v.join + 4 }

/-- An instruction of n bytes has been fetched at the top of the block: the block grows (R33). -/
def Thread.vpFetched (t : Thread) (n : Nat) : Thread :=
  match t.vp with
  | none => t
  | some v =>
    if t.pc = v.blkTop then { t with vp := some { v with blkTop := t.pc + wd n } } else t

end Sys2Proof.Machine
end

