-- ==== Sys2Proof/Machine/Memory.lean ====
section
/-! DEFINITION. Scalar loads and stores, pointers, slice scratch, system registers, cache instructions and fences
(06 R124, R135, R145–R147; 11 R254, R256, R262–R263; 12 R275–R277). -/

namespace Sys2Proof.Machine

/-- Bytes of a load type (R145). -/
def ldBytes : LdTy → Nat
  | .i8 | .n8 => 1 | .i16 | .n16 => 2 | .i32 | .n32 => 4 | .i64 => 8

def ldSigned : LdTy → Bool
  | .i8 | .i16 | .i32 | .i64 => true | .n8 | .n16 | .n32 => false

/-- Bytes of a store (R146). -/
def stBytes : StW → Nat
  | .b => 1 | .h => 2 | .w => 4 | .d => 8

/-! ## Loads and stores -/

/-- The address of a scalar access: register plus immediate, modulo 2^64. -/
def State.ea (s : State) (a : Reg) (imm : BitVec 12) : Nat := (s.getS a + sext imm).toNat

/-- A load at va into s[d] (R145). A faulting load writes no register. -/
def State.loadAt (s : State) (kind : LoadKind) (ty : LdTy) (d : Reg) (va : Nat) : State :=
  let (s1, x) := s.load kind va (ldBytes ty)
  match x with
  | .error t => s1.fault t
  | .ok v => s1.result d (extend (ldSigned ty) (ldBytes ty) v)

def execLd (ty : LdTy) (d a : Reg) (imm : BitVec 12) (s : State) : Out := .next (s.loadAt .plain ty d (s.ea a imm))
def execLdHome (ty : LdTy) (d a : Reg) (imm : BitVec 12) (s : State) : Out := .next (s.loadAt .home ty d (s.ea a imm))
def execLdLast (ty : LdTy) (d a : Reg) (imm : BitVec 12) (s : State) : Out := .next (s.loadAt .last ty d (s.ea a imm))

/-- A store of the low bytes of a value (R146). -/
def State.storeTo (s : State) (va n : Nat) (v : Word) : State :=
  let (s1, x) := s.store1 va n (v.toNat % 256 ^ n)
  match x with
  | .error t => s1.fault t
  | .ok () => s1.advance 4

def execSt (sz : StW) (a b : Reg) (off : BitVec 12) (s : State) : Out :=
  .next (s.storeTo (s.ea a off) (stBytes sz) (s.getS b))

/-! ## Pointers (R123, R124); not VP-safe -/

def execPset (d : PReg) (a : Reg) (sz : Fin 5) (s : State) : Out :=
  .next (s.notVp (
    (({ s with th := { s.th with psz := wr s.th.psz d sz } }).setP d (s.getS a)).advance 4))

def execPadv (d : Reg) (a : PReg) (imm : BitVec 12) (s : State) : Out :=
  .next (s.notVp (
    if rd s.th.psz a = 4 ∧ imm.toNat % 2 = 1 then s.fault Cause.resop
    else
      let p := s.getP a + sizeTimes (rd s.th.psz a) imm.toInt
      (s.setP a p).result d p))

/-! ## Slice scratch (R254) -/

/-- The fault of an access of n bytes at offset x of the cluster's slice scratch. -/
def State.ssFault (s : State) (x : Word) (n : Nat) : Option Trap :=
  let c := s.sscrOf (clusterOf s.coreId)
  if x.toNat % n ≠ 0 then some (Cause.dalign x.toNat)
  else if field c 0 4 = 0 ∨ field c 0 4 * 262144 < x.toNat + n ∨ s.core.sys.ctxid.toNat ≠ field c 32 16 then
    some (Cause.ssrange x)
  else none

/-- An access of slice scratch wakes its bank (R255, log 51). -/
def State.ssWake (s : State) (x : Word) : State :=
  { s with store := s.store.wake (clusterOf s.coreId * 16 + getBits x.toNat 13 4) }

def execSsld (ty : LdTy) (d a : Reg) (imm : BitVec 12) (s : State) : Out :=
  let x := s.getS a + sext imm
  .next (match s.ssFault x (ldBytes ty) with
    | some t => s.fault t
    | none =>
      (s.ssWake x).result d (extend (ldSigned ty) (ldBytes ty) ((s.ssOf (clusterOf s.coreId)).readN x.toNat (ldBytes ty))))

def execSsst (sz : StW) (a b : Reg) (off : BitVec 12) (s : State) : Out :=
  let x := s.getS a + sext off
  let cl := clusterOf s.coreId
  .next (match s.ssFault x (stBytes sz) with
    | some t => s.fault t
    | none => ((s.ssWake x).setSs cl ((s.ssOf cl).writeN x.toNat (stBytes sz) (s.getS b).toNat)).advance 4)

/-! ## System registers (R135); not VP-safe -/

/-- Registers whose access first waits for the core's earlier matrix instructions (R188, R222). A write of `ORBASE` or `ORCNT` does not wait:
no rule names a wait for it, a choice of the model (log 29). -/
def sysWaits : SysReg → Bool
  | .mstate | .tshape _ | .orflt0 | .orflt1 | .orprobe => true
  | .vstate | .lcount | .thread | .cycle | .lanebusy | .regerr | .carve | .tframe | .tvec | .tstat | .ttimer | .ipend | .orbase
  | .orcnt | .sscr | .lease | .fqueue | .liftw | .taskrec | .ctxtab | .recmap | .ptroot | .ctxid | .mcvec | .mcframe => false

/-- The context table's word at an offset of the entry of the core's context is read at its home (R297, R338). -/
def State.readCtxWord (s : State) (off : Nat) : State :=
  match s.ctxEntry s.core.sys.ctxid.toNat off with
  | some lin => s.homeRead lin 8
  | none => s

/-- A register that is a word of the context table is read at that word's home before its value is taken. -/
def State.beforeRead (s : State) (r : SysReg) : State :=
  if r = .fqueue then s.readCtxWord 0x40 else if r = .liftw then s.readCtxWord 0x48 else s

/-- What a read leaves: of `MSTATE` it clears FCAUSE and nothing else (R182). -/
def State.afterRead (s : State) (r : SysReg) : State := if r = .mstate then s.clearFcause else s

/-- The common part of the four forms: VP, level, wait. -/
def State.sysForm (s : State) (r : SysReg) (level : Nat) (body : State) : State :=
  s.notVp (s.atLevel level (if sysWaits r && s.queueHeld then s else body))

def execSysrd (d : Reg) (r : SysReg) (s : State) : Out :=
  let s1 := s.beforeRead r
  .next (s.sysForm r (sysReadLevel r) ((s1.afterRead r).result d (s1.sysValue r)))

/-- A kernel write of `CARVE` that asks for a change of register granules waits as `carve` does (R227, R230). -/
def State.carveWaits (s : State) (r : SysReg) (v : Word) : Bool :=
  let w := carveWord v
  r == .carve && bit v.toNat 54 && !splitMalformed w && decide (splitSum w ≤ s.core.freeGranules) && s.carveHeld w

/-- A write of v, with s[d] := old for the forms that return it. -/
def State.sysWrite (s : State) (r : SysReg) (v : Word) (d : Option Reg) : State :=
  if s.carveWaits r v then s
  else
    match s.sysPut r v with
    | none => s.fault Cause.resop
    | some s1 =>
      match d with
      | none => s1.advance 4
      | some d => (s1.afterRead r).result d (s.sysValue r)

def execSyswr (a : Reg) (r : SysReg) (s : State) : Out :=
  .next (s.sysForm r (sysWriteLevel r) (s.sysWrite r (s.getS a) none))
def execSysset (d a : Reg) (r : SysReg) (s : State) : Out :=
  let s1 := s.beforeRead r
  .next (s.sysForm r (sysWriteLevel r) (s1.sysWrite r (s1.sysValue r ||| s.getS a) (some d)))
def execSysclr (d a : Reg) (r : SysReg) (s : State) : Out :=
  let s1 := s.beforeRead r
  .next (s.sysForm r (sysWriteLevel r) (s1.sysWrite r (s1.sysValue r &&& ~~~ s.getS a) (some d)))

/-! ## Cache instructions (R262, R263) -/

/-- The place of a prefetch or wake, which never faults: none where a one-byte load would (R256, R263). -/
def State.quietPlace (s : State) (va : Nat) : State × Option Nat :=
  let (s1, x) := s.locate va 1 .read
  match x with
  | .ok (.mem pa _) => (s1, match s1.place pa with | .media _ => some pa | _ => none)
  | .ok (.spad _) => (s1, none)
  | .error _ => (s1, none)

/-- A sector of the line is poisoned where a fetch would take it: in the RDC copy, else at home. -/
def State.linePoisoned (s : State) (tag : Nat) : Bool :=
  match s.rdcCopy tag with
  | some x => x.poison != 0
  | none => [0, 1, 2, 3].any (fun i => (s.sectorNow (4 * linLine tag + i)).2)

def State.prefetch (s : State) (va : Nat) (l1 : Bool) : State :=
  let (s1, x) := s.quietPlace va
  match x with
  | none => s1
  | some pa =>
    if s1.linePoisoned (pa / 128) then s1
    else if l1 then (s1.l1Read pa 1).1
    else (s1.fetchLine (pa / 128)).1

def execPrefL1 (a : Reg) (imm : BitVec 12) (s : State) : Out := .next ((s.prefetch (s.ea a imm) true).advance 4)
def execPrefL2 (a : Reg) (imm : BitVec 12) (s : State) : Out := .next ((s.prefetch (s.ea a imm) false).advance 4)

/-- The bank of the line at va, or all 16 banks of its slice, are awake (R256). -/
def State.wakeAt (s : State) (va : Nat) (all : Bool) : State :=
  let (s1, x) := s.quietPlace va
  match x with
  | none => s1
  | some pa =>
    let b := homeBank ((linOf pa).getD 0)
    { s1 with store := if all then s1.store.wakeSlice (b / 16) else s1.store.wake b }

def execWake (a : Reg) (imm : BitVec 12) (s : State) : Out := .next ((s.wakeAt (s.ea a imm) false).advance 4)
def execWakeAll (a : Reg) (imm : BitVec 12) (s : State) : Out := .next ((s.wakeAt (s.ea a imm) true).advance 4)

/-- A cache instruction on the line at va: faults as a one-byte load, never POISON. `act` gets the line's tag; where `cut` says that links
on its way home are down, it does not complete (R263). -/
def State.onLine (s : State) (va : Nat) (cut : State → Nat → Bool) (act : State → Nat → State) : State :=
  let (s1, x) := s.reach va 1 1 .read
  match x with
  | .error t => s1.fault t
  | .ok (.spad _) => s1.advance 4
  | .ok (.mem pa _) =>
    match s1.place pa with
    | .media _ => if cut s1 (pa / 128) then s else (act s1 (pa / 128)).advance 4
    | .host _ | .peer _ _ | .cfg _ | .none => s1.advance 4

/-- No link is up on the way from the core to the line's home (R247). -/
def State.homeCut (s : State) (tag : Nat) : Bool := s.cutOff s.coreId (homeDie (128 * linLine tag))

/-- The line's stored bytes, or its ownership, would have to cross links that are down: what `flush`, `inval` and `drop` send home. -/
def State.flushCut (s : State) (tag : Nat) : Bool :=
  s.homeCut tag && (s.core.line tag).any (fun l => l.sec.toList.any (fun x => x.dmask != 0))
def State.dropCut (s : State) (tag : Nat) : Bool := s.homeCut tag && (s.core.line tag).any (·.excl)
def State.invalCut (s : State) (tag : Nat) : Bool := s.flushCut tag || s.dropCut tag

/-- The core's dirty sectors of the line go home; the line stays, clean. -/
def State.flushLine (s : State) (tag : Nat) : State := s.writeBack s.coreId tag (fun _ => true)

/-- The home slice's dirty sectors of the line go to the media. -/
def State.homeToMedia (s : State) (tag : Nat) : State :=
  let s1 := s.recall (linLine tag) none
  { s1 with store := (s1.store.flushLine (linLine tag)).wakeLine (linLine tag) }

/-- This die's RDC copy of a remote line is dropped. -/
def State.dropRdc (s : State) (tag : Nat) : State :=
  if remoteTo s.coreId tag then { s with store := s.store.rdcDrop (dieOf s.coreId) tag } else s

/-- L1 drops the line unwritten, but returns an exclusive line with its data (R263). -/
def State.dropLine (s : State) (tag : Nat) : State :=
  match (s.core.line tag).filter (·.excl) with
  | some _ => s.evict s.coreId tag
  | none => { s with core := s.core.dropL1 tag }

def execFlush (a : Reg) (imm : BitVec 12) (s : State) : Out := .next (s.onLine (s.ea a imm) State.flushCut State.flushLine)
def execFlushMem (a : Reg) (imm : BitVec 12) (s : State) : Out :=
  .next (s.onLine (s.ea a imm) State.homeCut (fun t tag => (t.flushLine tag).homeToMedia tag))
def execInval (a : Reg) (imm : BitVec 12) (s : State) : Out :=
  .next (s.onLine (s.ea a imm) State.invalCut (fun t tag => (t.evict t.coreId tag).dropRdc tag))
def execDrop (a : Reg) (imm : BitVec 12) (s : State) : Out := .next (s.onLine (s.ea a imm) State.dropCut State.dropLine)

/-! ## Fences (R275–R277) -/

/-- Scope codes (R269). -/
def scopeCode : Scope → Nat
  | .core => 0 | .clu => 1 | .die => 2 | .pkg => 3 | .fab => 4

/-- A fence waits for the core's earlier matrix instructions, then acts. One that releases over a link that is down does not complete
(R277). `rel` says that it releases. -/
def State.fenceWith (s : State) (rel : Bool) (scope : Nat) (act : State → State) : State :=
  if s.matBusy || (rel && s.releaseCut scope) then s else (act s).advance 4

def execFence (sc : Scope) (s : State) : Out :=
  .next (s.fenceWith true (scopeCode sc) (fun t => (t.release (scopeCode sc)).acquire (scopeCode sc)))
def execFenceAcq (sc : Scope) (s : State) : Out := .next (s.fenceWith false (scopeCode sc) (fun t => t.acquire (scopeCode sc)))
def execFenceRel (sc : Scope) (s : State) : Out := .next (s.fenceWith true (scopeCode sc) (fun t => t.release (scopeCode sc)))

end Sys2Proof.Machine
end

