-- ==== Sys2Proof/Machine/Fetch.lean ====
section
/-! DEFINITION. Fetching an instruction: translation of each parcel, code blocks, decoding (03 R43–R45, R69). -/

namespace Sys2Proof.Machine

/-- A 64-byte block of device memory as its home holds it. -/
def State.codeBlock (s : State) (blk : Nat) : Blob :=
  let lin := (linOf (64 * blk)).getD 0
  s.homeBytes lin 32 + 2 ^ 256 * s.homeBytes (lin + 32) 32

/-- A block is read at its home, which recalls its line (R255, R283, R297, R386). -/
def State.readBlock (s : State) (blk : Nat) : State :=
  let k := (linOf (64 * blk)).getD 0 / 32
  (s.recall (linLine (blk / 2)) none).noteAccess [(k, BitVec.allOnes 32), (k + 1, BitVec.allOnes 32)] true false

/-- The parcel at a physical address. A fetch of a block is a read at its home (R255, R283, R386). A block of device memory that
has been fetched is fetched no more until the core discards it; one that is fetched now is as its home holds it now, where R69
also allows a block as it stood when the task was dispatched (log 53). -/
def State.parcelAt (s : State) (pa : Nat) : State × Nat :=
  match s.place pa with
  | .media _ =>
    match look s.core.ibuf (pa / 64) with
    | some x => (s, getB x (pa % 64) 4)
    | none =>
      let s1 := s.readBlock (pa / 64)
      let x := s1.codeBlock (pa / 64)
      ({ s1 with core := { s1.core with ibuf := (pa / 64, x) :: s1.core.ibuf } }, getB x (pa % 64) 4)
  | .host off => (s, s.store.host.readN off 4)
  | .peer j lin => (s, ((look s.store.peer j.val).getD []).readN lin 4)
  | .cfg off => (s, (s.cfgLoad s.th.level.toNat off 4).getD 0)
  | .none => (s, 0)

/-- One parcel at a virtual address, which a fetch translates with X (R388). A poisoned sector raises POISON. R45 orders translation
faults alone: here the lowest parcel with a fault of any of these kinds names it, and SPADR, NOMEM or POISON of a parcel stands where its
translation fault would (log 12). -/
def State.fetchParcel (s : State) (va : Nat) : State × Except Trap Nat :=
  if inSpw va then
    if s.core.spadSize < va - spw + 4 then (s, .error (Cause.spadr (va - spw)))
    else (s, .ok (s.core.spad.readN (va - spw) 4))
  else
    let (s1, x) := s.translate va .exec
    match x with
    | .bad sub fpa => (s1, .error (Cause.ixlate sub va fpa))
    | .ok pa _ =>
      if !s1.present pa 4 then (s1, .error (Cause.nomem va pa))
      else if (match s1.place pa with | .media lin => s1.homePoison lin | _ => false) then
        (s1.readBlock (pa / 64), .error (Cause.poison va pa))
      else
        let (s2, w) := s1.parcelAt pa
        (s2, .ok w)

/-- n parcels upward from va as one word. -/
def State.fetchParcels (s : State) (va : Nat) : Nat → State × Except Trap Nat
  | 0 => (s, .ok 0)
  | n + 1 =>
    let (s1, x) := s.fetchParcel va
    match x with
    | .error t => (s1, .error t)
    | .ok w =>
      let (s2, y) := s1.fetchParcels ((va + 4) % 2 ^ 64) n
      match y with
      | .error t => (s2, .error t)
      | .ok v => (s2, .ok (w + 2 ^ 32 * v))

/-- The instruction at an address and its length in bytes: the first parcel alone decides how many follow (R43). -/
def State.fetchAt (s : State) (va : Nat) : State × Except Trap (Instr × Nat) :=
  let (s1, x) := s.fetchParcel va
  match x with
  | .error t => (s1, .error t)
  | .ok w =>
    let n := instrLen w
    let (s2, y) := s1.fetchParcels ((va + 4) % 2 ^ 64) (n / 4 - 1)
    match y with
    | .error t => (s2, .error t)
    | .ok v => (s2, .ok (decodeInstr (w + 2 ^ 32 * v), n))

end Sys2Proof.Machine
end

