-- ==== Sys2Proof/Machine/Engines.lean ====
section
/-! DEFINITION. Copy, gather and collective engines: commands, delivery, decrements, stops (12 R279–R280; 14 R324, R347–R350;
21 R400; 22 R414). -/

namespace Sys2Proof.Machine

/-! ## Command blocks (R348) -/

def cpySrc (x : Blob) : Nat := getB x 0 8
def cpyDst (x : Blob) : Nat := getB x 8 8
def cpyRows (x : Blob) : Nat := getB x 0x10 4
def cpyRb (x : Blob) : Nat := getB x 0x14 4
def cpySs (x : Blob) : Nat := getB x 0x18 4
def cpyDs (x : Blob) : Nat := getB x 0x1C 4

def gathBase (x : Blob) : Nat := getB x 0 8
def gathIdx (x : Blob) : Nat := getB x 8 8
def gathDst (x : Blob) : Nat := getB x 0x10 8
def gathCnt (x : Blob) : Nat := getB x 0x18 4
def gathEsz (x : Blob) : Nat := getB x 0x1C 4

def collSend (x : Blob) : Nat := getB x 0 8
def collRecv (x : Blob) : Nat := getB x 8 8
def collBytes (x : Blob) : Nat := getB x 0x10 8
def collKind (x : Blob) : Nat := getB x 0x20 1
def collTy (x : Blob) : Nat := getB x 0x21 1
def collRank (x : Blob) : Nat := getB x 0x23 1
def collSize (x : Blob) : Nat := getB x 0x24 1

/-- SCOPE: a code of R269 from 1 to 4. -/
def blkScope (x : Blob) : Nat := getB x 0x38 1

/-- Bytes that a participant sends to a collective, and that arrive at it (R348; log 15). -/
def collOut (x : Blob) : Nat := if collKind x = 2 then collBytes x / collSize x else collBytes x
def collIn (x : Blob) : Nat := if collKind x = 1 then collBytes x / collSize x else collBytes x

/-- n bytes at va pass the end of a scratchpad of `spad` bytes. -/
def pastSpad (spad va n : Nat) : Bool := inSpw va && decide (spad < va - spw + n)

def blkScopeBad (x : Blob) : Bool := blkScope x == 0 || decide (4 < blkScope x) || getB x 0x39 7 != 0

def cpyBad (x : Blob) (spad : Nat) : Bool :=
  getB x 0x20 0x18 != 0 || cpyRows x == 0 || cpyRb x == 0 || decide (2 ^ 56 ≤ cpyRows x * cpyRb x) ||
    pastSpad spad (cpySrc x) ((cpyRows x - 1) * cpySs x + cpyRb x) ||
    pastSpad spad (cpyDst x) ((cpyRows x - 1) * cpyDs x + cpyRb x)

def gathBad (x : Blob) (spad : Nat) : Bool :=
  getB x 0x20 0x18 != 0 || gathCnt x == 0 || gathEsz x == 0 || decide (4096 < gathEsz x) ||
    pastSpad spad (gathIdx x) (8 * gathCnt x) || pastSpad spad (gathDst x) (gathCnt x * gathEsz x)

def collBad (x : Blob) (spad : Nat) : Bool :=
  getB x 0x25 0x13 != 0 || decide (3 < collKind x) || !([2, 6, 9, 11].contains (collTy x)) || decide (collSize x < 2) ||
    decide (64 < collSize x) || collBytes x % (collSize x * 128) != 0 || decide (collSize x ≤ collRank x) ||
    pastSpad spad (collSend x) (collOut x) || pastSpad spad (collRecv x) (collIn x)

def blkBad (k : EKind) (x : Blob) (spad : Nat) : Bool :=
  blkScopeBad x || (match k with | .cpy => cpyBad x spad | .gath => gathBad x spad | .coll => collBad x spad)

/-- Bytes that a command delivers. -/
def ECmd.total (c : ECmd) : Nat :=
  match c.kind with
  | .cpy => cpyRows c.blk * cpyRb c.blk
  | .gath => gathCnt c.blk * gathEsz c.blk
  | .coll => collIn c.blk

/-! ## Issue (R347) -/

/-- The counter of a command: a counter object, or the PEND word of a record, in device memory. -/
def State.commandCounter (s : State) (va : Nat) : State × Except Trap Nat :=
  if va % 32 ≠ 0 ∧ va % 256 ≠ 0x18 then (s, .error (Cause.dalign va))
  else if inSpw va then (s, .error Cause.resop)
  else
    let (s1, t) := s.translate va .atomic
    match t with
    | .bad sub fpa => (s1, .error (Cause.xlate sub va fpa))
    | .ok pa rc =>
      match s1.place pa with
      | .none => (s1, .error (Cause.nomem va pa))
      | .media _ => if va % 32 ≠ 0 ∧ rc = false then (s1, .error (Cause.dalign va)) else (s1, .ok pa)
      | .host _ | .peer _ _ | .cfg _ => (s1, .error Cause.resop)

/-- Queues of an engine kind on a die, and their entries; the collective engine serves the module. -/
def engines : EKind → Nat
  | .cpy => 4 | .gath => 1 | .coll => 1

def queueRoom : EKind → Nat
  | .cpy => 64 | .gath => 64 | .coll => 32

def State.queued (s : State) (k : EKind) (die eng : Nat) : Nat :=
  (s.fab.cmds.filter (fun c => c.kind == k && (k == .coll || c.die == die) && c.eng == eng)).length

/-- The emptiest queue, none where all are full. -/
def State.engineFor (s : State) (k : EKind) (die : Nat) : Option Nat :=
  let best := (List.range (engines k)).foldl (fun b e => if s.queued k die e < s.queued k die b then e else b) 0
  if s.queued k die best < queueRoom k then some best else none

def State.issueCommand (s : State) (k : EKind) (d : Reg) (x : Blob) (va counter : Nat) : State :=
  if blkBad k x s.core.spadSize then s.result d 1
  else
    let die := dieOf s.coreId
    match s.engineFor k die with
    | none => s.result d 2
    | some eng =>
      if s.releaseCut (blkScope x) then s
      else
        let s1 := s.release (blkScope x)
        let c : ECmd :=
          { id := s1.fab.nextId, kind := k, die, eng, blk := x, counter, ctx := s1.core.sys.ctxid.toNat,
            root := s1.core.sys.ptroot.toNat, level := s1.th.level, core := s1.coreId, sent := 0, counted := 0 }
        ((s1.setFab { s1.fab with cmds := s1.fab.cmds ++ [c], nextId := c.id + 1 }).noteUse c.id va).result d 0

/-- A command instruction. It waits for the core's matrix queue, whose accesses are the thread's. -/
def State.command (s : State) (k : EKind) (d a b : Reg) : State :=
  let va := (s.getS a).toNat
  s.notVp (
    let (s1, t) := s.reach va 64 64 .read
    match t with
    | .error e => s1.fault e
    | .ok tg =>
      let (s2, ws) := s1.readTable tg va
      match ws with
      | .error e => s2.fault e
      | .ok ws =>
        let (s3, y) := s2.commandCounter (s2.getS b).toNat
        match y with
        | .error e => s3.fault e
        | .ok counter => if s3.matBusy then s else s3.issueCommand k d (packB 8 (ws.map BitVec.toNat)) (s2.getS b).toNat counter)

def execCpy (d a b : Reg) (s : State) : Out := .next (s.command .cpy d a b)
def execGath (d a b : Reg) (s : State) : Out := .next (s.command .gath d a b)
def execColl (d a b : Reg) (s : State) : Out := .next (s.command .coll d a b)

/-! ## Stopping (R350) -/

/-- A transfer that has delivered `total` bytes, `rest` of them uncounted, stops at the counter at lin. -/
def State.stopAt (s : State) (lin rest total : Nat) : State :=
  let s1 := match s.fab.tasks.find? (fun t => t.phase == .pending && t.rec_ + 0x18 == lin) with
    | some t => s.faultTask t 1 1 0
    | none => s
  let s2 := match s1.armed lin with
    | some r =>
      let s2 := ((s1.disarm lin).homeRead (r + 0x14) 1).readMap r
      s2.faultTask (LTask.blank r ((s2.recContext r).getD 0)) 1 (s2.recByte r 0x14) 0
    | none => s1
  let s3 := (s2.decrement lin rest).1
  let err := s3.homeBytes (lin + 8) 8
  s3.homeWrite (lin + 8) 8 (Nat.lor (putBits err 0 56 (getBits err 0 56 + total)) (2 ^ 63)) false

def State.putCmd (s : State) (c : ECmd) : State :=
  s.setFab { s.fab with cmds := s.fab.cmds.map (fun x => if x.id == c.id then c else x) }

def State.dropCmd (s : State) (id : Nat) : State := s.setFab { s.fab with cmds := s.fab.cmds.filter (fun x => x.id != id) }

/-! ## Delivering bytes -/

/-- The rights of a command's accesses (R414). -/
def ECmd.rights (c : ECmd) : Rights := { ctx := c.ctx, root := c.root, level := c.level.toNat }

/-- m bytes within one sector that a command reads, with their poison; none where the transfer stops. -/
def State.engineRead (s : State) (c : ECmd) (va m : Nat) : State × Option (Nat × Bool) :=
  if inSpw va then
    let k := s.coreAt c.core
    (s, if k.spadSize < va - spw + m then none else some (k.spad.readN (va - spw) m, false))
  else
    let (s1, x) := s.xlateAs va .read c.rights
    match x with
    | .bad _ _ => (s1, none)
    | .ok pa _ => if s1.linkCut c.die pa then (s1, none) else s1.chunkRead pa m

/-- The bytes at a virtual address have arrived spoilt on their way to or from a command's engine. -/
def State.acrossLink (s : State) (c : ECmd) (va : Nat) : Bool :=
  !inSpw va && (match s.xlateOf va .read c.rights with
    | .bad _ _ => false
    | .ok pa _ => s.spoilt c.die pa)

/-- m bytes within one sector that a command writes at their home; false where the transfer stops. No L1 or RDC copy changes (R400). -/
def State.engineWrite (s : State) (c : ECmd) (va m v : Nat) (poison : Bool) : State × Bool :=
  if inSpw va then
    let k := s.coreAt c.core
    if poison || decide (k.spadSize < va - spw + m) then (s, false)
    else (s.setCore c.core { k with spad := k.spad.writeN (va - spw) m v }, true)
  else
    let (s1, x) := s.xlateAs va .write c.rights
    match x with
    | .bad _ _ => (s1, false)
    | .ok pa _ => if s1.linkCut c.die pa then (s1, false) else s1.chunkWrite pa m v poison

/-- n bytes from va on that a command reads, by sectors: the number, and the distances from `base` at which poisoned sectors begin; none
where one cannot be read. `fuel` bounds the number of sectors. -/
def State.engineBytes (c : ECmd) (base : Nat) : Nat → State → Nat → Nat → State × Option (Nat × List Nat)
  | 0, s, _, n => (s, if n = 0 then some (0, []) else none)
  | fuel + 1, s, va, n =>
    if n = 0 then (s, some (0, []))
    else
      let m := min n (32 - va % 32)
      let (s1, x) := s.engineRead c (va % 2 ^ 64) m
      match x with
      | none => (s1, none)
      | some (v, p) =>
        let (s2, y) := State.engineBytes c base fuel s1 (va + m) (n - m)
        (s2, y.map (fun r => (v + 256 ^ m * r.1, if p then (va - base) :: r.2 else r.2)))

/-- The source and destination of byte p of a copy or gather, and the bytes left in its row or element; a gather reads its index, which none
stands for where it cannot be read or is poisoned. -/
def State.enginePlace (s : State) (c : ECmd) (p : Nat) : State × Option (Nat × Nat × Nat) :=
  match c.kind with
  | .cpy =>
    let rb := cpyRb c.blk
    (s, some ((cpySrc c.blk + p / rb * cpySs c.blk + p % rb) % 2 ^ 64, (cpyDst c.blk + p / rb * cpyDs c.blk + p % rb) % 2 ^ 64,
      rb - p % rb))
  | .gath =>
    let sz := gathEsz c.blk
    let (s1, i) := State.engineBytes c 0 2 s (gathIdx c.blk + 8 * (p / sz)) 8
    (s1, match i with
      | some (i, []) => some ((gathBase c.blk + i + p % sz) % 2 ^ 64, (gathDst c.blk + p) % 2 ^ 64, sz - p % sz)
      | some (_, _ :: _) | none => none)
  | .coll => (s, none)

/-- n bytes of a copy or gather from byte p on: how many have been delivered when it is done or stops. With `ev.flag` bulk data has stayed
uncorrectable on its links and is delivered poisoned (R247). -/
def State.deliver (c : ECmd) : Nat → State → Nat → Nat → State × Nat
  | 0, s, _, _ => (s, 0)
  | fuel + 1, s, p, n =>
    if n = 0 then (s, 0)
    else
      let (s0, place) := s.enginePlace c p
      match place with
      | none => (s0, 0)
      | some (src, dst, row) =>
        let m := min (min n row) (min (32 - src % 32) (32 - dst % 32))
        let (s1, x) := s0.engineRead c src m
        match x with
        | none => (s1, 0)
        | some (v, poison) =>
          let (s2, ok) := s1.engineWrite c dst m v (poison || s1.acrossLink c src || s1.acrossLink c dst)
          if ok then
            let r := State.deliver c fuel s2 (p + m) (n - m)
            (r.1, m + r.2)
          else (s2, 0)

/-- The virtual address that byte p of a command goes to. -/
def ECmd.dest (c : ECmd) (p : Nat) : Nat :=
  match c.kind with
  | .cpy => (cpyDst c.blk + p / cpyRb c.blk * cpyDs c.blk + p % cpyRb c.blk) % 2 ^ 64
  | .gath => (gathDst c.blk + p) % 2 ^ 64
  | .coll => (collRecv c.blk + p) % 2 ^ 64

/-- Copies of the line at va give way: those of the command's die in its RDC, and with `l1` those of its core's L1. From `.die` on the copies
under the other alias are among them (R242, R276, R282). -/
def State.giveWay (s : State) (c : ECmd) (scope : Nat) (l1 : Bool) (va : Nat) : State :=
  if inSpw va then s
  else
    match s.xlateOf va .read c.rights with
    | .bad _ _ => s
    | .ok pa _ =>
      let tags := if 2 ≤ scope then [pa / 128, otherTag (pa / 128)] else [pa / 128]
      let s1 : State := { s with store := tags.foldl (fun t tag => t.rdcDrop c.die tag) s.store }
      if l1 then
        let k := s1.coreAt c.core
        s1.setCore c.core { k with l1 := k.l1.map (fun l => if tags.contains l.tag && !l.excl then { l with filled := false } else l) }
      else s1

/-- The release of a decrement at `.die` or narrower (R279): an acquire there keeps RDC copies, so the copies that the engine's die holds of
the lines of bytes p to p + n − 1 give way to the bytes delivered. From `.pkg` on the acquire itself does it (R276). -/
def State.engineRelease (s : State) (c : ECmd) (p n : Nat) : State :=
  if 3 ≤ blkScope c.blk then s
  else
    ((List.range n).map (p + ·)).foldl (fun t q =>
      if q = p ∨ c.dest q % 128 = 0 ∨ c.dest q ≠ c.dest (q - 1) + 1 then t.giveWay c (blkScope c.blk) false (c.dest q) else t) s

/-- A command stops: the bytes that it has delivered and not yet counted are released, and its counter takes them (R279, R350). -/
def State.stopCmd (s : State) (c : ECmd) : State :=
  ((s.dropCmd c.id).engineRelease c c.counted (c.sent - c.counted)).stopAt ((linOf c.counter).getD 0) (c.sent - c.counted) c.sent

/-- The next 64 KiB of a command, or its remainder, delivered and counted; the command ends at its last byte, or stops, which is
what the second part says. -/
def State.engineTurn (s : State) (c : ECmd) : State × Bool :=
  let n := min 65536 (c.total - c.sent)
  let r := State.deliver c n s c.sent n
  let c1 := { c with sent := c.sent + r.2 }
  if r.2 < n then (r.1.stopCmd c1, true)
  else
    let d := (r.1.engineRelease c c.sent n).decrement ((linOf c.counter).getD 0) (c1.sent - c1.counted)
    if d.2 = false then (d.1.stopCmd c1, true)
    else if c.total ≤ c1.sent then (d.1.dropCmd c.id, false)
    else (d.1.putCmd { c1 with counted := c1.sent }, false)

def State.cmdById (s : State) (id : Nat) : Option ECmd := s.fab.cmds.find? (fun c => c.id == id)

/-- Engine command `ev.id`, a copy or gather, delivers and counts its next bytes (R347). -/
def execEngineDecrement (s : State) : Out :=
  .next (match s.cmdById s.ev.id with
    | some c => if c.kind = .coll then s else (s.engineTurn c).1
    | none => s)

/-- Command `ev.id` stops for the reason `ev.why`: one that the environment brings, or one that its next bytes meet. -/
def execTransferStop (s : State) : Out :=
  .next (match s.cmdById s.ev.id with
    | some c =>
      match s.ev.why with
      | .link | .refused | .mismatch => s.stopCmd c
      | .translation | .poison | .scratchpad | .counter =>
        let t := s.engineTurn c
        if c.kind ≠ .coll ∧ t.2 = true then t.1 else s
    | none => s)

/-! ## Collectives (R280, R348) -/

/-- One addition of a collective's sum on elements of its type. -/
def collAdd (ty x y : Nat) : Nat :=
  match ETy.ofCode ty with
  | some e => if e.isInt then (x + y) % 2 ^ e.bits else (FOp.add.eval (fmtOf e) .rne 0 x y).code
  | none => 0

/-- Element i of the sum over the participants, in increasing rank. -/
def collSum (ty bits i : Nat) (parts : List Blob) : Nat :=
  match parts with
  | [] => 0
  | x :: xs => xs.foldl (fun a y => collAdd ty a (getBits y (i * bits) bits)) (getBits x (i * bits) bits)

/-- Byte q of RECV comes from a byte of this module's SEND that lies in a sector beginning at one of the given distances (R260). -/
def collSpoilt (x : Blob) (bad : List Nat) (q : Nat) : Bool :=
  let part := collBytes x / collSize x
  let from_ := match collKind x with
    | 0 => some q
    | 1 => some (collRank x * part + q)
    | 2 => if q / part = collRank x then some (q % part) else none
    | _ => if collRank x = 0 then some q else none
  match from_ with
  | some y => bad.any (fun b => (collSend x + b) / 32 == (collSend x + y) / 32)
  | none => false

/-- Every peer port that a collective uses is up (R404). -/
def State.portsUp (s : State) (c : ECmd) : Bool := Nat.land (getB c.blk 0x22 1) (255 - s.boot.ports.toNat) == 0

/-- What arrives in RECV when every participant's SEND is known, in rank order. -/
def collResult (x : Blob) (parts : List Blob) : Blob :=
  let bits := (tyBits (collTy x)).getD 32
  let part := collBytes x / collSize x
  let sum := fun (off n : Nat) =>
    packB (bits / 8) ((List.range (n * 8 / bits)).map (fun i => collSum (collTy x) bits (off * 8 / bits + i) parts))
  match collKind x with
  | 0 => sum 0 (collBytes x)
  | 1 => sum (collRank x * part) part
  | 2 => packB part parts
  | _ => parts.headD 0

/-- n bytes of a number written from va on, poisoned where `bad` says of their distance from the start: how many when it is done or
stops. -/
def State.engineStore (c : ECmd) (bad : Nat → Bool) : Nat → State → Nat → Nat → Nat → State × Nat
  | 0, s, _, _, _ => (s, 0)
  | fuel + 1, s, va, n, v =>
    if n = 0 then (s, 0)
    else
      let m := min n (32 - va % 32)
      let (s1, ok) := s.engineWrite c (va % 2 ^ 64) m (v % 256 ^ m) ((List.range m).any (fun i => bad (va - collRecv c.blk + i)))
      if ok then
        let r := State.engineStore c bad fuel s1 (va + m) (n - m) (v / 256 ^ m)
        (r.1, m + r.2)
      else (s1, 0)

/-- A counter decremented after each 64 KiB and for the remainder: how many bytes were counted, `fuel` bounding the decrements. -/
def State.decrementBy64K : Nat → State → Nat → Nat → State × Nat
  | 0, s, _, _ => (s, 0)
  | fuel + 1, s, lin, n =>
    if n = 0 then (s, 0)
    else
      let d := s.decrement lin (min n 65536)
      if d.2 then
        let r := State.decrementBy64K fuel d.1 lin (n - min n 65536)
        (r.1, min n 65536 + r.2)
      else (d.1, 0)

/-- The copies that the issuing core and its die hold of n bytes of a named buffer give way, under both aliases: what an acquire and a
release at `.fab` of these bytes come to for them (R280, R296). -/
def State.yieldBuffer (s : State) (c : ECmd) (base n : Nat) : State :=
  (List.range (n / 128 + 2)).foldl (fun t i => t.giveWay c 4 true ((base + min (128 * i) (n - 1)) % 2 ^ 64)) s

/-- Every other participant's bytes of collective `ev.id` have arrived: `ev.parts` gives the SEND buffers by rank, this module's
own read here. Poison of SEND goes with the bytes that come from it; with `ev.flag` all arrives poisoned (R247, R260). The completion
is an acquire of the named buffers, SEND and RECV, at `.fab` for the issuing core: posted writes that the I/O dies have received come home
first, and older copies give way (R280, R296). A port that is down has stopped the transfer (R404). -/
def execCollectiveComplete (s : State) : Out :=
  .next (match s.cmdById s.ev.id with
    | some c =>
      if c.kind ≠ .coll ∨ s.ev.parts.length ≠ collSize c.blk then s
      else if s.portsUp c = false then s.stopCmd c
      else
        let (s1, mine) := State.engineBytes c (collSend c.blk) (collOut c.blk / 32 + 2) s.drainPosted (collSend c.blk) (collOut c.blk)
        match mine with
        | none => s1.stopCmd c
        | some (x, bad) =>
          let parts := (s.ev.parts.map ofBytes).set (collRank c.blk) x
          let r := State.engineStore c (fun q => s.ev.flag || collSpoilt c.blk bad q) (collIn c.blk / 32 + 2) s1 (collRecv c.blk) (collIn c.blk) (collResult c.blk parts)
          let lin := (linOf c.counter).getD 0
          if r.2 < collIn c.blk then r.1.stopCmd { c with sent := r.2 }
          else
            let u := (r.1.yieldBuffer c (collSend c.blk) (collOut c.blk)).yieldBuffer c (collRecv c.blk) r.2
            let d := State.decrementBy64K (r.2 / 65536 + 1) u lin r.2
            if d.2 < r.2 then d.1.stopCmd { c with sent := r.2, counted := d.2 } else d.1.dropCmd c.id
    | none => s)

end Sys2Proof.Machine
end

