-- ==== Sys2Proof/Machine/MatArith.lean ====
section
/-! DEFINITION. The arithmetic of the multiply-cell array and the register groups it reads and writes (05 R112–R117; 08 R184–R185,
R199–R202; 18 R395). -/

namespace Sys2Proof.Machine

/-! ## Groups of registers: v[base], v[base + 1], … each giving VLEN bytes (R184) -/

/-- n bytes of a thread's group from offset off; `fuel` bounds the registers. Beyond `v63` there is nothing. -/
def Thread.grp (t : Thread) : Nat → Nat → Nat → Nat → Nat
  | 0, _, _, _ => 0
  | fuel + 1, base, off, n =>
    let len := t.vec.vlen
    if n = 0 ∨ len = 0 then 0
    else
      let m := min n (len - off % len)
      let x := match t.vec.v[base + off / len]? with | some r => getB r.data (off % len) m | none => 0
      x + 256 ^ m * Thread.grp t fuel base (off + m) (n - m)

/-- n bytes at offset off of the group from v[base]. -/
def Thread.group (t : Thread) (base off n : Nat) : Nat := t.grp (n / 64 + 2) base off n

/-- An `.f32` of a group. -/
def Thread.f32At (t : Thread) (base off : Nat) : Nat := t.group base off 4

/-- n bytes written within one register of a group, with a type other than `.mxf4` (R117, R380). -/
def Thread.groupPut (t : Thread) (base off n v : Nat) : Thread :=
  let len := max t.vec.vlen 1
  let i := base + off / len
  match t.vec.v[i]? with
  | none => t
  | some r =>
    let x : VRegister :=
      { data := putB r.data (off % len) n v, tag := false, side := r.side, vb := max r.vb (roundUp (off % len + n) 64),
        dirty := true }
    { t with vec := { t.vec with v := wr t.vec.v (Fin.ofNat 64 i) x } }

/-- One block of 16 bytes with its scale written to a group (R117). `free i` is the sidecar of register i while untagged. -/
def Thread.groupPutMx (t : Thread) (base off v scale : Nat) (free : Nat → Blob) : Thread :=
  let len := max t.vec.vlen 1
  let i := base + off / len
  match t.vec.v[i]? with
  | none => t
  | some r =>
    let x : VRegister :=
      { data := putB r.data (off % len) 16 v, tag := true, side := putB (if r.tag then r.side else free i) (off % len / 16) 1 scale,
        vb := max r.vb (roundUp (off % len + 16) 64), dirty := true }
    { t with vec := { t.vec with v := wr t.vec.v (Fin.ofNat 64 i) x } }

/-- The scale byte of the group's bytes off to off + 15; register i, where untagged, has the free sidecar `free i` (R117, log 3). -/
def Thread.groupScale (t : Thread) (base off : Nat) (free : Nat → Blob) : Nat :=
  let len := max t.vec.vlen 1
  let i := base + off / len
  match t.vec.v[i]? with
  | none => 0
  | some r => getB (if r.tag then r.side else free i) (off % len / 16) 1

/-- Registers that n bytes from the start of a group take. -/
def spanOf (n vlen : Nat) : Nat := (n + vlen - 1) / max vlen 1

/-- Registers a to a + m − 1 and b to b + n − 1 have one in common. -/
def overlaps (a m b n : Nat) : Bool := decide (a < b + n) && decide (b < a + m)

/-- Registers of a tile (R184). -/
def TShape.span (t : TShape) (vlen : Nat) : Nat := spanOf (t.rows * t.cols * 4) vlen

/-! ## Masks (R185) -/

/-- Bit i of a mask whose field is `f`: field 0 masks nothing. -/
def maskBit (f : KReg) (lo hi : Word) (i : Nat) : Bool :=
  f == 0 || (if i < 64 then lo.getLsbD i else hi.getLsbD (i - 64))

def MEntry.rowOn (e : MEntry) (m : Nat) : Bool := maskBit e.f.kr e.kr e.kr1 m
def MEntry.colOn (e : MEntry) (n : Nat) : Bool := maskBit e.f.kc e.kc e.kc1 n

/-- KLEN, in elements, under a Kmax. -/
def MEntry.klen (e : MEntry) (kmax : Nat) : Nat := if e.f.kd = 0 then kmax else field e.kd 0 11

/-- Elements of a type in n bytes. -/
def elemsIn (ty : ETy) (n : Nat) : Nat := n * 8 / ty.bits

/-! ## Sums (R113–R115) -/

/-- Exactly +0, which a masked or absent term is. -/
def zeroVal : Val := .fin false 0 0 false

/-- `RNE32`, as a value. -/
def rne32 (x : Val) : Val := (fmtOf .f32).decode (roundFloat (fmtOf .f32) .rne false 0 x).code

/-- The code of `RNE32`. -/
def rne32Code (x : Val) : Nat := (roundFloat (fmtOf .f32) .rne false 0 x).code

/-- Term(m, k, n) of elements that may be absent. -/
def termOf (a b : Option Val) : Val :=
  match a, b with
  | some x, some y => (Val.mul x y).v
  | _, _ => zeroVal

/-- `ExactSum`: an exact zero is −0 only when every term is −0. -/
def exactSum : List Val → Val
  | [] => zeroVal
  | x :: xs => xs.foldl (fun a y => (Val.add false a y).v) x

/-- The product of a sum and Scale(j), for two scale bytes. -/
def scaleVal (x : Val) (sa sb : Nat) : Val :=
  if sa = 255 ∨ sb = 255 then .nan false else x.scale ((sa : Int) - 127 + ((sb : Int) - 127))

/-- What one cell, or one pair of cells for `.mxf4`, adds: group q of the K elements (R114, R115). -/
def groupSum (ty : ETy) (a b : Nat → Option Val) (sa sb : Nat → Nat) (q : Nat) : Val :=
  if ty = .mxf4 then
    let ks := (List.range 32).map (fun i => 32 * q + i)
    if ks.all (fun k => (a k).isNone || (b k).isNone) then zeroVal
    else rne32 (scaleVal (exactSum (ks.map (fun k => termOf (a k) (b k)))) (sa q) (sb q))
  else
    let g := 64 / ty.bits
    rne32 (exactSum ((List.range g).map (fun i => termOf (a (g * q + i)) (b (g * q + i)))))

/-- The partial sum of one result element over C cells (R114). -/
def cellSum (ty : ETy) (cells : Nat) (a b : Nat → Option Val) (sa sb : Nat → Nat) : Val :=
  (List.range (if ty = .mxf4 then cells / 2 else cells)).foldl (fun ps q =>
    rne32 (Val.add false ps (groupSum ty a b sa sb q)).v) zeroVal

/-- The code of an element after a value has been added (R114). -/
def addTo (code : Nat) (x : Val) : Nat := rne32Code (Val.add false ((fmtOf .f32).decode code) x).v

/-- Element k of a row of bytes, absent from klen up. -/
def rowElem (ty : ETy) (row : Nat) (klen k : Nat) : Option Val :=
  if k < klen then some (tyVal ty (getBits row (k * ty.bits) ty.bits)) else none

/-- Element k of a latched column, absent where its loaded bit is clear. -/
def LatCol.elem (c : LatCol) (ty : ETy) (k : Nat) : Option Val :=
  if bit c.loaded k then some (tyVal ty (getBits c.data (k * ty.bits) ty.bits)) else none

/-! ## Tiles in a core's registers -/

/-- Element (r, n) of a tile. -/
def TShape.at_ (t : TShape) (r n : Nat) : Nat := (r * t.cols + n) * 4

/-- Tile elements of core c's thread written; `es` gives row, column and code. -/
def State.putTile (s : State) (c : Nat) (t : TShape) (es : List (Nat × Nat × Nat)) : State :=
  if es.isEmpty then s
  else
    s.setThread c t.owner.val (es.foldl (fun th e => th.groupPut t.base.val (t.at_ e.1 e.2.1) 4 e.2.2)
      (s.threadAt c t.owner.val))

def State.tileElem (s : State) (c : Nat) (t : TShape) (r n : Nat) : Nat :=
  (s.threadAt c t.owner.val).f32At t.base.val (t.at_ r n)

/-- Every element of a tile set to +0. -/
def State.zeroTile (s : State) (c : Nat) (t : TShape) : State :=
  s.putTile c t ((List.range t.rows).flatMap (fun r => (List.range t.cols).map (fun n => (r, n, 0))))

end Sys2Proof.Machine
end

