-- ==== Sys2Proof/Machine/MatPost.lean ====
section
/-! DEFINITION. Posting matrix instructions: what earlier entries will leave, the checks, the queue (08 R185–R190, R193–R210;
09 R220, R223–R224). -/

namespace Sys2Proof.Machine

/-- Flag i of fx. -/
def fxBit (f : MF) (i : Nat) : Bool := f.fx.getLsbD i

def modeOfCode : Nat → MMode
  | 0 => .v | 1 => .ws | 2 => .rs | _ => .follow

/-! ## What every earlier entry will leave (R187) -/

/-- The matrix state as a posting check sees it. -/
structure MView where
  mode : MMode
  mvl : BitVec 2
  shape : Vector TShape 8
  wlive : Bool
  latTy : ETy
  chain : BitVec 3
  recv : Vector Bool 8

def Mat.view (m : Mat) : MView :=
  { mode := m.mode, mvl := m.mvl, shape := m.tshape, wlive := m.wlive, latTy := m.latTy, chain := m.chain,
    recv := m.recv.map Option.isSome }

/-- The shape word of `mshape` (R196). -/
def shapeOf (w : Word) (owner : Fin 4) : TShape :=
  { owner, rows := field w 16 8, cols := field w 8 8, base := Fin.ofNat 64 (field w 0 6) }

/-- Every tile undefined (R194). -/
def dropShapes (v : Vector TShape 8) : Vector TShape 8 := v.map (fun t => { t with rows := 0 })

/-- The view once an entry has completed. -/
def MView.after (v : MView) (e : MEntry) : MView :=
  if e.mop = mopMmode then
    let target := modeOfCode (e.f.fx.toNat % 4)
    let w := { v with mode := target, wlive := if target = v.mode then v.wlive else false }
    if fxBit e.f 3 then { w with shape := dropShapes w.shape } else w
  else if e.mop = mopMshape then
    { v with shape := wr v.shape e.f.t (shapeOf e.sv e.slot), mvl := BitVec.ofNat 2 (field e.sv 24 2) }
  else if e.mop = mopMldb then { v with wlive := true, latTy := e.f.ty }
  else if e.mop = mopMmulx then { v with wlive := false }
  else if e.mop = mopMrecv then { v with recv := wr v.recv e.f.t (!fxBit e.f 0) }
  else if e.mop = mopMchain then
    if fxBit e.f 1 then { v with chain := 1 } else { v with chain := if fxBit e.f 0 then 3 else 2, wlive := false }
  else if e.mop = mopMunchain then
    { v with chain := 0, wlive := v.wlive && !(v.chain == 2 || v.chain == 3) }
  else v

/-- The view at posting. -/
def Core.postView (c : Core) : MView := c.mat.queue.foldl MView.after c.mat.view

/-- An `mchain` of a leader is still to run: what it will leave is not known yet. -/
def Core.chainPending (c : Core) : Bool := c.mat.queue.any (fun e => e.mop == mopMchain && !fxBit e.f 1)

/-! ## Parts of the checks -/

/-- Columns that a tile may have: N, or 2N while leading an east chain. -/
def MView.maxCols (v : MView) (n : Nat) : Nat := if v.chain = 2 then 2 * n else n

/-- Bytes of K of a column: 512, or 1,024 while leading a south chain. -/
def MView.colBytes (v : MView) : Nat := if v.chain = 3 then 1024 else 512

/-- A row or column mask over n places is well given: one that needs the next register is not in `k15`. -/
def maskOk (f : KReg) (n : Nat) : Bool := f == 0 || decide (n ≤ 64) || f != 15

/-- A depth mask under Kmax is well given. -/
def depthOk (f : KReg) (k : Word) (kmax : Nat) : Bool := f == 0 || (field k 11 53 == 0 && decide (field k 0 11 ≤ kmax))

/-- Bytes of K elements of a type. -/
def bytesOf (ty : ETy) (k : Nat) : Nat := (k * ty.bits + 7) / 8

/-- A group of n bytes from v[r] does not pass `v63`. -/
def fits (r : VReg) (n vlen : Nat) : Bool := decide (r.val + spanOf n vlen ≤ 64)

/-- A group of n bytes from v[r] overlaps the tile, while the posting thread owns it; a group of no bytes overlaps nothing. -/
def hitsTile (r : VReg) (n vlen : Nat) (t : TShape) (slot : Fin 4) : Bool :=
  n != 0 && t.owner == slot && overlaps r.val (spanOf n vlen) t.base.val (t.span vlen)

/-- Every register of n bytes from v[r] is tagged. -/
def Thread.tagged (t : Thread) (r : VReg) (n : Nat) : Bool :=
  (List.range (spanOf n t.vec.vlen)).all (fun i => match t.vec.v[r.val + i]? with | some x => x.tag | none => false)

/-- A stride within R199's limits. -/
def strideOk (ty : ETy) (st : Nat) : Bool := st % (if ty = .mxf4 then 16 else 8) == 0 && decide (8 ≤ st) && decide (st ≤ 1024)

/-- Whole blocks of `.mxf4` under KLEN. -/
def blocksOk (ty : ETy) (klen : Nat) : Bool := ty != .mxf4 || klen % 32 == 0

/-- The chain neighbour of core n in a direction (R206). -/
def chainNext (n : Nat) (south : Bool) : Option Nat :=
  let r := routerOf n
  if south then (if r / 8 < 3 then some (n + 48) else none)
  else if r % 8 < 7 then some (n + 6)
  else if hasEast (dieOf n) then some (n + 192 - 42) else none

/-- The rows and first row of a drain's control word (R202, R203). -/
def drainRow0 (w : Word) : Nat := field w 0 8
def drainCnt (w : Word) : Nat := field w 8 8

/-! ## The checks (R187, R190, R193): what holds for an instruction to be posted -/

/-- What a check reads: the view, the core's N and number, the posting thread. -/
structure PostCtx where
  v : MView
  n : Nat
  core : Nat
  slot : Fin 4
  th : Thread

/-- The VL and rounding mode that a matrix instruction reads at posting: in a convoy, those that its header has read for every slot (R155,
R186). -/
def Thread.postVl (t : Thread) : Nat := match t.convoy with | some c => c.vl | none => t.vec.vl
def Thread.postRm (t : Thread) : Rm := match t.convoy with | some c => c.rm | none => t.vec.rm

def PostCtx.vlen (c : PostCtx) : Nat := c.th.vec.vlen
def PostCtx.sv (c : PostCtx) (f : MF) : Word := c.th.getS f.s
def PostCtx.sv1 (c : PostCtx) (f : MF) : Word := c.th.getS (f.s + 1)
def PostCtx.tile (c : PostCtx) (f : MF) : TShape := rd c.v.shape f.t
def PostCtx.free (c : PostCtx) : Bool := c.v.mode != .follow
def PostCtx.chained (c : PostCtx) : Bool := decide (1 ≤ c.v.chain.toNat) && decide (c.v.chain.toNat ≤ 5)

def mmodeOk (c : PostCtx) (f : MF) : Bool :=
  c.free && !c.chained && (!fxBit f 2 || (c.v.mode == .rs && (c.tile f).rows != 0))

def mshapeOk (c : PostCtx) (f : MF) : Bool :=
  let w := c.sv f
  let t := shapeOf w c.slot
  c.free && field w 26 38 == 0 && field w 6 2 == 0 && decide (1 ≤ t.rows) && decide (t.rows ≤ 128) && decide (1 ≤ t.cols) &&
    decide (t.cols ≤ c.v.maxCols c.n) && decide (t.base.val + t.span c.vlen ≤ 64) && !rd c.v.recv f.t

def mzeroOk (c : PostCtx) (f : MF) : Bool := c.free && (if fxBit f 0 then c.v.mode == .rs else (c.tile f).rows != 0)

def mldbOk (c : PostCtx) (f : MF) : Bool :=
  let kmax := elemsIn f.ty c.v.colBytes
  let kd := c.th.getK f.kd
  c.v.mode == .ws && (c.sv f).toNat % (if f.ty = .mxf4 then 16 else 8) == 0 && maskOk f.kc (c.v.maxCols c.n) &&
    depthOk f.kd kd kmax && blocksOk f.ty (if f.kd = 0 then kmax else field kd 0 11)

/-- The checks that `mmul`, `mgmul` and `mmulx` share: mode, tile, type, stride, masks; `rows` is the number of positions. -/
def streamOk (c : PostCtx) (f : MF) (rows : Nat) (latched : Bool) : Bool :=
  let t := c.tile f
  let st := (c.sv f).toNat
  let kmax := elemsIn f.ty c.v.colBytes
  let kd := c.th.getK f.kd
  let klen := if f.kd = 0 then kmax else field kd 0 11
  c.v.mode == .ws && (!latched || (c.v.wlive && f.ty.matClass == c.v.latTy.matClass)) && t.rows != 0 &&
    decide (rows ≤ 16 * 2 ^ c.v.mvl.toNat) && decide (t.cols ≤ c.v.maxCols c.n) && strideOk f.ty st &&
    maskOk f.kr rows && maskOk f.kc t.cols && depthOk f.kd kd kmax && blocksOk f.ty klen && decide (bytesOf f.ty klen ≤ st)

/-- The group of A rows of `mmul` and `mmulx`. -/
def aGroupOk (c : PostCtx) (f : MF) (a : VReg) : Bool :=
  let n := (c.tile f).rows * (c.sv f).toNat
  fits a n c.vlen && !hitsTile a n c.vlen (c.tile f) c.slot && (f.ty != .mxf4 || c.th.tagged a n)

/-- The register that a source field names. -/
def mmulOk (c : PostCtx) (f : MF) : Bool := streamOk c f (c.tile f).rows true && aGroupOk c f f.a

/-- `mgmul` takes `mmul`'s limits, that on ROWS among them, and its own on VL and on its index groups (R200); R118's limits on
VL and mask are none of its, whose VL counts positions of the list (DESIGN CHOICE, log 65). -/
def mgmulOk (c : PostCtx) (f : MF) : Bool :=
  let m := c.th.postVl
  streamOk c f m true && decide ((c.tile f).rows ≤ 16 * 2 ^ c.v.mvl.toNat) && (f.ty != .mxf4 || c.th.tagged f.a 1) &&
    fits f.b (2 * m) c.vlen && !hitsTile f.b (2 * m) c.vlen (c.tile f) c.slot &&
    fits f.c (2 * m) c.vlen && !hitsTile f.c (2 * m) c.vlen (c.tile f) c.slot

def mmulxOk (c : PostCtx) (f : MF) : Bool :=
  streamOk c f (c.tile f).rows false && aGroupOk c f f.a && fits f.b (2 * (c.tile f).rows) c.vlen &&
    fits f.c (4 * (c.tile f).rows) c.vlen

/-- Rows of a group at a stride that a mask leaves unmasked lie within `v63`, tagged for `.mxf4`. -/
def rowsOk (c : PostCtx) (r : VReg) (n st : Nat) (ty : ETy) (on : Nat → Bool) : Bool :=
  (List.range n).all (fun i => !on i ||
    (decide (r.val * c.vlen + (i + 1) * st ≤ 64 * c.vlen) &&
      (ty != .mxf4 || (List.range ((st + 15) / 16)).all (fun j =>
        match c.th.vec.v[r.val + (i * st + 16 * j) / max c.vlen 1]? with | some x => x.tag | none => false))))

def mopaOk (c : PostCtx) (f : MF) : Bool :=
  let st := (c.sv f).toNat
  let kmax := elemsIn f.ty st
  let kd := c.th.getK f.kd
  let klen := if f.kd = 0 then kmax else field kd 0 11
  c.v.mode == .rs && strideOk f.ty st && maskOk f.kr 64 && maskOk f.kc c.n && depthOk f.kd kd kmax && blocksOk f.ty klen &&
    rowsOk c f.a 64 st f.ty (fun i => maskBit f.kr (c.th.getK f.kr) 0 i) &&
    rowsOk c f.b c.n st f.ty (fun i => maskBit f.kc (c.th.getK f.kc) 0 i)

/-- The tile of a drain: 64 × N for the accumulators. -/
def PostCtx.drained (c : PostCtx) (f : MF) : Nat × Nat := if fxBit f 2 then (64, c.n) else ((c.tile f).rows, (c.tile f).cols)

/-- The column mask is uniform within each block of 32 columns (R202). -/
def uniformCols (f : KReg) (lo hi : Word) (cols : Nat) : Bool :=
  (List.range (cols / 32)).all (fun j =>
    (List.range 32).all (fun i => maskBit f lo hi (32 * j + i) == maskBit f lo hi (32 * j)))

def mdrainOk (c : PostCtx) (f : MF) : Bool :=
  let w := c.sv f
  let d := c.drained f
  let n := bytesOf f.ty (drainCnt w * d.2)
  c.free && (if fxBit f 2 then c.v.mode == .rs else d.1 != 0) && field w 16 48 == 0 && decide (1 ≤ drainCnt w) &&
    decide (drainCnt w ≤ 128) && decide (drainRow0 w + drainCnt w ≤ d.1) && maskOk f.kr (drainRow0 w + drainCnt w) &&
    maskOk f.kc d.2 && fits f.c n c.vlen && (fxBit f 2 || !hitsTile f.c n c.vlen (c.tile f) c.slot) &&
    (!fxBit f 0 || fits f.a (4 * d.2) c.vlen) && (!fxBit f 1 || fits f.b (4 * d.2) c.vlen) &&
    (f.ty != .mxf4 || (d.2 % 32 == 0 && uniformCols f.kc (c.th.getK f.kc) (c.th.getK (f.kc + 1)) d.2))

/-- The limits of `mdrainx` (R203); rows beyond the tile's ROWS, and so any row of an undefined tile, are RESOP (DESIGN CHOICE, log 65). -/
def mdrainxOk (c : PostCtx) (f : MF) : Bool :=
  let w := c.sv f
  let t := c.tile f
  c.free && t.rows != 0 && field w 30 34 == 0 && decide (1 ≤ drainCnt w) && decide (drainCnt w ≤ 128) &&
    decide (drainRow0 w + drainCnt w ≤ t.rows) && (c.sv1 f).toNat % 8 == 0 && maskOk f.kr (drainRow0 w + drainCnt w) &&
    maskOk f.kc t.cols

def mrecvOk (c : PostCtx) (f : MF) : Bool :=
  let w := c.sv f
  let t := c.tile f
  c.free && t.rows != 0 && !rd c.v.recv f.t && field w 11 5 == 0 && field w 32 32 == 0 && decide (1 ≤ field w 16 8) &&
    decide (field w 16 8 ≤ 128) && decide (field w 24 8 + field w 16 8 ≤ t.rows)

def mchainOk (c : PostCtx) (f : MF) (mode : MMode) (accept : Bool) : Bool :=
  let w := c.sv f
  c.v.mode == mode && !c.chained && field w 11 53 == 0 &&
    (match linearOf w.toNat with
      | some p => if accept then chainNext p (fxBit f 0) == some c.core else chainNext c.core (fxBit f 0) == some p
      | none => false)

def munchainOk (c : PostCtx) : Bool := c.v.chain != 4 && c.v.chain != 5

def mrinvOk (c : PostCtx) (f : MF) : Bool := field (c.sv f) 12 52 == 0

def mrpfOk (c : PostCtx) (f : MF) : Bool :=
  let w := c.sv f
  field w 12 4 == 0 && field w 24 40 == 0 && decide (1 ≤ field w 16 8) && decide (field w 16 8 ≤ 64)

def mrprobeOk (c : PostCtx) (f : MF) : Bool := field (c.sv f) 12 52 == 0 && field (c.sv1 f) 32 32 == 0

/-! ## Posting (R186) -/

/-- The entry of an instruction, with the values that it reads at this moment, its posting; a value that it does not use is zero (R415). -/
def State.entryOf (s : State) (mop : Nat) (f : MF) (pair : Bool) (chained : Bool) : MEntry :=
  let k := fun (r : KReg) => if r = 0 then (0 : Word) else s.getK r
  let k1 := fun (r : KReg) => if r = 0 ∨ r = 15 then (0 : Word) else s.getK (r + 1)
  { mop, f, slot := s.slot, vl := s.th.postVl, rm := s.th.postRm, sv := s.getS f.s, sv1 := if pair then s.getS (f.s + 1) else 0,
    kr := k f.kr, kr1 := k1 f.kr, kc := k f.kc, kc1 := k1 f.kc, kd := k f.kd, level := s.th.level, chained }

/-- The instruction has been posted: a slot of a convoy leaves the convoy, any other the PC moves past it. -/
def State.posted (s : State) : State :=
  match s.th.convoy with
  | some c =>
    let c1 := { c with next := c.next + 1 }
    { s with th := { s.th with convoy := if c.slots.length ≤ c1.next then none else some c1 } }
  | none => s.advance 8

/-- The entry at the end of the queue. -/
def State.enqueue (s : State) (e : MEntry) : State :=
  { s with core := { s.core with mat := { s.core.mat with queue := s.core.mat.queue ++ [e] } } }

/-- A matrix instruction of a task that has ended comes behind a deferred fault and is dropped with what the queue held (R330). -/
def State.dropsPost (s : State) : Bool := s.th.ending && s.core.mat.held.isSome

/-- A matrix instruction in a fetched block raises ILLEGAL; one waits while the queue is full, or while what its check needs is
still to come from an earlier entry; a broken limit raises RESOP. -/
def State.post (s : State) (mop : Nat) (f : MF) (pair : Bool) (ok : PostCtx → Bool) (waitTags : Bool) : State :=
  s.notVp (
    if s.dropsPost then s.posted
    else if 32 ≤ s.core.mat.queue.length then s
    else if s.matBusy = true ∧ (s.core.chainPending = true ∨ waitTags = true) then s
    else
      let v := s.core.postView
      let c : PostCtx := { v, n := s.lanes s.coreId, core := s.coreId, slot := s.slot, th := s.th }
      if ok c then
        (s.enqueue (s.entryOf mop f pair
          ((v.chain == 2 || v.chain == 3) && (mop == mopMldb || mop == mopMmul || mop == mopMgmul)))).posted
      else s.fault Cause.resop)

def execMmode (f : MF) (s : State) : Out := .next (s.post mopMmode f false (fun c => mmodeOk c f) false)
def execMshape (f : MF) (s : State) : Out := .next (s.post mopMshape f false (fun c => mshapeOk c f) false)
def execMzero (f : MF) (s : State) : Out := .next (s.post mopMzero f false (fun c => mzeroOk c f) false)
def execMzeroAcc (f : MF) (s : State) : Out := .next (s.post mopMzero f false (fun c => mzeroOk c f) false)
def execMldb (f : MF) (s : State) : Out := .next (s.post mopMldb f false (fun c => mldbOk c f) false)
def execMmul (f : MF) (s : State) : Out := .next (s.post mopMmul f false (fun c => mmulOk c f) (f.ty == .mxf4))
def execMopa (f : MF) (s : State) : Out := .next (s.post mopMopa f false (fun c => mopaOk c f) (f.ty == .mxf4))
def execMgmul (f : MF) (s : State) : Out := .next (s.post mopMgmul f false (fun c => mgmulOk c f) (f.ty == .mxf4))
def execMdrain (f : MF) (s : State) : Out := .next (s.post mopMdrain f false (fun c => mdrainOk c f) false)
def execMdrainx (f : MF) (s : State) : Out := .next (s.post mopMdrainx f true (fun c => mdrainxOk c f) false)
def execMrecv (f : MF) (s : State) : Out := .next (s.post mopMrecv f false (fun c => mrecvOk c f) false)
def execMrecvCancel (f : MF) (s : State) : Out := .next (s.post mopMrecv f false (fun c => c.free) false)
def execMchain (f : MF) (s : State) : Out := .next (s.post mopMchain f false (fun c => mchainOk c f .ws false) false)
def execMchainAccept (f : MF) (s : State) : Out := .next (s.post mopMchain f false (fun c => mchainOk c f .v true) false)
def execMunchain (f : MF) (s : State) : Out := .next (s.post mopMunchain f false munchainOk false)
def execMmulx (f : MF) (s : State) : Out := .next (s.post mopMmulx f false (fun c => mmulxOk c f) (f.ty == .mxf4))
def execMrinv (f : MF) (s : State) : Out := .next (s.post mopMrinv f false (fun c => mrinvOk c f) false)
def execMrinvAll (f : MF) (s : State) : Out := .next (s.post mopMrinv f false (fun _ => true) false)
def execMrpf (f : MF) (s : State) : Out := .next (s.post mopMrpf f false (fun c => mrpfOk c f) false)
def execMrprobe (f : MF) (s : State) : Out := .next (s.post mopMrprobe f true (fun c => mrprobeOk c f) false)

/-- `mwait` enters the queue, and its thread takes no barrel turn until the sequencer reaches it (R210). -/
def execMwait (f : MF) (s : State) : Out :=
  .next (s.notVp (
    if s.dropsPost then s.posted
    else if 32 ≤ s.core.mat.queue.length then s
    else
      let s1 := s.enqueue (s.entryOf mopMwait f false false)
      { s1 with th := { s1.th with wait := .mwait } }))

end Sys2Proof.Machine
end

