-- ==== Sys2Proof/Machine/MatSeq.lean ====
section
/-! DEFINITION. The sequencer of the matrix queue, operand records, and rows on their way between tiles (08 R189–R210; 09 R215–R224;
18 R395; 20 R397). -/

namespace Sys2Proof.Machine

/-! ## Memory as the sequencer reads it (R188, R414) -/

/-- An action with slot j of core n in focus; the focus then returns. -/
def State.onThread (s : State) (n : Nat) (j : Fin 4) (f : State → State) : State :=
  (f (s.focus n j)).focus s.coreId s.slot

/-- n bytes at va, read for the thread in focus with a level's rights; the address of the sector that cannot be read. `fuel` bounds
the number of sectors. -/
def State.seqBytes (level : BitVec 2) : Nat → State → Nat → Nat → State × Except Nat Nat
  | 0, s, _, _ => (s, .ok 0)
  | fuel + 1, s, va, n =>
    if n = 0 then (s, .ok 0)
    else
      let m := min n (32 - va % 32)
      let own := s.th.level
      let (s1, x) := ({ s with th := { s.th with level } } : State).locate (va % 2 ^ 64) m .read
      let back := fun (t : State) => { t with th := { t.th with level := own } }
      match x with
      | .error _ => (back s1, .error (va % 2 ^ 64))
      | .ok tg =>
        let (s2, v, p) := s1.readAt .plain tg m
        match p with
        | some _ => (back s2, .error (va % 2 ^ 64))
        | none =>
          let (s3, y) := State.seqBytes level fuel (back s2) (va + m) (n - m)
          match y with
          | .error a => (s3, .error a)
          | .ok w => (s3, .ok (v + 256 ^ m * w))

/-! ## Weight latches (R198, R220) -/

/-- Where a stationary operand lies: its type, column 0, bytes between columns, scale bytes and bytes between their columns. -/
structure BLayout where
  ty : ETy
  base : Nat
  cb : Nat
  scales : Nat
  sb : Nat

def LatCol.empty : LatCol := { data := 0, loaded := 0, scales := 0 }

/-- Columns from n up, `count` of them, each with its first klen elements where `on` holds. -/
def State.loadCols (level : BitVec 2) (b : BLayout) (klen : Nat) (on : Nat → Bool) : Nat → State → Nat → State × Except Nat (List LatCol)
  | 0, s, _ => (s, .ok [])
  | count + 1, s, n =>
    let one : State × Except Nat LatCol :=
      if on n = true ∧ klen ≠ 0 then
        let bytes := bytesOf b.ty klen
        let (s1, x) := State.seqBytes level (bytes / 32 + 2) s (b.base + n * b.cb) bytes
        match x with
        | .error a => (s1, .error a)
        | .ok d =>
          if b.ty = .mxf4 then
            let (s2, y) := State.seqBytes level 4 s1 (b.scales + n * b.sb) (klen / 32)
            match y with
            | .error a => (s2, .error a)
            | .ok sc => (s2, .ok { data := d, loaded := 2 ^ klen - 1, scales := sc })
          else (s1, .ok { data := d, loaded := 2 ^ klen - 1, scales := 0 })
      else (s, .ok .empty)
    match one with
    | (s1, .error a) => (s1, .error a)
    | (s1, .ok c) =>
      let (s2, y) := State.loadCols level b klen on count s1 (n + 1)
      match y with
      | .error a => (s2, .error a)
      | .ok cs => (s2, .ok (c :: cs))

/-! ## Operand records (R215–R219) -/

def recKey (x : Blob) : Nat := getBits x 208 16
def recTenant (x : Blob) : Nat := getBits x 192 16
def recN (x : Blob) : Nat := getBits x 160 8
def recK (x : Blob) : Nat := getBits x 144 12
def recFmt (x : Blob) : Nat := getBits x 128 6
def recScale (x : Blob) : Nat := getB x 8 8
def recBase (x : Blob) : Nat := getB x 0 8

/-- The type of a well-formed record under a column of `col` bytes, none for a malformed one (R216). -/
def recOk (x : Blob) (col : Nat) : Option ETy :=
  match ETy.ofCode (recFmt x) with
  | none => none
  | some ty =>
    if ty.isMatIn && recBase x % (if ty = .mxf4 then 16 else 8) == 0 && recK x != 0 && decide (recK x ≤ elemsIn ty col) &&
        recN x != 0 && decide (recN x ≤ 128) && (if ty = .mxf4 then recK x % 32 == 0 else recScale x == 0) &&
        getBits x 224 288 == 0 && getBits x 168 24 == 0 && getBits x 156 4 == 0 && getBits x 134 10 == 0 then some ty else none

/-- A record's columns. -/
def recLayout (x : Blob) (ty : ETy) : BLayout :=
  { ty, base := recBase x, cb := roundUp (bytesOf ty (recK x)) 8, scales := recScale x, sb := recK x / 32 }

/-- The cause of R218 for a record that was fetched. -/
def bindCause (x : Blob) (col : Nat) (ty : ETy) (tenant key : Nat) : Nat :=
  match recOk x col with
  | none => 2
  | some fmt =>
    if recTenant x ≠ tenant then 3 else if recKey x ≠ key then 4 else if fmt.matClass ≠ ty.matClass then 5 else 0

/-- The record enters the cache in front; the least recently bound leaves. -/
def Core.cacheRecord (c : Core) (i : Nat) (x : Blob) : Core :=
  { c with rcache := ((i, x) :: unset c.rcache i).take 64 }

/-- A record below `ORCNT`, from the cache or from memory at level 1; none where the fetch fails. -/
def State.fetchRecord (s : State) (i : Nat) : State × Option Blob :=
  match look s.core.rcache i with
  | some x => ({ s with core := s.core.cacheRecord i x }, some x)
  | none =>
    let (s1, r) := State.seqBytes 1 3 s (s.core.sys.orbase.toNat + 64 * i) 64
    match r with
    | .error _ => (s1, none)
    | .ok x => ({ s1 with core := s1.core.cacheRecord i x }, some x)

/-- One bind: the cause with the record, or none where the fetch fails (R218). It uses `ORBASE` and `ORCNT` as they stand when it
binds: an entry posted before a write of them binds with the new values, a choice of the model (log 29). -/
def State.bind (s : State) (i : Nat) (ty : ETy) (tenant key : Nat) : State × Option (Nat × Blob) :=
  if s.core.sys.orcnt.toNat ≤ i then (s, some (1, 0))
  else
    let (s1, r) := s.fetchRecord i
    match r with
    | none => (s1, none)
    | some x => (s1, some (bindCause x s1.core.mat.view.colBytes ty tenant key, x))

/-! ## The running entry -/

def State.setM1 (s : State) (m : Mat) : State := { s with core := { s.core with mat := m } }

/-- The entry has completed; the next may run. -/
def State.seqDone (s : State) : State :=
  let m := s.core.mat
  s.setM1 { m with queue := m.queue.drop 1, started := false, gate := 0, bound := none, xlive := false, ctr := none }

/-- The entry stands at a gate. -/
def State.seqGate (s : State) (g : Nat) : State := s.setM1 { s.core.mat with started := true, gate := g }

/-- The entry's work up to g of `total` rows or groups is done. -/
def State.seqPast (s : State) (g total : Nat) : State := if g < total then s.seqGate g else s.seqDone

/-- A deferred matrix fault holds the entry at its last passed gate (R189); an `mmulx` that resumes there loads its latches anew (R221). Of a
task that has ended it drops the queue (R330). -/
def State.seqHold (s : State) (cause addr : Nat) : State :=
  let m := s.core.mat
  let s1 := s.setM1 { m with
    held := some { cause, addr := wd addr, untaken := true, checked := false }, fcause := BitVec.ofNat 4 cause, started := true, xlive := false }
  if s.th.ending then s1.dropHeld s1.coreId else s1

/-- Sidecars of untagged registers: free values (R117, log 3). -/
def State.freeSides (s : State) : State × (Nat → Blob) :=
  ({ s with free := s.free + 64 }, fun i => Config.freeBlob (s.free + i) % 256 ^ (s.vlen / 16))

/-! ## Modes, shapes, zeroing (R194–R197) -/

/-- Convoys of the team that were issued before the head entry was posted have still to finish; a thread with an entry in the queue has
none left (R188, R194). `fma` asks only for those with an FMA slot (R207). A convoy that a trap has interrupted
stands in the frame and not here: its slots execute after `tret` in the mode of then (DESIGN CHOICE, log 66). -/
def State.convoysBefore (s : State) (n : Nat) (fma : Bool) : Bool :=
  (s.teamSlots n).any (fun j =>
    let t := s.threadAt n j
    !(s.coreAt n).mat.queue.any (fun e => e.slot.val == j) &&
      (match t.convoy with
        | some c => !fma || c.units.contains 1
        | none => !fma && (t.issue.isSome || !t.replay.isEmpty)))

/-- The array's state after a change of mode (R195). -/
def Mat.enter (m : Mat) (target : MMode) : Mat :=
  if m.mode = target then m
  else
    let m1 := if m.mode = .ws ∨ target = .ws then { m with lat := [], wlive := false } else m
    let m2 := if m1.mode = .rs ∨ target = .rs then { m1 with acc := 0, alive := target == .rs } else m1
    { m2 with mode := target }

/-- Accumulator (i, n). -/
def accAt (i n : Nat) : Nat := (i * 64 + n) * 4

def State.seqMmode (s : State) (e : MEntry) : State :=
  let m := s.core.mat
  let target := modeOfCode (e.f.fx.toNat % 4)
  let drop := fun (x : Mat) => if fxBit e.f 3 then { x with tshape := dropShapes x.tshape } else x
  if m.mode = target then (s.setM1 (drop m)).seqDone
  else if m.mode = .v ∧ s.convoysBefore s.coreId false = true then s
  else
    let t := rd m.tshape e.f.t
    let rows := if m.mode = .rs ∧ fxBit e.f 2 = true then min 64 t.rows else 0
    let top := min rows (m.gate + 16)
    let cells := ((List.range top).filter (fun i => decide (m.gate ≤ i))).flatMap (fun i =>
      (List.range (min s.nLanes t.cols)).map (fun n => (i, n, getB m.acc (accAt i n) 4)))
    let s1 := s.putTile s.coreId t cells
    if top < rows then s1.seqGate top else (s1.setM1 (drop (s1.core.mat.enter target))).seqDone

def State.seqMshape (s : State) (e : MEntry) : State :=
  let t := shapeOf e.sv e.slot
  let m := s.core.mat
  let s1 := s.setM1 { m with tshape := wr m.tshape e.f.t t, mvl := BitVec.ofNat 2 (field e.sv 24 2) }
  (if fxBit e.f 0 then s1 else s1.zeroTile s1.coreId t).seqDone

def State.seqMzero (s : State) (e : MEntry) : State :=
  (if fxBit e.f 0 then s.setM1 { s.core.mat with acc := 0 } else s.zeroTile s.coreId (rd s.core.mat.tshape e.f.t)).seqDone

/-! ## Loading and multiplying (R198–R201, R220) -/

/-- An entry that needs the chain, where no chain is joined, stops with a CHAIN fault (R209). -/
def State.needChain (s : State) (e : MEntry) (body : State) : State :=
  if e.chained && !s.core.mat.leads then s.seqHold 2 0 else body

def State.seqMldb (s : State) (e : MEntry) : State :=
  s.needChain e (
    let m := s.core.mat
    let v := m.view
    let nc := v.maxCols s.nLanes
    let base := e.sv.toNat
    let b : BLayout := { ty := e.f.ty, base, cb := v.colBytes, scales := base + nc * v.colBytes, sb := v.colBytes / 16 }
    let s1 := s.setM1 { m with lat := [], wlive := false }
    let (s2, r) := State.loadCols e.level b (e.klen (elemsIn e.f.ty v.colBytes)) e.colOn nc s1 0
    match r with
    | .error a => s2.seqHold 1 a
    | .ok cs => (s2.setM1 { s2.core.mat with lat := cs, latTy := e.f.ty, wlive := true }).seqDone)

/-- The additions of one row of A into row r of a tile (R114, R199). `lat` and `bty` are the latches and their type. -/
def rowAdds (s : State) (e : MEntry) (t : TShape) (lat : List LatCol) (bty : ETy) (off r : Nat) (free : Nat → Blob) :
    List (Nat × Nat × Nat) :=
  let v := s.core.mat.view
  let stride := e.sv.toNat
  let klen := e.klen (elemsIn e.f.ty v.colBytes)
  let row := s.th.group e.f.a.val off stride
  let sa := fun q => s.th.groupScale e.f.a.val (off + 16 * q) free
  ((List.range t.cols).filter e.colOn).map (fun n =>
    let c := lat.getD n .empty
    let ps := cellSum e.f.ty (v.colBytes / 8) (rowElem e.f.ty row klen) (c.elem bty) sa (fun q => getB c.scales q 1)
    (r, n, addTo (s.tileElem s.coreId t r n) ps))

def State.addRow (s : State) (e : MEntry) (t : TShape) (lat : List LatCol) (bty : ETy) (off r : Nat) (free : Nat → Blob) : State :=
  s.putTile s.coreId t (rowAdds s e t lat bty off r free)

/-- Rows g up to the next gate below `total`. -/
def gateRows (g total : Nat) : List Nat := (List.range (min total (g + 16))).filter (fun m => decide (g ≤ m))

def State.seqMmul (s : State) (e : MEntry) : State :=
  s.needChain e (
    let m := s.core.mat
    let t := rd m.tshape e.f.t
    let (s0, free) := s.freeSides
    ((gateRows m.gate t.rows).foldl (fun u i =>
      if e.rowOn i then u.addRow e t m.lat m.latTy (i * e.sv.toNat) i free else u) s0).seqPast (m.gate + 16) t.rows)

/-- A position of `mgmul`: its A row and tile row, none where it is skipped (R200). -/
def State.gatherAt (s : State) (e : MEntry) (t : TShape) (i : Nat) : Option (Nat × Nat) :=
  let a := s.th.group e.f.b.val (2 * i) 2
  let r := s.th.group e.f.c.val (2 * i) 2
  let stride := e.sv.toNat
  let len := max s.vlen 1
  let first := e.f.a.val + a * stride / len
  let last := e.f.a.val + (a * stride + stride - 1) / len
  if 64 * s.vlen < e.f.a.val * s.vlen + (a + 1) * stride ∨ t.rows ≤ r ∨
      (t.owner = e.slot ∧ overlaps first (last + 1 - first) t.base.val (t.span s.vlen) = true) then none
  else some (a, r)

def State.seqMgmul (s : State) (e : MEntry) : State :=
  s.needChain e (
    let m := s.core.mat
    let t := rd m.tshape e.f.t
    let (s0, free) := s.freeSides
    ((gateRows m.gate e.vl).foldl (fun u i =>
      if e.rowOn i then
        match u.gatherAt e t i with
        | some (a, r) => u.addRow e t m.lat m.latTy (a * e.sv.toNat) r free
        | none => u
      else u) s0).seqPast (m.gate + 16) e.vl)

/-- The accumulator (i, n) after K groups from q0 up, `count` of them (R115). -/
def accSum (ty : ETy) (a b : Nat → Option Val) (sa sb : Nat → Nat) (q0 count code : Nat) : Nat :=
  (List.range count).foldl (fun x q => addTo x (groupSum ty a b sa sb (q0 + q))) code

def State.seqMopa (s : State) (e : MEntry) : State :=
  let m := s.core.mat
  let stride := e.sv.toNat
  let ty := e.f.ty
  let klen := e.klen (elemsIn ty stride)
  let g := if ty = .mxf4 then 32 else 64 / ty.bits
  let total := (klen + g - 1) / g
  let count := min total (m.gate + 16) - m.gate
  let (s0, free) := s.freeSides
  let row := fun (base i : Nat) => rowElem ty (s.th.group base (i * stride) stride) klen
  let scale := fun (base i q : Nat) => s.th.groupScale base (i * stride + 16 * q) free
  let acc := ((List.range 64).filter e.rowOn).foldl (fun x i =>
    ((List.range s.nLanes).filter e.colOn).foldl (fun x n =>
      putB x (accAt i n) 4 (accSum ty (row e.f.a.val i) (row e.f.b.val n) (scale e.f.a.val i) (scale e.f.b.val n) m.gate count
        (getB x (accAt i n) 4))) x) m.acc
  (s0.setM1 { m with acc }).seqPast (m.gate + 16) total

/-! ## `mmulx` (R220–R222) -/

/-- A bind of an `mmulx` that has bound what `b` holds: a record that it has fetched already is checked anew against this request and not
fetched again (R219). -/
def State.rebind (s : State) (b : Bound) (i : Nat) (ty : ETy) (tenant key : Nat) : State × Option (Nat × Blob) :=
  match look b.recs i with
  | none => s.bind i ty tenant key
  | some x =>
    let core := match look s.core.rcache i with | some y => s.core.cacheRecord i y | none => s.core
    ({ s with core }, some (bindCause x s.core.mat.view.colBytes ty tenant key, x))

/-- Rows bound from m up, `count` of them: the cause of each row, its index, the records fetched; an error names the record whose fetch
failed. `seen` lists the binds already made. -/
def State.bindRows (e : MEntry) : Nat → State → Nat → List ((Nat × Nat) × Nat) → Bound → State × Except Nat Bound
  | 0, s, _, _, b => (s, .ok b)
  | count + 1, s, m, seen, b =>
    if e.rowOn m then
      let i := s.th.group e.f.b.val (2 * m) 2
      let cred := s.th.group e.f.c.val (4 * m) 4
      match look seen (i, cred) with
      | some cause => State.bindRows e count s (m + 1) seen { b with cause := b.cause ++ [cause], idx := b.idx ++ [i] }
      | none =>
        let (s1, r) := s.rebind b i e.f.ty (cred % 65536) (cred / 65536)
        match r with
        | none => (s1, .error i)
        | some (cause, x) =>
          State.bindRows e count s1 (m + 1) (((i, cred), cause) :: seen)
            { cause := b.cause ++ [cause], idx := b.idx ++ [i], recs := if cause = 1 then b.recs else assoc b.recs i x }
    else State.bindRows e count s (m + 1) seen { b with cause := b.cause ++ [0], idx := b.idx ++ [0] }

/-- Row m streams: unmasked, and granted. -/
def MEntry.granted (e : MEntry) (b : Bound) (m : Nat) : Bool := e.rowOn m && b.cause.getD m 0 == 0

/-- The record of the last granted row below m. -/
def MEntry.lastIdx (e : MEntry) (b : Bound) (m : Nat) : Option Nat :=
  (((List.range m).filter (e.granted b)).getLast?).map (fun j => b.idx.getD j 0)

/-- The latches that each row of a batch streams with: those already there while the record stays the same, else loaded anew; an error
names the byte of B that cannot be read. -/
def State.loadRows (e : MEntry) (b : Bound) : List Nat → State → Option Nat → List LatCol → ETy →
    State × Except Nat (List (Nat × List LatCol × ETy))
  | [], s, _, _, _ => (s, .ok [])
  | m :: ms, s, live, lat, ty =>
    if e.granted b m then
      let i := b.idx.getD m 0
      let one : State × Except Nat (List LatCol × ETy) :=
        if live = some i then (s, .ok (lat, ty))
        else
          let x := (look b.recs i).getD 0
          let fmt := (ETy.ofCode (recFmt x)).getD .i8
          let klen := min (recK x) (e.klen (elemsIn e.f.ty s.core.mat.view.colBytes))
          let (s1, r) := State.loadCols e.level (recLayout x fmt) klen (fun n => decide (n < recN x) && e.colOn n)
            (s.core.mat.view.maxCols s.nLanes) s 0
          match r with
          | .error a => (s1, .error a)
          | .ok cs => (s1, .ok (cs, fmt))
      match one with
      | (s1, .error a) => (s1, .error a)
      | (s1, .ok (cs, fmt)) =>
        let (s2, r) := State.loadRows e b ms s1 (some i) cs fmt
        match r with
        | .error a => (s2, .error a)
        | .ok l => (s2, .ok ((m, cs, fmt) :: l))
    else State.loadRows e b ms s live lat ty

/-- A refused row's unmasked columns become +0. -/
def State.zeroRow (s : State) (e : MEntry) (t : TShape) (m : Nat) : State :=
  s.putTile s.coreId t (((List.range t.cols).filter e.colOn).map (fun n => (m, n, 0)))

/-- The refused rows as one number. -/
def MEntry.refusedRows (e : MEntry) (b : Bound) (rows : Nat) : Nat :=
  ((List.range rows).filter (fun m => e.rowOn m && b.cause.getD m 0 != 0)).foldl (fun x m => x + 2 ^ m) 0

def State.seqMmulx (s : State) (e : MEntry) : State :=
  let m := s.core.mat
  let t := rd m.tshape e.f.t
  match m.bound with
  | none =>
    let (s1, r) := State.bindRows e t.rows s 0 [] { cause := [], idx := [], recs := [] }
    match r with
    | .error i => s1.seqHold 3 i
    | .ok b => (s1.setM1 { s1.core.mat with bound := some b }).seqGate 0
  | some b =>
    let rows := gateRows m.gate t.rows
    let (s1, r) := State.loadRows e b rows s (if m.xlive then e.lastIdx b m.gate else none) m.lat m.latTy
    match r with
    | .error a => s1.seqHold 1 a
    | .ok loads =>
      let (s2, free) := s1.freeSides
      let s3 := rows.foldl (fun u i =>
        if e.rowOn i then
          match look loads i with
          | some (cs, ty) => u.addRow e t cs ty (i * e.sv.toNat) i free
          | none => u.zeroRow e t i
        else u) s2
      let m3 := s3.core.mat
      let s4 := match loads.getLast? with
        | some (_, cs, ty) => s3.setM1 { m3 with lat := cs, latTy := ty, wlive := true, xlive := true }
        | none => s3
      let top := m.gate + 16
      if top < t.rows then s4.seqGate top
      else
        let bits := e.refusedRows b t.rows
        let s5 := s4.setSys { s4.core.sys with orflt0 := wd bits, orflt1 := wd (bits / 2 ^ 64) }
        (s5.setM1 { s5.core.mat with wlive := false }).seqDone

/-! ## Drains (R202, R126) -/

/-- The generator number of the lane that carries column n of core c: its own, or the follower's (R109, R198). -/
def State.drainLane (s : State) (n : Nat) : Nat × Nat :=
  match decide (s.nLanes ≤ n) && s.core.mat.chain == 2, linearOf s.core.mat.partner with
  | true, some p => (p, n - s.nLanes)
  | _, _ => (s.coreId, n % max s.nLanes 1)

def State.drainGenOf (s : State) (c lane : Nat) : BitVec 32 := (look (s.coreAt c).drainGen lane).getD (seedOf (drainGenNo c lane))

def State.drainStep (s : State) (c lane : Nat) (drew : Bool) : State :=
  if drew then
    let x := s.coreAt c
    s.setCore c { x with drainGen := assoc x.drainGen lane (genStep (s.drainGenOf c lane)) }
  else s

/-- The rounding mode of a drain, `VSTATE.RM` as read at posting (R57, R186). -/
def MEntry.mode (e : MEntry) : Rm :=
  match e.f.rm with
  | .dyn => e.rm
  | .rne => .rne | .rtz => .rtz | .rup => .rup | .rdn => .rdn | .rst => .rst

/-- The value of row r, column n that a drain converts, exact (R202); an exact zero sum takes its sign from the mode in
force (R103). -/
def State.drainVal (s : State) (e : MEntry) (t : TShape) (r n : Nat) : Val :=
  let m := s.core.mat
  let f32 := fun c => (fmtOf .f32).decode c
  let x := f32 (if fxBit e.f 2 then getB m.acc (accAt r n) 4 else s.tileElem s.coreId t r n)
  let y := if fxBit e.f 0 then (Val.mul x (f32 (s.th.f32At e.f.a.val (4 * n)))).v else x
  if fxBit e.f 1 then (Val.add (e.mode = .rdn) y (f32 (s.th.f32At e.f.b.val (4 * n)))).v else y

/-- Out row j: column n, or for `.mxf4` block n, rounded and written. -/
def State.drainOne (s : State) (e : MEntry) (t : TShape) (cols r j n : Nat) (free : Nat → Blob) : State :=
  if e.f.ty = .mxf4 then
    let xs := (List.range 32).map (fun i => s.drainVal e t r (32 * n + i))
    let z := (List.range 32).foldl (fun (u : State × Nat) i =>
      let l := u.1.drainLane (32 * n + i)
      let c := mxf4Elem xs e.mode (genDraw (u.1.drainGenOf l.1 l.2)) (xs.getD i zeroVal)
      (u.1.drainStep l.1 l.2 c.drew, u.2 + c.code % 16 * 16 ^ i)) (s, 0)
    { z.1 with th := z.1.th.groupPutMx e.f.c.val ((j * cols + 32 * n) / 2) z.2 (mxf4Scale xs) free }
  else
    let l := s.drainLane n
    let zd := e.f.ty.bits / 8
    let c := roundTo e.f.ty e.mode e.f.sat (genDraw (s.drainGenOf l.1 l.2)) (s.drainVal e t r n)
    let s1 := s.drainStep l.1 l.2 c.drew
    { s1 with th := s1.th.groupPut e.f.c.val ((j * cols + n) * zd) zd c.code }

/-- Columns of a drain, or blocks of 32 for `.mxf4`, that are unmasked. -/
def MEntry.drainCols (e : MEntry) (cols : Nat) : List Nat :=
  if e.f.ty = .mxf4 then (List.range (cols / 32)).filter (fun b => e.colOn (32 * b)) else (List.range cols).filter e.colOn

/-- The register that a drain of `cnt` rows last writes, none where it writes nothing. -/
def MEntry.lastReg (e : MEntry) (cols vlen : Nat) : Option Nat :=
  let cnt := drainCnt e.sv
  match ((List.range cnt).filter (fun j => e.rowOn (drainRow0 e.sv + j))).getLast?, (e.drainCols cols).getLast? with
  | some j, some n =>
    some (e.f.c.val + (if e.f.ty = .mxf4 then (j * cols + 32 * n) / 2 else (j * cols + n) * (e.f.ty.bits / 8)) / max vlen 1)
  | _, _ => none

/-- The latch of the matrix-post unit takes its group (R126). After an `mdrain` whose masks leave it no register to write the
latch stays as it was, a choice of the model (log 24). -/
def State.drainLatch (s : State) (e : MEntry) (cols : Nat) : State :=
  match e.lastReg cols s.vlen with
  | none => s
  | some r => if e.vl = 0 then s else s.setLat 6 (s.group (Fin.ofNat 64 r) ((e.vl - 1) / (64 * s.nLanes / e.f.ty.bits)))

def State.seqMdrain (s : State) (e : MEntry) : State :=
  let m := s.core.mat
  let t := rd m.tshape e.f.t
  let cols := if fxBit e.f 2 then s.nLanes else t.cols
  let cnt := drainCnt e.sv
  let (s0, free) := s.freeSides
  let s1 := (gateRows m.gate cnt).foldl (fun u j =>
    let r := drainRow0 e.sv + j
    if e.rowOn r then (e.drainCols cols).foldl (fun w n => w.drainOne e t cols r j n free) u else u) s0
  if m.gate + 16 < cnt then s1.seqGate (m.gate + 16) else (s1.drainLatch e cols).seqDone

/-! ## Rows to another core (R203–R205) -/

/-- The counter of an `mdrainx` as its translation gives it: a word of device memory that is not poisoned (R203, R324). An address of the
scratchpad window is not translated and has no counter (R228). -/
def State.drainCounter (s : State) (e : MEntry) : State × Option Nat :=
  if inSpw e.sv1.toNat then (s, none) else
  let own := s.th.level
  let (s1, x) := ({ s with th := { s.th with level := e.level } } : State).translate e.sv1.toNat .write
  let s2 : State := { s1 with th := { s1.th with level := own } }
  match x with
  | .bad _ _ => (s2, none)
  | .ok pa _ =>
    match s2.place pa with
    | .media lin => (s2, if s2.homePoison lin then none else some lin)
    | .host _ | .peer _ _ | .cfg _ | .none => (s2, none)

/-- Row r of a tile leaves the core. -/
def State.sendRow (s : State) (e : MEntry) (t : TShape) (ctr r : Nat) : State :=
  let cols := if e.rowOn r then (List.range t.cols).filter e.colOn else []
  let row : MRow :=
    { id := s.fab.nextId, src := s.coreId, dst := (linearOf (field e.sv 16 11)).getD 1536, tile := Fin.ofNat 8 (field e.sv 27 3),
      cols := t.cols, row := r, vals := cols.map (fun n => (n, s.tileElem s.coreId t r n)), bytes := 4 * cols.length,
      counter := ctr, ctx := s.core.sys.ctxid.toNat }
  (s.setFab { s.fab with rows := s.fab.rows ++ [row], nextId := s.fab.nextId + 1 }).noteUse row.id e.sv1.toNat

/-- `mdrainx`: before its first row the poster's earlier stores are released at `.pkg` (R279), and the counter is translated. -/
def State.seqMdrainx (s : State) (e : MEntry) : State :=
  let m := s.core.mat
  let t := rd m.tshape e.f.t
  let cnt := drainCnt e.sv
  let (s1, ctr) := match m.ctr with
    | some c => (s, some c)
    | none => (s.onThread s.coreId e.slot (fun t => t.release 3)).drainCounter e
  match ctr with
  | none => s1.seqHold 1 e.sv1.toNat
  | some c =>
    let s2 := (gateRows m.gate cnt).foldl (fun u j => u.sendRow e t c (drainRow0 e.sv + j)) s1
    (s2.setM1 { s2.core.mat with ctr := some c }).seqPast (m.gate + 16) cnt

/-- The window of core d's tile that admits a row. -/
def State.windowFor (s : State) (r : MRow) : Option Recv :=
  let c := s.coreAt r.dst
  match rd c.mat.recv r.tile with
  | none => none
  | some w =>
    let t := rd c.mat.tshape r.tile
    if s.enabled r.dst && c.task.isSome && c.sys.ctxid.toNat == r.ctx && linearOf w.sender == some r.src && t.rows != 0 &&
        t.cols == r.cols && decide (w.row0 ≤ r.row) && decide (r.row < w.row0 + w.cnt) then some w else none

/-- Two rows that keep their order: from one router to one router (R246). -/
def MRow.sameWay (x r : MRow) : Bool := clusterOf x.src == clusterOf r.src && clusterOf x.dst == clusterOf r.dst

/-- Row `ev.id`, the oldest between its two routers, arrives: it is added into the receptive tile, the window counts it, and the
counter goes down. A row that no window admits is recorded in the counter's error word, and the window of its sender does not
count it, which R204 leaves open (log 27). A row that a link has spoilt (`ev.flag`) is not added either: a tile holds no poison
(R203, R204, R247, R350, log 52). -/
def execMdrainxRowArrival (s : State) : Out :=
  .next (match s.fab.rows.find? (fun r => r.id == s.ev.id) with
    | none => s
    | some r =>
      match s.fab.rows.find? (fun x => x.sameWay r) with
      | none => s
      | some first =>
        if first.id ≠ r.id then s
        else
          let s1 := s.setFab { s.fab with rows := s.fab.rows.filter (fun x => x.id != r.id) }
          match (if s.ev.flag then none else s1.windowFor r) with
          | none => s1.stopAt r.counter 0 r.bytes
          | some w =>
            let t := rd (s1.coreAt r.dst).mat.tshape r.tile
            let s2 := s1.putTile r.dst t (r.vals.map (fun p =>
              (r.row, p.1, addTo (s1.tileElem r.dst t r.row p.1) ((fmtOf .f32).decode p.2))))
            let m := (s2.coreAt r.dst).mat
            let s3 := s2.setMat r.dst { m with
              recv := wr m.recv r.tile (if w.cnt ≤ w.seen + 1 then none else some { w with seen := w.seen + 1 }) }
            if r.bytes = 0 then s3
            else
              let q := s3.decrement r.counter r.bytes
              if q.2 then q.1 else q.1.stopAt r.counter 0 r.bytes)

def State.seqMrecv (s : State) (e : MEntry) : State :=
  let m := s.core.mat
  let w : Recv := { sender := field e.sv 0 11, cnt := field e.sv 16 8, row0 := field e.sv 24 8, seen := 0 }
  (s.setM1 { m with recv := wr m.recv e.f.t (if fxBit e.f 0 then none else some w) }).seqDone

/-! ## Chains (R206–R208, R397) -/

/-- The four tests of R397 for follower p; a task that has ended runs no more (R326). An FMA convoy that the follower has issued
since its offer holds no join back, and its slots execute on in FOLLOW (DESIGN CHOICE, log 59). -/
def State.mayJoin (s : State) (p : Nat) : Bool :=
  let c := s.coreAt p
  c.mat.chain == 1 && c.mat.partner == coreIdOf s.coreId && s.enabled p && s.lanes p == s.nLanes && c.task.isSome &&
    (s.teamSlots p).all (fun j => !(s.threadAt p j).ending) && c.sys.ctxid == s.core.sys.ctxid

def State.seqMchain (s : State) (e : MEntry) : State :=
  let m := s.core.mat
  let id := field e.sv 0 11
  if fxBit e.f 1 then
    if s.convoysBefore s.coreId true then s else (s.setM1 { m with chain := 1, partner := id }).seqDone
  else
    match linearOf id with
    | none => (s.setM1 { m with chain := 6, partner := 0 }).seqDone
    | some p =>
      if s.mayJoin p then
        let south := fxBit e.f 0
        let s1 := s.setM1 { m with chain := if south then 3 else 2, partner := id, wlive := false, lat := [] }
        let f := (s1.coreAt p).mat
        (s1.setMat p { f with mode := .follow, chain := if south then 5 else 4, lat := [], wlive := false }).seqDone
      else (s.setM1 { m with chain := 6, partner := 0 }).seqDone

/-- The leader's release, an offer's withdrawal, or no chain (R208). An offer that its leader has taken up meanwhile cannot be withdrawn, and
waiting for the leader's task is ruled out (R38): the entry stops with a deferred CHAIN fault, the form that R208 leaves open (log 59). -/
def State.seqMunchain (s : State) : State :=
  let m := s.core.mat
  if m.follows then s.seqHold 2 0
  else (if m.leads then s.partChain s.coreId 0 0 else s.setM1 { m with chain := 0, partner := 0 }).seqDone

/-! ## `mwait` (R210) and the record cache (R224) -/

/-- The waiting thread goes on after its `mwait`. -/
def State.seqMwait (s : State) : State :=
  let s1 := s.seqDone
  if s1.th.wait = .mwait then ({ s1 with th := { s1.th with wait := .none } } : State).posted else s1

/-- `mrinv` removes a record, or every one, from the cache. A fetch that an earlier `mrpf` has still under way is cancelled with
it, a choice of the model where R224 speaks of cached records alone (log 29). -/
def State.seqMrinv (s : State) (e : MEntry) : State :=
  let i := field e.sv 0 12
  ({ s with core :=
      if fxBit e.f 0 then { s.core with rcache := [], rpend := [] }
      else { s.core with rcache := unset s.core.rcache i, rpend := s.core.rpend.filter (· != i) } } : State).seqDone

/-- `mrpf` asks for records that are not cached; their fetches complete on their own. -/
def State.seqMrpf (s : State) (e : MEntry) : State :=
  let ask := ((List.range (field e.sv 16 8)).map (fun k => field e.sv 0 12 + k)).filter (fun i =>
    decide (i < s.core.sys.orcnt.toNat) && (look s.core.rcache i).isNone && !s.core.rpend.contains i)
  ({ s with core := { s.core with rpend := s.core.rpend ++ ask } } : State).seqDone

def State.seqMrprobe (s : State) (e : MEntry) : State :=
  let i := field e.sv 0 12
  let cached := (look s.core.rcache i).isSome
  let (s1, r) := s.bind i e.f.ty (field e.sv1 0 16) (field e.sv1 16 16)
  match r with
  | none => s1.seqHold 3 i
  | some (cause, _) =>
    (s1.setSys { s1.core.sys with orprobe := wd (cause + (if cached then 256 else 0)) }).seqDone

/-- A prefetched record, `ev.id` of core `ev.core`, enters the cache as if it were bound now (log 29); one that a bind has cached meanwhile
keeps its place, for R219 counts binds only. A fetch that would fault caches nothing. -/
def execMrpfFetchCompletion (s : State) : Out :=
  let n := s.ev.core
  let i := s.ev.id
  .next (
    if (s.coreAt n).rpend.contains i then
      s.onThread n (if n = s.coreId then s.slot else 0) (fun t =>
        let t1 : State := { t with core := { t.core with rpend := t.core.rpend.filter (· != i) } }
        if (look t1.core.rcache i).isSome then t1 else (t1.fetchRecord i).1)
    else s)

/-! ## Parity of latches and accumulators (R214) -/

/-- The entry reads weight latches or accumulators. -/
def MEntry.readsCells (e : MEntry) (mode : MMode) : Bool :=
  e.mop == mopMmul || e.mop == mopMgmul || e.mop == mopMmulx || e.mop == mopMopa || (e.mop == mopMdrain && fxBit e.f 2) ||
    (e.mop == mopMmode && mode == .rs && fxBit e.f 2)

/-! ## The sequencer (R186) -/

/-- The head entry goes on to its next gate, its poster in focus. -/
def State.seqEntry (s : State) (e : MEntry) : State :=
  if e.mop = mopMmode then s.seqMmode e
  else if e.mop = mopMshape then s.seqMshape e
  else if e.mop = mopMzero then s.seqMzero e
  else if e.mop = mopMldb then s.seqMldb e
  else if e.mop = mopMmul then s.seqMmul e
  else if e.mop = mopMopa then s.seqMopa e
  else if e.mop = mopMgmul then s.seqMgmul e
  else if e.mop = mopMdrain then s.seqMdrain e
  else if e.mop = mopMdrainx then s.seqMdrainx e
  else if e.mop = mopMrecv then s.seqMrecv e
  else if e.mop = mopMchain then s.seqMchain e
  else if e.mop = mopMunchain then s.seqMunchain
  else if e.mop = mopMwait then s.seqMwait
  else if e.mop = mopMmulx then s.seqMmulx e
  else if e.mop = mopMrinv then s.seqMrinv e
  else if e.mop = mopMrpf then s.seqMrpf e
  else if e.mop = mopMrprobe then s.seqMrprobe e
  else s

/-- The sequencer of core `ev.core` works from one gate to the next; a held fault stops it. -/
def execMatrixSequence (s : State) : Out :=
  let m := (s.coreAt s.ev.core).mat
  .next (match m.held, m.queue with
    | none, e :: _ => s.onThread s.ev.core e.slot (fun t => t.seqEntry e)
    | _, _ => s)

end Sys2Proof.Machine
end

