-- ==== Sys2Proof/Machine/Routine.lean ====
section
/-! DEFINITION. The routine store: invoking, binding, loading, querying (15 R351–R354, R359–R366). -/

namespace Sys2Proof.Machine

/-- A system long form that writes s[d] and moves on. -/
def State.resultLong (s : State) (d : Reg) (v : Word) : State := (s.setS d v).advance 8

/-! ## The store and the table (R351–R353) -/

/-- Granules that a binding's resident routine holds. -/
def Binding.granules (b : Binding) : Nat :=
  match b.words with
  | some ws => (ws.length + 31) / 32
  | none => 0

/-- Granules in use of the 256 of a core. -/
def Core.storeUsed (c : Core) : Nat := c.binds.foldl (fun n b => n + b.granules) 0

def Core.bindingOf (c : Core) (ctx slot : Nat) : Option Binding := c.binds.find? (fun b => b.ctx == ctx && b.slot == slot)

def Core.unbind (c : Core) (ctx slot : Nat) : Core := { c with binds := c.binds.filter (fun b => !(b.ctx == ctx && b.slot == slot)) }

/-- The slot that a frame at a physical address names in a valid routine section. -/
def State.frameSlot (s : State) (pa : Nat) : List Nat :=
  let w := (s.readPa .plain (pa + 0x200) 8).2.1
  if bit w 63 then [w % 64] else []

def State.ctxNo (s : State) : Nat := s.core.sys.ctxid.toNat

/-- A thread executes the routine of a binding, looked up at its `rtn`, or is stopped in a trap whose frame names it. A frame names a slot
only: it is taken as one of the context that `CTXID` gives, in which `tret` will look it up (R352, R360, R361, log 56). -/
def State.standsIn (s : State) (t : Thread) (b : Binding) : Bool :=
  t.occ && ((match t.rtn with | some r => r.ctx == b.ctx && r.slot.val == b.slot | none => false) ||
    (b.ctx == s.ctxNo && ((t.intrap && (s.frameSlot t.tframe.toNat).contains b.slot) ||
      (t.level == 2 && (s.frameSlot s.core.sys.mcframe.toNat).contains b.slot))))

/-- The routine of a binding is in use on the core: it is resident, and a thread stands in it. -/
def State.bindUsed (s : State) (b : Binding) : Bool :=
  b.words.isSome && (List.range 4).any (fun j => s.standsIn (s.threadAt s.coreId j) b)

/-- The routine of a slot of the core's context is in use. -/
def State.slotUsed (s : State) (slot : Nat) : Bool :=
  match s.core.bindingOf s.ctxNo slot with | some b => s.bindUsed b | none => false

def State.withCore (s : State) (c : Core) : State := { s with core := c }

/-! ## Invocation (R360) -/

def execRtn (slot : Fin 64) (d a b : Reg) (imm : BitVec 7) (s : State) : Out :=
  .next (s.notVp (
    match s.core.bindingOf s.ctxNo slot.val with
    | none => s.fault (Cause.routineMiss 1 slot.val)
    | some e =>
      match e.words with
      | none => s.fault (Cause.routineMiss 2 slot.val)
      | some _ =>
        let c := s.core.unbind s.ctxNo slot.val
        let r : RtnState :=
          { ctx := s.ctxNo, slot, upc := 0, lc := 0, h := Vector.replicate 8 0, rm := s.th.vec.rm, d, a, b, imm, cur := {} }
        { s with core := { c with binds := e :: c.binds }, th := { s.th with rtn := some r } }))

/-! ## Binding (R363) -/

/-- The table without its least recently invoked entry that is not in use, when it is full. -/
def State.roomForBinding (s : State) : Core :=
  if s.core.binds.length < 256 then s.core
  else
    match s.core.binds.reverse.find? (fun b => !s.bindUsed b) with
    | some b => s.core.unbind b.ctx b.slot
    | none => s.core

def execRbind (d a : Reg) (slot : Fin 64) (s : State) : Out :=
  .next (s.notVp (s.atLevel 1 (
    let addr := s.getS a
    if addr.toNat % 8 ≠ 0 then s.fault (Cause.dalign addr.toNat)
    else if s.slotUsed slot.val then s.resultLong d 3
    else
      let s1 := s.withCore (s.core.unbind s.ctxNo slot.val)
      let c := s1.roomForBinding
      (s1.withCore { c with binds := { ctx := s.ctxNo, slot := slot.val, image := addr, words := none } :: c.binds }).resultLong d 0)))

/-! ## Loading (R359, R364) -/

/-- The target of a branch micro-operation. -/
def branchTarget (i : Instr) (f : UF) : Option Nat :=
  match i with
  | .ubeq | .ubne | .ublt | .uj | .uloop => some f.tgt.val
  | _ => none

/-- The word is a micro-operation whose target lies below `count`. -/
def microOk (count : Nat) (w : BitVec 32) : Bool :=
  match decodeMicro w.toNat with
  | none => false
  | some (i, f) =>
    match branchTarget i f with
    | some t => t < count
    | none => true

/-- The word ends a routine: `uend` or `uj`. -/
def microEnds (w : BitVec 32) : Bool :=
  match decodeMicro w.toNat with
  | some (.uend, _) | some (.uj, _) => true
  | _ => false

/-- An image's words are well formed (R359). -/
def wordsOk (ws : List (BitVec 32)) : Bool :=
  ws.all (microOk ws.length) && (match ws.getLast? with | some w => microEnds w | none => false)

/-- n micro-operation words upward from va. -/
def State.loadMicros (s : State) (va : Nat) : Nat → State × Except Trap (List (BitVec 32))
  | 0 => (s, .ok [])
  | n + 1 =>
    let (s1, x) := s.load .plain (va % 2 ^ 64) 4
    match x with
    | .error t => (s1, .error t)
    | .ok v =>
      let (s2, y) := s1.loadMicros (va + 4) n
      match y with
      | .error t => (s2, .error t)
      | .ok vs => (s2, .ok (BitVec.ofNat 32 v :: vs))

/-- Resident routines not in use that the store gives up, in order: other contexts' first, least recently invoked first. -/
def State.victims (s : State) : List Binding :=
  let idle := s.core.binds.reverse.filter (fun b => b.words.isSome && !s.bindUsed b)
  idle.filter (fun b => b.ctx != s.ctxNo) ++ idle.filter (fun b => b.ctx == s.ctxNo)

def Core.evictRoutine (c : Core) (b : Binding) : Core :=
  { c with binds := c.binds.map (fun x => if x.ctx == b.ctx && x.slot == b.slot then { x with words := none } else x) }

/-- Routines leave the store until it has room for `need` granules. -/
def Core.makeRoom (need : Nat) : Core → List Binding → Core
  | c, [] => c
  | c, b :: bs => if c.storeUsed + need ≤ 256 then c else Core.makeRoom need (c.evictRoutine b) bs

def execRload (d : Reg) (slot : Fin 64) (s : State) : Out :=
  .next (s.notVp (s.atLevel 1 (
    match s.core.bindingOf s.ctxNo slot.val with
    | none => s.resultLong d 2
    | some e =>
      if s.bindUsed e then s.resultLong d 3
      else
        let (s1, x) := s.load .plain e.image.toNat 8
        match x with
        | .error t => s1.fault t
        | .ok hdr =>
          if hdr = 0 ∨ 256 < hdr then s1.resultLong d 1
          else
            let (s2, y) := s1.loadMicros (e.image.toNat + 8) hdr
            match y with
            | .error t => s2.fault t
            | .ok ws =>
              if wordsOk ws then
                let c0 := s2.core.evictRoutine e
                let c := Core.makeRoom ((ws.length + 31) / 32) c0 ((s2.withCore c0).victims)
                (s2.withCore { c with binds := c.binds.map (fun x =>
                  if x.ctx == e.ctx && x.slot == e.slot then { x with words := some ws } else x) }).resultLong d 0
              else s2.resultLong d 1)))

/-! ## Unbinding and querying (R365, R366) -/

def execRunbind (d : Reg) (slot : Fin 64) (s : State) : Out :=
  .next (s.notVp (s.atLevel 1 (
    match s.core.bindingOf s.ctxNo slot.val with
    | none => s.resultLong d 1
    | some e =>
      if s.bindUsed e then s.resultLong d 3
      else (s.withCore (s.core.unbind s.ctxNo slot.val)).resultLong d 0)))

def execRunbindCtx (d a : Reg) (_slot : Fin 64) (s : State) : Out :=
  .next (s.notVp (s.atLevel 1 (
    let ctx := field (s.getS a) 0 16
    let kept := s.core.binds.filter (fun b => b.ctx == ctx && s.bindUsed b)
    (s.withCore { s.core with binds := s.core.binds.filter (fun b => b.ctx != ctx || s.bindUsed b) }).resultLong d
      (wd kept.length))))

/-- The word of `rquery`. -/
def Core.routineWord (c : Core) (b : Option Binding) : Word :=
  let count := match b with
    | some x => (match x.words with | some ws => ws.length | none => 0)
    | none => 0
  wd (count + (if count = 0 then 0 else 2 ^ 16) + (if b.isSome then 2 ^ 17 else 0) + (8192 - 32 * c.storeUsed) * 2 ^ 32)

def execRquery (d : Reg) (slot : Fin 64) (s : State) : Out :=
  .next (s.notVp (s.resultLong d (s.core.routineWord (s.core.bindingOf s.ctxNo slot.val))))

end Sys2Proof.Machine
end

