-- ==== Sys2Proof/Machine/TrapOps.lean ====
section
/-! DEFINITION. `trap`, `brk`, `tret`, interrupts and their requests, machine checks from outside (01 R21; 08 R192, R204, R209;
16 R366–R378, R396; 22 R404–R406). -/

namespace Sys2Proof.Machine

/-! ## `trap` and `brk` (R375) -/

/-- A trap taken at the instruction itself, with RPC after it. -/
def State.trapAfter (s : State) (t : Trap) : State := s.notVp (s.enterTrap t (s.th.pc + 8))

def execTrap (imm : BitVec 32) (s : State) : Out := .next (s.trapAfter (Cause.syscall imm))
def execBrk (imm : BitVec 32) (s : State) : Out := .next (s.trapAfter (Cause.brk imm))

/-! ## The frame as `tret` reads it (R370, R371) -/

/-- n words upward from a physical address, and the address of a poisoned sector among them. -/
def State.readWords (s : State) (pa : Nat) : Nat → State × List Word × Option Nat
  | 0 => (s, [], none)
  | n + 1 =>
    let (s1, v, p) := s.readPa .plain pa 8
    let (s2, vs, q) := s1.readWords (pa + 8) n
    (s2, wd v :: vs, if p then some pa else q)

/-- The words of a frame, VP section apart, and the count of free values as `tret` reads it. -/
structure Frame where
  ws : List Word
  free : Nat := 0

def Frame.w (f : Frame) (i : Nat) : Word := f.ws.getD i 0

def Frame.info (f : Frame) : Nat := (f.w 0).toNat
def Frame.rpc (f : Frame) : Word := f.w 1
def Frame.cause (f : Frame) : Nat := getBits f.info 0 8
def Frame.plev (f : Frame) : Nat := getBits f.info 16 2
def Frame.nrep (f : Frame) : Nat := getBits f.info 24 5
def Frame.cvalid (f : Frame) : Bool := bit f.info 32
def Frame.next (f : Frame) : Nat := getBits f.info 33 3
def Frame.vpact (f : Frame) : Bool := bit f.info 40
def Frame.pimask (f : Frame) : Bool := bit f.info 41
def Frame.rwatch (f : Frame) : Bool := bit f.info 42
def Frame.conv (f : Frame) : Word := f.w 5
def Frame.psize (f : Frame) : Nat := (f.w 62).toNat
def Frame.rinfo (f : Frame) : Nat := (f.w 64).toNat
def Frame.rvalid (f : Frame) : Bool := bit f.rinfo 63
def Frame.rslot (f : Frame) : Nat := getBits f.rinfo 0 6
def Frame.upc (f : Frame) : Nat := getBits f.rinfo 16 9
def Frame.vl (f : Frame) : Nat := getBits (f.w 288).toNat 0 16

/-- Word i of replay entry n. -/
def Frame.e (f : Frame) (n i : Nat) : Nat := (f.w (96 + 8 * n + i)).toNat

def Frame.skip (f : Frame) (n : Nat) : Bool := bit (f.e n 1) 24
def Frame.kind (f : Frame) (n : Nat) : Nat := getBits (f.e n 1) 20 2

/-- An entry that breaks R371: a reserved bit, PROG above VL, KIND 1x. -/
def Frame.entryBad (f : Frame) (n : Nat) : Bool :=
  let a := f.e n 1
  let b := f.e n 2
  getBits a 26 38 != 0 || getBits a 22 2 != 0 || bit a 19 || getBits b 32 32 != 0 || getBits b 3 13 != 0 || f.e n 6 != 0 ||
    f.e n 7 != 0 || f.e n 0 % 4 != 0 || decide (1 < f.kind n) || decide (getBits b 16 16 < getBits a 0 16)

/-- A frame that breaks R370 or R371, or that would give the thread a PC that is no multiple of 4 (R43, R44, log 18). -/
def Frame.bad (f : Frame) : Bool :=
  getBits f.info 18 6 != 0 || getBits f.info 29 3 != 0 || getBits f.info 36 4 != 0 || getBits f.info 43 21 != 0 ||
    f.rpc.toNat % 4 != 0 || (f.vpact && (f.w 289).toNat % 4 != 0) || (f.cvalid && f.conv.toNat % 4 != 0) ||
    f.plev == 3 || decide (24 < f.nrep) || f.psize / 2 ^ 24 != 0 ||
    (List.range 8).any (fun j => decide (4 < getBits f.psize (3 * j) 3)) ||
    getBits f.rinfo 6 10 != 0 || getBits f.rinfo 25 7 != 0 || getBits f.rinfo 35 28 != 0 ||
    (List.range f.nrep).any f.entryBad

/-- A rounding mode of the frame, by place; a code that names none leaves the mode open (R106, log 3). -/
def Frame.rmAt (f : Frame) (n code : Nat) : Rm :=
  (rmOf code).getD ((rmOf (Config.freePick (f.free + n) % 5 + 1)).getD .rne)

/-- The entries to reissue. -/
def Frame.replay (f : Frame) : List Replay :=
  ((List.range f.nrep).filter (fun n => !f.skip n)).map (fun n =>
    { pc := wd (f.e n 0), vector := f.kind n == 1, slot := getBits (f.e n 1) 16 3, prog := getBits (f.e n 1) 0 16,
      vl := getBits (f.e n 2) 16 16, rm := f.rmAt n (getBits (f.e n 2) 0 3), opa := wd (f.e n 3), opb := wd (f.e n 4),
      opc := wd (f.e n 5), nowatch := bit (f.e n 1) 25 })

/-- An instruction that an entry of R372 may name: a load, or a vector slot of a convoy. -/
def mayReplay (i : Instr) (vector : Bool) (slot : Nat) : Bool :=
  match i, vector with
  | .ld _ _ _ _, false | .ldHome _ _ _ _, false | .ldLast _ _ _ _, false => true
  | .convoyIssue units _, true => (match units[slot]? with | some u => u != 6 | none => false)
  | _, _ => false

/-- Every entry names such an instruction, as far as it can be fetched. -/
def State.entriesAllowed (s : State) (f : Frame) : Bool :=
  (List.range f.nrep).all (fun n =>
    match (s.fetchAt (f.e n 0)).2 with
    | .ok (i, _) => mayReplay i (f.kind n == 1) (getBits (f.e n 1) 16 3)
    | .error _ => true)

/-! ## What `tret` restores (R376) -/

/-- Registers as the frame holds them. -/
def Frame.registers (f : Frame) (t : Thread) : Thread :=
  { t with
    s := Vector.ofFn (fun r => if r = 0 then 0 else f.w (7 + r.val))
    k := Vector.ofFn (fun r => if r = 0 then 0 else f.w (38 + r.val))
    p := Vector.ofFn (fun r => f.w (54 + r.val))
    psz := Vector.ofFn (fun r => Fin.ofNat 5 (getBits f.psize (3 * r.val) 3)) }

/-- The VPs of the frame's VP section; a VP whose copies the core does not hold has the thread's registers and acquire points. -/
def frameVps (t : Thread) (held : Option VpState) (pcs : List Word) : List Vp :=
  pcs.mapIdx (fun i w =>
    let old := held.bind (fun v => v.vps[i]?)
    { pc := w &&& ~~~3, stopped := w.getLsbD 0, never := w.getLsbD 1
      s := match old with | some x => x.s | none => t.s
      k := match old with | some x => x.k | none => t.k
      acqL1 := match old with | some x => x.acqL1 | none => t.acqL1
      acqRdc := match old with | some x => x.acqRdc | none => t.acqRdc })

/-- The VP phase as it resumes: the group that was served, without a block, so that the rotation goes on with the group after it
(R33, R35, log 20). -/
def Frame.vpState (f : Frame) (t : Thread) (pcs : List Word) : VpState :=
  let group := match t.vpHeld with | some v => v.group | none => [f.vl]
  { vl := f.vl, join := f.w 289, s := t.s, k := t.k, acqL1 := t.acqL1, acqRdc := t.acqRdc, vps := frameVps t t.vpHeld pcs, group, todo := [], cur := none,
    blkFrom := 0, blkTop := 0, blkLeft := 0 }

/-- The convoy whose slots from NEXT are still to issue: VL and rounding mode as its entries hold them, else as `VSTATE` has them. -/
def Frame.convoy (f : Frame) (t : Thread) : Convoy :=
  let last := (f.replay.filter (fun r => r.vector && r.pc == f.conv)).getLast?
  { hdr := f.conv, units := [], slots := [], next := f.next, after := f.rpc, lane0 := 0, lender := none, lent := false
    vl := match last with | some r => r.vl | none => (if f.vpact then f.vl else t.vec.vl)
    rm := match last with | some r => r.rm | none => t.vec.rm }

/-- The thread as it resumes from a frame. `machine` is a return from a machine check, which leaves INTRAP (R377). -/
def Frame.resume (f : Frame) (t0 : Thread) (machine : Bool) (pcs : List Word) (rtn : Option RtnState) : Thread :=
  let t := f.registers t0
  let vp := f.vpact && !f.rvalid
  { t with
    pc := f.rpc, level := BitVec.ofNat 2 f.plev
    intrap := if machine then t.intrap else false
    imask := if machine then f.pimask else false
    replay := f.replay, rtn
    vp := if vp then some (f.vpState t pcs) else none
    vpHeld := if vp then none else t.vpHeld
    convoy := if f.cvalid && !f.rvalid then some (f.convoy t) else none
    issue := none, wait := .none, qans := none, atBar := false, recent := [], flight := []
    rwatch := if f.rwatch then some f.rpc else none }

/-- The routine that a frame resumes: the parcel at RPC is its `rtn`, and it is looked up again, at the saved micro-PC (R361, R376). -/
def State.frameRoutine (s : State) (f : Frame) : State × Except Trap RtnState :=
  let (s1, x) := s.fetchParcel f.rpc.toNat
  match x.map decodeInstr with
  | .error t => (s1, .error t)
  | .ok (.rtn slot d a b imm) =>
    if slot.val ≠ f.rslot then (s1, .error Cause.resop)
    else
      match s1.core.bindingOf s1.ctxNo slot.val with
      | none => (s1, .error (Cause.routineMiss 1 slot.val))
      | some e =>
        match e.words with
        | none => (s1, .error (Cause.routineMiss 2 slot.val))
        | some ws =>
          if ws.length ≤ f.upc then (s1, .error (Cause.routineMiss 3 slot.val))
          else (s1, .ok
            { ctx := s1.ctxNo, slot, upc := f.upc, lc := f.w 65, h := Vector.ofFn (fun i => f.w (66 + i.val))
              rm := f.rmAt 24 (getBits f.rinfo 32 3), d, a, b, imm, cur := {} })
  | .ok _ => (s1, .error Cause.resop)

/-- The thread in focus returns from the frame at a physical address; the frame's cause when it has. -/
def State.returnFrom (s : State) (base : Nat) (machine : Bool) : State × Option Nat :=
  if s.frameOk base 0x910 = false then (s.fault Cause.resop, none)
  else
    let (s1, ws, p) := s.readWords base 290
    let f : Frame := { ws, free := s1.free }
    match p with
    | some pa => (s1.fault (Cause.poison pa pa), none)
    | none =>
      let n := if f.vpact then f.vl else 0
      if f.bad || decide (16 * s.vlen < 8 * n) || !s1.frameOk base (0x910 + 8 * n) || !s1.entriesAllowed f then
        (s1.fault Cause.resop, none)
      else
        let (s2, pcs, q) := s1.readWords (base + 0x910) n
        match q with
        | some pa => (s2.fault (Cause.poison pa pa), none)
        | none =>
          if f.rvalid then
            let (s3, r) := s2.frameRoutine f
            match r with
            | .error t => (s3.fault t, none)
            | .ok rt => ({ s3 with free := s3.free + 25, th := f.resume s3.th machine pcs (some rt) }, some f.cause)
          else ({ s2 with free := s2.free + 25, th := f.resume s2.th machine pcs none }, some f.cause)

/-- A sibling stopped by the trap whose frame has been consumed resumes from its own frame (R376), one that handles a machine check once that
handler returns (R378). -/
def State.resumeSibling (s : State) (cause : Nat) (j : Nat) : State :=
  match (s.threadAt s.coreId j).wait with
  | .stopped any =>
    if j ≠ s.slot.val ∧ (any = true ∨ cause = 32) then
      s.onThread s.coreId (Fin.ofNat 4 j) (fun t => (t.returnFrom t.th.tframe.toNat false).1)
    else s
  | .none | .pause _ | .tbar | .mwait | .saving | .queue _ _ =>
    match (s.threadAt s.coreId j).mcStop with
    | some (some any) =>
      if j ≠ s.slot.val ∧ (any = true ∨ cause = 32) then s.setThread s.coreId j { s.threadAt s.coreId j with mcStop := some none } else s
    | some none | none => s

/-- The held matrix fault that the thread in focus has taken: its sequencer goes on at the gate (R189). -/
def State.releaseHeld (s : State) (cause : Nat) : State :=
  let m := s.core.mat
  match m.held, m.queue.head? with
  | some h, some e => if cause = 16 ∧ h.untaken = false ∧ e.slot = s.slot then s.setM1 { m with held := none } else s
  | _, _ => s

/-- The same where the thread's MFAULT had become a machine check, from which it returns. -/
def State.releaseChecked (s : State) : State :=
  if s.core.mat.held.any (·.checked) then s.releaseHeld 16 else s

/-- The return from a machine check. A thread that had been stopped is stopped again, or goes on from its own frame where the
handler that had stopped it has returned meanwhile (R376–R378). -/
def State.returnCheck (s : State) : State :=
  let (s1, x) := s.returnFrom s.core.sys.mcframe.toNat true
  let s2 : State := { s1 with th := { s1.th with mcStop := none } }
  match x, s.th.mcStop with
  | none, _ => s1
  | some _, none => s2.releaseChecked
  | some _, some (some any) => { s2.releaseChecked with th := { s2.th with wait := .stopped any } }
  | some _, some none => (s2.releaseChecked.returnFrom s2.th.tframe.toNat false).1

def execTret (s : State) : Out :=
  .next (s.notVp (s.atLevel 1 (
    if s.th.level = 2 then s.returnCheck
    else if s.th.intrap = false then s.fault Cause.resop
    else
      let (s1, x) := s.returnFrom s.th.tframe.toNat false
      match x with
      | none => s1
      | some cause => ((List.range 4).foldl (fun u j => u.resumeSibling cause j) s1).releaseHeld cause)))

/-! ## Interrupts (R378, R396, R406) -/

/-- The thread stands between instructions: no slot of a convoy and no queue operation under way. -/
def Thread.atBoundary (t : Thread) : Bool :=
  t.convoy.isNone && t.issue.isNone && t.replay.isEmpty &&
    (match t.wait with | .queue _ _ => false | .none | .pause _ | .tbar | .mwait | .saving | .stopped _ => true)

/-- An interrupt of core n is pending and no team thread holds it off: the core stops issue on every team thread (R378). -/
def State.interruptDue (s : State) (n : Nat) : Bool :=
  s.enabled n && (s.coreAt n).sys.ipend != 0 && !(s.teamSlots n).isEmpty &&
    (s.teamSlots n).all (fun j => let t := s.threadAt n j; !t.imask && !t.ending)

/-- Such an interrupt is taken once every team thread stands at a boundary. -/
def State.canInterrupt (s : State) (n : Nat) : Bool :=
  s.interruptDue n && (s.teamSlots n).all (fun j => (s.threadAt n j).atBoundary)

/-- The thread in focus traps at its boundary; a stopped one takes no turn until the handler returns. A slot without a thread, as a
module reset on the way leaves it, does nothing. -/
def State.stopThread (s : State) (t : Trap) (stop : Option Bool) : State :=
  if s.th.occ = false then s
  else
    let s1 := s.enterTrap t s.th.pc
    match stop with
    | some any => if s1.th.level = 1 then { s1 with th := { s1.th with wait := .stopped any } } else s1
    | none => s1

/-- A pre-emption breaks the core's chain and closes its windows (R204, R209). -/
def State.preempted (s : State) (n : Nat) : State := (s.breakChain n).closeWindows n

/-- Core `ev.core` takes its interrupt: the lowest team slot traps with INTR, the others with STOP. -/
def execInterruptTake (s : State) : Out :=
  let n := s.ev.core
  .next (
    if s.canInterrupt n then
      let bits := (s.coreAt n).sys.ipend
      let s1 := if bits.getLsbD 1 then s.preempted n else s
      let team := s1.teamSlots n
      team.foldl (fun u j =>
        u.onThread n (Fin.ofNat 4 j) (fun t =>
          if some j = team.head? then t.stopThread (Cause.intr bits.toNat) none else t.stopThread Cause.stop (some false))) s1
    else s)

/-- Core `ev.core`'s timer compare: `IPEND.TIMER` once `CYCLE` has reached CMP while EN is set (R368). -/
def State.timerDue (s : State) (n : Nat) : Bool :=
  let x := (s.coreAt n).sys.ttimer
  bit x.toNat 63 && decide (field x 0 63 ≤ s.cycle) && !(s.coreAt n).sys.ipend.getLsbD 0

def execTimerCompare (s : State) : Out := .next (if s.timerDue s.ev.core then s.setIpend s.ev.core 1 else s)

/-- A request by the host or a kernel reaches core `ev.core`'s request word (R368, R405): with bit 0 of `ev.v` set it sets
`IPEND.PRE`, and any other value is discarded. -/
def execPreemptRequest (s : State) : Out :=
  .next (if s.ev.v.getLsbD 0 && decide (s.ev.core < 1536) then s.setIpend s.ev.core 2 else s)

/-! ## Machine checks from outside an instruction (R21, R377, R411) -/

/-- A machine check of core n on its thread in slot j, at the address that the thread stands at. -/
def State.checkThread (s : State) (n : Nat) (j : Fin 4) (src : Nat) : State :=
  if s.enabled n = true ∧ (s.threadAt n j.val).occ = true then
    if s.boot.starting = true then { s with boot := s.boot.stop 6 }
    else if (s.threadAt n j.val).level = 2 then s.resetUncounted s.sameFacts
    else s.onThread n j (fun t => t.machineCheck src t.th.pc)
  else s

/-- A machine check that is to be reported: during a start it stops the start (R408); else on the thread named, else on the next
thread of the module that takes a turn (R21, R404, log 49). -/
def State.report (s : State) (n : Nat) (j : Fin 4) (src : Nat) : State :=
  if s.boot.starting = true then { s with boot := s.boot.stop 6 }
  else if s.enabled n = true ∧ (s.threadAt n j.val).occ = true then s.checkThread n j src
  else { s with fab := { s.fab with checks := s.fab.checks ++ [src] } }

/-- A read of core n's running matrix instruction has found an error: the instruction leaves the queue without completing, and its poster
takes the machine check `sub` (R128, R214, log 2). -/
def State.entryFails (s : State) (n sub : Nat) : State :=
  let m := (s.coreAt n).mat
  match m.held, m.queue with
  | none, e :: _ => (s.onThread n e.slot State.seqDone).checkThread n e.slot sub
  | _, _ => s

/-- An error in the latches or accumulators is found where that instruction reads them. -/
def State.cellsFail (s : State) (n : Nat) : State :=
  let m := (s.coreAt n).mat
  if (m.queue.head?).any (fun e => e.readsCells m.mode) then s.entryFails n 4 else s

/-- The lowest slot of core n that holds a thread. -/
def State.lowSlot (s : State) (n : Nat) : Fin 4 := Fin.ofNat 4 ((s.teamSlots n).headD 0)

/-- Core `ev.core` goes out of service: a machine check reports it, and the Lift places no further task there (R21). -/
def execCoreOutOfService (s : State) : Out :=
  let n := s.ev.core
  .next (
    if s.enabled n then
      let c := s.coreAt n
      (s.setCore n { c with outOfService := true }).report n (s.lowSlot n) 6
    else s)

/-- A machine check on thread `ev.slot` of core `ev.core`, which is at level 2, cannot be delivered: the module is reset, and the
reset is not counted as a failed start (R377). -/
def execLevel2McheckReset (s : State) : Out :=
  .next (
    if s.enabled s.ev.core = true ∧ (s.threadAt s.ev.core s.ev.slot.val).occ = true ∧
        (s.threadAt s.ev.core s.ev.slot.val).level = 2 then s.resetUncounted s.sameFacts
    else s)

end Sys2Proof.Machine
end

