-- ==== Sys2Proof/Machine/Context.lean ====
section
/-! DEFINITION. Context images: `ctxsave`, `ctxload` and the hardware resumption of a released task (08 R212–R213; 16 R379–R384, R415;
22 R414). -/

namespace Sys2Proof.Machine

/-! ## Parts of an image (R379) -/

/-- A part of an image: its length, its bytes, and whether `.incr` may leave what memory holds there. -/
structure Piece where
  len : Nat
  data : Blob
  keep : Bool

def Piece.ofWords (ws : List Word) : Piece := { len := 8 * ws.length, data := packB 8 (ws.map BitVec.toNat), keep := false }
def Piece.bytes (n : Nat) (x : Blob) : Piece := { len := n, data := x, keep := false }

/-- Bytes that bring an offset to a multiple of 64. -/
def Piece.pad (off : Nat) : Piece := .bytes (roundUp off 64 - off) 0

def piecesLen (ps : List Piece) : Nat := ps.foldl (fun n p => n + p.len) 0

/-- The offset of each part. -/
def pieceOffsets : Nat → List Piece → List Nat
  | _, [] => []
  | off, p :: ps => off :: pieceOffsets (off + p.len) ps

/-- The tag word of a register with its valid bytes and, when tagged, its sidecar (R379, R380). -/
def VRegister.piece (r : VRegister) (vlen : Nat) : Piece :=
  { len := 8 + r.vb + (if r.tag then vlen / 16 else 0)
    data := r.vb + (if r.tag then 2 ^ 16 else 0) + 2 ^ 64 * (r.data % 256 ^ r.vb + (if r.tag then 256 ^ r.vb * r.side else 0))
    keep := !r.dirty }

/-- A VP's copies. -/
def Vp.piece (v : Vp) : Piece := .ofWords (v.s.toList.drop 1 ++ v.k.toList.drop 1)

/-- What a thread section holds after the frame. -/
def Thread.pieces (t : Thread) (vn : Nat) (vps : List Vp) : List Piece :=
  [.ofWords [t.vec.word, t.lcount, t.laneBusy, if t.atBar then 1 else 0]] ++ (t.vec.o.toList ++ t.vec.lat.toList).map (.bytes (8 * vn)) ++
    t.vec.m.toList.map (.bytes (t.vec.vlen / 4)) ++ t.vec.v.toList.map (·.piece t.vec.vlen) ++ vps.map Vp.piece

/-- The section of slot j of the team: its parts, and whether it allows PORTV (R379, R381). -/
def State.threadSection (s : State) (j : Nat) : State × Except Trap (List Piece × Bool) :=
  let t := s.threadAt s.coreId j
  let base := t.tframe.toNat
  let (s1, ws, p) := s.readWords base 290
  let f : Frame := { ws }
  let n := if f.vpact then f.vl else 0
  let (s2, pcs, q) := s1.readWords (base + 0x910) n
  match p.orElse (fun _ => q) with
  | some pa => (s2, .error (Cause.poison pa pa))
  | none =>
    let vps := if f.vpact then frameVps (f.registers t) t.vpHeld pcs else []
    let strip := match (s2.fetchAt f.rpc.toNat).2 with | .ok (.vstrip _ _ _ _, _) => true | _ => false
    (s2, .ok (.ofWords (ws ++ pcs) :: t.pieces (s.lanes s.coreId) vps, f.nrep == 0 && !f.vpact && !f.rvalid && strip))

/-- The sections of the team, from the given slots. -/
def State.teamSections (s : State) : List Nat → State × Except Trap (List Piece × Bool)
  | [] => (s, .ok ([], true))
  | j :: js =>
    let (s1, x) := s.threadSection j
    match x with
    | .error t => (s1, .error t)
    | .ok (ps, portv) =>
      let (s2, y) := s1.teamSections js
      match y with
      | .error t => (s2, .error t)
      | .ok (qs, more) => (s2, .ok (ps ++ qs, portv && more))

/-! ## The matrix section (R212, R213, R415) -/

/-- The matrix state as an image shows it: a joined chain is broken (R209). -/
def Mat.cut (m : Mat) : Mat := if m.leads then m.alone 7 else if m.follows then m.freed 7 else m

def Mat.hasSection (m : Mat) : Bool :=
  m.mode != .v || m.mvl != 2 || m.tshape.toList.any (fun t => t.rows != 0) || !m.queue.isEmpty

/-- One more than the highest column with a loaded element. -/
def Mat.latN (m : Mat) : Nat :=
  if m.wlive then ((m.lat.zipIdx).filter (fun c => c.1.loaded != 0)).foldl (fun x c => max x (c.2 + 1)) 0 else 0

/-- The image's N. -/
def Mat.imageN (m : Mat) (lanes : Nat) : Nat :=
  max (max m.latN (if m.alive then lanes else 0))
    (min 64 (m.tshape.toList.foldl (fun x t => if t.rows = 0 then x else max x t.cols) 0))

/-- Positions and columns that the masks of an entry cover: a mask register that they do not need is not used. -/
def MView.maskSpan (v : MView) (n : Nat) (e : MEntry) : Nat × Nat :=
  let t := rd v.shape e.f.t
  if e.mop = mopMldb then (0, v.maxCols n)
  else if e.mop = mopMgmul then (e.vl, t.cols)
  else if e.mop = mopMopa then (64, n)
  else if e.mop = mopMdrain ∨ e.mop = mopMdrainx then
    (drainRow0 e.sv + drainCnt e.sv, if e.mop = mopMdrain ∧ fxBit e.f 2 = true then n else t.cols)
  else (t.rows, t.cols)

/-- A queue entry: 16 words, a value that the instruction does not use zero. -/
def MEntry.piece (e : MEntry) (span : Nat × Nat) : Piece :=
  .ofWords ([wd (matW e.mop e.f), wd (e.slot.val + e.vl * 2 ^ 16 + rmCode e.rm * 2 ^ 32), e.sv, e.sv1, e.kr,
    if span.1 ≤ 64 then 0 else e.kr1, e.kc, if span.2 ≤ 64 then 0 else e.kc1, e.kd] ++ List.replicate 7 0)

def queuePieces (n : Nat) : MView → List MEntry → List Piece
  | _, [] => []
  | v, e :: es => e.piece (v.maskSpan n e) :: queuePieces n (v.after e) es

/-- The distinct records that the rows of `e` have bound, granted or refused, increasing: a row with cause 1 has fetched none (R218). -/
def MEntry.boundIdx (e : MEntry) (b : Bound) (rows : Nat) : List Nat :=
  (((List.range rows).filter (fun m => e.rowOn m && b.cause.getD m 0 != 1)).foldl (fun (l : List (Nat × Unit)) m => assoc l (b.idx.getD m 0) ()) []).map (·.1)

def Mat.boundPiece (m : Mat) : List Piece :=
  match m.bound, m.queue.head? with
  | some b, some e =>
    let ids := e.boundIdx b (rd m.tshape e.f.t).rows
    [.bytes 8 ids.length, .bytes 128 (packB 1 b.cause), .bytes 256 (packB 2 b.idx)] ++
      ids.map (fun i => .bytes 64 ((look b.recs i).getD 0)) ++ [.bytes 8 0]
  | _, _ => []

/-- The section for an image with this N, saved on a core of `lanes` lanes. -/
def Mat.sectionPieces (m : Mat) (mn lanes : Nat) : List Piece :=
  let col := fun n => if n < m.latN then m.lat.getD n .empty else .empty
  [.ofWords ([wd (mmodeCode m.mode + m.mvl.toNat * 4 + (if m.alive then 256 else 0) + (if m.wlive then 512 else 0)),
      wd (m.queue.length + m.gate % 256 * 2 ^ 8 + (if m.started then 2 ^ 16 else 0) + (if m.bound.isSome then 2 ^ 17 else 0) +
        (if m.wlive then m.latTy.code * 2 ^ 24 else 0))] ++ m.tshape.toList.map TShape.word)] ++
    queuePieces lanes m.view m.queue ++ m.boundPiece ++
    (if m.wlive then
      (List.range mn).map (fun n => .bytes 512 ((col n).data % 256 ^ 512)) ++ (List.range mn).map (fun n => .bytes 128 ((col n).loaded % 2 ^ 1024))
    else []) ++
    (if m.alive then
      (List.range 64).map (fun i => .bytes (4 * mn) (packB 4 ((List.range mn).map (fun n => if n < 64 then getB m.acc (accAt i n) 4 else 0))))
    else [])

/-- The bytes of parts laid one after the other. -/
def piecesBlob : List Piece → Blob
  | [] => 0
  | p :: ps => p.data % 256 ^ p.len + 256 ^ p.len * piecesBlob ps

/-! ## The whole image -/

/-- A core watchpoint as an image holds it (log 14). -/
def CoreWatch.word (w : CoreWatch) : Word :=
  wd (w.addr.toNat % 2 ^ 56 + (if w.rd then 2 ^ 56 else 0) + (if w.wr then 2 ^ 57 else 0) + w.len * 2 ^ 58)

def CoreWatch.ofWord (w : Word) : CoreWatch :=
  { addr := keep w 55 0, rd := w.getLsbD 56, wr := w.getLsbD 57, len := field w 58 3 }

/-- The header of 256 bytes. -/
def State.imageHeader (s : State) (len mn : Nat) (portv sec : Bool) : Piece :=
  let c := s.core
  let r := c.sys
  .ofWords ([wd (len + 2 ^ 32), r.taskrec,
    wd (r.carve.toNat % 2 ^ 32 + c.team * 2 ^ 32 + s.lanes s.coreId * 2 ^ 40 + mn * 2 ^ 48 + (if portv then 2 ^ 56 else 0) +
      (if sec then 2 ^ 57 else 0)),
    wd s.vlen, r.ctxid.setWidth 64, r.ptroot, r.lease.setWidth 64, r.orbase, r.orcnt.setWidth 64] ++ c.watch.toList.map CoreWatch.word ++
    [wd (r.carve.toNat / 2 ^ 32)] ++ List.replicate 20 0)

/-- An image to be written: its parts, its N, PORTV, the bytes of its matrix section. -/
structure Draft where
  parts : List Piece
  mn : Nat
  portv : Bool
  sec : Option Blob

/-- The image of the team as it stands. -/
def State.draft (s : State) : State × Except Trap Draft :=
  let (s1, x) := s.teamSections (s.teamSlots s.coreId)
  match x with
  | .error t => (s1, .error t)
  | .ok (ps, portv) =>
    let m := s1.core.mat.cut
    let sec := m.hasSection
    let mn := if sec then m.imageN (s1.lanes s1.coreId) else 0
    let at1 := 256 + piecesLen ps
    let body0 := m.sectionPieces mn (s1.lanes s1.coreId)
    let ms := if sec then .pad at1 :: body0 else []
    let at2 := at1 + piecesLen ms
    let spad := (List.range (s1.core.spadSize / 32)).map (fun i => Piece.bytes 32 (s1.core.spad.readN (32 * i) 32))
    let body := ps ++ ms ++ .pad at2 :: spad
    let len := 256 + piecesLen body
    (s1, .ok { parts := s1.imageHeader len mn portv sec :: body, mn, portv, sec := if sec then some (piecesBlob body0) else none })

/-- n bytes written from va up, with the rights of the thread in focus. `fuel` bounds the number of sectors. -/
def State.imageWrite : Nat → State → Nat → Nat → Nat → State × Except Trap Unit
  | 0, s, _, _, _ => (s, .ok ())
  | fuel + 1, s, va, n, v =>
    if n = 0 then (s, .ok ())
    else
      let m := min n (32 - va % 32)
      let (s1, x) := s.locate va m .write
      match x with
      | .error t => (s1, .error t)
      | .ok tg => State.imageWrite fuel (s1.writeAt tg m (v % 256 ^ m)) ((va + m) % 2 ^ 64) (n - m) (v / 256 ^ m)

/-- The parts written one after the other; `skip` leaves those that `.incr` keeps. -/
def State.writeParts (s : State) (skip : Bool) : Nat → List Piece → State × Except Trap Unit
  | _, [] => (s, .ok ())
  | va, p :: ps =>
    let (s1, x) := if skip && p.keep then (s, .ok ()) else State.imageWrite (p.len / 32 + 2) s va p.len p.data
    match x with
    | .error t => (s1, .error t)
    | .ok () => s1.writeParts skip ((va + p.len) % 2 ^ 64) ps

/-! ## `ctxsave` (R383) -/

/-- Slots of the other threads of the team. -/
def State.siblings (s : State) : List Nat := (s.teamSlots s.coreId).filter (fun j => j != s.slot.val)

/-- A thread that has taken INTR or STOP and has not yet returned, one that handles a machine check meanwhile among them (R378). -/
def Thread.isStopped (t : Thread) : Bool :=
  match t.wait with
  | .stopped _ => true
  | .none | .pause _ | .tbar | .mwait | .saving | .queue _ _ => (match t.mcStop with | some (some _) => true | some none | none => false)

/-- A sibling is inside its own handler and not stopped. -/
def State.siblingInTrap (s : State) : Bool :=
  s.siblings.any (fun j => let t := s.threadAt s.coreId j; t.intrap && !t.isStopped)

/-- Every sibling that is not stopped stands where it can be. -/
def State.siblingsReady (s : State) : Bool :=
  s.siblings.all (fun j => let t := s.threadAt s.coreId j; t.isStopped || (t.atBoundary && t.level != 2))

/-- Every sibling stops, with cause STOP, unless it has stopped already. -/
def State.stopSiblings (s : State) : State :=
  s.siblings.foldl (fun u j =>
    if (u.threadAt u.coreId j).isStopped then u
    else u.onThread u.coreId (Fin.ofNat 4 j) (fun t => t.stopThread Cause.stop (some true))) s

/-- A release at `.pkg` of the whole team. -/
def State.releaseTeam (s : State) : State := s.releaseAll s.coreId

/-- The registers are clean, and the layout is noted (R380, R383). -/
def State.imageSaved (s : State) (offs : List Nat) : State :=
  let s1 := s.mapTeam s.coreId (fun t =>
    { t with vec := { t.vec with v := t.vec.v.map (fun r => { r with dirty := false }) } })
  { s1 with core := { s1.core with imgMap := some offs } }

/-- `.rel`: the Lift holds the task with its image, and the core is idle. -/
def State.releaseTask (s : State) (va : Word) (dr : Draft) : State :=
  let s1 := s.preempted s.coreId
  let s2 := match s1.core.task.bind s1.taskById with
    | some t =>
      s1.putTask ({ t with image := some va, mn := dr.mn, vn := s1.lanes s1.coreId, portv := dr.portv, carve := s1.core.split }.enterReady
        s1.time)
    | none => s1
  s2.vacate s2.coreId

/-- The image at va, saved for the team's record, noted with the matrix state that it shows; it replaces the image that stood there
(log 16). -/
def State.noteImage (s : State) (va : Nat) (sec : Option Blob) (m : Mat) : State :=
  let r := s.core.sys.taskrec.toNat
  { s with store := { s.store with
    kept := { rec_ := r, va, sec, mat := m } :: s.store.kept.filter (fun k => k.rec_ != r || k.va != va) } }

/-- The image is written when it fits in `room` bytes. -/
def State.saveImage (s : State) (rel incr : Bool) (d : Reg) (va room : Word) : State :=
  let s1 := s.releaseTeam
  let (s2, x) := s1.draft
  match x with
  | .error t => s2.fault t
  | .ok dr =>
    let len := piecesLen dr.parts
    if room.toNat < len then s2.resultLong d (wd (len + 2 ^ 63))
    else
      let offs := pieceOffsets 0 dr.parts
      let (s3, y) := s2.writeParts (incr && s2.core.imgMap == some offs) va.toNat dr.parts
      match y with
      | .error t => s3.fault t
      | .ok () =>
        let s4 := ((s3.imageSaved offs).noteImage va.toNat dr.sec s2.core.mat).resultLong d (wd len)
        if rel then s4.releaseTask va dr else s4

/-- `ctxsave`. While a sibling cannot stop yet, it waits, and the core issues nothing new for its siblings (R378, R383). -/
def execCtxsave (rel incr : Bool) (d a b : Reg) (s : State) : Out :=
  let va := s.getS a
  .next (s.notVp (s.atLevel 1 (
    if va.toNat % 4096 ≠ 0 then s.fault (Cause.dalign va.toNat)
    else if s.siblingInTrap then ({ s with th := { s.th with wait := .none } } : State).resultLong d (BitVec.allOnes 64)
    else if s.siblingsReady = false then { s with th := { s.th with wait := .saving } }
    else
      let s1 := s.stopSiblings
      if s1.siblings.all (fun j => (s1.threadAt s1.coreId j).isStopped) && s1.th.pc == s.th.pc then
        ({ s1 with th := { s1.th with wait := .none } } : State).saveImage rel incr d va (s.getS b)
      else s1)))

/-! ## Reading an image -/

/-- n bytes from va up, with the rights of the thread in focus. -/
def State.imageRead : Nat → State → Nat → Nat → State × Except Trap Nat
  | 0, s, _, _ => (s, .ok 0)
  | fuel + 1, s, va, n =>
    if n = 0 then (s, .ok 0)
    else
      let m := min n (32 - va % 32)
      let (s1, x) := s.locate va m .read
      match x with
      | .error t => (s1, .error t)
      | .ok tg =>
        let (s2, v, p) := s1.readAt .plain tg m
        match p with
        | some pa => (s2, .error (Cause.poison va pa))
        | none =>
          let (s3, y) := State.imageRead fuel s2 ((va + m) % 2 ^ 64) (n - m)
          match y with
          | .error t => (s3, .error t)
          | .ok w => (s3, .ok (v + 256 ^ m * w))

/-- What a thread section holds. -/
structure ImgThread where
  frame : List Word
  vps : List Vp
  vec : VecState
  lcount : Word
  laneBusy : Word
  bar : Bool

/-- n words of an image from an offset. -/
def imgWords (x : Blob) (at_ n : Nat) : List Word := (List.range n).map (fun i => wd (getB x (at_ + 8 * i) 8))

/-- Registers of an image: none where a tag word is malformed. -/
def parseRegs (x : Blob) (vlen : Nat) : Nat → Nat → Option (List VRegister × Nat)
  | at_, 0 => some ([], at_)
  | at_, n + 1 =>
    let w := getB x at_ 8
    let vb := w % 2 ^ 16
    let tag := bit w 16
    let side := if tag then vlen / 16 else 0
    if 2 ^ 17 ≤ w ∨ vb % 64 ≠ 0 ∨ vlen < vb then none
    else
      match parseRegs x vlen (at_ + 8 + vb + side) n with
      | none => none
      | some (rs, at1) =>
        some ({ data := getB x (at_ + 8) vb, tag, side := getB x (at_ + 8 + vb) side, vb, dirty := false } :: rs, at1)

/-- A thread section from an offset, and where it ends. -/
def parseThread (x : Blob) (at_ vn vlen : Nat) : Option (ImgThread × Nat) :=
  let f : Frame := { ws := imgWords x at_ 290 }
  let n := if f.vpact then f.vl else 0
  let frame := imgWords x at_ (290 + n)
  let at1 := at_ + 8 * (290 + n)
  let vs := wd (getB x at1 8)
  let at2 := at1 + 32
  let at3 := at2 + 120 * vn
  let at4 := at3 + 8 * (vlen / 4)
  match rmOf (field vs 0 3), parseRegs x vlen at4 64 with
  | some rm, some (rs, at5) =>
    if 2 * vlen < n ∨ 2 * vlen < field vs 16 16 then none
    else
      some ({
        frame
        vps := ((frame.drop 290).zipIdx).map (fun p =>
          { pc := p.1 &&& ~~~3, stopped := p.1.getLsbD 0, never := p.1.getLsbD 1
            s := Vector.ofFn (fun r => if r = 0 then 0 else wd (getB x (at5 + 368 * p.2 + 8 * (r.val - 1)) 8))
            k := Vector.ofFn (fun r => if r = 0 then 0 else wd (getB x (at5 + 368 * p.2 + 248 + 8 * (r.val - 1)) 8))
            acqL1 := 0, acqRdc := 0 })
        vec :=
          { v := Vector.ofFn (fun r => rs.getD r.val .zero)
            m := Vector.ofFn (fun i => getB x (at3 + vlen / 4 * i.val) (vlen / 4))
            o := Vector.ofFn (fun i => getB x (at2 + 8 * vn * i.val) (8 * vn))
            lat := Vector.ofFn (fun i => getB x (at2 + 8 * vn * (8 + i.val)) (8 * vn))
            vlen, vl := field vs 16 16, fx := BitVec.ofNat 5 (field vs 3 5), rm }
        lcount := wd (getB x (at1 + 8) 8), laneBusy := wd (getB x (at1 + 16) 8), bar := bit (getB x (at1 + 24) 8) 0 }, at5 + 368 * n)
  | _, _ => none

def parseThreads (x : Blob) (vn vlen : Nat) : Nat → Nat → Option (List ImgThread × Nat)
  | at_, 0 => some ([], at_)
  | at_, n + 1 =>
    match parseThread x at_ vn vlen with
    | none => none
    | some (t, at1) =>
      match parseThreads x vn vlen at1 n with
      | none => none
      | some (ts, at2) => some (t :: ts, at2)

/-- A queue entry; `level` gives the level at which each slot's thread was when it trapped. -/
def parseEntry (x : Blob) (at_ : Nat) (level : Nat → BitVec 2) : Option MEntry :=
  let w := imgWords x at_ 16
  let g := fun i => w.getD i 0
  let q := field (g 1) 0 16
  let mop := field (g 0) 4 6
  match decodeMatrix (g 0).toNat, decodeMF (g 0).toNat, rmOf (field (g 1) 32 32) with
  | some _, some f, some rm =>
    if mop = mopMwait ∨ 4 ≤ q ∨ (w.drop 9).any (fun y => y != 0) = true then none
    else some
      { mop, f, slot := Fin.ofNat 4 q, vl := field (g 1) 16 16, rm, sv := g 2, sv1 := g 3, kr := g 4, kr1 := g 5, kc := g 6, kc1 := g 7,
        kd := g 8, level := level q, chained := false }
  | _, _, _ => none

def parseQueue (x : Blob) (level : Nat → BitVec 2) : Nat → Nat → Option (List MEntry)
  | _, 0 => some []
  | at_, n + 1 =>
    match parseEntry x at_ level, parseQueue x level (at_ + 128) n with
    | some e, some es => some (e :: es)
    | _, _ => none

/-- A `TSHAPE` word of an image: none where a reserved field is set. -/
def parseShape (w : Word) : Option TShape :=
  let t : TShape := { owner := Fin.ofNat 4 (field w 32 2), rows := field w 16 8, cols := field w 8 8, base := Fin.ofNat 64 (field w 0 6) }
  if field w 26 6 ≠ 9 ∨ field w 6 2 ≠ 0 ∨ field w 24 2 ≠ 0 ∨ field w 34 30 ≠ 0 ∨ 128 < t.rows ∨ (t.rows ≠ 0 ∧ (t.cols = 0 ∨ 128 < t.cols)) then
    none
  else some t

/-- What an `mmulx` past gate 0 has bound, and the bytes that it takes. -/
def parseBound (x : Blob) (at_ : Nat) (e : MEntry) (rows : Nat) : Option (Bound × Nat) :=
  let n := getB x at_ 8
  let b : Bound :=
    { cause := (List.range rows).map (fun m => getB x (at_ + 8 + m) 1), idx := (List.range rows).map (fun m => getB x (at_ + 136 + 2 * m) 2),
      recs := [] }
  let ids := e.boundIdx b rows
  if e.mop ≠ mopMmulx ∨ n ≠ ids.length then none
  else some ({ b with recs := ids.zipIdx.map (fun p => (p.1, getB x (at_ + 392 + 64 * p.2) 64)) }, 400 + 64 * n)

/-- What a load takes from beyond the image's bytes: the notes of the images that this module saved, and for any other section a choice and
free values (log 16, log 37). -/
structure Beyond where
  kept : List Kept
  rec_ : Nat
  va : Nat
  joined : Bool
  scales : Nat → Blob

/-- The entry was posted, or may have been posted, for a chain. -/
def MEntry.chainOp (e : MEntry) : Bool := e.mop == mopMldb || e.mop == mopMmul || e.mop == mopMgmul

/-- The note of an image: of the one saved for its record at its address, if the section is still the same; else the latest of that record
with the same section; else, for an image with a section, the latest with the same section. -/
def Beyond.note (b : Beyond) (sec : Option Blob) : Option Mat :=
  let same := b.kept.filter (fun k => k.sec == sec)
  let mine := same.filter (fun k => k.rec_ == b.rec_)
  (((mine.find? (fun k => k.va == b.va)).orElse (fun _ => mine.head?)).orElse (fun _ => if sec.isSome then same.head? else none)).map (·.mat)

/-- A chain had been joined when an image was saved that shows this matrix state: CHAIN is 111 after its load (R212, R384). -/
def Mat.wasJoined (m : Mat) : Bool := m.leads || m.follows || m.chain == 7

/-- The matrix state of an image without a section: as at task start (R415), but for a chain that had been joined (R212). -/
def Beyond.bare (b : Beyond) : Option Mat :=
  if (b.note none).any Mat.wasJoined then some { Mat.reset with chain := 7 } else none

/-- The matrix state of a section with what the layout of R415 has no room for. From a section that a `ctxsave` wrote: CHAIN 111 exactly when
a chain had been joined, the entries that need it, the latches' scale bytes (R192, R212). From another section: a tile wider than the saving
core's N shows a chain, else it is open whether there was one, and the scale bytes are free values. -/
def Mat.restored (m : Mat) (b : Beyond) (sec : Blob) (vn : Nat) : Mat :=
  match b.note (some sec) with
  | some k =>
    { m with
      chain := if k.wasJoined then 7 else 0
      queue := m.queue.zipIdx.map (fun p => match k.queue[p.2]? with | some e => { p.1 with chained := e.chained } | none => p.1)
      lat := m.lat.zipIdx.map (fun p => { p.1 with scales := (k.lat.getD p.2 .empty).scales }) }
  | none =>
    let broken := m.tshape.toList.any (fun t => t.rows != 0 && decide (vn < t.cols)) || b.joined
    { m with
      chain := if broken then 7 else 0
      queue := m.queue.map (fun e => { e with chained := broken && e.chainOp })
      lat := m.lat.zipIdx.map (fun p => { p.1 with scales := if m.latTy = .mxf4 then b.scales p.2 else 0 }) }

/-- The matrix section from an offset, and where it ends. `lanes` is the lane count of the core that loads. -/
def parseMat (x : Blob) (at_ mn lanes : Nat) (level : Nat → BitVec 2) : Option (Mat × Nat) :=
  let ms := getB x at_ 8
  let qi := getB x (at_ + 8) 8
  let shapes := (List.range 8).map (fun i => parseShape (wd (getB x (at_ + 16 + 8 * i) 8)))
  let e := qi % 64
  let wlive := bit ms 9
  let alive := bit ms 8
  match parseQueue x level (at_ + 80) e, ETy.ofCode (getBits qi 24 6) with
  | some q, some ty =>
    let m : Mat := { Mat.reset with
      mode := modeOfCode (ms % 4), mvl := BitVec.ofNat 2 (getBits ms 2 2), wlive, alive,
      tshape := Vector.ofFn (fun i => ((shapes.getD i.val none).getD .undef)), latTy := ty, queue := q
      gate := getBits qi 8 8, started := bit qi 16 }
    let bound : Option (Option Bound × Nat) :=
      if bit qi 17 then
        match q.head? with
        | none => none
        | some h => (parseBound x (at_ + 80 + 128 * e) h (rd m.tshape h.f.t).rows).map (fun p => (some p.1, p.2))
      else some (none, 0)
    match bound with
    | none => none
    | some (b, n) =>
      let at1 := at_ + 80 + 128 * e + n
      let at2 := at1 + (if wlive then 640 * mn else 0)
      if 32 < e || shapes.any Option.isNone || ms % 4 == 3 || getBits ms 4 4 != 0 || getBits ms 10 54 != 0 || getBits qi 6 2 != 0 ||
          getBits qi 18 6 != 0 || getBits qi 30 34 != 0 || (!wlive && getBits qi 24 6 != 0) || (wlive && !ty.isMatIn) || (wlive && ms % 4 != 1) || (alive && ms % 4 != 2) ||
          (e == 0 && getBits qi 8 10 != 0) then none
      else some ({ m with
        bound := b
        lat := if wlive then
            (List.range lanes).map (fun c =>
              if c < mn then { data := getB x (at1 + 512 * c) 512, loaded := getB x (at1 + 512 * mn + 128 * c) 128, scales := 0 } else .empty)
          else []
        acc := if alive then
            putElems 0 32 (((List.range 64).flatMap (fun i => (List.range (min mn 64)).map (fun c =>
              (64 * i + c, getB x (at2 + (i * mn + c) * 4) 4)))))
          else 0 }, at2 + (if alive then 256 * mn else 0))
  | _, _ => none

/-- An image as parsed. -/
structure Image where
  hdr : Blob
  team : Nat
  vn : Nat
  mn : Nat
  portv : Bool
  vlen : Nat
  carve : Word
  absorb : Bool
  threads : List ImgThread
  mat : Option Mat
  spad : Mem

/-- The level at which slot j's thread was when it trapped. -/
def imgLevel (ts : List ImgThread) (j : Nat) : BitVec 2 :=
  match ts[j]? with
  | some t => BitVec.ofNat 2 (Frame.plev { ws := t.frame })
  | none => 0

/-- The memory of a scratchpad's bytes. -/
def spadOf (x : Blob) (at_ n : Nat) : Mem :=
  (List.range n).filterMap (fun i => let b := BitVec.ofNat 8 (getB x (at_ + i) 1); if b = 0 then none else some (i, b))

/-- The header breaks a rule of R379 or R384, for a thread in slot `slot`. -/
def headerBad (x : Blob) (slot : Nat) : Bool :=
  let carve := wd (getB x 0x10 4)
  let team := getB x 0x14 1
  let vlen := getB x 0x18 2
  getB x 4 4 != 1 || team == 0 || decide (4 < team) || decide (team ≤ slot) || (getB x 0x15 1 != 48 && getB x 0x15 1 != 64) ||
    decide (4 ≤ getB x 0x17 1) || splitMalformed carve || getB x 0x5C 4 != 0 || getB x 0x1A 6 != 0 ||
    (vlen != vlenOf (splitRegs carve) team false && vlen != vlenOf (splitRegs carve) team true) ||
    decide (getB x 0x30 8 < 256) || decide (4096 < getB x 0x30 8) || decide (4096 < getB x 0x40 8) || getB x 0x60 160 != 0 ||
    (getBits (getB x 0x58 4) 22 1 == 1 && splitMalformed (wd (getBits (getB x 0x58 4) 0 22))) || getBits (getB x 0x58 4) 23 9 != 0 ||
    (!bit (getB x 0x17 1) 1 && getB x 0x16 1 != 0) || decide (getB x 0 4 < 256) || decide (2 ^ 24 < getB x 0 4)

/-- The image of LENGTH bytes; none where it is malformed. -/
def parseImage (x : Blob) (slot lanes : Nat) (beyond : Beyond) : Option Image :=
  let carve := wd (getB x 0x10 4)
  let team := getB x 0x14 1
  let vn := getB x 0x15 1
  let mn := getB x 0x16 1
  let vlen := getB x 0x18 2
  if headerBad x slot then none
  else
    match parseThreads x vn vlen 256 team with
    | none => none
    | some (ts, at1) =>
      let mat : Option (Option Mat × Nat) :=
        if bit (getB x 0x17 1) 1 then
          let from_ := roundUp at1 64
          (parseMat x from_ mn lanes (imgLevel ts)).map (fun p => (some (p.1.restored beyond (getB x from_ (p.2 - from_)) vn), p.2))
        else some (beyond.bare, at1)
      match mat with
      | none => none
      | some (m, at2) =>
        let at3 := roundUp at2 64
        let n := splitSpad carve * 8192
        if at3 + n ≠ getB x 0 4 then none
        else some
          { hdr := x % 256 ^ 256, team, vn, mn, portv := bit (getB x 0x17 1) 0, vlen, carve,
            absorb := vlen != vlenOf (splitRegs carve) team false, threads := ts, mat := m, spad := spadOf x at3 n }

/-! ## `ctxload` (R384) -/

/-- The status of an image on the core in focus. -/
def State.imageStatus (s : State) (im : Image) : Nat :=
  let n := s.lanes s.coreId
  if (!im.portv && im.vn != n) || decide (n < im.mn) then 2
  else if s.core.freeGranules < splitSum im.carve then 3
  else 0

/-- The core's registers and caches with an image in place; the task record is found among those that the Lift lists. -/
def Core.loaded (c : Core) (im : Image) (task : Option Nat) : Core :=
  let q := fun o => wd (getB im.hdr o 8)
  { c with
    team := im.team, absorb := im.absorb, task
    sys := { c.sys with
      taskrec := keep (q 8) 55 8, ctxid := (q 0x20).setWidth 16, ptroot := keep (q 0x28) 51 20, lease := (q 0x30).setWidth 13,
      orbase := keep (q 0x38) 55 6, orcnt := (q 0x40).setWidth 13,
      carve := let p := wd (getB im.hdr 0x58 4 * 2 ^ 32)
        wd (getB im.hdr 0x10 4 + 2 ^ 32 * (carveWord p).toNat + 2 ^ 54 * field p 54 1) }
    watch := #v[.ofWord (q 0x48), .ofWord (q 0x50)], mat := im.mat.getD .reset, spad := im.spad
    kcache := [], rcache := [], rpend := [] }

/-- A thread of the image in slot j: stopped in its frame, or going on where it issues the load. -/
def ImgThread.put (i : ImgThread) (t : Thread) (lanes vn : Nat) (seq : Nat) (here : Bool) : Thread :=
  let f : Frame := { ws := i.frame }
  let keepO := lanes == vn
  let group := ((List.range i.vps.length).filter (fun p => match i.vps[p]? with | some v => v.pc == f.rpc && !v.done | none => false))
  { t with
    occ := true
    vec := { i.vec with
      o := if keepO then i.vec.o else Vector.replicate 8 0
      lat := if keepO then i.vec.lat else Vector.replicate 7 0 }
    lcount := i.lcount, laneBusy := i.laneBusy, level := if here then t.level else 1, intrap := true, imask := true
    acqL1 := seq, acqRdc := seq, convoy := none, issue := none, replay := [], rtn := none, vp := none
    vpHeld := if f.vpact then some
        { vl := f.vl, join := f.w 289, s := (f.registers t).s, k := (f.registers t).k, acqL1 := seq, acqRdc := seq
          vps := i.vps, group, todo := [], cur := none,
          blkFrom := 0, blkTop := 0, blkLeft := 0 }
      else none
    rwatch := none, wait := if here then .none else .stopped true, spin := 0, qans := none, polling := none, ending := false, atBar := i.bar
    mcStop := none, recent := [], flight := [] }

/-- TFRAME of a slot that the former team did not fill (R338). -/
def State.newFrame (s : State) (j : Nat) : Word :=
  match s.ctxUsable s.core.sys.ctxid.toNat with
  | some e => e.frameArea s.coreId j
  | none => 0

/-- Slot j takes its thread of the image, or none. A frame area outside device memory takes no frame (DESIGN CHOICE, log 16). -/
def State.putSlot (s : State) (im : Image) (former : List Nat) (j : Nat) : State :=
  let t := s.threadAt s.coreId j
  match im.threads[j]? with
  | none => s.setThread s.coreId j { Thread.reset s.coreId j with gen := t.gen }
  | some i =>
    let t1 := if former.contains j then t else { Thread.reset s.coreId j with gen := t.gen, tframe := s.newFrame j }
    let s1 := s.setThread s.coreId j (i.put t1 s.nLanes im.vn s.seq (j == s.slot.val))
    if s1.frameOk t1.tframe.toNat (8 * i.frame.length) then s1.writeWords t1.tframe.toNat i.frame else s1

/-- The task that the core runs once it has loaded an image of this record: the core's own, else one that the Lift lists as running for
it. For a record that the Lift does not list the core goes on with the task that the Lift placed on it. -/
def State.taskOfRecord (s : State) (rec_ : Nat) : Option Nat :=
  let own := s.fab.tasks.find? (fun t => some t.id == s.core.task && t.rec_ == rec_)
  let any := s.fab.tasks.find? (fun t => t.rec_ == rec_ && t.phase == .running)
  match own.orElse (fun _ => any) with
  | some t => some t.id
  | none => s.core.task

/-- The layout of the image that the team has loaded, where a save would lay its items out alike (R383): not on a core of another lane count,
which moves every item after the operand file, and not with another N. -/
def State.loadedMap (s : State) (im : Image) : Option (List Nat) :=
  match s.draft.2 with
  | .ok dr => if im.vn = s.lanes s.coreId ∧ piecesLen dr.parts = getB im.hdr 0 4 then some (pieceOffsets 0 dr.parts) else none
  | .error _ => none

/-- The state of the team replaced by the image. -/
def State.loadImage (s : State) (im : Image) : State :=
  let n := s.coreId
  let former := s.teamSlots n
  let task := s.taskOfRecord (getB im.hdr 8 8)
  let s1 := s.preempted n
  let l1 := splitL1 im.carve
  let s2 := if l1 < s1.core.ways then (s1.reclaimWays n l1).reclaimRest n l1 else s1
  let s3 := { s2 with core := (s2.core.loaded im task) }
  let s4 := match task.bind s3.taskById with | some t => s3.putTask { t with core := n } | none => s3
  let s5 := (List.range 4).foldl (fun u j => u.putSlot im former j) s4
  { s5 with core := { s5.core with imgMap := s5.loadedMap im } }

/-- The record that an image's header names (R379). -/
def keepRec (h : Blob) : Nat := (keep (wd (getB h 8 8)) 55 8).toNat

/-- An image read and parsed with the rights of the thread in focus. -/
def State.readImage (s : State) (va : Nat) : State × Except Trap (Option Image) :=
  let (s1, x) := State.imageRead 10 s va 256
  match x with
  | .error t => (s1, .error t)
  | .ok h =>
    if headerBad h s.slot.val then (s1, .ok none)
    else
      let n := getB h 0 4
      let (s2, y) := State.imageRead (n / 32 + 2) s1 va n
      match y with
      | .error t => (s2, .error t)
      | .ok b =>
        let beyond : Beyond :=
          { kept := s2.store.kept, rec_ := keepRec h, va, joined := Config.freePick s2.free % 2 == 1
            scales := fun c => Config.freeBlob (s2.free + 1 + c) % 256 ^ 32 }
        ({ s2 with free := s2.free + 129 }, .ok (parseImage b s.slot.val s2.nLanes beyond))

def execCtxload (d a : Reg) (s : State) : Out :=
  let va := (s.getS a).toNat
  .next (s.notVp (s.atLevel 1 (
    if va % 4096 ≠ 0 then s.fault (Cause.dalign va)
    else
      let (s1, x) := s.readImage va
      match x with
      | .error t => s1.fault t
      | .ok none => s1.resultLong d 1
      | .ok (some im) =>
        let st := s1.imageStatus im
        if st = 0 then (s1.loadImage im).resultLong d 0 else s1.resultLong d (wd st))))

/-! ## The hardware resumption (R383, R384) -/

/-- Each thread of the loaded team returns from its frame. -/
def State.resumeTeam (s : State) : State :=
  (s.teamSlots s.coreId).foldl (fun u j =>
    if (u.threadAt u.coreId j).occ then u.onThread u.coreId (Fin.ofNat 4 j) (fun t => (t.returnFrom t.th.tframe.toNat false).1) else u) s

/-- The lines that have entered the L1 of the core in focus leave it again: no task has run there since (R393). -/
def State.dropFetched (s : State) (before : List L1Line) : State :=
  { s with core := { s.core with l1 := s.core.l1.filter (fun l => before.any (fun x => x.tag == l.tag)) } }

/-- The released task loaded on its core, with the rights of level 1; a failure frees the core and faults the record. -/
def State.resumeTask (s : State) (t : LTask) (va : Word) : State :=
  s.onThread t.core 0 (fun u =>
    let (u1, x) := ({ u with th := { u.th with level := 1 } } : State).readImage va.toNat
    let failed := fun (w : State) => ((w.dropFetched u.core.l1).idleCore t.core).faultTask t 10 4 0
    match x with
    | .ok (some im) =>
      if u1.imageStatus im = 0 then
        let u2 := ((u1.clearIpend t.core).drainPosted.loadImage im).putTask { t with phase := .running, image := none }
        ({ u2 with core := { u2.core with task := some t.id } }).resumeTeam
      else failed u1
    | .ok none | .error _ => failed u1)

/-- The Lift's placement of released task `ev.id` ends with its load. -/
def execResumeReleased (s : State) : Out :=
  .next (match s.taskById s.ev.id with
    | some t =>
      match t.phase, t.image with
      | .staging, some va => s.resumeTask t va
      | _, _ => s
    | none => s)

end Sys2Proof.Machine
end

