-- ==== Sys2Proof/Machine/Events.lean ====
section
/-! DEFINITION. `travset`, and the steps that stand outside every instruction stream and that no other file has: caches, links, the
host and the peers, register writes as steps, start-up and power (06 R135; 11 R247–R261, R265; 12 R271, R276, R283; 13 R297;
14 R340; 22 R401–R413). A step whose condition does not hold leaves the state as it is (log 2). -/

namespace Sys2Proof.Machine

/-! ## `travset` (R264, R265) -/

/-- An entry image breaks a rule of R265. -/
def travBad (e : Nat) : Bool :=
  getBits e 225 31 != 0 || getBits e 195 13 != 0 || getBits e 104 24 != 0 || getBits e 52 12 != 0 || decide (4 ≤ getBits e 192 3) ||
    travRows e == 0 || travCols e == 0 || travBase e % travSize e != 0 || travStride e % travSize e != 0 ||
    (decide (1 < travRows e) && decide (travStride e < travCols e * travSize e))

def State.setTrav (s : State) (die entry e : Nat) : State :=
  { s with store := { s.store with trav := assoc s.store.trav (die * 64 + entry) (BitVec.ofNat 256 e) } }

/-- `travset` (R264, R265). A malformed image for a stack that is absent answers 1, a choice of the model: R265 gives its statuses no order
(log 61). -/
def execTravset (d a : Reg) (die : Fin 8) (entry : Fin 64) (s : State) : Out :=
  let va := (s.getS a).toNat
  .next (s.notVp (s.atLevel 1 (
    let (s1, x) := s.load .plain va 32
    match x with
    | .error t => s1.fault t
    | .ok e =>
      let st := if travBad e then 1 else if s1.stackPresent die.val then 0 else 2
      ((if st = 0 then s1.setTrav die.val entry.val e else s1).setS d (wd st)).advance 8)))

/-! ## Threads -/

/-- Thread `ev.slot` of core `ev.core` takes barrel turns again once its pause is over (R63). -/
def execPauseExpiry (s : State) : Out :=
  let n := s.ev.core
  let j := s.ev.slot.val
  let t := s.threadAt n j
  .next (match t.wait with
    | .pause u => if u < s.cycle then s.setThread n j t.wake else s
    | .none | .tbar | .mwait | .saving | .queue _ _ | .stopped _ => s)

/-! ## Caches -/

/-- The linear address of a device address, none elsewhere. -/
def State.mediaLin (s : State) (pa : Nat) : Option Nat :=
  match s.place pa with
  | .media lin => some lin
  | .host _ | .peer _ _ | .cfg _ | .none => none

/-- The home slice recalls the line at `ev.pa` and merges its data (R283). -/
def execRecall (s : State) : Out :=
  .next (match s.mediaLin s.ev.pa with
    | some lin => s.recall (lin / 128) none
    | none => s)

/-- A load of thread `ev.slot` of core `ev.core` misses on the line at `ev.pa`, and the copy that the home grants enters its L1
(R249, R271). A core that no task runs on fetches nothing (R393). -/
def execLeaseRequest (s : State) : Out :=
  .next (if s.enabled s.ev.core && (s.threadAt s.ev.core s.ev.slot.val).occ && (s.mediaLin s.ev.pa).isSome then
      s.onThread s.ev.core s.ev.slot (fun t => (t.l1Read s.ev.pa 1).1)
    else s)

/-- Core n's copy under a tag is used no more once its expiry has passed; the line keeps its way and its stored bytes (R271, R394). -/
def State.expireL1 (s : State) (n tag : Nat) : State :=
  let c := s.coreAt n
  match c.line tag with
  | some l =>
    if l.filled && !l.excl && decide (l.expiry < s.cycle) then
      s.setCore n (c.putLine { l with filled := false })
    else s
  | none => s

def State.expireRdc (s : State) (die tag : Nat) : State :=
  match s.store.rdcFind die tag with
  | some x => if x.expiry < s.cycle then { s with store := s.store.rdcDrop die tag } else s
  | none => s

/-- The lease of a copy of the line at `ev.pa` ends: that of die `ev.die`'s RDC with `ev.flag`, else of core `ev.core`'s L1. -/
def execLeaseExpiry (s : State) : Out :=
  let tag := s.ev.pa / 128
  .next (if s.ev.flag then s.expireRdc s.ev.die.val tag else s.expireL1 s.ev.core tag)

/-- Core n's stored bytes of sector i of a line go home, unless every link on their way is down (R247); the sector is clean, and the
line keeps its way (R248, R394). -/
def State.writeBackSector (s : State) (n tag : Nat) (i : Fin 4) : State :=
  match (s.coreAt n).line tag with
  | none => s
  | some l =>
    if s.cutOff n (homeDie (128 * linLine tag)) then s
    else
      let s1 := (s.recall (linLine tag) (some (n, tag))).sendSector n l i
      s1.setCore n ((s1.coreAt n).putLine { l with sec := wr l.sec i { L1Sector.clean with poison := (rd l.sec i).poison } })

/-- Core `ev.core` writes back the sector at `ev.pa`. -/
def execDirtyWriteback (s : State) : Out := .next (s.writeBackSector s.ev.core (s.ev.pa / 128) (Fin.ofNat 4 (s.ev.pa / 32)))

/-- The drop of a last-use load reaches the home of the line at `ev.pa`, for which one is on its way (R261). -/
def execLastDrop (s : State) : Out :=
  .next (match s.mediaLin s.ev.pa with
    | some lin => if s.fab.drops.contains (lin / 128) then s.dropHome (lin / 128) else s
    | none => s)

/-- The bank that the event names. -/
def evBank (e : Ev) : Nat := (e.die.val * 32 + e.slice.val) * 16 + e.bank.val

/-- The bank has been idle for its die's threshold (R255). Idle times are not counted: any bank may (log 6). -/
def execBankDrowsy (s : State) : Out :=
  let b := evBank s.ev
  .next (if rd s.drowsyThresh s.ev.die = 0 || s.store.drowsy.contains b then s
    else { s with store := { s.store with drowsy := b :: s.store.drowsy } })

/-- A wake message reaches the bank (R257). -/
def execBankWake (s : State) : Out :=
  .next { s with store := s.store.wake (evBank s.ev) }

/-! ## Links (R247, R404) -/

/-- A link by number: of die `ev.die` below 16, the host link at 16, peer port j's at 24 + j. -/
def evLink (e : Ev) : Nat × Nat :=
  if e.link < 16 then (e.die.val, e.link) else if e.link < 24 then (16, 0) else (17, e.link % 8)

/-- Failures of a link after which a message was sent again. -/
def State.linkCount (s : State) (k : Nat × Nat) : Nat :=
  match s.fab.linkFails.find? (fun f => f.1 == k.1 && f.2.1 == k.2) with
  | some f => f.2.2
  | none => 0

def State.setLinkCount (s : State) (k : Nat × Nat) (n : Nat) : State :=
  s.setFab { s.fab with linkFails := (k.1, k.2, n) :: s.fab.linkFails.filter (fun f => !(f.1 == k.1 && f.2.1 == k.2)) }

/-- A message that stayed uncorrectable on the link is sent again under its tag, with no other effect; the failure is counted. -/
def execLinkRetry (s : State) : Out :=
  let k := evLink s.ev
  .next (if s.fab.linksDown.contains k then s else s.setLinkCount k (min 3 (s.linkCount k + 1)))

/-- The link has failed three times and goes down; thread `ev.slot` of core `ev.core` takes the machine check that its die raises. -/
def execLinkDown (s : State) : Out :=
  let k := evLink s.ev
  .next (if s.fab.linksDown.contains k || decide (s.linkCount k < 3) then s
    else
      let s1 := s.setFab { s.fab with linksDown := k :: s.fab.linksDown }
      (if k.1 = 17 then s1.portOff (Fin.ofNat 8 k.2) else s1).report s.ev.core s.ev.slot 5)

/-- Peer port `ev.port` goes down. Transfers on it stop at their next access to its window (R350). -/
def execPeerPortDown (s : State) : Out :=
  .next (if s.boot.ports.getLsbD s.ev.port.val then
      (s.linkFalls (some s.ev.port)).report s.ev.core s.ev.slot 5
    else s)

/-! ## Requests from outside the module -/

/-- The atomic that the event describes, on the bytes at `ev.pa`. -/
def evRequest (e : Ev) (sr : Bool) : AmoReq :=
  let w := 2 ^ e.ty.ety.bits
  { op := e.op, ty := e.ty, sr, far := true, v := e.v.toNat % w, expect := e.expect.toNat % w, lane := none }

/-- A request at its home: nothing happens on a misaligned address or on a poisoned sector. -/
def State.outsideAtomic (s : State) (q : AmoReq) : State :=
  match s.mediaLin s.ev.pa with
  | none => s
  | some lin => if lin % q.bytes ≠ 0 ∨ s.homePoison lin = true then s else (s.amoHome q lin none).1

/-- A far request of a peer module (R297, R402); `ev.flag` marks a stochastic add. -/
def execFarAtomicAtHome (s : State) : Out :=
  let e := s.ev
  .next (if amoAccepts e.op e.ty && (!e.flag || (e.op == .add && e.ty == .bf16)) then s.outsideAtomic (evRequest e e.flag) else s)

/-- A host AtomicOp through BAR2 (R340, R403). -/
def execHostAtomic (s : State) : Out :=
  let e := s.ev
  .next (if hostAtomicOk e.op e.ty && decide (e.pa < 2 ^ 39) then s.drainPosted.outsideAtomic (evRequest e false) else s)

/-- An I/O die receives a posted write; one that does not lie in device memory is discarded (R403). -/
def State.receivePosted (s : State) (pa : Nat) (data : List Byte) : State :=
  if !data.isEmpty && (s.mediaLin pa).isSome && (s.mediaLin (pa + data.length - 1)).isSome then
    { s with store := { s.store with posted := s.store.posted ++ [{ pa, data }] } }
  else s

/-- A host posted write, of `ev.data` at `ev.pa` in the linear window, reaches its home after those received before it. -/
def execHostPostedWrite (s : State) : Out :=
  .next (if s.ev.pa + s.ev.data.length ≤ 2 ^ 39 then (s.receivePosted s.ev.pa s.ev.data).drainPosted else s.drainPosted)

/-- A posted write of a peer module, in either window. -/
def execPeerPostedWrite (s : State) : Out := .next (s.receivePosted s.ev.pa s.ev.data).drainPosted

/-! ## Register writes as steps -/

/-- The write of a register by thread `ev.slot` of core `ev.core`; without the level, or with a value that the register refuses,
nothing happens. -/
def State.writeAs (s : State) (r : SysReg) (v : Word) : State :=
  s.onThread s.ev.core s.ev.slot (fun t =>
    if t.th.level.toNat < sysWriteLevel r then t else (t.sysPut r v).getD t)

/-- The register has a step of its own. -/
def ownStep : SysReg → Bool
  | .mstate | .carve | .orbase | .orcnt | .lease | .sscr | .fqueue | .liftw => true
  | .vstate | .lcount | .thread | .cycle | .lanebusy | .regerr | .tshape _ | .orflt0 | .orflt1 | .orprobe | .tframe | .tvec
  | .tstat | .ttimer | .ipend | .taskrec | .ctxtab | .recmap | .ptroot | .ctxid | .mcvec | .mcframe => false

def execSysregWrite (s : State) : Out := .next (if ownStep s.ev.reg then s else s.writeAs s.ev.reg s.ev.v)

/-- A read of `MSTATE` by a thread of core `ev.core` waits for the matrix queue and clears FCAUSE (R182, R188). -/
def execMstateRead (s : State) : Out :=
  let n := s.ev.core
  .next (if s.matBusyAt n then s else s.setMat n { (s.coreAt n).mat with fcause := 0 })

def execCarveWrite (s : State) : Out := .next (if s.matBusyAt s.ev.core then s else s.writeAs .carve s.ev.v)
def execOrtableWrite (s : State) : Out := .next (s.writeAs (if s.ev.reg = .orcnt then .orcnt else .orbase) s.ev.v)
def execLeaseWrite (s : State) : Out := .next (s.writeAs .lease s.ev.v)
def execSscrWrite (s : State) : Out := .next (s.writeAs .sscr s.ev.v)
def execLiftContextWrite (s : State) : Out := .next (s.writeAs (if s.ev.reg = .liftw then .liftw else .fqueue) s.ev.v)

/-- A store of `ev.v` to die `ev.die`'s `DROWSY` (R413). -/
def execDrowsyWrite (s : State) : Out := .next (s.setDrowsy s.ev.die s.ev.v.toNat)

/-! ## Start-up and power (R405, R408–R412) -/

def execBootclr (s : State) : Out := .next (s.bootClear s.ev.v.toNat)
def execBootok (s : State) : Out := .next (s.bootDone s.ev.v.toNat)

/-- The module is reset, and starts with what `ev.facts` says it finds. -/
def execModuleReset (s : State) : Out := .next (s.resetModule s.boot.fails s.boot.reason s.ev.facts)

def execStartWatchdog (s : State) : Out :=
  .next (if s.boot.starting && decide (watchdogTicks ≤ s.time) then s.resetModule s.boot.fails 5 s.ev.facts else s)

/-- The host moves the function to D3hot: task and memory state is lost, and no failed start is counted. -/
def execD3hot (s : State) : Out := .next (s.resetUncounted s.sameFacts)

/-- A power fault stops the start, with reason POWER. -/
def execInputPowerFault (s : State) : Out :=
  .next (if s.boot.starting then { s with boot := s.boot.stop 7 } else s)

end Sys2Proof.Machine
end

