-- ==== Sys2Proof/Machine/ScalarFloat.lean ====
section
/-! DEFINITION. Scalar floating point, conversions and moves to and from the operand file (06 R148–R151). -/

namespace Sys2Proof.Machine

/-- The rounding mode of a scalar instruction: its own, or `VSTATE.RM` (R57, R106). -/
def State.scalarMode (s : State) (r : RmSel) : Rm :=
  match r with
  | .dyn => s.th.vec.rm
  | .rne => .rne | .rtz => .rtz | .rup => .rup | .rdn => .rdn | .rst => .rst

/-- The low bits of an `s` register at a format's width. -/
def State.low (s : State) (a : Reg) (f : Fmt) : Nat := (s.getS a).toNat % 2 ^ f.width

/-- A rounded result in an `s` register: zero above its width, flags raised, the thread's generator stepped when a value
was drawn (R104, R109, R148). -/
def State.fresult (s : State) (d : Reg) (r : Rounded) : State :=
  (((s.genStepped r.drew).raise r.fx).result d (wd r.code))

/-- The value that the thread's generator would give next. -/
def State.draw (s : State) : Nat := genDraw s.th.gen

/-- A rounding operation of two sources. -/
def State.fop (s : State) (op : FOp) (f : FFmt) (rm : RmSel) (d a b : Reg) : State :=
  let fm := fmtOf f.ety
  s.fresult d (op.eval fm (s.scalarMode rm) s.draw (s.low a fm) (s.low b fm))

def execFadd (f : FFmt) (rm : RmSel) (d a b : Reg) (s : State) : Out := .next (s.fop .add f rm d a b)
def execFsub (f : FFmt) (rm : RmSel) (d a b : Reg) (s : State) : Out := .next (s.fop .sub f rm d a b)
def execFmul (f : FFmt) (rm : RmSel) (d a b : Reg) (s : State) : Out := .next (s.fop .mul f rm d a b)
def execFdiv (f : FFmt) (rm : RmSel) (d a b : Reg) (s : State) : Out := .next (s.fop .div f rm d a b)
def execFsqrt (f : FFmt) (rm : RmSel) (d a : Reg) (s : State) : Out := .next (s.fop .sqrt f rm d a 0)

/-- The lesser or the greater (R148). -/
def State.fmm (s : State) (mx : Bool) (f : FFmt) (d a b : Reg) : State :=
  let fm := fmtOf f.ety
  let r := fminmax fm mx (s.low a fm) (s.low b fm)
  s.fresult d { code := r.1, fx := r.2, drew := false }

def execFmin (f : FFmt) (d a b : Reg) (s : State) : Out := .next (s.fmm false f d a b)
def execFmax (f : FFmt) (d a b : Reg) (s : State) : Out := .next (s.fmm true f d a b)

def execFcmp (r : FRel) (f : FFmt) (d a b : Reg) (s : State) : Out :=
  let fm := fmtOf f.ety
  let x := fcompare fm r (s.low a fm) (s.low b fm)
  .next (s.fresult d { code := if x.1 then 1 else 0, fx := x.2, drew := false })

def execFclass (f : FFmt) (d a : Reg) (s : State) : Out :=
  let fm := fmtOf f.ety
  .next (s.result d (wd (fclassify fm (s.low a fm))))

/-- n copies of a 64-bit value, 8 bytes for each lane. -/
def splat64 : Nat → Nat → Blob
  | 0, _ => 0
  | n + 1, v => v % 2 ^ 64 + 2 ^ 64 * splat64 n v

/-- `fmv` into an operand-file entry: every lane's 8 bytes (R149). Not VP-safe (R151). -/
def execFmvToOperand (d : Fin 8) (a : Reg) (s : State) : Out :=
  .next (s.notVp ((s.setO d (splat64 s.nLanes (s.getS a).toNat)).advance 4))

/-- `fmv` from a lane of an operand-file entry; RESOP for a lane index of N or more. -/
def execFmvFromOperand (d : Reg) (a : Fin 8) (b : Reg) (s : State) : Out :=
  .next (s.notVp (
    if s.nLanes ≤ (s.getS b).toNat then s.fault Cause.resop
    else s.result d (wd (getB (rd s.th.vec.o a) (8 * (s.getS b).toNat) 8))))

/-- `fcvt` (R150): an integer result is extended by its own signedness, a floating one by zeros. -/
def execFcvt (dst src : ETy) (sat : Bool) (rm : RmSel) (d a : Reg) (s : State) : Out :=
  let r := convert dst src (s.scalarMode rm) sat s.draw ((s.getS a).toNat % 2 ^ src.bits)
  .next ((((s.genStepped r.drew).raise r.fx).result d (extend dst.isSigned (dst.bits / 8) r.code)))

end Sys2Proof.Machine
end

