-- ==== Sys2Proof/Machine/VectorInt.lean ====
section
/-! DEFINITION. Vector integer instructions (07 R161, R162). -/

namespace Sys2Proof.Machine

/-- The exact result x at the instruction's type: its low bits, or clamped with `.sat` (R93, R161). -/
def fitInt (f : VF) (x : Int) : Nat := if f.sat then clampInt f.ty x else uint f.ty.bits x

/-- A slot that computes each element exactly from two integer sources. -/
def State.vint (s : State) (f : VF) (g : Int → Int → Int) : State :=
  s.elementwise 0 f 1 (fun i => fitInt f (g (tyInt f.ty (s.srcA f i)) (tyInt f.ty (s.srcB f i))))

/-- A slot that computes each element from the bits of two sources. -/
def State.vbits (s : State) (f : VF) (g : Nat → Nat → Nat) : State :=
  s.elementwise 0 f 1 (fun i => g (s.srcA f i) (s.srcB f i))

/-- The quotient, truncated toward zero; all ones for a divisor of 0 (R162). -/
def intQuot (a b : Int) : Int := if b = 0 then -1 else a.tdiv b

/-- The remainder with the sign of a; a for a divisor of 0 (R162). -/
def intRem (a b : Int) : Int := if b = 0 then a else a.tmod b

def execVaddInt (f : VF) (s : State) : Out := .next (s.vint f (· + ·))
def execVsubInt (f : VF) (s : State) : Out := .next (s.vint f (· - ·))
def execVmulInt (f : VF) (s : State) : Out := .next (s.vint f (· * ·))
def execVmulh (f : VF) (s : State) : Out := .next (s.vint f (fun a b => a * b / (2 ^ f.ty.bits : Nat)))
def execVminInt (f : VF) (s : State) : Out := .next (s.vint f min)
def execVmaxInt (f : VF) (s : State) : Out := .next (s.vint f max)
def execVdivInt (f : VF) (s : State) : Out := .next (s.vint f intQuot)
def execVrem (f : VF) (s : State) : Out := .next (s.vint f intRem)

def execVmacc (f : VF) (s : State) : Out :=
  .next (s.elementwise 0 f 1 (fun i =>
    fitInt f (tyInt f.ty (s.srcA f i) * tyInt f.ty (s.srcB f i) + tyInt f.ty (s.srcC f i))))

def execVand (f : VF) (s : State) : Out := .next (s.vbits f Nat.land)
def execVor (f : VF) (s : State) : Out := .next (s.vbits f Nat.lor)
def execVxor (f : VF) (s : State) : Out := .next (s.vbits f Nat.xor)
def execVsll (f : VF) (s : State) : Out :=
  .next (s.vbits f (fun a b => a * 2 ^ (b % f.ty.bits) % 2 ^ f.ty.bits))
def execVsrl (f : VF) (s : State) : Out := .next (s.vbits f (fun a b => a / 2 ^ (b % f.ty.bits)))
def execVsra (f : VF) (s : State) : Out :=
  .next (s.vbits f (fun a b => uint f.ty.bits (sint f.ty.bits a / (2 ^ (b % f.ty.bits) : Nat))))
def execVmv (f : VF) (s : State) : Out := .next (s.vbits f (fun a _ => a))

def execVcmp (r : VRel) (f : VF) (s : State) : Out :=
  .next (s.maskwise f (readBits f) (fun i => vrelHolds r (tyInt f.ty (s.srcA f i)) (tyInt f.ty (s.srcB f i))))

end Sys2Proof.Machine
end

