-- ==== Sys2Proof/Machine/Micro.lean ====
section
/-! DEFINITION. Micro-operations: each acts on the routine that the thread runs, with the operands that `RtnState.cur` holds
(15 R355–R358, R360–R361). -/

namespace Sys2Proof.Machine

/-! ## Operands (R356) -/

def State.uget (s : State) (r : RtnState) (x : UOpd) : Word :=
  match x with
  | .h i => rd r.h i
  | .xd => s.getS r.d
  | .xa => s.getS r.a
  | .xb => s.getS r.b
  | .ximm => r.imm.setWidth 64
  | .zero => 0
  | .lc => r.lc

def State.withRtn (s : State) (r : RtnState) : State := { s with th := { s.th with rtn := some r } }

/-- The routine goes on at the next micro-operation. -/
def State.unext (s : State) (r : RtnState) : State := s.withRtn { r with upc := r.upc + 1 }

/-- An operand written, and the routine goes on. -/
def State.uput (s : State) (r : RtnState) (x : UOpd) (v : Word) : State :=
  match x with
  | .h i => s.unext { r with h := wr r.h i v }
  | .lc => s.unext { r with lc := v }
  | .xd => (s.setS r.d v).unext r
  | .xa => (s.setS r.a v).unext r
  | .xb => (s.setS r.b v).unext r
  | .ximm | .zero => s.unext r

/-- A micro-operation acts in a routine; none is run outside one. -/
def State.micro (s : State) (f : RtnState → State) : Out :=
  .next (match s.th.rtn with | some r => f r | none => s.fault Cause.illegal)

/-- d from a and b. -/
def State.ubin (s : State) (g : Word → Word → Word) : Out :=
  s.micro (fun r => s.uput r r.cur.d (g (s.uget r r.cur.a) (s.uget r r.cur.b)))

/-! ## Moves (R357) -/

def execUmov (s : State) : Out := s.micro (fun r => s.uput r r.cur.d (s.uget r r.cur.a))
def execUmovi (s : State) : Out := s.micro (fun r => s.uput r r.cur.d (sext r.cur.imm))
def execUhi (s : State) : Out :=
  s.micro (fun r => s.uput r r.cur.d ((s.uget r r.cur.a <<< 11) ||| r.cur.imm.setWidth 64))
def execUrds (s : State) : Out := s.micro (fun r => s.uput r r.cur.d (s.getS r.cur.r))
def execUwrs (s : State) : Out := s.micro (fun r => (s.setS r.cur.r (s.uget r r.cur.a)).unext r)

def execUrdo (s : State) : Out :=
  s.micro (fun r =>
    let l := (s.uget r r.cur.b).toNat
    if s.nLanes ≤ l then s.fault Cause.resop else s.uput r r.cur.d (wd (getB (rd s.th.vec.o r.cur.e) (8 * l) 8)))

def execUwro (s : State) : Out :=
  s.micro (fun r =>
    let l := (s.uget r r.cur.b).toNat
    if s.nLanes ≤ l then s.fault Cause.resop
    else (s.setO r.cur.e (putB (rd s.th.vec.o r.cur.e) (8 * l) 8 (s.uget r r.cur.a).toNat)).unext r)

/-! ## Integer arithmetic -/

def execUadd (s : State) : Out := s.ubin (· + ·)
def execUsub (s : State) : Out := s.ubin (· - ·)
def execUmul (s : State) : Out := s.ubin (· * ·)
def execUand (s : State) : Out := s.ubin (· &&& ·)
def execUor (s : State) : Out := s.ubin (· ||| ·)
def execUxor (s : State) : Out := s.ubin (· ^^^ ·)
def execUsll (s : State) : Out := s.ubin (fun a b => a <<< count6 b)
def execUsrl (s : State) : Out := s.ubin (fun a b => a >>> count6 b)
def execUsra (s : State) : Out := s.ubin (fun a b => a.sshiftRight (count6 b))
def execUslt (s : State) : Out := s.ubin (fun a b => if a.slt b then 1 else 0)
def execUsltn (s : State) : Out := s.ubin (fun a b => if a.ult b then 1 else 0)
def execUmin (s : State) : Out := s.ubin (fun a b => if a.slt b then a else b)
def execUmax (s : State) : Out := s.ubin (fun a b => if a.slt b then b else a)
def execUaddi (s : State) : Out := s.micro (fun r => s.uput r r.cur.d (s.uget r r.cur.a + sext r.cur.imm))

/-! ## Floating point: `.f32` under the rounding mode read at invocation -/

def low32 (x : Word) : Nat := x.toNat % 2 ^ 32

/-- A rounded result: flags raised, the thread's generator stepped when a value was drawn. -/
def State.uround (s : State) (r : RtnState) (x : Rounded) (v : Word) : State :=
  ((s.genStepped x.drew).raise x.fx).uput r r.cur.d v

def State.uflt (s : State) (op : FOp) : Out :=
  s.micro (fun r =>
    let x := op.eval (fmtOf .f32) r.rm s.draw (low32 (s.uget r r.cur.a)) (low32 (s.uget r r.cur.b))
    s.uround r x (wd x.code))

def execUfadd (s : State) : Out := s.uflt .add
def execUfsub (s : State) : Out := s.uflt .sub
def execUfmul (s : State) : Out := s.uflt .mul
def execUfma (s : State) : Out :=
  s.micro (fun r =>
    let x := fusedEval (fmtOf .f32) r.rm false false s.draw (low32 (s.uget r r.cur.a)) (low32 (s.uget r r.cur.b))
      (low32 (s.uget r r.cur.d))
    s.uround r x (wd x.code))

def State.ufmm (s : State) (mx : Bool) : Out :=
  s.micro (fun r =>
    let x := fminmax (fmtOf .f32) mx (low32 (s.uget r r.cur.a)) (low32 (s.uget r r.cur.b))
    s.uround r { code := x.1, fx := x.2, drew := false } (wd x.1))

def execUfmin (s : State) : Out := s.ufmm false
def execUfmax (s : State) : Out := s.ufmm true
def execUfcvti (s : State) : Out :=
  s.micro (fun r =>
    let x := convert .i32 .f32 r.rm r.cur.sat s.draw (low32 (s.uget r r.cur.a))
    s.uround r x (extend true 4 x.code))
def execUicvtf (s : State) : Out :=
  s.micro (fun r =>
    let x := convert .f32 .i64 r.rm false s.draw (s.uget r r.cur.a).toNat
    s.uround r x (wd x.code))

/-! ## Memory -/

def State.uea (s : State) (r : RtnState) : Nat := (s.uget r r.cur.a + sext r.cur.off).toNat

def execUld (s : State) : Out :=
  s.micro (fun r =>
    let (s1, x) := s.load .plain (s.uea r) (ldBytes r.cur.ldt)
    match x with
    | .error t => s1.fault t
    | .ok v => s1.uput r r.cur.d (extend (ldSigned r.cur.ldt) (ldBytes r.cur.ldt) v))

def execUst (s : State) : Out :=
  s.micro (fun r =>
    let n := stBytes r.cur.stw
    let (s1, x) := s.store1 (s.uea r) n ((s.uget r r.cur.b).toNat % 256 ^ n)
    match x with
    | .error t => s1.fault t
    | .ok () => s1.unext r)

/-! ## Branches and the end -/

/-- A branch to the target where the condition holds. -/
def State.ujump (s : State) (r : RtnState) (taken : Bool) : State :=
  if taken then s.withRtn { r with upc := r.cur.tgt.val } else s.unext r

def execUbeq (s : State) : Out := s.micro (fun r => s.ujump r (s.uget r r.cur.a == s.uget r r.cur.b))
def execUbne (s : State) : Out := s.micro (fun r => s.ujump r (s.uget r r.cur.a != s.uget r r.cur.b))
def execUblt (s : State) : Out := s.micro (fun r => s.ujump r ((s.uget r r.cur.a).slt (s.uget r r.cur.b)))
def execUj (s : State) : Out := s.micro (fun r => s.ujump r true)
def execUloop (s : State) : Out :=
  s.micro (fun r => let q := { r with lc := r.lc - 1 }; s.ujump q (q.lc != 0))
def execUend (s : State) : Out :=
  s.micro (fun _ => ({ s with th := { s.th with rtn := none } } : State).advance 4)

/-! ## Vector element groups (R358) -/

/-- Elements of a group at a width in bits. -/
def State.groupSize (s : State) (bits : Nat) : Nat := 64 * s.nLanes / bits

/-- A vector micro-operation on group J of its registers: it waits for the matrix queue, and raises RESOP where the group passes
VLMAX. -/
def State.ugroup (s : State) (f : RtnState → List Nat → State) : Out :=
  s.micro (fun r =>
    if s.matBusy then s
    else
      let bits := r.cur.v.ty.bits
      let j := (rd r.h r.cur.v.j).toNat
      let g := s.groupSize bits
      if s.vlmax bits < (j + 1) * g then s.fault Cause.resop else f r ((List.range g).map (fun i => j * g + i)))

def State.uelem (s : State) (r : RtnState) (x : VReg) (i : Nat) : Nat := s.elem .a (.v x false) r.cur.v.ty.bits i

/-- Elements computed without rounding: one group keeps every lane busy for a cycle (R133). -/
def State.uvmap (s : State) (r : RtnState) (is_ : List Nat) (g : Nat → Nat × BitVec 5) : State :=
  (((s.raise (is_.foldl (fun fx i => fx ||| (g i).2) 0)).writeV r.cur.v.vd r.cur.v.ty.bits
    (is_.map (fun i => (i, (g i).1)))).busy s.nLanes).unext r

/-- Elements rounded, each with the draw of its lane. -/
def State.uvround (s : State) (r : RtnState) (is_ : List Nat) (g : Nat → Nat → Rounded) : State :=
  let (s1, es, fx) := s.roundEach g is_
  (((s1.raise fx).writeV r.cur.v.vd r.cur.v.ty.bits es).busy s.nLanes).unext r

/-- An operation with an exact integer form and a floating form. -/
def State.uvarith (s : State) (gi : Int → Int → Int) (op : FOp) : Out :=
  s.ugroup (fun r is_ =>
    let ty := r.cur.v.ty
    let a := fun i => s.uelem r r.cur.v.va i
    let b := fun i => s.uelem r r.cur.v.vb i
    if ty.isInt then s.uvmap r is_ (fun i => (uint ty.bits (gi (tyInt ty (a i)) (tyInt ty (b i))), 0))
    else s.uvround r is_ (fun i rnd => op.eval (fmtOf ty) r.rm rnd (a i) (b i)))

def execUvadd (s : State) : Out := s.uvarith (· + ·) .add
def execUvsub (s : State) : Out := s.uvarith (· - ·) .sub
def execUvmul (s : State) : Out := s.uvarith (· * ·) .mul

def State.uvmm (s : State) (mx : Bool) : Out :=
  s.ugroup (fun r is_ =>
    let ty := r.cur.v.ty
    let a := fun i => s.uelem r r.cur.v.va i
    let b := fun i => s.uelem r r.cur.v.vb i
    s.uvmap r is_ (fun i =>
      if ty.isInt then
        let x := tyInt ty (a i)
        let y := tyInt ty (b i)
        (uint ty.bits (if mx then max x y else min x y), 0)
      else fminmax (fmtOf ty) mx (a i) (b i)))

def execUvmin (s : State) : Out := s.uvmm false
def execUvmax (s : State) : Out := s.uvmm true

def State.uvbit (s : State) (g : Nat → Nat → Nat) : Out :=
  s.ugroup (fun r is_ => s.uvmap r is_ (fun i => (g (s.uelem r r.cur.v.va i) (s.uelem r r.cur.v.vb i), 0)))

def execUvand (s : State) : Out := s.uvbit Nat.land
def execUvor (s : State) : Out := s.uvbit Nat.lor
def execUvxor (s : State) : Out := s.uvbit Nat.xor

def execUvfma (s : State) : Out :=
  s.ugroup (fun r is_ =>
    let ty := r.cur.v.ty
    let a := fun i => s.uelem r r.cur.v.va i
    let b := fun i => s.uelem r r.cur.v.vb i
    let c := fun i => s.uelem r r.cur.v.vd i
    if ty.isInt then s.uvmap r is_ (fun i => (uint ty.bits (tyInt ty (a i) * tyInt ty (b i) + tyInt ty (c i)), 0))
    else s.uvround r is_ (fun i rnd => fusedEval (fmtOf ty) r.rm false false rnd (a i) (b i) (c i)))

end Sys2Proof.Machine
end

