-- ==== Sys2Proof/Machine/VectorFloat.lean ====
section
/-! DEFINITION. Vector floating instructions and conversions (07 R159, R163–R165; 05 R111, R112, R117, R118). -/

namespace Sys2Proof.Machine

/-- Element groups an ACLK cycle of the FMA unit (R156). -/
def fmaRate (ty : ETy) : Nat := if ty = .f64 then 2 else 4

/-- A two-source operation of the FMA unit. -/
def State.vflt (s : State) (op : FOp) (f : VF) : State :=
  s.rounded 1 f (fmaRate f.ty) (fun i rnd => op.eval (fmtOf f.ty) (s.mode f.rm) rnd (s.srcA f i) (s.srcB f i))

/-- A fused operation. -/
def State.vfused (s : State) (negMul negC : Bool) (f : VF) : State :=
  s.rounded 1 f (fmaRate f.ty) (fun i rnd =>
    fusedEval (fmtOf f.ty) (s.mode f.rm) negMul negC rnd (s.srcA f i) (s.srcB f i) (s.srcC f i))

def execVaddFloat (f : VF) (s : State) : Out := .next (s.vflt .add f)
def execVsubFloat (f : VF) (s : State) : Out := .next (s.vflt .sub f)
def execVmulFloat (f : VF) (s : State) : Out := .next (s.vflt .mul f)
def execVdivFloat (f : VF) (s : State) : Out := .next (s.vflt .div f)
def execVsqrt (f : VF) (s : State) : Out := .next (s.vflt .sqrt f)
def execVfma (f : VF) (s : State) : Out := .next (s.vfused false false f)
def execVfms (f : VF) (s : State) : Out := .next (s.vfused false true f)
def execVfnma (f : VF) (s : State) : Out := .next (s.vfused true false f)

/-! ## Without rounding (R164) -/

def execVminFloat (f : VF) (s : State) : Out :=
  .next (s.flagged f (fun i => fminmax (fmtOf f.ty) false (s.srcA f i) (s.srcB f i)))
def execVmaxFloat (f : VF) (s : State) : Out :=
  .next (s.flagged f (fun i => fminmax (fmtOf f.ty) true (s.srcA f i) (s.srcB f i)))

def execVfcmp (r : FRel) (f : VF) (s : State) : Out :=
  let g := fun i => fcompare (fmtOf f.ty) r (s.srcA f i) (s.srcB f i)
  .next (
    if s.tooLong (readBits f).toList then s.slotResop
    else (s.raise ((s.actives f).foldl (fun fx i => fx ||| (g i).2) 0)).maskwise f (readBits f) (fun i => (g i).1))

def execVfclass (f : VF) (s : State) : Out := .next (s.elementwise 0 f 1 (fun i => fclassify (fmtOf f.ty) (s.srcA f i)))

/-- A sign instruction: the sign of the result from the signs of a and b. -/
def State.vsign (s : State) (f : VF) (g : Bool → Bool → Bool) : State :=
  s.elementwise 0 f 1 (fun i => signEval (fmtOf f.ty) g (s.srcA f i) (s.srcB f i))

def execVsgnj (f : VF) (s : State) : Out := .next (s.vsign f (fun _ b => b))
def execVsgnn (f : VF) (s : State) : Out := .next (s.vsign f (fun _ b => !b))
def execVsgnx (f : VF) (s : State) : Out := .next (s.vsign f (fun a b => a != b))

/-! ## Conversion (R165) -/

/-- The scale byte of block j of a tagged source. -/
def State.scaleOf (s : State) (x : VSrc) (j : Nat) : Nat :=
  match x with
  | .v r _ => getB (s.vreg r).side j 1
  | .o _ | .lat _ | .s _ => 0

/-- The value of element i of a conversion's source. -/
def State.cvtVal (s : State) (f : VF) (src : ETy) (i : Nat) : Val :=
  let c := s.elem .a f.a src.bits i
  if src = .mxf4 then mxf4Val c (s.scaleOf f.a (i / 32)) else tyVal src c

/-- The conversion of element i into a type other than `.mxf4`. -/
def State.cvtElem (s : State) (f : VF) (src : ETy) (i rnd : Nat) : Rounded :=
  if src = .mxf4 then roundTo f.ty (s.mode f.rm) f.sat rnd (s.cvtVal f src i)
  else convert f.ty src (s.mode f.rm) f.sat rnd (s.elem .a f.a src.bits i)

/-- The source values of block j. -/
def State.cvtBlock (s : State) (f : VF) (src : ETy) (j : Nat) : List Val :=
  (List.range 32).map (fun i => s.cvtVal f src (32 * j + i))

/-- The conversion into `.mxf4`: elements, then the scale bytes of the active blocks (R112, R117). -/
def State.cvtMx (s : State) (f : VF) (src : ETy) : State :=
  let (s1, es, fx) := s.roundEach
    (fun i rnd => mxf4Elem (s.cvtBlock f src (i / 32)) (s.mode f.rm) rnd (s.cvtVal f src i)) (s.actives f)
  let blocks := (List.range (s.vl / 32)).filter (fun j => s.active f.msk (32 * j))
  (((((s1.raise fx).writeMx f.d es (blocks.map (fun j => (j, mxf4Scale (s.cvtBlock f src j)))))).latchV 0 f.d 4).busy
    (s.laneCycles 4 1)).slotDone

def execVcvt (f : VF) (s : State) : Out :=
  .next (
    match vcvtSrc f with
    | none => s.slotFault Cause.illegal
    | some src =>
      if s.tooLong ([f.ty.bits] ++ (if f.a.isMain then [src.bits] else [])) ||
          ((f.ty == .mxf4 || src == .mxf4) && s.mxBroken f) || (src == .mxf4 && !s.taggedSrc f.a) then s.slotResop
      else if f.ty = .mxf4 then s.cvtMx f src
      else
        let (s1, es, fx) := s.roundEach (s.cvtElem f src) (s.actives f)
        (s1.raise fx).finishV 0 f f.ty.bits 1 es)

end Sys2Proof.Machine
end

