-- ==== Sys2Proof/Machine/VectorMask.lean ====
section
/-! DEFINITION. Mask instructions (07 R166). -/

namespace Sys2Proof.Machine

/-- A two-source mask instruction. -/
def State.vmask2 (s : State) (f : VF) (g : Bool → Bool → Bool) : State :=
  s.maskwise f none (fun i => g (bit (s.maskOf f.a) i) (bit (s.maskOf f.b) i))

def execVmand (f : VF) (s : State) : Out := .next (s.vmask2 f (fun a b => a && b))
def execVmor (f : VF) (s : State) : Out := .next (s.vmask2 f (fun a b => a || b))
def execVmxor (f : VF) (s : State) : Out := .next (s.vmask2 f (fun a b => a != b))
def execVmnot (f : VF) (s : State) : Out := .next (s.maskwise f none (fun i => !bit (s.maskOf f.a) i))

/-- Bit i mod 64 of the scalar source, a VP's own copy in a fetched block (R180). -/
def execVmk (f : VF) (s : State) : Out :=
  .next (s.maskwise f none (fun i =>
    match f.a with
    | .s r => (s.scalar .a r i).getLsbD (i % 64)
    | .v _ _ | .o _ | .lat _ => false))

/-- The active elements whose bit of mask a is set. -/
def State.marked (s : State) (f : VF) : List Nat := (s.actives f).filter (bit (s.maskOf f.a))

/-- A slot whose result is a scalar. -/
def State.maskScalar (s : State) (f : VF) (v : Word) : State :=
  ((s.setS (Fin.ofNat 32 f.d.val) v).busy (s.laneCycles 8 1)).slotDone

def execVmpop (f : VF) (s : State) : Out := .next (s.slotNotVp (s.maskScalar f (wd (s.marked f).length)))
def execVmfirst (f : VF) (s : State) : Out :=
  .next (s.slotNotVp (s.maskScalar f (match s.marked f with | i :: _ => wd i | [] => BitVec.allOnes 64)))

def execVmerge (f : VF) (s : State) : Out :=
  .next (s.elementwise 0 f 1 (fun i => if bit (s.maskOf f.c) i then s.srcA f i else s.srcB f i))

def execViota (f : VF) (s : State) : Out :=
  let marks := s.marked f
  .next (s.slotNotVp (s.elementwise 0 f 1 (fun i => (marks.filter (fun j => decide (j < i))).length % 2 ^ f.ty.bits)))

def execVid (f : VF) (s : State) : Out := .next (s.elementwise 0 f 1 (fun i => i % 2 ^ f.ty.bits))

end Sys2Proof.Machine
end

