-- ==== Sys2Proof/Machine/VectorPerm.lean ====
section
/-! DEFINITION. Permutes and slides, and what they do with block-scaled registers (07 R167, R168; 05 R117–R119). -/

namespace Sys2Proof.Machine

/-- The scalar source b: an offset, an element number or a group number. -/
def State.offset (s : State) (f : VF) : Nat :=
  match f.b with
  | .s r => (s.scalar .b r 0).toNat
  | .v _ _ | .o _ | .lat _ => 0

/-- Scale bytes that no one has written (R117, log 3). -/
def State.freeSide (s : State) : State × Blob :=
  ({ s with free := s.free + 1 }, Config.freeBlob s.free % 256 ^ (s.vlen / 16))

/-- The scale bytes of a source: its register's while that is tagged. -/
def State.sideOf (s : State) (x : VSrc) : State × Blob :=
  match x with
  | .v r _ => s.sidecar r
  | .o _ | .lat _ | .s _ => s.freeSide

/-- Every block of 16 bytes below VL is wholly active or wholly inactive. -/
def State.blocksWhole (s : State) (f : VF) : Bool :=
  let g := 128 / f.ty.bits
  s.vl % g == 0 &&
    (List.range (s.vl / g)).all (fun j => (List.range g).all (fun i => s.active f.msk (g * j + i) == s.active f.msk (g * j)))

/-- A slide with whole blocks: the destination gets its tag, the elements, and the scale byte `side j` gives for each
active block j (R168). With no active element the destination keeps its tag and its sidecar: R168 sets the tag, R157 has nothing change, and
the model follows R157 (log 25). -/
def State.slideBlocks (s : State) (f : VF) (base : Blob) (es sides : List (Nat × Nat)) : State :=
  let x := s.vreg f.d
  let s1 :=
    if (s.actives f).isEmpty then s
    else s.setV f.d { data := putElems x.data f.ty.bits es, tag := true, side := putElems base 8 sides,
                      vb := max x.vb (roundUp (topByte f.ty.bits es) 64), dirty := true }
  (((s1.latchV 4 f.d f.ty.bits).busy (s.laneCycles f.ty.bits 1))).slotDone

/-- The numbers of the active blocks of 16 bytes. -/
def State.activeBlocks (s : State) (f : VF) : List Nat :=
  let g := 128 / f.ty.bits
  (List.range (s.vl / g)).filter (fun j => s.active f.msk (g * j))

/-- `n` scale bytes of 1 (code 0x7F). -/
def ones7F : Nat → Blob
  | 0 => 0
  | n + 1 => 0x7F + 256 * ones7F n

/-- A slide of any type: elements by `es`; with a block-scaled source, blocks by `from_`, which gives the source block of a
destination block, or none for a block of zeros. -/
def State.slide (s : State) (f : VF) (up : Bool) (es : List (Nat × Nat)) (keepBlk : Nat → Bool) (from_ : Nat → Option Nat) :
    State :=
  if s.tooLong [f.ty.bits] then s.slotResop
  else if s.taggedSrc f.a || f.ty == .mxf4 then
    if s.offset f * f.ty.bits % 128 ≠ 0 || !s.blocksWhole f then s.slotResop
    else
      let (s1, src) := s.sideOf f.a
      let d := s1.vreg f.d
      let (s2, base) :=
        if d.tag then (s1, d.side) else if up then (s1, ones7F (s.vlen / 16)) else s1.freeSide
      let sides := ((s.activeBlocks f).filter keepBlk).map (fun j =>
        (j, match from_ j with | some i => getB src i 1 | none => 0))
      s2.slideBlocks f base es sides
  else s.finishV 4 f f.ty.bits 1 es

def execVslideup (f : VF) (s : State) : Out :=
  let o := s.offset f
  let ob := o * f.ty.bits / 128
  .next (s.slotNotVp (
    s.slide f true (((s.actives f).filter (fun i => decide (o ≤ i))).map (fun i => (i, s.srcA f (i - o))))
      (fun j => decide (ob ≤ j)) (fun j => some (j - ob))))

def execVslidedn (f : VF) (s : State) : Out :=
  let o := s.offset f
  let ob := o * f.ty.bits / 128
  .next (s.slotNotVp (
    s.slide f false ((s.actives f).map (fun i => (i, if i + o < s.vl then s.srcA f (i + o) else 0)))
      (fun _ => true) (fun j => if j + ob < s.vl * f.ty.bits / 128 then some (j + ob) else none)))

/-- A permute other than a slide: RESOP with a tagged source; `.mxf4` elements go under scale bytes that nothing defines
(R117, R168). -/
def State.permute (s : State) (f : VF) (es : List (Nat × Nat)) : State :=
  if s.tooLong [f.ty.bits] || s.taggedSrc f.a then s.slotResop
  else if f.ty = .mxf4 then
    if s.mxBroken f then s.slotResop
    else
      let (s1, side) := s.freeSide
      let blocks := (es.filter (fun e => e.1 % 32 == 0)).map (fun e => (e.1 / 32, getB side (e.1 / 32) 1))
      (((s1.writeMx f.d es blocks).latchV 4 f.d 4).busy (s.laneCycles 4 1)).slotDone
  else s.finishV 4 f f.ty.bits 1 es

def execVperm (f : VF) (s : State) : Out :=
  .next (s.slotNotVp (
    if s.taggedSrc f.b then s.slotResop
    else s.permute f ((s.actives f).map (fun i => (i, if s.srcB f i < s.vl then s.srcA f (s.srcB f i) else 0)))))

def execVcompress (f : VF) (s : State) : Out :=
  .next (s.slotNotVp (s.permute f ((s.actives f).mapIdx (fun k i => (k, s.srcA f i)))))

def execVbcast (f : VF) (s : State) : Out :=
  let o := s.offset f
  let v := if o < s.vl then s.srcA f o else 0
  .next (s.slotNotVp (s.permute f ((s.actives f).map (fun i => (i, v)))))

/-- `vtoo`: one element group of v[a] into an operand-file entry. -/
def execVtoo (f : VF) (s : State) : Out :=
  .next (s.slotNotVp (
    match f.a with
    | .v r _ =>
      if (s.vreg r).tag || decide (s.vlen ≤ 8 * s.nLanes * s.offset f) then s.slotResop
      else ((s.setO (Fin.ofNat 8 f.d.val) (s.group r (s.offset f))).busy s.nLanes).slotDone
    | .o _ | .lat _ | .s _ => s.slotResop))

end Sys2Proof.Machine
end

