-- ==== Sys2Proof/Machine/VectorReduce.lean ====
section
/-! DEFINITION. Reductions (07 R169, R170). -/

namespace Sys2Proof.Machine

/-- The initial value x0: element 0 of b at any level. -/
def State.initial (s : State) (f : VF) : Nat := s.srcB f 0

/-- The result of a reduction into element 0 of v[d], which the slot writes whatever VL and the mask are. -/
def State.reduced (s : State) (f : VF) (x : Nat) : State :=
  if s.tooLong [f.ty.bits] then s.slotResop else s.finishV 5 f f.ty.bits 1 [(0, x)]

/-- A reduction that gives the same bits in every order. -/
def State.reduce (s : State) (f : VF) (g : Nat → Nat → Nat) : State :=
  s.slotNotVp (s.reduced f ((s.actives f).foldl (fun x i => g x (s.srcA f i)) (s.initial f)))

/-- The least or the greatest with its flags, floating pairs as `fmin` and `fmax`. -/
def State.reduceMinMax (s : State) (f : VF) (mx : Bool) : State :=
  if f.ty.isInt then
    s.reduce f (fun x y =>
      if (decide (tyInt f.ty y < tyInt f.ty x)) != mx then y else x)
  else
    let r := (s.actives f).foldl (fun (x : Nat × BitVec 5) i =>
      let y := fminmax (fmtOf f.ty) mx x.1 (s.srcA f i)
      (y.1, x.2 ||| y.2)) (s.initial f, 0)
    s.slotNotVp (if s.tooLong [f.ty.bits] then s.slotResop else (s.raise r.2).reduced f r.1)

/-- The integer sum, exact, then wrapped or clamped once (R170). -/
def State.sumInt (s : State) (f : VF) : State :=
  let x := (s.actives f).foldl (fun x i => x + tyInt f.ty (s.srcA f i)) (tyInt f.ty (s.initial f))
  s.reduced f (if f.sat then clampInt f.ty x else uint f.ty.bits x)

/-- One addition of a sum, rounded with a lane's draw. -/
def State.addOne (s : State) (f : VF) (lane x y : Nat) : State × Nat × BitVec 5 :=
  let r := FOp.add.eval (fmtOf f.ty) (s.mode f.rm) (genDraw (s.laneGenOf lane)) x y
  (s.laneStep lane r.drew, r.code, r.fx)

/-- The ordered floating sum: elements in increasing order. -/
def State.sumOrdered (s : State) (f : VF) (acc : Nat) : List Nat → State × Nat × BitVec 5
  | [] => (s, acc, 0)
  | i :: is =>
    let (s1, x, fx) := s.addOne f ((s.lane0 + i) % s.nLanes) acc (s.srcA f i)
    let (s2, y, fy) := s1.sumOrdered f x is
    (s2, y, fx ||| fy)

/-- An element taken out of a list by a free choice. -/
def State.pickOut (s : State) (xs : List Nat) : State × Nat × List Nat :=
  let k := Config.freePick s.free % max xs.length 1
  ({ s with free := s.free + 1 }, (xs[k]?).getD 0, xs.eraseIdx k)

/-- The unordered floating sum: the device adds two partial sums of its choice, on a lane of its choice, until one is left
(R170; log 3). `n` bounds the number of additions. -/
def State.sumTree (s : State) (f : VF) : Nat → List Nat → State × Nat × BitVec 5
  | 0, xs => (s, xs.headD 0, 0)
  | n + 1, xs =>
    match xs with
    | [] => (s, 0, 0)
    | [x] => (s, x, 0)
    | _ =>
      let (s1, x, r1) := s.pickOut xs
      let (s2, y, r2) := s1.pickOut r1
      let lane := Config.freePick s2.free % s.nLanes
      let (s3, z, fx) := ({ s2 with free := s2.free + 1 } : State).addOne f lane x y
      let (s4, r, fy) := s3.sumTree f n (z :: r2)
      (s4, r, fx ||| fy)

/-- A floating `vredsum` (R169). Where no element takes part, x0's bits are the result as they stand, a NaN's too, and raise nothing (DESIGN
CHOICE, log 64). -/
def State.sumFloat (s : State) (f : VF) : State :=
  if s.tooLong [f.ty.bits] then s.slotResop
  else
    let (s1, x, fx) :=
      if f.ord then s.sumOrdered f (s.initial f) (s.actives f)
      else
        let xs := s.initial f :: (s.actives f).map (s.srcA f)
        s.sumTree f xs.length xs
    (s1.raise fx).reduced f x

def execVredsum (f : VF) (s : State) : Out :=
  .next (s.slotNotVp (if f.ty.isInt then s.sumInt f else s.sumFloat f))
def execVredmin (f : VF) (s : State) : Out := .next (s.reduceMinMax f false)
def execVredmax (f : VF) (s : State) : Out := .next (s.reduceMinMax f true)
def execVredand (f : VF) (s : State) : Out := .next (s.reduce f Nat.land)
def execVredor (f : VF) (s : State) : Out := .next (s.reduce f Nat.lor)
def execVredxor (f : VF) (s : State) : Out := .next (s.reduce f Nat.xor)

end Sys2Proof.Machine
end

