-- ==== Sys2Proof/Machine/Watch.lean ====
section
/-! DEFINITION. Watchpoints, TLB removal and `sysfence` (16 R385, R386, R391, R392). -/

namespace Sys2Proof.Machine

/-! ## Watchpoints (R385, R386) -/

def watchRead (w : Word) : Bool := bit w.toNat 0
def watchWrite (w : Word) : Bool := bit w.toNat 1
def watchLen (w : Word) : Nat := field w 2 3

/-- A control word with a reserved bit, or an address that its region's length does not divide. -/
def watchBad (a w : Word) : Bool := field w 5 59 != 0 || a.toNat % 2 ^ watchLen w != 0

def execWatchCore (i : Fin 2) (d a b : Reg) (s : State) : Out :=
  .next (s.notVp (s.atLevel 1 (
    let w := s.getS b
    let x := s.getS a
    if watchBad x w then s.resultLong d 2
    else
      let cw : CoreWatch := if w = 0 then .clear else { addr := x, rd := watchRead w, wr := watchWrite w, len := watchLen w }
      (s.withCore { s.core with watch := wr s.core.watch i cw }).resultLong d 0)))

/-- The linear address that a home watchpoint is set on, none where it has no home slice (log 13). -/
def State.watchPlace (s : State) (va : Nat) : State × Except Trap (Option Nat) :=
  if inSpw va then (s, .ok none)
  else
    let (s1, x) := s.locate va 1 .read
    match x with
    | .error t => (s1, .error t)
    | .ok (.spad _) => (s1, .ok none)
    | .ok (.mem pa _) => (s1, .ok (match s1.place pa with | .media lin => some lin | _ => none))

def State.homeWatchAt (s : State) (lin : Nat) (i : Fin 2) : Option HomeWatch :=
  s.store.homeW.find? (fun w => w.slice == homeSlice lin && w.idx == i.val)

def State.setHomeWatch (s : State) (lin : Nat) (i : Fin 2) (w : Option HomeWatch) : State :=
  { s with store := { s.store with
      homeW := w.toList ++ s.store.homeW.filter (fun x => !(x.slice == homeSlice lin && x.idx == i.val)) } }

/-- The home watchpoint belongs to another context than the one that runs. -/
def State.foreignWatch (s : State) (w : Option HomeWatch) : Bool :=
  match w with
  | some x => x.ctx != s.ctxNo
  | none => false

def execWatchHome (i : Fin 2) (d a b : Reg) (s : State) : Out :=
  .next (s.notVp (s.atLevel 1 (
    let w := s.getS b
    let x := s.getS a
    if watchBad x w then s.resultLong d 2
    else
      let (s1, p) := s.watchPlace x.toNat
      match p with
      | .error t => s1.fault t
      | .ok none => s1.resultLong d 2
      | .ok (some lin) =>
        if s1.foreignWatch (s1.homeWatchAt lin i) then s1.resultLong d 1
        else
          let hw : Option HomeWatch :=
            if w = 0 then none
            else some { slice := homeSlice lin, idx := i.val, lin, rd := watchRead w, wr := watchWrite w, len := watchLen w,
                        ctx := s1.ctxNo, core := s1.coreId, hits := 0 }
          (s1.setHomeWatch lin i hw).resultLong d 0)))

def execWatchCount (i : Fin 2) (d a b : Reg) (s : State) : Out :=
  .next (s.notVp (s.atLevel 1 (
    if s.getS b ≠ 0 then s.resultLong d (wd (2 ^ 63 + 2))
    else
      let (s1, p) := s.watchPlace (s.getS a).toNat
      match p with
      | .error t => s1.fault t
      | .ok none => s1.resultLong d (wd (2 ^ 63 + 2))
      | .ok (some lin) =>
        let x := s1.homeWatchAt lin i
        if s1.foreignWatch x then s1.resultLong d (wd (2 ^ 63 + 1))
        else
          match x with
          | none => s1.resultLong d 0
          | some hw => (s1.setHomeWatch lin i (some { hw with hits := 0 })).resultLong d (wd hw.hits))))

/-! ## TLB removal (R391) -/

/-- Every core changed. -/
def State.mapCores (s : State) (f : Core → Core) : State :=
  { s with core := f s.core, others := s.others.map (fun p => (p.1, f p.2)) }

/-- The entries that `gone` names leave every L1 and L2 TLB of the package. -/
def State.tlbRemove (s : State) (gone : TlbEntry → Bool) : State :=
  let s1 := s.mapCores (fun c => { c with tlb := c.tlb.filter (fun e => !gone e) })
  { s1 with store := { s1.store with l2tlb := s1.store.l2tlb.filter (fun p => !gone p.2) } }

/-- `tlbinv` waits until every access in flight that used a removed entry has been performed. -/
def State.tlbinv (s : State) (gone : TlbEntry → Bool) : State :=
  s.notVp (s.atLevel 1 (if s.usesEntry gone then s else (s.tlbRemove gone).advance 8))

def execTlbinvVa (a b : Reg) (s : State) : Out :=
  .next (s.tlbinv (fun e => e.covers (field (s.getS b) 0 16) (s.getS a).toNat))
def execTlbinvCtx (_a b : Reg) (s : State) : Out := .next (s.tlbinv (fun e => e.ctx == field (s.getS b) 0 16))
def execTlbinvAll (_a _b : Reg) (s : State) : Out := .next (s.tlbinv (fun _ => true))

/-! ## `sysfence` (R392) -/

/-- `sysfence` waits for the thread's earlier matrix instructions; the core then discards fetched parcels (R69) or TLB entries. -/
def execSysfence (imm : BitVec 2) (s : State) : Out :=
  .next (s.notVp (s.atLevel 1 (
    if s.matBusy then s
    else
      let c := if imm.getLsbD 0 then { s.core with ibuf := [] } else s.core
      (s.withCore (if imm.getLsbD 1 then { c with tlb := [] } else c)).advance 8)))

end Sys2Proof.Machine
end

