-- ==== Sys2Proof/Machine/Dispatch.lean ====
section
/-! DEFINITION. One arm for each constructor of `Instr`: a direct call of its meaning. -/

namespace Sys2Proof.Machine

/-- What the machine does with an instruction, or with a step outside an instruction stream. -/
def exec (i : Instr) (s : State) : Host.Outcome State Fault Refusal :=
  match i with
  | .add d a b => Sys2Proof.Machine.execAdd d a b s
  | .sub d a b => Sys2Proof.Machine.execSub d a b s
  | .and d a b => Sys2Proof.Machine.execAnd d a b s
  | .or d a b => Sys2Proof.Machine.execOr d a b s
  | .xor d a b => Sys2Proof.Machine.execXor d a b s
  | .sll d a b => Sys2Proof.Machine.execSll d a b s
  | .srl d a b => Sys2Proof.Machine.execSrl d a b s
  | .sra d a b => Sys2Proof.Machine.execSra d a b s
  | .slt d a b => Sys2Proof.Machine.execSlt d a b s
  | .sltn d a b => Sys2Proof.Machine.execSltn d a b s
  | .mul d a b => Sys2Proof.Machine.execMul d a b s
  | .mulh d a b => Sys2Proof.Machine.execMulh d a b s
  | .mulhn d a b => Sys2Proof.Machine.execMulhn d a b s
  | .div d a b => Sys2Proof.Machine.execDiv d a b s
  | .divn d a b => Sys2Proof.Machine.execDivn d a b s
  | .rem d a b => Sys2Proof.Machine.execRem d a b s
  | .remn d a b => Sys2Proof.Machine.execRemn d a b s
  | .clz d a => Sys2Proof.Machine.execClz d a s
  | .ctz d a => Sys2Proof.Machine.execCtz d a s
  | .popc d a => Sys2Proof.Machine.execPopc d a s
  | .rev d a => Sys2Proof.Machine.execRev d a s
  | .bext d a b => Sys2Proof.Machine.execBext d a b s
  | .bdep d a b => Sys2Proof.Machine.execBdep d a b s
  | .rotl d a b => Sys2Proof.Machine.execRotl d a b s
  | .rotr d a b => Sys2Proof.Machine.execRotr d a b s
  | .fadd f rm d a b => Sys2Proof.Machine.execFadd f rm d a b s
  | .fsub f rm d a b => Sys2Proof.Machine.execFsub f rm d a b s
  | .fmul f rm d a b => Sys2Proof.Machine.execFmul f rm d a b s
  | .fdiv f rm d a b => Sys2Proof.Machine.execFdiv f rm d a b s
  | .fsqrt f rm d a => Sys2Proof.Machine.execFsqrt f rm d a s
  | .fmin f d a b => Sys2Proof.Machine.execFmin f d a b s
  | .fmax f d a b => Sys2Proof.Machine.execFmax f d a b s
  | .fcmp r f d a b => Sys2Proof.Machine.execFcmp r f d a b s
  | .fclass f d a => Sys2Proof.Machine.execFclass f d a s
  | .fmvToOperand d a => Sys2Proof.Machine.execFmvToOperand d a s
  | .fmvFromOperand d a b => Sys2Proof.Machine.execFmvFromOperand d a b s
  | .fcvt dst src sat rm d a => Sys2Proof.Machine.execFcvt dst src sat rm d a s
  | .kand d a b => Sys2Proof.Machine.execKand d a b s
  | .kor d a b => Sys2Proof.Machine.execKor d a b s
  | .kxor d a b => Sys2Proof.Machine.execKxor d a b s
  | .knot d a => Sys2Proof.Machine.execKnot d a s
  | .kmovKK d a => Sys2Proof.Machine.execKmovKK d a s
  | .kmovSK d a => Sys2Proof.Machine.execKmovSK d a s
  | .kmovKS d a => Sys2Proof.Machine.execKmovKS d a s
  | .cmp c d a b => Sys2Proof.Machine.execCmp c d a b s
  | .amoAdd ty sr far d a b => Sys2Proof.Machine.execAmoAdd ty sr far d a b s
  | .amoMin ty far d a b => Sys2Proof.Machine.execAmoMin ty far d a b s
  | .amoMax ty far d a b => Sys2Proof.Machine.execAmoMax ty far d a b s
  | .amoAnd ty far d a b => Sys2Proof.Machine.execAmoAnd ty far d a b s
  | .amoOr ty far d a b => Sys2Proof.Machine.execAmoOr ty far d a b s
  | .amoXor ty far d a b => Sys2Proof.Machine.execAmoXor ty far d a b s
  | .amoSwap ty far d a b => Sys2Proof.Machine.execAmoSwap ty far d a b s
  | .cas ty far d a b => Sys2Proof.Machine.execCas ty far d a b s
  | .qpush e16 nb k a b => Sys2Proof.Machine.execQpush e16 nb k a b s
  | .qpop e16 nb d a k => Sys2Proof.Machine.execQpop e16 nb d a k s
  | .qsteal e16 nb d a k => Sys2Proof.Machine.execQsteal e16 nb d a k s
  | .qcount d a => Sys2Proof.Machine.execQcount d a s
  | .qpoll d a k => Sys2Proof.Machine.execQpoll d a k s
  | .qinit d a b => Sys2Proof.Machine.execQinit d a b s
  | .tpost d a => Sys2Proof.Machine.execTpost d a s
  | .tdone => Sys2Proof.Machine.execTdone s
  | .tspawn d a b => Sys2Proof.Machine.execTspawn d a b s
  | .tgrp d a => Sys2Proof.Machine.execTgrp d a s
  | .tyield => Sys2Proof.Machine.execTyield s
  | .cntarm d a b => Sys2Proof.Machine.execCntarm d a b s
  | .cpy d a b => Sys2Proof.Machine.execCpy d a b s
  | .gath d a b => Sys2Proof.Machine.execGath d a b s
  | .coll d a b => Sys2Proof.Machine.execColl d a b s
  | .carve d a => Sys2Proof.Machine.execCarve d a s
  | .carveq n d => Sys2Proof.Machine.execCarveq n d s
  | .tbar => Sys2Proof.Machine.execTbar s
  | .szero a b => Sys2Proof.Machine.execSzero a b s
  | .vstrip sz d a k => Sys2Proof.Machine.execVstrip sz d a k s
  | .vfetch msk a => Sys2Proof.Machine.execVfetch msk a s
  | .vpjoin => Sys2Proof.Machine.execVpjoin s
  | .fence sc => Sys2Proof.Machine.execFence sc s
  | .fenceAcq sc => Sys2Proof.Machine.execFenceAcq sc s
  | .fenceRel sc => Sys2Proof.Machine.execFenceRel sc s
  | .addi d a imm => Sys2Proof.Machine.execAddi d a imm s
  | .andi d a imm => Sys2Proof.Machine.execAndi d a imm s
  | .ori d a imm => Sys2Proof.Machine.execOri d a imm s
  | .xori d a imm => Sys2Proof.Machine.execXori d a imm s
  | .slli d a sh => Sys2Proof.Machine.execSlli d a sh s
  | .srli d a sh => Sys2Proof.Machine.execSrli d a sh s
  | .srai d a sh => Sys2Proof.Machine.execSrai d a sh s
  | .cmpi c d a imm => Sys2Proof.Machine.execCmpi c d a imm s
  | .ld ty d a imm => Sys2Proof.Machine.execLd ty d a imm s
  | .ldHome ty d a imm => Sys2Proof.Machine.execLdHome ty d a imm s
  | .ldLast ty d a imm => Sys2Proof.Machine.execLdLast ty d a imm s
  | .sysrd d r => Sys2Proof.Machine.execSysrd d r s
  | .syswr a r => Sys2Proof.Machine.execSyswr a r s
  | .sysset d a r => Sys2Proof.Machine.execSysset d a r s
  | .sysclr d a r => Sys2Proof.Machine.execSysclr d a r s
  | .prefL1 a imm => Sys2Proof.Machine.execPrefL1 a imm s
  | .prefL2 a imm => Sys2Proof.Machine.execPrefL2 a imm s
  | .wake a imm => Sys2Proof.Machine.execWake a imm s
  | .wakeAll a imm => Sys2Proof.Machine.execWakeAll a imm s
  | .flush a imm => Sys2Proof.Machine.execFlush a imm s
  | .flushMem a imm => Sys2Proof.Machine.execFlushMem a imm s
  | .inval a imm => Sys2Proof.Machine.execInval a imm s
  | .drop a imm => Sys2Proof.Machine.execDrop a imm s
  | .pset d a sz => Sys2Proof.Machine.execPset d a sz s
  | .padv d a imm => Sys2Proof.Machine.execPadv d a imm s
  | .ssld ty d a imm => Sys2Proof.Machine.execSsld ty d a imm s
  | .nop a f3 d => Sys2Proof.Machine.execNop a f3 d s
  | .pause a f3 d => Sys2Proof.Machine.execPause a f3 d s
  | .spin a f3 d => Sys2Proof.Machine.execSpin a f3 d s
  | .st wd a b off => Sys2Proof.Machine.execSt wd a b off s
  | .brAny k n off => Sys2Proof.Machine.execBrAny k n off s
  | .brAll k n off => Sys2Proof.Machine.execBrAll k n off s
  | .br off => Sys2Proof.Machine.execBr off s
  | .jal d imm => Sys2Proof.Machine.execJal d imm s
  | .jalr d a imm => Sys2Proof.Machine.execJalr d a imm s
  | .lui d imm => Sys2Proof.Machine.execLui d imm s
  | .auipc d imm => Sys2Proof.Machine.execAuipc d imm s
  | .loop off => Sys2Proof.Machine.execLoop off s
  | .ssst wd a b off => Sys2Proof.Machine.execSsst wd a b off s
  | .rtn slot d a b imm => Sys2Proof.Machine.execRtn slot d a b imm s
  | .convoyIssue units slots => Sys2Proof.Machine.execConvoyIssue units slots s
  | .vaddInt f => Sys2Proof.Machine.execVaddInt f s
  | .vsubInt f => Sys2Proof.Machine.execVsubInt f s
  | .vmulInt f => Sys2Proof.Machine.execVmulInt f s
  | .vmulh f => Sys2Proof.Machine.execVmulh f s
  | .vminInt f => Sys2Proof.Machine.execVminInt f s
  | .vmaxInt f => Sys2Proof.Machine.execVmaxInt f s
  | .vmacc f => Sys2Proof.Machine.execVmacc f s
  | .vdivInt f => Sys2Proof.Machine.execVdivInt f s
  | .vrem f => Sys2Proof.Machine.execVrem f s
  | .vand f => Sys2Proof.Machine.execVand f s
  | .vor f => Sys2Proof.Machine.execVor f s
  | .vxor f => Sys2Proof.Machine.execVxor f s
  | .vsll f => Sys2Proof.Machine.execVsll f s
  | .vsrl f => Sys2Proof.Machine.execVsrl f s
  | .vsra f => Sys2Proof.Machine.execVsra f s
  | .vmv f => Sys2Proof.Machine.execVmv f s
  | .vcmp r f => Sys2Proof.Machine.execVcmp r f s
  | .vaddFloat f => Sys2Proof.Machine.execVaddFloat f s
  | .vsubFloat f => Sys2Proof.Machine.execVsubFloat f s
  | .vmulFloat f => Sys2Proof.Machine.execVmulFloat f s
  | .vdivFloat f => Sys2Proof.Machine.execVdivFloat f s
  | .vfma f => Sys2Proof.Machine.execVfma f s
  | .vfms f => Sys2Proof.Machine.execVfms f s
  | .vfnma f => Sys2Proof.Machine.execVfnma f s
  | .vsqrt f => Sys2Proof.Machine.execVsqrt f s
  | .vminFloat f => Sys2Proof.Machine.execVminFloat f s
  | .vmaxFloat f => Sys2Proof.Machine.execVmaxFloat f s
  | .vfcmp r f => Sys2Proof.Machine.execVfcmp r f s
  | .vfclass f => Sys2Proof.Machine.execVfclass f s
  | .vsgnj f => Sys2Proof.Machine.execVsgnj f s
  | .vsgnn f => Sys2Proof.Machine.execVsgnn f s
  | .vsgnx f => Sys2Proof.Machine.execVsgnx f s
  | .vcvt f => Sys2Proof.Machine.execVcvt f s
  | .vmand f => Sys2Proof.Machine.execVmand f s
  | .vmor f => Sys2Proof.Machine.execVmor f s
  | .vmxor f => Sys2Proof.Machine.execVmxor f s
  | .vmnot f => Sys2Proof.Machine.execVmnot f s
  | .vmpop f => Sys2Proof.Machine.execVmpop f s
  | .vmfirst f => Sys2Proof.Machine.execVmfirst f s
  | .vmerge f => Sys2Proof.Machine.execVmerge f s
  | .vmk f => Sys2Proof.Machine.execVmk f s
  | .viota f => Sys2Proof.Machine.execViota f s
  | .vid f => Sys2Proof.Machine.execVid f s
  | .vslideup f => Sys2Proof.Machine.execVslideup f s
  | .vslidedn f => Sys2Proof.Machine.execVslidedn f s
  | .vperm f => Sys2Proof.Machine.execVperm f s
  | .vcompress f => Sys2Proof.Machine.execVcompress f s
  | .vbcast f => Sys2Proof.Machine.execVbcast f s
  | .vtoo f => Sys2Proof.Machine.execVtoo f s
  | .vredsum f => Sys2Proof.Machine.execVredsum f s
  | .vredmin f => Sys2Proof.Machine.execVredmin f s
  | .vredmax f => Sys2Proof.Machine.execVredmax f s
  | .vredand f => Sys2Proof.Machine.execVredand f s
  | .vredor f => Sys2Proof.Machine.execVredor f s
  | .vredxor f => Sys2Proof.Machine.execVredxor f s
  | .vld f => Sys2Proof.Machine.execVld f s
  | .vldHome f => Sys2Proof.Machine.execVldHome f s
  | .vldLast f => Sys2Proof.Machine.execVldLast f s
  | .vlds f => Sys2Proof.Machine.execVlds f s
  | .vldsHome f => Sys2Proof.Machine.execVldsHome f s
  | .vldx f => Sys2Proof.Machine.execVldx f s
  | .vldxPeer f => Sys2Proof.Machine.execVldxPeer f s
  | .vldxHome f => Sys2Proof.Machine.execVldxHome f s
  | .vldff f => Sys2Proof.Machine.execVldff f s
  | .ldt f => Sys2Proof.Machine.execLdt f s
  | .vldo f => Sys2Proof.Machine.execVldo f s
  | .vst f => Sys2Proof.Machine.execVst f s
  | .vsts f => Sys2Proof.Machine.execVsts f s
  | .vstx f => Sys2Proof.Machine.execVstx f s
  | .vstxPeer f => Sys2Proof.Machine.execVstxPeer f s
  | .vamoAdd f => Sys2Proof.Machine.execVamoAdd f s
  | .vamoMin f => Sys2Proof.Machine.execVamoMin f s
  | .vamoMax f => Sys2Proof.Machine.execVamoMax f s
  | .vamoAnd f => Sys2Proof.Machine.execVamoAnd f s
  | .vamoOr f => Sys2Proof.Machine.execVamoOr f s
  | .vamoXor f => Sys2Proof.Machine.execVamoXor f s
  | .vamoSwap f => Sys2Proof.Machine.execVamoSwap f s
  | .vamoCas f => Sys2Proof.Machine.execVamoCas f s
  | .mmode f => Sys2Proof.Machine.execMmode f s
  | .mshape f => Sys2Proof.Machine.execMshape f s
  | .mzero f => Sys2Proof.Machine.execMzero f s
  | .mzeroAcc f => Sys2Proof.Machine.execMzeroAcc f s
  | .mldb f => Sys2Proof.Machine.execMldb f s
  | .mmul f => Sys2Proof.Machine.execMmul f s
  | .mopa f => Sys2Proof.Machine.execMopa f s
  | .mgmul f => Sys2Proof.Machine.execMgmul f s
  | .mdrain f => Sys2Proof.Machine.execMdrain f s
  | .mdrainx f => Sys2Proof.Machine.execMdrainx f s
  | .mrecv f => Sys2Proof.Machine.execMrecv f s
  | .mrecvCancel f => Sys2Proof.Machine.execMrecvCancel f s
  | .mchain f => Sys2Proof.Machine.execMchain f s
  | .mchainAccept f => Sys2Proof.Machine.execMchainAccept f s
  | .munchain f => Sys2Proof.Machine.execMunchain f s
  | .mwait f => Sys2Proof.Machine.execMwait f s
  | .mmulx f => Sys2Proof.Machine.execMmulx f s
  | .mrinv f => Sys2Proof.Machine.execMrinv f s
  | .mrinvAll f => Sys2Proof.Machine.execMrinvAll f s
  | .mrpf f => Sys2Proof.Machine.execMrpf f s
  | .mrprobe f => Sys2Proof.Machine.execMrprobe f s
  | .trap imm => Sys2Proof.Machine.execTrap imm s
  | .tret => Sys2Proof.Machine.execTret s
  | .brk imm => Sys2Proof.Machine.execBrk imm s
  | .watchCore which d a b => Sys2Proof.Machine.execWatchCore which d a b s
  | .watchHome which d a b => Sys2Proof.Machine.execWatchHome which d a b s
  | .watchCount which d a b => Sys2Proof.Machine.execWatchCount which d a b s
  | .ctxsave rel incr d a b => Sys2Proof.Machine.execCtxsave rel incr d a b s
  | .ctxload d a => Sys2Proof.Machine.execCtxload d a s
  | .tlbinvVa a b => Sys2Proof.Machine.execTlbinvVa a b s
  | .tlbinvCtx a b => Sys2Proof.Machine.execTlbinvCtx a b s
  | .tlbinvAll a b => Sys2Proof.Machine.execTlbinvAll a b s
  | .sysfence imm => Sys2Proof.Machine.execSysfence imm s
  | .travset d a die entry => Sys2Proof.Machine.execTravset d a die entry s
  | .rbind d a slot => Sys2Proof.Machine.execRbind d a slot s
  | .rload d slot => Sys2Proof.Machine.execRload d slot s
  | .runbind d slot => Sys2Proof.Machine.execRunbind d slot s
  | .runbindCtx d a slot => Sys2Proof.Machine.execRunbindCtx d a slot s
  | .rquery d slot => Sys2Proof.Machine.execRquery d slot s
  | .unassignedEncoding slot => Sys2Proof.Machine.execUnassignedEncoding slot s
  | .otherHintCode code a f3 d => Sys2Proof.Machine.execOtherHintCode code a f3 d s
  | .umov => Sys2Proof.Machine.execUmov s
  | .umovi => Sys2Proof.Machine.execUmovi s
  | .uhi => Sys2Proof.Machine.execUhi s
  | .urds => Sys2Proof.Machine.execUrds s
  | .uwrs => Sys2Proof.Machine.execUwrs s
  | .urdo => Sys2Proof.Machine.execUrdo s
  | .uwro => Sys2Proof.Machine.execUwro s
  | .uadd => Sys2Proof.Machine.execUadd s
  | .usub => Sys2Proof.Machine.execUsub s
  | .umul => Sys2Proof.Machine.execUmul s
  | .uand => Sys2Proof.Machine.execUand s
  | .uor => Sys2Proof.Machine.execUor s
  | .uxor => Sys2Proof.Machine.execUxor s
  | .usll => Sys2Proof.Machine.execUsll s
  | .usrl => Sys2Proof.Machine.execUsrl s
  | .usra => Sys2Proof.Machine.execUsra s
  | .uslt => Sys2Proof.Machine.execUslt s
  | .usltn => Sys2Proof.Machine.execUsltn s
  | .umin => Sys2Proof.Machine.execUmin s
  | .umax => Sys2Proof.Machine.execUmax s
  | .uaddi => Sys2Proof.Machine.execUaddi s
  | .ufadd => Sys2Proof.Machine.execUfadd s
  | .ufsub => Sys2Proof.Machine.execUfsub s
  | .ufmul => Sys2Proof.Machine.execUfmul s
  | .ufma => Sys2Proof.Machine.execUfma s
  | .ufmin => Sys2Proof.Machine.execUfmin s
  | .ufmax => Sys2Proof.Machine.execUfmax s
  | .ufcvti => Sys2Proof.Machine.execUfcvti s
  | .uicvtf => Sys2Proof.Machine.execUicvtf s
  | .uld => Sys2Proof.Machine.execUld s
  | .ust => Sys2Proof.Machine.execUst s
  | .uvadd => Sys2Proof.Machine.execUvadd s
  | .uvsub => Sys2Proof.Machine.execUvsub s
  | .uvmul => Sys2Proof.Machine.execUvmul s
  | .uvmin => Sys2Proof.Machine.execUvmin s
  | .uvmax => Sys2Proof.Machine.execUvmax s
  | .uvand => Sys2Proof.Machine.execUvand s
  | .uvor => Sys2Proof.Machine.execUvor s
  | .uvxor => Sys2Proof.Machine.execUvxor s
  | .uvfma => Sys2Proof.Machine.execUvfma s
  | .ubeq => Sys2Proof.Machine.execUbeq s
  | .ubne => Sys2Proof.Machine.execUbne s
  | .ublt => Sys2Proof.Machine.execUblt s
  | .uj => Sys2Proof.Machine.execUj s
  | .uloop => Sys2Proof.Machine.execUloop s
  | .uend => Sys2Proof.Machine.execUend s
  | .teamBarrierRelease => Sys2Proof.Machine.execTeamBarrierRelease s
  | .pauseExpiry => Sys2Proof.Machine.execPauseExpiry s
  | .matrixSequence => Sys2Proof.Machine.execMatrixSequence s
  | .mdrainxRowArrival => Sys2Proof.Machine.execMdrainxRowArrival s
  | .interruptTake => Sys2Proof.Machine.execInterruptTake s
  | .timerCompare => Sys2Proof.Machine.execTimerCompare s
  | .preemptRequest => Sys2Proof.Machine.execPreemptRequest s
  | .coreOutOfService => Sys2Proof.Machine.execCoreOutOfService s
  | .farAtomicAtHome => Sys2Proof.Machine.execFarAtomicAtHome s
  | .recall => Sys2Proof.Machine.execRecall s
  | .leaseRequest => Sys2Proof.Machine.execLeaseRequest s
  | .leaseExpiry => Sys2Proof.Machine.execLeaseExpiry s
  | .dirtyWriteback => Sys2Proof.Machine.execDirtyWriteback s
  | .lastDrop => Sys2Proof.Machine.execLastDrop s
  | .bankDrowsy => Sys2Proof.Machine.execBankDrowsy s
  | .bankWake => Sys2Proof.Machine.execBankWake s
  | .linkRetry => Sys2Proof.Machine.execLinkRetry s
  | .linkDown => Sys2Proof.Machine.execLinkDown s
  | .queueRouterEntry => Sys2Proof.Machine.execQueueRouterEntry s
  | .crossoverHoldExpiry => Sys2Proof.Machine.execCrossoverHoldExpiry s
  | .pairNotice => Sys2Proof.Machine.execPairNotice s
  | .pairAck => Sys2Proof.Machine.execPairAck s
  | .queueOpAtHome => Sys2Proof.Machine.execQueueOpAtHome s
  | .placeTask => Sys2Proof.Machine.execPlaceTask s
  | .taskStart => Sys2Proof.Machine.execTaskStart s
  | .taskReclaim => Sys2Proof.Machine.execTaskReclaim s
  | .liftAging => Sys2Proof.Machine.execLiftAging s
  | .segmentReport => Sys2Proof.Machine.execSegmentReport s
  | .groupIssue => Sys2Proof.Machine.execGroupIssue s
  | .faultQueuePush => Sys2Proof.Machine.execFaultQueuePush s
  | .resumeReleased => Sys2Proof.Machine.execResumeReleased s
  | .engineDecrement => Sys2Proof.Machine.execEngineDecrement s
  | .transferStop => Sys2Proof.Machine.execTransferStop s
  | .collectiveComplete => Sys2Proof.Machine.execCollectiveComplete s
  | .hostAtomic => Sys2Proof.Machine.execHostAtomic s
  | .hostPostedWrite => Sys2Proof.Machine.execHostPostedWrite s
  | .sysregWrite => Sys2Proof.Machine.execSysregWrite s
  | .mstateRead => Sys2Proof.Machine.execMstateRead s
  | .carveWrite => Sys2Proof.Machine.execCarveWrite s
  | .ortableWrite => Sys2Proof.Machine.execOrtableWrite s
  | .leaseWrite => Sys2Proof.Machine.execLeaseWrite s
  | .sscrWrite => Sys2Proof.Machine.execSscrWrite s
  | .liftContextWrite => Sys2Proof.Machine.execLiftContextWrite s
  | .drowsyWrite => Sys2Proof.Machine.execDrowsyWrite s
  | .bootclr => Sys2Proof.Machine.execBootclr s
  | .bootok => Sys2Proof.Machine.execBootok s
  | .moduleReset => Sys2Proof.Machine.execModuleReset s
  | .startWatchdog => Sys2Proof.Machine.execStartWatchdog s
  | .peerPortDown => Sys2Proof.Machine.execPeerPortDown s
  | .d3hot => Sys2Proof.Machine.execD3hot s
  | .level2McheckReset => Sys2Proof.Machine.execLevel2McheckReset s
  | .taskEndedAfterTrap => Sys2Proof.Machine.execTaskEndedAfterTrap s
  | .inputPowerFault => Sys2Proof.Machine.execInputPowerFault s
  | .peerPostedWrite => Sys2Proof.Machine.execPeerPostedWrite s
  | .mrpfFetchCompletion => Sys2Proof.Machine.execMrpfFetchCompletion s

end Sys2Proof.Machine
end

