-- ==== Sys2Proof/Machine/Environment.lean ====
section
/-! DEFINITION. What the environment and the device's own choices do beyond the steps of the opcode table: evictions, refetches, register and
media errors, outside memories, the lag of a slice's clock (06 R128–R129, R134; 08 R214; 11 R248–R250, R258–R259; 12 R272, R276;
16 R390, R394; log 2). -/

namespace Sys2Proof.Machine

/-- Bytes of a list stored upward from an address. -/
def Mem.putBytes (m : Mem) (a : Nat) (bs : List Byte) : Mem := m.writeN a bs.length (ofBytes bs)

/-! ## Reads that check parity (R128, R214, R395) -/

/-- Of n bytes from byte `off` of the group that starts at register r, some lie in register `loc`, in the granule of a lane, or of
any lane for the parity lane 64. `vlen` and `lanes` are the register length and the lane count. -/
def inGranule (vlen lanes r off n lane loc : Nat) : Bool :=
  (List.range n).any (fun i =>
    let o := off + i
    r + o / max vlen 1 == loc && (lane == 64 || o % max vlen 1 / 8 % max lanes 1 == lane))

/-- Instruction i, about to be executed by the thread in focus, reads granules of its register `loc`. -/
def State.instrReads (s : State) (i : Instr) (loc : Nat) : Bool :=
  let group := fun (f : RtnState → List VReg) => (s.th.rtn.map f).any (fun l => l.any (fun x => x.val == loc))
  match i with
  | .fmvFromOperand _ e _ => loc == 0x40 + e.val
  | .urdo => s.th.rtn.any (fun r => loc == 0x40 + r.cur.e.val)
  | .uvadd | .uvsub | .uvmul | .uvmin | .uvmax | .uvand | .uvor | .uvxor => group (fun r => [r.cur.v.va, r.cur.v.vb])
  | .uvfma => group (fun r => [r.cur.v.va, r.cur.v.vb, r.cur.v.vd])
  | _ =>
    (regSources i).any (fun (x, span) => match x with
      | .v r _ => decide (r.val ≤ loc) && decide (loc < r.val + span) && decide (loc < 64)
      | .o e => loc == 0x40 + e.val
      | .lat u => loc == 0x48 + u.val
      | .s _ => false)

/-- The bytes of vector registers that the running entry reads on its way to its next gate, as (first register of the group, offset, bytes):
of the A group only the elements of unmasked rows at K positions below KLEN (R395). Its poster is in focus. -/
def State.entryBytes (s : State) (e : MEntry) : List (Nat × Nat × Nat) :=
  let m := s.core.mat
  let t := rd m.tshape e.f.t
  let stride := e.sv.toNat
  let row := fun (base i klen : Nat) => (base, i * stride, bytesOf e.f.ty klen)
  let klen := e.klen (elemsIn e.f.ty m.view.colBytes)
  if e.mop = mopMmul then ((gateRows m.gate t.rows).filter e.rowOn).map (fun i => row e.f.a.val i klen)
  else if e.mop = mopMgmul then
    ((gateRows m.gate e.vl).filter e.rowOn).flatMap (fun i =>
      [(e.f.b.val, 2 * i, 2), (e.f.c.val, 2 * i, 2)] ++ (match s.gatherAt e t i with | some (a, _) => [row e.f.a.val a klen] | none => []))
  else if e.mop = mopMmulx then
    match m.bound with
    | none => ((List.range t.rows).filter e.rowOn).flatMap (fun i => [(e.f.b.val, 2 * i, 2), (e.f.c.val, 4 * i, 4)])
    | some b => ((gateRows m.gate t.rows).filter (e.granted b)).map (fun i => row e.f.a.val i klen)
  else if e.mop = mopMopa then
    let k := e.klen (elemsIn e.f.ty stride)
    ((List.range 64).filter e.rowOn).map (fun i => row e.f.a.val i k) ++
      ((List.range s.nLanes).filter e.colOn).map (fun i => row e.f.b.val i k)
  else if e.mop = mopMdrain then
    let cols := if fxBit e.f 2 then s.nLanes else t.cols
    (if fxBit e.f 0 then [(e.f.a.val, 0, 4 * cols)] else []) ++ (if fxBit e.f 1 then [(e.f.b.val, 0, 4 * cols)] else [])
  else []

/-- The running entry reads elements of its tile, which lies in registers of its owner. -/
def MEntry.readsTile (e : MEntry) : Bool :=
  e.mop == mopMmul || e.mop == mopMgmul || e.mop == mopMmulx || e.mop == mopMdrainx || (e.mop == mopMdrain && !fxBit e.f 2)

/-- The running entry of the matrix queue reads the granule from registers of slot j; its poster is in focus. -/
def State.entryReads (s : State) (j : Fin 4) (lane loc : Nat) : Bool :=
  let m := s.core.mat
  match m.held, m.queue with
  | none, e :: _ =>
    let t := rd m.tshape e.f.t
    (e.slot == j && (s.entryBytes e).any (fun p => inGranule s.vlen s.nLanes p.1 p.2.1 p.2.2 lane loc)) ||
      (e.readsTile && t.owner == j && t.rows != 0 && decide (t.base.val ≤ loc) && decide (loc < t.base.val + t.span s.vlen))
  | _, _ => false

/-- The matrix queue of core n reads the granule from registers of slot j on its way to its next gate. -/
def State.queueReads (s : State) (n : Nat) (j : Fin 4) (lane loc : Nat) : Bool :=
  match (s.coreAt n).mat.queue with
  | e :: _ => (s.focus n e.slot).entryReads j lane loc
  | [] => false

/-- A rebuilt granule: `REGERR` counts it and names its lane and location (R128, R134). -/
def State.noteRebuild (s : State) (n lane loc : Nat) : State :=
  let c := s.coreAt n
  let x := c.sys.regerr.toNat
  let y := putBits (putBits (putBits x 16 16 (min 65535 (getBits x 16 16 + 1))) 8 7 lane) 0 8 loc
  s.setCore n { c with sys := { c.sys with regerr := wd y } }

/-- A corrected scalar error (R129, R134). -/
def State.noteCorrected (s : State) (n : Nat) : State :=
  let c := s.coreAt n
  let x := c.sys.regerr.toNat
  s.setCore n { c with sys := { c.sys with regerr := wd (putBits x 32 16 (min 65535 (getBits x 32 16 + 1))) } }

/-- The form in which the media holds block b: uncompressed in a stack that does not compress; all zero for a block of zeros; else the
form that the controller's compression gives its bytes. Each write into a block chooses its form from the bytes that it leaves, so the form
follows from them (R258, log 7). -/
def State.blockForm (s : State) (b : Nat) : BitVec 2 :=
  if !s.boot.compress.getLsbD (homeDie (512 * b)) then 0
  else
    let x := s.store.media.readN (512 * b) 512
    if x = 0 then 1 else if Config.freeForm x = 1 then 0 else Config.freeForm x

/-- An uncorrectable error in the media: its sector is poisoned there; of a block not stored uncompressed, or when the error lies in the
metadata entry, the whole block (R259). -/
def State.mediaFails (s : State) (lin : Nat) (entry : Bool) : State :=
  let b := lin / 512
  if entry || s.blockForm b != 0 then
    let st := (List.range 16).foldl (fun t i => t.poisonMedia (16 * b + i) true) s.store
    { s with store := { st with pblk := if st.pblk.contains b then st.pblk else b :: st.pblk } }
  else { s with store := s.store.poisonMedia (lin / 32) true }

/-- An uncorrectable error in sector i of core n's L1 line (R259). -/
def State.l1Fails (s : State) (n tag : Nat) (i : Fin 4) : State :=
  let c := s.coreAt n
  match c.line tag with
  | some l => s.setCore n (c.putLine { l with sec := wr l.sec i { (rd l.sec i) with poison := true } })
  | none => s

/-- An uncorrectable error in sector i of a line of a die's RDC. -/
def State.rdcFails (s : State) (die tag : Nat) (i : Fin 4) : State :=
  { s with store := { s.store with rdc := s.store.rdc.map (fun x =>
      if x.die == die && x.tag == tag then { x with poison := x.poison ||| (1 <<< i.val) } else x) } }

/-- An uncorrectable error in the L2 copy of sector k. -/
def State.l2Fails (s : State) (k : Nat) : State :=
  { s with store := s.store.putSector k (s.store.sector k).1 (s.store.dirtyMask k) true }

/-! ## The host's own accesses (R403) -/

/-- A load of n bytes of one sector at its home. The metadata bytes answer poisoned data. -/
def State.hostLoads (s : State) (lin n : Nat) : State :=
  match s.place lin with
  | .media l =>
    let s1 := s.drainPosted.homeRead l n
    s1.setFab { s1.fab with hostReply := (s1.homeBytes l n, s1.homePoison l) }
  | .host _ | .peer _ _ | .cfg _ | .none =>
    ({ s with free := s.free + 1 } : State).setFab { s.fab with hostReply := (Config.freeBlob s.free % 256 ^ n, true) }

/-- A store through CXL.mem reaches its home; one that touches the metadata bytes is discarded. -/
def State.hostStores (s : State) (lin : Nat) (data : List Byte) : State :=
  if !data.isEmpty && (s.mediaLin lin).isSome && (s.mediaLin (lin + data.length - 1)).isSome then
    s.devWriteN (data.length + 1) lin data.length (ofBytes data)
  else s

/-- A TLB entry for va leaves core n's TLB and its cluster's (R390). -/
def State.dropTlb (s : State) (n va : Nat) : State :=
  let c := s.coreAt n
  let covers := fun (e : TlbEntry) => decide (e.va ≤ va) && decide (va < e.va + e.size)
  let s1 := s.setCore n { c with tlb := c.tlb.filter (fun e => !covers e) }
  { s1 with store := { s1.store with l2tlb := s1.store.l2tlb.filter (fun p => !(p.1 == clusterOf n && covers p.2)) } }

/-- Line l of a core's L1 may leave: its set has no way that holds no line, or another line shares its way (R394). -/
def Core.mayEvict (c : Core) (tag : Nat) : Bool :=
  let set := c.l1.filter (fun l => l.tag % 64 == tag % 64)
  (List.range c.ways).all (fun w => set.any (fun l => l.way == w)) ||
    (c.line tag).any (fun l => set.any (fun x => x.tag != tag && x.way == l.way))

end Sys2Proof.Machine
end

