-- ==== Sys2Proof/Machine/Late.lean ====
section
/-! DEFINITION. Loads and slots that may still be under way when their thread traps: which ones, what the thread and the memory
are like while they are, and their replay entries (16 R371, R372, R376; log 46). -/

namespace Sys2Proof.Machine

/-! ## What may still be under way (R121, R372) -/

/-- The scalar registers that an instruction reads or writes, where it may be issued while earlier ones of its thread are under way; none
where it first waits for every earlier access, or where the model has it wait (log 46). -/
def scalarUse (i : Instr) : Option (List Reg) :=
  match i with
  | .add d a b | .sub d a b | .and d a b | .or d a b | .xor d a b | .sll d a b | .srl d a b | .sra d a b | .slt d a b | .sltn d a b
  | .mul d a b | .mulh d a b | .mulhn d a b | .div d a b | .divn d a b | .rem d a b | .remn d a b | .bext d a b | .bdep d a b
  | .rotl d a b | .rotr d a b | .fadd _ _ d a b | .fsub _ _ d a b | .fmul _ _ d a b | .fdiv _ _ d a b | .fmin _ d a b | .fmax _ d a b
  | .fcmp _ _ d a b | .amoAdd _ _ _ d a b | .amoMin _ _ d a b | .amoMax _ _ d a b | .amoAnd _ _ d a b | .amoOr _ _ d a b
  | .amoXor _ _ d a b | .amoSwap _ _ d a b | .cas _ _ d a b => some [d, a, b]
  | .clz d a | .ctz d a | .popc d a | .rev d a | .fsqrt _ _ d a | .fclass _ d a | .fcvt _ _ _ _ d a | .fmvFromOperand d _ a
  | .addi d a _ | .andi d a _ | .ori d a _ | .xori d a _ | .slli d a _ | .srli d a _ | .srai d a _ | .ld _ d a _ | .ldHome _ d a _
  | .ldLast _ d a _ | .jalr d a _ | .vstrip _ d a _ | .ssld _ d a _ => some [d, a]
  | .cmp _ _ a b | .st _ a b _ | .ssst _ a b _ => some [a, b]
  | .kmovSK d _ | .jal d _ | .lui d _ | .auipc d _ | .padv d _ _ => some [d]
  | .fmvToOperand _ a | .kmovKS _ a | .cmpi _ _ a _ | .pset _ a _ | .prefL1 a _ | .prefL2 a _ | .wake a _ | .wakeAll a _ => some [a]
  | .kand _ _ _ | .kor _ _ _ | .kxor _ _ _ | .knot _ _ | .kmovKK _ _ | .nop _ _ _ | .spin _ _ _ | .otherHintCode _ _ _ _ | .brAny _ _ _
  | .brAll _ _ _ | .br _ | .loop _ | .convoyIssue _ _ | .trap _ | .brk _ | .unassignedEncoding _ => some []
  | _ => none

/-- The word, the unit and the fields of the slot that the thread executes, where its convoy's words are known and it is no matrix slot. -/
def State.slotFields (s : State) : Option (BitVec 64 × Fin 7 × VF) :=
  match s.th.issue, s.th.convoy with
  | some x, some c =>
    match c.slots[x.slot]?, c.units[x.slot]? with
    | some w, some u => if c.hdr = x.hdr ∧ u ≠ 6 then (decodeVF w.toNat).map (fun f => (w, u, f)) else none
    | _, _ => none
  | _, _ => none

/-- An instruction of an arithmetic unit whose result goes to a vector register: its fields. -/
def vectorResult (i : Instr) : Option VF :=
  match i with
  | .vaddInt f | .vsubInt f | .vmulInt f | .vmulh f | .vminInt f | .vmaxInt f | .vmacc f | .vdivInt f | .vrem f | .vand f | .vor f | .vxor f
  | .vsll f | .vsrl f | .vsra f | .vmv f | .vaddFloat f | .vsubFloat f | .vmulFloat f | .vdivFloat f | .vfma f | .vfms f | .vfnma f
  | .vsqrt f | .vminFloat f | .vmaxFloat f | .vfclass f | .vsgnj f | .vsgnn f | .vsgnx f | .vcvt f | .vmerge f | .viota f | .vid f
  | .vslideup f | .vslidedn f | .vperm f | .vcompress f | .vbcast f | .vredsum f | .vredmin f | .vredmax f | .vredand f | .vredor f
  | .vredxor f => some f
  | _ => none

/-- What an instruction of a convoy's slot writes. -/
def slotDest (i : Instr) : List Dest :=
  match i with
  | .vcmp _ f | .vfcmp _ f | .vmand f | .vmor f | .vmxor f | .vmnot f | .vmk f | .vstxPeer f => [.m (Fin.ofNat 8 f.d.val)]
  | .vmpop f | .vmfirst f => if f.d.val = 0 then [] else [.s (Fin.ofNat 32 f.d.val)]
  | .vldo f | .vtoo f => [.o (Fin.ofNat 8 f.d.val)]
  | .vldxPeer f => .v f.d :: (match f.c with | .v r _ => [.m (Fin.ofNat 8 r.val)] | .o _ | .lat _ | .s _ => [])
  | .vld f | .vldHome f | .vldLast f | .vlds f | .vldsHome f | .vldx f | .vldxHome f | .vldff f | .ldt f | .vamoAdd f | .vamoMin f | .vamoMax f
  | .vamoAnd f | .vamoOr f | .vamoXor f | .vamoSwap f | .vamoCas f => [.v f.d]
  | _ => ((vectorResult i).map (fun f => Dest.v f.d)).toList

/-- The masks that it reads. -/
def slotMasks (i : Instr) (f : VF) : List (Fin 8) :=
  let named := fun (l : List VSrc) => l.filterMap (fun x => match x with | .v r _ => some (Fin.ofNat 8 r.val) | .o _ | .lat _ | .s _ => none)
  f.msk.toList ++ (match i with
    | .vmand f | .vmor f | .vmxor f => named [f.a, f.b]
    | .vmnot f | .vmpop f | .vmfirst f | .viota f => named [f.a]
    | .vmerge f => named [f.c]
    | _ => [])

/-- It may raise flags. -/
def mayRaise (i : Instr) : Bool :=
  match i with
  | .fadd _ _ _ _ _ | .fsub _ _ _ _ _ | .fmul _ _ _ _ _ | .fdiv _ _ _ _ _ | .fsqrt _ _ _ _ | .fmin _ _ _ _ | .fmax _ _ _ _ | .fcmp _ _ _ _ _
  | .fcvt _ _ _ _ _ _ | .vfcmp _ _ => true
  | _ => (vectorResult i).isSome

/-- A source of a vector slot is what l still has to write. -/
def VSrc.needs (x : VSrc) (span : Nat) (l : Late) : Bool :=
  match x with
  | .v r _ => l.dest.any (fun d => match d with | .v y => decide (r.val ≤ y.val) && decide (y.val < r.val + span) | .m _ | .s _ | .o _ => false)
  | .lat u => l.entry.vector && u.val == l.unit.val
  | .s r => l.dest.contains (.s r)
  | .o e => l.dest.contains (.o e)

/-- A scalar instruction reads or writes what l still has to write. -/
def scalarNeeds (i : Instr) (rs : List Reg) (l : Late) : Bool :=
  l.dest.any (fun d => match d with
    | .s r => rs.contains r
    | .o e => (match i with | .fmvFromOperand _ x _ | .fmvToOperand x _ => x == e | _ => false)
    | .v _ | .m _ => false)

/-! ## Where its accesses go -/

/-- The place that n bytes at va have for the thread, none where it reaches none. -/
def State.spot (s : State) (va n : Nat) (need : Need) : Option (Bool × Nat) :=
  match (s.locate va n need).2 with
  | .ok (.spad off) => some (true, off)
  | .ok (.mem pa _) => some (false, pa)
  | .error _ => none

/-- A place as the operations over memory take it. -/
def spotTarget (spad : Bool) (a : Nat) : Target := if spad then .spad a else .mem a false

/-- What n bytes at a place read as for the thread, without reading them. -/
def State.peek (s : State) (spad : Bool) (a n : Nat) : Nat := (s.readAt .plain (spotTarget spad a) n).2.1

/-- The place of n bytes at va and what stands there. -/
def State.glance (s : State) (va n : Nat) : Option Chunk :=
  (s.spot va n .read).map (fun p => { spad := p.1, addr := p.2, n, v := s.peek p.1 p.2 n })

/-- The bytes of element e of a load or store slot, by their addresses; none for every other instruction. -/
def State.elemBytes (s : State) (i : Instr) : Option (Nat → List (Nat × Nat)) :=
  let each := fun (f : VF) (ea : Nat → Nat) => some (fun e => [(ea e, f.ty.bits / 8)])
  let unit := fun (f : VF) => if f.ty = .mxf4 then some (s.mxBytes f) else each f (s.unitEa f)
  match i with
  | .vld f | .vldHome f | .vldLast f | .vst f => unit f
  | .vlds f | .vldsHome f | .vsts f => each f (s.strideEa f)
  | .vldx f | .vldxHome f | .vstx f => each f (s.indexEa f)
  | .vldo f => some (fun e => [((s.pointer f.a + 8 * e) % 2 ^ 64, 8)])
  | _ => none

/-- The elements that such a slot performs. -/
def State.elemsOf (s : State) (i : Instr) (f : VF) : List Nat :=
  match i with
  | .vldo _ => (List.range s.nLanes).filter (fun e => decide (s.slotNow.prog ≤ e))
  | _ => s.remaining f

/-- The bytes that an instruction is about to access, by their addresses; none where it may access any. -/
def State.accesses (s : State) (i : Instr) : Option (List (Nat × Nat)) :=
  match i with
  | .ld ty _ a imm | .ldHome ty _ a imm | .ldLast ty _ a imm => some [(s.ea a imm, ldBytes ty)]
  | .st width a _ imm => some [(s.ea a imm, stBytes width)]
  | .vldff _ | .ldt _ | .vldxPeer _ | .vstxPeer _ | .vamoAdd _ | .vamoMin _ | .vamoMax _ | .vamoAnd _ | .vamoOr _ | .vamoXor _ | .vamoSwap _
  | .vamoCas _ | .amoAdd _ _ _ _ _ _ | .amoMin _ _ _ _ _ | .amoMax _ _ _ _ _ | .amoAnd _ _ _ _ _ | .amoOr _ _ _ _ _ | .amoXor _ _ _ _ _
  | .amoSwap _ _ _ _ _ | .cas _ _ _ _ _ => none
  | _ =>
    match s.elemBytes i, s.slotFields with
    | some g, some (_, _, f) => some ((s.elemsOf i f).flatMap g)
    | some _, none => none
    | none, _ => some []

/-- None of them is one that l stores (R147). -/
def State.keepsClear (s : State) (i : Instr) (l : Late) : Bool :=
  l.stored.isEmpty ||
    (match s.accesses i with
      | none => false
      | some xs => xs.all (fun x =>
        match s.spot x.1 x.2 .read with
        | none => true
        | some p => l.stored.all (fun c => c.2.spad != p.1 || decide (c.2.addr + c.2.n ≤ p.2) || decide (p.2 + x.2 ≤ c.2.addr))))

/-- Instruction i, about to be executed, may be issued while l is under way: it reads and writes no register that l writes, and no
byte that l stores. -/
def State.issuesBeside (s : State) (i : Instr) (l : Late) : Bool :=
  !s.inVp && s.th.rtn.isNone && s.th.replay.isEmpty && s.keepsClear i l &&
    (match s.th.issue, scalarUse i with
      | some _, _ =>
        match s.slotFields with
        | some (_, _, f) =>
          !(regSources i).any (fun x => VSrc.needs x.1 x.2 l) && !(slotDest i).any (fun d => l.dest.contains d) &&
            !(slotMasks i f).any (fun m => l.dest.contains (.m m))
        | none => false
      | none, some rs => !scalarNeeds i rs l
      | none, none => false)

/-! ## Taking back -/

def Thread.undo (t : Thread) (x : Undo) : Thread :=
  match x with
  | .v r x => { t with vec := { t.vec with v := wr t.vec.v r x } }
  | .m i x => { t with vec := { t.vec with m := wr t.vec.m i x } }
  | .s r x => { t with s := wr t.s r x }
  | .o e x => { t with vec := { t.vec with o := wr t.vec.o e x } }
  | .lat u x => { t with vec := { t.vec with lat := wr t.vec.lat u x } }
  | .fx x => { t with vec := { t.vec with fx := x } }
  | .line _ _ _ | .spad _ _ _ _ => t

def Core.undo (c : Core) (x : Undo) : Core :=
  match x with
  | .line tag none _ => c.dropL1 tag
  | .line _ (some l) _ => c.putLine l
  | .spad off n old _ => { c with spad := c.spad.writeN off n old }
  | .v _ _ | .m _ _ | .s _ _ | .o _ _ | .lat _ _ | .fx _ => c

/-- What has been written in memory stands there unchanged. -/
def Core.undoable (c : Core) (x : Undo) : Bool :=
  match x with
  | .line tag _ new => c.line tag == some new
  | .spad off n _ new => c.spad.readN off n == new
  | .v _ _ | .m _ _ | .s _ _ | .o _ _ | .lat _ _ | .fx _ => true

/-- What a slot of unit u that writes `dest` may have changed in its thread, as it stands in `t`. -/
def Thread.undoFor (t : Thread) (u : Fin 7) (dest : List Dest) : List Undo :=
  dest.map (fun d => match d with
    | .v r => .v r (rd t.vec.v r)
    | .m i => .m i (rd t.vec.m i)
    | .s r => .s r (rd t.s r)
    | .o e => .o e (rd t.vec.o e)) ++ [.lat u (rd t.vec.lat u), .fx t.vec.fx]

/-- From `s` to `t` the slot has changed nothing of its thread beyond what `us` takes back and the lane time. -/
def State.onlyWrote (s t : State) (us : List Undo) : Bool :=
  { us.foldl Thread.undo t.th with laneBusy := s.th.laneBusy, issue := s.th.issue, convoy := s.th.convoy } == s.th

/-! ## What is left to be taken back -/

/-- The line at pa holds nothing that is newer than the media: the drop of a `.last` load loses no byte there (R261). -/
def State.cleanAt (s : State) (pa : Nat) : Bool :=
  match s.place pa with
  | .media lin =>
    !(s.core.line (pa / 128)).any (fun l => l.sec.toList.any (fun x => x.dmask != 0)) &&
      [0, 1, 2, 3].all (fun i => s.sectorNow (lin / 128 * 4 + i) == s.store.mediaSector (lin / 128 * 4 + i))
  | .host _ | .peer _ _ | .cfg _ | .none => true

def isLast (i : Instr) : Bool :=
  match i with
  | .ldLast _ _ _ _ | .vldLast _ => true
  | _ => false

/-- A scalar load, executed from `s` to `t`. -/
def State.lateScalar (i : Instr) (s t : State) (d a : Reg) (ty : LdTy) (imm : BitVec 12) : Option Late :=
  let seen := (t.glance (s.ea a imm) (ldBytes ty)).toList
  if d = 0 ∨ t.th.pc = s.th.pc ∨ (isLast i && seen.any (fun c => !c.spad && !s.cleanAt c.addr)) = true then none
  else some
    { entry := { pc := s.th.pc, vector := false, slot := 0, prog := 0, vl := 0, rm := .rne, opa := s.getS a, opb := 0, opc := 0, nowatch := false }
      word := 0, unit := 2, dest := [.s d], undo := [.s d (s.getS d)], busy := 0, bits := 0, done := [], parts := false, took := [], seen
      stored := [] }

/-- A number that no element has: what stands under it in `Late.took` counts for every element. -/
def anyElem : Nat := 2 ^ 16

/-- What a source field holds. -/
def State.holds (s : State) (x : VSrc) : List Blob :=
  match x with
  | .v r _ => [(s.vreg r).data, (s.vreg r).side, if (s.vreg r).tag then 1 else 0]
  | .o e => [rd s.th.vec.o e]
  | .lat u => [rd s.th.vec.lat u]
  | .s _ => []

/-- What elements `done` of a slot take from masks and from registers; a load's elements take their indices. -/
def State.takes (s : State) (i : Instr) (f : VF) (done : List Nat) : List (Nat × Blob) :=
  (slotMasks i f).map (fun m => (anyElem, s.mask m)) ++
    (match i with
    | .vldx _ | .vldxHome _ => done.map (fun e => (e, s.index f e))
    | _ => (regSources i).flatMap (fun x => (s.holds x.1).map (fun y => (anyElem, y))))

/-- The lines and scratchpad bytes that stores of these bytes have changed, executed from `s` to `t`. -/
def State.memoryUndo (s t : State) (cs : List Chunk) : List Undo :=
  let tags := (cs.filterMap (fun c => if c.spad then none else some (c.addr / 128))).eraseDups
  tags.filterMap (fun tag => (t.core.line tag).map (fun l => .line tag (s.core.line tag) l)) ++
    cs.filterMap (fun c => if c.spad then some (.spad c.addr c.n (s.core.spad.readN c.addr c.n) (t.core.spad.readN c.addr c.n)) else none)

/-- The bytes that a store slot stores for element e, none where some of them go neither to the scratchpad nor to device memory
through L1. -/
def State.storesOf (s t : State) (f : VF) (g : Nat → List (Nat × Nat)) (e : Nat) : Option (List (Nat × Chunk)) :=
  let vals := if f.ty = .mxf4 then [s.srcC f e + 16 * s.srcC f (e + 1), (match f.c with | .v r _ => getB (s.vreg r).side (e / 32) 1 | _ => 0)] else [s.srcC f e]
  ((g e).zip vals).mapM (fun (p, v) =>
    match t.spot p.1 p.2 .write with
    | none => none
    | some (spad, a) =>
      if spad || (s.core.ways != 0 && (match s.place a with | .media _ => true | _ => false)) then
        some (e, { spad, addr := a, n := p.2, v })
      else none)

/-- A vector slot, executed from `s` to `t`: with the bytes `seen` that it read and `stored` that it stored. -/
def State.lateVector (i : Instr) (s t : State) (parts : Bool) (seen : List Chunk) (stored : List (Nat × Chunk)) : Option Late :=
  match s.th.issue, s.slotFields with
  | some x, some (w, u, f) =>
    let mine := (s.th.undoFor u (slotDest i)).filter (fun y => t.th.undo y != t.th)
    if t.th.issue.isSome || !s.onlyWrote t mine then none
    else some
      { entry := x.entry, word := w, unit := u, dest := slotDest i, undo := mine ++ s.memoryUndo t (stored.map (·.2))
        busy := t.th.laneBusy - s.th.laneBusy, bits := f.ty.bits, done := s.remaining f, parts, took := s.takes i f (s.remaining f), seen, stored }
  | _, _ => none

/-- What instruction i has been, executed from `s` to `t`, if it may be under way beyond its turn: a load or store in memory, or a slot of an
arithmetic unit that draws no random and takes no free value. -/
def State.lateOf (i : Instr) (s t : State) : Option Late :=
  match i, s.slotFields, s.elemBytes i with
  | .ld ty d a imm, _, _ | .ldHome ty d a imm, _, _ | .ldLast ty d a imm, _, _ => s.lateScalar i t d a ty imm
  | .vst f, some _, some g | .vsts f, some _, some g | .vstx f, some _, some g =>
    match (s.remaining f).mapM (s.storesOf t f g) with
    | some l => s.lateVector i t true [] l.flatten
    | none => none
  | _, some (_, _, f), some g =>
    let seen := ((s.elemsOf i f).flatMap g).filterMap (fun p => t.glance p.1 p.2)
    if isLast i && seen.any (fun c => !c.spad && !s.cleanAt c.addr) then none
    else s.lateVector i t (slotDest i == [.v f.d]) seen []
  | _, some _, none => if s.free == t.free && s.core.laneGen == t.core.laneGen && (s.accesses i).isSome then s.lateVector i t false [] [] else none
  | _, none, _ => none

/-- A slot that is itself over leaves no other of its unit under way, whose latch would come after its own (R126), and none whose flags would
take its own back with them. -/
def State.endsLate (s : State) (i : Instr) (l : Late) : Bool :=
  (mayRaise i && l.undo.any (fun x => match x with | .fx _ => true | _ => false)) ||
    (match s.slotFields with
      | some (_, u, _) => l.entry.vector && u == l.unit
      | none => false)

/-- What may be under way after instruction i has been executed from `s` to `t`: at most 22, so that with a trapping slot there are
no more than 23 entries (R372). What must be over takes all before it along. A trap, a handler's start and its return leave none. -/
def State.lateNow (i : Instr) (s t : State) : List Late :=
  if t.coreId ≠ s.coreId ∨ t.slot ≠ s.slot ∨ t.th.level ≠ s.th.level ∨ t.th.intrap ≠ s.th.intrap ∨ t.inVp = true ∨ t.th.occ = false then []
  else
    let mine := if s.th.replay.isEmpty && !s.inVp && s.th.rtn.isNone && (s.th.issue.isNone || s.slotFields.isSome) then (s.lateOf i t).toList else []
    (mine ++ s.th.recent.takeWhile (fun l => s.issuesBeside i l && !(mine.isEmpty && s.endsLate i l))).take 22

/-- The thread's turn has executed instruction i from `s` to `t`: its record of what may be under way follows. The stores of the core's other
threads are over where it may have read what they stored. -/
def State.track (i : Instr) (s t : State) : State :=
  let quiet := s.accesses i == some []
  { t with
    th := { t.th with recent := s.lateNow i t }
    core := if quiet then t.core
      else { t.core with parked := t.core.parked.map (fun p => (p.1, { p.2 with recent := p.2.recent.takeWhile (fun l => l.stored.isEmpty) })) } }

/-! ## The thread while they are under way -/

/-- An element at which l may stand: one from it up is still to be done; a slot of `.mxf4` stands at the first of a block, and one that does
not go by elements where it began. -/
def Late.standsAt (l : Late) (prog : Nat) : Bool :=
  if l.parts then l.done.any (fun e => decide (prog ≤ e)) && (l.bits != 4 || prog % 32 == 0) && decide (l.entry.prog ≤ prog)
  else prog == l.entry.prog

/-- The destination register of a load while it stands at an element: what lies below it has been written. -/
def Late.partly (l : Late) (old now : VRegister) (prog : Nat) : VRegister :=
  let below := l.done.filter (fun e => decide (e < prog))
  if below.isEmpty then old
  else
    { now with
      data := putBits old.data 0 (prog * l.bits) (getBits now.data 0 (prog * l.bits))
      side := if now.tag then putB old.side 0 (prog / 32) (getB now.side 0 (prog / 32)) else now.side
      vb := max old.vb (roundUp (topByte l.bits (below.map (fun e => (e, 0)))) 64) }

/-- What is taken back of l for it to stand at an element. -/
def Late.undoAt (l : Late) (t : Thread) (prog : Nat) : List Undo :=
  l.undo.map (fun x => match x with | .v r old => if l.parts then .v r (l.partly old (rd t.vec.v r) prog) else x | _ => x)

/-- The thread in focus with l still under way, at element `prog`: what it has stored below stays. None where what it has stored is no longer
its own. -/
def State.underWay (s : State) (l : Late) (prog : Nat) : Option State :=
  if l.undo.all s.core.undoable then
    let th := (l.undoAt s.th prog).foldl Thread.undo s.th
    let s1 : State := { s with
      th := { th with flight := { l.entry with prog } :: th.flight, laneBusy := th.laneBusy - l.busy }
      core := l.undo.foldl Core.undo s.core }
    some ((l.stored.filter (fun p => decide (p.1 < prog))).foldl (fun u p => u.writeAt (spotTarget p.2.spad p.2.addr) p.2.n p.2.v) s1)
  else none

/-- Slot j of core n in focus, with the latest of its `recent`, the latest first, under way at these elements; none where they cannot be. -/
def State.withFlight (s : State) (n : Nat) (j : Fin 4) (progs : List Nat) : Option State :=
  let u := s.focus n j
  let ls := (u.th.recent.take progs.length).zip progs
  if ls.length = progs.length ∧ ls.all (fun p => p.1.standsAt p.2) = true then
    ls.foldl (fun o p => o.bind (fun v => v.underWay p.1 p.2)) (some u)
  else none

/-- What these have read still stands where they have read it, in memory and in registers, so that they may as well be performed now. -/
def State.stillThere (s : State) (ls : List (Late × Nat)) : Bool :=
  ls.all (fun (l, prog) =>
    l.seen.all (fun x => s.peek x.spad x.addr x.n == x.v) &&
      (match decodeSlot l.unit.val l.word.toNat, decodeVF l.word.toNat with
      | some i, some f => !l.entry.vector || ((s.takes i f l.done).zip l.took).all (fun (x, y) => decide (y.1 < prog) || x == y)
      | _, _ => !l.entry.vector))

end Sys2Proof.Machine
end

