-- ==== Sys2Proof/Machine/Turn.lean ====
section
/-! DEFINITION. Which turn a step takes, and what a thread's turn executes: the head of the schedule, else the default policy;
then replay entries, a routine, the slots of a convoy, virtual processors, or the instruction at the PC (02 R30, R33;
16 R371–R376; log 2). -/

namespace Sys2Proof.Machine

/-- What a turn comes to: an instruction to execute, a turn that is over, or a thread that is stalled and takes no turn. -/
inductive Go where
  | run (i : Instr) (s : State)
  | done (s : State)
  | stall

/-! ## A thread's turn -/

/-- The operands that a slot reads from registers at issue (R371): the base pointer of a memory instruction or the scalar
of source a, then those of b and c. In a fetched block each VP has its own copy of a scalar, which no entry can hold: they are
captured as 0 and read from the copies (R180, log 20). -/
def State.capture (s : State) (w : Nat) : Option (Word × Word × Word) :=
    match decodeVF w with
    | none => none
    | some f =>
      let scalar := fun x => match x with | VSrc.s r => if s.inVp then 0 else s.getS r | _ => 0
      let vop := fld w 7 8
      let a := if 0xB0 ≤ vop ∧ vop ≠ 0xB8 then wd (s.pointer f.a) else scalar f.a
      some (a, scalar f.b, scalar f.c)

/-- The head entry of core n's matrix queue waits for convoys (R194, R207). -/
def State.seqWaits (s : State) (n : Nat) : Bool :=
  let m := (s.coreAt n).mat
  match m.queue with
  | [] => false
  | e :: _ =>
    (e.mop == mopMmode && m.mode == .v && modeOfCode (e.f.fx.toNat % 4) != .v && s.convoysBefore n false) ||
      (e.mop == mopMchain && fxBit e.f 1 && s.convoysBefore n true)

/-- A vector slot of the thread in focus waits for the matrix queue, unless the queue itself waits for convoys and none of its
entries is the thread's own (R188, R194). -/
def State.slotWaits (s : State) : Bool :=
  s.matBusy && !(s.seqWaits s.coreId && !s.core.mat.queue.any (fun e => e.slot == s.slot))

/-- The next slot of a convoy, whose words the thread then holds: a vector slot gets its issue record; a matrix slot is posted as it
stands. -/
def State.slotTurn (s : State) (c : Convoy) : Go :=
  match c.slots[c.next]?, c.units[c.next]? with
  | some w, some u =>
    match decodeSlot u.val w.toNat with
    | none => .run (.unassignedEncoding c.next) s
    | some i =>
      if u = 6 then .run i { s with th := { s.th with convoy := some c } }
      else if s.slotWaits then .stall
      else
        let issue : Issue :=
          { hdr := c.hdr, slot := c.next, vl := c.vl, rm := c.rm, prog := 0,
            captured := ({ s with th := { s.th with issue := none } }).capture w.toNat, nowatch := false }
        .run i { s with th := { s.th with issue := some issue, convoy := some { c with next := c.next + 1 } } }
  | _, _ => .done { s with th := { s.th with convoy := none } }

/-- The slot of a convoy in memory that a replay entry names (R376). -/
def slotOf (i : Instr) (slot : Nat) : Option (Instr × BitVec 64) :=
  match i with
  | .convoyIssue units slots =>
    match units[slot]?, slots[slot]? with
    | some u, some w => (decodeSlot u.val w.toNat).map (fun x => (x, w))
    | _, _ => none
  | _ => none

/-- A replay entry is reissued with its captured VL, rounding mode and operands (R376). -/
def State.replayTurn (s : State) (r : Replay) (rest : List Replay) : Go :=
  let (s1, x) := s.fetchAt r.pc.toNat
  match x with
  | .error t => .done (s1.enterTrap t s1.th.pc)
  | .ok (i, _) =>
    if r.vector then
      match slotOf i r.slot with
      | none => .done (s1.enterTrap Cause.illegal s1.th.pc)
      | some (j, _) =>
        let issue : Issue :=
          { hdr := r.pc, slot := r.slot, vl := r.vl, rm := r.rm, prog := r.prog,
            captured := some (r.opa, r.opb, r.opc), nowatch := r.nowatch }
        .run j { s1 with th := { s1.th with issue := some issue, replay := rest } }
    else
      let again := fun (kind : LoadKind) (ty : LdTy) (d : Reg) (imm : BitVec 12) =>
        let (s2, y) := s1.loadWith (!r.nowatch) kind (r.opa + sext imm).toNat (ldBytes ty)
        match y with
        | .error t => Go.done (s2.enterTrap t s2.th.pc)
        | .ok v =>
          Go.done { (s2.setS d (extend (ldSigned ty) (ldBytes ty) v)) with
            th := { (s2.setS d (extend (ldSigned ty) (ldBytes ty) v)).th with replay := rest } }
      match i with
      | .ld ty d _ imm => again .plain ty d imm
      | .ldHome ty d _ imm => again .home ty d imm
      | .ldLast ty d _ imm => again .last ty d imm
      | _ => .done (s1.enterTrap Cause.illegal s1.th.pc)

/-- What stands at a convoy's header is no legal convoy any more: ILLEGAL names the header's address and a slot (R51). -/
def State.badHeader (s : State) (c : Convoy) (slot : Nat) : State :=
  { s with th := { s.th with convoy := none } }.enterTrap { Cause.illegal with felem := wd slot } c.hdr

/-- The header of a convoy whose slots are to be issued from `next` is fetched again (R53, R376). -/
def State.refetchConvoy (s : State) (c : Convoy) : Go :=
  let (s1, x) := s.fetchAt c.hdr.toNat
  match x with
  | .error t => .done (s1.enterTrap t s1.th.pc)
  | .ok (i, _) =>
    match i with
    | .convoyIssue units slots => s1.slotTurn { c with units, slots }
    | .unassignedEncoding n => .done (s1.badHeader c n)
    | _ => .done (s1.badHeader c c.next)

/-- The binding of a slot of the context on this core (R351). -/
def Core.binding (c : Core) (ctx slot : Nat) : Option Binding := c.binds.find? (fun b => b.ctx == ctx && b.slot == slot)

/-- The next micro-operation of the routine that the thread runs: the one that its `rtn` found, which stays as it is while it is in use
(R352, R360, R361). -/
def State.routineTurn (s : State) (r : RtnState) : Go :=
  match s.core.binding r.ctx r.slot.val with
  | none => .done (s.fault (Cause.routineMiss 1 r.slot.val))
  | some b =>
    match b.words with
    | none => .done (s.fault (Cause.routineMiss 2 r.slot.val))
    | some ws =>
      match ws[r.upc]? with
      | none => .done (s.fault (Cause.routineMiss 3 r.slot.val))
      | some w =>
        match decodeMicro w.toNat with
        | none => .done (s.fault Cause.illegal)
        | some (i, f) => .run i { s with th := { s.th with rtn := some { r with cur := f } } }

/-- `RWATCH` ends once another instruction than the one at its address is fetched (R376). -/
def Thread.dropRwatch (t : Thread) : Thread := if t.rwatch = some t.pc then t else { t with rwatch := none }

/-- A convoy's header stands at the PC (R43). -/
def State.atHeader (s : State) : Bool :=
  match (s.fetchParcel s.th.pc.toNat).2 with
  | .ok w => w % 16 == 3
  | .error _ => false

/-- The instruction at the PC. An illegal convoy names its slot and not the VP that reached it (R51, R369). -/
def State.fetchTurn (s0 : State) : Go :=
  let s : State := { s0 with th := s0.th.dropRwatch }
  let (s1, x) := s.fetchAt s.th.pc.toNat
  match x with
  | .error t => .done (s1.fault t)
  | .ok (i, n) =>
    let s2 := { s1 with th := s1.th.vpFetched n }
    match i with
    | .unassignedEncoding _ => .run i (if s2.atHeader then s2.parkVp else s2)
    | _ => .run i s2

/-- A deferred matrix fault that this thread has still to take (R189); none of a task that has ended is taken (R330). -/
def State.owesMfault (s : State) : Option MHeld :=
  match s.core.mat.held, s.core.mat.queue.head? with
  | some h, some e => if h.untaken && e.slot == s.slot && !s.th.ending then some h else none
  | _, _ => none

/-- MFAULT is taken at the poster's next issue, ahead of that instruction (R189, R370, R374); inside a handler it becomes a machine check
(R377), whose return lets the entry go on. -/
def State.takeMfault (s : State) (h : MHeld) : State :=
  let m := s.core.mat
  let s1 := s.setM1 ({ m with held := some { h with untaken := false } }.dropWaits s.slot)
  let s2 := s1.enterTrap (Cause.mfault h.cause (wd (m.gate * 256 + h.cause * 2 ^ 16)) h.addr) s1.th.pc
  s2.setM1 { s2.core.mat with held := s2.core.mat.held.map (fun x => { x with checked := s2.th.level == 2 }) }

/-- The turn of a thread that is in focus and may issue. -/
def State.threadTurn (s : State) : Go :=
  match s.th.wait, s.owesMfault with
  | .queue _ i, _ => .run i s
  | _, some h => .done (s.takeMfault h)
  | _, none =>
    match s.th.issue, s.th.replay, s.th.rtn, s.th.convoy with
    | some i, _, _, some c =>
      if c.slots.isEmpty then s.replayTurn i.entry s.th.replay
      else
        match c.slots[i.slot]?, c.units[i.slot]? with
        | some w, some u =>
          match decodeSlot u.val w.toNat with
          | some x => .run x s
          | none => .run (.unassignedEncoding i.slot) s
        | _, _ => .done { s with th := { s.th with issue := none } }
    | some i, _, _, none => s.replayTurn i.entry s.th.replay
    | none, r :: rest, _, _ => s.replayTurn r rest
    | none, [], some r, _ => s.routineTurn r
    | none, [], none, some c => if c.slots.isEmpty then s.refetchConvoy c else s.slotTurn c
    | none, [], none, none => ({ s with th := s.th.vpTurn } : State).fetchTurn

/-! ## Order with the thread's own matrix instructions (R147, R188) -/

/-- The instruction may write memory that a matrix instruction of its thread reads. -/
def writesMemory (i : Instr) : Bool :=
  match i with
  | .st _ _ _ _ | .vst _ | .vsts _ | .vstx _ | .vstxPeer _ | .szero _ _ | .ust | .amoAdd _ _ _ _ _ _ | .amoMin _ _ _ _ _
  | .amoMax _ _ _ _ _ | .amoAnd _ _ _ _ _ | .amoOr _ _ _ _ _ | .amoXor _ _ _ _ _ | .amoSwap _ _ _ _ _ | .cas _ _ _ _ _
  | .vamoAdd _ | .vamoMin _ | .vamoMax _ | .vamoAnd _ | .vamoOr _ | .vamoXor _ | .vamoSwap _ | .vamoCas _
  | .qpop _ _ _ _ _ | .qsteal _ _ _ _ _ | .qinit _ _ _ => true
  | _ => false

/-- A matrix instruction of the thread in focus that reads memory has still to do so. -/
def State.matReads (s : State) : Bool :=
  s.matBusy && s.core.mat.queue.any (fun e => e.slot == s.slot && (e.mop == mopMldb || e.mop == mopMmulx || e.mop == mopMrprobe))

/-- What a turn executes, unless it has to wait for such an instruction: `s` is the state before the turn. -/
def State.ordered (s : State) (g : Go) : Go :=
  match g with
  | .run i s1 => if s.matReads && writesMemory i then .stall else .run i s1
  | .done s1 => .done s1
  | .stall => .stall

/-! ## Who may issue (R30, R63) -/

/-- A thread that its own state lets take barrel turns in a cycle. -/
def Thread.ready (t : Thread) (now : Nat) : Bool :=
  t.occ && (if t.ending then t.finishing
    else match t.wait with
    | .none => true
    | .pause u => u < now
    | .saving => true
    | .queue _ _ => t.qans.isSome
    | .tbar | .mwait | .stopped _ => false)

/-- A deferred matrix fault gives its poster a turn out of a wait at `tbar` or `mwait` (R189); a pause runs its 16 cycles first (R63).
No other thread that waits is called up (DEDUCED, log 27). -/
def State.calledUp (s : State) (n j : Nat) : Bool :=
  let t := s.threadAt n j
  let m := (s.coreAt n).mat
  t.occ && !t.ending && (match t.wait with
    | .none | .tbar | .mwait | .saving => true
    | .pause _ | .queue _ _ | .stopped _ => false) &&
    (match m.held, m.queue.head? with
      | some h, some e => h.untaken && e.slot.val == j
      | _, _ => false)

/-- Core n issues nothing new on slot j: an interrupt is to be taken (R378), or a sibling waits in its `ctxsave` for the team to stop
(R383). -/
def State.issueStops (s : State) (n j : Nat) : Bool :=
  s.interruptDue n || (s.teamSlots n).any (fun i => i != j && (s.threadAt n i).wait == .saving && (s.threadAt n j).level != 2)

def State.slotReady (s : State) (n j : Nat) : Bool :=
  ((s.threadAt n j).ready s.cycle && !((s.threadAt n j).atBoundary && s.issueStops n j)) || s.calledUp n j

/-- Slots of a core whose threads may issue, from the slot after the last one served. -/
def State.readySlots (s : State) (n : Nat) : List Nat :=
  if !s.enabled n then []
  else
    let last := (s.coreAt n).lastSlot
    [1, 2, 3, 4].filterMap (fun d =>
      let j := (last + d) % 4
      if s.slotReady n j then some j else none)

/-- Nothing runs: the boot halted, or a failure stopped the start (R408, R409). -/
def State.halted (s : State) : Bool := s.boot.mode == 3 || s.boot.stopped

/-- Slot j of core n takes its turn, in focus: a machine check that no thread was there to take comes first (R21, R404). -/
def State.focusTurn (s0 : State) (n j : Nat) : Go :=
  let s := s0.focus n (Fin.ofNat 4 j)
  match s.fab.checks with
  | src :: rest => .done (({ s with fab := { s.fab with checks := rest } } : State).checkThread n (Fin.ofNat 4 j) src)
  | [] =>
    if 0 < s.th.spin then .done { s with th := { s.th with spin := s.th.spin - 1 } }
    else
      let s1 : State := { s with th := s.th.wake }
      s1.ordered s1.threadTurn

/-! ## What the environment does -/

/-- What slot j of core n executes in its next turn, the core's matrix queue on its way to its next gate, or a `ctxsave` that some thread of
the team is about to execute and that reads every register, reads granules of the register at a location (R128, R379). -/
def State.readsGranule (s : State) (n : Nat) (j : Fin 4) (lane loc : Nat) : Bool :=
  let next := fun (k : Nat) => if s.slotReady n k then (match s.focusTurn n k with | .run i u => some (i, u) | .done _ | .stall => none) else none
  (s.threadAt n j.val).occ && (s.queueReads n j lane loc || (next j.val).any (fun p => p.2.instrReads p.1 loc) ||
    (s.teamSlots n).any (fun k => (next k).any (fun p => match p.1 with | .ctxsave _ _ _ _ _ => true | _ => false)))

/-- A move of the environment. A register error that no rebuild mends is found by a read: of a matrix entry, which then does not complete and
whose poster takes the check, or of the instruction that slot `slot` executes next (R128). -/
def State.envMove (s : State) : EnvMove → State
  | .evictL1 n tag => if (s.coreAt n).mayEvict tag then s.evict n tag else s
  | .evictL2 lin => { s with store := (s.store.cleanLine (lin / 128)).wakeLine (lin / 128) }
  | .evictRdc die tag => { s with store := s.store.rdcDrop die tag }
  | .refetch n => let c := s.coreAt n; s.setCore n { c with ibuf := [] }
  | .evictTlb n va => s.dropTlb n va
  | .parity n slot lane loc =>
    if (lane < s.lanes n ∨ lane = 64) ∧ loc < 0x4F ∧ s.readsGranule n slot lane loc = true then s.noteRebuild n lane loc else s
  | .parityFatal n slot sub =>
    if sub = 4 then s.cellsFail n
    else if sub = 3 then s.checkThread n slot 3
    else if sub = 2 ∧ (List.range 0x4F).any (s.queueReads n slot 64) = true then s.entryFails n 2
    else if sub = 2 ∧ (List.range 0x4F).any (s.readsGranule n slot 64) = true then s.checkThread n slot 2
    else s
  | .scalarFixed n => s.noteCorrected n
  | .mediaError lin entry => if (s.mediaLin lin).isSome then s.mediaFails lin entry else s
  | .l1Error n tag i => s.l1Fails n tag i
  | .rdcError die tag i => s.rdcFails die tag i
  | .l2Error lin => if (s.mediaLin lin).isSome then s.l2Fails (lin / 32) else s
  | .receive pa data => s.receivePosted pa data
  | .outsideQueue port op pa e16 lo hi win => s.outsideQueue port op pa e16 lo hi win
  | .hostLoad lin n => if lin + n ≤ 2 ^ 39 ∧ lin % 32 + n ≤ 32 then s.hostLoads lin n else s
  | .hostStore lin data => if lin + data.length ≤ 2 ^ 39 then s.hostStores lin data else s
  | .hostCfgLoad off n =>
    if off + n ≤ 2 ^ 22 then s.setFab { s.fab with hostReply := ((s.cfgLoad 1 off n).getD 0, (s.cfgLoad 1 off n).isNone) } else s
  | .hostCfgStore off n v => if off + n ≤ 2 ^ 22 then (s.cfgStore .host off n v).getD s else s
  | .hostMem addr data =>
    if addr + data.length ≤ 2 ^ 49 then { s with store := { s.store with host := s.store.host.putBytes addr data } } else s
  | .peerMem port addr data =>
    if addr + data.length ≤ 2 ^ 39 then
      { s with store := { s.store with
          peer := assoc s.store.peer port.val (((look s.store.peer port.val).getD []).putBytes addr data) } }
    else s
  | .lag n => { s with lag := min n 64 }

/-! ## The barrel -/

/-- An instruction that may leave its thread as it found it without having waited: a transfer to itself. -/
def mayStand (i : Instr) : Bool :=
  match i with
  | .br _ | .brAny _ _ _ | .brAll _ _ _ | .jal _ _ | .jalr _ _ _ | .loop _ | .vfetch _ _ | .vpjoin | .tret | .uj | .ubeq | .ubne | .ublt
  | .uloop | .uend => true
  | _ => false

/-- The thread is stalled: its turn would leave it waiting where it is, for the matrix queue, a full queue or its siblings (R30). -/
def Go.stalls (g : Go) : Bool :=
  match g with
  | .stall => true
  | .done _ => false
  | .run i s =>
    !mayStand i && (match exec i s with
      | .next s1 => s1.th == s.th
      | .fault _ | .refused _ => false)

/-- The slot that the barrel of core n serves next: the first after the last one served whose thread is neither waiting nor stalled
(R30). -/
def State.nextSlot (s : State) (n : Nat) : Option Nat := (s.readySlots n).find? (fun j => !(s.focusTurn n j).stalls)

/-- A core gives one turn in an SCLK cycle: its next one comes in the next cycle (R30). -/
def State.inNewCycle (s : State) (n : Nat) : State :=
  if (s.coreAt n).issued = s.cycle + 1 then { s with time := (s.cycle + 1) * sclk } else s

/-- Core n has served slot j in this cycle. -/
def State.served (s : State) (n j : Nat) : State := s.setCore n { s.coreAt n with lastSlot := j, issued := s.cycle + 1 }

/-- The slot that core n's next turn goes to, by what its threads may do in the cycle of that turn (R30). -/
def State.turnSlot (s : State) (n : Nat) : Option Nat := (s.inNewCycle n).nextSlot n

/-- Core n gives slot j a barrel turn, when it is the slot that the barrel serves next. -/
def State.runTurn (s : State) (n j : Nat) : Go :=
  if j < 4 ∧ s.halted = false ∧ s.turnSlot n = some j then
    match ((s.inNewCycle n).served n j).focusTurn n j with
    | .stall => .done s
    | g => g
  else .done s

/-- The next core after the last one served that has a thread to run; with none, the time goes on to the next SCLK cycle (log 2). -/
def State.barrel (s : State) : Go :=
  let cores := s.coreNos.filter (fun n => (s.turnSlot n).isSome)
  match (least (cores.filter (fun n => decide (s.coreId < n)))).orElse (fun _ => least cores) with
  | some n => s.runTurn n ((s.turnSlot n).getD 0)
  | none => .done { s with time := (s.cycle + 1) * sclk }

/-! ## Steps that are due (log 2) -/

/-- A step outside every instruction stream, with its arguments. -/
abbrev Due := Option (Instr × Ev)

/-- The NCLK cycle in which a message is due, its place among those due in it, and the step that it takes. -/
def QMsg.due (m : QMsg) : Option ((Nat × Nat × Nat) × Instr) :=
  match m.place, m.path with
  | .held u, _ => some ((u / nclk, 0, m.id), .crossoverHoldExpiry)
  | .moving, _ :: _ => some ((m.at_ / nclk, 2 ^ 40 + m.port, m.id), .queueRouterEntry)
  | .notice, _ => some ((m.at_ / nclk, 2 * 2 ^ 40, m.id), .pairNotice)
  | .ack, _ => some ((m.at_ / nclk, 2 * 2 ^ 40, m.id), .pairAck)
  | .moving, [] => some ((m.at_ / nclk, 3 * 2 ^ 40 + m.turn.2.1, m.id), .queueOpAtHome)
  | .queued, _ | .matched, _ => none

/-- The message whose step comes next. -/
def State.dueMsg (s : State) : Due :=
  let all := s.fab.msgs.filterMap (fun m => (m.due).map (fun d => (d, m.id)))
  match all.foldl (fun (b : Option (((Nat × Nat × Nat) × Instr) × Nat)) x =>
      match b with
      | none => some x
      | some y => if before x.1.1 y.1.1 then some x else some y) none with
  | some ((k, i), id) => if k.1 ≤ s.time / nclk then some (i, { id }) else none
  | none => none

/-- A dirty sector of core n that has waited 256 SCLK cycles (R248). -/
def State.dueSector (s : State) (n : Nat) : Due :=
  (s.coreAt n).l1.findSome? (fun l =>
    if s.cutOff n (homeDie (128 * linLine l.tag)) then none
    else ((List.range 4).find? (fun i => let x := rd l.sec (Fin.ofNat 4 i); x.dmask != 0 && decide (x.since + 256 ≤ s.cycle))).map (fun i =>
      (.dirtyWriteback, { core := n, pa := 128 * l.tag + 32 * i })))

/-- The first of a list of optional steps. -/
def firstDue (l : List Due) : Due := l.findSome? id

/-- What core n owes: write-backs, its timer and interrupt, its barrier, prefetched records, its matrix queue. -/
def State.dueCore (s : State) (n : Nat) : Due :=
  let c := s.coreAt n
  firstDue [
    s.dueSector n,
    if s.timerDue n then some (.timerCompare, { core := n }) else none,
    if s.canInterrupt n then some (.interruptTake, { core := n }) else none,
    if s.barrierFull n then some (.teamBarrierRelease, { core := n }) else none,
    c.rpend.head?.map (fun i => (.mrpfFetchCompletion, { core := n, id := i })),
    if !c.mat.queue.isEmpty && c.mat.held.isNone && !s.seqWaits n then some (.matrixSequence, { core := n }) else none]

/-- What a task of the Lift owes. -/
def State.dueTask (s : State) (t : LTask) : Due :=
  match t.phase with
  | .staging => some (if t.image.isSome then .resumeReleased else .taskStart, { id := t.id })
  | .ending _ => if s.teamDone t.core then some (.taskReclaim, { id := t.id }) else none
  | .outputs => some (.taskReclaim, { id := t.id })
  | .faulted | .pending | .ready | .running => none

/-- The Lift's push of a faulted record. -/
def State.duePush (s : State) : Due :=
  (s.fab.tasks.find? (fun t => t.phase == .faulted && decide (t.tried ≤ s.time) && s.pushMayRun t)).map (fun t => (.faultQueuePush, { id := t.id }))

/-- A segment has a task to place or to refuse. -/
def State.duePlace (s : State) (die : Nat) : Bool :=
  let mine := s.segTasks die
  !mine.isEmpty && (mine.any (fun t => (s.ctxUsable t.ctx).isNone || !s.placeable t) || (s.pickTask die).isSome)

/-- What the Lift owes. -/
def State.dueLift (s : State) : Due :=
  let ready := s.fab.tasks.filter (fun t => t.phase == .ready)
  firstDue [
    s.fab.tasks.findSome? s.dueTask,
    s.fab.groups.head?.map (fun g => (.groupIssue, { id := g.id })),
    if ready.any (fun t => t.gained s.time != t.aged) then some (.liftAging, {}) else none,
    ((List.range 8).find? s.duePlace).map (fun d => (.placeTask, { die := Fin.ofNat 8 d })),
    if s.fab.reported + usec ≤ s.time && ready.any (fun t => s.betterSegment t != t.seg) then some (.segmentReport, {}) else none]

/-- What the engines and the rows on their way owe. -/
def State.dueEngine (s : State) : Due :=
  firstDue [
    (s.fab.cmds.find? (fun c => c.kind == .coll && !s.portsUp c)).map (fun c => (.transferStop, { id := c.id, why := .link })),
    (s.fab.cmds.find? (fun c => c.kind != .coll)).map (fun c => (.engineDecrement, { id := c.id })),
    s.fab.rows.head?.map (fun r => (.mdrainxRowArrival, { id := r.id }))]

/-- A start without `BOOTOK` within 10 s (R408), and a link that has failed three times (R247): its machine check goes to a thread of its die
if there is one. -/
def State.dueModule (s : State) : Due :=
  firstDue [
    if s.boot.starting && decide (watchdogTicks ≤ s.time) then some (.startWatchdog, { facts := s.boot.facts }) else none,
    (s.fab.linkFails.find? (fun f => decide (3 ≤ f.2.2) && !s.fab.linksDown.contains (f.1, f.2.1))).map (fun f =>
      let n := (s.coreNos.find? (fun n => dieOf n == f.1 && !(s.teamSlots n).isEmpty)).getD 1536
      (.linkDown, { die := Fin.ofNat 8 f.1, link := if f.1 < 16 then f.2.1 else if f.1 = 16 then 16 else 24 + f.2.1, core := n
                    slot := s.lowSlot n }))]

def State.due (s : State) : Due :=
  firstDue [s.dueModule, s.duePush, s.dueMsg, s.coreNos.findSome? s.dueCore, s.dueLift, s.dueEngine]

/-- Lines that share a way of a set: the older leaves (R394). -/
def State.dueEvict (s : State) : Option EnvMove :=
  s.coreNos.findSome? (fun n =>
    let l1 := (s.coreAt n).l1
    (l1.reverse.find? (fun l => l1.any (fun x => x.tag != l.tag && x.tag % 64 == l.tag % 64 && x.way == l.way))).map (fun l =>
      .evictL1 n l.tag))

/-! ## The turn of a step -/

/-- The step stands outside every instruction stream: only such a step may stand in the schedule. -/
def isStepInstr (i : Instr) : Bool :=
  match i with
  | .teamBarrierRelease | .pauseExpiry | .matrixSequence | .mdrainxRowArrival | .interruptTake | .timerCompare | .preemptRequest
  | .coreOutOfService | .farAtomicAtHome | .recall | .leaseRequest | .leaseExpiry | .dirtyWriteback | .lastDrop | .bankDrowsy
  | .bankWake | .linkRetry | .linkDown | .queueRouterEntry | .crossoverHoldExpiry | .pairNotice | .pairAck | .queueOpAtHome
  | .placeTask | .taskStart | .taskReclaim | .liftAging | .segmentReport | .groupIssue | .faultQueuePush | .resumeReleased
  | .engineDecrement | .transferStop | .collectiveComplete | .hostAtomic | .hostPostedWrite | .sysregWrite | .mstateRead
  | .carveWrite | .ortableWrite | .leaseWrite | .sscrWrite | .liftContextWrite | .drowsyWrite | .bootclr | .bootok | .moduleReset
  | .startWatchdog | .peerPortDown | .d3hot | .level2McheckReset | .taskEndedAfterTrap | .inputPowerFault | .peerPostedWrite
  | .mrpfFetchCompletion => true
  | _ => false

/-- Slot j of core n takes its turn with its latest loads and slots still under way, each at its element, if the turn traps; a
turn that does not, or whose instruction has to wait for one of them, is as any other (R372, log 46). -/
def State.lateTurn (s : State) (n j : Nat) (progs : List Nat) : Go :=
  let ls := (s.threadAt n j).recent.take progs.length
  match (if j < 4 then s.withFlight n (Fin.ofNat 4 j) progs else none) with
  | none => s.runTurn n j
  | some t =>
    let after := match t.runTurn n j with
      | .run i u => if ls.all (u.issuesBeside i) then (match exec i u with | .next v => some v | .fault _ | .refused _ => none) else none
      | .done v => some v
      | .stall => none
    match after with
    | some v =>
      if progs ≠ [] ∧ (v.threadAt n j).flight = [] ∧ (v.focus n (Fin.ofNat 4 j)).stillThere (ls.zip progs) = true then .done v else s.runTurn n j
    | none => s.runTurn n j

/-- A link of the module is up. -/
def State.linkUp (s : State) (port : Option (Fin 8)) : Bool :=
  match port with
  | none => !s.fab.linksDown.contains (16, 0)
  | some j => s.boot.ports.getLsbD j.val

/-- Slot j of core n takes a turn during which a link goes down, before the accesses of its elements from k up are answered: they raise NOMEM
(R401). A scalar access is element 0. The machine check goes to the next thread (R404, log 49). -/
def State.fallTurn (s : State) (n j : Nat) (port : Option (Fin 8)) (k : Nat) : Go :=
  if s.linkUp port = false then .done s
  else
    let ended := fun (v : State) => (({ v with fab := { v.fab with falling := none } } : State).linkFalls port).report 1536 0 5
    let s1 : State := if k = 0 then s.linkFalls port else { s with fab := { s.fab with falling := some (port, k) } }
    match s1.runTurn n j with
    | .run i u => (match exec i u with | .next v => .done (ended (u.track i v)) | .fault _ | .refused _ => .done s)
    | .done v => .done (ended v)
    | .stall => .done (ended s)

/-- The turn that stands at the head of the schedule. -/
def State.takeTurn (s : State) : Turn → Go
  | .run n j => s.runTurn n j
  | .step i e => if isStepInstr i then .run i { s with ev := e } else .done s
  | .ticks n => .done { s with time := s.time + n }
  | .env m => .done (s.envMove m)
  | .late n j progs => s.lateTurn n j progs
  | .falls n j port k => s.fallTurn n j port k

/-- A turn in which no core sends a request: a drop on its way may still be on its way after it (R246, R261). -/
def Turn.leavesDrops : Turn → Bool
  | .step .lastDrop _ | .step .hostAtomic _ | .step .hostPostedWrite _ | .step .peerPostedWrite _ | .step .farAtomicAtHome _ | .ticks _ => true
  | .env (.evictL1 _ _) => false
  | .env _ => true
  | .run _ _ | .step _ _ | .late _ _ _ | .falls _ _ _ _ => false

/-- What the next step does: the head of the schedule, before which the drops on their way reach their homes; else such a drop, a
line that has to leave, a step that is due, the barrel. -/
def State.nextTurn (s : State) : Go :=
  match s.schedule with
  | t :: ts =>
    let s1 : State := { s with schedule := ts }
    (if t.leavesDrops then s1 else s1.settleDrops).takeTurn t
  | [] =>
    match s.fab.drops, s.dueEvict, s.due with
    | line :: _, _, _ => .run .lastDrop { s with ev := { pa := 128 * line } }
    | [], some m, _ => .done (s.envMove m)
    | [], none, some (i, e) => .run i { s with ev := e }
    | [], none, none => s.barrel

end Sys2Proof.Machine
end

