-- ==== Sys2Proof/Machine/Step.lean ====
section
/-! DEFINITION. The step of the machine, and the placing of an instruction where the next step runs it (log 2, log 8). -/

namespace Sys2Proof.Machine

/-- One turn: what `nextTurn` chooses is executed, and after an instruction of a thread its record of what may be under way follows (R372).
A halted module with nothing scheduled stops (R408, R409). -/
def step (s : State) : Host.Outcome State Fault Refusal :=
  let s0 := { s with seq := s.seq + 1 }
  if s0.halted && s0.schedule.isEmpty then .fault .bootHalted
  else
    match s0.nextTurn with
    | .run i s1 => (match exec i s1 with
      | .next t => .next (if isStepInstr i then t else s1.track i t)
      | .fault f => .fault f
      | .refused r => .refused r)
    | .done s1 => .next s1
    | .stall => .next s0

/-! ## Placing an instruction -/

/-- Where the placed instruction stands: the virtual and the physical address are one. -/
def placedAt : Nat := 0x1000

/-- A page table that maps the first 1 GiB onto itself with every right: its root and the table below. -/
def placedRoot : Nat := 0x100000
def placedTable : Nat := 0x200000

/-- A micro-operation runs from a routine store that holds it alone. -/
def placedRtn : RtnState :=
  { ctx := 0, slot := 0, upc := 0, lc := 0, h := Vector.replicate 8 0, rm := .rne, d := 0, a := 0, b := 0, imm := 0, cur := {} }

/-- The thread in focus, about to run at `placedAt`, at level 2. -/
def Thread.placed (t : Thread) (rtn : Option RtnState) : Thread :=
  { t with
    occ := true, pc := wd placedAt, level := 2, imask := true, convoy := none, issue := none, replay := [], rtn, vp := none, rwatch := none
    wait := .none, spin := 0, qans := none, polling := none, ending := false, mcStop := none, recent := [], flight := [] }

/-- The module with the thread in focus about to run the instruction whose low bits are w, every bit above nbits being zero: its bytes and
the page table in memory, the thread running, its turn scheduled. -/
def State.withFetchWord (s : State) (nbits w : Nat) : State :=
  let x := w % 2 ^ nbits
  let micro := match decodeBytes (leBytes 60 x) with
    | some (.unassignedEncoding _, _) => (decodeMicro (x % 2 ^ 32)).isSome
    | _ => false
  let c := s.core
  let bind : Binding := { ctx := c.sys.ctxid.toNat, slot := 0, image := 0, words := some [BitVec.ofNat 32 x] }
  let s1 : State := { s with
    th := s.th.placed (if micro then some { placedRtn with ctx := c.sys.ctxid.toNat } else none)
    core := { c with
      sys := { c.sys with ptroot := wd placedRoot }, mat := .reset, tlb := [], ibuf := []
      binds := if micro then [bind] else c.binds, lastSlot := (s.slot.val + 3) % 4, issued := 0 }
    store := { s.store with l2tlb := [] }
    fab := { s.fab with checks := [], drops := [], falling := none }
    boot := { s.boot with mode := 0, stopped := false }
    harvest := s.harvest.filter (fun h => h.1 != s.coreId)
    schedule := [.run s.coreId s.slot.val] }
  let s2 := (s1.homeWrite placedAt 32 (x % 256 ^ 32) false).homeWrite (placedAt + 32) 32 (x / 256 ^ 32) false
  (s2.homeWrite placedRoot 32 (placedTable + 1) false).homeWrite placedTable 32 0x1F false

end Sys2Proof.Machine
end

