-- ==== Sys2Proof/Safety.lean ====
section
/-! DEFINITION. The terms in which claims are made: a completed instruction, the bytes of memory as a thread reads them, and what
an instruction leaves as it was. -/

namespace Sys2Proof.Machine

/-- The outcome is a next state, and P holds of it. -/
def Completes (o : Out) (P : State → Prop) : Prop := ∃ t, o = .next t ∧ P t

/-- The byte that a plain one-byte load of the thread in focus would get at a place: an offset of its core's scratchpad, or a
physical address of device memory, host memory, a peer or configuration space. -/
def State.byteAt (s : State) (tg : Target) : Nat := (s.readAt .plain tg 1).2.1

/-- Every byte of memory, at every place, reads as before. -/
def SameBytes (s t : State) : Prop := ∀ tg, t.byteAt tg = s.byteAt tg

/-- From s to t only the thread in focus has changed, and no byte of memory. -/
structure OnlyThread (s t : State) : Prop where
  rest : t = { s with th := t.th }
  bytes : SameBytes s t

/-- `s[d] := v`, the PC moves past n bytes, and nothing else changes; a write to `s0` is discarded. -/
structure WritesS (s : State) (d : Reg) (v : Word) (n : Nat) (t : State) : Prop where
  value : t.getS d = if d = 0 then 0 else v
  others : ∀ r, r ≠ d → t.getS r = s.getS r
  thread : t.th = { s.th with s := t.th.s, pc := s.th.pc + wd n }
  only : OnlyThread s t

/-- `k[d] := v`, the PC moves past n bytes, and nothing else changes; a write to `k0` is discarded. -/
structure WritesK (s : State) (d : KReg) (v : Word) (n : Nat) (t : State) : Prop where
  value : t.getK d = if d = 0 then BitVec.allOnes 64 else v
  others : ∀ r, r ≠ d → t.getK r = s.getK r
  thread : t.th = { s.th with k := t.th.k, pc := s.th.pc + wd n }
  only : OnlyThread s t

/-- The PC becomes `pc`, and nothing else changes. -/
structure GoesTo (s : State) (pc : Word) (t : State) : Prop where
  thread : t.th = { s.th with pc }
  only : OnlyThread s t

/-- `s[d] := v` and the PC becomes `pc`, and nothing else changes. -/
structure Links (s : State) (d : Reg) (v pc : Word) (t : State) : Prop where
  value : t.getS d = if d = 0 then 0 else v
  others : ∀ r, r ≠ d → t.getS r = s.getS r
  thread : t.th = { s.th with s := t.th.s, pc }
  only : OnlyThread s t

/-- What an access to memory may change beside the bytes it stores: of every core its L1 lines, its predictor, its record of
write-backs, its TLB and its pending bits; the homes and their watchpoints; PENDING tasks that become READY; the count of free
values. No thread, no register and no other state. -/
structure MemOnly (s t : State) : Prop where
  rest : t = { s with
    core := t.core, others := t.others, store := t.store, fab := { s.fab with tasks := t.fab.tasks }, free := t.free }
  cores : ∀ n, t.coreAt n = { s.coreAt n with
    l1 := (t.coreAt n).l1, pred := (t.coreAt n).pred, sent := (t.coreAt n).sent, tlb := (t.coreAt n).tlb
    sys := { (s.coreAt n).sys with ipend := (t.coreAt n).sys.ipend } }

/-- `MemOnly`, but that drops of last-use loads have been put on their way to their homes (R261). -/
structure MemAndDrops (s t : State) : Prop where
  mem : MemOnly s { t with fab := { t.fab with drops := s.fab.drops } }
  drops : ∃ ds, t.fab.drops = s.fab.drops ++ ds

/-- `MemOnly`, but that a watchpoint may have used up `RWATCH` (R376). -/
structure AccessOnly (s t : State) : Prop where
  rest : t = { s with
    th := { s.th with rwatch := t.th.rwatch }
    core := t.core, others := t.others, store := t.store, fab := { s.fab with tasks := t.fab.tasks }, free := t.free }
  cores : ∀ n, t.coreAt n = { s.coreAt n with
    l1 := (t.coreAt n).l1, pred := (t.coreAt n).pred, sent := (t.coreAt n).sent, tlb := (t.coreAt n).tlb
    sys := { (s.coreAt n).sys with ipend := (t.coreAt n).sys.ipend } }

/-- A rounded result: `s[d]` gets its code, zero above its width; its flags stick in `VSTATE.FX`; the thread's generator steps when a
value was drawn; the PC moves past 4 bytes; nothing else changes. -/
structure WritesF (s : State) (d : Reg) (v : Word) (fx : BitVec 5) (drew : Bool) (t : State) : Prop where
  value : t.getS d = if d = 0 then 0 else v
  others : ∀ r, r ≠ d → t.getS r = s.getS r
  thread : t.th = { s.th with
    s := t.th.s, pc := s.th.pc + 4, vec := { s.th.vec with fx := s.th.vec.fx ||| fx }
    gen := if drew then genStep s.th.gen else s.th.gen }
  only : OnlyThread s t

/-- The value of a load of n bytes, sign- or zero-extended to 64 bits (R145). -/
def loaded (signed : Bool) (n v : Nat) : Word :=
  if signed ∧ 2 ^ (8 * n - 1) ≤ v then BitVec.ofInt 64 (v - (2 ^ (8 * n) : Nat)) else BitVec.ofNat 64 v

/-- The place q holds none of the n bytes at another: other bytes of the scratchpad, or an address that reaches none of them. Under the
other alias of a line that the core holds exclusive nothing is said. -/
def Outside (s : State) (q at_ : Target) (n : Nat) : Prop :=
  match at_, q with
  | .spad o, .spad p => p < o ∨ o + n ≤ p
  | .mem pa _, .mem a _ => (∀ i, i < n → s.place a ≠ s.place (pa + i)) ∧
    (a / 128 = pa / 128 ∨ linLine (a / 128) ≠ linLine (pa / 128) ∨ linOf pa = none ∨
      (s.core.line (pa / 128)).any (·.excl) = false)
  | .spad _, .mem _ _ => True
  | .mem _ _, .spad _ => True

/-- A place that holds bytes of a memory: the scratchpad, device memory behind an L1 that has ways, host memory, a peer; its n bytes
aligned, as those of an aligned virtual address are in every page. -/
def State.Plain (s : State) (tg : Target) (n : Nat) : Prop :=
  match tg with
  | .spad _ => True
  | .mem pa _ => pa % n = 0 ∧ s.core.ways ≠ 0 ∧ (∀ off, s.place pa ≠ .cfg off)

/-- The memories that an access of the thread in focus writes are in canonical form. -/
def State.MemoriesWf (s : State) : Prop :=
  s.core.spad.wf = true ∧ s.store.host.wf = true ∧ ∀ j, ((look s.store.peer j).getD []).wf = true

/-! ## Slots of a convoy -/

/-- Element i of a vector register at a width in bits. -/
def State.velem (s : State) (r : VReg) (bits i : Nat) : Nat := getBits (s.vreg r).data (i * bits) bits

/-- What an instruction writes to element i: g i where i is below VL and active, else nothing. -/
def State.onActive (s : State) (f : VF) (g : Nat → Nat) (i : Nat) : Option Nat :=
  if i < s.vl ∧ s.active f.msk i = true then some (g i) else none

/-- The flags that the active elements raise. -/
def State.allFx (s : State) (f : VF) (g : Nat → BitVec 5) : BitVec 5 := (s.actives f).foldl (fun x i => x ||| g i) 0

/-- What a slot leaves outside the vector state: it has finished, its convoy goes on or has ended, its lanes have been busy; generators
of lanes may have stepped; no memory has changed. -/
structure SlotOnly (s t : State) : Prop where
  thread : t.th = { s.th with
    vec := t.th.vec, laneBusy := t.th.laneBusy, issue := none, convoy := t.th.convoy, s := t.th.s }
  convoy : t.th.convoy = s.th.convoy ∨ t.th.convoy = none
  rest : t = { s with th := t.th, core := { s.core with laneGen := t.core.laneGen }, free := t.free }
  bytes : SameBytes s t

/-- A slot of unit u has written v[d]: element i is what w gives, or as it was; the register is no longer tagged when it wrote; the
unit's latch holds the last group of v[d] when VL is not 0; the flags stick; no other register, mask, entry or latch changes. -/
structure SlotWritesV (s : State) (u : Fin 7) (d : VReg) (bits : Nat) (fx : BitVec 5) (w : Nat → Option Nat) (t : State) :
    Prop where
  elems : ∀ i, t.velem d bits i = match w i with | some x => x % 2 ^ bits | none => s.velem d bits i
  tag : ∀ i x, w i = some x → (t.vreg d).tag = false
  others : ∀ r, r ≠ d → t.vreg r = s.vreg r
  latch : rd t.th.vec.lat u = if s.vl = 0 then rd s.th.vec.lat u else t.group d (s.lastGroup bits)
  vec : t.th.vec = { s.th.vec with v := t.th.vec.v, lat := wr s.th.vec.lat u (rd t.th.vec.lat u), fx := s.th.vec.fx ||| fx }
  scalars : t.th.s = s.th.s
  only : SlotOnly s t

/-- A slot has written m[d]: bit i is g i for an active element, as it was for an inactive one below VL, 0 from VL on. -/
structure SlotWritesM (s : State) (d : Fin 8) (msk : Option (Fin 8)) (fx : BitVec 5) (g : Nat → Bool) (t : State) : Prop where
  bits : ∀ i, bit (t.mask d) i = if i < s.vl then (if s.active msk i then g i else bit (s.mask d) i) else false
  vec : t.th.vec = { s.th.vec with m := wr s.th.vec.m d (t.mask d), fx := s.th.vec.fx ||| fx }
  scalars : t.th.s = s.th.s
  only : SlotOnly s t

/-- The condition of a `cmp` suffix on two words: `lt` and `ge` compare as signed, `ltn` and `gen` as unsigned (R141). -/
def Means : Cond → Word → Word → Prop
  | .eq, a, b => a = b
  | .ne, a, b => a ≠ b
  | .lt, a, b => a.toInt < b.toInt
  | .ge, a, b => b.toInt ≤ a.toInt
  | .ltn, a, b => a.toNat < b.toNat
  | .gen, a, b => b.toNat ≤ a.toNat

/-- The number of one bits of b below position i. -/
def onesBelow (b : Word) (i : Nat) : Nat := ((List.range i).filter (fun j => b.getLsbD j)).length

/-! ## Rounding -/

/-- How the magnitude num / den × 2^k compares with p / q. -/
def cmpMag (num den : Nat) (k : Int) (p q : Nat) : Ordering :=
  compare (num * 2 ^ k.toNat * q) (p * den * 2 ^ (-k).toNat)

/-- The magnitude of a magnitude code, unbounded above, in units of the least subnormal (R94–R96, R107): the set G. -/
def Fmt.units (f : Fmt) (c : Nat) : Nat :=
  if c / 2 ^ f.t = 0 then c else (2 ^ f.t + c % 2 ^ f.t) * 2 ^ (c / 2 ^ f.t - 1)

/-- The exponent of that unit. -/
def Fmt.unitExp (f : Fmt) : Int := 1 - (f.bias : Int) - f.t

/-- A magnitude between its neighbours A / d and B / d goes to B, away from zero (R107): `odd` is bit 0 of the encoding of A, `cmp`
compares the magnitude with a fraction. -/
def GoesUp (mode : Rm) (neg odd : Bool) (rnd A B d : Nat) (cmp : Nat → Nat → Ordering) : Prop :=
  cmp A d ≠ .eq ∧
    match mode with
    | .rne => cmp (A + B) (2 * d) = .gt ∨ cmp (A + B) (2 * d) = .eq ∧ odd = true
    | .rtz => False
    | .rup => neg = false
    | .rdn => neg = true
    | .rst => cmp (A * 2 ^ 16 + (B - A) * (2 ^ 16 - rnd)) (d * 2 ^ 16) ≠ .lt

/-- The rounded value is tiny (R104): the magnitude is below the least normal, and at unbounded exponent range does not round up to it. -/
def Fmt.Tiny (f : Fmt) (mode : Rm) (neg : Bool) (rnd : Nat) (cmp : Nat → Nat → Ordering) : Prop :=
  let last := 2 ^ (f.t + 1) - 1
  cmp (2 ^ f.t) 1 = .lt ∧ ¬ (cmp last 2 ≠ .lt ∧ GoesUp mode neg (decide (0 < f.t)) rnd last (last + 1) 2 cmp)

/-- `FitRange` (R110) and the flags (R104) for a nonzero finite value whose magnitude has been rounded to the code g. -/
def Fmt.fit (f : Fmt) (mode : Rm) (sat neg : Bool) (g : Nat) (exact tiny : Bool) : Nat × BitVec 5 :=
  let nx : BitVec 5 := if exact then 0 else 1
  let uf : BitVec 5 := if tiny then 2 else 0
  let most := (f.pack neg f.maxCode, (5 : BitVec 5))
  if g = 0 then (f.pack neg 0, nx ||| if exact then 0 else uf)
  else if neg ∧ f.signed = false then (if sat then (0, 1 ||| uf) else (f.nan, 16))
  else if g ≤ f.maxCode then (f.pack neg g, nx ||| if exact then 0 else uf)
  else if sat then most
  else
    match f.infCode with
    | none => (f.nan, 21)
    | some ic => if mode = .rtz ∨ mode = .rdn ∧ neg = false ∨ mode = .rup ∧ neg = true then most else (f.pack neg ic, 5)

/-- r is `RoundToFormat` of a nonzero finite value of this sign whose magnitude, in units of the least subnormal, `cmp` compares with
fractions (R104, R107, R108, R110). -/
def Fmt.Rounds (f : Fmt) (mode : Rm) (sat : Bool) (rnd : Nat) (neg : Bool) (cmp : Nat → Nat → Ordering) (r : Rounded) : Prop :=
  ∃ (a g : Nat) (exact tiny : Bool),
    cmp (f.units a) 1 ≠ .lt ∧ cmp (f.units (a + 1)) 1 = .lt ∧ (exact = true ↔ cmp (f.units a) 1 = .eq) ∧
    (g = a + 1 ∧ GoesUp mode neg (decide (a % 2 = 1)) rnd (f.units a) (f.units (a + 1)) 1 cmp ∨
      g = a ∧ ¬ GoesUp mode neg (decide (a % 2 = 1)) rnd (f.units a) (f.units (a + 1)) 1 cmp) ∧
    (tiny = true ↔ f.Tiny mode neg rnd cmp) ∧ (r.code, r.fx) = f.fit mode sat neg g exact tiny ∧
    (r.drew = true ↔ exact = false ∧ mode = .rst)

/-- r is the rounding to an integer of w bits of a finite value of this sign whose magnitude `cmp` compares with fractions (R107, R110). -/
def RoundsInt (signed : Bool) (w : Nat) (mode : Rm) (sat : Bool) (rnd : Nat) (neg : Bool) (cmp : Nat → Nat → Ordering) (r : Rounded) :
    Prop :=
  let lo : Int := if signed then -(2 ^ (w - 1)) else 0
  let hi : Int := if signed then 2 ^ (w - 1) - 1 else 2 ^ w - 1
  ∃ (a g : Nat) (v : Int),
    cmp a 1 ≠ .lt ∧ cmp (a + 1) 1 = .lt ∧ v = (if neg then -(g : Int) else g) ∧
    (g = a + 1 ∧ GoesUp mode neg (decide (a % 2 = 1)) rnd a (a + 1) 1 cmp ∨
      g = a ∧ ¬ GoesUp mode neg (decide (a % 2 = 1)) rnd a (a + 1) 1 cmp) ∧
    (lo ≤ v ∧ v ≤ hi → r.code = (v % 2 ^ w).toNat ∧ r.fx = if cmp a 1 = .eq then 0 else 1) ∧
    (v < lo ∨ hi < v → r.fx = 16 ∧ r.code = if sat then (max lo (min hi v) % 2 ^ w).toNat else if signed then 2 ^ (w - 1) else 2 ^ w - 1) ∧
    (r.drew = true ↔ cmp a 1 ≠ .eq ∧ mode = .rst)

/-! ## Routines -/

/-- A micro-operation has written v to operand x of routine r, which goes on; nothing else has changed. -/
structure MicroWrites (s : State) (r : RtnState) (x : UOpd) (v : Word) (t : State) : Prop where
  rtn : t.th.rtn = some { r with
    upc := r.upc + 1
    h := match x with | .h i => wr r.h i v | _ => r.h
    lc := match x with | .lc => v | _ => r.lc }
  regs : ∀ q, t.getS q = if q ≠ 0 ∧ (x = .xd ∧ q = r.d ∨ x = .xa ∧ q = r.a ∨ x = .xb ∧ q = r.b) then v else s.getS q
  thread : t.th = { s.th with s := t.th.s, rtn := t.th.rtn }
  only : OnlyThread s t

/-- A vector micro-operation has written g i to the elements i of group j of v[d], g0 of them, and the routine goes on; the flags
stick, generators of lanes may have stepped, and nothing else has changed. -/
structure MicroWritesV (s : State) (r : RtnState) (j g0 : Nat) (fx : BitVec 5) (g : Nat → Nat) (t : State) : Prop where
  elems : ∀ i, t.velem r.cur.v.vd r.cur.v.ty.bits i =
    if j * g0 ≤ i ∧ i < (j + 1) * g0 then g i % 2 ^ r.cur.v.ty.bits else s.velem r.cur.v.vd r.cur.v.ty.bits i
  others : ∀ q, q ≠ r.cur.v.vd → t.vreg q = s.vreg q
  thread : t.th = { s.th with
    vec := { s.th.vec with v := t.th.vec.v, fx := s.th.vec.fx ||| fx }, rtn := some { r with upc := r.upc + 1 } }
  rest : t = { s with th := t.th, core := { s.core with laneGen := t.core.laneGen } }
  bytes : SameBytes s t

/-! ## Matrix queue -/

/-- A matrix instruction with fields f has been posted: its entry, with what it read at posting (in a convoy, the VL and rounding
mode are its header's, R155), is the last of the queue; a slot has left its convoy, and any other instruction the PC has passed;
nothing else has changed. `pair` says that it reads s[S + 1]. -/
structure Posts (s : State) (mop : Nat) (f : MF) (pair : Bool) (t : State) : Prop where
  entry : ∃ e, t.core.mat = { s.core.mat with queue := s.core.mat.queue ++ [e] } ∧ e.mop = mop ∧ e.f = f ∧ e.slot = s.slot ∧
    (match s.th.convoy with | some c => e.vl = c.vl ∧ e.rm = c.rm | none => e.vl = s.th.vec.vl ∧ e.rm = s.th.vec.rm) ∧
    e.level = s.th.level ∧ e.sv = s.getS f.s ∧ (pair = true → e.sv1 = s.getS (f.s + 1)) ∧
    (f.kr ≠ 0 → e.kr = s.getK f.kr) ∧ (f.kc ≠ 0 → e.kc = s.getK f.kc) ∧ (f.kd ≠ 0 → e.kd = s.getK f.kd)
  long : s.th.convoy = none → t.th = { s.th with pc := s.th.pc + 8 }
  slot : ∀ c, s.th.convoy = some c →
    t.th = { s.th with convoy := if c.slots.length ≤ c.next + 1 then none else some { c with next := c.next + 1 } }
  rest : t = { s with th := t.th, core := { s.core with mat := t.core.mat } }

/-- Byte b of a register of the thread in slot j of core c. -/
def State.regByte (s : State) (c j : Nat) (r : VReg) (b : Nat) : Nat := getB (rd (s.threadAt c j).vec.v r).data b 1

/-- A tile lies within its owner's registers (R184, R196). -/
def State.HoldsTile (s : State) (c : Nat) (q : TShape) : Prop :=
  let len := (s.threadAt c q.owner.val).vec.vlen
  0 < len ∧ len % 64 = 0 ∧ q.base.val * len + 4 * q.rows * q.cols ≤ 64 * len

/-- On core c each element of a tile has become what w gives, or is as it was; no other byte of its owner's registers has changed, nothing
else of that thread, and no other thread of the core. -/
structure TileWrites (s : State) (c : Nat) (q : TShape) (w : Nat → Nat → Option Nat) (t : State) : Prop where
  elems : ∀ r n, r < q.rows → n < q.cols →
    t.tileElem c q r n = match w r n with | some x => x % 2 ^ 32 | none => s.tileElem c q r n
  bytes : ∀ (v : VReg) b, let len := (s.threadAt c q.owner.val).vec.vlen
    let at_ := v.val * len + b
    b < len → (at_ < q.base.val * len ∨ q.base.val * len + 4 * q.rows * q.cols ≤ at_) →
      t.regByte c q.owner.val v b = s.regByte c q.owner.val v b
  owner : t.threadAt c q.owner.val =
    { s.threadAt c q.owner.val with vec := { (s.threadAt c q.owner.val).vec with v := (t.threadAt c q.owner.val).vec.v } }
  others : ∀ j, j < 4 → j ≠ q.owner.val → t.threadAt c j = s.threadAt c j

/-- A mask of a matrix instruction: field 0 masks nothing, else bit i of the register, from 64 on of the next (R185). -/
def matOn (f : KReg) (lo hi : Word) (i : Nat) : Bool := f == 0 || if i < 64 then lo.getLsbD i else hi.getLsbD (i - 64)

/-- Rounding to nearest even into `.f32`, as a value (R113). -/
def rneValue (x : Val) : Val := (fmtOf .f32).decode (roundFloat (fmtOf .f32) .rne false 0 x).code

/-- An `.f32` code after a value has been added to it (R114). -/
def f32Plus (code : Nat) (x : Val) : Nat :=
  (roundFloat (fmtOf .f32) .rne false 0 (Val.add false ((fmtOf .f32).decode code) x).v).code

/-- The exact sum of a list of values (R113). -/
def sumOf : List Val → Val
  | [] => .fin false 0 0 false
  | x :: xs => xs.foldl (fun a y => (Val.add false a y).v) x

/-- What group q of the K elements adds: the exact sum of its products, times the product of the two scales for `.mxf4`, rounded once; an
absent element makes its product +0, and a group of `.mxf4` with no product adds +0 (R113–R115). -/
def groupAdds (ty : ETy) (a b : Nat → Option Val) (sa sb : Nat → Nat) (q : Nat) : Val :=
  let term := fun k => match a k, b k with
    | some x, some y => (Val.mul x y).v
    | _, _ => Val.fin false 0 0 false
  if ty = .mxf4 then
    let ks := (List.range 32).map (fun i => 32 * q + i)
    if ∀ k ∈ ks, a k = none ∨ b k = none then .fin false 0 0 false
    else
      rneValue (if sa q = 255 ∨ sb q = 255 then .nan false else (sumOf (ks.map term)).scale ((sa q : Int) - 127 + ((sb q : Int) - 127)))
  else rneValue (sumOf ((List.range (64 / ty.bits)).map (fun i => term (64 / ty.bits * q + i))))

/-- The partial sum of a result element over its cells, one group a cell, for `.mxf4` one a pair of cells (R114). -/
def partialSum (ty : ETy) (cells : Nat) (a b : Nat → Option Val) (sa sb : Nat → Nat) : Val :=
  (List.range (if ty = .mxf4 then cells / 2 else cells)).foldl
    (fun x q => rneValue (Val.add false x (groupAdds ty a b sa sb q)).v) (.fin false 0 0 false)

/-- Element k, below klen, of a row of n bytes at an offset of a group of registers. -/
def State.rowValue (s : State) (ty : ETy) (base off n klen k : Nat) : Option Val :=
  if k < klen then some (tyVal ty (getBits (s.th.group base off n) (k * ty.bits) ty.bits)) else none

/-- What a row of A at an offset adds to column n under the latches given (R114, R199). -/
def State.rowTimes (s : State) (e : MEntry) (lat : List LatCol) (bty : ETy) (off n : Nat) : Val :=
  let bytes := if s.core.mat.chain = 3 then 1024 else 512
  let klen := if e.f.kd = 0 then bytes * 8 / e.f.ty.bits else e.kd.toNat % 2 ^ 11
  let c := lat.getD n { data := 0, loaded := 0, scales := 0 }
  partialSum e.f.ty (bytes / 8) (s.rowValue e.f.ty e.f.a.val off e.sv.toNat klen)
    (fun k => if bit c.loaded k then some (tyVal bty (getBits c.data (k * bty.bits) bty.bits)) else none)
    (fun q => s.th.groupScale e.f.a.val (off + 16 * q) (fun _ => 0)) (fun q => getB c.scales q 1)

/-! ## Atomics -/

/-- The new value of an atomic, none where it writes nothing: integers modulo their width and by their signedness, the floating types as
R102, R107, R110 and R148 have them, `rnd` the draw of a stochastic add (R301). -/
def amoValue (op : AmoOp) (ty : ETy) (sr : Bool) (rnd old v expect : Nat) : Option Nat :=
  let fm := fmtOf ty
  let x := fm.decode old
  let y := fm.decode v
  let below := Val.lt y x || (Val.eq y x && y.isNeg && !x.isNeg)
  let picked := fun (mine : Bool) =>
    if x.isNan then (if y.isNan then fm.nan else v) else if y.isNan then old else if mine then v else old
  match op with
  | .add => some (
    if ty.isInt then (old + v) % 2 ^ ty.bits
    else (roundExact fm (if sr then .rst else .rne) false rnd (Val.add false x y)).code)
  | .min => some (if ty.isInt then (if tyInt ty v < tyInt ty old then v else old) else picked below)
  | .max => some (if ty.isInt then (if tyInt ty old < tyInt ty v then v else old) else picked !below)
  | .and => some (old &&& v)
  | .or => some (old ||| v)
  | .xor => some (old ^^^ v)
  | .swap => some v
  | .cas => if old = expect then some v else none

/-- A stochastic add of these has drawn (R107, R109). -/
def amoDraws (op : AmoOp) (ty : ETy) (sr : Bool) (rnd old v : Nat) : Bool :=
  op == .add && !ty.isInt &&
    (roundExact (fmtOf ty) (if sr then .rst else .rne) false rnd (Val.add false ((fmtOf ty).decode old) ((fmtOf ty).decode v))).drew

/-- The byte at a linear address as an atomic of the core in focus through line `tag` finds it: the core's own where it holds the line
exclusive or a thread of it has stored the byte, else memory's. -/
def State.ownByte (s : State) (tag x : Nat) : Nat :=
  match s.core.line tag with
  | some l =>
    if l.excl = true ∨ (rd l.sec (Fin.ofNat 4 (x / 32))).dmask.getLsbD (x % 32) = true then getB l.data (x % 128) 1
    else (s.homeByte x).toNat
  | none => (s.homeByte x).toNat

/-- The byte at a linear address that a thread of the core in focus has stored through line `tag` and that its L1 alone still holds. -/
def State.dirtyByte (s : State) (tag x : Nat) : Option Nat :=
  match s.core.line tag with
  | some l => if (rd l.sec (Fin.ofNat 4 (x / 32))).dmask.getLsbD (x % 32) = true then some (getB l.data (x % 128) 1) else none
  | none => none

/-- A byte after a value of n bytes, or none, has been written at `at_`. -/
def after (new : Option Nat) (at_ n x old : Nat) : Nat :=
  match new with
  | some v => if at_ ≤ x ∧ x < at_ + n then getB v (x - at_) 1 else old
  | none => old

/-! ## Homes and translation -/

/-- A line at its home with nothing in the way of a write: no core holds it exclusive, and no PENDING record, which such a write could make
READY, lies in it. -/
def State.Settled (s : State) (line : Nat) : Prop :=
  (∀ n, (s.coreAt n).exclLine line = none) ∧ ∀ k ∈ s.fab.tasks, k.phase = .pending → k.rec_ / 128 ≠ line

/-- No byte of device memory has changed but those that `at_` names. Where L2 held no sector of a line of `ls` before, another line of its
set may have left for the media, and nothing is said of the lines of that set (R250). -/
def HomeFrame (s t : State) (ls : List Nat) (at_ : Nat → Prop) : Prop :=
  ∀ x, ¬ at_ x → (∀ l ∈ ls, (∃ y ∈ s.store.l2, y.addr / 4 = l) ∨ x / 128 = l ∨ l2Set (x / 128) ≠ l2Set l) → t.homeByte x = s.homeByte x

/-- The bytes of an object with cap entries of size bytes lie within one window, outside the metadata bytes (R305). -/
def State.InOneWindow (s : State) (pa cap size : Nat) : Prop :=
  let e := pa + 128 + cap * size - 1
  (∃ x, s.place pa = .media x) ∧ (∃ y, s.place e = .media y) ∧ (pa < 2 ^ 39 → e < 2 ^ 39 ∧ pa / 2 ^ 36 = e / 2 ^ 36)

/-- An entry of a page table points to the next table (R388). -/
def PointsOn (e : Nat) : Prop := bit e 0 = true ∧ bit e 1 = false ∧ bit e 2 = false ∧ bit e 3 = false

/-- A valid entry of a table of a level, for an address, is malformed (R388). -/
def Malformed (e va level : Nat) : Prop :=
  let pa := getBits e 12 40 * 4096
  getBits e 52 12 ≠ 0 ∨ getBits e 9 3 ≠ 0 ∨ getBits e 5 2 ≠ 0 ∨
    (PointsOn e ∧ (level = 3 ∨ bit e 7 = true)) ∨
    (¬ PointsOn e ∧ (level = 0 ∨ (bit e 2 = true ∧ bit e 1 = false) ∨
      (bit e 7 = false ∧ ((level = 1 ∧ pa % 2 ^ 30 ≠ 0) ∨ (level = 2 ∧ pa % 2 ^ 21 ≠ 0))) ∨
      (bit e 7 = true ∧ (level ≠ 3 ∨ ∀ k, pa ≠ 65536 * k + 4096 * getBits va 12 4))))

/-- The address of the entry for va in a table of a level (R387). -/
def entryAddr (tab va level : Nat) : Nat :=
  tab + 8 * (if level = 0 then getBits va 39 17 else if level = 1 then getBits va 30 9 else if level = 2 then getBits va 21 9
    else getBits va 12 9)

/-- The walk for va comes to the table `tab` of level n: every entry on the way lies in device memory, is not poisoned, is well formed and
points on. -/
def State.TableAt (s : State) (va root : Nat) : Nat → Nat → Prop
  | 0, tab => tab = root
  | n + 1, tab => ∃ up lin, s.TableAt va root n up ∧ s.place (entryAddr up va n) = .media lin ∧ s.homePoison lin = false ∧
      PointsOn (s.homeBytes lin 8) ∧ ¬ Malformed (s.homeBytes lin 8) va n ∧ tab = getBits (s.homeBytes lin 8) 12 40 * 4096

/-- What an access needs of a page: R, W, both or X, and U at level 0 (R388). -/
def Granted (need : Need) (level : Nat) (r w x u : Bool) : Prop :=
  (match need with | .read => r = true | .write => w = true | .atomic => r = true ∧ w = true | .exec => x = true) ∧
    (level = 0 → u = true)

/-! ## Context images -/

/-- Where register n of a thread section stands whose registers begin at `at_`: before it, each register takes a tag word, its valid bytes
and, when tagged, its sidecar (R379). -/
def VecState.regAt (v : VecState) (at_ n : Nat) : Nat :=
  at_ + ((v.v.toList.take n).map (fun r => 8 + r.vb + if r.tag then v.vlen / 16 else 0)).sum

/-- A thread section takes the bytes of an image from `at_` to `end_` on: frame, counters, operand file and latches, masks, registers,
virtual processors (R379, R380). -/
structure SectionBytes (x : Blob) (at_ vn : Nat) (t : ImgThread) (end_ : Nat) : Prop where
  frame : ∀ i w, t.frame[i]? = some w → getB x (at_ + 8 * i) 8 = w.toNat
  vstate : let w := getB x (at_ + 8 * t.frame.length) 8
    getBits w 0 3 = rmCode t.vec.rm ∧ getBits w 3 5 = t.vec.fx.toNat ∧ getBits w 16 16 = t.vec.vl
  counters : let o := at_ + 8 * t.frame.length
    getB x (o + 8) 8 = t.lcount.toNat ∧ getB x (o + 16) 8 = t.laneBusy.toNat ∧ bit (getB x (o + 24) 8) 0 = t.bar
  operands : ∀ i : Fin 8, getB x (at_ + 8 * t.frame.length + 32 + 8 * vn * i.val) (8 * vn) = rd t.vec.o i % 256 ^ (8 * vn)
  latches : ∀ u : Fin 7, getB x (at_ + 8 * t.frame.length + 32 + 8 * vn * (8 + u.val)) (8 * vn) = rd t.vec.lat u % 256 ^ (8 * vn)
  masks : ∀ m : Fin 8, let n := t.vec.vlen / 4
    getB x (at_ + 8 * t.frame.length + 32 + 120 * vn + n * m.val) n = rd t.vec.m m % 256 ^ n
  registers : ∀ r : VReg, let y := rd t.vec.v r
    let o := t.vec.regAt (at_ + 8 * t.frame.length + 32 + 120 * vn + 8 * (t.vec.vlen / 4)) r.val
    getB x o 8 = y.vb + (if y.tag then 2 ^ 16 else 0) ∧ getB x (o + 8) y.vb = y.data % 256 ^ y.vb ∧
      (y.tag = true → getB x (o + 8 + y.vb) (t.vec.vlen / 16) = y.side % 256 ^ (t.vec.vlen / 16))
  copies : ∀ (i : Nat) (p : Vp), t.vps[i]? = some p →
    let o := t.vec.regAt (at_ + 8 * t.frame.length + 32 + 120 * vn + 8 * (t.vec.vlen / 4)) 64 + 368 * i
    (∀ r : Reg, r ≠ 0 → getB x (o + 8 * (r.val - 1)) 8 = (rd p.s r).toNat) ∧
      (∀ r : KReg, r ≠ 0 → getB x (o + 248 + 8 * (r.val - 1)) 8 = (rd p.k r).toNat)
  ends : end_ = t.vec.regAt (at_ + 8 * t.frame.length + 32 + 120 * vn + 8 * (t.vec.vlen / 4)) 64 + 368 * t.vps.length

/-- Where the latches of a matrix section at `at_` stand: behind header, queue and bound records (R415). -/
def Mat.boundEnd (m : Mat) (at_ : Nat) : Nat :=
  at_ + 80 + 128 * m.queue.length +
    (match m.bound, m.queue with
      | some b, e :: _ => 400 + 64 * (e.boundIdx b (rd m.tshape e.f.t).rows).length
      | _, _ => 0)

/-- The matrix section takes the bytes of an image from `at_` to `end_` on (R415), for a latch and accumulators of mn columns. -/
structure MatrixBytes (x : Blob) (at_ mn : Nat) (m : Mat) (end_ : Nat) : Prop where
  mstate : getB x at_ 8 = mmodeCode m.mode + m.mvl.toNat * 4 + (if m.alive then 256 else 0) + (if m.wlive then 512 else 0)
  qinfo : let w := getB x (at_ + 8) 8
    getBits w 0 6 = m.queue.length ∧ getBits w 8 8 = m.gate ∧ bit w 16 = m.started ∧ bit w 17 = m.bound.isSome ∧
      getBits w 24 6 = (if m.wlive then m.latTy.code else 0)
  shapes : ∀ i : Fin 8, let t := rd m.tshape i
    getB x (at_ + 16 + 8 * i.val) 8 = t.base.val + t.cols * 2 ^ 8 + t.rows * 2 ^ 16 + 9 * 2 ^ 26 + t.owner.val * 2 ^ 32
  entries : ∀ (i : Nat) (e : MEntry), m.queue[i]? = some e →
    let w := fun k => getB x (at_ + 80 + 128 * i + 8 * k) 8
    getBits (w 0) 4 6 = e.mop ∧ decodeMF (w 0) = some e.f ∧ getBits (w 1) 0 2 = e.slot.val ∧ getBits (w 1) 16 16 = e.vl ∧
      getBits (w 1) 32 3 = rmCode e.rm ∧ w 2 = e.sv.toNat ∧ w 3 = e.sv1.toNat ∧ w 4 = e.kr.toNat ∧ w 5 = e.kr1.toNat ∧
      w 6 = e.kc.toNat ∧ w 7 = e.kc1.toNat ∧ w 8 = e.kd.toNat ∧ ∀ k, 9 ≤ k → k < 16 → w k = 0
  bound : ∀ b e es, m.bound = some b → m.queue = e :: es →
    let o := at_ + 80 + 128 * m.queue.length
    let rows := (rd m.tshape e.f.t).rows
    let ids := e.boundIdx b rows
    getB x o 8 = ids.length ∧
      (∀ r, r < rows → getB x (o + 8 + r) 1 = b.cause.getD r 0 % 256 ∧ getB x (o + 136 + 2 * r) 2 = b.idx.getD r 0 % 2 ^ 16) ∧
      ∀ (i : Nat) (id : Nat), ids[i]? = some id → getB x (o + 392 + 64 * i) 64 = ((look b.recs id).getD 0) % 256 ^ 64
  latch : let o := m.boundEnd at_
    m.wlive = true → ∀ n, n < mn → let c := m.lat.getD n .empty
      getB x (o + 512 * n) 512 = c.data % 256 ^ 512 ∧ getB x (o + 512 * mn + 128 * n) 128 = c.loaded % 256 ^ 128
  acc : let o := m.boundEnd at_ + (if m.wlive then 640 * mn else 0)
    m.alive = true → ∀ i n, i < 64 → n < mn → n < 64 → getB x (o + (i * mn + n) * 4) 4 = getB m.acc (4 * (64 * i + n)) 4
  ends : end_ = m.boundEnd at_ + (if m.wlive then 640 * mn else 0) + (if m.alive then 256 * mn else 0)

/-- An image takes the bytes of x: sections of n threads from offset 256 on, the matrix section and the scratchpad of `size`
bytes, each at the next multiple of 64 (R379, R415); `total` is its length. -/
def ImageBytes (x : Blob) (vn mn n : Nat) (sec : Nat → ImgThread) (mat : Option Mat) (spad : Nat → Nat) (size total : Nat) : Prop :=
  ∃ (at_ : Nat → Nat) (e : Nat), at_ 0 = 256 ∧ (∀ i, i < n → SectionBytes x (at_ i) vn (sec i) (at_ (i + 1))) ∧
    (match mat with | some m => MatrixBytes x (roundUp (at_ n) 64) mn m e | none => e = at_ n) ∧
    (∀ i, i < size → getB x (roundUp e 64 + i) 1 = spad i) ∧ total = roundUp e 64 + size

/-- The matrix state as an image shows it: a joined chain broken, the second mask registers of an entry where its masks cover more than 64,
the latches' columns up to the highest with a loaded element (R212, R415). -/
def Mat.shown (m : Mat) (lanes : Nat) : Mat :=
  let c := m.cut
  { c with
    queue := c.queue.zipIdx.map (fun p =>
      let span := ((c.queue.take p.2).foldl MView.after c.view).maskSpan lanes p.1
      { p.1 with kr1 := if span.1 ≤ 64 then 0 else p.1.kr1, kc1 := if span.2 ≤ 64 then 0 else p.1.kc1 })
    lat := c.lat.take c.latN }

/-- The sizes of what an image holds fit their fields. -/
structure State.ImageFits (s : State) : Prop where
  team : s.core.team ≤ 4
  vectors : ∀ j, j < 4 → let v := (s.threadAt s.coreId j).vec
    v.vl < 2 ^ 16 ∧ v.vlen < 2 ^ 16 ∧ ∀ r : VReg, (rd v.v r).vb < 2 ^ 16
  queue : s.core.mat.queue.length ≤ 32
  gate : s.core.mat.gate < 256
  entries : ∀ e ∈ s.core.mat.queue, e.mop < 64 ∧ e.vl < 2 ^ 16
  tiles : ∀ i : Fin 8, (rd s.core.mat.tshape i).rows ≤ 128 ∧ (rd s.core.mat.tshape i).cols ≤ 128
  latches : s.core.mat.lat.length ≤ 64
  bound : ∀ e es, s.core.mat.queue = e :: es → s.core.mat.bound.isSome = true → e.mop = 16

/-! ## The whole machine -/

/-- What holds between the steps of the machine: every memory is in canonical form (stacks, host, peers, slice scratches,
scratchpads, outputs held by the Lift for a task and in the template of a group), no two lines of an L1 share a tag, and no link
is about to go down within a turn. -/
structure State.MemInv (s : State) : Prop where
  media : s.store.media.wf = true
  host : s.store.host.wf = true
  peer : ∀ p ∈ s.store.peer, p.2.wf = true
  ss : ∀ p ∈ s.store.ss, p.2.wf = true
  spad : s.core.spad.wf = true
  others : ∀ p ∈ s.others, p.2.spad.wf = true
  held : ∀ k ∈ s.fab.tasks, k.held.wf = true
  tmpl : ∀ g ∈ s.fab.groups, g.tmpl.held.wf = true
  tags : (s.core.l1.map (·.tag)).Nodup
  otherTags : ∀ p ∈ s.others, (p.2.l1.map (·.tag)).Nodup
  falling : s.fab.falling = none

end Sys2Proof.Machine
end

