-- ==== Sys2Proof/Certificates/Slice0/Obligations.lean ====
section
/-! DEFINITION. The statements for the provers. -/

open Sys2Proof Sys2Proof.Machine

/-! ## Scalar instructions (06) -/

/-- R136, R137: every operation of SR majors 0x00 and 0x01 completes with the result of its table; shifts take b[5:0], `slt` compares
as signed and `sltn` as unsigned; a divisor of 0 gives all ones from a division and a from a remainder, and −2^63 by −1 gives −2^63
and 0; nothing but s[d] and the PC changes. Their words decode to them, and every other word of the two majors is unassigned. -/
def Obligations.IntegerResults : Prop :=
  ∀ (s : State) (d a b : Reg),
    let x := s.getS a
    let y := s.getS b
    Completes (exec (.add d a b) s) (WritesS s d (x + y) 4) ∧
    Completes (exec (.sub d a b) s) (WritesS s d (x - y) 4) ∧
    Completes (exec (.and d a b) s) (WritesS s d (x &&& y) 4) ∧
    Completes (exec (.or d a b) s) (WritesS s d (x ||| y) 4) ∧
    Completes (exec (.xor d a b) s) (WritesS s d (x ^^^ y) 4) ∧
    Completes (exec (.sll d a b) s) (WritesS s d (x <<< (y.toNat % 64)) 4) ∧
    Completes (exec (.srl d a b) s) (WritesS s d (x >>> (y.toNat % 64)) 4) ∧
    Completes (exec (.sra d a b) s) (WritesS s d (x.sshiftRight (y.toNat % 64)) 4) ∧
    Completes (exec (.slt d a b) s) (WritesS s d (if x.toInt < y.toInt then 1 else 0) 4) ∧
    Completes (exec (.sltn d a b) s) (WritesS s d (if x.toNat < y.toNat then 1 else 0) 4) ∧
    Completes (exec (.mul d a b) s) (WritesS s d (BitVec.ofNat 64 (x.toNat * y.toNat)) 4) ∧
    Completes (exec (.mulh d a b) s) (WritesS s d (BitVec.ofInt 64 (x.toInt * y.toInt / 2 ^ 64)) 4) ∧
    Completes (exec (.mulhn d a b) s) (WritesS s d (BitVec.ofNat 64 (x.toNat * y.toNat / 2 ^ 64)) 4) ∧
    Completes (exec (.div d a b) s)
      (WritesS s d (if y = 0 then BitVec.allOnes 64 else BitVec.ofInt 64 (x.toInt.tdiv y.toInt)) 4) ∧
    Completes (exec (.divn d a b) s)
      (WritesS s d (if y = 0 then BitVec.allOnes 64 else BitVec.ofNat 64 (x.toNat / y.toNat)) 4) ∧
    Completes (exec (.rem d a b) s) (WritesS s d (if y = 0 then x else BitVec.ofInt 64 (x.toInt.tmod y.toInt)) 4) ∧
    Completes (exec (.remn d a b) s) (WritesS s d (if y = 0 then x else BitVec.ofNat 64 (x.toNat % y.toNat)) 4) ∧
    (let row := fun (op f7 f3 : Nat) (i : Instr) => decodeInstr (srW f7 b.val a.val f3 d.val op) = i
     row 0 0 0 (.add d a b) ∧ row 0 1 0 (.sub d a b) ∧ row 0 0 1 (.and d a b) ∧ row 0 0 2 (.or d a b) ∧ row 0 0 3 (.xor d a b) ∧
     row 0 0 4 (.sll d a b) ∧ row 0 0 5 (.srl d a b) ∧ row 0 1 5 (.sra d a b) ∧ row 0 0 6 (.slt d a b) ∧ row 0 0 7 (.sltn d a b) ∧
     row 1 0 0 (.mul d a b) ∧ row 1 0 1 (.mulh d a b) ∧ row 1 0 2 (.mulhn d a b) ∧ row 1 0 4 (.div d a b) ∧
     row 1 0 5 (.divn d a b) ∧ row 1 0 6 (.rem d a b) ∧ row 1 0 7 (.remn d a b) ∧
     (∀ f7 f3, f7 < 128 → f3 < 8 →
       ((1 < f7 ∨ f7 = 1 ∧ f3 ≠ 0 ∧ f3 ≠ 5) → row 0 f7 f3 (.unassignedEncoding 0)) ∧
       ((f7 ≠ 0 ∨ f3 = 3) → row 1 f7 f3 (.unassignedEncoding 0))))

/-- R138: each bit operation, said by the bits of its result, and the words of the major. -/
def Obligations.BitOperationResults : Prop :=
  ∀ (s : State) (d a b : Reg),
    let x := s.getS a
    let y := s.getS b
    (∃ n, n ≤ 64 ∧ (∀ i, 64 - n ≤ i → x.getLsbD i = false) ∧ (n < 64 → x.getLsbD (63 - n) = true) ∧
      Completes (exec (.clz d a) s) (WritesS s d (wd n) 4)) ∧
    (∃ n, n ≤ 64 ∧ (∀ i, i < n → x.getLsbD i = false) ∧ (n < 64 → x.getLsbD n = true) ∧
      Completes (exec (.ctz d a) s) (WritesS s d (wd n) 4)) ∧
    Completes (exec (.popc d a) s) (WritesS s d (wd (onesBelow x 64)) 4) ∧
    (∃ v : Word, (∀ i, i < 64 → v.getLsbD i = x.getLsbD (63 - i)) ∧ Completes (exec (.rev d a) s) (WritesS s d v 4)) ∧
    (∃ v : Word, (∀ i, i < 64 → y.getLsbD i = true → v.getLsbD (onesBelow y i) = x.getLsbD i) ∧
      (∀ j, onesBelow y 64 ≤ j → v.getLsbD j = false) ∧ Completes (exec (.bext d a b) s) (WritesS s d v 4)) ∧
    (∃ v : Word, (∀ i, i < 64 → v.getLsbD i = (y.getLsbD i && x.getLsbD (onesBelow y i))) ∧
      Completes (exec (.bdep d a b) s) (WritesS s d v 4)) ∧
    (∃ v : Word, (∀ i, i < 64 → v.getLsbD ((i + y.toNat) % 64) = x.getLsbD i) ∧
      Completes (exec (.rotl d a b) s) (WritesS s d v 4)) ∧
    (∃ v : Word, (∀ i, i < 64 → v.getLsbD i = x.getLsbD ((i + y.toNat) % 64)) ∧
      Completes (exec (.rotr d a b) s) (WritesS s d v 4)) ∧
    (let row := fun (b : Reg) (f7 f3 : Nat) (i : Instr) => decodeInstr (srW f7 b.val a.val f3 d.val 2) = i
     row 0 0 0 (.clz d a) ∧ row 0 0 1 (.ctz d a) ∧ row 0 0 2 (.popc d a) ∧ row 0 0 3 (.rev d a) ∧ row b 0 4 (.bext d a b) ∧
     row b 0 5 (.bdep d a b) ∧ row b 0 6 (.rotl d a b) ∧ row b 0 7 (.rotr d a b) ∧
     (∀ f7 f3, f7 < 128 → f3 < 8 → (f7 ≠ 0 ∨ f3 < 4 ∧ b ≠ 0) → row b f7 f3 (.unassignedEncoding 0)))

/-- R139, R140: the immediate forms and the upper immediates, and their words. -/
def Obligations.ImmediateResults : Prop :=
  ∀ (s : State) (d a : Reg) (k : KReg) (c : Cond) (imm : BitVec 12) (sh : BitVec 6) (up : BitVec 20),
    let x := s.getS a
    let y : Word := imm.signExtend 64
    let u : Word := BitVec.ofInt 64 (up.toInt * 2 ^ 12)
    Completes (exec (.addi d a imm) s) (WritesS s d (x + y) 4) ∧
    Completes (exec (.andi d a imm) s) (WritesS s d (x &&& y) 4) ∧
    Completes (exec (.ori d a imm) s) (WritesS s d (x ||| y) 4) ∧
    Completes (exec (.xori d a imm) s) (WritesS s d (x ^^^ y) 4) ∧
    Completes (exec (.slli d a sh) s) (WritesS s d (x <<< sh.toNat) 4) ∧
    Completes (exec (.srli d a sh) s) (WritesS s d (x >>> sh.toNat) 4) ∧
    Completes (exec (.srai d a sh) s) (WritesS s d (x.sshiftRight sh.toNat) 4) ∧
    (∃ v : Word, (Means c x y → v = BitVec.allOnes 64) ∧ (¬ Means c x y → v = 0) ∧
      Completes (exec (.cmpi c k a imm) s) (WritesK s k v 4)) ∧
    Completes (exec (.lui d up) s) (WritesS s d u 4) ∧
    Completes (exec (.auipc d up) s) (WritesS s d (s.th.pc + u) 4) ∧
    (let row := fun (op n f3 e : Nat) (i : Instr) => decodeInstr (siW n a.val f3 e op) = i
     let j := imm.toNat
     row 0 j 0 d.val (.addi d a imm) ∧ row 1 j 0 d.val (.andi d a imm) ∧ row 1 j 1 d.val (.ori d a imm) ∧
     row 1 j 2 d.val (.xori d a imm) ∧ row 2 sh.toNat 0 d.val (.slli d a sh) ∧ row 2 sh.toNat 1 d.val (.srli d a sh) ∧
     row 2 sh.toNat 2 d.val (.srai d a sh) ∧ row 3 j 0 k.val (.cmpi .eq k a imm) ∧ row 3 j 1 k.val (.cmpi .ne k a imm) ∧
     row 3 j 2 k.val (.cmpi .lt k a imm) ∧ row 3 j 3 k.val (.cmpi .ge k a imm) ∧ row 3 j 4 k.val (.cmpi .ltn k a imm) ∧
     row 3 j 5 k.val (.cmpi .gen k a imm) ∧
     (∀ op f3, f3 < 8 → (op = 0 ∧ f3 ≠ 0 ∨ (op = 1 ∨ op = 2) ∧ 3 ≤ f3 ∨ op = 3 ∧ 6 ≤ f3) →
       row op j f3 d.val (.unassignedEncoding 0)) ∧
     (∀ f3, f3 < 8 → 64 ≤ j → row 2 j f3 d.val (.unassignedEncoding 0)) ∧
     decodeInstr (sjW up.toNat d.val 4) = .lui d up ∧ decodeInstr (sjW up.toNat d.val 5) = .auipc d up)

/-- R141: the predicate operations, the three `kmov` forms and `cmp`, and the words of the major. -/
def Obligations.PredicateResults : Prop :=
  ∀ (s : State) (d a b : KReg) (e f g : Reg) (c : Cond),
    Completes (exec (.kand d a b) s) (WritesK s d (s.getK a &&& s.getK b) 4) ∧
    Completes (exec (.kor d a b) s) (WritesK s d (s.getK a ||| s.getK b) 4) ∧
    Completes (exec (.kxor d a b) s) (WritesK s d (s.getK a ^^^ s.getK b) 4) ∧
    Completes (exec (.knot d a) s) (WritesK s d (~~~ s.getK a) 4) ∧
    Completes (exec (.kmovKK d a) s) (WritesK s d (s.getK a) 4) ∧
    Completes (exec (.kmovSK e a) s) (WritesS s e (s.getK a) 4) ∧
    Completes (exec (.kmovKS d f) s) (WritesK s d (s.getS f) 4) ∧
    (∃ v : Word, (Means c (s.getS f) (s.getS g) → v = BitVec.allOnes 64) ∧ (¬ Means c (s.getS f) (s.getS g) → v = 0) ∧
      Completes (exec (.cmp c d f g) s) (WritesK s d v 4)) ∧
    (let row := fun (f7 b a f3 d : Nat) (i : Instr) => decodeInstr (srW f7 b a f3 d 5) = i
     let cmp := fun (f3 : Nat) (c : Cond) => row 1 g.val f.val f3 d.val (.cmp c d f g)
     row 0 b.val a.val 0 d.val (.kand d a b) ∧ row 0 b.val a.val 1 d.val (.kor d a b) ∧ row 0 b.val a.val 2 d.val (.kxor d a b) ∧
     row 0 0 a.val 3 d.val (.knot d a) ∧ row 0 0 a.val 4 d.val (.kmovKK d a) ∧ row 0 0 a.val 5 e.val (.kmovSK e a) ∧
     row 0 0 f.val 6 d.val (.kmovKS d f) ∧ cmp 0 .eq ∧ cmp 1 .ne ∧ cmp 2 .lt ∧ cmp 3 .ge ∧ cmp 4 .ltn ∧ cmp 5 .gen ∧
     (∀ f7 f3, f7 < 128 → f3 < 8 → (1 < f7 ∨ f7 = 0 ∧ (f3 = 7 ∨ 3 ≤ f3 ∧ g ≠ 0) ∨ f7 = 1 ∧ 6 ≤ f3) →
       row f7 g.val f.val f3 e.val (.unassignedEncoding 0)))

/-- R142, R143: branches by their test, inverted by n, and jumps with their link, and their words. -/
def Obligations.BranchesAndJumps : Prop :=
  ∀ (s : State) (k : KReg) (n : Bool) (off : BitVec 16) (d a : Reg) (far : BitVec 20) (imm : BitVec 12),
    let on : Word := s.th.pc + 4
    let away : Word := BitVec.ofInt 64 (s.th.pc.toInt + off.toInt * 4)
    Completes (exec (.brAny k n off) s) (GoesTo s (if (s.getK k ≠ 0) ↔ n = false then away else on)) ∧
    Completes (exec (.brAll k n off) s) (GoesTo s (if (s.getK k = BitVec.allOnes 64) ↔ n = false then away else on)) ∧
    Completes (exec (.br off) s) (GoesTo s away) ∧
    Completes (exec (.jal d far) s) (Links s d on (BitVec.ofInt 64 (s.th.pc.toInt + far.toInt * 4))) ∧
    ((s.getS a + imm.signExtend 64).toNat % 4 = 0 →
      Completes (exec (.jalr d a imm) s) (Links s d on (s.getS a + imm.signExtend 64))) ∧
    ((s.getS a + imm.signExtend 64).toNat % 4 ≠ 0 →
      exec (.jalr d a imm) s = .next (s.fault { cause := 4, fva := s.getS a + imm.signExtend 64 })) ∧
    (let row := fun (k : KReg) (n : Bool) (fn4 : Nat) (i : Instr) =>
       decodeInstr (scW off.toNat k.val (if n then 1 else 0) fn4 1) = i
     row k n 0 (.brAny k n off) ∧ row k n 1 (.brAll k n off) ∧ row 0 false 2 (.br off) ∧
     (∀ fn4, fn4 < 16 → (3 ≤ fn4 ∨ fn4 = 2 ∧ (k ≠ 0 ∨ n = true)) → row k n fn4 (.unassignedEncoding 0)) ∧
     decodeInstr (sjW far.toNat d.val 2) = .jal d far ∧ decodeInstr (siW imm.toNat a.val 0 d.val 3 + 1) = .jalr d a imm)

/-- R35, R63, R144, R151, R374: `nop` and every hint code without a name only advance the PC; `pause` takes no barrel turn in the
16 SCLK cycles after its own, and its thread stands at it until then: from the cycle after them on it passes the `pause` as it
takes its turn; `spin` marks the loop; `loop` counts `LCOUNT` down modulo 2^64 and branches while it is not zero, and in a block
of virtual processors raises ILLEGAL. A `loop` word with fn4, k or n not 0 is unassigned. How long a spin mark lasts, and that a
waiting thread stands at its `pause`, are the model's readings: log 47. -/
def Obligations.HintsAndLoop : Prop :=
  ∀ (s : State) (a d : Reg) (f3 : Fin 8) (code : BitVec 12) (off : BitVec 16) (k : KReg) (n' : Bool),
    let on : Word := s.th.pc + 4
    let n : Word := s.th.lcount - 1
    Completes (exec (.nop a f3 d) s) (GoesTo s on) ∧
    Completes (exec (.otherHintCode code a f3 d) s) (GoesTo s on) ∧
    Completes (exec (.pause a f3 d) s) (fun t =>
      t.th = { s.th with wait := .pause (s.cycle + 16) } ∧ OnlyThread s t ∧
      (s.th.occ = true → s.th.ending = false → ∀ c, t.th.ready c = true ↔ s.cycle + 16 < c) ∧
      t.th.wake = { s.th with pc := on, wait := .none }) ∧
    Completes (exec (.spin a f3 d) s) (fun t => t.th = { s.th with pc := on, spin := t.th.spin } ∧ 0 < t.th.spin ∧ OnlyThread s t) ∧
    (s.th.vp = none → Completes (exec (.loop off) s) (fun t =>
      t.th = { s.th with
        lcount := n, pc := if n = 0 then on else BitVec.ofInt 64 (s.th.pc.toInt + off.toInt * 4) } ∧ OnlyThread s t)) ∧
    (s.th.vp ≠ none → exec (.loop off) s = .next (s.fault { cause := 1 })) ∧
    (let row := fun (k : KReg) (n : Bool) (fn4 : Nat) (i : Instr) =>
       decodeInstr (scW off.toNat k.val (if n then 1 else 0) fn4 6) = i
     row 0 false 0 (.loop off) ∧
     (∀ fn4, fn4 < 16 → (fn4 ≠ 0 ∨ k ≠ 0 ∨ n' = true) → row k n' fn4 (.unassignedEncoding 0)))

/-- R102, R104, R107, R108, R110, R148: how an exact value, a quotient and a root are rounded into a format, with the overflow and
the flags; and the scalar floating operations round their exact result once so, under the instruction's own mode or `VSTATE.RM`.
That a negative value saturated into a format without a sign gives code 0 with NX, and UF when tiny, and −∞ +0 without a flag, is
the model's reading: log 44. -/
def Obligations.ScalarFloatResults : Prop :=
  (∀ (ty : ETy) (f : Fmt) (mode : Rm) (sat : Bool) (rnd : Nat),
    tyFmt ty = some f → rnd < 2 ^ 16 → (ty = .mxf4 → sat = true) →
      let unsignedNeg := fun (neg : Bool) => neg = true ∧ f.signed = false
      (∀ neg m e, m ≠ 0 →
        f.Rounds mode sat rnd neg (cmpMag m 1 (e - f.unitExp)) (roundFloat f mode sat rnd (.fin neg m e false))) ∧
      (∀ neg m e neg' m' e', m ≠ 0 → m' ≠ 0 →
        f.Rounds mode sat rnd (neg != neg') (cmpMag m m' (e - e' - f.unitExp))
          (roundExact f mode sat rnd (Val.div f.quotBits (.fin neg m e false) (.fin neg' m' e' false)))) ∧
      (∀ m e, m ≠ 0 →
        f.Rounds mode sat rnd false (fun p q => cmpMag m 1 (e - 2 * f.unitExp) (p * p) (q * q))
          (roundExact f mode sat rnd (Val.sqrt f.quotBits (.fin false m e false)))) ∧
      (∀ neg e, roundFloat f mode sat rnd (.fin neg 0 e false) = { code := f.pack neg 0, fx := 0, drew := false }) ∧
      (∀ signalling, roundFloat f mode sat rnd (.nan signalling) =
        { code := f.nan, fx := if signalling then 16 else 0, drew := false }) ∧
      (∀ neg, roundFloat f mode sat rnd (.inf neg) =
        if unsignedNeg neg then (if sat then { code := 0, fx := 0, drew := false } else { code := f.nan, fx := 16, drew := false })
        else if sat then { code := f.pack neg f.maxCode, fx := 0, drew := false }
        else
          match f.infCode with
          | some ic => { code := f.pack neg ic, fx := 0, drew := false }
          | none => { code := f.nan, fx := 16, drew := false })) ∧
  ∀ (s : State) (f : FFmt) (rm : RmSel) (d a b : Reg),
    let fm := fmtOf f.ety
    let m := s.scalarMode rm
    let x := fm.decode ((s.getS a).toNat % 2 ^ fm.width)
    let y := fm.decode ((s.getS b).toNat % 2 ^ fm.width)
    let done := fun (i : Instr) (e : Exact) =>
      let r := roundExact fm m false (genDraw s.th.gen) e
      Completes (exec i s) (WritesF s d (wd r.code) r.fx r.drew)
    done (.fadd f rm d a b) (Val.add (m = .rdn) x y) ∧
    done (.fsub f rm d a b) (Val.add (m = .rdn) x y.neg) ∧
    done (.fmul f rm d a b) (Val.mul x y) ∧
    done (.fdiv f rm d a b) (Val.div fm.quotBits x y) ∧
    done (.fsqrt f rm d a) (Val.sqrt fm.quotBits x)

/-- R102, R104, R148: NaN operands give the canonical NaN, and NV only when one signals; a finite nonzero a over ±0 gives the signed
infinity and DZ; the root of −0 is −0, and of a negative number NaN with NV; `fmin` and `fmax` return the operand that is no NaN. -/
def Obligations.FloatSpecialCases : Prop :=
  ∀ (s : State) (f : FFmt) (rm : RmSel) (d a b : Reg),
    let fm := fmtOf f.ety
    let u := (s.getS a).toNat % 2 ^ fm.width
    let w := (s.getS b).toNat % 2 ^ fm.width
    let x := fm.decode u
    let y := fm.decode w
    let nv : BitVec 5 := if x.isSnan ∨ y.isSnan then 16 else 0
    ((x.isNan ∨ y.isNan) →
      Completes (exec (.fadd f rm d a b) s) (WritesF s d (wd fm.nan) nv false) ∧
      Completes (exec (.fsub f rm d a b) s) (WritesF s d (wd fm.nan) nv false) ∧
      Completes (exec (.fmul f rm d a b) s) (WritesF s d (wd fm.nan) nv false) ∧
      Completes (exec (.fdiv f rm d a b) s) (WritesF s d (wd fm.nan) nv false)) ∧
    (∀ n m e st n' e' st' inf, x = .fin n m e st → m ≠ 0 → y = .fin n' 0 e' st' → fm.infCode = some inf →
      Completes (exec (.fdiv f rm d a b) s)
        (WritesF s d (wd (inf + if n = n' then 0 else 2 ^ (fm.width - 1))) 8 false)) ∧
    (∀ e st, x = .fin true 0 e st → Completes (exec (.fsqrt f rm d a) s) (WritesF s d (wd (2 ^ (fm.width - 1))) 0 false)) ∧
    (∀ m e st, x = .fin true m e st → m ≠ 0 → Completes (exec (.fsqrt f rm d a) s) (WritesF s d (wd fm.nan) 16 false)) ∧
    (x.isNan = true → y.isNan = false →
      Completes (exec (.fmin f d a b) s) (WritesF s d (wd w) nv false) ∧
      Completes (exec (.fmax f d a b) s) (WritesF s d (wd w) nv false)) ∧
    (x.isNan = false → y.isNan = true →
      Completes (exec (.fmin f d a b) s) (WritesF s d (wd u) nv false) ∧
      Completes (exec (.fmax f d a b) s) (WritesF s d (wd u) nv false)) ∧
    (x.isNan = true → y.isNan = true →
      Completes (exec (.fmin f d a b) s) (WritesF s d (wd fm.nan) nv false) ∧
      Completes (exec (.fmax f d a b) s) (WritesF s d (wd fm.nan) nv false)) ∧
    (x.isNan = false → y.isNan = false →
      Completes (exec (.fmin f d a b) s)
        (WritesF s d (wd (if Val.lt y x ∨ (Val.eq x y ∧ y.isNeg ∧ ¬ x.isNeg) then w else u)) 0 false) ∧
      Completes (exec (.fmax f d a b) s)
        (WritesF s d (wd (if Val.lt y x ∨ (Val.eq x y ∧ y.isNeg ∧ ¬ x.isNeg) then u else w)) 0 false))

/-- R107, R110, R149, R150: how a value is rounded to an integer; `fcmp` is false on a NaN but for `.un`; `fclass` sets one bit; `fcvt`
between integer types keeps the value modulo 2^w, or clamps it with `.sat`, and extends it by the destination's own signedness; other
conversions round. -/
def Obligations.ScalarCompareAndConvert : Prop :=
  (∀ (dst : ETy) (mode : Rm) (sat : Bool) (rnd : Nat),
    (∀ f x, tyFmt dst = some f → roundTo dst mode sat rnd x = roundFloat f mode sat rnd x) ∧
    (dst.isInt = true → rnd < 2 ^ 16 →
      let sg := dst.isSigned
      let w := dst.bits
      let indefinite := if sg then 2 ^ (w - 1) else 2 ^ w - 1
      (∀ neg m e, RoundsInt sg w mode sat rnd neg (cmpMag m 1 e) (roundTo dst mode sat rnd (.fin neg m e false))) ∧
      (∀ signalling, roundTo dst mode sat rnd (.nan signalling) =
        { code := if sat then 0 else indefinite, fx := 16, drew := false }) ∧
      (∀ neg, roundTo dst mode sat rnd (.inf neg) =
        { code := if !sat then indefinite else if neg then (if sg then 2 ^ (w - 1) else 0)
            else if sg then 2 ^ (w - 1) - 1 else 2 ^ w - 1, fx := 16, drew := false }))) ∧
  ∀ (s : State) (f : FFmt) (r : FRel) (dst src : ETy) (sat : Bool) (rm : RmSel) (d a b : Reg),
    let fm := fmtOf f.ety
    let x := fm.decode ((s.getS a).toNat % 2 ^ fm.width)
    let y := fm.decode ((s.getS b).toNat % 2 ^ fm.width)
    let holds : Bool := match r with
      | .eq => Val.eq x y
      | .lt => Val.lt x y
      | .le => Val.lt x y || Val.eq x y
      | .un => x.isNan || y.isNan
    let quiet : Bool := r = .eq ∨ r = .un
    Completes (exec (.fcmp r f d a b) s)
      (WritesF s d (if holds then 1 else 0)
        (if (if quiet then x.isSnan ∨ y.isSnan else x.isNan ∨ y.isNan) then 16 else 0) false) ∧
    (∃ i, i < 10 ∧ Completes (exec (.fclass f d a) s) (WritesS s d (wd (2 ^ i)) 4) ∧
      (i = 9 ↔ x.isNan ∧ ¬ x.isSnan) ∧ (i = 8 ↔ x.isSnan) ∧ (i = 0 ↔ x = .inf true) ∧ (i = 7 ↔ x = .inf false) ∧
      (i = 3 ∨ i = 4 ↔ x.isZero) ∧ (i ≤ 3 ↔ x.isNeg) ∧
      (i = 2 ∨ i = 5 ↔ ∃ n m e st, x = .fin n m e st ∧ 0 < m ∧ m < 2 ^ fm.t)) ∧
    ((dst.isInt ∧ src.isInt) →
      let v := tyInt src ((s.getS a).toNat % 2 ^ src.bits)
      let lo : Int := if dst.isSigned then -(2 ^ (dst.bits - 1)) else 0
      let hi : Int := if dst.isSigned then 2 ^ (dst.bits - 1) - 1 else 2 ^ dst.bits - 1
      ∃ q : Int, lo ≤ q ∧ q ≤ hi ∧ (if sat then q = max lo (min hi v) else q % 2 ^ dst.bits = v % 2 ^ dst.bits) ∧
        Completes (exec (.fcvt dst src sat rm d a) s) (WritesF s d (BitVec.ofInt 64 q) 0 false)) ∧
    ((Instr.fcvt dst src sat rm d a).wf → ¬ (dst.isInt ∧ src.isInt) →
      let g := roundTo dst (s.scalarMode rm) sat (genDraw s.th.gen) (tyVal src ((s.getS a).toNat % 2 ^ src.bits))
      Completes (exec (.fcvt dst src sat rm d a) s)
        (WritesF s d (if dst.isSigned then BitVec.ofInt 64 (tyInt dst g.code) else wd (g.code % 2 ^ dst.bits)) g.fx g.drew))

/-- R35, R123, R124, R149, R151: pointers and the operand file, outside a block of virtual processors, where each of them raises ILLEGAL. -/
def Obligations.PointersAndOperandFile : Prop :=
  ∀ (s : State) (d a b : Reg) (p : PReg) (e : Fin 8) (sz : Fin 5) (imm : BitVec 12),
    (s.th.vp = none →
      Completes (exec (.pset p a sz) s) (fun t =>
        t.getP p = s.getS a ∧ rd t.th.psz p = sz ∧ (∀ q, q ≠ p → t.getP q = s.getP q ∧ rd t.th.psz q = rd s.th.psz q) ∧
        t.th = { s.th with p := t.th.p, psz := t.th.psz, pc := s.th.pc + 4 } ∧ OnlyThread s t) ∧
      (∀ v : Word,
        (rd s.th.psz p ≠ 4 ∧ v = s.getP p + BitVec.ofInt 64 (imm.toInt * 2 ^ (rd s.th.psz p).val) ∨
          rd s.th.psz p = 4 ∧ imm.toInt % 2 = 0 ∧ v = s.getP p + BitVec.ofInt 64 (imm.toInt / 2)) →
        Completes (exec (.padv d p imm) s) (fun t =>
          t.getP p = v ∧ (∀ q, q ≠ p → t.getP q = s.getP q) ∧
          t.getS d = (if d = 0 then 0 else v) ∧ (∀ q, q ≠ d → t.getS q = s.getS q) ∧
          t.th = { s.th with s := t.th.s, p := t.th.p, pc := s.th.pc + 4 } ∧ OnlyThread s t)) ∧
      (rd s.th.psz p = 4 → imm.toInt % 2 = 1 → exec (.padv d p imm) s = .next (s.fault { cause := 3 })) ∧
      Completes (exec (.fmvToOperand e a) s) (fun t =>
        (∀ l, l < s.nLanes → getB (rd t.th.vec.o e) (8 * l) 8 = (s.getS a).toNat) ∧
        (∀ j, j ≠ e → rd t.th.vec.o j = rd s.th.vec.o j) ∧
        t.th = { s.th with vec := { s.th.vec with o := t.th.vec.o }, pc := s.th.pc + 4 } ∧ OnlyThread s t) ∧
      ((s.getS b).toNat < s.nLanes →
        Completes (exec (.fmvFromOperand d e b) s)
          (WritesS s d (wd (getB (rd s.th.vec.o e) (8 * (s.getS b).toNat) 8)) 4)) ∧
      (s.nLanes ≤ (s.getS b).toNat → exec (.fmvFromOperand d e b) s = .next (s.fault { cause := 3 }))) ∧
    (s.th.vp ≠ none →
      exec (.pset p a sz) s = .next (s.fault { cause := 1 }) ∧ exec (.padv d p imm) s = .next (s.fault { cause := 1 }) ∧
      exec (.fmvToOperand e a) s = .next (s.fault { cause := 1 }) ∧
      exec (.fmvFromOperand d e b) s = .next (s.fault { cause := 1 }))

/-! ## Memory (06, 11) -/

/-- R145: a load whose checks pass writes the bytes at its address, extended by its type, and changes of the rest only what an access
may; the `.last` form then drops the line's copies, the home's by a drop that is on its way. -/
def Obligations.LoadResults : Prop :=
  ∀ (s : State) (ty : LdTy) (d a : Reg) (imm : BitVec 12),
    let va := (s.getS a + imm.signExtend 64).toNat
    let n := ldBytes ty
    ∀ s1 tg, s.reach va n n .read = (s1, .ok tg) →
      AccessOnly s s1 ∧
      (∀ u v, s1.readAt .plain tg n = (u, v, none) →
        MemOnly s1 u ∧ Completes (exec (.ld ty d a imm) s) (WritesS u d (loaded (ldSigned ty) n v) 4)) ∧
      (∀ u v, s1.readAt .home tg n = (u, v, none) →
        MemOnly s1 u ∧ Completes (exec (.ldHome ty d a imm) s) (WritesS u d (loaded (ldSigned ty) n v) 4)) ∧
      (∀ u v, s1.readAt .last tg n = (u, v, none) →
        MemAndDrops s1 (u.dropAt tg) ∧
        Completes (exec (.ldLast ty d a imm) s) (WritesS (u.dropAt tg) d (loaded (ldSigned ty) n v) 4))

/-- R146, R248: a store whose checks pass writes the low bytes of s[b] at its address, as later reads of the thread see them;
every byte elsewhere reads as before; it ends a spin mark and changes no register. The place is aligned, as every page is, and no
two lines of the core's L1 share a tag, as no step makes two. -/
def Obligations.StoreResults : Prop :=
  ∀ (s : State) (sz : StW) (a b : Reg) (off : BitVec 12),
    let va := (s.getS a + off.signExtend 64).toNat
    let n := stBytes sz
    ∀ s1 tg, s.reach va n n .write = (s1, .ok tg) → s1.Plain tg n → s1.MemoriesWf → (s1.core.l1.map (·.tag)).Nodup →
      AccessOnly s s1 ∧
      Completes (exec (.st sz a b off) s) (fun t =>
        (t.readAt .plain tg n).2.1 = (s.getS b).toNat % 256 ^ n ∧
        (∀ q, Outside s1 q tg n → t.byteAt q = s1.byteAt q) ∧
        t.th = { s1.th with spin := 0, pc := s.th.pc + 4 } ∧
        t = { s1 with
          th := t.th, core := { s1.core with l1 := t.core.l1, spad := t.core.spad }, free := t.free
          store := { s1.store with host := t.store.host, peer := t.store.peer } })

/-- R147: a scalar access whose address is not a multiple of its size raises DALIGN and accesses nothing; a check that fails raises its
own trap. -/
def Obligations.MisalignedAccesses : Prop :=
  ∀ (s : State) (ty : LdTy) (sz : StW) (d a b : Reg) (imm : BitVec 12),
    let va := (s.getS a + imm.signExtend 64).toNat
    (va % ldBytes ty ≠ 0 →
      exec (.ld ty d a imm) s = .next (s.fault { cause := 5, fva := wd va }) ∧
      exec (.ldHome ty d a imm) s = .next (s.fault { cause := 5, fva := wd va }) ∧
      exec (.ldLast ty d a imm) s = .next (s.fault { cause := 5, fva := wd va })) ∧
    (va % stBytes sz ≠ 0 → exec (.st sz a b imm) s = .next (s.fault { cause := 5, fva := wd va })) ∧
    (∀ s1 t, s.reach va (ldBytes ty) (ldBytes ty) .read = (s1, .error t) →
      exec (.ld ty d a imm) s = .next (s1.fault t) ∧ exec (.ldHome ty d a imm) s = .next (s1.fault t) ∧
      exec (.ldLast ty d a imm) s = .next (s1.fault t)) ∧
    (∀ s1 t, s.reach va (stBytes sz) (stBytes sz) .write = (s1, .error t) → exec (.st sz a b imm) s = .next (s1.fault t))

/-- R228, R254: an access to the scratchpad window reads and writes the core's own scratchpad, without translation, and raises SPADR
past the scratchpad in force; `ssld` and `ssst` reach the slice scratch of the core's own cluster, with their alignment and range
checks, and can wake a bank, but make none drowsy. -/
def Obligations.ScratchpadAccesses : Prop :=
  (∀ (s : State) (ty : LdTy) (sz : StW) (d a b : Reg) (imm : BitVec 12),
    let va := (s.getS a + imm.signExtend 64).toNat
    let o := va - 0x00FFFF0000000000
    0x00FFFF0000000000 ≤ va → va < 0x00FFFF0000000000 + 2 ^ 20 →
      (va % ldBytes ty = 0 → o + ldBytes ty ≤ s.core.spadSize → s.core.watchHit va (ldBytes ty) true false = none →
        let v := loaded (ldSigned ty) (ldBytes ty) (s.core.spad.readN o (ldBytes ty))
        Completes (exec (.ld ty d a imm) s) (WritesS s d v 4) ∧ Completes (exec (.ldHome ty d a imm) s) (WritesS s d v 4) ∧
        Completes (exec (.ldLast ty d a imm) s) (WritesS s d v 4)) ∧
      (va % stBytes sz = 0 → o + stBytes sz ≤ s.core.spadSize → s.core.watchHit va (stBytes sz) false true = none →
        Completes (exec (.st sz a b imm) s) (fun t =>
          t.th = { s.th with spin := 0, pc := s.th.pc + 4 } ∧
          t = { s with th := t.th, core := { s.core with spad := s.core.spad.writeN o (stBytes sz) (s.getS b).toNat } })) ∧
      (va % ldBytes ty = 0 → s.core.spadSize < o + ldBytes ty →
        exec (.ld ty d a imm) s = .next (s.fault { cause := 10, fva := wd o })) ∧
      (va % stBytes sz = 0 → s.core.spadSize < o + stBytes sz →
        exec (.st sz a b imm) s = .next (s.fault { cause := 10, fva := wd o }))) ∧
  (∀ (s : State) (ty : LdTy) (sz : StW) (d a b : Reg) (imm : BitVec 12),
    let x := s.getS a + imm.signExtend 64
    let cl := clusterOf s.coreId
    let size := (s.sscrOf cl).toNat % 16 * 262144
    let mine := s.core.sys.ctxid.toNat = (s.sscrOf cl).toNat / 2 ^ 32 % 2 ^ 16
    (x.toNat % ldBytes ty = 0 → x.toNat + ldBytes ty ≤ size → mine → ∃ u : State,
      u = { s with store := { s.store with drowsy := u.store.drowsy } } ∧ (∀ b, b ∈ u.store.drowsy → b ∈ s.store.drowsy) ∧
      Completes (exec (.ssld ty d a imm) s)
        (WritesS u d (loaded (ldSigned ty) (ldBytes ty) ((s.ssOf cl).readN x.toNat (ldBytes ty))) 4)) ∧
    (x.toNat % stBytes sz = 0 → x.toNat + stBytes sz ≤ size → mine →
      Completes (exec (.ssst sz a b imm) s) (fun t =>
        t.ssOf cl = (s.ssOf cl).writeN x.toNat (stBytes sz) (s.getS b).toNat ∧ (∀ c, c ≠ cl → t.ssOf c = s.ssOf c) ∧
        t.th = { s.th with pc := s.th.pc + 4 } ∧
        t = { s with th := t.th, store := { s.store with ss := t.store.ss, drowsy := t.store.drowsy } } ∧
        (∀ b, b ∈ t.store.drowsy → b ∈ s.store.drowsy) ∧ SameBytes s t)) ∧
    (x.toNat % ldBytes ty ≠ 0 → exec (.ssld ty d a imm) s = .next (s.fault { cause := 5, fva := x })) ∧
    (x.toNat % stBytes sz ≠ 0 → exec (.ssst sz a b imm) s = .next (s.fault { cause := 5, fva := x })) ∧
    (x.toNat % ldBytes ty = 0 → (size < x.toNat + ldBytes ty ∨ ¬ mine) →
      exec (.ssld ty d a imm) s = .next (s.fault { cause := 11, fva := x })) ∧
    (x.toNat % stBytes sz = 0 → (size < x.toNat + stBytes sz ∨ ¬ mine) →
      exec (.ssst sz a b imm) s = .next (s.fault { cause := 11, fva := x })))

/-! ## System registers (06, 16) -/

/-- R135, R182, R188, R222: at its read level and outside a block of virtual processors, `sysrd` completes with the register's
value; of all reads only that of `MSTATE` changes anything, its FCAUSE, but that `FQUEUE` and `LIFTW` are read as words of memory.
An access to `MSTATE`, a `TSHAPE`, `ORFLT0`, `ORFLT1` or `ORPROBE` waits while the core's matrix queue holds an instruction; no
other read waits. -/
def Obligations.SysregReads : Prop :=
  ∀ (s : State) (d : Reg) (r : SysReg),
    s.th.vp = none → sysReadLevel r ≤ s.th.level.toNat →
      let waits := r = .mstate ∨ (∃ i, r = .tshape i) ∨ r = .orflt0 ∨ r = .orflt1 ∨ r = .orprobe
      (waits → s.core.mat.queue ≠ [] → exec (.sysrd d r) s = .next s) ∧
      (r ≠ .fqueue → r ≠ .liftw → (waits → s.core.mat.queue = []) → Completes (exec (.sysrd d r) s)
        (WritesS (if r = .mstate then { s with core := { s.core with mat := { s.core.mat with fcause := 0 } } } else s) d
          (s.sysValue r) 4)) ∧
      (let word := fun (r : SysReg) (off hi lo : Nat) =>
         Completes (exec (.sysrd d r) s) (fun t => ∃ s1 v, MemOnly s s1 ∧ WritesS s1 d v 4 t ∧
           ∀ lin, s.place (s.ctxtab.toNat + 128 * s.core.sys.ctxid.toNat + off) = .media lin → lin % 8 = 0 → s.Settled (lin / 128) →
             v = BitVec.ofNat 64 (s.homeBytes lin 8 / 2 ^ lo % 2 ^ (hi - lo + 1) * 2 ^ lo))
       (r = .fqueue → word .fqueue 0x40 55 7) ∧ (r = .liftw → word .liftw 0x48 4 0))

/-- R131, R132, R182, R183, R368: where the fields of the composed registers stand. -/
def Obligations.SysregLayouts : Prop :=
  ∀ (s : State),
    s.th.vec.vl < 2 ^ 16 → s.th.vec.vlen < 2 ^ 16 → s.core.team < 8 → s.lanes s.coreId < 128 → s.coreId < 1536 →
    s.core.mat.queue.length ≤ 32 → s.core.mat.partner < 2 ^ 11 →
      let f := fun r off w => (s.sysValue r).toNat / 2 ^ off % 2 ^ w
      let m := s.core.mat
      (f .vstate 0 3 = rmCode s.th.vec.rm ∧ f .vstate 3 5 = s.th.vec.fx.toNat ∧ f .vstate 8 8 = 0 ∧
        f .vstate 16 16 = s.th.vec.vl ∧ f .vstate 32 16 = s.th.vec.vlen ∧ f .vstate 48 16 = 0) ∧
      (f .thread 0 2 = s.slot.val ∧ f .thread 4 3 = s.core.team ∧ f .thread 8 7 = s.lanes s.coreId ∧
        f .thread 16 11 = coreIdOf s.coreId ∧ f .thread 27 37 = 0) ∧
      (f .tstat 0 2 = s.th.level.toNat ∧ (f .tstat 2 1 = 1 ↔ s.th.intrap = true) ∧ (f .tstat 3 1 = 1 ↔ s.th.imask = true)) ∧
      (f .mstate 0 2 = mmodeCode m.mode ∧ f .mstate 2 2 = m.mvl.toNat ∧ f .mstate 4 3 = m.chain.toNat ∧
        (f .mstate 8 1 = 1 ↔ m.alive = true) ∧ (f .mstate 9 1 = 1 ↔ m.wlive = true) ∧
        f .mstate 10 6 = m.queue.length ∧ f .mstate 16 11 = m.partner ∧
        (∀ i : Fin 8, f .mstate (36 + i.val) 1 = 1 ↔ (rd m.recv i).isSome) ∧ f .mstate 44 4 = m.fcause.toNat) ∧
      (∀ i : Fin 8, let q := rd m.tshape i
        q.rows < 2 ^ 8 → q.cols < 2 ^ 8 →
          f (.tshape i) 0 6 = q.base.val ∧ f (.tshape i) 6 2 = 0 ∧ f (.tshape i) 8 8 = q.cols ∧ f (.tshape i) 16 8 = q.rows ∧
          f (.tshape i) 24 2 = 0 ∧ f (.tshape i) 26 6 = 9 ∧ f (.tshape i) 32 2 = q.owner.val ∧ f (.tshape i) 34 30 = 0) ∧
      (s.sysValue .cycle = BitVec.ofNat 64 s.cycle ∧ s.sysValue .lcount = s.th.lcount ∧ s.sysValue .lanebusy = s.th.laneBusy)

/-- R131, R134, R135, R217, R224, R227, R252, R253, R271, R338, R368, R387: what a `syswr` at the write level leaves in each
register, its reserved bits ignored, and RESOP for a reserved value; nothing else changes but the PC. `SSCR` gives its cluster's
slice scratch a size and an owner: the bytes below the new size stay, unless the owner changes, when all are zero. `FQUEUE` and
`LIFTW` are words of the context's entry. `CARVE` with PVALID behaves as `carve`, but raises RESOP where that refuses. That
`REGERR` takes every LANE and LOC is log 57, and that a write of `ORBASE` or `ORCNT` drops the fetches of records still to come
log 29, readings of the model. -/
def Obligations.SysregWrites : Prop :=
  ∀ (s : State) (a : Reg),
    s.th.vp = none → s.core.mat.queue = [] → s.th.level = 2 →
      let v := s.getS a
      let on := { s.th with pc := s.th.pc + 4 }
      let sys := s.core.sys
      let puts := fun (r : SysReg) (c : CoreRegs) =>
        exec (.syswr a r) s = .next { s with th := on, core := { s.core with sys := c } }
      let resop := fun (r : SysReg) => exec (.syswr a r) s = .next (s.fault { cause := 3 })
      let bits := fun (hi lo : Nat) => BitVec.ofNat 64 (v.toNat / 2 ^ lo % 2 ^ (hi - lo + 1) * 2 ^ lo)
      (∀ rm, rmCode rm = v.toNat % 8 → exec (.syswr a .vstate) s = .next { s with
        th := { on with vec := { s.th.vec with rm, fx := BitVec.ofNat 5 (v.toNat / 8) } } }) ∧
      ((v.toNat % 8 = 0 ∨ 6 ≤ v.toNat % 8) → resop .vstate) ∧
      exec (.syswr a .lcount) s = .next { s with th := { on with lcount := v } } ∧
      exec (.syswr a .tframe) s = .next { s with th := { on with tframe := bits 51 12 } } ∧
      exec (.syswr a .tstat) s = .next { s with th := { on with intrap := v.getLsbD 2, imask := v.getLsbD 3 } } ∧
      exec (.syswr a .mstate) s = .next { s with th := on } ∧
      puts .tvec { sys with tvec := bits 55 2 } ∧ puts .ttimer { sys with ttimer := v } ∧
      puts .ipend { sys with ipend := sys.ipend &&& ~~~ (v.setWidth 3) } ∧
      puts .ptroot { sys with ptroot := bits 51 20 } ∧ puts .ctxid { sys with ctxid := v.setWidth 16 } ∧
      puts .mcvec { sys with mcvec := bits 55 2 } ∧ puts .mcframe { sys with mcframe := bits 51 12 } ∧
      (256 ≤ v.toNat % 2 ^ 13 → v.toNat % 2 ^ 13 ≤ 4096 → puts .lease { sys with lease := v.setWidth 13 }) ∧
      ((v.toNat % 2 ^ 13 < 256 ∨ 4096 < v.toNat % 2 ^ 13) → resop .lease) ∧
      exec (.syswr a .orbase) s = .next { s with
        th := on, core := { s.core with sys := { sys with orbase := bits 55 6 }, rcache := [], rpend := [] } } ∧
      (v.toNat % 2 ^ 13 ≤ 4096 → exec (.syswr a .orcnt) s = .next { s with
        th := on, core := { s.core with sys := { sys with orcnt := v.setWidth 13 }, rcache := [], rpend := [] } }) ∧
      (4096 < v.toNat % 2 ^ 13 → resop .orcnt) ∧
      puts .regerr { sys with regerr := (BitVec.ofNat 64
        (v.toNat % 2 ^ 8 + v.toNat / 2 ^ 8 % 2 ^ 7 * 2 ^ 8 + v.toNat / 2 ^ 16 % 2 ^ 32 * 2 ^ 16)) } ∧
      (v.getLsbD 54 = false → puts .carve { sys with carve := (BitVec.ofNat 64 (sys.carve.toNat % 2 ^ 32 + 2 ^ 32 *
        (v.toNat / 2 ^ 32 % 2 ^ 6 + 2 ^ 8 * (v.toNat / 2 ^ 40 % 2 ^ 6) + 2 ^ 16 * (v.toNat / 2 ^ 48 % 2 ^ 6)))) }) ∧
      (let w := v.toNat / 2 ^ 32 % 2 ^ 22
       let f := fun off => w / 2 ^ off % 2 ^ 6
       let sum := f 0 + f 8 + f 16
       let m := s.core.mat
       let live := m.mode ≠ .v ∨ (∃ i : Fin 8, (rd m.recv i).isSome = true) ∨ (1 ≤ m.chain.toNat ∧ m.chain.toNat ≤ 5)
       let refused := f 0 < 2 ∨ f 8 < 1 ∨ 40 - s.core.heldOut < sum ∨ f 0 ≠ sys.carve.toNat % 2 ^ 6 ∧ live
       v.getLsbD 54 = true →
        (refused → resop .carve) ∧
        (¬ refused → puts .carve { sys with carve := (BitVec.ofNat 64
          (sys.carve.toNat % 2 ^ 32 + 2 ^ 32 * (f 0 + 2 ^ 8 * f 8 + 2 ^ 16 * f 16) + 2 ^ 54)) })) ∧
      (let cl := clusterOf s.coreId
       let old := s.sscrOf cl
       let size := v.toNat % 16
       let owner := v.toNat / 2 ^ 32 % 2 ^ 16
       (8 < size → resop .sscr) ∧
       (size ≤ 8 → Completes (exec (.syswr a .sscr) s) (fun t =>
        t.sscrOf cl = BitVec.ofNat 64 (size + owner * 2 ^ 32) ∧ (∀ c, c ≠ cl → t.sscrOf c = s.sscrOf c ∧ t.ssOf c = s.ssOf c) ∧
        ((s.ssOf cl).wf = true → ∀ o, (t.ssOf cl).read o =
          if owner = old.toNat / 2 ^ 32 % 2 ^ 16 ∧ o < size * 262144 then (s.ssOf cl).read o else 0) ∧
        t.th = on ∧ t = { s with th := on, store := { s.store with
          sscr := t.store.sscr, ss := t.store.ss, l2 := t.store.l2, media := t.store.media, poison := t.store.poison
          pblk := t.store.pblk, drowsy := t.store.drowsy } } ∧ (∀ b, b ∈ t.store.drowsy → b ∈ s.store.drowsy) ∧
        (s.store.media.wf = true → (∀ x ∈ s.store.l2, x.data < 256 ^ 32 ∧
            (x.dmask = 0 → (x.data, x.poison) = (s.store.media.readN (32 * x.addr) 32, s.store.poison.contains x.addr))) →
          ∀ k, t.store.sector k = s.store.sector k)))) ∧
      (let words := fun (r : SysReg) (off keep : Nat) => ∀ lin, s.place (s.ctxtab.toNat + 128 * sys.ctxid.toNat + off) = .media lin →
         lin % 8 = 0 → s.Settled (lin / 128) →
         Completes (exec (.syswr a r) s) (fun t => MemOnly { s with th := on } t ∧ t.homeBytes lin 8 = keep)
       words .fqueue 0x40 (bits 55 7).toNat ∧ (1 ≤ v.toNat % 32 → v.toNat % 32 ≤ 16 → words .liftw 0x48 (v.toNat % 32)) ∧
       ((v.toNat % 32 = 0 ∨ 16 < v.toNat % 32) → resop .liftw)) ∧
      exec (.syswr a .ctxtab) s = .next { s with th := on, ctxtab := bits 51 12 } ∧
      exec (.syswr a .recmap) s = .next { s with th := on, recmap := bits 51 12 }

/-- R135, R182, R188: `sysset` and `sysclr` of a register that may be written return it as it stood and write the union or the
difference, as `syswr` writes (a word of the context's entry is read as memory is); of `MSTATE` they return it, clear its FCAUSE
and change nothing else. In `IPEND` a one clears a bit for each of the three forms, so that `sysset` and `sysclr` clear too: the
model's reading, log 42. -/
def Obligations.SysregSetAndClear : Prop :=
  ∀ (s : State) (d a : Reg) (r : SysReg),
    s.th.vp = none → sysWriteLevel r ≤ s.th.level.toNat → s.core.mat.queue = [] →
    r ≠ .thread → r ≠ .cycle → r ≠ .lanebusy → (∀ i, r ≠ .tshape i) → r ≠ .orflt0 → r ≠ .orflt1 → r ≠ .orprobe → r ≠ .taskrec →
      ∃ s1, MemOnly s s1 ∧ (r ≠ .fqueue → r ≠ .liftw → s1 = s) ∧
      let old := s1.sysValue r
      let cleared := { s with core := { s.core with mat := { s.core.mat with fcause := 0 } } }
      (r = .mstate → Completes (exec (.sysset d a r) s) (WritesS cleared d old 4) ∧
        Completes (exec (.sysclr d a r) s) (WritesS cleared d old 4)) ∧
      (r ≠ .mstate → (∀ u, s1.sysPut r (old ||| s.getS a) = some u → Completes (exec (.sysset d a r) s) (WritesS u d old 4)) ∧
        (∀ u, s1.sysPut r (old &&& ~~~ s.getS a) = some u → Completes (exec (.sysclr d a r) s) (WritesS u d old 4)) ∧
        (∀ u, s.sysPut r (s.getS a) = some u → Completes (exec (.syswr a r) s) (GoesTo u (u.th.pc + 4))) ∧
        (s1.sysPut r (old ||| s.getS a) = none → exec (.sysset d a r) s = .next (s1.fault { cause := 3 })) ∧
        (s1.sysPut r (old &&& ~~~ s.getS a) = none → exec (.sysclr d a r) s = .next (s1.fault { cause := 3 })))

/-- R61, R66, R135, R362: below the level of its register a system register form raises PRIV, and so do the privileged instructions below
theirs; in a block of virtual processors the register forms and the system long forms raise ILLEGAL. -/
def Obligations.PrivilegeIsChecked : Prop :=
  ∀ (s : State) (d a b : Reg) (r : SysReg) (i : Fin 2) (imm : BitVec 2) (die : Fin 8) (entry : Fin 64) (rel inc : Bool),
    let privileged : List Instr := [.tret, .watchCore i d a b, .watchHome i d a b, .watchCount i d a b, .ctxsave rel inc d a b,
      .ctxload d a, .tlbinvVa a b, .tlbinvCtx a b, .tlbinvAll a b, .sysfence imm, .travset d a die entry, .rbind d a entry,
      .rload d entry, .runbind d entry, .runbindCtx d a entry]
    let priv : Out := .next (s.fault { cause := 2 })
    (s.th.vp = none →
      (s.th.level.toNat < sysReadLevel r → exec (.sysrd d r) s = priv) ∧
      (s.th.level.toNat < sysWriteLevel r →
        exec (.syswr a r) s = priv ∧ exec (.sysset d a r) s = priv ∧ exec (.sysclr d a r) s = priv) ∧
      (s.th.level = 0 → ∀ j ∈ privileged, exec j s = priv)) ∧
    (s.th.vp ≠ none →
      exec (.sysrd d r) s = .next (s.fault { cause := 1 }) ∧ exec (.syswr a r) s = .next (s.fault { cause := 1 }) ∧
      exec (.sysset d a r) s = .next (s.fault { cause := 1 }) ∧ exec (.sysclr d a r) s = .next (s.fault { cause := 1 }) ∧
      (∀ j ∈ privileged, exec j s = .next (s.fault { cause := 1 })) ∧ exec (.rquery d entry) s = .next (s.fault { cause := 1 }))

/-! ## Cache instructions and fences (11, 12) -/

/-- R249, R256, R262, R263: a prefetch or a wake never faults: it completes with nothing changed but the PC and what an access may
change; after `wake` the bank of the line's home is awake, after `wake.all` every bank of its slice. `flush` leaves no dirty
sector of the line in this core's L1, which keeps the line, and the bytes stored there stand at the home; after `flush.mem` they
stand in the stack's media, with those that L2 held newer, and L2 has no dirty sector of the line; `inval` writes them home and
leaves neither an L1 copy nor this die's RDC copy; `drop` leaves no L1 copy, and writes home what an exclusive line alone holds.
No other byte of the line changes, none of another, and no register; on an address of no line they only advance the PC. Where
links that are down stand between the core and the home, one that has to send there does not complete: which of them sends what is
the model's reading, log 52. -/
def Obligations.CacheInstructions : Prop :=
  (∀ (s : State) (a : Reg) (imm : BitVec 12),
    let on := { s with th := { s.th with pc := s.th.pc + 4 } }
    Completes (exec (.prefL1 a imm) s) (MemOnly on) ∧ Completes (exec (.prefL2 a imm) s) (MemOnly on) ∧
    Completes (exec (.wake a imm) s) (MemOnly on) ∧ Completes (exec (.wakeAll a imm) s) (MemOnly on) ∧
    (∀ s1 pa rc lin, s.locate (s.getS a + imm.signExtend 64).toNat 1 .read = (s1, .ok (.mem pa rc)) →
      s1.place pa = .media lin →
        Completes (exec (.wake a imm) s) (fun t => ¬ homeBank lin ∈ t.store.drowsy) ∧
        Completes (exec (.wakeAll a imm) s) (fun t => ∀ b, b / 16 = homeBank lin / 16 → ¬ b ∈ t.store.drowsy))) ∧
  (∀ (s : State) (a : Reg) (imm : BitVec 12) (s1 : State) (tg : Target),
    s.reach (s.getS a + imm.signExtend 64).toNat 1 1 .read = (s1, .ok tg) →
      let on := { s1 with th := { s1.th with pc := s.th.pc + 4 } }
      AccessOnly s s1 ∧
      (∀ pa rc lin, tg = .mem pa rc → s1.place pa = .media lin →
        let tag := pa / 128
        let clean := fun (t : State) => ∀ l, t.core.line tag = some l → ∀ i : Fin 4, (rd l.sec i).dmask = 0
        let cut := s1.cutOff s1.coreId (homeDie lin) = true
        let stored := ∃ l, s1.core.line tag = some l ∧ ∃ i : Fin 4, (rd l.sec i).dmask ≠ 0
        let owned := ∃ l, s1.core.line tag = some l ∧ l.excl = true
        let acts := fun (i : Instr) (sends : Prop) (P : State → Prop) =>
          (cut → sends → exec i s = .next s) ∧ (¬ (cut ∧ sends) → Completes (exec i s) P)
        -- what the home holds afterwards, where no other line is in the way
        let quiet := (∀ c l, (s1.coreAt c).exclLine (lin / 128) = some l → c = s1.coreId ∧ s1.core.line tag = some l) ∧
          ∀ k ∈ s1.fab.tasks, k.phase = .pending → k.rec_ / 128 ≠ lin / 128
        let inLine := fun x => x / 128 = lin / 128
        let home := fun (t : State) => quiet → HomeFrame s1 t [lin / 128] inLine ∧
          ∀ x, inLine x → (t.homeByte x).toNat = (s1.dirtyByte tag x).getD (s1.homeByte x).toNat
        let media := fun (t : State) => quiet → s1.store.media.wf = true → ∀ x, inLine x →
          ((s1.dirtyByte tag x).isSome = true ∨ s1.store.dirtyMask (x / 32) ≠ 0) →
            getB (t.store.mediaSector (x / 32)).1 (x % 32) 1 = (s1.dirtyByte tag x).getD (s1.homeByte x).toNat
        acts (.flush a imm) stored (fun t => MemOnly on t ∧ clean t ∧ home t ∧
          ∀ l, s1.core.line tag = some l → quiet → ∃ l', t.core.line tag = some l' ∧ l'.data = l.data ∧ l'.excl = l.excl) ∧
        acts (.flushMem a imm) True (fun t => MemOnly on t ∧ clean t ∧ home t ∧ media t ∧
          ∀ x ∈ t.store.l2, x.addr / 4 = lin / 128 → x.dmask = 0) ∧
        acts (.inval a imm) (stored ∨ owned) (fun t => MemOnly on t ∧ t.core.line tag = none ∧ home t ∧
          (remoteTo s1.coreId tag = true → t.store.rdcFind (dieOf s1.coreId) tag = none)) ∧
        acts (.drop a imm) owned (fun t => MemOnly on t ∧ t.core.line tag = none ∧ (owned → home t) ∧ (¬ owned → t.store = s1.store))) ∧
      ((∀ pa rc lin, tg = .mem pa rc → s1.place pa ≠ .media lin) →
        exec (.flush a imm) s = .next on ∧ exec (.flushMem a imm) s = .next on ∧
        exec (.inval a imm) s = .next on ∧ exec (.drop a imm) s = .next on))

/-- R276, R277: a fence with no earlier matrix instruction under way completes; its release half from `.clu` on leaves no dirty sector with a
byte that the thread stored, its acquire half from `.clu` on lets no later load use an L1 copy granted before it, and from `.pkg` on no
RDC copy. A release whose write-back would have to cross a link that is down does not complete (R277). The waits of a fence are over in its
step: log 48; which links a write-back crosses is the model's reading: log 52. -/
def Obligations.FenceResults : Prop :=
  ∀ (s : State) (sc : Scope),
    s.matBusy = false →
      let wide := sc ≠ .core
      let far := sc = .pkg ∨ sc = .fab
      let released := fun (t : State) => wide →
        ∀ l ∈ t.core.l1, ∀ i : Fin 4, (rd l.sec i).dmask ≠ 0 → rd (rd l.sec i).own t.slot = 0
      let acquired := fun (t : State) =>
        (wide → ∀ l : L1Line, l.excl = false → l.grant < s.seq → t.usable l = false) ∧ (far → t.th.acqRdc = s.seq)
      let kept := fun (t : State) =>
        MemOnly { s with th := { s.th with pc := s.th.pc + 4, acqL1 := t.th.acqL1, acqRdc := t.th.acqRdc } } t
      let cut := wide ∧ ∃ tag ∈ s.dirtyLines, s.cutOff s.coreId (homeDie (128 * linLine tag)) = true
      (¬ cut →
        Completes (exec (.fence sc) s) (fun t => kept t ∧ released t ∧ acquired t) ∧
        Completes (exec (.fenceRel sc) s) (fun t => kept t ∧ released t ∧ t.th.acqL1 = s.th.acqL1 ∧ t.th.acqRdc = s.th.acqRdc)) ∧
      (cut → exec (.fence sc) s = .next s ∧ exec (.fenceRel sc) s = .next s) ∧
      Completes (exec (.fenceAcq sc) s) (fun t => kept t ∧ acquired t)

/-! ## Traps (16) -/

/-- R370, R371: the words of a frame: INFO, RPC, FVA, FPA, FELEM, CONV, MATRIX, the scalar, predicate and pointer registers, PSIZE, the
routine section, the entries of the replay queue and the VP section. -/
def Obligations.FrameLayout : Prop :=
  ∀ (t : Thread) (x : Trap) (rpc : Word),
    x.cause < 2 ^ 8 → x.sub < 2 ^ 8 → t.unfinished.length ≤ 24 → (∀ c, t.convoy = some c → c.next < 8) →
    (∀ r, t.rtn = some r → r.upc < 512) → (∀ e ∈ t.unfinished, e.prog < 2 ^ 16 ∧ e.slot < 8 ∧ e.vl < 2 ^ 16) →
      let w := fun i => (frameWords t x rpc).getD i 0
      let f := fun i off n => (w i).toNat / 2 ^ off % 2 ^ n
      f 0 0 8 = x.cause ∧ f 0 8 8 = x.sub ∧ f 0 16 2 = t.level.toNat ∧ f 0 18 6 = 0 ∧ f 0 24 5 = t.unfinished.length ∧ f 0 29 3 = 0 ∧
      (f 0 32 1 = 1 ↔ t.convoy.isSome) ∧ (∀ c, t.convoy = some c → f 0 33 3 = c.next) ∧ (t.convoy = none → f 0 33 3 = 0) ∧ f 0 36 4 = 0 ∧
      (f 0 40 1 = 1 ↔ t.vp.isSome) ∧ (f 0 41 1 = 1 ↔ t.imask = true) ∧ f 0 42 22 = 0 ∧
      w 1 = rpc ∧ w 2 = x.fva ∧ w 3 = x.fpa ∧ w 4 = x.felem ∧ (∀ c, t.convoy = some c → w 5 = c.hdr) ∧
      w 6 = x.m0 ∧ w 7 = x.m1 ∧
      (∀ r : Reg, r ≠ 0 → w (7 + r.val) = rd t.s r) ∧ (∀ r : KReg, r ≠ 0 → w (38 + r.val) = rd t.k r) ∧
      (∀ r : PReg, w (54 + r.val) = rd t.p r ∧ f 62 (3 * r.val) 3 = (rd t.psz r).val) ∧ f 62 24 40 = 0 ∧ w 63 = 0 ∧
      (t.rtn = none → ∀ i, i < 10 → w (64 + i) = 0) ∧
      (∀ r, t.rtn = some r → f 64 63 1 = 1 ∧ f 64 0 6 = r.slot.val ∧ f 64 6 10 = 0 ∧ f 64 16 9 = r.upc ∧ f 64 25 7 = 0 ∧
        f 64 32 3 = rmCode r.rm ∧ f 64 35 28 = 0 ∧ w 65 = r.lc ∧ ∀ i : Fin 8, w (66 + i.val) = rd r.h i) ∧
      (∀ i, i < 22 → w (74 + i) = 0) ∧
      (∀ (i : Nat) (e : Replay), t.unfinished[i]? = some e →
        let at_ := 96 + 8 * i
        w at_ = e.pc ∧ f (at_ + 1) 0 16 = e.prog ∧ f (at_ + 1) 16 3 = e.slot ∧ f (at_ + 1) 20 2 = (if e.vector then 1 else 0) ∧
        f (at_ + 1) 24 1 = 0 ∧ (f (at_ + 1) 25 1 = 1 ↔ e.nowatch = true) ∧ f (at_ + 1) 26 38 = 0 ∧ f (at_ + 2) 0 3 = rmCode e.rm ∧
        f (at_ + 2) 16 16 = e.vl ∧ f (at_ + 2) 32 32 = 0 ∧ w (at_ + 3) = e.opa ∧ w (at_ + 4) = e.opb ∧ w (at_ + 5) = e.opc ∧
        w (at_ + 6) = 0 ∧ w (at_ + 7) = 0) ∧
      (∀ i, t.unfinished.length ≤ i → i < 24 → ∀ k, k < 8 → w (96 + 8 * i + k) = 0) ∧
      (t.vp = none → w 288 = 0 ∧ w 289 = 0 ∧ (frameWords t x rpc).length = 290) ∧
      (∀ v, t.vp = some v → w 288 = BitVec.ofNat 64 v.vl ∧ w 289 = v.join ∧ (frameWords t x rpc).length = 290 + v.vps.length ∧
        ∀ (i : Nat) (y : Vp), v.vps[i]? = some y → (w (290 + i)).toNat / 4 = y.pc.toNat / 4 ∧
          (y.pc.toNat % 4 = 0 → (f (290 + i) 0 1 = 1 ↔ y.stopped = true) ∧ (f (290 + i) 1 1 = 1 ↔ y.never = true)))

/-- R373, R396: a trap on a thread that is in none writes its frame at `TFRAME`, sets LEVEL to 1, INTRAP and IMASK, and goes on at
`TVEC`; the registers stay, the work in progress has left the thread, and nothing else changes but that its `mwait`, if it waits
at one, leaves the matrix queue. The entries that a frame holds are those of the model: log 46. -/
def Obligations.TrapEntry : Prop :=
  ∀ (s : State) (x : Trap) (rpc : Word),
    s.th.intrap = false → s.th.vp = none →
      let ws := frameWords s.th x rpc
      let u := if s.th.wait = .mwait then { s with core := { s.core with mat := { s.core.mat with
        queue := s.core.mat.queue.filter (fun e => !(e.mop == 12 && e.slot == s.slot)) } } } else s
      s.frameOk s.th.tframe.toNat (8 * ws.length) = true →
        let t := s.enterTrap x rpc
        MemOnly u (u.writeWords s.th.tframe.toNat ws) ∧
        t = { u.writeWords s.th.tframe.toNat ws with th := t.th } ∧
        t.th.pc = s.core.sys.tvec ∧ t.th.level = 1 ∧ t.th.intrap = true ∧ t.th.imask = true ∧
        t.th.s = s.th.s ∧ t.th.k = s.th.k ∧ t.th.p = s.th.p ∧ t.th.psz = s.th.psz ∧ t.th.vec = s.th.vec ∧
        t.th.lcount = s.th.lcount ∧ t.th.tframe = s.th.tframe ∧ t.th.unfinished = [] ∧ t.th.convoy = none ∧ t.th.rtn = none

/-- R369, R373, R377, R396, R408, R410: a trap inside a trap, or one whose frame cannot be written, raises a machine check with SUB 1; a
machine check writes its frame, with no address, element or matrix word of the trap not taken, at `MCFRAME`, sets LEVEL to 2 and IMASK,
leaves INTRAP, and goes on at `MCVEC`; the thread's `mwait` leaves the matrix queue; at level 2 it resets the module; during a start it stops
the start with reason 6. The reset is immediate: log 49; that it leaves device memory empty is log 4, and the values of cores and fabric that
no rule gives log 1, choices of the model. -/
def Obligations.NestedTrapsAndMachineChecks : Prop :=
  ∀ (s : State) (x : Trap) (rpc : Word) (src : Nat),
    s.th.vp = none →
      ((s.th.intrap = true ∨ s.frameOk s.th.tframe.toNat (8 * (frameWords s.th x rpc).length) = false) →
        s.enterTrap x rpc = s.machineCheck 1 rpc) ∧
      (let starting := s.boot.ok = false ∧ s.boot.stopped = false ∧ s.boot.mode ≠ 3
       let ws := frameWords s.th { cause := 63, sub := src } rpc
       let u := if s.th.wait = .mwait then { s with core := { s.core with mat := { s.core.mat with
         queue := s.core.mat.queue.filter (fun e => !(e.mop == 12 && e.slot == s.slot)) } } } else s
       let t := s.machineCheck src rpc
       (starting → t.boot.stopped = true ∧ t.boot.reason = 6 ∧
         t = { s with boot := { s.boot with stopped := true, reason := 6, stat := t.boot.stat } }) ∧
       (¬ starting → s.th.level ≠ 2 → s.frameOk s.core.sys.mcframe.toNat (8 * ws.length) = true →
        t = { u.writeWords s.core.sys.mcframe.toNat ws with th := t.th } ∧
        t.th.pc = s.core.sys.mcvec ∧ t.th.level = 2 ∧ t.th.intrap = s.th.intrap ∧ t.th.imask = true ∧
        t.th.s = s.th.s ∧ t.th.k = s.th.k ∧ t.th.p = s.th.p ∧ t.th.vec = s.th.vec) ∧
       (¬ starting → s.th.level = 2 → t.th = Thread.reset 0 0 ∧ t.store.media = [] ∧ t.fab = .reset ∧ t.core = .reset))

/-- R61, R67, R375: `trap` and `brk` are taken at the instruction with RPC after it and FVA their immediate; an encoding that is no
instruction raises ILLEGAL at itself, with the slot of a convoy in FELEM; in a block of virtual processors `trap` and `brk` raise
ILLEGAL. -/
def Obligations.TrapInstructions : Prop :=
  ∀ (s : State) (imm : BitVec 32) (slot : Nat),
    (s.th.vp = none →
      exec (.trap imm) s = .next (s.enterTrap { cause := 20, fva := imm.setWidth 64 } (s.th.pc + 8)) ∧
      exec (.brk imm) s = .next (s.enterTrap { cause := 19, fva := imm.setWidth 64 } (s.th.pc + 8)) ∧
      exec (.unassignedEncoding slot) s = .next (s.enterTrap { cause := 1, felem := BitVec.ofNat 64 slot } s.th.pc)) ∧
    (s.th.vp ≠ none →
      exec (.trap imm) s = .next (s.fault { cause := 1 }) ∧ exec (.brk imm) s = .next (s.fault { cause := 1 }))

/-- R360, R361, R370, R371, R372, R375–R377: outside a trap `tret` raises RESOP at level 1. It reads the frame at `TFRAME`, at
level 2 the one at `MCFRAME`; one that breaks the layout, that names an entry which may not stand there, or whose routine is not
the `rtn` at RPC raises RESOP, and one whose routine is not there ROUTINE_MISS. From any other it restores the registers and size
codes, LEVEL, the PC and RWATCH, clears INTRAP and IMASK or, at level 2, leaves the one and restores the other, takes up the
entries to reissue but for those with SKIP, and then the routine, the VPs, or the slots of the convoy from NEXT; after an MFAULT,
or a machine check that one had become, the held entry goes on. A thread that had been stopped is stopped again. Which frames are
sound is the model's reading: log 18, what the VPs resume with log 20, and the release after a machine check log 27. -/
def Obligations.TrapReturn : Prop :=
  ∀ (s : State),
    s.th.vp = none → 1 ≤ s.th.level.toNat →
      let machine := s.th.level = 2
      let base := (if machine then s.core.sys.mcframe else s.th.tframe).toNat
      let resop := fun (u : State) => exec .tret s = .next (u.fault { cause := 3 })
      (¬ machine → s.th.intrap = false → resop s) ∧
      (∀ s1 ws pa, (machine ∨ s.th.intrap = true) → s.frameOk base 0x910 = true → s.readWords base 290 = (s1, ws, some pa) →
        exec .tret s = .next (s1.fault { cause := 8, fva := wd (pa / 32 * 32), fpa := wd (pa / 32 * 32) })) ∧
      ((machine ∨ s.th.intrap = true) → s.frameOk base 0x910 = false → resop s) ∧
      ((machine ∨ s.th.intrap = true) → s.frameOk base 0x910 = true → ∀ s1 ws, s.readWords base 290 = (s1, ws, none) →
        let w := fun i => ws.getD i 0
        let f := fun i off n => (w i).toNat / 2 ^ off % 2 ^ n
        let nrep := f 0 24 5
        let vpact := f 0 40 1 = 1
        let cvalid := f 0 32 1 = 1
        let rvalid := f 64 63 1 = 1
        let n := if vpact then f 288 0 16 else 0
        let entry := fun k =>
          f (96 + 8 * k) 0 2 = 0 ∧ f (97 + 8 * k) 0 16 ≤ f (98 + 8 * k) 16 16 ∧ f (97 + 8 * k) 19 1 = 0 ∧ f (97 + 8 * k) 20 2 ≤ 1 ∧
          f (97 + 8 * k) 22 2 = 0 ∧ f (97 + 8 * k) 26 38 = 0 ∧ f (98 + 8 * k) 3 13 = 0 ∧ f (98 + 8 * k) 32 32 = 0 ∧
          w (102 + 8 * k) = 0 ∧ w (103 + 8 * k) = 0 ∧
          ∀ i m, (s1.fetchAt (w (96 + 8 * k)).toNat).2 = .ok (i, m) →
            (f (97 + 8 * k) 20 2 = 0 ∧ (∃ ty d a imm, i = .ld ty d a imm ∨ i = .ldHome ty d a imm ∨ i = .ldLast ty d a imm) ∨
              f (97 + 8 * k) 20 2 = 1 ∧ ∃ us xs u, i = .convoyIssue us xs ∧ us[f (97 + 8 * k) 16 3]? = some u ∧ u ≠ 6)
        let sound := f 0 18 6 = 0 ∧ f 0 29 3 = 0 ∧ f 0 36 4 = 0 ∧ f 0 43 21 = 0 ∧ f 0 16 2 ≠ 3 ∧ f 1 0 2 = 0 ∧
          (cvalid → f 5 0 2 = 0) ∧ (vpact → f 289 0 2 = 0) ∧ f 62 24 40 = 0 ∧ (∀ j, j < 8 → f 62 (3 * j) 3 ≤ 4) ∧
          f 64 6 10 = 0 ∧ f 64 25 7 = 0 ∧ f 64 35 28 = 0 ∧ nrep ≤ 24 ∧ (∀ k, k < nrep → entry k) ∧
          8 * n ≤ 16 * s.vlen ∧ s1.frameOk base (0x910 + 8 * n) = true
        (¬ sound → resop s1) ∧
        (sound → (∀ j, j < 4 → j ≠ s.slot.val → ∀ any,
            (s1.threadAt s1.coreId j).wait ≠ .stopped any ∧ (s1.threadAt s1.coreId j).mcStop ≠ some (some any)) →
          (machine → s.th.mcStop ≠ some none) → ∀ s2 pcs, s1.readWords (base + 0x910) n = (s2, pcs, none) →
          let kept := (List.range nrep).filter (fun k => f (97 + 8 * k) 24 1 == 0)
          let lets := ∃ h e es, s2.core.mat.held = some h ∧ s2.core.mat.queue = e :: es ∧ h.untaken = false ∧ e.slot = s.slot ∧
            (if machine then h.checked = true else f 0 0 8 = 16)
          let returns := fun (u t : State) =>
            t = { u with th := t.th, free := t.free, core := { u.core with mat := t.core.mat } } ∧
            (lets → t.core.mat = { s2.core.mat with held := none }) ∧ (¬ lets → t.core.mat = s2.core.mat) ∧
            t.th.pc = w 1 ∧ t.th.level.toNat = f 0 16 2 ∧
            t.th.intrap = (if machine then s.th.intrap else false) ∧ (t.th.imask = true ↔ machine ∧ f 0 41 1 = 1) ∧
            (∀ r : Reg, r ≠ 0 → t.getS r = w (7 + r.val)) ∧ (∀ r : KReg, r ≠ 0 → t.getK r = w (38 + r.val)) ∧
            (∀ r : PReg, t.getP r = w (54 + r.val) ∧ (rd t.th.psz r).val = f 62 (3 * r.val) 3) ∧
            t.th.vec = s.th.vec ∧ t.th.lcount = s.th.lcount ∧ t.th.tframe = s.th.tframe ∧ t.th.issue = none ∧ t.th.flight = [] ∧
            t.th.rwatch = (if f 0 42 1 = 1 then some (w 1) else none) ∧
            (∀ any, machine → s.th.mcStop = some (some any) → t.th.wait = .stopped any) ∧
            ((machine → s.th.mcStop = none) → t.th.wait = .none) ∧
            t.th.replay.length = kept.length ∧
            ∀ (i k : Nat) (e : Replay), kept[i]? = some k → t.th.replay[i]? = some e →
              e.pc = w (96 + 8 * k) ∧ (e.vector = true ↔ f (97 + 8 * k) 20 2 = 1) ∧ e.slot = f (97 + 8 * k) 16 3 ∧
              e.prog = f (97 + 8 * k) 0 16 ∧ e.vl = f (98 + 8 * k) 16 16 ∧ e.opa = w (99 + 8 * k) ∧ e.opb = w (100 + 8 * k) ∧
              e.opc = w (101 + 8 * k) ∧ (e.nowatch = true ↔ f (97 + 8 * k) 25 1 = 1) ∧
              (1 ≤ f (98 + 8 * k) 0 3 → f (98 + 8 * k) 0 3 ≤ 5 → rmCode e.rm = f (98 + 8 * k) 0 3)
          (¬ rvalid → Completes (exec .tret s) (fun t => MemOnly s s2 ∧ returns s2 t ∧ t.th.rtn = none ∧
            (¬ vpact → t.th.vp = none) ∧ (¬ cvalid → t.th.convoy = none) ∧
            (cvalid → ∃ c, t.th.convoy = some c ∧ c.hdr = w 5 ∧ c.next = f 0 33 3 ∧ c.after = w 1 ∧ c.slots = []) ∧
            (vpact → ∃ v, t.th.vp = some v ∧ v.vl = n ∧ v.join = w 289 ∧ v.cur = none ∧ v.vps.length = pcs.length ∧
              ∀ (i : Nat) (x : Vp) (p : Word), v.vps[i]? = some x → pcs[i]? = some p →
                x.pc.toNat = p.toNat / 4 * 4 ∧ x.stopped = p.getLsbD 0 ∧ x.never = p.getLsbD 1 ∧
                ∀ h y, s.th.vpHeld = some h → h.vps[i]? = some y → x.s = y.s ∧ x.k = y.k))) ∧
          (rvalid → ∀ s3 x, s2.fetchParcel (w 1).toNat = (s3, x) →
            let slot := f 64 0 6
            let miss := fun why => exec .tret s = .next (s3.fault { cause := 17, sub := why, felem := BitVec.ofNat 64 slot })
            (∀ e, x = .error e → exec .tret s = .next (s3.fault e)) ∧
            (∀ p, x = .ok p → (∀ sl d a b imm, decodeInstr p = .rtn sl d a b imm → sl.val ≠ slot) → resop s3) ∧
            (∀ p sl d a b imm, x = .ok p → decodeInstr p = .rtn sl d a b imm → sl.val = slot →
              let at_ := s3.core.bindingOf s3.core.sys.ctxid.toNat slot
              (at_ = none → miss 1) ∧ (∀ e, at_ = some e → e.words = none → miss 2) ∧
              (∀ e ms, at_ = some e → e.words = some ms → ms.length ≤ f 64 16 9 → miss 3) ∧
              (∀ e ms, at_ = some e → e.words = some ms → f 64 16 9 < ms.length → Completes (exec .tret s) (fun t =>
                returns s3 t ∧ t.th.vp = none ∧ t.th.convoy = none ∧ ∃ r, t.th.rtn = some r ∧ r.slot = sl ∧ r.upc = f 64 16 9 ∧
                  r.lc = w 65 ∧ (∀ i : Fin 8, rd r.h i = w (66 + i.val)) ∧ r.d = d ∧ r.a = a ∧ r.b = b ∧ r.imm = imm ∧
                  (1 ≤ f 64 32 3 → f 64 32 3 ≤ 5 → rmCode r.rm = f 64 32 3)))))))

/-! ## Vector instructions (07) -/

/-- R157, R161, R162: the integer instructions compute each active element exactly from its sources and keep its low bits, or clamp it
with `.sat`; a quotient by 0 is all ones and a remainder by 0 is a; the bitwise instructions, the shifts by a count modulo the width, the
move, and the comparisons, which write a mask. The latch rule for VL 0 is the model's reading: log 24. -/
def Obligations.VectorIntegerResults : Prop :=
  (∀ (s : State) (f : VF),
    s.tooLong [f.ty.bits] = false →
      let x := fun i => tyInt f.ty (s.elem .a f.a f.ty.bits i)
      let y := fun i => tyInt f.ty (s.elem .b f.b f.ty.bits i)
      let z := fun i => tyInt f.ty (s.elem .c f.c f.ty.bits i)
      let done := fun (i : Instr) (g : Nat → Int) => Completes (exec i s)
        (SlotWritesV s 0 f.d f.ty.bits 0 (s.onActive f (fun i =>
          if f.sat then clampInt f.ty (g i) else (g i % 2 ^ f.ty.bits).toNat)))
      done (.vaddInt f) (fun i => x i + y i) ∧ done (.vsubInt f) (fun i => x i - y i) ∧
      done (.vmulInt f) (fun i => x i * y i) ∧ done (.vmulh f) (fun i => x i * y i / 2 ^ f.ty.bits) ∧
      done (.vminInt f) (fun i => min (x i) (y i)) ∧ done (.vmaxInt f) (fun i => max (x i) (y i)) ∧
      done (.vmacc f) (fun i => x i * y i + z i) ∧
      done (.vdivInt f) (fun i => if y i = 0 then -1 else (x i).tdiv (y i)) ∧
      done (.vrem f) (fun i => if y i = 0 then x i else (x i).tmod (y i))) ∧
  (∀ (s : State) (f : VF) (r : VRel),
    s.tooLong [f.ty.bits] = false →
      let n := f.ty.bits
      let x := s.elem .a f.a n
      let y := s.elem .b f.b n
      let done := fun (i : Instr) (g : Nat → Nat) => Completes (exec i s) (SlotWritesV s 0 f.d n 0 (s.onActive f g))
      done (.vand f) (fun i => x i &&& y i) ∧ done (.vor f) (fun i => x i ||| y i) ∧ done (.vxor f) (fun i => x i ^^^ y i) ∧
      done (.vsll f) (fun i => x i <<< (y i % n)) ∧ done (.vsrl f) (fun i => x i >>> (y i % n)) ∧
      done (.vsra f) (fun i => (sint n (x i) / 2 ^ (y i % n) % 2 ^ n).toNat) ∧ done (.vmv f) x ∧
      Completes (exec (.vcmp r f) s) (SlotWritesM s (Fin.ofNat 8 f.d.val) f.msk 0 (fun i =>
        let a := tyInt f.ty (x i)
        let b := tyInt f.ty (y i)
        match r with
        | .eq => decide (a = b)
        | .ne => decide (a ≠ b)
        | .lt => decide (a < b)
        | .le => decide (a ≤ b)
        | .gt => decide (b < a)
        | .ge => decide (b ≤ a))))

/-- R108, R109, R159, R163: the rounding instructions round the exact result of each active element once, with a random value of 16
bits that matters under stochastic rounding only; the flags of every active element stick. -/
def Obligations.VectorFloatResults : Prop :=
  (∀ (fm : Fmt) (m : Rm) (sat : Bool) (r q : Nat) (e : Exact), m ≠ .rst → roundExact fm m sat r e = roundExact fm m sat q e) ∧
  ∀ (s : State) (f : VF),
    s.tooLong [f.ty.bits] = false →
      let fm := fmtOf f.ty
      let m := s.mode f.rm
      let x := fun i => fm.decode (s.elem .a f.a f.ty.bits i)
      let y := fun i => fm.decode (s.elem .b f.b f.ty.bits i)
      let z := fun i => fm.decode (s.elem .c f.c f.ty.bits i)
      let done := fun (i : Instr) (e : Nat → Exact) =>
        ∃ rnd : Nat → Nat, (∀ i, rnd i < 2 ^ 16) ∧
          Completes (exec i s) (SlotWritesV s 1 f.d f.ty.bits (s.allFx f (fun i => (roundExact fm m false (rnd i) (e i)).fx))
            (s.onActive f (fun i => (roundExact fm m false (rnd i) (e i)).code)))
      done (.vaddFloat f) (fun i => Val.add (m = .rdn) (x i) (y i)) ∧
      done (.vsubFloat f) (fun i => Val.add (m = .rdn) (x i) (y i).neg) ∧
      done (.vmulFloat f) (fun i => Val.mul (x i) (y i)) ∧
      done (.vdivFloat f) (fun i => Val.div fm.quotBits (x i) (y i)) ∧
      done (.vsqrt f) (fun i => Val.sqrt fm.quotBits (x i)) ∧
      done (.vfma f) (fun i => Val.fma (m = .rdn) (x i) (y i) (z i)) ∧
      done (.vfms f) (fun i => Val.fma (m = .rdn) (x i) (y i) (z i).neg) ∧
      done (.vfnma f) (fun i => Val.fma (m = .rdn) (x i).neg (y i) (z i))

/-- R93, R111, R148, R164, R165: minimum and maximum of two codes, and a conversion; the minimum and maximum, comparisons, classes and the
sign instructions on each active element, and conversions between types other than the block-scaled one. That a comparison or a class leaves
its unit's latch as it was is the model's reading: log 24. -/
def Obligations.VectorFloatUnrounded : Prop :=
  (∀ (fm : Fmt) (big : Bool) (u w : Nat),
    let x := fm.decode u
    let y := fm.decode w
    let secondIsLess := Val.lt y x = true ∨ Val.eq x y = true ∧ y.isNeg = true ∧ x.isNeg = false
    (fminmax fm big u w).2 = (if x.isSnan ∨ y.isSnan then 16 else 0) ∧
    (x.isNan = true → y.isNan = true → (fminmax fm big u w).1 = fm.nan) ∧
    (x.isNan = true → y.isNan = false → (fminmax fm big u w).1 = w) ∧
    (x.isNan = false → y.isNan = true → (fminmax fm big u w).1 = u) ∧
    (x.isNan = false → y.isNan = false →
      (fminmax fm false u w).1 = (if secondIsLess then w else u) ∧ (fminmax fm true u w).1 = (if secondIsLess then u else w))) ∧
  (∀ (dst src : ETy) (mode : Rm) (sat : Bool) (rnd c : Nat),
    let v := tyInt src c
    let lo : Int := if dst.isSigned then -(2 ^ (dst.bits - 1)) else 0
    let hi : Int := if dst.isSigned then 2 ^ (dst.bits - 1) - 1 else 2 ^ dst.bits - 1
    (dst.isInt = true → src.isInt = true → convert dst src mode sat rnd c =
      { code := ((if sat then max lo (min hi v) else v) % 2 ^ dst.bits).toNat, fx := 0, drew := false }) ∧
    (¬ (dst.isInt = true ∧ src.isInt = true) → convert dst src mode sat rnd c = roundTo dst mode sat rnd (tyVal src c))) ∧
  (∀ (s : State) (f : VF) (r : FRel),
    s.tooLong [f.ty.bits] = false →
      let fm := fmtOf f.ty
      let x := s.elem .a f.a f.ty.bits
      let y := s.elem .b f.b f.ty.bits
      let neg := fun c => bit c (fm.width - 1)
      let sign := fun (g : Bool → Bool → Bool) i =>
        if fm.isNan (x i) then fm.nan
        else x i % 2 ^ (fm.width - 1) + (if g (neg (x i)) (neg (y i)) then 2 ^ (fm.width - 1) else 0)
      let done := fun (i : Instr) (fx : Nat → BitVec 5) (g : Nat → Nat) =>
        Completes (exec i s) (SlotWritesV s 0 f.d f.ty.bits (s.allFx f fx) (s.onActive f g))
      done (.vminFloat f) (fun i => (fminmax fm false (x i) (y i)).2) (fun i => (fminmax fm false (x i) (y i)).1) ∧
      done (.vmaxFloat f) (fun i => (fminmax fm true (x i) (y i)).2) (fun i => (fminmax fm true (x i) (y i)).1) ∧
      done (.vfclass f) (fun _ => 0) (fun i => fclassify fm (x i)) ∧
      done (.vsgnj f) (fun _ => 0) (sign (fun _ b => b)) ∧ done (.vsgnn f) (fun _ => 0) (sign (fun _ b => !b)) ∧
      done (.vsgnx f) (fun _ => 0) (sign (fun a b => a != b)) ∧
      Completes (exec (.vfcmp r f) s) (SlotWritesM s (Fin.ofNat 8 f.d.val) f.msk
        (s.allFx f (fun i => (fcompare fm r (x i) (y i)).2)) (fun i => (fcompare fm r (x i) (y i)).1))) ∧
  (∀ (s : State) (f : VF) (src : ETy),
    vcvtSrc f = some src → f.ty ≠ .mxf4 → src ≠ .mxf4 → s.tooLong [f.ty.bits, src.bits] = false →
      let r := fun (rnd : Nat → Nat) i => convert f.ty src (s.mode f.rm) f.sat (rnd i) (s.elem .a f.a src.bits i)
      ∃ rnd : Nat → Nat, (∀ i, rnd i < 2 ^ 16) ∧
        Completes (exec (.vcvt f) s) (SlotWritesV s 0 f.d f.ty.bits (s.allFx f (fun i => (r rnd i).fx))
          (s.onActive f (fun i => (r rnd i).code))))

/-- R166: the mask instructions, and the element numbers that `viota` and `vid` write. That an instruction which writes a mask or a scalar
leaves its unit's latch as it was is the model's reading: log 24. -/
def Obligations.VectorMaskResults : Prop :=
  ∀ (s : State) (f : VF),
    let a := bit (s.maskOf f.a)
    let b := bit (s.maskOf f.b)
    let d := Fin.ofNat 8 f.d.val
    let marked := (s.actives f).filter a
    Completes (exec (.vmand f) s) (SlotWritesM s d f.msk 0 (fun i => a i && b i)) ∧
    Completes (exec (.vmor f) s) (SlotWritesM s d f.msk 0 (fun i => a i || b i)) ∧
    Completes (exec (.vmxor f) s) (SlotWritesM s d f.msk 0 (fun i => a i != b i)) ∧
    Completes (exec (.vmnot f) s) (SlotWritesM s d f.msk 0 (fun i => !a i)) ∧
    (∀ r, f.a = .s r → Completes (exec (.vmk f) s)
      (SlotWritesM s d f.msk 0 (fun i => (s.scalar .a r i).getLsbD (i % 64)))) ∧
    (s.th.vp = none →
      (∃ v : Word, v.toNat = marked.length % 2 ^ 64 ∧ Completes (exec (.vmpop f) s) (fun t =>
        t.th.s = (s.setS (Fin.ofNat 32 f.d.val) v).th.s ∧ t.th.vec = s.th.vec ∧ SlotOnly s t)) ∧
      (∃ v : Word, (marked = [] → v = BitVec.allOnes 64) ∧ (∀ i, i ∈ marked → v.toNat ≤ i % 2 ^ 64 ∨ 2 ^ 64 ≤ s.vl) ∧
        (marked ≠ [] → s.vl < 2 ^ 64 → v.toNat ∈ marked) ∧ Completes (exec (.vmfirst f) s) (fun t =>
        t.th.s = (s.setS (Fin.ofNat 32 f.d.val) v).th.s ∧ t.th.vec = s.th.vec ∧ SlotOnly s t))) ∧
    (s.tooLong [f.ty.bits] = false →
      Completes (exec (.vmerge f) s) (SlotWritesV s 0 f.d f.ty.bits 0 (s.onActive f (fun i =>
        if bit (s.maskOf f.c) i then s.elem .a f.a f.ty.bits i else s.elem .b f.b f.ty.bits i))) ∧
      Completes (exec (.vid f) s) (SlotWritesV s 0 f.d f.ty.bits 0 (s.onActive f (fun i => i))) ∧
      (s.th.vp = none → Completes (exec (.viota f) s) (SlotWritesV s 0 f.d f.ty.bits 0 (s.onActive f (fun i =>
        (marked.filter (fun j => decide (j < i))).length)))))

/-- R167, R168: the permutes of untagged registers of other types than the block-scaled one. That `vtoo` leaves every latch as it was is the
model's reading: log 24. -/
def Obligations.VectorPermutes : Prop :=
  ∀ (s : State) (f : VF),
    s.th.vp = none → s.tooLong [f.ty.bits] = false → f.ty ≠ .mxf4 → s.taggedSrc f.a = false → s.taggedSrc f.b = false →
      let x := s.elem .a f.a f.ty.bits
      let o := s.offset f
      let done := fun (i : Instr) (w : Nat → Option Nat) => Completes (exec i s) (SlotWritesV s 4 f.d f.ty.bits 0 w)
      done (.vslideup f) (fun i => if o ≤ i then s.onActive f (fun i => x (i - o)) i else none) ∧
      done (.vslidedn f) (s.onActive f (fun i => if i + o < s.vl then x (i + o) else 0)) ∧
      done (.vperm f) (s.onActive f (fun i =>
        let k := s.elem .b f.b f.ty.bits i
        if k < s.vl then x k else 0)) ∧
      done (.vcompress f) (fun k => ((s.actives f)[k]?).map x) ∧
      done (.vbcast f) (s.onActive f (fun _ => if o < s.vl then x o else 0)) ∧
      (∀ r c, f.a = .v r c → 8 * s.nLanes * o < s.vlen → Completes (exec (.vtoo f) s) (fun t =>
        t.th.vec = { s.th.vec with o := (wr s.th.vec.o (Fin.ofNat 8 f.d.val)
          (getB (s.vreg r).data (o * (8 * s.nLanes)) (8 * s.nLanes))) } ∧
        t.th.s = s.th.s ∧ SlotOnly s t))

/-- R169, R170: a reduction writes element 0 alone: an integer sum is exact and then wrapped or clamped once; an ordered floating sum
adds the active elements in increasing order, with `.rst` apart. Without `.ord` a floating sum has some value: the order is free, log 3.
-/
def Obligations.VectorReductions : Prop :=
  ∀ (s : State) (f : VF),
    s.th.vp = none → s.tooLong [f.ty.bits] = false →
      let x := s.elem .a f.a f.ty.bits
      let x0 := s.elem .b f.b f.ty.bits 0
      let xs := s.actives f
      let at0 := fun (v : Nat) i => if i = 0 then some v else none
      let done := fun (i : Instr) (v : Nat) => Completes (exec i s) (SlotWritesV s 5 f.d f.ty.bits 0 (at0 v))
      done (.vredand f) (xs.foldl (fun a i => a &&& x i) x0) ∧ done (.vredor f) (xs.foldl (fun a i => a ||| x i) x0) ∧
      done (.vredxor f) (xs.foldl (fun a i => a ^^^ x i) x0) ∧
      (f.ty.isInt = true →
        (∃ v, tyInt f.ty v = xs.foldl (fun a i => min a (tyInt f.ty (x i))) (tyInt f.ty x0) ∧ done (.vredmin f) v) ∧
        (∃ v, tyInt f.ty v = xs.foldl (fun a i => max a (tyInt f.ty (x i))) (tyInt f.ty x0) ∧ done (.vredmax f) v) ∧
        (let sum := tyInt f.ty x0 + (xs.map (fun i => tyInt f.ty (x i))).sum
         done (.vredsum f) (if f.sat then clampInt f.ty sum else (sum % 2 ^ f.ty.bits).toNat))) ∧
      (f.ty.isInt = false →
        let fm := fmtOf f.ty
        let m := s.mode f.rm
        (let mm := fun big => xs.foldl (fun (p : Nat × BitVec 5) i =>
           ((fminmax fm big p.1 (x i)).1, p.2 ||| (fminmax fm big p.1 (x i)).2)) (x0, 0)
         Completes (exec (.vredmin f) s) (SlotWritesV s 5 f.d f.ty.bits (mm false).2 (at0 (mm false).1)) ∧
         Completes (exec (.vredmax f) s) (SlotWritesV s 5 f.d f.ty.bits (mm true).2 (at0 (mm true).1))) ∧
        (f.ord = true → m ≠ .rst →
          let add := fun a i => roundExact fm m false 0 (Val.add (m = .rdn) (fm.decode a) (fm.decode (x i)))
          let sum := xs.foldl (fun (p : Nat × BitVec 5) i => ((add p.1 i).code, p.2 ||| (add p.1 i).fx)) (x0, 0)
          Completes (exec (.vredsum f) s) (SlotWritesV s 5 f.d f.ty.bits sum.2 (at0 sum.1))) ∧
        (∃ v fx, Completes (exec (.vredsum f) s) (SlotWritesV s 5 f.d f.ty.bits fx (at0 v))))

/-- R158: where VL passes VLMAX at the width of a vector register or of memory elements that a slot reads or writes, the slot
raises RESOP and changes nothing else, in a fetched block too; what raises ILLEGAL there is said outside one. A comparison counts
its sources, a conversion both its types. -/
def Obligations.VectorLengthIsChecked : Prop :=
  ∀ (s : State) (f : VF) (r : VRel) (q : FRel),
    let past := fun bits => s.vlen * 8 / bits < s.vl
    let resop : Out := .next (s.slotFault { cause := 3 })
    (past f.ty.bits →
      (∀ i ∈ ([.vaddInt f, .vsubInt f, .vmulInt f, .vmulh f, .vmacc f, .vminInt f, .vmaxInt f, .vdivInt f, .vrem f, .vand f, .vor f,
          .vxor f, .vsll f, .vsrl f, .vsra f, .vmv f, .vaddFloat f, .vsubFloat f, .vmulFloat f, .vdivFloat f, .vsqrt f, .vfma f,
          .vfms f, .vfnma f, .vminFloat f, .vmaxFloat f, .vfclass f, .vsgnj f, .vsgnn f, .vsgnx f, .vmerge f, .vid f] : List Instr),
        exec i s = resop) ∧
      (∀ i ∈ ([.vld f, .vldHome f, .vldLast f, .vlds f, .vldsHome f, .vldx f, .vldxHome f, .vldxPeer f, .vst f, .vsts f, .vstx f,
          .vstxPeer f] : List Instr), exec i s = resop) ∧
      (s.th.vp = none →
        ∀ i ∈ ([.viota f, .vslideup f, .vslidedn f, .vperm f, .vcompress f, .vbcast f, .vredsum f, .vredmin f, .vredmax f,
          .vredand f, .vredor f, .vredxor f, .vldff f] : List Instr), exec i s = resop) ∧
      (f.a.isMain = true ∨ f.b.isMain = true → exec (.vcmp r f) s = resop ∧ exec (.vfcmp q f) s = resop) ∧
      (AmoTy.ofEty f.ty ≠ none → (f.ord = false ∨ s.th.vp = none) →
        ∀ i ∈ ([.vamoAdd f, .vamoMin f, .vamoMax f, .vamoAnd f, .vamoOr f, .vamoXor f, .vamoSwap f, .vamoCas f] : List Instr),
          exec i s = resop) ∧
      (s.th.vp = none → s.actives f ≠ [] → exec (.ldt f) s = resop)) ∧
    (∀ src, vcvtSrc f = some src → (past f.ty.bits ∨ f.a.isMain = true ∧ past src.bits) → exec (.vcvt f) s = resop)

/-! ## Vector memory and atomics (07, 11, 13) -/

/-- R171, R174, R175: a load slot whose elements all pass their checks writes them and finishes; one whose element e fails has written
the elements below e and raises that element's trap; but `vldff` sets VL to the lowest element that fails, when that is above the lowest
active one, and raises no trap. -/
def Obligations.VectorLoads : Prop :=
  ∀ (s : State) (f : VF),
    f.ty ≠ .mxf4 → s.tooLong [f.ty.bits] = false →
      let n := f.ty.bits / 8
      let done := fun (i : Instr) (kind : LoadKind) (ea : Nat → Nat) => ∀ s1 r,
        s.loadElems kind n ea (s.remaining f) = (s1, r) →
          (s.fab.falling = none → AccessOnly s s1) ∧
          (r.stop = none → Completes (exec i s) (SlotWritesV s1 2 f.d f.ty.bits 0 (look r.vals))) ∧
          (∀ e x, r.stop = some (e, x) → exec i s = .next ((s1.writeV f.d f.ty.bits r.vals).elemFault e x))
      done (.vld f) .plain (s.unitEa f) ∧ done (.vldHome f) .home (s.unitEa f) ∧
      done (.vlds f) .plain (s.strideEa f) ∧ done (.vldsHome f) .home (s.strideEa f) ∧
      (s.spanBreaks f = false → done (.vldx f) .plain (s.indexEa f) ∧ done (.vldxHome f) .home (s.indexEa f)) ∧
      (s.spanBreaks f = true →
        exec (.vldx f) s = .next (s.slotFault { cause := 3 }) ∧ exec (.vldxHome f) s = .next (s.slotFault { cause := 3 }) ∧
        exec (.vstx f) s = .next (s.slotFault { cause := 3 })) ∧
      (∀ s1 r, s.loadElems .plain n (s.unitEa f) (s.remaining f) = (s1, r) → r.stop = none →
        let u := (s1.dropEarlier ((s.earlier f).map (fun i => (s.unitEa f i, n)))).dropAll r.places
        MemAndDrops s1 u ∧ Completes (exec (.vldLast f) s) (SlotWritesV u 2 f.d f.ty.bits 0 (look r.vals))) ∧
      (s.th.vp = none → ∀ s1 r, s.loadElems .plain n (s.unitEa f) (s.remaining f) = (s1, r) →
        (r.stop = none → Completes (exec (.vldff f) s) (SlotWritesV s1 2 f.d f.ty.bits 0 (look r.vals))) ∧
        (∀ e x, r.stop = some (e, x) → (s.actives f).head? = some e →
          exec (.vldff f) s = .next ((s1.writeV f.d f.ty.bits r.vals).elemFault e x)) ∧
        (∀ e x, r.stop = some (e, x) → (s.actives f).head? ≠ some e → Completes (exec (.vldff f) s) (fun t =>
          t.th.vec.vl = e ∧ (∀ i, e ≤ i → t.velem f.d f.ty.bits i = s1.velem f.d f.ty.bits i) ∧
          (∀ q, q ≠ f.d → t.vreg q = s1.vreg q) ∧ t.th.s = s1.th.s ∧ t.th.convoy = s1.th.slotDone.convoy ∧ SlotOnly s1 t)))

/-- R171, R228: in the scratchpad, with every element aligned and inside it and no watchpoint set, a load slot reads each active element
from its address, and a store slot writes the active elements in increasing order. -/
def Obligations.VectorScratchpadAccesses : Prop :=
  ∀ (s : State) (f : VF),
    f.ty ≠ .mxf4 → s.tooLong [f.ty.bits] = false → s.slotNow.prog = 0 → s.fab.falling = none →
    (∀ i : Fin 2, (rd s.core.watch i).rd = false ∧ (rd s.core.watch i).wr = false) →
      let n := f.ty.bits / 8
      let base := 0x00FFFF0000000000
      let inPad := fun (ea : Nat → Nat) => ∀ i, i < s.vl → s.active f.msk i = true →
        base ≤ ea i ∧ ea i < base + 2 ^ 20 ∧ ea i - base + n ≤ s.core.spadSize ∧ ea i % n = 0
      let loads := fun (i : Instr) (ea : Nat → Nat) => inPad ea → Completes (exec i s)
        (SlotWritesV s 2 f.d f.ty.bits 0 (s.onActive f (fun i => s.core.spad.readN (ea i - base) n)))
      let stores := fun (i : Instr) (ea : Nat → Nat) => inPad ea → Completes (exec i s) (fun t =>
        t.core = { s.core with spad := ((s.actives f).foldl
          (fun m i => m.writeN (ea i - base) n (s.elem .c f.c f.ty.bits i)) s.core.spad) } ∧
        t.th = { s.th with
          vec := { s.th.vec with lat := t.th.vec.lat }, laneBusy := t.th.laneBusy, issue := none, spin := 0
          convoy := s.th.slotDone.convoy } ∧
        t = { s with th := t.th, core := t.core, free := t.free })
      loads (.vld f) (s.unitEa f) ∧ loads (.vldHome f) (s.unitEa f) ∧ loads (.vldLast f) (s.unitEa f) ∧
      loads (.vlds f) (s.strideEa f) ∧ loads (.vldsHome f) (s.strideEa f) ∧
      (s.spanBreaks f = false → loads (.vldx f) (s.indexEa f) ∧ loads (.vldxHome f) (s.indexEa f)) ∧
      (s.th.vp = none → loads (.vldff f) (s.unitEa f)) ∧
      stores (.vst f) (s.unitEa f) ∧ stores (.vsts f) (s.strideEa f) ∧
      (s.spanBreaks f = false → stores (.vstx f) (s.indexEa f))

/-- R172, R174, R176, R266: `vldo` fills an operand-file entry, the `.peer` forms reach the scratchpads of other cores and write their
failure mask, and `ldt` reads the media in column order through its traverse-table entry. An element of a `.peer` form that fails traps
never; one that does not fail and is misaligned raises DALIGN, after the elements below it: log 21. -/
def Obligations.VectorOtherLoads : Prop :=
  ∀ (s : State) (f : VF),
    (s.th.vp = none → ∀ s1 r, s.loadElems .plain 8 (fun e => (s.pointer f.a + 8 * e) % 2 ^ 64)
        ((List.range s.nLanes).filter (fun e => decide (s.slotNow.prog ≤ e))) = (s1, r) → r.stop = none →
      Completes (exec (.vldo f) s) (fun t =>
        (∀ l, l < s.nLanes → getB (rd t.th.vec.o (Fin.ofNat 8 f.d.val)) (8 * l) 8 =
          (match look r.vals l with | some v => v % 2 ^ 64 | none => getB (rd s1.th.vec.o (Fin.ofNat 8 f.d.val)) (8 * l) 8)) ∧
        t.th.vec = { s1.th.vec with o := wr s1.th.vec.o (Fin.ofNat 8 f.d.val) (rd t.th.vec.o (Fin.ofNat 8 f.d.val)) } ∧
        t.th.s = s1.th.s ∧ SlotOnly s1 t)) ∧
    (s.tooLong [f.ty.bits] = false → s.spanBreaks f = false → s.slotNow.prog = 0 →
      let n := f.ty.bits / 8
      let act := fun i => i < s.vl ∧ s.active f.msk i = true
      let bad := fun i => ∃ k off, s.peerPlace f i = some (k, off) ∧ off % n ≠ 0
      let first := fun e => act e ∧ bad e ∧ ∀ i, i < e → act i → ¬ bad i
      let loadsTo := fun (m : Fin 8) (top : Nat) (t : State) =>
        (∀ i, t.velem f.d f.ty.bits i =
          (match (if act i ∧ i < top then s.peerPlace f i else none) with
            | some (k, off) => (s.coreAt k).spad.readN off n % 2 ^ f.ty.bits
            | none => s.velem f.d f.ty.bits i)) ∧
        (∀ i, bit (t.mask m) i =
          if i < s.vl then (if act i ∧ i < top then (s.peerPlace f i).isNone else bit (s.mask m) i) else false) ∧
        (∀ q, q ≠ f.d → t.vreg q = s.vreg q) ∧ (∀ q, q ≠ m → t.mask q = s.mask q) ∧ t.th.s = s.th.s
      let storesTo := fun (top : Nat) (t : State) =>
        (∀ k, (t.coreAt k).spad = ((s.actives f).filter (fun i => decide (i < top))).foldl (fun m i =>
          match s.peerPlace f i with
          | some (c, off) => if c = k then m.writeN off n (s.elem .c f.c f.ty.bits i) else m
          | none => m) (s.coreAt k).spad) ∧
        (∀ i, bit (t.mask (Fin.ofNat 8 f.d.val)) i =
          if i < s.vl then (if act i ∧ i < top then (s.peerPlace f i).isNone else bit (s.mask (Fin.ofNat 8 f.d.val)) i)
          else false) ∧
        (∀ q, t.vreg q = s.vreg q) ∧ t.th.s = s.th.s ∧ t.store = s.store ∧ t.fab = s.fab
      (∀ m c, f.c = .v m c → m.val < 8 →
        ((∀ i, act i → ¬ bad i) →
          Completes (exec (.vldxPeer f) s) (fun t => loadsTo (Fin.ofNat 8 m.val) s.vl t ∧ SlotOnly s t)) ∧
        (∀ e, first e → ∃ u : State, u = { s with th := { s.th with vec := u.th.vec } } ∧ loadsTo (Fin.ofNat 8 m.val) e u ∧
          exec (.vldxPeer f) s = .next (u.elemFault e { cause := 5, fva := wd (s.indexEa f e) }))) ∧
      ((∀ i, act i → ¬ bad i) → Completes (exec (.vstxPeer f) s) (storesTo s.vl)) ∧
      (∀ e, first e → ∃ u : State, storesTo e u ∧
        exec (.vstxPeer f) s = .next (u.elemFault e { cause := 5, fva := wd (s.indexEa f e) }))) ∧
    (s.th.vp = none → s.tooLong [f.ty.bits] = false → s.actives f ≠ [] → ∀ r, f.b = .s r →
      let sel := (s.scalar .b r 0).toNat
      let die := sel / 2 ^ 8 % 8
      let entry := sel % 64
      let e := s.travEntry die entry
      let e0 := match f.c with | .s q => (s.scalar .c q 0).toNat | _ => 0
      s.stackPresent die = true → travValid e = true → travCtx e = s.core.sys.ctxid.toNat → 8 * travSize e = f.ty.bits →
      s.slotNow.prog = 0 →
      (∀ i, i ∈ s.actives f → ∃ a, travAddr e die (e0 + i) = some a ∧ s.store.poison.contains (a / 32) = false) →
        Completes (exec (.ldt f) s) (SlotWritesV s 2 f.d f.ty.bits 0 (s.onActive f (fun i =>
          match travAddr e die (e0 + i) with
          | some a => s.store.media.readN a (travSize e)
          | none => 0))))

/-- R118, R173, R174: a `.mxf4` load of whole blocks writes the elements, two to a byte from P on, and the scale byte of each block from
s[b] on, and tags the register; a store of a tagged register writes those bytes, in the scratchpad here; a store of an untagged register
raises RESOP. A base that is no multiple of 16 raises DALIGN at the lowest element left, and VL or a mask that breaks a block raises RESOP.
A source that has no tag counts as untagged: log 25. -/
def Obligations.BlockScaledMemory : Prop :=
  ∀ (s : State) (f : VF),
    f.ty = .mxf4 → s.tooLong [4] = false →
      let resop := fun (i : Instr) => exec i s = .next (s.slotFault { cause := 3 })
      let base := 0x00FFFF0000000000
      let inPad := fun a => base ≤ a ∧ a < base + 2 ^ 20 ∧ a - base < s.core.spadSize
      let whole := s.mxBroken f = false ∧ s.pointer f.a % 16 = 0 ∧ s.slotNow.prog = 0 ∧ s.fab.falling = none ∧
        (∀ i : Fin 2, (rd s.core.watch i).rd = false ∧ (rd s.core.watch i).wr = false) ∧
        (∀ i, i < s.vl → s.active f.msk i = true → inPad (s.pointer f.a + i / 2) ∧ inPad ((s.bScalar f i).toNat + i / 32))
      let byteOf := fun a => s.core.spad.readN (a - base) 1
      (s.mxBroken f = false → s.remaining f ≠ [] → s.pointer f.a % 16 = 0 →
        ∀ s1 r q, s.loadMx f .plain (s.remaining f) = (s1, r, q) → r.stop = none →
          Completes (exec (.vld f) s) (fun t =>
            (∀ i, t.velem f.d 4 i = match look r.vals.reverse i with | some v => v % 16 | none => s1.velem f.d 4 i) ∧
            (r.vals ≠ [] → (t.vreg f.d).tag = true) ∧
            (∀ j v, look q.reverse j = some v → getB (t.vreg f.d).side j 1 = v % 256) ∧
            (∀ k, k ≠ f.d → t.vreg k = s1.vreg k) ∧ t.th.s = s1.th.s ∧ SlotOnly s1 t)) ∧
      (whole → s.actives f ≠ [] → ∀ i ∈ ([.vld f, .vldHome f, .vldLast f] : List Instr),
        Completes (exec i s) (fun t =>
          (∀ i, t.velem f.d 4 i = if i < s.vl ∧ s.active f.msk i = true then byteOf (s.pointer f.a + i / 2) / 16 ^ (i % 2) % 16
            else s.velem f.d 4 i) ∧
          (∀ j, 32 * j < s.vl → s.active f.msk (32 * j) = true →
            getB (t.vreg f.d).side j 1 = byteOf ((s.bScalar f (32 * j)).toNat + j)) ∧
          (t.vreg f.d).tag = true ∧ (∀ k, k ≠ f.d → t.vreg k = s.vreg k) ∧ t.th.s = s.th.s ∧ SlotOnly s t)) ∧
      (∀ r c, f.c = .v r c → (s.vreg r).tag = true → whole →
        Completes (exec (.vst f) s) (fun t =>
          t.core = { s.core with spad := ((s.actives f).foldl (fun m i =>
            if i % 2 = 1 then m
            else
              let m1 := m.writeN (s.pointer f.a + i / 2 - base) 1 (s.elem .c f.c 4 i + 16 * s.elem .c f.c 4 (i + 1))
              if i % 32 = 0 then m1.writeN ((s.bScalar f i).toNat + i / 32 - base) 1 (getB (s.vreg r).side (i / 32) 1)
              else m1) s.core.spad) } ∧
          t.th = { s.th with
            vec := { s.th.vec with lat := t.th.vec.lat }
            laneBusy := t.th.laneBusy
            issue := none
            convoy := s.th.slotDone.convoy
            spin := if s.actives f = [] then s.th.spin else 0 } ∧
          t = { s with th := t.th, core := t.core, free := t.free })) ∧
      (s.mxBroken f = true → resop (.vld f) ∧ resop (.vldHome f) ∧ resop (.vldLast f) ∧ resop (.vst f)) ∧
      (∀ r c, f.c = .v r c → (s.vreg r).tag = false → resop (.vst f)) ∧
      ((∀ r c, f.c ≠ .v r c) → resop (.vst f)) ∧
      (∀ i is, s.mxBroken f = false → s.remaining f = i :: is → s.pointer f.a % 16 ≠ 0 →
        let dalign := fun (j : Instr) => exec j s = .next (s.elemFault i { cause := 5, fva := wd (s.unitEa f i) })
        dalign (.vld f) ∧ dalign (.vldHome f) ∧ dalign (.vldLast f) ∧
        (∀ r c, f.c = .v r c → (s.vreg r).tag = true → dalign (.vst f)))

/-- R297–R302, R402: an atomic whose checks pass returns the old value and goes on, and memory gets the value of R301: on the
scratchpad, with a draw of the thread's generator for a stochastic add; in device memory near, where the line becomes this core's,
or far at the home slice, after which it dispatches or fires what it has to and the predictor follows; in host memory, which takes
integer adds, swaps and compare-and-swaps alone; in a peer's. No other byte of memory changes. One whose checks fail traps and
performs nothing. A line is near where the core holds it exclusive, or `Settled`, far where `Settled`. The place of an atomic with
no L1 way is the model's reading: log 40; the draw of a peer's slice is free: log 3. -/
def Obligations.AtomicResults : Prop :=
  ∀ (s : State) (op : AmoOp) (ty : AmoTy) (sr far : Bool) (d a b : Reg) (i : Instr),
    (op = .add ∧ i = .amoAdd ty sr far d a b ∨ sr = false ∧
      (op = .min ∧ i = .amoMin ty far d a b ∨ op = .max ∧ i = .amoMax ty far d a b ∨ op = .and ∧ i = .amoAnd ty far d a b ∨
        op = .or ∧ i = .amoOr ty far d a b ∨ op = .xor ∧ i = .amoXor ty far d a b ∨
        op = .swap ∧ i = .amoSwap ty far d a b ∨ op = .cas ∧ i = .cas ty far d a b)) →
      let n := ty.ety.bits / 8
      let va := (s.getS a).toNat
      let v := (s.getS b).toNat % 2 ^ ty.ety.bits
      let expect := (s.getS d).toNat % 2 ^ ty.ety.bits
      let new := fun (rnd old : Nat) => amoValue op ty.ety sr rnd old v expect
      let q : AmoReq := { op, ty, sr, far, v, expect, lane := none }
      let gives := fun (u : State) (old : Nat) => Completes (exec i s) (WritesS u d (loaded ty.ety.isSigned n old) 4)
      let resop := fun (u : State) => exec i s = .next (u.fault { cause := 3 })
      -- the scratchpad (R299)
      (let o := va - 0x00FFFF0000000000
       let old := s.core.spad.readN o n
       let rnd := genDraw s.th.gen
       0x00FFFF0000000000 ≤ va → va < 0x00FFFF0000000000 + 2 ^ 20 → va % n = 0 → o + n ≤ s.core.spadSize →
       s.core.watchHit va n true true = none →
        gives { s with
          th := { s.th with gen := if amoDraws op ty.ety sr rnd old v then genStep s.th.gen else s.th.gen }
          core := { s.core with spad := match new rnd old with | some x => s.core.spad.writeN o n x | none => s.core.spad } } old) ∧
      (∀ s1 x, s.reach va n n .atomic = (s1, .error x) → exec i s = .next (s1.fault x)) ∧
      (∀ s1 pa rc, s.reach va n n .atomic = (s1, .ok (.mem pa rc)) → AccessOnly s s1 ∧
        let tag := pa / 128
        let tg : Target := .mem pa rc
        -- device memory (R297, R298)
        (∀ lin, s1.place pa = .media lin →
          let forced := far = true ∨ sr = true ∨ s1.isDeps lin = true ∨ (s1.armed (lin / 32 * 32)).isSome = true ∨ s1.core.ways = 0
          let goesFar := forced ∨ 2 ≤ (look s1.core.pred (tag % 256)).getD 0
          let inLine := fun x => x / 128 = lin / 128
          (s1.atomicPoison pa = true → MemOnly s1 (s1.amoMeets q tg) ∧ exec i s =
            .next ((s1.amoMeets q tg).fault { cause := 8, fva := wd (va / 32 * 32), fpa := wd (pa / 32 * 32) })) ∧
          (s1.atomicPoison pa = false → pa % n = 0 → ¬ goesFar → ∀ old, old < 256 ^ n →
            (∀ k, k < n → getB old k 1 = s1.ownByte tag (lin + k)) →
            let near := fun (u : State) => MemOnly s1 u ∧ gives u old ∧
              (∃ l, u.core.line tag = some l ∧ l.excl = true ∧ ∀ k, k < 128 →
                getB l.data k 1 = after (new 0 old) (lin % 128) n k (s1.ownByte tag (lin / 128 * 128 + k))) ∧
              ∀ x, ¬ inLine x → u.homeByte x = s1.homeByte x
            (∀ l, s1.core.line tag = some l → s1.core.exclLine (lin / 128) = some l →
              (∀ c, c ≠ s1.coreId → (s1.coreAt c).exclLine (lin / 128) = none) →
              ∃ u, near u ∧ u.store = s1.store ∧ u.core.pred = (s1.core.bump tag false).pred ∧
                ∀ x, inLine x → (u.homeByte x).toNat = after (new 0 old) lin n x (s1.homeByte x).toNat) ∧
            (s1.Settled (lin / 128) → ∃ u, near u ∧
              ∀ x, inLine x → (u.homeByte x).toNat = after (new 0 old) lin n x (s1.ownByte tag x))) ∧
          (s1.atomicPoison pa = false → pa % n = 0 → goesFar → s1.Settled (lin / 128) → ∀ old, old < 256 ^ n →
            (∀ k, k < n → getB old k 1 = s1.ownByte tag (lin + k)) →
            let rnd := genDraw (s1.sliceGenOf (homeSlice lin))
            ∃ u w c, MemOnly s1 u ∧ w = u.afterAtomic lin ∧ gives { w with core := w.core.bump tag c } old ∧
              (c = true ↔ ∃ x ∈ s1.store.atomLog, x.1 = lin / 128 ∧ x.2.1 ≠ s1.coreId ∧ s1.time < x.2.2 + 256 * nclk) ∧
              u.core.line tag = none ∧ HomeFrame s1 u [lin / 128] inLine ∧
              (∀ x, inLine x → (u.homeByte x).toNat = after (new rnd old) lin n x (s1.ownByte tag x)) ∧
              u.sliceGenOf (homeSlice lin) = (if amoDraws op ty.ety sr rnd old v then genStep (s1.sliceGenOf (homeSlice lin))
                else s1.sliceGenOf (homeSlice lin)) ∧
              (u.isDeps lin = false → (8 ≤ lin % 32 ∨ u.armed (lin / 32 * 32) = none) → w = u))) ∧
        -- host memory, peers, configuration space (R299, R402, R405)
        (∀ off, s1.place pa = .host off →
          let old := s1.store.host.readN off n
          let taken := ty.ety.isInt = true ∧ (op = .add ∨ op = .swap ∨ op = .cas)
          (taken → gives (match new 0 old with
            | some x => { s1 with store := { s1.store with host := s1.store.host.writeN off n x } }
            | none => s1) old) ∧
          (¬ taken → resop s1)) ∧
        (∀ j lin, s1.place pa = .peer j lin →
          let m := (look s1.store.peer j.val).getD []
          let old := m.readN lin n
          ∃ u rnd, rnd < 2 ^ 16 ∧ gives u old ∧ (new rnd old = none → u = { s1 with free := u.free }) ∧
            ∀ x, new rnd old = some x → u = { s1 with free := u.free, store := { s1.store with peer := u.store.peer } } ∧
              look u.store.peer j.val = some (m.writeN lin n x) ∧ ∀ k, k ≠ j.val → look u.store.peer k = look s1.store.peer k) ∧
        (∀ off, s1.place pa = .cfg off → resop s1))

/-- R303, R304: a vector atomic whose elements all pass their checks performs them and finishes; with `.ret`, and always for the
compare-and-swap, v[d] gets the old values; one whose element e fails has performed the elements below it. -/
def Obligations.VectorAtomics : Prop :=
  ∀ (s : State) (f : VF) (op : AmoOp) (ty : AmoTy) (i : Instr),
    (op = .add ∧ i = .vamoAdd f ∨ op = .min ∧ i = .vamoMin f ∨ op = .max ∧ i = .vamoMax f ∨ op = .and ∧ i = .vamoAnd f ∨
      op = .or ∧ i = .vamoOr f ∨ op = .xor ∧ i = .vamoXor f ∨ op = .swap ∧ i = .vamoSwap f ∨ op = .cas ∧ i = .vamoCas f) →
    AmoTy.ofEty f.ty = some ty → s.tooLong [f.ty.bits] = false → s.spanBreaks f = false → (f.ord = true → s.th.vp = none) →
      let bits := f.ty.bits
      let q : Nat → AmoReq := fun i =>
        { op, ty, sr := f.rm == .rst, far := false, v := s.elem .c f.c bits i, expect := s.velem f.d bits i, lane := some ((s.lane0 + i) % s.nLanes) }
      ∀ s1 ps e, s.checkElems q (s.indexEa f) (s.remaining f) = (s1, ps, e) →
        ∀ s2 es, s1.performElems f.ord q ps.length ps = (s2, es) →
          let back := f.ux = true ∨ op = .cas
          (e = none → Completes (exec i s) (fun t =>
            (∀ k, t.velem f.d bits k = match (if back then look es.reverse k else none) with
              | some v => v % 2 ^ bits
              | none => s2.velem f.d bits k) ∧
            (∀ r, r ≠ f.d → t.vreg r = s2.vreg r) ∧ t.th.s = s2.th.s ∧ SlotOnly s2 t)) ∧
          (∀ j x, e = some (j, x) →
            exec i s = .next ((if back then s2.writeV f.d bits es else s2).elemFault j x))

/-! ## Convoys, virtual processors, the carve-out (07, 08, 10) -/

/-- R35, R37, R154, R155, R160, R178, R179, R188, R190: `vstrip` grants VL and moves the chosen pointers past the old VL; a
convoy's header waits for the matrix queue where it has a vector slot, reads VL and RM once, and the PC passes the convoy; it
borrows the idle lanes of a sibling's convoy where they suffice, and takes back those that it has lent; in a fetched block a
convoy with a slot that is not VP-safe raises ILLEGAL; `vfetch` starts one VP for each active element from the thread's registers;
`vpjoin` stops its VP, and the last to stop leaves the phase with the thread's own registers. That the PC passes a convoy at its
header is the model's reading: log 45; which sibling lends: log 50. -/
def Obligations.ConvoysAndVirtualProcessors : Prop :=
  ∀ (s : State) (sz : Fin 5) (d a : Reg) (k : KReg) (units : List (Fin 7)) (slots : List (BitVec 64)) (msk : Option (Fin 8)),
    (s.th.vp = none →
      let old := s.th.vec.vl
      let picked := fun (p : PReg) => (s.getK k).getLsbD p.val = true
      let broken := old % 2 = 1 ∧ ∃ p, picked p ∧ rd s.th.psz p = 4
      let n := (s.getS a).toNat
      let most := min n (s.vlen * 8 / (if sz = 4 then 4 else 8 * 2 ^ sz.val))
      let vl := if sz = 4 ∧ 32 ≤ most then most - most % 32 else most
      (broken → exec (.vstrip sz d a k) s = .next (s.fault { cause := 3 })) ∧
      (¬ broken → Completes (exec (.vstrip sz d a k) s) (fun t =>
        t.th.vec = { s.th.vec with vl } ∧ t.getS d = (if d = 0 then 0 else BitVec.ofNat 64 (n - vl)) ∧
        (∀ q, q ≠ d → t.getS q = s.getS q) ∧
        (∀ p, picked p → t.getP p =
          s.getP p + BitVec.ofNat 64 (if rd s.th.psz p = 4 then old / 2 else old * 2 ^ (rd s.th.psz p).val)) ∧
        (∀ p, ¬ picked p → t.getP p = s.getP p) ∧
        t.th = { s.th with s := t.th.s, p := t.th.p, vec := t.th.vec, pc := s.th.pc + 4 } ∧ OnlyThread s t))) ∧
    (let issue := exec (.convoyIssue units slots) s
     let convoyOf := fun (t : State) (j : Fin 4) => (t.threadAt s.coreId j.val).convoy
     let after := s.th.pc + BitVec.ofNat 64 (4 + 8 * slots.length)
     let own := s.th.parkVp
     let lends := fun (j : Fin 4) (o : Convoy) (vl : Nat) =>
       j ≠ s.slot ∧ convoyOf s j = some o ∧ o.lent = false ∧ o.vl + vl ≤ s.nLanes
     (s.th.vp ≠ none → vpSafeConvoy units slots = false → issue = .next (s.fault { cause := 1 })) ∧
     ((s.th.vp = none ∨ vpSafeConvoy units slots = true) →
      ((∃ u ∈ units, u ≠ 6) → s.matBusy = true → issue = .next s) ∧
      ((s.matBusy = false ∨ ∀ u ∈ units, u = 6) →
       (1 ∈ units → s.core.mat.mode ≠ .v → issue = .next (s.fault { cause := 3 })) ∧
       ((1 ∈ units → s.core.mat.mode = .v) → Completes issue (fun t => ∃ c : Convoy,
        c.hdr = s.th.pc ∧ c.units = units ∧ c.slots = slots ∧ c.next = 0 ∧ c.rm = s.th.vec.rm ∧ c.after = after ∧ c.lent = false ∧
        (s.th.vp = none → c.vl = s.th.vec.vl) ∧ (∀ v, s.th.vp = some v → c.vl = v.vl) ∧
        (c.lender = none → c.lane0 = 0 ∧
          ∀ j o, (s.threadAt s.coreId j.val).occ = true → o.lender = none → ¬ lends j o c.vl) ∧
        (∀ j, c.lender = some j → ∃ o, lends j o c.vl ∧ c.lane0 = o.vl) ∧
        t.th = { own with pc := after, convoy := some c, vp := t.th.vp } ∧ (s.th.vp = none → t.th.vp = none) ∧
        (∀ v, own.vp = some v → ∃ w, t.th.vp = some w ∧ w = { v with todo := [], vps := w.vps } ∧
          ∀ i, w.vps[i]? = (v.vps[i]?).map (fun x => if i ∈ v.group then { x with pc := after } else x)) ∧
        t = { s with th := t.th, core := { s.core with parked := t.core.parked } } ∧
        (∀ j : Fin 4, j ≠ s.slot →
          t.threadAt s.coreId j.val = { s.threadAt s.coreId j.val with convoy := convoyOf t j } ∧
          (convoyOf s j = none → convoyOf t j = none) ∧
          (∀ o, convoyOf s j = some o → convoyOf t j = some { o with
            lane0 := if o.lender = some s.slot then 0 else o.lane0
            lender := if o.lender = some s.slot then none else o.lender
            lent := if c.lender = some j then true else o.lent })))))) ∧
     (∀ f, ∀ i ∈ ([.vmpop f, .vmfirst f, .viota f, .vslideup f, .vslidedn f, .vperm f, .vcompress f, .vbcast f, .vtoo f, .vredsum f,
        .vredmin f, .vredmax f, .vredand f, .vredor f, .vredxor f, .vldff f, .vldo f, .ldt f] : List Instr), vpSafeSlot i = false)) ∧
    (s.th.vp = none →
      let join := s.getS a
      let acts := (List.range s.th.vec.vl).filter (s.active msk)
      (join.toNat % 4 ≠ 0 → exec (.vfetch msk a) s = .next (s.fault { cause := 4, fva := join })) ∧
      (join.toNat % 4 = 0 → acts = [] → Completes (exec (.vfetch msk a) s) (GoesTo s (join + 4))) ∧
      (join.toNat % 4 = 0 → acts ≠ [] → Completes (exec (.vfetch msk a) s) (fun t => ∃ v,
        t.th = { s.th with vp := some v } ∧ OnlyThread s t ∧ v.vl = s.th.vec.vl ∧ v.join = join ∧ v.group = acts ∧
        v.s = s.th.s ∧ v.k = s.th.k ∧ v.vps.length = s.th.vec.vl ∧
        ∀ (i : Nat) (x : Vp), v.vps[i]? = some x →
          x.pc = s.th.pc + 4 ∧ x.s = s.th.s ∧ x.k = s.th.k ∧ x.stopped = false ∧ (x.never = false ↔ i ∈ acts))) ∧
      exec .vpjoin s = .next (s.fault { cause := 1 })) ∧
    (s.th.vp ≠ none →
      ((s.getS a).toNat % 4 ≠ 0 → exec (.vfetch msk a) s = .next (s.fault { cause := 4, fva := s.getS a })) ∧
      ((s.getS a).toNat % 4 = 0 → exec (.vfetch msk a) s = .next (s.fault { cause := 1 })) ∧
      exec (.vstrip sz d a k) s = .next (s.fault { cause := 1 })) ∧
    (∀ v i x, s.th.vp = some v → v.cur = some i → v.vps[i]? = some x → s.th.pc = v.join →
      ((∀ j y, v.vps[j]? = some y → j ≠ i → y.stopped = true ∨ y.never = true) → Completes (exec .vpjoin s) (fun t =>
        t.th = { s.th with s := v.s, k := v.k, acqL1 := v.acqL1, acqRdc := v.acqRdc, pc := v.join + 4, vp := none } ∧
        t = { s with th := t.th })) ∧
      ((∃ j y, v.vps[j]? = some y ∧ j ≠ i ∧ y.stopped = false ∧ y.never = false) → Completes (exec .vpjoin s) (fun t =>
        ∃ w, t.th.vp = some w ∧ w.vps[i]? = some { x with
            pc := s.th.pc, s := s.th.s, k := s.th.k, acqL1 := s.th.acqL1, acqRdc := s.th.acqRdc, stopped := true } ∧
          (∀ j, j ≠ i → w.vps[j]? = v.vps[j]?) ∧ t.th.pc = s.th.pc ∧ t = { s with th := t.th })))

/-- R184, R230, R232, R233, R234, R235: the status of `carve` and the pending split that it leaves, the three words of `carveq`, `szero`,
and the barrier: `tbar` stops its thread, and once the whole team stands there, its matrix queue empty and no record fetch outstanding, the
pending split is applied and every thread goes on; new registers leave the tiles undefined, with ROWS 0 and their other fields. -/
def Obligations.CarveAndBarrier : Prop :=
  ∀ (s : State) (d a b : Reg),
    (s.th.vp = none →
      let w := s.getS a
      let f := fun off n => w.toNat / 2 ^ off % 2 ^ n
      let c := s.core.sys.carve.toNat
      let sum := f 0 6 + f 8 6 + f 16 6
      let bad := f 22 42 ≠ 0 ∨ f 14 2 ≠ 0 ∨ f 6 2 ≠ 0 ∨ f 0 6 < 2 ∨ f 8 6 < 1
      let m := s.core.mat
      let free := 40 - s.core.heldOut
      let live := m.mode ≠ .v ∨ (∃ i : Fin 8, (rd m.recv i).isSome = true) ∨ (1 ≤ m.chain.toNat ∧ m.chain.toNat ≤ 5)
      let gives := fun (v : Word) => Completes (exec (.carve d a) s) (WritesS s d v 4)
      (bad → gives 1) ∧ (¬ bad → free < sum → gives 2) ∧
      (¬ bad → sum ≤ free → f 0 6 ≠ c % 2 ^ 6 → m.queue ≠ [] → exec (.carve d a) s = .next s) ∧
      (¬ bad → sum ≤ free → f 0 6 ≠ c % 2 ^ 6 → m.queue = [] → live → gives 3) ∧
      (¬ bad → sum ≤ free → (f 0 6 = c % 2 ^ 6 ∨ m.queue = [] ∧ ¬ live) → Completes (exec (.carve d a) s)
        (WritesS { s with core := { s.core with sys := { s.core.sys with
          carve := (BitVec.ofNat 64 (c % 2 ^ 32 + 2 ^ 32 * (w.toNat % 2 ^ 32) + 2 ^ 54)) } } } d 0 4)) ∧
      Completes (exec (.carveq 0 d) s) (WritesS s d (BitVec.ofNat 64 (c % 2 ^ 32)) 4) ∧
      Completes (exec (.carveq 1 d) s) (WritesS s d (BitVec.ofNat 64 (c / 2 ^ 32)) 4) ∧
      Completes (exec (.carveq 2 d) s)
        (WritesS s d (BitVec.ofNat 64 (free - (c % 2 ^ 6 + c / 2 ^ 8 % 2 ^ 6 + c / 2 ^ 16 % 2 ^ 6))) 4) ∧
      exec .tbar s = .next { s with th := { s.th with wait := .tbar } } ∧
      (let x := (s.getS a).toNat
       let n := (s.getS b).toNat
       let bounds := x % 128 = 0 ∧ n % 128 = 0 ∧ x + n ≤ c / 2 ^ 16 % 2 ^ 6 * 8192
       (¬ bounds → exec (.szero a b) s = .next (s.fault { cause := 3 })) ∧
       (bounds → n = 0 → Completes (exec (.szero a b) s) (GoesTo s (s.th.pc + 4))) ∧
       (bounds → n ≠ 0 → s.core.watchHit (0x00FFFF0000000000 + x) n false true = none → s.core.spad.wf = true →
        Completes (exec (.szero a b) s) (fun t =>
          (∀ o, t.core.spad.read o = if x ≤ o ∧ o < x + n then 0 else s.core.spad.read o) ∧
          t = { s with
            th := { s.th with spin := 0, pc := s.th.pc + 4 }, core := { s.core with spad := t.core.spad } })))) ∧
    (let n := s.ev.core
     let team := fun j => j < 4 ∧ (s.threadAt n j).occ = true
     let c := (s.coreAt n).sys.carve.toNat
     ((s.coreAt n).mat.queue ≠ [] ∨ (s.coreAt n).rpend ≠ [] → exec .teamBarrierRelease s = .next s) ∧
     ((∃ j, team j) → (∀ j, team j → (s.threadAt n j).wait = .tbar) → (s.coreAt n).mat.queue = [] → (s.coreAt n).rpend = [] →
      Completes (exec .teamBarrierRelease s) (fun t =>
        (∀ j, team j → (t.threadAt n j).wait = .none ∧ (t.threadAt n j).pc = (s.threadAt n j).pc + 4 ∧
          (t.threadAt n j).s = (s.threadAt n j).s ∧ (t.threadAt n j).k = (s.threadAt n j).k ∧
          (t.threadAt n j).vec.m = (s.threadAt n j).vec.m ∧ (t.threadAt n j).vec.o = (s.threadAt n j).vec.o) ∧
        (c / 2 ^ 54 % 2 = 0 → (t.coreAt n).sys.carve = (s.coreAt n).sys.carve) ∧
        (c / 2 ^ 54 % 2 = 1 →
          (t.coreAt n).sys.carve.toNat % 2 ^ 32 = c / 2 ^ 32 % 2 ^ 22 ∧ (t.coreAt n).sys.carve.toNat / 2 ^ 54 % 2 = 0 ∧
          (c / 2 ^ 32 % 2 ^ 6 ≠ c % 2 ^ 6 → ∀ j, team j → (t.threadAt n j).vec.vl = 0 ∧
            ∀ r, rd (t.threadAt n j).vec.v r = VRegister.zero) ∧
          (c / 2 ^ 32 % 2 ^ 6 ≠ c % 2 ^ 6 → ∀ i : Fin 8,
            rd (t.coreAt n).mat.tshape i = { rd (s.coreAt n).mat.tshape i with rows := 0 }) ∧
          (c / 2 ^ 32 % 2 ^ 6 = c % 2 ^ 6 → ∀ j, team j → (t.threadAt n j).vec = (s.threadAt n j).vec) ∧
          ((s.coreAt n).spad.wf = true → ∀ o, (t.coreAt n).spad.read o =
            if o < c / 2 ^ 48 % 2 ^ 6 * 8192 then (s.coreAt n).spad.read o else 0)))))

/-! ## Watchpoints, TLBs, contexts, routines (11, 15, 16) -/

/-- R265, R385, R386, R391, R392: at level 1 or 2 the watchpoint instructions give their status words and set, clear and read
watchpoints; `tlbinv` removes exactly the entries that it names from every TLB, once no access in flight and no `mdrainx` under
way has used one; `sysfence` discards fetched parcels, TLB entries or both; `travset` writes a traverse-table entry. Status 2 for
an address without a home slice is the model's choice: log 13; so is the answer 1 for a malformed image whose stack is not there: log 61. How
long `tlbinv` waits is the model's reading: log 48. -/
def Obligations.WatchpointsTlbsAndTables : Prop :=
  ∀ (s : State) (i : Fin 2) (d a b : Reg) (imm : BitVec 2) (die : Fin 8) (entry : Fin 64),
    s.th.vp = none → 1 ≤ s.th.level.toNat →
      let x := s.getS a
      let w := s.getS b
      let len := w.toNat / 4 % 8
      let bad := w.toNat / 32 ≠ 0 ∨ x.toNat % 2 ^ len ≠ 0
      let ctx := s.core.sys.ctxid.toNat
      let on := { s.th with pc := s.th.pc + 8 }
      (bad → Completes (exec (.watchCore i d a b) s) (WritesS s d 2 8) ∧ Completes (exec (.watchHome i d a b) s) (WritesS s d 2 8)) ∧
      (¬ bad → Completes (exec (.watchCore i d a b) s) (WritesS
        { s with core := { s.core with watch := (wr s.core.watch i
          (if w = 0 then .clear else { addr := x, rd := w.getLsbD 0, wr := w.getLsbD 1, len })) } } d 0 8)) ∧
      (¬ bad → ∀ s1 p, s.watchPlace x.toNat = (s1, p) → MemOnly s s1 ∧
        (∀ t, p = .error t → exec (.watchHome i d a b) s = .next (s1.fault t)) ∧
        (p = .ok none → Completes (exec (.watchHome i d a b) s) (WritesS s1 d 2 8)) ∧
        (∀ lin, p = .ok (some lin) →
          (∀ h, s1.homeWatchAt lin i = some h → h.ctx ≠ ctx → Completes (exec (.watchHome i d a b) s) (WritesS s1 d 1 8)) ∧
          ((∀ h, s1.homeWatchAt lin i = some h → h.ctx = ctx) → ∃ u : State,
            u = { s1 with store := { s1.store with homeW := u.store.homeW } } ∧
            u.homeWatchAt lin i = (if w = 0 then none else some {
              slice := homeSlice lin, idx := i.val, lin, rd := w.getLsbD 0, wr := w.getLsbD 1, len, ctx, core := s.coreId, hits := 0 }) ∧
            (∀ lin' j, homeSlice lin' ≠ homeSlice lin ∨ j ≠ i → u.homeWatchAt lin' j = s1.homeWatchAt lin' j) ∧
            Completes (exec (.watchHome i d a b) s) (WritesS u d 0 8)))) ∧
      (w ≠ 0 → Completes (exec (.watchCount i d a b) s) (WritesS s d (BitVec.ofNat 64 (2 ^ 63 + 2)) 8)) ∧
      (w = 0 → ∀ s1 p, s.watchPlace x.toNat = (s1, p) →
        (∀ t, p = .error t → exec (.watchCount i d a b) s = .next (s1.fault t)) ∧
        (p = .ok none → Completes (exec (.watchCount i d a b) s) (WritesS s1 d (BitVec.ofNat 64 (2 ^ 63 + 2)) 8)) ∧
        (∀ lin, p = .ok (some lin) →
          (s1.homeWatchAt lin i = none → Completes (exec (.watchCount i d a b) s) (WritesS s1 d 0 8)) ∧
          (∀ h, s1.homeWatchAt lin i = some h →
            (h.ctx ≠ ctx → Completes (exec (.watchCount i d a b) s) (WritesS s1 d (BitVec.ofNat 64 (2 ^ 63 + 1)) 8)) ∧
            (h.ctx = ctx → ∃ u : State, u = { s1 with store := { s1.store with homeW := u.store.homeW } } ∧
              u.homeWatchAt lin i = some { h with hits := 0 } ∧
              Completes (exec (.watchCount i d a b) s) (WritesS u d (BitVec.ofNat 64 h.hits) 8))))) ∧
      (let removes := fun (j : Instr) (gone : TlbEntry → Prop) =>
        let uses := fun (c va : Nat) => ∃ e, gone e ∧ e.covers c va = true ∧
          ((∃ n ∈ s.coreNos, e ∈ (s.coreAt n).tlb) ∨ ∃ p ∈ s.store.l2tlb, p.2 = e)
        let inUse := (∃ u ∈ s.fab.used, s.fab.inFlight u.1 = true ∧ uses u.2.1 u.2.2) ∨
          (∃ n ∈ s.coreNos, ∃ c e es, (s.coreAt n).mat.ctr = some c ∧ (s.coreAt n).mat.queue = e :: es ∧
            uses (s.coreAt n).sys.ctxid.toNat e.sv1.toNat)
        (inUse → exec j s = .next s) ∧ (¬ inUse → Completes (exec j s) (fun t =>
         (∀ n e, e ∈ (t.coreAt n).tlb ↔ e ∈ (s.coreAt n).tlb ∧ ¬ gone e) ∧
         (∀ p, p ∈ t.store.l2tlb ↔ p ∈ s.store.l2tlb ∧ ¬ gone p.2) ∧
         (∀ n, t.coreAt n = { s.coreAt n with tlb := (t.coreAt n).tlb }) ∧ t.th = on ∧
         t = { s with
           th := t.th, core := t.core, others := t.others, store := { s.store with l2tlb := t.store.l2tlb } }))
       removes (.tlbinvVa a b) (fun e => e.ctx = w.toNat % 2 ^ 16 ∧ e.va ≤ x.toNat ∧ x.toNat < e.va + e.size) ∧
       removes (.tlbinvCtx a b) (fun e => e.ctx = w.toNat % 2 ^ 16) ∧ removes (.tlbinvAll a b) (fun _ => True)) ∧
      (s.matBusy = true → exec (.sysfence imm) s = .next s) ∧
      (s.matBusy = false → exec (.sysfence imm) s = .next { s with th := on, core := { s.core with
        ibuf := (if imm.getLsbD 0 then [] else s.core.ibuf), tlb := (if imm.getLsbD 1 then [] else s.core.tlb) } }) ∧
      (∀ s1 t, s.load .plain x.toNat 32 = (s1, .error t) → exec (.travset d a die entry) s = .next (s1.fault t)) ∧
      (∀ s1 e, s.load .plain x.toNat 32 = (s1, .ok e) → AccessOnly s s1 ∧
        (travBad e = true → Completes (exec (.travset d a die entry) s) (WritesS s1 d 1 8)) ∧
        (travBad e = false → s1.stackPresent die.val = false →
          Completes (exec (.travset d a die entry) s) (WritesS s1 d 2 8)) ∧
        (travBad e = false → s1.stackPresent die.val = true → ∃ u : State,
          u = { s1 with store := { s1.store with trav := u.store.trav } } ∧
          look u.store.trav (die.val * 64 + entry.val) = some (BitVec.ofNat 256 e) ∧
          (∀ q, q ≠ die.val * 64 + entry.val → look u.store.trav q = look s1.store.trav q) ∧
          Completes (exec (.travset d a die entry) s) (WritesS u d 0 8)))

/-- R228, R239, R240, R387–R390: the translation of an address for the thread in focus. An address with a bit of [63:56] set is SUB 3; one
that a TLB entry covers is translated by that entry; any other by the walk, which stops at the first entry that is not in device memory (SUB
6, with the entry's address), is poisoned (SUB 5), is not valid (SUB 1) or is malformed (SUB 4), and at a leaf, whose rights decide (SUB 2).
Only a walk that grants the access fills the TLBs. A leaf with C gives its own page where its group is alike, else what some C leaf of the
group gives. An access to an address that reaches nothing raises NOMEM, and the scratchpad window is not translated. A pointer with a
reserved bit is malformed too, by the model's reading: log 58. -/
def Obligations.TranslationResults : Prop :=
  ∀ (s : State) (va : Nat) (need : Need),
    let ctx := s.core.sys.ctxid.toNat
    let level := s.th.level.toNat
    let t := (s.translate va need).1
    let out := (s.translate va need).2
    let kept := t.core.tlb = s.core.tlb ∧ t.store.l2tlb = s.store.l2tlb
    let gives := fun (pa : Nat) (e : Nat) =>
      let g := Granted need level (bit e 1) (bit e 2) (bit e 3) (bit e 4)
      (g → out = .ok pa (bit e 8) ∧ ∃ f ∈ t.core.tlb, f.covers ctx va = true) ∧ (¬ g → out = .bad 2 0 ∧ kept)
    (2 ^ 56 ≤ va → t = s ∧ out = .bad 3 0) ∧
    (va < 2 ^ 56 → ∀ e, s.tlbHit ctx va = some e →
      t = s ∧ (Granted need level e.r e.w e.x e.u → out = .ok (e.pa + (va - e.va)) e.rc) ∧
      (¬ Granted need level e.r e.w e.x e.u → out = .bad 2 0)) ∧
    (va < 2 ^ 56 → s.tlbHit ctx va = none → ∀ n tab, n < 4 → s.TableAt va s.core.sys.ptroot.toNat n tab →
      let at_ := entryAddr tab va n
      ((∀ lin, s.place at_ ≠ .media lin) → out = .bad 6 at_ ∧ kept) ∧
      (∀ lin, s.place at_ = .media lin →
        let e := s.homeBytes lin 8
        let own := getBits e 12 40 * 4096
        (s.homePoison lin = true → out = .bad 5 0 ∧ kept) ∧
        (s.homePoison lin = false →
          (bit e 0 = false → out = .bad 1 0 ∧ kept) ∧
          (bit e 0 = true → Malformed e va n → out = .bad 4 0 ∧ kept) ∧
          (bit e 0 = true → ¬ Malformed e va n → ¬ PointsOn e →
            (bit e 7 = false → gives (own + va % (if n = 1 then 2 ^ 30 else if n = 2 then 2 ^ 21 else 2 ^ 12)) e) ∧
            (bit e 7 = true →
              let mine := getBits va 12 4
              let other := fun (j : Nat) => tab + 8 * (getBits va 16 5 * 16 + j)
              ((∀ j, j < 16 → ∃ l, s.place (other j) = .media l ∧ s.homeBytes l 8 + 4096 * mine = e + 4096 * j) → gives (own + va % 4096) e) ∧
              (∃ j x l, j < 16 ∧ s.place (other j) = .media l ∧ x = s.homeBytes l 8 ∧ bit x 0 = true ∧ bit x 7 = true ∧
                gives (getBits x 12 40 * 4096 - 4096 * j + 4096 * mine + va % 4096) x)))))) ∧
    (∀ k, ¬ (spw ≤ va ∧ va < spw + 2 ^ 20) →
      let got := (s.locate va k need).2
      let parcel := (s.fetchParcel va).2
      (∀ sub fpa, out = .bad sub fpa → got = .error { cause := 6, sub := sub, fva := wd va, fpa := wd fpa }) ∧
      (∀ pa rc, out = .ok pa rc → t.place pa = .none → got = .error { cause := 9, fva := wd va, fpa := wd pa }) ∧
      (∀ pa rc, out = .ok pa rc → t.place pa ≠ .none → (∀ off, t.place pa ≠ .cfg off) → got = .ok (.mem pa rc)) ∧
      (need = .exec → ∀ sub fpa, out = .bad sub fpa → parcel = .error { cause := 7, sub := sub, fva := wd va, fpa := wd fpa }) ∧
      (need = .exec → ∀ pa rc, out = .ok pa rc → t.place pa = .none → parcel = .error { cause := 9, fva := wd va, fpa := wd pa })) ∧
    (∀ k x, va = spw + x → x < 2 ^ 20 →
      (s.locate va k need).2 = if s.core.spadSize < x + k then .error { cause := 10, fva := wd x } else .ok (.spad x)) ∧
    (∀ pa, ((2 ^ 39 ≤ pa ∧ pa < 2 ^ 48) ∨ (2 ^ 48 + 2 ^ 39 ≤ pa ∧ pa < 2 ^ 50) ∨ 2 ^ 52 ≤ pa ∨
      (pa < 2 ^ 39 ∧ 0xFFC000000 ≤ pa % 2 ^ 36)) → s.place pa = .none)

/-- R379–R384, R415: `ctxsave` and `ctxload` trap on a misaligned address. A save stops the other threads, answers all ones where
one is inside its own handler, waits for one that cannot stop, reports a length that does not fit, and otherwise writes the image:
the header, a section for each thread, the matrix section and the scratchpad, each byte where the layout has it. A load answers 1
for a malformed image, 2 and 3 for one that the core cannot take, and else 0, with the core and every thread as the image has
them. The order of the parts of `CORE`, the packing of a watchpoint and what a load takes from beyond the image are the model's:
log 14, log 16, log 37, log 48. -/
def Obligations.ContextImages : Prop :=
  ∀ (s : State) (rel incr : Bool) (d a b : Reg),
    s.th.vp = none → 1 ≤ s.th.level.toNat →
      let va := s.getS a
      let save := exec (.ctxsave rel incr d a b) s
      let load := exec (.ctxload d a) s
      (va.toNat % 4096 ≠ 0 →
        save = .next (s.fault { cause := 5, fva := va }) ∧ load = .next (s.fault { cause := 5, fva := va })) ∧
      let settled := fun (u : State) => { u with th := { u.th with wait := .none } }
      (va.toNat % 4096 = 0 → s.siblingInTrap = true → Completes save (WritesS (settled s) d (BitVec.allOnes 64) 8)) ∧
      (va.toNat % 4096 = 0 → s.siblingInTrap = false → s.siblingsReady = false →
        save = .next { s with th := { s.th with wait := .saving } } ∧
        (s.th.occ = true → s.th.level ≠ 2 → ∀ j ∈ s.siblings, (s.threadAt s.coreId j).atBoundary = true →
          let t := { s with th := { s.th with wait := .saving } }
          t.calledUp s.coreId j = false → t.slotReady s.coreId j = false)) ∧
      (va.toNat % 4096 = 0 → s.siblingInTrap = false → s.siblingsReady = true →
        let s1 := s.siblings.foldl (fun u j =>
          if (u.threadAt u.coreId j).isStopped then u
          else u.onThread u.coreId (Fin.ofNat 4 j) (fun v => v.stopThread { cause := 33 } (some true))) s
        let all := ∀ j ∈ s1.siblings, (s1.threadAt s1.coreId j).isStopped = true
        (s.siblings = [] → s1 = s) ∧
        ((∀ j ∈ s.siblings, let t := s.threadAt s.coreId j
            t.isStopped = false → t.vp = none ∧ s.frameOk t.tframe.toNat 2320 = true) →
          all ∧ s1.th.pc = s.th.pc ∧ ∀ j ∈ s.siblings, let t := s.threadAt s.coreId j
            let t1 := s1.threadAt s1.coreId j
            (t.isStopped = true → t1 = t) ∧
            (t.isStopped = false → t1.intrap = true ∧ t1.imask = true ∧ t1.level = 1 ∧ t1.wait = .stopped true ∧ t1.pc = s.core.sys.tvec ∧
              t1.unfinished = [] ∧ t1.vec = t.vec ∧ t1.s = t.s)) ∧
        (¬ (all ∧ s1.th.pc = s.th.pc) → save = .next s1) ∧
        (all → s1.th.pc = s.th.pc → ∀ u, (settled s1).releaseTeam = u →
          (∀ s2 t, u.draft = (s2, .error t) → save = .next (s2.fault t)) ∧
          (∀ s2 dr, u.draft = (s2, .ok dr) →
            let len := piecesLen dr.parts
            let offs := pieceOffsets 0 dr.parts
            (u.ImageFits → len < 2 ^ 32 →
              let x := piecesBlob dr.parts
              let r := u.core.sys
              let m := u.core.mat.cut
              let shown := decide (m.mode ≠ .v ∨ m.mvl ≠ 2 ∨ (∃ i : Fin 8, (rd m.tshape i).rows ≠ 0) ∨ m.queue ≠ [])
              let lanes := u.lanes u.coreId
              let word := fun i => getB x (8 * i) 8
              getB x 0 4 = len ∧ getB x 4 4 = 1 ∧ word 1 = r.taskrec.toNat ∧ getB x 0x10 4 = r.carve.toNat % 2 ^ 32 ∧
              getB x 0x14 1 = u.core.team ∧ getB x 0x15 1 = lanes ∧ getB x 0x16 1 = (if shown then m.imageN lanes else 0) ∧
              bit (getB x 0x17 1) 1 = shown ∧ getB x 0x17 1 < 4 ∧ word 3 = u.vlen ∧ word 4 = r.ctxid.toNat ∧ word 5 = r.ptroot.toNat ∧
              word 6 = r.lease.toNat ∧ word 7 = r.orbase.toNat ∧ word 8 = r.orcnt.toNat ∧ word 9 = (rd u.core.watch 0).word.toNat ∧
              word 10 = (rd u.core.watch 1).word.toNat ∧ word 11 = r.carve.toNat / 2 ^ 32 ∧ (∀ i, 12 ≤ i → i < 32 → word i = 0) ∧
              ∃ (sec : Nat → ImgThread) (port : Nat → Bool),
                ImageBytes x lanes (getB x 0x16 1) (u.teamSlots u.coreId).length sec
                  (if shown then some (u.core.mat.shown lanes) else none) (fun i => s2.core.spad.readN i 1) u.core.spadSize len ∧
                (bit (getB x 0x17 1) 0 = true ↔ ∀ i, i < (u.teamSlots u.coreId).length → port i = true) ∧
                ∀ (i j : Nat), (u.teamSlots u.coreId)[i]? = some j →
                  let t := u.threadAt u.coreId j
                  let y := sec i
                  y.vec = t.vec ∧ y.lcount = t.lcount ∧ y.laneBusy = t.laneBusy ∧ y.bar = t.atBar ∧
                  (∀ (k : Nat) (p v : _) (q : Vp), y.vps[k]? = some p → t.vpHeld = some v → v.vps[k]? = some q → p.s = q.s ∧ p.k = q.k) ∧
                  ∃ (v v1 v2 : State) (ws pcs : List Word),
                    let f : Frame := { ws }
                    v.readWords t.tframe.toNat 290 = (v1, ws, none) ∧
                    v1.readWords (t.tframe.toNat + 0x910) y.vps.length = (v2, pcs, none) ∧ y.frame = ws ++ pcs ∧
                    (∀ k, v.threadAt v.coreId k = u.threadAt u.coreId k) ∧ y.vps.length = (if f.vpact then f.vl else 0) ∧
                    (port i = true ↔ f.nrep = 0 ∧ f.vpact = false ∧ f.rvalid = false ∧
                      ∃ g h k l n, (v2.fetchAt f.rpc.toNat).2 = .ok (.vstrip g h k l, n))) ∧
            ((s.getS b).toNat < len → Completes save (WritesS s2 d (BitVec.ofNat 64 (len + 2 ^ 63)) 8)) ∧
            (len ≤ (s.getS b).toNat →
              let w := s2.writeParts (incr && s2.core.imgMap == some offs) va.toNat dr.parts
              (∀ s3 t, w = (s3, .error t) → save = .next (s3.fault t)) ∧
              (∀ s3, w = (s3, .ok ()) →
                (rel = false → Completes save (fun t =>
                  t.getS d = (if d = 0 then 0 else BitVec.ofNat 64 len) ∧ (∀ q, q ≠ d → t.getS q = s3.getS q) ∧
                  t.th.pc = s3.th.pc + 8 ∧ t.core.imgMap = some offs ∧ t.store = { s3.store with kept := t.store.kept } ∧ t.fab = s3.fab ∧
                  (s3.th.occ = true → ∀ r, (t.vreg r).dirty = false ∧ (t.vreg r).data = (s3.vreg r).data ∧ (t.vreg r).tag = (s3.vreg r).tag))) ∧
                (rel = true → Completes save (fun t => t.core.task = none ∧ t.th.occ = false ∧ t.core.spad = [] ∧
                  t.core.mat = .reset ∧ ∀ j, j < 4 → (t.threadAt t.coreId j).occ = false))))))) ∧
      (va.toNat % 4096 = 0 → ∀ s1 x, s.readImage va.toNat = (s1, x) →
        (∀ t, x = .error t → load = .next (s1.fault t)) ∧
        (x = .ok none → Completes load (WritesS s1 d 1 8)) ∧
        (∀ u h, State.imageRead 10 s va.toNat 256 = (u, .ok h) →
          let vlen := getB h 0x18 2
          let regs := getBits (getB h 0x10 4) 0 6
          let team := getB h 0x14 1
          (getB h 4 4 ≠ 1 ∨ team ≤ s.slot.val ∨ 4 < team ∨ (vlen ≠ vlenOf regs team false ∧ vlen ≠ vlenOf regs team true)) → x = .ok none) ∧
        (∀ im, x = .ok (some im) →
          let n := s1.lanes s1.coreId
          let splits := im.carve.toNat % 2 ^ 6 + im.carve.toNat / 2 ^ 8 % 2 ^ 6 + im.carve.toNat / 2 ^ 16 % 2 ^ 6
          let t := s1.loadImage im
          (∃ u h u1 y, State.imageRead 10 s va.toNat 256 = (u, .ok h) ∧
            State.imageRead (getB h 0 4 / 32 + 2) u va.toNat (getB h 0 4) = (u1, .ok y) ∧
            im.team = getB y 0x14 1 ∧ im.vn = getB y 0x15 1 ∧ im.mn = getB y 0x16 1 ∧ im.portv = bit (getB y 0x17 1) 0 ∧
            im.vlen = getB y 0x18 2 ∧ im.carve.toNat = getB y 0x10 4 ∧ im.threads.length = im.team ∧
            ImageBytes y im.vn im.mn im.team (fun i => im.threads.getD i ⟨[], [], .init 0, 0, 0, false⟩)
              (if bit (getB y 0x17 1) 1 then im.mat else none) (fun i => im.spad.readN i 1) (getBits (getB y 0x10 4) 16 6 * 8192) (getB y 0 4) ∧
            (bit (getB y 0x17 1) 1 = false → ∀ m, im.mat = some m → m = { Mat.reset with chain := 7 }) ∧
            (∀ m, im.mat = some m → (m.chain = 0 ∨ m.chain = 7) ∧ (∀ i : Fin 8, rd m.recv i = none) ∧ m.held = none) ∧
            let q := fun o => getB y o 8
            let r := t.core.sys
            r.taskrec.toNat = q 8 / 256 * 256 % 2 ^ 56 ∧ r.ctxid.toNat = q 0x20 % 2 ^ 16 ∧ r.ptroot.toNat = q 0x28 / 2 ^ 20 * 2 ^ 20 % 2 ^ 52 ∧
            r.lease.toNat = q 0x30 % 2 ^ 13 ∧ r.orbase.toNat = q 0x38 / 64 * 64 % 2 ^ 56 ∧ r.orcnt.toNat = q 0x40 % 2 ^ 13 ∧
            r.carve.toNat % 2 ^ 32 = getB y 0x10 4 ∧ bit r.carve.toNat 54 = bit (getB y 0x58 4) 22 ∧
            (∀ k : Fin 3, getBits r.carve.toNat (32 + 8 * k.val) 6 = getBits (getB y 0x58 4) (8 * k.val) 6) ∧
            rd t.core.watch 0 = .ofWord (wd (q 0x48)) ∧ rd t.core.watch 1 = .ofWord (wd (q 0x50))) ∧
          t.core.team = im.team ∧ t.core.mat = im.mat.getD .reset ∧ t.core.spad = im.spad ∧ t.core.kcache = [] ∧ t.core.rcache = [] ∧
          t.core.rpend = [] ∧
          (∀ j, j < 4 → let old := s1.threadAt s1.coreId j
            let new := t.threadAt t.coreId j
            (im.threads[j]? = none → new = { Thread.reset s1.coreId j with gen := old.gen }) ∧
            (∀ y, im.threads[j]? = some y → new.occ = true ∧ new.vec.v = y.vec.v ∧ new.vec.m = y.vec.m ∧ new.vec.vlen = y.vec.vlen ∧
              new.vec.vl = y.vec.vl ∧ new.vec.fx = y.vec.fx ∧ new.vec.rm = y.vec.rm ∧
              (n = im.vn → new.vec = y.vec) ∧ (n ≠ im.vn → (∀ i, rd new.vec.o i = 0) ∧ ∀ i, rd new.vec.lat i = 0) ∧
              (∀ r : VReg, (rd y.vec.v r).dirty = false) ∧ new.lcount = y.lcount ∧ new.laneBusy = y.laneBusy ∧ new.atBar = y.bar ∧
              new.intrap = true ∧ new.convoy = none ∧ new.issue = none ∧ new.replay = [] ∧ new.rtn = none ∧ new.vp = none ∧
              (old.occ = true → new.tframe = old.tframe) ∧
              (∀ v, new.vpHeld = some v → v.vps = y.vps) ∧
              (j = s.slot.val → new.wait = .none ∧ (old.occ = true → new.level = old.level)) ∧
              (j ≠ s.slot.val → new.level = 1 ∧ new.wait = .stopped true))) ∧
          (∃ v : Nat → State, v im.team = t ∧ ∀ j y, im.threads[j]? = some y →
            let area := (t.threadAt t.coreId j).tframe.toNat
            let w := (v j).writeWords area y.frame
            s1.frameOk area (8 * y.frame.length) = true → (v (j + 1)).store = w.store ∧ (v (j + 1)).core.l1 = w.core.l1) ∧
          ((im.portv = false ∧ im.vn ≠ n ∨ n < im.mn) → Completes load (WritesS s1 d 2 8)) ∧
          ((im.portv = true ∨ im.vn = n) → im.mn ≤ n → 40 - s1.core.heldOut < splits → Completes load (WritesS s1 d 3 8)) ∧
          ((im.portv = true ∨ im.vn = n) → im.mn ≤ n → splits ≤ 40 - s1.core.heldOut → Completes load (WritesS t d 0 8))))

/-- R352, R360, R363–R366: `rtn` starts a bound, resident routine at micro-operation 0 with cleared H registers and LC, and traps
otherwise; the table instructions give their status words and bind, load, unbind and describe slots. The order in the binding table is
the model's choice: log 43. -/
def Obligations.RoutineTable : Prop :=
  ∀ (s : State) (slot : Fin 64) (d a b : Reg) (imm : BitVec 7),
    s.th.vp = none →
      let ctx := s.core.sys.ctxid.toNat
      let at_ := fun (t : State) (j : Nat) => t.core.bindingOf ctx j
      let used := match at_ s slot.val with | some e => s.bindUsed e | none => false
      let miss := fun n => s.fault { cause := 17, sub := n, felem := BitVec.ofNat 64 slot.val }
      (at_ s slot.val = none → exec (.rtn slot d a b imm) s = .next (miss 1)) ∧
      (∀ e, at_ s slot.val = some e →
        (e.words = none → exec (.rtn slot d a b imm) s = .next (miss 2)) ∧
        (∀ ws, e.words = some ws → Completes (exec (.rtn slot d a b imm) s) (fun t =>
          t.th = { s.th with rtn := some {
            ctx, slot, upc := 0, lc := 0, h := Vector.replicate 8 0, rm := s.th.vec.rm, d, a, b, imm, cur := {} } } ∧
          (∀ j, at_ t j = at_ s j) ∧ t = { s with th := t.th, core := { s.core with binds := t.core.binds } }))) ∧
      (1 ≤ s.th.level.toNat →
        let address := s.getS a
        let tables := fun (i : Instr) (u0 : State) (v : Word) (holds : State → Prop) => ∃ u : State, holds u ∧
          u = { u0 with core := { u0.core with binds := u.core.binds } } ∧ Completes (exec i s) (WritesS u d v 8)
        (address.toNat % 8 ≠ 0 → exec (.rbind d a slot) s = .next (s.fault { cause := 5, fva := address })) ∧
        (address.toNat % 8 = 0 → used = true → Completes (exec (.rbind d a slot) s) (WritesS s d 3 8)) ∧
        (address.toNat % 8 = 0 → used = false → tables (.rbind d a slot) s 0 (fun u =>
          at_ u slot.val = some { ctx, slot := slot.val, image := address, words := none } ∧
          (s.core.binds.length < 256 → ∀ j, j ≠ slot.val → at_ u j = at_ s j))) ∧
        (at_ s slot.val = none →
          Completes (exec (.rload d slot) s) (WritesS s d 2 8) ∧ Completes (exec (.runbind d slot) s) (WritesS s d 1 8)) ∧
        (∀ e, at_ s slot.val = some e →
          (used = true →
            Completes (exec (.rload d slot) s) (WritesS s d 3 8) ∧ Completes (exec (.runbind d slot) s) (WritesS s d 3 8)) ∧
          (used = false →
            tables (.runbind d slot) s 0 (fun u => at_ u slot.val = none ∧ ∀ j, j ≠ slot.val → at_ u j = at_ s j) ∧
            (∀ s1 t, s.load .plain e.image.toNat 8 = (s1, .error t) → exec (.rload d slot) s = .next (s1.fault t)) ∧
            (∀ s1 hdr, s.load .plain e.image.toNat 8 = (s1, .ok hdr) →
              ((hdr = 0 ∨ 256 < hdr) → Completes (exec (.rload d slot) s) (WritesS s1 d 1 8)) ∧
              (0 < hdr → hdr ≤ 256 → ∀ s2 ws, s1.loadMicros (e.image.toNat + 8) hdr = (s2, .ok ws) →
                (wordsOk ws = false → Completes (exec (.rload d slot) s) (WritesS s2 d 1 8)) ∧
                (wordsOk ws = true → tables (.rload d slot) s2 0 (fun u =>
                  at_ u slot.val = some { e with words := some ws })))))) ∧
        (let c := address.toNat % 2 ^ 16
         let stay := s.core.binds.filter (fun b => b.ctx == c && s.bindUsed b)
         tables (.runbindCtx d a slot) s (BitVec.ofNat 64 stay.length) (fun u =>
          ∀ x, x ∈ u.core.binds ↔ x ∈ s.core.binds ∧ (x.ctx = c → s.bindUsed x = true)))) ∧
      (s.core.storeUsed ≤ 256 → (∀ e ws, at_ s slot.val = some e → e.words = some ws → ws.length ≤ 256) →
        let count := match at_ s slot.val with | some e => (e.words.getD []).length | none => 0
        ∃ v : Word, v.toNat % 2 ^ 16 = count ∧ (v.toNat / 2 ^ 16 % 2 = 1 ↔ count ≠ 0) ∧
          (v.toNat / 2 ^ 17 % 2 = 1 ↔ (at_ s slot.val).isSome = true) ∧ v.toNat / 2 ^ 18 % 2 ^ 14 = 0 ∧
          v.toNat / 2 ^ 32 = 8192 - 32 * s.core.storeUsed ∧ Completes (exec (.rquery d slot) s) (WritesS s d v 8)) ∧
      Completes (exec (.rquery d slot) s) (WritesS s d (s.core.routineWord (at_ s slot.val)) 8)

/-- R356, R357, R358, R360, R361: each micro-operation acts on the operands of the routine that its thread runs and the routine goes on
at the next one, or at the target of a taken branch; `uend` leaves it and the PC passes the `rtn`. A vector micro-operation computes the
elements of group J of its registers; it waits for the matrix queue, and raises RESOP where the group passes VLMAX. Where `ust`
stores, no two lines of the core's L1 share a tag, as no step makes two. -/
def Obligations.MicroOperations : Prop :=
  (∀ (s : State) (r : RtnState),
    s.th.rtn = some r →
      let f := r.cur
      let x := s.uget r f.a
      let y := s.uget r f.b
      let done := fun (i : Instr) (v : Word) => Completes (exec i s) (MicroWrites s r f.d v)
      let goes := fun (i : Instr) (upc : Nat) (lc : Word) =>
        exec i s = .next { s with th := { s.th with rtn := some { r with upc, lc } } }
      let jump := fun (p : Prop) [Decidable p] => if p then f.tgt.val else r.upc + 1
      let flags := fun (fx : BitVec 5) (drew : Bool) => { s with th := { s.th with
        vec := { s.th.vec with fx := s.th.vec.fx ||| fx }, gen := (if drew then genStep s.th.gen else s.th.gen) } }
      let fm := fmtOf .f32
      let val := fun (w : Word) => fm.decode (w.toNat % 2 ^ 32)
      let rounds := fun (i : Instr) (e : Exact) =>
        let q := roundExact fm r.rm false (genDraw s.th.gen) e
        Completes (exec i s) (MicroWrites (flags q.fx q.drew) r f.d (wd q.code))
      done .umov x ∧ done .umovi (f.imm.signExtend 64) ∧ done .uhi ((x <<< 11) ||| f.imm.setWidth 64) ∧ done .urds (s.getS f.r) ∧
      Completes (exec .uwrs s) (fun t =>
        (∀ q, t.getS q = if q ≠ 0 ∧ q = f.r then x else s.getS q) ∧
        t.th = { s.th with s := t.th.s, rtn := some { r with upc := r.upc + 1 } } ∧ OnlyThread s t) ∧
      (y.toNat < s.nLanes →
        done .urdo (BitVec.ofNat 64 (getB (rd s.th.vec.o f.e) (8 * y.toNat) 8)) ∧
        Completes (exec .uwro s) (fun t =>
          (∀ l, getB (rd t.th.vec.o f.e) (8 * l) 8 = if l = y.toNat then x.toNat else getB (rd s.th.vec.o f.e) (8 * l) 8) ∧
          t.th = { s.th with
            vec := { s.th.vec with o := (wr s.th.vec.o f.e (rd t.th.vec.o f.e)) }, rtn := some { r with upc := r.upc + 1 } } ∧
          OnlyThread s t)) ∧
      (s.nLanes ≤ y.toNat →
        exec .urdo s = .next (s.fault { cause := 3 }) ∧ exec .uwro s = .next (s.fault { cause := 3 })) ∧
      done .uadd (x + y) ∧ done .usub (x - y) ∧ done .umul (x * y) ∧ done .uand (x &&& y) ∧ done .uor (x ||| y) ∧
      done .uxor (x ^^^ y) ∧ done .usll (x <<< (y.toNat % 64)) ∧ done .usrl (x >>> (y.toNat % 64)) ∧
      done .usra (x.sshiftRight (y.toNat % 64)) ∧ done .uslt (if x.toInt < y.toInt then 1 else 0) ∧
      done .usltn (if x.toNat < y.toNat then 1 else 0) ∧ done .umin (if x.toInt < y.toInt then x else y) ∧
      done .umax (if x.toInt < y.toInt then y else x) ∧ done .uaddi (x + f.imm.signExtend 64) ∧
      rounds .ufadd (Val.add (r.rm = .rdn) (val x) (val y)) ∧ rounds .ufsub (Val.add (r.rm = .rdn) (val x) (val y).neg) ∧
      rounds .ufmul (Val.mul (val x) (val y)) ∧
      rounds .ufma (Val.fma (r.rm = .rdn) (val x) (val y) (val (s.uget r f.d))) ∧
      (let m := fun big => fminmax fm big (x.toNat % 2 ^ 32) (y.toNat % 2 ^ 32)
       Completes (exec .ufmin s) (MicroWrites (flags (m false).2 false) r f.d (wd (m false).1)) ∧
       Completes (exec .ufmax s) (MicroWrites (flags (m true).2 false) r f.d (wd (m true).1))) ∧
      (let q := roundTo .i32 r.rm f.sat (genDraw s.th.gen) (tyVal .f32 (x.toNat % 2 ^ 32))
       Completes (exec .ufcvti s) (MicroWrites (flags q.fx q.drew) r f.d (BitVec.ofInt 64 (tyInt .i32 q.code)))) ∧
      (let q := roundTo .f32 r.rm false (genDraw s.th.gen) (tyVal .i64 x.toNat)
       Completes (exec .uicvtf s) (MicroWrites (flags q.fx q.drew) r f.d (wd q.code))) ∧
      (let va := (x + f.off.signExtend 64).toNat
       (∀ s1 t, s.load .plain va (ldBytes f.ldt) = (s1, .error t) → exec .uld s = .next (s1.fault t)) ∧
       (∀ s1 v, s.load .plain va (ldBytes f.ldt) = (s1, .ok v) →
        AccessOnly s s1 ∧ Completes (exec .uld s) (MicroWrites s1 r f.d (loaded (ldSigned f.ldt) (ldBytes f.ldt) v))) ∧
       (∀ s1 t, s.reach va (stBytes f.stw) (stBytes f.stw) .write = (s1, .error t) → exec .ust s = .next (s1.fault t)) ∧
       (∀ s1 tg, s.reach va (stBytes f.stw) (stBytes f.stw) .write = (s1, .ok tg) → s1.Plain tg (stBytes f.stw) → s1.MemoriesWf →
        (s1.core.l1.map (·.tag)).Nodup → Completes (exec .ust s) (fun t =>
          (t.readAt .plain tg (stBytes f.stw)).2.1 = y.toNat % 256 ^ stBytes f.stw ∧
          (∀ q, Outside s1 q tg (stBytes f.stw) → t.byteAt q = s1.byteAt q) ∧
          t.th = { s1.th with spin := 0, rtn := some { r with upc := r.upc + 1 } } ∧
          t = { s1 with
            th := t.th, core := { s1.core with l1 := t.core.l1, spad := t.core.spad }, free := t.free
            store := { s1.store with host := t.store.host, peer := t.store.peer } }))) ∧
      goes .ubeq (jump (x = y)) r.lc ∧ goes .ubne (jump (x ≠ y)) r.lc ∧ goes .ublt (jump (x.toInt < y.toInt)) r.lc ∧
      goes .uj f.tgt.val r.lc ∧ goes .uloop (jump (r.lc - 1 ≠ 0)) (r.lc - 1) ∧
      exec .uend s = .next { s with th := { s.th with pc := s.th.pc + 4, rtn := none } }) ∧
  (∀ (s : State) (r : RtnState),
    s.th.rtn = some r →
      let v := r.cur.v
      let bits := v.ty.bits
      let j := (rd r.h v.j).toNat
      let g := 64 * s.nLanes / bits
      let x := s.velem v.va bits
      let y := s.velem v.vb bits
      let z := s.velem v.vd bits
      let all : List Instr := [.uvadd, .uvsub, .uvmul, .uvmin, .uvmax, .uvand, .uvor, .uvxor, .uvfma]
      (s.matBusy = true → ∀ i ∈ all, exec i s = .next s) ∧
      (s.matBusy = false → s.vlen * 8 / bits < (j + 1) * g → ∀ i ∈ all, exec i s = .next (s.fault { cause := 3 })) ∧
      (s.matBusy = false → (j + 1) * g ≤ s.vlen * 8 / bits →
        let done := fun (i : Instr) (e : Nat → Nat) => Completes (exec i s) (MicroWritesV s r j g 0 e)
        done .uvand (fun i => x i &&& y i) ∧ done .uvor (fun i => x i ||| y i) ∧ done .uvxor (fun i => x i ^^^ y i) ∧
        (v.ty.isInt = true →
          let a := fun i => tyInt v.ty (x i)
          let b := fun i => tyInt v.ty (y i)
          let low := fun (e : Int) => (e % 2 ^ bits).toNat
          done .uvadd (fun i => low (a i + b i)) ∧ done .uvsub (fun i => low (a i - b i)) ∧
          done .uvmul (fun i => low (a i * b i)) ∧ done .uvmin (fun i => low (min (a i) (b i))) ∧
          done .uvmax (fun i => low (max (a i) (b i))) ∧ done .uvfma (fun i => low (a i * b i + tyInt v.ty (z i)))) ∧
        (v.ty.isInt = false →
          let fm := fmtOf v.ty
          let a := fun i => fm.decode (x i)
          let b := fun i => fm.decode (y i)
          let group := (List.range g).map (fun i => j * g + i)
          let rounds := fun (i : Instr) (e : Nat → Exact) => ∃ rnd : Nat → Nat, (∀ i, rnd i < 2 ^ 16) ∧
            let q := fun i => roundExact fm r.rm false (rnd i) (e i)
            Completes (exec i s) (MicroWritesV s r j g (group.foldl (fun fx i => fx ||| (q i).fx) 0) (fun i => (q i).code))
          let picks := fun (i : Instr) (big : Bool) =>
            let q := fun i => fminmax fm big (x i) (y i)
            Completes (exec i s) (MicroWritesV s r j g (group.foldl (fun fx i => fx ||| (q i).2) 0) (fun i => (q i).1))
          rounds .uvadd (fun i => Val.add (r.rm = .rdn) (a i) (b i)) ∧
          rounds .uvsub (fun i => Val.add (r.rm = .rdn) (a i) (b i).neg) ∧ rounds .uvmul (fun i => Val.mul (a i) (b i)) ∧
          rounds .uvfma (fun i => Val.fma (r.rm = .rdn) (a i) (b i) (fm.decode (z i))) ∧
          picks .uvmin false ∧ picks .uvmax true)))

/-! ## Queues, tasks, engines, matrix (08, 13, 14) -/

/-- R305, R306, R317, R314–R316, R277: what a queue operation leaves in the header and the ring of an object, and its answer. A queue
instruction leaves its core as a message and its thread waits; with its answer it completes: an entry in s[d] (and s[d + 1]), after an
acquire at `.pkg`; a count, a status; k is all ones or, with `.nb` on an empty or a full queue, 0, where the other forms trap. A push waits
for a release that a link holds up (R277), and an object whose window is gone is answered NOMEM. `qpoll` queries the queues of its table
that k selects, one after the other, as `qcount` does, and gives the bits of those that hold an entry. That an answer comes by a step of its
own is the model's choice: log 2, log 31; that a queue instruction waits for the matrix queue and a cut link alone is log 48, and which link
cuts log 52. -/
def Obligations.QueueInstructions : Prop :=
  (∀ (s : State) (op : QOp) (e16 : Bool) (lo hi : Word) (pa lin : Nat),
    let hdr := fun (u : State) (at_ len : Nat) => getBits (u.qBytes pa 128).1 at_ len
    let kind := hdr s 0 2
    let cap := hdr s 192 32
    let count := hdr s 224 32
    let head := hdr s 256 32
    let tail := hdr s 288 32
    let size := if hdr s 3 1 = 1 then 16 else 8
    let slot := fun (i : Nat) => pa + 128 + i * size
    let t := (s.qAt op e16 lo hi pa).1
    let ans := (s.qAt op e16 lo hi pa).2
    let kept := HomeFrame s t [] (fun _ => False)
    let written := fun (i : Nat) (payload : Bool) (x : Nat) =>
      (∃ j, 28 ≤ j ∧ j < 56 ∧ linOf (pa + j) = some x) ∨ (payload = true ∧ ∃ j, j < size ∧ linOf (slot i + j) = some x)
    let leaves := fun (c h tl push pop : Nat) => hdr t 224 32 = c ∧ hdr t 256 32 = h ∧ hdr t 288 32 = tl ∧
      hdr t 320 64 = push % 2 ^ 64 ∧ hdr t 384 64 = pop % 2 ^ 64
    pa % 128 = 0 → s.place pa = .media lin → s.Settled (lin / 128) → s.store.media.wf = true →
      (op ≠ .init → ∀ p, (s.qBytes pa 128).2 = some p → ans = .poison pa p ∧ t = s) ∧
      (op ≠ .init → (s.qBytes pa 128).2 = none →
        let wf := hdr s 2 1 = 0 ∧ hdr s 4 4 = 0 ∧ hdr s 14 178 = 0 ∧ hdr s 512 512 = 0 ∧ 1 ≤ cap ∧ cap ≤ 16777216 ∧ head < cap ∧
          tail < cap ∧ count ≤ cap ∧ s.InOneWindow pa cap size
        (¬ wf → ans = .bad 1 ∧ kept) ∧
        (wf → op = .count → ans = .count count ∧ t = s) ∧
        (wf → op ≠ .count → e16 ≠ (hdr s 3 1 == 1) → ans = .bad 2 ∧ kept) ∧
        (wf → e16 = (hdr s 3 1 == 1) →
          (op = .push → count = cap → ans = .full ∧ kept) ∧
          (op = .push → count < cap → ∀ y, linOf (slot tail) = some y → s.Settled (y / 128) →
            ans = .done ∧ (t.qBytes (slot tail) size).1 = (lo.toNat + 2 ^ 64 * hi.toNat) % 256 ^ size ∧
            leaves (count + 1) head ((tail + 1) % cap) (hdr s 320 64 + 1) (hdr s 384 64) ∧
            HomeFrame s t [lin / 128, y / 128] (written tail true)) ∧
          ((op = .pop ∨ op = .steal) → count = 0 → ans = .empty ∧ kept) ∧
          ((op = .pop ∨ op = .steal) → count ≠ 0 →
            let first := op = .steal ∨ kind = 0 ∨ kind = 2
            let last := (tail + cap - 1) % cap
            ∀ i y, (first → i = head) → (¬ first → i = last) → linOf (slot i) = some y → s.Settled (y / 128) →
              (∀ p, (s.qBytes (slot i) size).2 = some p → ans = .poison pa p ∧ kept) ∧
              ((s.qBytes (slot i) size).2 = none →
                ans = .entry (wd (s.qBytes (slot i) size).1) (wd ((s.qBytes (slot i) size).1 / 2 ^ 64)) ∧
                (first → leaves (count - 1) ((head + 1) % cap) tail (hdr s 320 64) (hdr s 384 64 + 1)) ∧
                (¬ first → leaves (count - 1) head last (hdr s 320 64) (hdr s 384 64 + 1)) ∧
                HomeFrame s t [lin / 128] (written i false))))) ∧
      (op = .init →
        let v := lo.toNat
        let wf := getBits v 2 1 = 0 ∧ getBits v 4 4 = 0 ∧ getBits v 14 18 = 0 ∧ getBits v 57 7 = 0 ∧ 1 ≤ getBits v 32 25 ∧
          getBits v 32 25 ≤ 16777216 ∧ s.InOneWindow pa (getBits v 32 25) (if bit v 3 then 16 else 8)
        (¬ wf → ans = .status 1 ∧ t = s) ∧
        (wf → ans = .status 0 ∧ t.qBytes pa 128 = (v % 2 ^ 14 + 2 ^ 192 * getBits v 32 25, none) ∧
          HomeFrame s t [lin / 128] (fun x => x / 128 = lin / 128)))) ∧
  (∀ (s : State) (e16 nb : Bool) (d a b : Reg) (k : KReg),
    let push : Instr := .qpush e16 nb k a b
    let pop : Instr := .qpop e16 nb d a k
    let steal : Instr := .qsteal e16 nb d a k
    let x := s.getS a
    (∀ id i, s.th.wait = .queue id i →
      let u := { s with th := { s.th with wait := .none, qans := none } }
      let on := u.th.pc + 4
      (s.th.qans = none → ∀ j ∈ [push, pop, steal, .qcount d a, .qinit d a b], exec j s = .next s) ∧
      (s.th.qans = some .done →
        (nb = true → Completes (exec push s) (WritesK u k (BitVec.allOnes 64) 4)) ∧ (nb = false → Completes (exec push s) (GoesTo u on))) ∧
      (∀ lo hi, s.th.qans = some (.entry lo hi) → (e16 = true → d.val ≠ 31) → ∀ j ∈ [pop, steal], Completes (exec j s) (fun t =>
        (∀ q, t.getS q = if q = 0 then 0 else if e16 = true ∧ q = d + 1 then hi else if q = d then lo else s.getS q) ∧
        (∀ q, t.getK q = if nb = true ∧ q = k then BitVec.allOnes 64 else s.getK q) ∧
        t.th = { u.th with s := t.th.s, k := t.th.k, acqL1 := s.seq, acqRdc := s.seq, pc := on } ∧
        MemOnly { s with th := t.th } t ∧ t.store.posted = [])) ∧
      (s.th.qans = some .empty → ∀ j ∈ [pop, steal],
        (nb = true → Completes (exec j s) (WritesK u k 0 4)) ∧
        (nb = false → exec j s = .next (u.fault { cause := 13, fva := x }))) ∧
      (s.th.qans = some .full →
        (nb = true → Completes (exec push s) (WritesK u k 0 4)) ∧
        (nb = false → exec push s = .next (u.fault { cause := 14, fva := x }))) ∧
      (∀ why, s.th.qans = some (.bad why) → ∀ j ∈ [push, pop, steal, .qcount d a],
        exec j s = .next (u.fault { cause := 15, sub := why, fva := x })) ∧
      (∀ pa, s.th.qans = some (.nomem pa) → ∀ j ∈ [push, pop, steal, .qcount d a, .qinit d a b],
        exec j s = .next (u.fault { cause := 9, fva := x, fpa := BitVec.ofNat 64 pa })) ∧
      (∀ n, s.th.qans = some (.count n) → Completes (exec (.qcount d a) s) (WritesS u d (BitVec.ofNat 64 n) 4)) ∧
      (∀ n, s.th.qans = some (.status n) → Completes (exec (.qinit d a b) s) (WritesS u d (BitVec.ofNat 64 n) 4))) ∧
    (s.th.vp = none → (∀ id i, s.th.wait ≠ .queue id i) →
      let need : QOp → Need := fun op => match op with | .init => .write | .count => .read | _ => .atomic
      let leaves := fun (j : Instr) (op : QOp) (e : Bool) (lo hi : Word) =>
        (∀ s1 t, s.reachHeader x.toNat (need op) = (s1, .error t) → exec j s = .next (s1.fault t)) ∧
        (∀ s1 pa, s.reachHeader x.toNat (need op) = (s1, .ok pa) → op = .push → (s1.matBusy = true ∨ s1.releaseCut 3 = true) →
          exec j s = .next s1) ∧
        (∀ s1 pa, s.reachHeader x.toNat (need op) = (s1, .ok pa) → (op = .push → s1.matBusy = false ∧ s1.releaseCut 3 = false) →
          Completes (exec j s) (fun t =>
            (∃ m ∈ t.fab.msgs, m.id = s.fab.nextId ∧ m.op = op ∧ m.core = s.coreId ∧ m.slot = s.slot.val ∧ m.hdr = pa ∧ m.e16 = e ∧
              m.lo = lo ∧ m.hi = hi ∧ m.place = .moving ∧ t.th = { s1.th with wait := .queue m.id j, qans := none }) ∧
            (s.fab.nextId, s1.core.sys.ctxid.toNat, x.toNat) ∈ t.fab.used))
      leaves push .push e16 (s.getS b) (if e16 then s.getS (b + 1) else 0) ∧ leaves pop .pop e16 0 0 ∧
      leaves steal .steal e16 0 0 ∧ leaves (.qcount d a) .count false 0 0 ∧ leaves (.qinit d a b) .init false (s.getS b) 0) ∧
    (let poll : Instr := .qpoll d a k
     let wants := fun (j : Nat) (h : Word) => (s.getK k).getLsbD j = true ∧ h ≠ 0
     let asks := fun (u : State) (j : Nat) (bits : Nat) (h : Word) (rest : List Word) => ∀ u1 pa lin,
       u.reachHeader h.toNat .read = (u1, .ok pa) → u1.place pa = .media lin →
       Completes (exec poll s) (fun t => (∃ m ∈ t.fab.msgs, m.op = .count ∧ m.hdr = pa ∧ m.core = s.coreId ∧ m.slot = s.slot.val ∧
         t.th.wait = .queue m.id poll) ∧ t.th.polling = some (j, bits, rest) ∧ t.th.pc = s.th.pc ∧ t.th.s = s.th.s)
     (s.th.vp ≠ none → (∀ id i, s.th.wait ≠ .queue id i) → exec poll s = .next (s.fault { cause := 1 })) ∧
     (s.th.vp = none → (∀ id i, s.th.wait ≠ .queue id i) →
      (∀ s1 t, s.reach x.toNat 64 64 .read = (s1, .error t) → exec poll s = .next (s1.fault t)) ∧
      (∀ s1 tg s2 ws, s.reach x.toNat 64 64 .read = (s1, .ok tg) → s1.readTable tg x.toNat = (s2, .ok ws) →
        ((∀ j h, ws[j]? = some h → ¬ wants j h) → Completes (exec poll s) (WritesS { s2 with th := { s2.th with polling := none } } d 0 4)) ∧
        (∀ j h, ws[j]? = some h → wants j h → (∀ i g, i < j → ws[i]? = some g → ¬ wants i g) → asks s2 j 0 h (ws.drop (j + 1))))) ∧
     (∀ id i j bits rest, s.th.wait = .queue id i → s.th.polling = some (j, bits, rest) →
      (s.th.qans = none → exec poll s = .next s) ∧
      (∀ ans, s.th.qans = some ans →
        let u := { s with th := { s.th with wait := .none, qans := none } }
        let now := bits + (match ans with | .count n => if n = 0 then 0 else 2 ^ j | _ => 0)
        ((∀ p h, rest[p]? = some h → ¬ wants (j + 1 + p) h) →
          Completes (exec poll s) (WritesS { u with th := { u.th with polling := none } } d (BitVec.ofNat 64 now) 4)) ∧
        (∀ p h, rest[p]? = some h → wants (j + 1 + p) h → (∀ i g, i < p → rest[i]? = some g → ¬ wants (j + 1 + i) g) →
          asks u (j + 1 + p) now h (rest.drop (p + 1)))))))

/-- R341–R350: task and engine instructions whose checks pass complete, with their status words, after the release that they are;
`tdone` and `tyield` end the task of the core. The translation of records and the zero extension are the model's reading: log 22, log
23. A posting, a spawn, an arming or a command waits for a release that a link holds up (R277); that each is performed whole in its step and
waits for nothing else but the matrix queue is log 48, and which link cuts log 52. -/
def Obligations.TasksAndCommands : Prop :=
  ∀ (s : State) (d a b : Reg),
    s.th.vp = none →
      let x := (s.getS a).toNat
      let y := s.getS b
      let lin := fun (pa : Nat) => (linOf pa).getD 0
      let ends := fun (i : Instr) (outputs : Bool) => Completes (exec i s) (fun t =>
        t.th.pc = s.th.pc + 4 ∧ t.th.s = s.th.s ∧ t.th.k = s.th.k ∧ t.th.vec = s.th.vec ∧
        (∀ j, j < 4 → (s.threadAt s.coreId j).occ = true → (t.threadAt s.coreId j).ending = true) ∧
        (∀ id k, s.core.task = some id → s.taskById id = some k → ∃ q, t.taskById id = some q ∧ q.phase = .ending outputs))
      ends .tdone true ∧ ends .tyield false ∧
      (∀ s1 t, s.reachRecord x = (s1, .error t) →
        exec (.tpost d a) s = .next (s1.fault t) ∧ exec (.tgrp d a) s = .next (s1.fault t)) ∧
      (∀ s1 pa, s.reachRecord x = (s1, .ok pa) → AccessOnly s s1 ∧
        (s1.atomicPoison pa = true → exec (.tpost d a) s =
          .next (((s1.homeReady pa).homeRead (lin pa + 0x10) 4).fault (Cause.poison (x + 0x10) (pa + 0x10)))) ∧
        (∀ p, s1.poisonFor pa 256 = some p → exec (.tgrp d a) s =
          .next ((((s1.homeReady pa).homeReady (pa + 128)).readRec (lin pa)).fault (Cause.poison (x + (p - pa)) p))) ∧
        ((s1.releaseCut 3 = true → s1.atomicPoison pa = false → exec (.tpost d a) s = .next s1) ∧
          (s1.releaseCut 3 = true → s1.poisonFor pa 256 = none → exec (.tgrp d a) s = .next s1)) ∧
        (s1.matBusy = false → s1.releaseCut 3 = false →
          let u := s1.release 3
          (s1.atomicPoison pa = false →
            let r := (u.homeReady pa).postBy (lin pa) s.coreId
            Completes (exec (.tpost d a) s)
              (WritesS { r.1 with core := r.1.core.bump (pa / 128) r.2.2 } d (BitVec.ofNat 64 r.2.1) 4)) ∧
          (s1.poisonFor pa 256 = none →
            let v := ((u.homeReady pa).homeReady (pa + 128)).readRec (lin pa)
            let idle := v.recByte (lin pa) 0x14 = 0 ∨ v.recByte (lin pa) 0x14 = 8
            let r := v.startGroup (lin pa) s.core.sys.ctxid.toNat
            (¬ idle → Completes (exec (.tgrp d a) s) (WritesS v d 2 4)) ∧
            (idle → Completes (exec (.tgrp d a) s) (WritesS r.1 d (if r.2 = true then 1 else 0) 4))))) ∧
      (x % 256 ≠ 0 → exec (.tspawn d a b) s = .next (s.fault { cause := 5, fva := s.getS a })) ∧
      (x % 256 = 0 → ∀ s1 ws s2 pa, s.loadWords x 32 = (s1, .ok ws) → s1.reachRecord y.toNat = (s2, .ok pa) → s2.matBusy = false →
        s2.releaseCut 3 = false →
        let u := ((s2.release 3).homeReady pa).homeRead (lin pa + 0x14) 1
        let idle := u.recByte (lin pa) 0x14 = 0 ∨ u.recByte (lin pa) 0x14 = 8
        let tmpl := packB 8 (ws.map BitVec.toNat)
        AccessOnly s s2 ∧
        (¬ idle → Completes (exec (.tspawn d a b) s) (WritesS u d 1 4)) ∧
        (idle → getB tmpl 0x16 1 ≠ 0 → Completes (exec (.tspawn d a b) s) (WritesS u d 2 4)) ∧
        (idle → getB tmpl 0x16 1 = 0 → Completes (exec (.tspawn d a b) s) (WritesS (u.spawnAt pa tmpl) d 0 4))) ∧
      (∀ s1 pa, s.reachCounter x = (s1, .ok pa) →
        (y = 0 → s1.matBusy = false → s1.releaseCut 3 = false →
          let v := ((s1.release 3).homeReady pa).homeRead (lin pa) 24
          let set := bit (v.homeBytes (lin pa + 8) 8) 63
          (set = true → Completes (exec (.cntarm d a b) s) (WritesS v d 3 4)) ∧
          (set = false → look (v.disarm (lin pa)).store.marks (lin pa) = none ∧
            Completes (exec (.cntarm d a b) s) (WritesS (v.disarm (lin pa)) d 0 4))) ∧
        (y ≠ 0 → ∀ s2 rpa, s1.reachRecord y.toNat = (s2, .ok rpa) → s2.matBusy = false → s2.releaseCut 3 = false →
          let v := ((s2.release 3).homeReady pa).homeRead (lin pa) 24
          let set := bit (v.homeBytes (lin pa + 8) 8) 63
          (set = true → Completes (exec (.cntarm d a b) s) (WritesS v d 3 4)) ∧
          (set = false → (v.armed (lin pa)).isSome = true → Completes (exec (.cntarm d a b) s) (WritesS v d 2 4)) ∧
          (set = false → v.armed (lin pa) = none → v.homeBytes (lin pa) 7 = 0 →
            Completes (exec (.cntarm d a b) s) (WritesS (v.postBy (lin rpa) s.coreId).1 d 1 4)) ∧
          (set = false → v.armed (lin pa) = none → v.homeBytes (lin pa) 7 ≠ 0 → ∃ u : State,
            u.armed (lin pa) = some (lin rpa) ∧ Completes (exec (.cntarm d a b) s) (WritesS u d 0 4)))) ∧
      (∀ kind i, (kind = .cpy ∧ i = .cpy d a b ∨ kind = .gath ∧ i = .gath d a b ∨ kind = .coll ∧ i = Instr.coll d a b) →
        (∀ s1 t, s.reach x 64 64 .read = (s1, .error t) → exec i s = .next (s1.fault t)) ∧
        (∀ s1 tg s2 ws s3 counter, s.reach x 64 64 .read = (s1, .ok tg) → s1.readTable tg x = (s2, .ok ws) →
          s2.commandCounter y.toNat = (s3, .ok counter) → s3.matBusy = false →
          let blk := packB 8 (ws.map BitVec.toNat)
          let die := dieOf s3.coreId
          (blkBad kind blk s3.core.spadSize = true → Completes (exec i s) (WritesS s3 d 1 4)) ∧
          (blkBad kind blk s3.core.spadSize = false → s3.engineFor kind die = none → Completes (exec i s) (WritesS s3 d 2 4)) ∧
          (∀ eng, blkBad kind blk s3.core.spadSize = false → s3.engineFor kind die = some eng → s3.releaseCut (blkScope blk) = true →
            exec i s = .next s3) ∧
          (∀ eng, blkBad kind blk s3.core.spadSize = false → s3.engineFor kind die = some eng → s3.releaseCut (blkScope blk) = false →
            ∃ u v : State, u = s3.release (blkScope blk) ∧
              (u.fab.nextId, s3.core.sys.ctxid.toNat, y.toNat) ∈ v.fab.used ∧
              v = { u with fab := { u.fab with used := v.fab.used, nextId := u.fab.nextId + 1, cmds := u.fab.cmds ++ [{
                id := u.fab.nextId, kind, die, eng, blk, counter, ctx := s3.core.sys.ctxid.toNat
                root := s3.core.sys.ptroot.toNat, level := s3.th.level, core := s3.coreId, sent := 0, counted := 0 }] } } ∧
              Completes (exec i s) (WritesS v d 0 4))))

/-- R185–R190, R193–R208, R215–R223: a matrix instruction outside a block of virtual processors, with room in the queue and no
chain still to be formed, is posted with what it reads when it meets its limits, taken against the matrix state as every earlier
entry will leave it, and raises RESOP when it does not; a full queue makes it wait. When a posting waits is the model's reading:
log 27; that `mgmul` takes no limit of R118, and `mdrainx` the tile's ROWS, are log 65; an instruction of a task that has ended
behind a deferred fault is dropped. -/
def Obligations.MatrixPosting : Prop :=
  (∀ (v : MView) (e : MEntry),
    let u := v.after e
    let fx := fun i => e.f.fx.getLsbD i
    let kept := fun (m : MView) => m.mode = v.mode ∧ m.mvl = v.mvl ∧ m.shape = v.shape ∧ m.recv = v.recv
    (e.mop = 0 → u.mode = modeOfCode (e.f.fx.toNat % 4) ∧ u.mvl = v.mvl ∧ u.chain = v.chain ∧ u.recv = v.recv ∧
      (u.wlive = true ↔ v.wlive = true ∧ v.mode = u.mode) ∧
      ∀ i : Fin 8, rd u.shape i = if fx 3 then { rd v.shape i with rows := 0 } else rd v.shape i) ∧
    (e.mop = 1 → u = { v with shape := u.shape, mvl := BitVec.ofNat 2 (getBits e.sv.toNat 24 2) } ∧
      ∀ i : Fin 8, rd u.shape i = if i = e.f.t then
        { owner := e.slot, rows := getBits e.sv.toNat 16 8, cols := getBits e.sv.toNat 8 8, base := Fin.ofNat 64 (e.sv.toNat % 64) }
        else rd v.shape i) ∧
    (e.mop = 3 → u = { v with wlive := true, latTy := e.f.ty }) ∧ (e.mop = 16 → u = { v with wlive := false }) ∧
    (e.mop = 9 → u = { v with recv := u.recv } ∧ ∀ i : Fin 8, rd u.recv i = if i = e.f.t then !fx 0 else rd v.recv i) ∧
    (e.mop = 10 → kept u ∧ (fx 1 = true → u.chain = 1 ∧ u.wlive = v.wlive) ∧
      (fx 1 = false → u.wlive = false ∧ u.chain = if fx 0 then 3 else 2)) ∧
    (e.mop = 11 → kept u ∧ u.chain = 0 ∧ (u.wlive = true ↔ v.wlive = true ∧ v.chain ≠ 2 ∧ v.chain ≠ 3)) ∧
    (e.mop ∉ [0, 1, 3, 9, 10, 11, 16] → u = v)) ∧
  ∀ (s : State) (f : MF),
    s.th.vp = none → 0 < s.th.vec.vlen →
      let v := s.core.mat.queue.foldl MView.after s.core.mat.view
      let n := s.lanes s.coreId
      let t := rd v.shape f.t
      let vlen := s.th.vec.vlen
      let w := (s.getS f.s).toNat
      let w1 := (s.getS (f.s + 1)).toNat
      let fx := fun i => f.fx.getLsbD i = true
      let mx := f.ty = .mxf4
      let z := f.ty.bits
      let m := match s.th.convoy with | some c => c.vl | none => s.th.vec.vl
      let colsMax := if v.chain = 2 then 2 * n else n
      let colBytes := if v.chain = 3 then 1024 else 512
      let mask := fun (r : KReg) (k : Nat) => r = 0 ∨ k ≤ 64 ∨ r ≠ 15
      let kd := (s.getK f.kd).toNat
      let depth := fun kmax => f.kd = 0 ∨ (kd / 2 ^ 11 = 0 ∧ kd % 2 ^ 11 ≤ kmax)
      let klen := fun kmax => if f.kd = 0 then kmax else kd % 2 ^ 11
      let blocks := fun kmax => mx → klen kmax % 32 = 0
      let stride := w % (if mx then 16 else 8) = 0 ∧ 8 ≤ w ∧ w ≤ 1024
      let within := fun (r : VReg) (k : Nat) => r.val * vlen + k ≤ 64 * vlen
      let onTile := fun (r : VReg) (k : Nat) => k ≠ 0 ∧ t.owner = s.slot ∧
        r.val * vlen < t.base.val * vlen + t.rows * t.cols * 4 ∧ t.base.val * vlen < r.val * vlen + k
      let tagged := fun (x : Nat) => ∃ y : VRegister, s.th.vec.v[x]? = some y ∧ y.tag = true
      let tags := fun (r : VReg) (k : Nat) => mx → ∀ x, r.val ≤ x → x * vlen < r.val * vlen + k → tagged x
      let stream := fun (rows : Nat) =>
        let kmax := colBytes * 8 / z
        v.mode = .ws ∧ t.rows ≠ 0 ∧ rows ≤ 16 * 2 ^ v.mvl.toNat ∧ t.cols ≤ colsMax ∧ stride ∧ mask f.kr rows ∧ mask f.kc t.cols ∧
        depth kmax ∧ blocks kmax ∧ (klen kmax * z + 7) / 8 ≤ w
      let latched := v.wlive = true ∧ f.ty.matClass = v.latTy.matClass
      let aGroup := within f.a (t.rows * w) ∧ ¬ onTile f.a (t.rows * w) ∧ tags f.a (t.rows * w)
      let rowsIn := fun (r : VReg) (rows : Nat) (k : KReg) => ∀ i, i < rows → matOn k (s.getK k) 0 i = true →
        r.val * vlen + (i + 1) * w ≤ 64 * vlen ∧ (mx → ∀ j, j < (w + 15) / 16 → tagged (r.val + (i * w + 16 * j) / vlen))
      let row0 := w % 256
      let cnt := w / 256 % 256
      let free := v.mode ≠ .follow
      let unchained := v.chain = 0 ∨ v.chain = 6 ∨ v.chain = 7
      let drows := if fx 2 then 64 else t.rows
      let dcols := if fx 2 then n else t.cols
      let out := (cnt * dcols * z + 7) / 8
      let next := fun (a b : Nat) (south : Bool) =>
        let r := a / 8 % 32
        let q := b / 8 % 32
        a % 8 = b % 8 ∧
          if south then a / 256 = b / 256 ∧ r / 8 < 3 ∧ q = r + 8
          else if r % 8 < 7 then a / 256 = b / 256 ∧ q = r + 1
          else a / 256 % 4 ≠ 3 ∧ b / 256 = a / 256 + 1 ∧ q + 7 = r
      let me := coreIdOf s.coreId
      let forming := ∃ e ∈ s.core.mat.queue, e.mop = 10 ∧ e.f.fx.getLsbD 1 = false
      let dropped := s.th.ending = true ∧ s.core.mat.held.isSome = true
      let posts := fun (i : Instr) (mop : Nat) (pair waits : Bool) (ok : Prop) =>
        (dropped → Completes (exec i s) (fun t => t = { s with th := t.th } ∧
          (s.th.convoy = none → t.th = { s.th with pc := s.th.pc + 8 }))) ∧
        (¬ dropped →
          (32 ≤ s.core.mat.queue.length → exec i s = .next s) ∧
          (s.core.mat.queue.length < 32 →
            let held := s.matBusy = true ∧ (forming ∨ (waits = true ∧ mx))
            (held → exec i s = .next s) ∧
            (¬ held → ok → Completes (exec i s) (Posts s mop f pair)) ∧
            (¬ held → ¬ ok → exec i s = .next (s.fault { cause := 3 }))))
      posts (.mmode f) 0 false false (free ∧ unchained ∧ (fx 2 → v.mode = .rs ∧ t.rows ≠ 0)) ∧
      posts (.mshape f) 1 false false (
        let rows := getBits w 16 8
        let cols := getBits w 8 8
        free ∧ w / 2 ^ 26 = 0 ∧ getBits w 6 2 = 0 ∧ 1 ≤ rows ∧ rows ≤ 128 ∧ 1 ≤ cols ∧ cols ≤ colsMax ∧
          w % 64 * vlen + rows * cols * 4 ≤ 64 * vlen ∧ rd v.recv f.t = false) ∧
      (∀ i, (i = .mzero f ∨ i = .mzeroAcc f) → posts i 2 false false (free ∧ if fx 0 then v.mode = .rs else t.rows ≠ 0)) ∧
      posts (.mldb f) 3 false false (
        v.mode = .ws ∧ w % (if mx then 16 else 8) = 0 ∧ mask f.kc colsMax ∧ depth (colBytes * 8 / z) ∧ blocks (colBytes * 8 / z)) ∧
      posts (.mmul f) 4 false true (latched ∧ stream t.rows ∧ aGroup) ∧
      posts (.mopa f) 5 false true (
        let kmax := w * 8 / z
        v.mode = .rs ∧ stride ∧ mask f.kr 64 ∧ mask f.kc n ∧ depth kmax ∧ blocks kmax ∧ rowsIn f.a 64 f.kr ∧ rowsIn f.b n f.kc) ∧
      posts (.mgmul f) 6 false true (
        latched ∧ stream m ∧ t.rows ≤ 16 * 2 ^ v.mvl.toNat ∧ tags f.a 1 ∧ ∀ r, r = f.b ∨ r = f.c → within r (2 * m) ∧ ¬ onTile r (2 * m)) ∧
      posts (.mdrain f) 7 false false (
        free ∧ (if fx 2 then v.mode = .rs else t.rows ≠ 0) ∧ w / 2 ^ 16 = 0 ∧ 1 ≤ cnt ∧ cnt ≤ 128 ∧ row0 + cnt ≤ drows ∧
          mask f.kr (row0 + cnt) ∧ mask f.kc dcols ∧ within f.c out ∧ (fx 2 ∨ ¬ onTile f.c out) ∧ (fx 0 → within f.a (4 * dcols)) ∧
          (fx 1 → within f.b (4 * dcols)) ∧
          (mx → dcols % 32 = 0 ∧ ∀ j i, j < dcols / 32 → i < 32 →
            matOn f.kc (s.getK f.kc) (s.getK (f.kc + 1)) (32 * j + i) = matOn f.kc (s.getK f.kc) (s.getK (f.kc + 1)) (32 * j))) ∧
      posts (.mdrainx f) 8 true false (
        free ∧ t.rows ≠ 0 ∧ w / 2 ^ 30 = 0 ∧ 1 ≤ cnt ∧ cnt ≤ 128 ∧ row0 + cnt ≤ t.rows ∧ w1 % 8 = 0 ∧ mask f.kr (row0 + cnt) ∧
          mask f.kc t.cols) ∧
      posts (.mrecv f) 9 false false (
        let rows := getBits w 16 8
        free ∧ t.rows ≠ 0 ∧ rd v.recv f.t = false ∧ getBits w 11 5 = 0 ∧ w / 2 ^ 32 = 0 ∧ 1 ≤ rows ∧ rows ≤ 128 ∧
          getBits w 24 8 + rows ≤ t.rows) ∧
      posts (.mrecvCancel f) 9 false false free ∧
      posts (.mchain f) 10 false false (v.mode = .ws ∧ unchained ∧ w / 2 ^ 11 = 0 ∧ w % 8 < 6 ∧ next me w (f.fx.getLsbD 0)) ∧
      posts (.mchainAccept f) 10 false false (v.mode = .v ∧ unchained ∧ w / 2 ^ 11 = 0 ∧ w % 8 < 6 ∧ next w me (f.fx.getLsbD 0)) ∧
      posts (.munchain f) 11 false false (v.chain ≠ 4 ∧ v.chain ≠ 5) ∧
      posts (.mmulx f) 16 false true (stream t.rows ∧ aGroup ∧ within f.b (2 * t.rows) ∧ within f.c (4 * t.rows)) ∧
      posts (.mrinv f) 17 false false (w / 2 ^ 12 = 0) ∧ posts (.mrinvAll f) 17 false false True ∧
      posts (.mrpf f) 18 false false (getBits w 12 4 = 0 ∧ w / 2 ^ 24 = 0 ∧ 1 ≤ getBits w 16 8 ∧ getBits w 16 8 ≤ 64) ∧
      posts (.mrprobe f) 19 true false (w / 2 ^ 12 = 0 ∧ w1 / 2 ^ 32 = 0) ∧
      (dropped → Completes (exec (.mwait f) s) (fun t => t = { s with th := t.th })) ∧
      (¬ dropped → 32 ≤ s.core.mat.queue.length → exec (.mwait f) s = .next s) ∧
      (¬ dropped → s.core.mat.queue.length < 32 → Completes (exec (.mwait f) s) (fun t => ∃ e, e.mop = 12 ∧ e.f = f ∧ e.slot = s.slot ∧
        t = { s with
          th := { s.th with wait := .mwait }
          core := { s.core with mat := { s.core.mat with queue := s.core.mat.queue ++ [e] } } }))

/-! ## The matrix array (05, 08, 09) -/

/-- R113–R115, R184, R185, R189, R194–R202, R209: what the sequencer leaves as it works an instruction from one gate to the next,
16 rows or groups on: modes with the array's state and the flush of the accumulators, shapes, zeroing, the load of the latches,
products into a tile or the accumulators, drains. An instruction that needs a chain that is gone, or a load of the latches that
cannot read a byte, is held with its cause, and of a task that has ended the queue is dropped (R330). `.mxf4` sources are tagged
here, which posting asks for. A drain's random values are drawn under stochastic rounding. Registers that a drain reads while it
writes them are left out. -/
def Obligations.MatrixArrayResults : Prop :=
  ∀ (s : State) (e : MEntry) (es : List MEntry),
    s.ev.core = s.coreId → s.core.mat.held = none → s.core.mat.queue = e :: es → e.slot = s.slot →
      let m := s.core.mat
      let q := rd m.tshape e.f.t
      let len := s.th.vec.vlen
      let fx := fun i => e.f.fx.getLsbD i
      let sv := e.sv.toNat
      let ty := e.f.ty
      let rowOn := matOn e.f.kr e.kr e.kr1
      let colOn := matOn e.f.kc e.kc e.kc1
      let top := fun total => min total (m.gate + 16)
      let now := fun total r => m.gate ≤ r ∧ r < top total
      let done := fun (x : Mat) => { x with queue := es, started := false, gate := 0, bound := none, xlive := false, ctr := none }
      let past := fun (total : Nat) (x : Mat) => if m.gate + 16 < total then { x with started := true, gate := m.gate + 16 } else done x
      let seq := exec .matrixSequence s
      let rest := fun (x : Mat) (t : State) => t.core.mat = x ∧ t.store = s.store ∧ t.fab = s.fab ∧ t.others = s.others
      let sets := fun (x : Mat) => seq = .next { s with core := { s.core with mat := x } }
      let clear := hitsTile e.f.a (q.rows * sv) len q e.slot = false
      let acc := fun (b : Blob) i n => getB b (4 * (64 * i + n)) 4
      let left := if s.th.ending then [] else e :: es
      -- modes (R194, R195)
      (e.mop = 0 → ∀ target, modeOfCode (e.f.fx.toNat % 4) = target → m.mode ≠ target → (m.mode = .v → s.convoysBefore s.coreId false = false) →
        let ws := m.mode = .ws ∨ target = .ws
        let rs := m.mode = .rs ∨ target = .rs
        let entered : Mat := { m with
          mode := target
          lat := if ws then [] else m.lat
          wlive := if ws then false else m.wlive
          acc := if rs then 0 else m.acc
          alive := if rs then decide (target = .rs) else m.alive
          tshape := if fx 3 then m.tshape.map (fun x => { x with rows := 0 }) else m.tshape }
        (m.mode ≠ .rs ∨ fx 2 = false → sets (done entered)) ∧
        (m.mode = .rs → fx 2 = true → s.HoldsTile s.coreId q → Completes seq (fun t =>
          TileWrites s s.coreId q (fun r n => if now (min 64 q.rows) r ∧ n < s.nLanes then some (acc m.acc r n) else none) t ∧
          rest (if m.gate + 16 < min 64 q.rows then { m with started := true, gate := m.gate + 16 } else done entered) t))) ∧
      (e.mop = 0 → modeOfCode (e.f.fx.toNat % 4) = m.mode →
        sets (done { m with tshape := if fx 3 then m.tshape.map (fun x => { x with rows := 0 }) else m.tshape })) ∧
      -- shapes and zeroing (R196, R197)
      (e.mop = 1 → fx 0 = false →
        let x : TShape := { owner := e.slot, rows := sv / 2 ^ 16 % 2 ^ 8, cols := sv / 2 ^ 8 % 2 ^ 8, base := Fin.ofNat 64 (sv % 2 ^ 6) }
        s.HoldsTile s.coreId x → Completes seq (fun t => TileWrites s s.coreId x (fun _ _ => some 0) t ∧
          rest (done { m with tshape := (wr m.tshape e.f.t x), mvl := BitVec.ofNat 2 (sv / 2 ^ 24 % 2 ^ 2) }) t)) ∧
      (e.mop = 2 → fx 0 = false → s.HoldsTile s.coreId q → Completes seq (fun t =>
        TileWrites s s.coreId q (fun _ _ => some 0) t ∧ rest (done m) t)) ∧
      -- a chain that is gone (R209)
      (e.chained = true → (e.mop = 3 ∨ e.mop = 4 ∨ e.mop = 6) → m.chain ≠ 2 → m.chain ≠ 3 → sets { m with
        held := some { cause := 2, addr := 0, untaken := true, checked := false }, fcause := 2, started := true, xlive := false, queue := left }) ∧
      (e.chained = false ∨ m.chain = 2 ∨ m.chain = 3 →
        -- latches (R198)
        (e.mop = 3 →
          let per := if m.chain = 3 then 1024 else 512
          let cols := if m.chain = 2 then 2 * s.nLanes else s.nLanes
          let klen := if e.f.kd = 0 then per * 8 / ty.bits else e.kd.toNat % 2 ^ 11
          let off := sv - 0x00FFFF0000000000
          (0x00FFFF0000000000 ≤ sv → off + cols * per + cols * (per / 16) ≤ s.core.spadSize → s.core.spadSize ≤ 2 ^ 20 →
            klen * ty.bits ≤ 8 * per → (ty = .mxf4 → klen % 32 = 0) → sets (done { m with
              wlive := true
              latTy := ty
              lat := (List.range cols).map (fun n =>
                if colOn n = true ∧ klen ≠ 0 then
                  { data := s.core.spad.readN (off + n * per) ((klen * ty.bits + 7) / 8)
                    loaded := 2 ^ klen - 1
                    scales := if ty = .mxf4 then s.core.spad.readN (off + cols * per + n * (per / 16)) (klen / 32) else 0 }
                else { data := 0, loaded := 0, scales := 0 }) })) ∧
          (0x00FFFF0000000000 ≤ sv → sv < 0x00FFFF0000000000 + 2 ^ 20 → s.core.spadSize ≤ off → klen ≠ 0 → 1 ≤ cols → colOn 0 = true →
            sets { m with
              lat := [], wlive := false, held := some { cause := 1, addr := e.sv, untaken := true, checked := false }, fcause := 1, started := true
              xlive := false, queue := left })) ∧
        -- products into a tile (R114, R199, R200)
        (e.mop = 4 → s.HoldsTile s.coreId q → clear → (ty = .mxf4 → s.th.tagged e.f.a (q.rows * sv) = true) →
          Completes seq (fun t => rest (past q.rows m) t ∧ TileWrites s s.coreId q (fun r n =>
            if now q.rows r ∧ rowOn r = true ∧ colOn n = true then
              some (f32Plus (s.tileElem s.coreId q r n) (s.rowTimes e m.lat m.latTy (r * sv) n))
            else none) t)) ∧
        (e.mop = 6 → s.HoldsTile s.coreId q → (ty = .mxf4 → ∀ r, (rd s.th.vec.v r).tag = true) →
          (∀ g, g = e.f.b ∨ g = e.f.c → hitsTile g (2 * e.vl) len q e.slot = false) →
          let first := e.f.a.val
          let arow := fun i => s.th.group e.f.b.val (2 * i) 2
          let trow := fun i => s.th.group e.f.c.val (2 * i) 2
          let skipped := fun i => 64 * len < first * len + (arow i + 1) * sv ∨ q.rows ≤ trow i ∨
            q.owner = e.slot ∧ first + arow i * sv / len < q.base.val + q.span len ∧
              q.base.val < first + (arow i * sv + sv - 1) / len + 1
          Completes seq (fun t => rest (past e.vl m) t ∧ TileWrites s s.coreId q (fun r n =>
            some (((List.range e.vl).filter (fun i => decide (now e.vl i) && rowOn i && colOn n && decide (trow i = r) && !decide (skipped i))).foldl
              (fun x i => f32Plus x (s.rowTimes e m.lat m.latTy (arow i * sv) n)) (s.tileElem s.coreId q r n))) t))) ∧
      -- products into the accumulators (R115, R201)
      (e.mop = 5 → (ty = .mxf4 → ∀ r, (rd s.th.vec.v r).tag = true) →
        let klen := if e.f.kd = 0 then sv * 8 / ty.bits else e.kd.toNat % 2 ^ 11
        let per := if ty = .mxf4 then 32 else 64 / ty.bits
        let total := (klen + per - 1) / per
        let scale := fun base i k => s.th.groupScale base (i * sv + 16 * k) (fun _ => 0)
        Completes seq (fun t => t.th = s.th ∧
          (∀ i n, i < 64 → n < s.nLanes → n < 64 → acc t.core.mat.acc i n =
            if rowOn i = true ∧ colOn n = true then
              ((List.range total).filter (fun k => decide (now total k))).foldl (fun x k => f32Plus x
                (groupAdds ty (s.rowValue ty e.f.a.val (i * sv) sv klen) (s.rowValue ty e.f.b.val (n * sv) sv klen)
                  (scale e.f.a.val i) (scale e.f.b.val n) k)) (acc m.acc i n)
            else acc m.acc i n) ∧
          rest (past total { m with acc := t.core.mat.acc }) t)) ∧
      -- drains (R202)
      (e.mop = 7 →
        let cols := if fx 2 then s.nLanes else q.cols
        let cnt := sv / 2 ^ 8 % 2 ^ 8
        let row0 := sv % 2 ^ 8
        let bytes := (cnt * cols * ty.bits + 7) / 8
        let apart := fun (g : VReg) (n : Nat) => overlaps e.f.c.val (spanOf bytes len) g.val (spanOf n len) = false
        let f32 := fmtOf .f32
        let x := fun r n => f32.decode (if fx 2 then acc m.acc r n else s.tileElem s.coreId q r n)
        let y := fun r n => if fx 0 then (Val.mul (x r n) (f32.decode (s.th.group e.f.a.val (4 * n) 4))).v else x r n
        let z := fun r n => if fx 1 then (Val.add (e.mode = .rdn) (y r n) (f32.decode (s.th.group e.f.b.val (4 * n) 4))).v else y r n
        let due := fun j n => now cnt j ∧ rowOn (row0 + j) = true ∧ colOn n = true
        0 < len → len % 64 = 0 → e.f.c.val * len + bytes ≤ 64 * len → (fx 0 = true → apart e.f.a (4 * cols)) →
        (fx 1 = true → apart e.f.b (4 * cols)) → (fx 2 = false → q.owner = e.slot → apart q.base (q.rows * q.cols * 4)) →
        (ty = .mxf4 → cols % 32 = 0) →
          Completes seq (fun t => ∃ rnd : Nat → Nat → Nat, (∀ j n, rnd j n < 2 ^ 16) ∧
            t.th = { s.th with vec := { s.th.vec with v := t.th.vec.v, lat := (wr s.th.vec.lat 6 (rd t.th.vec.lat 6)) } } ∧
            (ty ≠ .mxf4 → ∀ j n, j < cnt → n < cols → t.th.group e.f.c.val ((j * cols + n) * (ty.bits / 8)) (ty.bits / 8) =
              if due j n then (roundTo ty e.mode e.f.sat (rnd j n) (z (row0 + j) n)).code % 2 ^ ty.bits
              else s.th.group e.f.c.val ((j * cols + n) * (ty.bits / 8)) (ty.bits / 8)) ∧
            (ty = .mxf4 → ∀ j b, j < cnt → b < cols / 32 → due j (32 * b) →
              let xs := (List.range 32).map (fun i => z (row0 + j) (32 * b + i))
              let at_ := (j * cols + 32 * b) / 2
              t.th.groupScale e.f.c.val at_ (fun _ => 0) = mxf4Scale xs ∧
              ∀ i, i < 32 → t.th.group e.f.c.val at_ 16 / 16 ^ i % 16 =
                (mxf4Elem xs e.mode (rnd j (32 * b + i)) (z (row0 + j) (32 * b + i))).code % 16) ∧
            (∀ (v : VReg) b, b < len → (v.val * len + b < e.f.c.val * len ∨ e.f.c.val * len + bytes ≤ v.val * len + b) →
              t.regByte t.coreId t.slot.val v b = s.regByte s.coreId s.slot.val v b) ∧
            t.core.mat = past cnt m ∧ t.store = s.store ∧ t.fab = s.fab ∧ t.coreId = s.coreId ∧ t.slot = s.slot))

/-- R185, R203–R208, R216–R224, R279, R397: rows leave through `mdrainx` with the poster's earlier stores released and its counter
translated, and arrive in the window that admits them; windows open and close; chains form by the four tests and part; a bind gives the cause
of R218; `mmulx` streams each granted row with its record's columns, sets the unmasked columns of a refused row to +0 and names the refused
rows; records are dropped, asked for and probed. A spoilt row, the order of prefetches, and a release that
finds its offer taken up are the model's readings: log 29, log 52, log 59; so are that a row which no window admits is removed and not
counted, log 27, and that rows keep their order and their counter lies in device memory, log 30. -/
def Obligations.MatrixTransfers : Prop :=
  (∀ (s : State) (e : MEntry) (es : List MEntry),
    s.ev.core = s.coreId → s.core.mat.held = none → s.core.mat.queue = e :: es → e.slot = s.slot →
      let m := s.core.mat
      let q := rd m.tshape e.f.t
      let fx := fun i => e.f.fx.getLsbD i
      let sv := e.sv.toNat
      let index := sv % 2 ^ 12
      let rowOn := matOn e.f.kr e.kr e.kr1
      let colOn := matOn e.f.kc e.kc e.kc1
      let done := fun (x : Mat) => { x with queue := es, started := false, gate := 0, bound := none, xlive := false, ctr := none }
      let past := fun (total : Nat) (x : Mat) => if m.gate + 16 < total then { x with started := true, gate := m.gate + 16 } else done x
      let held := fun (cause addr : Nat) (u : State) => { u with core := { u.core with mat := { u.core.mat with
        held := some { cause, addr := BitVec.ofNat 64 addr, untaken := true, checked := false }, fcause := BitVec.ofNat 4 cause, started := true
        xlive := false, queue := if u.th.ending then [] else u.core.mat.queue } } }
      let seq := exec .matrixSequence s
      let sets := fun (x : Mat) => seq = .next { s with core := { s.core with mat := x } }
      -- rows out (R203, R279)
      (e.mop = 8 →
        let cnt := sv / 2 ^ 8 % 2 ^ 8
        let rows := (List.range (min cnt (m.gate + 16))).filter (fun j => decide (m.gate ≤ j))
        let sends := fun (u : State) (c : Nat) => Completes seq (fun t =>
          t.fab.rows = u.fab.rows ++ rows.mapIdx (fun i j =>
            let r := sv % 2 ^ 8 + j
            let cols := if rowOn r then (List.range q.cols).filter colOn else []
            { id := u.fab.nextId + i, src := u.coreId, dst := (linearOf (sv / 2 ^ 16 % 2 ^ 11)).getD 1536, tile := Fin.ofNat 8 (sv / 2 ^ 27)
              cols := q.cols, row := r, vals := cols.map (fun n => (n, u.tileElem u.coreId q r n)), bytes := 4 * cols.length, counter := c
              ctx := u.core.sys.ctxid.toNat }) ∧
          t.core.mat = past cnt { u.core.mat with ctr := some c } ∧ t.th = u.th ∧ t.store = u.store)
        (∀ c, m.ctr = some c → sends s c) ∧
        (∀ u c, m.ctr = none → (s.release 3).drainCounter e = (u, some c) → u.core.mat = m → sends u c) ∧
        (∀ u, m.ctr = none → (s.release 3).drainCounter e = (u, none) → seq = .next (held 1 e.sv1.toNat u)) ∧
        (0x00FFFF0000000000 ≤ e.sv1.toNat → e.sv1.toNat < 0x00FFFF0000000000 + 2 ^ 20 → m.ctr = none →
          seq = .next (held 1 e.sv1.toNat (s.release 3)))) ∧
      -- windows (R204)
      (e.mop = 9 → sets (done { m with recv := (wr m.recv e.f.t (if fx 0 then none else some {
        sender := sv % 2 ^ 11, cnt := sv / 2 ^ 16 % 2 ^ 8, row0 := sv / 2 ^ 24 % 2 ^ 8, seen := 0 })) })) ∧
      -- chains (R206–R208, R397)
      (e.mop = 10 → fx 1 = true → s.convoysBefore s.coreId true = false → sets (done { m with chain := 1, partner := sv % 2 ^ 11 })) ∧
      (e.mop = 10 → fx 1 = false →
        let alone := sets (done { m with chain := 6, partner := 0 })
        (linearOf (sv % 2 ^ 11) = none → alone) ∧
        (∀ p, linearOf (sv % 2 ^ 11) = some p → p ≠ s.coreId →
          let o := s.coreAt p
          let joins := o.mat.chain = 1 ∧ o.mat.partner = coreIdOf s.coreId ∧ s.enabled p = true ∧ s.lanes p = s.lanes s.coreId ∧
            o.task.isSome = true ∧ (∀ j, j < 4 → (s.threadAt p j).occ = true → (s.threadAt p j).ending = false) ∧
            o.sys.ctxid = s.core.sys.ctxid
          (¬ joins → alone) ∧
          (joins → Completes seq (fun t =>
            t.core = { s.core with mat := done { m with
              chain := if fx 0 then 3 else 2, partner := sv % 2 ^ 11, wlive := false, lat := [] } } ∧
            t.coreAt p = { o with mat := { o.mat with mode := .follow, chain := if fx 0 then 5 else 4, lat := [], wlive := false } } ∧
            t.th = s.th ∧ t.store = s.store)))) ∧
      (e.mop = 11 →
        (∀ p, (m.chain = 2 ∨ m.chain = 3) → linearOf m.partner = some p → p ≠ s.coreId → Completes seq (fun t =>
          t.core = { s.core with mat := done { m with chain := 0, wlive := false, partner := 0 } } ∧
          (let o := (s.coreAt p).mat
           let joined := (o.chain = 4 ∨ o.chain = 5) ∧ linearOf o.partner = some s.coreId
           (joined → t.coreAt p = { s.coreAt p with mat := { o with mode := .v, chain := 0, lat := [], partner := 0 } }) ∧
           (¬ joined → t.coreAt p = s.coreAt p)) ∧
          t.th = s.th ∧ t.store = s.store)) ∧
        ((m.chain = 4 ∨ m.chain = 5) → seq = .next (held 2 0 s)) ∧
        (m.chain ≠ 2 → m.chain ≠ 3 → m.chain ≠ 4 → m.chain ≠ 5 → sets (done { m with chain := 0, partner := 0 }))) ∧
      -- record by record (R220–R222)
      (e.mop = 16 → m.bound = none →
        (∀ u b, State.bindRows e q.rows s 0 [] { cause := [], idx := [], recs := [] } = (u, .ok b) →
          seq = .next { u with core := { u.core with mat := { u.core.mat with bound := some b, started := true, gate := 0 } } }) ∧
        (∀ u i, State.bindRows e q.rows s 0 [] { cause := [], idx := [], recs := [] } = (u, .error i) → seq = .next (held 3 i u))) ∧
      (∀ b, e.mop = 16 → m.bound = some b →
        let rows := (List.range (min q.rows (m.gate + 16))).filter (fun r => decide (m.gate ≤ r))
        let granted := fun r => rowOn r = true ∧ b.cause.getD r 0 = 0
        let before := (List.range m.gate).filter (fun r => decide (granted r))
        let live := if m.xlive then before.getLast?.map (fun j => b.idx.getD j 0) else none
        let refused := (List.range q.rows).filter (fun r => decide (rowOn r = true ∧ b.cause.getD r 0 ≠ 0))
        (∀ u a, State.loadRows e b rows s live m.lat m.latTy = (u, .error a) → seq = .next (held 1 a u)) ∧
        (∀ u loads, State.loadRows e b rows s live m.lat m.latTy = (u, .ok loads) → u.core.mat = m → u.th = s.th → u.HoldsTile u.coreId q →
          hitsTile e.f.a (q.rows * sv) s.th.vec.vlen q e.slot = false →
          (e.f.ty = .mxf4 → s.th.tagged e.f.a (q.rows * sv) = true) →
          Completes seq (fun t => TileWrites u u.coreId q (fun r n =>
            if r ∈ rows ∧ rowOn r = true ∧ colOn n = true then
              (match look loads r with
                | some (cs, ty) => some (f32Plus (u.tileElem u.coreId q r n) (u.rowTimes e cs ty (r * sv) n))
                | none => some 0)
            else none) t ∧
            (q.rows ≤ m.gate + 16 → t.core.mat.queue = es ∧ t.core.mat.wlive = false ∧
              t.core.sys.orflt0 = BitVec.ofNat 64 (refused.foldl (fun x r => x + 2 ^ r) 0) ∧
              t.core.sys.orflt1 = BitVec.ofNat 64 (refused.foldl (fun x r => x + 2 ^ r) 0 / 2 ^ 64)) ∧
            (m.gate + 16 < q.rows → t.core.mat.queue = m.queue ∧ t.core.mat.gate = m.gate + 16 ∧ t.core.mat.bound = some b)))) ∧
      -- the record cache (R219, R223, R224)
      (e.mop = 17 → Completes seq (fun t => t.th = s.th ∧ t.store = s.store ∧ t.core = { s.core with
        mat := done m
        rcache := if fx 0 then [] else s.core.rcache.filter (fun p => p.1 != index)
        rpend := if fx 0 then [] else s.core.rpend.filter (fun i => i != index) })) ∧
      (e.mop = 18 → Completes seq (fun t => t.th = s.th ∧ t.store = s.store ∧ t.core = { s.core with
        mat := done m
        rpend := s.core.rpend ++ ((List.range (sv / 2 ^ 16 % 2 ^ 8)).map (fun k => index + k)).filter (fun i =>
          decide (i < s.core.sys.orcnt.toNat ∧ look s.core.rcache i = none ∧ ¬ i ∈ s.core.rpend)) })) ∧
      (e.mop = 19 →
        let probes := fun (cause : Nat) (t : State) => t.core.sys.orprobe = BitVec.ofNat 64 cause ∧ t.core.mat = done m ∧ t.th = s.th
        (s.core.sys.orcnt.toNat ≤ index →
          Completes seq (probes (1 + if (look s.core.rcache index).isSome then 256 else 0))) ∧
        (∀ x, index < s.core.sys.orcnt.toNat → look s.core.rcache index = some x →
          let f := fun off w => getBits x off w
          let per := if m.chain = 3 then 1024 else 512
          let tenant := e.sv1.toNat % 2 ^ 16
          let key := e.sv1.toNat / 2 ^ 16 % 2 ^ 16
          let sound := fun (ty : ETy) => ETy.ofCode (f 128 6) = some ty ∧ ty.isMatIn = true ∧
            f 0 64 % (if ty = .mxf4 then 16 else 8) = 0 ∧ 1 ≤ f 144 12 ∧ f 144 12 ≤ per * 8 / ty.bits ∧ 1 ≤ f 160 8 ∧ f 160 8 ≤ 128 ∧
            (if ty = .mxf4 then f 144 12 % 32 = 0 else f 64 64 = 0) ∧ f 134 10 = 0 ∧ f 156 4 = 0 ∧ f 168 24 = 0 ∧ f 224 288 = 0
          ((∀ ty, ¬ sound ty) → Completes seq (probes (256 + 2))) ∧
          (∀ ty, sound ty → Completes seq (probes (256 +
            if f 192 16 ≠ tenant then 3 else if f 208 16 ≠ key then 4 else if ty.matClass ≠ e.f.ty.matClass then 5 else 0))) ∧
          (∀ t, seq = .next t → t.core.rcache.head? = some (index, x))))) ∧
  (∀ (s : State) (r : MRow) (w : Recv),
    s.fab.rows.find? (fun x => x.id == s.ev.id) = some r →
    s.fab.rows.find? (fun x => clusterOf x.src == clusterOf r.src && clusterOf x.dst == clusterOf r.dst) = some r →
      let c := s.coreAt r.dst
      let q := rd c.mat.tshape r.tile
      rd c.mat.recv r.tile = some w →
        let admits := s.enabled r.dst = true ∧ c.task.isSome = true ∧ c.sys.ctxid.toNat = r.ctx ∧ linearOf w.sender = some r.src ∧
          q.rows ≠ 0 ∧ q.cols = r.cols ∧ w.row0 ≤ r.row ∧ r.row < w.row0 + w.cnt
        (admits → s.ev.flag = false → s.HoldsTile r.dst q → (r.vals.map (fun p => p.1)).Nodup → r.row < q.rows →
          (∀ p ∈ r.vals, p.1 < q.cols) → Completes (exec .mdrainxRowArrival s) (fun t =>
            TileWrites s r.dst q (fun i n =>
              if i = r.row then
                (look r.vals n).map (fun v => f32Plus (s.tileElem r.dst q i n) ((fmtOf .f32).decode v))
              else none) t ∧
            rd (t.coreAt r.dst).mat.recv r.tile = (if w.cnt ≤ w.seen + 1 then none else some { w with seen := w.seen + 1 }))) ∧
        ((¬ admits ∨ s.ev.flag = true) → exec .mdrainxRowArrival s =
          .next ((s.setFab { s.fab with rows := s.fab.rows.filter (fun x => x.id != r.id) }).stopAt r.counter 0 r.bytes)))

/-! ## Steps outside every instruction stream (08, 11–14, 16, 22) -/

/-- R21, R63, R189, R204, R210, R368, R374, R378: what a thread's pause, the timer, a request, a core out of service, an interrupt, the
sequencer's simple entries, a row on its way and a prefetched record do. The machine check that reports a core out of service goes to its
lowest thread; with none, it waits for the next thread of the module that takes a turn: log 49. These steps and their arguments are the
model's: log 2; readings: log 27, log 29, log 32, log 47. -/
def Obligations.ThreadAndMatrixSteps : Prop :=
  ∀ (s : State),
    let n := s.ev.core
    let j := s.ev.slot.val
    let m := s.core.mat
    (∀ u, (s.threadAt n j).wait = .pause u →
      (u < s.cycle → Completes (exec .pauseExpiry s) (fun t =>
        t.threadAt n j = { s.threadAt n j with wait := .none, pc := (s.threadAt n j).pc + 4 } ∧ t.store = s.store)) ∧
      (s.cycle ≤ u → exec .pauseExpiry s = .next s)) ∧
    (s.timerDue n = true → Completes (exec .timerCompare s) (fun t =>
      (t.coreAt n).sys.ipend = (s.coreAt n).sys.ipend ||| 1 ∧ MemOnly s t)) ∧
    (s.ev.v.getLsbD 0 = true → n < 1536 → Completes (exec .preemptRequest s) (fun t =>
      (t.coreAt n).sys.ipend = (s.coreAt n).sys.ipend ||| 2 ∧ MemOnly s t)) ∧
    (s.ev.v.getLsbD 0 = false → exec .preemptRequest s = .next s) ∧
    (s.enabled n = true →
      let starting := s.boot.ok = false ∧ s.boot.stopped = false ∧ s.boot.mode ≠ 3
      let out := { s.coreAt n with outOfService := true }
      (starting → Completes (exec .coreOutOfService s) (fun t =>
        t.coreAt n = out ∧ t.boot.stopped = true ∧ t.boot.reason = 6 ∧ t.th = s.th ∧ t.store = s.store)) ∧
      (¬ starting → (∀ i, i < 4 → (s.threadAt n i).occ = false) → Completes (exec .coreOutOfService s) (fun t =>
        t.coreAt n = out ∧ t.fab = { s.fab with checks := s.fab.checks ++ [6] } ∧ t.th = s.th ∧ t.store = s.store)) ∧
      (¬ starting → n = s.coreId → (s.teamSlots n).head? = some s.slot.val → s.th.level ≠ 2 → s.th.vp = none →
        s.frameOk s.core.sys.mcframe.toNat 0x910 = true → Completes (exec .coreOutOfService s) (fun t =>
          t.core.outOfService = true ∧ t.th.pc = s.core.sys.mcvec ∧ t.th.level = 2 ∧ t.th.imask = true ∧
          t.th.intrap = s.th.intrap ∧ t.th.s = s.th.s ∧ t.th.k = s.th.k ∧ t.th.vec = s.th.vec))) ∧
    (s.enabled n = false → exec .coreOutOfService s = .next s) ∧
    (n = s.coreId → s.canInterrupt n = true → s.teamSlots n = [s.slot.val] → s.core.sys.ipend.getLsbD 1 = false →
      s.th.intrap = false → s.th.vp = none → s.frameOk s.th.tframe.toNat 0x910 = true →
      Completes (exec .interruptTake s) (fun t => t.th.pc = s.core.sys.tvec ∧ t.th.level = 1 ∧ t.th.intrap = true ∧
        t.th.imask = true ∧ t.th.s = s.th.s ∧ t.th.k = s.th.k ∧ t.th.vec = s.th.vec ∧ t.th.wait = .none)) ∧
    (n = s.coreId → m.held = none → ∀ e es, m.queue = e :: es → e.slot = s.slot →
      (let after := { m with queue := es, started := false, gate := 0, bound := none, xlive := false, ctr := none }
       (e.mop = 1 → e.f.fx.getLsbD 0 = true →
        exec .matrixSequence s = .next { s with core := { s.core with mat := { after with
          tshape := (wr m.tshape e.f.t {
            owner := e.slot, rows := e.sv.toNat / 2 ^ 16 % 2 ^ 8, cols := e.sv.toNat / 2 ^ 8 % 2 ^ 8
            base := Fin.ofNat 64 (e.sv.toNat % 2 ^ 6) })
          mvl := BitVec.ofNat 2 (e.sv.toNat / 2 ^ 24 % 2 ^ 2) } } }) ∧
       (e.mop = 2 → e.f.fx.getLsbD 0 = true →
        exec .matrixSequence s = .next { s with core := { s.core with mat := { after with acc := 0 } } }) ∧
       (e.mop = 12 → s.th.wait = .mwait → s.th.convoy = none → exec .matrixSequence s = .next { s with
        th := { s.th with wait := .none, pc := s.th.pc + 8 }, core := { s.core with mat := after } }))) ∧
    ((s.coreAt n).mat.held.isSome = true ∨ (s.coreAt n).mat.queue = [] → exec .matrixSequence s = .next s) ∧
    (∀ r, s.fab.rows.find? (fun x => x.id == s.ev.id) = some r →
      s.fab.rows.find? (fun x => clusterOf x.src == clusterOf r.src && clusterOf x.dst == clusterOf r.dst) = some r →
        Completes (exec .mdrainxRowArrival s) (fun t =>
        ∀ x, x ∈ t.fab.rows ↔ x ∈ s.fab.rows ∧ x.id ≠ r.id)) ∧
    (s.ev.id ∈ (s.coreAt n).rpend → n = s.coreId → Completes (exec .mrpfFetchCompletion s) (fun t =>
      t.core.rpend = s.core.rpend.filter (fun i => i != s.ev.id) ∧ t.th = s.th ∧
      ∀ x, look s.core.rcache s.ev.id = some x → look t.core.rcache s.ev.id = some x))

/-- R247, R248, R255, R257, R261, R271, R283, R297, R301, R340, R402, R403, R404: what recalls, leases, write-backs, drops, banks, links and
requests from outside the module do; an atomic from outside answers the old value and leaves the value of R301 at its home; a write-back that
would have to cross a link that is down waits. These steps and their arguments are the
model's: log 2; readings: log 35, log 40, log 49, log 52. -/
def Obligations.CacheAndLinkSteps : Prop :=
  ∀ (s : State),
    let n := s.ev.core
    let tag := s.ev.pa / 128
    let bank := (s.ev.die.val * 32 + s.ev.slice.val) * 16 + s.ev.bank.val
    let link := evLink s.ev
    (∀ lin, s.place s.ev.pa = .media lin →
      ((∀ c l l', l ∈ (s.coreAt c).l1 → l' ∈ (s.coreAt c).l1 → l.excl = true → l'.excl = true →
          linLine l.tag = linLine l'.tag → l.tag = l'.tag) →
        Completes (exec .recall s) (fun t => MemOnly s t ∧ ∀ c, (t.coreAt c).exclLine (lin / 128) = none)) ∧
      (¬ lin / 128 ∈ s.fab.drops → exec .lastDrop s = .next s) ∧
      (lin / 128 ∈ s.fab.drops → Completes (exec .lastDrop s) (fun t =>
        MemOnly s { t with fab := { t.fab with drops := s.fab.drops } } ∧ t.fab.drops = s.fab.drops.erase (lin / 128) ∧
        (∀ x ∈ t.store.l2, x.addr / 4 ≠ lin / 128) ∧
        (s.Settled (lin / 128) → t = { s with
            store := { s.store with l2 := t.store.l2, drowsy := t.store.drowsy }, fab := { s.fab with drops := t.fab.drops } } ∧
          (∀ b, b ∈ t.store.drowsy ↔ b ∈ s.store.drowsy ∧ b ≠ homeBank lin) ∧
          ∀ x, x ∈ t.store.l2 ↔ x ∈ s.store.l2 ∧ x.addr / 4 ≠ lin / 128))) ∧
      (s.enabled n = true → n = s.coreId → s.ev.slot = s.slot → s.th.occ = true → s.core.ways ≠ 0 → Completes (exec .leaseRequest s) (fun t =>
        MemOnly s t ∧ ∃ l, t.core.line tag = some l ∧ (l.excl = true ∨ l.filled = true)))) ∧
    (∀ l, s.ev.flag = false → (s.coreAt n).line tag = some l → l.filled = true → l.excl = false → l.expiry < s.cycle →
      Completes (exec .leaseExpiry s) (fun t => MemOnly s t ∧ ∀ l', (t.coreAt n).line tag = some l' → l'.filled = false)) ∧
    (∀ x, s.ev.flag = true → s.store.rdcFind s.ev.die.val tag = some x → x.expiry < s.cycle →
      Completes (exec .leaseExpiry s) (fun t => t.store.rdcFind s.ev.die.val tag = none ∧
        (∀ d' t', (d' ≠ s.ev.die.val ∨ t' ≠ tag) → t.store.rdcFind d' t' = s.store.rdcFind d' t') ∧
        t = { s with store := { s.store with rdc := t.store.rdc } })) ∧
    (∀ l, (s.coreAt n).line tag = some l →
      (s.cutOff n (homeDie (128 * linLine tag)) = false → Completes (exec .dirtyWriteback s) (fun t => MemOnly s t ∧
        ∀ l', (t.coreAt n).line tag = some l' → (rd l'.sec (Fin.ofNat 4 (s.ev.pa / 32))).dmask = 0)) ∧
      (s.cutOff n (homeDie (128 * linLine tag)) = true → exec .dirtyWriteback s = .next s)) ∧
    (rd s.drowsyThresh s.ev.die ≠ 0 → Completes (exec .bankDrowsy s) (fun t => bank ∈ t.store.drowsy ∧
      (∀ b, b ≠ bank → (b ∈ t.store.drowsy ↔ b ∈ s.store.drowsy)) ∧ t = { s with store := { s.store with drowsy := t.store.drowsy } })) ∧
    (rd s.drowsyThresh s.ev.die = 0 → exec .bankDrowsy s = .next s) ∧
    Completes (exec .bankWake s) (fun t => ¬ bank ∈ t.store.drowsy ∧
      (∀ b, b ≠ bank → (b ∈ t.store.drowsy ↔ b ∈ s.store.drowsy)) ∧ t = { s with store := { s.store with drowsy := t.store.drowsy } }) ∧
    (¬ link ∈ s.fab.linksDown → Completes (exec .linkRetry s) (fun t =>
      t.linkCount link = min 3 (s.linkCount link + 1) ∧ t = { s with fab := { s.fab with linkFails := t.fab.linkFails } })) ∧
    (¬ link ∈ s.fab.linksDown → s.linkCount link < 3 → exec .linkDown s = .next s) ∧
    (let starting := s.boot.ok = false ∧ s.boot.stopped = false ∧ s.boot.mode ≠ 3
     let reports := fun (t : State) =>
       (starting → t.boot.stopped = true ∧ t.boot.reason = 6) ∧ (¬ starting → t.fab.checks = s.fab.checks ++ [5]) ∧
         t.th = s.th ∧ t.store = s.store
     ((s.threadAt n s.ev.slot.val).occ = false →
       (¬ link ∈ s.fab.linksDown → 3 ≤ s.linkCount link → Completes (exec .linkDown s) (fun t =>
         t.fab.linksDown = link :: s.fab.linksDown ∧ (link.1 = 17 → t.boot.ports.getLsbD (link.2 % 8) = false) ∧
         (link.1 ≠ 17 → t.boot.ports = s.boot.ports) ∧ reports t)) ∧
       (s.boot.ports.getLsbD s.ev.port.val = true → Completes (exec .peerPortDown s) (fun t =>
         (∀ p : Fin 8, t.boot.ports.getLsbD p.val = if p = s.ev.port then false else s.boot.ports.getLsbD p.val) ∧
         (∀ k, k ∈ t.fab.linksDown ↔ k = (17, s.ev.port.val) ∨ k ∈ s.fab.linksDown) ∧ reports t)))) ∧
    (s.boot.ports.getLsbD s.ev.port.val = false → exec .peerPortDown s = .next s) ∧
    (∀ lin, s.place s.ev.pa = .media lin →
      let ty := s.ev.ty.ety
      let n := ty.bits / 8
      let v := s.ev.v.toNat % 2 ^ ty.bits
      let expect := s.ev.expect.toNat % 2 ^ ty.bits
      let inLine := fun x => x / 128 = lin / 128
      let gen := s.sliceGenOf (homeSlice lin)
      let performs := fun (i : Instr) (sr : Bool) =>
        ((lin % n ≠ 0 ∨ s.homePoison lin = true) → exec i s = .next s) ∧
        (lin % n = 0 → s.homePoison lin = false →
          let q : AmoReq := { op := s.ev.op, ty := s.ev.ty, sr, far := true, v, expect, lane := none }
          let r := s.amoHome q lin none
          Completes (exec i s) (fun t => t = r.1) ∧
          (s.Settled (lin / 128) → ∀ old, old < 256 ^ n → (∀ k, k < n → getB old k 1 = (s.homeByte (lin + k)).toNat) →
            let new := amoValue s.ev.op ty sr (genDraw gen) old v expect
            r.2.1 = old ∧ ∃ u, MemOnly s u ∧ r.1 = u.afterAtomic lin ∧ HomeFrame s u [lin / 128] inLine ∧
              (∀ x, inLine x → (u.homeByte x).toNat = after new lin n x (s.homeByte x).toNat) ∧
              u.sliceGenOf (homeSlice lin) = (if amoDraws s.ev.op ty sr (genDraw gen) old v then genStep gen else gen) ∧
              (u.isDeps lin = false → (8 ≤ lin % 32 ∨ u.armed (lin / 32 * 32) = none) → r.1 = u)))
      (amoAccepts s.ev.op s.ev.ty = true → (s.ev.flag = true → s.ev.op = .add ∧ s.ev.ty = .bf16) →
        performs .farAtomicAtHome s.ev.flag) ∧
      (s.store.posted = [] → hostAtomicOk s.ev.op s.ev.ty = true → s.ev.pa < 2 ^ 39 → performs .hostAtomic false)) ∧
    Completes (exec .hostPostedWrite s) (fun t => MemOnly s t ∧ t.store.posted = []) ∧
    Completes (exec .peerPostedWrite s) (fun t => MemOnly s t ∧ t.store.posted = [])

/-- R135, R182, R217, R227, R253, R271, R338, R377, R405, R408–R413: what a start makes of what it finds, its status word, and what register
writes as steps, start-up, resets and power do. These steps and their arguments are the model's: log 2; what a start finds: log 5; that a
reset leaves memory and caches empty and the cores' values that no rule gives: log 4, log 1. -/
def Obligations.RegisterAndPowerSteps : Prop :=
  ∀ (s : State),
    let e := s.ev
    let writes := fun (i : Instr) (r : SysReg) =>
      (∀ u, sysWriteLevel r ≤ s.th.level.toNat → s.sysPut r e.v = some u → exec i s = .next u) ∧
      ((s.th.level.toNat < sysWriteLevel r ∨ s.sysPut r e.v = none) → exec i s = .next s)
    let resets := fun (i : Instr) (boot : Boot) => Completes (exec i s) (fun t =>
      t.boot = boot ∧ t.th = Thread.reset 0 0 ∧ t.core = .reset ∧ t.others = [] ∧ t.fab = .reset ∧ t.time = 0 ∧ t.ctxtab = 0 ∧
      t.recmap = 0 ∧ t.store.media = [] ∧ t.store.l2 = [] ∧ t.store.poison = [] ∧ t.store.host = s.store.host ∧
      t.store.peer = s.store.peer)
    let starting := s.boot.ok = false ∧ s.boot.stopped = false ∧ s.boot.mode ≠ 3
    let found := fun (f : BootFacts) => if shippedFacts f then f else { f with harvest := s.boot.facts.harvest }
    let uncounted := if s.boot.mode = 0 ∧ starting then s.boot.fails - 1 else s.boot.fails
    let word := fun (b : Boot) => b.mode.toNat + 2 ^ 8 * b.mreason + 2 ^ 16 * (if b.fails = 0 then 0 else b.reason) +
      2 ^ 24 * (if b.mode = 1 then b.live else 0) + 2 ^ 32 * b.fails
    (∀ (fails reason : Nat) (f : BootFacts),
      let b := bootStart fails reason f
      let ends := fun (d : Fin 8) => d ∈ f.dieFails ∨ d ∈ f.stackFails
      b.ok = false ∧ b.stat = word b ∧
      (f.signature = false → b.mode = 3 ∧ b.reason = 1 ∧ b.fails = fails) ∧
      (f.signature = true → fails < 3 → b.mode = 0 ∧ b.fails = fails + 1 ∧
        (f.dieFails = [] → f.stackFails = [] → f.linksTrain = true → b.stopped = false ∧ b.reason = reason ∧ b.ports = 255) ∧
        (f.dieFails ≠ [] → b.stopped = true ∧ b.reason = 2) ∧
        (f.dieFails = [] → f.stackFails ≠ [] → b.stopped = true ∧ b.reason = 3) ∧
        (f.dieFails = [] → f.stackFails = [] → f.linksTrain = false → b.stopped = true ∧ b.reason = 4)) ∧
      (f.signature = true → 3 ≤ fails → b.fails = fails ∧
        (∀ d : Fin 8, ¬ ends d → (∀ c, c < d → ends c) → b.mode = 1 ∧ b.live = d.val ∧ b.stopped = false ∧ b.ports = 0 ∧
          b.mreason = if d = 0 then 0 else if d - 1 ∈ f.dieFails then 2 else 3) ∧
        ((∀ d : Fin 8, ends d) → b.mode = 3))) ∧
    (e.core = s.coreId → e.slot = s.slot →
      (ownStep e.reg = false → writes .sysregWrite e.reg) ∧ (s.core.mat.queue = [] → writes .carveWrite .carve) ∧
      (e.reg ≠ .orcnt → writes .ortableWrite .orbase) ∧ (e.reg = .orcnt → writes .ortableWrite .orcnt) ∧
      writes .leaseWrite .lease ∧ writes .sscrWrite .sscr ∧ (e.reg ≠ .liftw → writes .liftContextWrite .fqueue) ∧
      (e.reg = .liftw → writes .liftContextWrite .liftw)) ∧
    ((s.coreAt e.core).mat.queue = [] → Completes (exec .mstateRead s) (fun t =>
      t.coreAt e.core = { s.coreAt e.core with mat := { (s.coreAt e.core).mat with fcause := 0 } } ∧ t.th = s.th ∧ t.store = s.store)) ∧
    ((s.coreAt e.core).mat.queue ≠ [] → exec .mstateRead s = .next s ∧ exec .carveWrite s = .next s) ∧
    (let v := e.v.toNat % 2 ^ 16
     (1 ≤ v → v ≤ 255 → exec .drowsyWrite s = .next s) ∧
     ((v = 0 ∨ 256 ≤ v) → exec .drowsyWrite s = .next { s with drowsyThresh := (wr s.drowsyThresh e.die v) })) ∧
    (e.v = 0x00C1EA2F → exec .bootclr s = .next { s with boot := { s.boot with fails := 0 } }) ∧
    (e.v = 0x00B0070C →
      let b := { s.boot with ok := true, fails := (if s.boot.mode = 0 then 0 else s.boot.fails) }
      let early := starting ∧ s.time < 80000000000
      (early → exec .bootok s = .next { s with boot := { b with stat := word b } }) ∧ (¬ early → exec .bootok s = .next s)) ∧
    resets .moduleReset (bootStart s.boot.fails s.boot.reason (found e.facts)) ∧
    (starting → 80000000000 ≤ s.time → resets .startWatchdog (bootStart s.boot.fails 5 (found e.facts))) ∧
    (¬ (starting ∧ 80000000000 ≤ s.time) → exec .startWatchdog s = .next s) ∧
    resets .d3hot (bootStart uncounted s.boot.reason s.boot.facts) ∧
    (s.enabled e.core = true → (s.threadAt e.core e.slot.val).occ = true → (s.threadAt e.core e.slot.val).level = 2 →
      resets .level2McheckReset (bootStart uncounted s.boot.reason s.boot.facts)) ∧
    (let b := { s.boot with stopped := true, reason := 7 }
     (starting → exec .inputPowerFault s = .next { s with boot := { b with stat := word b } }) ∧
     (¬ starting → exec .inputPowerFault s = .next s))

/-- R27, R307, R310, R311, R323–R334, R338, R339, R347–R350, R383, R399: what the routers, the homes of queues, the Lift and the
engines do: the state in which a placed task stands and starts, the bytes that copies and gathers move, and what a collective
leaves in RECV; of the messages that come to one router, or to one object at home, each takes its step after those that come
before it; one whose window is gone is answered NOMEM (R404). These steps and their arguments are the model's: log 2; readings:
log 31, log 38, log 39. -/
def Obligations.QueueLiftAndEngineSteps : Prop :=
  ∀ (s : State),
    let id := s.ev.id
    (∀ m, s.msgById id = some m → m.at_ / nclk ≤ s.time / nclk →
      let first := m.place = .moving ∧ (∀ x ∈ s.fab.msgs, s.meetAt m x = true → before x.turn m.turn = false) ∧
        (m.path = [] → before s.pushTurn m.turn = true → ∀ k ∈ s.fab.tasks, ∀ pa, s.pushDue k = some pa → s.place pa ≠ s.place m.hdr)
      (¬ first → exec .queueRouterEntry s = .next s ∧ exec .queueOpAtHome s = .next s) ∧
      (∀ r rest, first → m.path = r :: rest → Completes (exec .queueRouterEntry s) (fun t =>
        (∃ q ∈ t.fab.msgs, q.id = id ∧ q.router = r ∧ q.path = rest ∧ q.hdr = m.hdr) ∧ t.th = s.th ∧ t.store = s.store)) ∧
      (first → m.path = [] → Completes (exec .queueOpAtHome s) (fun t =>
        t.msgById id = none ∧ (∀ i, (s.threadAt m.core m.slot).wait = .queue id i → m.slot < 4 →
          (s.place m.hdr = .none → (t.threadAt m.core m.slot).qans = some (.nomem m.hdr)) ∧
          (s.place m.hdr ≠ .none →
            (t.threadAt m.core m.slot).qans = some ((s.qOpen m.hdr).qAt m.op m.e16 m.lo m.hi m.hdr).2)))) ∧
      (m.place = .notice → Completes (exec .pairNotice s) (fun t =>
        t.msgById id = some { m with place := .ack, at_ := m.at_ + nclk } ∧ t.th = s.th)) ∧
      (∀ h g, m.place = .ack → (s.dropMsg id).msgById m.mate = some h → (s.dropMsg id).msgById h.mate = some g →
        Completes (exec .pairAck s) (fun t => t.msgById id = none ∧ t.msgById h.id = none ∧ t.msgById g.id = none ∧
          t.store = s.store ∧
          let push := if h.op = .push then h else g
          let pop := if h.op = .push then g else h
          (∀ i, (s.threadAt pop.core pop.slot).wait = .queue pop.id i → pop.slot < 4 →
            (t.threadAt pop.core pop.slot).qans = some (.entry push.lo push.hi))))) ∧
    (∀ m u, s.msgById id = some m → m.place = .held u → u / nclk ≤ s.time / nclk → Completes (exec .crossoverHoldExpiry s) (fun t =>
      (∀ q ∈ t.fab.msgs, q.id = id → ∀ w, q.place ≠ .held w) ∧ t.th = s.th ∧ t.store = s.store)) ∧
    Completes (exec .liftAging s) (fun t => t = { s with fab := { s.fab with tasks := t.fab.tasks } } ∧
      t.fab.tasks = s.fab.tasks.map (fun k => if k.phase = .ready then { k with aged := (s.time - k.since) / (64 * usec) } else k)) ∧
    Completes (exec .segmentReport s) (fun t => t = { s with fab := { s.fab with tasks := t.fab.tasks, reported := s.time } } ∧
      ∀ (i : Nat) (k : LTask), s.fab.tasks[i]? = some k → ∃ q : LTask, t.fab.tasks[i]? = some q ∧
        q = { k with seg := q.seg } ∧ (k.phase ≠ .ready → q = k) ∧
        (k.phase = .ready → (s.bestCore k k.seg).isSome = true → q = k)) ∧
    (∀ k n c w e, s.ageTasks.pickTask s.ev.die.val = some (k, n, c, w) → k.image = none → k.ins = [] →
      (∀ q ∈ s.ageTasks.segTasks s.ev.die.val, (s.ageTasks.ctxUsable q.ctx).isSome = true ∧ s.ageTasks.placeable q = true) →
      s.ageTasks.ctxUsable k.ctx = some e → k.team ≤ 4 → Completes (exec .placeTask s) (fun t =>
        (∃ q, t.taskById k.id = some q ∧ q.phase = .staging ∧ q.core = n) ∧ (t.coreAt n).task = some k.id ∧
        (t.coreAt n).team = k.team ∧ (t.coreAt n).sys.carve.toNat = k.carve.toNat % 2 ^ 32 ∧ (t.coreAt n).spad = [] ∧
        (let r := (t.coreAt n).sys
         r.ctxid.toNat = k.ctx % 2 ^ 16 ∧ r.ptroot.toNat = e.ptroot.toNat / 2 ^ 20 * 2 ^ 20 % 2 ^ 52 ∧ r.lease.toNat = e.lease.toNat % 2 ^ 13 ∧
           r.orbase.toNat = e.orbase.toNat / 64 * 64 % 2 ^ 56 ∧ r.orcnt.toNat = e.orcnt.toNat % 2 ^ 13 ∧
           r.tvec.toNat = e.tvec.toNat / 4 * 4 % 2 ^ 56 ∧ r.ttimer = 0) ∧
        (t.coreAt n).mat = .reset ∧
        (∀ i : Fin 2, let w := rd (t.coreAt n).watch i
          w.rd = false ∧ w.wr = false ∧ w.addr = 0) ∧
        ∀ j, j < k.team → let q := t.threadAt n j
          q.pc = k.entry ∧ q.occ = false ∧
          (∀ r : Reg, rd q.s r = if r = 1 then k.arg else if r = 2 then BitVec.ofNat 64 j else if r = 3 then BitVec.ofNat 64 k.team
            else if r = 4 then BitVec.ofNat 64 k.idx.1 else if r = 5 then BitVec.ofNat 64 k.idx.2.1
            else if r = 6 then BitVec.ofNat 64 k.idx.2.2 else 0) ∧
          (∀ r : KReg, r ≠ 0 → rd q.k r = 0) ∧ (∀ r : PReg, rd q.p r = 0 ∧ rd q.psz r = 0) ∧
          (∀ r : VReg, (rd q.vec.v r).data = 0 ∧ (rd q.vec.v r).tag = false) ∧ (∀ r : Fin 8, rd q.vec.m r = 0) ∧ q.vec.rm = .rne ∧
          q.vec.fx = 0 ∧ q.vec.vlen = vlenOf (k.carve.toNat % 2 ^ 6) k.team k.absorb ∧ q.level = 0 ∧ q.intrap = false ∧ q.imask = false ∧
          q.tframe.toNat = (e.tfbase + (4 * n + j) * e.fstride * 4096) / 4096 * 4096 % 2 ^ 52 ∧ q.unfinished = [] ∧ q.convoy = none)) ∧
    (∀ k, s.taskById id = some k →
      (k.phase = .staging → k.image = none → Completes (exec .taskStart s) (fun t =>
        (∃ q, t.taskById id = some q ∧ q.phase = .running) ∧ (t.coreAt k.core).sys.ipend &&& 3 = 0 ∧
        ∀ j, j < 4 →
          let q := t.threadAt k.core j
          (j < k.team → q = { s.threadAt k.core j with occ := true, acqL1 := q.acqL1, acqRdc := q.acqRdc }) ∧
          (k.team ≤ j → q = s.threadAt k.core j))) ∧
      (∀ o, k.phase = .ending o → s.teamDone k.core = true → Completes (exec .taskReclaim s) (fun t =>
        (t.coreAt k.core).task = none ∧ (t.coreAt k.core).mat = .reset ∧ ∀ j, j < 4 → (t.threadAt k.core j).occ = false)) ∧
      (k.phase = .outputs → k.outs = [] → k.succs = some [] → Completes (exec .taskReclaim s) (fun t => t.taskById id = none)) ∧
      (k.phase = .faulted → s.pushMayRun k = false → exec .faultQueuePush s = .next s) ∧
      (∀ s1, k.phase = .faulted → k.tried ≤ s.time → s.pushMayRun k = true → s.faultQueueAt k.ctx = (s1, none) →
        MemOnly s s1 ∧ Completes (exec .faultQueuePush s) (fun t =>
          t.taskById id = some { k with tried := s.time + usec } ∧ t.store = s1.store)) ∧
      (∀ s1 pa u, k.phase = .faulted → k.tried ≤ s.time → s.pushMayRun k = true → s.faultQueueAt k.ctx = (s1, some pa) →
        s1.homePush pa (wd k.rec_) (wd (k.cause + k.leaving * 2 ^ 8 + k.extra)) = (u, true) →
        MemOnly s s1 ∧ Completes (exec .faultQueuePush s) (fun t => t.taskById id = none)) ∧
      (∀ va, k.phase = .staging → k.image = some va → Completes (exec .resumeReleased s) (fun t => t = s.resumeTask k va))) ∧
    (∀ k i, (s.coreAt s.ev.core).task = some i → s.taskById i = some k → k.phase = .running →
      (∃ j, j < 4 ∧ (s.threadAt s.ev.core j).occ = true ∧ (s.threadAt s.ev.core j).intrap = true) →
      Completes (exec .taskEndedAfterTrap s) (fun t =>
        t.taskById i = some { k with phase := .ending false, cause := 3 } ∧
        ∀ j, j < 4 → (s.threadAt s.ev.core j).occ = true → (t.threadAt s.ev.core j).ending = true)) ∧
    (∀ g, s.fab.groups.find? (fun g => g.id == id) = some g →
      (g.plane * g.n2 ≤ g.at_ → Completes (exec .groupIssue s) (fun t => ∀ h, h ∈ t.fab.groups ↔ h ∈ s.fab.groups ∧ h.id ≠ g.id)) ∧
      (g.at_ < g.plane * g.n2 → g.point (g.at_ % g.plane) = none → Completes (exec .groupIssue s) (fun t =>
        t = { s with fab := { s.fab with groups := t.fab.groups } } ∧ { g with at_ := g.at_ + 1 } ∈ t.fab.groups)) ∧
      (∀ x y, g.at_ < g.plane * g.n2 → g.inst = 0 → g.point (g.at_ % g.plane) = some (x, y) → Completes (exec .groupIssue s) (fun t =>
        { g with at_ := g.at_ + 1, issued := g.issued + 1 } ∈ t.fab.groups ∧
        ∃ k ∈ t.fab.tasks, k.idx = (x, y, g.at_ / g.plane) ∧ k.entry = g.tmpl.entry ∧ k.arg = g.tmpl.arg ∧ k.rec_ = g.rec_))) ∧
    (∀ c, s.cmdById id = some c →
      (c.kind ≠ .coll → (s.engineTurn c).2 = false → Completes (exec .engineDecrement s) (fun t =>
        (c.total ≤ c.sent + 65536 → t.cmdById id = none) ∧
        (c.sent + 65536 < c.total → ∃ q, t.cmdById id = some q ∧ q.sent = c.sent + 65536 ∧ q.counted = c.sent + 65536) ∧
        (let n := min 65536 (c.total - c.sent)
         ∃ u v, State.deliver c n s c.sent n = (u, n) ∧
          (u.engineRelease c c.sent n).decrement ((linOf c.counter).getD 0) (c.sent + n - c.counted) = (v, true) ∧
          t = { v with fab := { v.fab with cmds := t.fab.cmds } }))) ∧
      -- the next bytes of a copy or gather, within one row, one sector of the source and one of the destination
      (∀ (v v0 : State) (f p n src dst row : Nat),
        let x := c.blk
        let rb := getB x 0x14 4
        let sz := getB x 0x1C 4
        0 < n →
        (c.kind = .cpy ∧ v0 = v ∧ row = rb - p % rb ∧ src = (getB x 0 8 + p / rb * getB x 0x18 4 + p % rb) % 2 ^ 64 ∧
            dst = (getB x 8 8 + p / rb * getB x 0x1C 4 + p % rb) % 2 ^ 64 ∨
          c.kind = .gath ∧ row = sz - p % sz ∧ dst = (getB x 0x10 8 + p) % 2 ^ 64 ∧
            ∃ i, State.engineBytes c 0 2 v (getB x 8 8 + 8 * (p / sz)) 8 = (v0, some (i, [])) ∧ src = (getB x 0 8 + i + p % sz) % 2 ^ 64) →
        let m := min (min n row) (min (32 - src % 32) (32 - dst % 32))
        (∀ v1, v0.engineRead c src m = (v1, none) → State.deliver c (f + 1) v p n = (v1, 0)) ∧
        (∀ v1 b bad, v0.engineRead c src m = (v1, some (b, bad)) →
          let carried := bad || v1.acrossLink c src || v1.acrossLink c dst
          (∀ v2, v1.engineWrite c dst m b carried = (v2, false) → State.deliver c (f + 1) v p n = (v2, 0)) ∧
          (∀ v2, v1.engineWrite c dst m b carried = (v2, true) → State.deliver c (f + 1) v p n =
            ((State.deliver c f v2 (p + m) (n - m)).1, m + (State.deliver c f v2 (p + m) (n - m)).2)))) ∧
      -- what an engine reads and writes
      (∀ (v : State) (va m : Nat), let base := 0x00FFFF0000000000
        let rights : Rights := { ctx := c.ctx, root := c.root, level := c.level.toNat }
        let k := v.coreAt c.core
        (base ≤ va ∧ va < base + 2 ^ 20 →
          (∀ r, v.engineRead c va m = r → r = (v, if k.spadSize < va - base + m then none else some (k.spad.readN (va - base) m, false))) ∧
          (∀ b, va - base + m ≤ k.spadSize →
            v.engineWrite c va m b false = (v.setCore c.core { k with spad := k.spad.writeN (va - base) m b }, true)) ∧
          (∀ b bad, (bad = true ∨ k.spadSize < va - base + m) → v.engineWrite c va m b bad = (v, false))) ∧
        (¬ (base ≤ va ∧ va < base + 2 ^ 20) → va < 2 ^ 56 →
          let u := v.walked (v.walk va rights).2
          (∀ n f, v.xlateOf va .read rights = .bad n f → v.engineRead c va m = (u, none)) ∧
          (∀ n f b bad, v.xlateOf va .write rights = .bad n f → v.engineWrite c va m b bad = (u, false)) ∧
          (∀ pa rc lin, u.place pa = .media lin → va % 32 + m ≤ 32 → 0 < m → u.Settled (lin / 128) →
            (u.engineCut c.die lin = true →
              (v.xlateOf va .read rights = .ok pa rc → v.engineRead c va m = (u, none)) ∧
              ∀ b bad, v.xlateOf va .write rights = .ok pa rc → v.engineWrite c va m b bad = (u, false)) ∧
            (u.engineCut c.die lin = false →
              (v.xlateOf va .read rights = .ok pa rc → ∃ v1 b, v.engineRead c va m = (v1, some (b, u.homePoison lin)) ∧ MemOnly v v1 ∧
                ∀ i, i < m → getB b i 1 = (u.homeByte (lin + i)).toNat) ∧
              ∀ b bad, v.xlateOf va .write rights = .ok pa rc → ∃ v1, v.engineWrite c va m b bad = (v1, true) ∧ MemOnly v v1 ∧
                HomeFrame u v1 [lin / 128] (fun y => lin ≤ y ∧ y < lin + m) ∧ (bad = true → v1.homePoison lin = true) ∧
                ∀ i, i < m → (v1.homeByte (lin + i)).toNat = getB b i 1)))) ∧
      ((s.ev.why = .link ∨ s.ev.why = .refused ∨ s.ev.why = .mismatch) →
        Completes (exec .transferStop s) (fun t => t.cmdById id = none)) ∧
      (c.kind = .coll → s.ev.parts.length = collSize c.blk → Completes (exec .collectiveComplete s) (fun t => t.cmdById id = none)) ∧
      (let x := c.blk
       let kind := getB x 0x20 1
       let size := getB x 0x24 1
       let rank := getB x 0x23 1
       let total := getB x 0x10 8
       let recv := getB x 8 8
       let part := total / size
       let arrives := if kind = 1 then part else total
       ∀ ty, ETy.ofCode (getB x 0x21 1) = some ty → ty ∈ [.f32, .bf16, .i32, .n32] → kind ≤ 3 → 2 ≤ size → size ≤ 64 → rank < size →
        total % (size * 128) = 0 →
        -- what arrives in RECV
        (∀ parts : List Blob, parts.length = size →
          let y := collResult x parts
          let w := ty.bits
          let plus := fun a b => if ty.isInt then (a + b) % 2 ^ w
            else (roundExact (fmtOf ty) .rne false 0 (Val.add false ((fmtOf ty).decode a) ((fmtOf ty).decode b))).code
          let sum := fun i => (parts.tail.map (fun b => getBits b (i * w) w)).foldl plus (getBits (parts.headD 0) (i * w) w)
          (kind = 0 → ∀ i, i < total * 8 / w → getBits y (i * w) w = sum i % 2 ^ w) ∧
          (kind = 1 → ∀ i, i < part * 8 / w → getBits y (i * w) w = sum (rank * part * 8 / w + i) % 2 ^ w) ∧
          (kind = 2 → ∀ (i : Nat) (b : Blob), parts[i]? = some b → getB y (i * part) part = b % 256 ^ part) ∧
          (kind = 3 → y = parts.headD 0)) ∧
        -- where it goes
        (∀ (v : State) (bad : Nat → Bool) (f va n b : Nat), 0 < n →
          let m := min n (32 - va % 32)
          let spoilt := (List.range m).any (fun i => bad (va - recv + i))
          (∀ v1, v.engineWrite c (va % 2 ^ 64) m (b % 256 ^ m) spoilt = (v1, false) → State.engineStore c bad (f + 1) v va n b = (v1, 0)) ∧
          (∀ v1, v.engineWrite c (va % 2 ^ 64) m (b % 256 ^ m) spoilt = (v1, true) →
            let r := State.engineStore c bad f v1 (va + m) (n - m) (b / 256 ^ m)
            State.engineStore c bad (f + 1) v va n b = (r.1, m + r.2))) ∧
        (c.kind = .coll → s.ev.parts.length = size → (∀ j : Fin 8, bit (getB x 0x22 1) j.val = true → s.boot.ports.getLsbD j.val = true) →
          let sends := if kind = 2 then part else total
          (∀ v, State.engineBytes c (getB x 0 8) (sends / 32 + 2) s.drainPosted (getB x 0 8) sends = (v, none) →
            exec .collectiveComplete s = .next (v.stopCmd c)) ∧
          (∀ v own, State.engineBytes c (getB x 0 8) (sends / 32 + 2) s.drainPosted (getB x 0 8) sends = (v, some (own, [])) →
            s.ev.flag = false → (v.coreAt c.core).spad.wf = true → 0x00FFFF0000000000 ≤ recv →
            recv - 0x00FFFF0000000000 + arrives ≤ (v.coreAt c.core).spadSize →
            recv - 0x00FFFF0000000000 + arrives ≤ 2 ^ 20 → Completes (exec .collectiveComplete s) (fun t =>
              (t.coreAt c.core).spad.readN (recv - 0x00FFFF0000000000) arrives =
                collResult x ((s.ev.parts.map ofBytes).set rank own) % 256 ^ arrives)))))

/-! ## The machine -/

/-- R30, R43, R63: a core serves next the first slot after the last one served whose thread is neither waiting nor stalled; a
thread that pauses takes no turn within its 16 cycles. When the thread in focus has the turn and nothing else under way, a step
executes the instruction at its PC, in the state after the fetch; in a scratchpad, on the bytes that stand there. A fetch that
fails raises its trap. Before it the drops of last-use loads that are on their way reach their homes (R261), and after it the
model's record of what may still be under way follows (R372, log 46). Which core has the turn is the model's schedule: log 2; a
step is one turn: log 6. -/
def Obligations.StepRunsDecoded : Prop :=
  (∀ (s : State) (n : Nat),
    s.enabled n = true →
      let slot := fun d => ((s.coreAt n).lastSlot + d) % 4
      let takes := fun j => s.slotReady n j = true ∧ (s.focusTurn n j).stalls = false
      (∀ d, 1 ≤ d → d ≤ 4 → takes (slot d) → (∀ c, 1 ≤ c → c < d → ¬ takes (slot c)) → s.nextSlot n = some (slot d)) ∧
      ((∀ d, 1 ≤ d → d ≤ 4 → ¬ takes (slot d)) → s.nextSlot n = none) ∧
      (∀ j, (s.threadAt n j).ending = false →
        (s.calledUp n j = false → ((s.threadAt n j).wait = .tbar ∨ (s.threadAt n j).wait = .mwait) → s.slotReady n j = false) ∧
        (∀ u, (s.threadAt n j).wait = .pause u → s.cycle ≤ u → s.slotReady n j = false))) ∧
  ∀ (s : State) (ts : List Turn),
    s.schedule = .run s.coreId s.slot.val :: ts → s.boot.mode ≠ 3 → s.boot.stopped = false → s.enabled s.coreId = true →
    s.th.occ = true → s.th.ending = false → s.th.wait = .none → s.th.spin = 0 → s.owesMfault = none → s.th.issue = none →
    s.th.replay = [] → s.th.rtn = none → s.th.convoy = none → s.th.vp = none → s.fab.checks = [] → s.core.issued ≠ s.cycle + 1 →
    let v := ({ s with seq := s.seq + 1, schedule := ts } : State).settleDrops
    v.nextSlot s.coreId = some s.slot.val →
      let u : State := { v with
        core := { v.core with lastSlot := s.slot.val, issued := s.cycle + 1 }
        th := { s.th with rwatch := (if s.th.rwatch = some s.th.pc then s.th.rwatch else none) } }
      let runs := fun (i : Instr) (s1 : State) =>
        (∀ t, exec i s1 = .next t → ∃ (late : List Late) (others : Thread → List Late), step s = .next { t with
          th := { t.th with recent := late }
          core := { t.core with parked := t.core.parked.map (fun p => (p.1, { p.2 with recent := others p.2 })) } }) ∧
        (∀ f, exec i s1 = .fault f → step s = .fault f) ∧ (∀ r, exec i s1 = .refused r → step s = .refused r)
      (s.fab.drops = [] → v = { s with seq := s.seq + 1, schedule := ts }) ∧
      (∀ s1 i n, u.fetchAt s.th.pc.toNat = (s1, .ok (i, n)) → (writesMemory i = true → u.matReads = false) → runs i s1) ∧
      (∀ s1 t, u.fetchAt s.th.pc.toNat = (s1, .error t) → step s = .next (s1.fault t)) ∧
      (let off := s.th.pc.toNat - 0x00FFFF0000000000
       let n := instrLen (s.core.spad.readN off 4)
       let i := decodeInstr (s.core.spad.readN off n)
       0x00FFFF0000000000 ≤ s.th.pc.toNat → off + n ≤ s.core.spadSize → off + n ≤ 2 ^ 20 →
        (writesMemory i = true → u.matReads = false) → runs i u)

/-- R46–R60: words that the spec gives decode to the instructions that they stand for. -/
def Obligations.DecodesSpecWords : Prop :=
  decodeInstr 0x00730280 = .add 5 6 7 ∧ decodeInstr 0x00044292 = .lui 5 0x44 ∧ decodeInstr 0x0000007D = .nop 0 0 0 ∧
  decodeInstr 0x000302A8 = .carve 5 6 ∧ decodeInstr 0x00002028 = .tbar ∧
  decodeInstr 0x042282AC = .vstrip 2 5 5 2 ∧
  decodeInstr 0xF8931290 = .fcvt .e4m3 .f32 true .rne 5 6 ∧ decodeInstr 0xD8931390 = .fcvt .e4m3 .f32 false .rne 7 6 ∧
  decodeInstr 0x0030002098B00047 = .mmul {
    kd := 0, kc := 0, kr := 3, c := 0, b := 0, a := 8, t := 1, s := 6, ty := .bf16, rm := .dyn, sat := false, ca := false, fx := 0 } ∧
  decodeInstr 0x6001442118B00107 = .mmulx {
    kd := 6, kc := 0, kr := 0, c := 5, b := 4, a := 8, t := 2, s := 6, ty := .bf16, rm := .dyn, sat := false, ca := false, fx := 0 } ∧
  decodeSlot 1 0x1012C18201202203 = some (.vfma {
    c := .v 4 false, b := .s 9, a := .v 1 true, d := 4, msk := none, ty := .f32, rm := .dyn, sat := false, ord := false, ux := false })

/-- R27, R131, R182, R227, R271, R368, R408, R413: what the spec says the machine holds after reset; every memory is in canonical form.
Values that no rule gives (caches, TLB, cores and memories empty, the start in progress) are the model's choice: log 1, log 4, log 5. -/
def Obligations.ResetState : Prop :=
  let s := State.reset
  s.th.vec.rm = .rne ∧ s.th.vec.fx = 0 ∧ s.th.level = 0 ∧ s.th.intrap = false ∧ s.th.imask = false ∧ s.th.laneBusy = 0 ∧
  s.time = 0 ∧ s.core.mat.mode = .v ∧ s.core.mat.mvl = 2 ∧ s.core.mat.queue = [] ∧ s.core.mat.wlive = false ∧
  s.core.mat.alive = false ∧ s.core.mat.chain = 0 ∧ (∀ i : Fin 8, rd s.core.mat.recv i = none ∧ (rd s.core.mat.tshape i).rows = 0) ∧
  s.core.sys.lease = 1024 ∧ s.core.sys.ttimer = 0 ∧ s.core.sys.ipend = 0 ∧ s.core.sys.mcvec = 0 ∧ s.core.sys.mcframe = 0 ∧
  s.core.sys.regerr = 0 ∧ s.core.task = none ∧ s.core.l1 = [] ∧ s.core.tlb = [] ∧ s.fab.tasks = [] ∧ s.ctxtab = 0 ∧ s.recmap = 0 ∧
  (∀ d : Fin 8, rd s.drowsyThresh d = 4096) ∧ s.boot.ok = false ∧ (∀ n, s.coreAt n = .reset) ∧ s.MemInv

/-- R46–R60, R355–R359: decoding the words of a well-formed instruction gives it back with every operand: a parcel, a long form, a slot of
a convoy under its unit, a convoy of legal slots, a micro-operation. -/
def Obligations.DecodeEncode : Prop :=
  (∀ (i : Instr) (w : Nat), i.wf = true → (∀ us ws, i ≠ .convoyIssue us ws) → encode i = some w →
    decodeInstr w = i ∨ (∃ u : Fin 6, decodeSlot u.val w = some i)) ∧
  (∀ (us : List (Fin 7)) (ws : List (BitVec 64)) (w : Nat), (Instr.convoyIssue us ws).wf = true →
    encode (.convoyIssue us ws) = some w → (∀ p ∈ us.zip ws, (decodeSlot p.1.val p.2.toNat).isSome = true) →
    decodeInstr w = .convoyIssue us ws) ∧
  (∀ (i : Instr) (f : UF) (w : Nat), i.ufWf f = true → encodeMicro i f = some w → decodeMicro w = some (i, f))

/-- Every step keeps every memory of the machine in canonical form: addresses rising, no byte that an unlisted address reads as (log 4); no
two lines of an L1 share a tag; and no link is left about to go down within a turn. -/
def Obligations.MemoriesStayCanonical : Prop :=
  ∀ (s t : State), s.MemInv → step s = .next t → t.MemInv
end

