-- ==== Sys2Proof/Laws/Bits.lean ====
section
/-! SUPPORT. Laws of registers in vectors, association lists, byte strings, bit fields and the byte memories. -/

namespace Sys2Proof.Machine

/-! ## Registers in vectors -/

@[simp] theorem rd_wr_same (v : Vector α n) (i : Fin n) (x : α) : rd (wr v i x) i = x := by
  simp [rd, wr]

@[simp] theorem rd_wr_ne (v : Vector α n) (i j : Fin n) (x : α) (h : j ≠ i) : rd (wr v i x) j = rd v j := by
  have : i.val ≠ j.val := fun e => h (Fin.ext e.symm)
  simp [rd, wr, this]

/-! ## Association lists -/

@[simp] theorem look_assoc_same (l : List (Nat × α)) (k : Nat) (x : α) : look (assoc l k x) k = some x := by
  induction l with
  | nil => simp [assoc, look]
  | cons p r ih =>
    obtain ⟨j, y⟩ := p
    simp only [assoc]
    split
    · simp [look]
    · split
      · simp [look]
      · rename_i h1 h2
        have h3 : ¬ j = k := fun e => h2 e.symm
        simpa [look, List.find?_cons, h3] using ih

theorem look_assoc_ne (l : List (Nat × α)) (k j : Nat) (x : α) (h : j ≠ k) : look (assoc l k x) j = look l j := by
  induction l with
  | nil => simp [assoc, look, h.symm]
  | cons p r ih =>
    obtain ⟨i, y⟩ := p
    simp only [assoc]
    split
    · simp [look, List.find?_cons, h.symm]
    · split
      · rename_i h1 h2
        subst h2
        simp [look, h.symm]
      · by_cases e : i = j
        · simp [look, e]
        · simpa [look, List.find?_cons, e] using ih

/-- Every value that an updated list holds is the new one or was there before. -/
theorem mem_assoc (l : List (Nat × α)) (k : Nat) (x : α) (p : Nat × α) (h : p ∈ assoc l k x) : p = (k, x) ∨ p ∈ l := by
  induction l with
  | nil => simpa [assoc] using h
  | cons q r ih =>
    obtain ⟨j, y⟩ := q
    simp only [assoc] at h
    split at h
    · simpa using h
    · split at h
      · rcases List.mem_cons.1 h with h | h
        · exact .inl h
        · exact .inr (List.mem_cons_of_mem _ h)
      · rcases List.mem_cons.1 h with h | h
        · exact .inr (by simp [h])
        · rcases ih h with h | h
          · exact .inl h
          · exact .inr (List.mem_cons_of_mem _ h)

/-- What a list answers for a key, it holds. -/
theorem mem_of_look [BEq κ] [LawfulBEq κ] (l : List (κ × α)) (k : κ) (x : α) (h : look l k = some x) : (k, x) ∈ l := by
  simp only [look, Option.map_eq_some_iff] at h
  obtain ⟨p, hp, rfl⟩ := h
  have h1 := List.mem_of_find?_eq_some hp
  have h2 := List.find?_some hp
  simp only [beq_iff_eq] at h2
  exact h2 ▸ h1

/-! ## Byte memories (log 4) -/

/-- Every entry of a canonical memory but its first lies above the first. -/
theorem Mem.wf_head (a : Nat) (b : Byte) (r : Mem) (h : Mem.wf ((a, b) :: r) = true) :
    b ≠ 0 ∧ Mem.wf r = true ∧ ∀ c ∈ r, a < c.1 := by
  induction r generalizing a b with
  | nil => simpa [Mem.wf] using h
  | cons p r ih =>
    obtain ⟨a', b'⟩ := p
    simp only [Mem.wf, Bool.and_eq_true, bne_iff_ne, decide_eq_true_eq] at h
    refine ⟨h.1.1, h.2, fun c hc => ?_⟩
    rcases List.mem_cons.1 hc with rfl | hc
    · exact h.1.2
    · exact Nat.lt_trans h.1.2 ((ih a' b' h.2).2.2 c hc)

theorem Mem.wf_cons (a : Nat) (b : Byte) (r : Mem) (hb : b ≠ 0) (hr : Mem.wf r = true) (h : ∀ c ∈ r, a < c.1) :
    Mem.wf ((a, b) :: r) = true := by
  cases r with
  | nil => simpa [Mem.wf] using hb
  | cons p r =>
    obtain ⟨a', b'⟩ := p
    simp only [Mem.wf, Bool.and_eq_true, bne_iff_ne, decide_eq_true_eq]
    exact ⟨⟨hb, h _ (List.mem_cons_self ..)⟩, hr⟩

@[simp] theorem Mem.wf_nil : Mem.wf [] = true := rfl

/-- A canonical memory cut by a test on its entries is canonical. -/
theorem Mem.wf_filter (m : Mem) (p : Host.Cell → Bool) (h : Mem.wf m = true) : Mem.wf (m.filter p) = true := by
  induction m with
  | nil => rfl
  | cons c r ih =>
    obtain ⟨a, b⟩ := c
    obtain ⟨hb, hr, hlt⟩ := Mem.wf_head a b r h
    by_cases hp : p (a, b) = true
    · rw [List.filter_cons_of_pos hp]
      exact Mem.wf_cons a b _ hb (ih hr) (fun c hc => hlt c (List.mem_of_mem_filter hc))
    · rw [List.filter_cons_of_neg hp]
      exact ih hr

/-- Every entry of a written memory is the written one or was there before. -/
theorem Mem.mem_write (m : Mem) (a : Nat) (b : Byte) (c : Host.Cell) (h : c ∈ Mem.write m a b) : c = (a, b) ∨ c ∈ m := by
  induction m with
  | nil =>
    simp only [Mem.write] at h
    split at h <;> simp_all
  | cons p r ih =>
    obtain ⟨j, d⟩ := p
    simp only [Mem.write] at h
    split at h
    · split at h <;> simp_all
    · split at h
      · split at h
        · exact .inr (List.mem_cons_of_mem _ h)
        · rcases List.mem_cons.1 h with h | h
          · exact .inl h
          · exact .inr (List.mem_cons_of_mem _ h)
      · rcases List.mem_cons.1 h with h | h
        · exact .inr (by simp [h])
        · rcases ih h with h | h
          · exact .inl h
          · exact .inr (List.mem_cons_of_mem _ h)

/-- A write keeps the canonical form. -/
theorem Mem.wf_write (m : Mem) (a : Nat) (b : Byte) (h : Mem.wf m = true) : Mem.wf (Mem.write m a b) = true := by
  induction m with
  | nil =>
    simp only [Mem.write]
    split
    · rfl
    · rename_i hb; simpa [Mem.wf] using hb
  | cons p r ih =>
    obtain ⟨j, c⟩ := p
    obtain ⟨hc, hr, hlt⟩ := Mem.wf_head j c r h
    simp only [Mem.write]
    split
    · rename_i hj
      split
      · exact h
      · rename_i hb
        exact Mem.wf_cons a b _ hb h (fun d hd => by
          rcases List.mem_cons.1 hd with rfl | hd
          · exact hj
          · exact Nat.lt_trans hj (hlt d hd))
    · split
      · rename_i e
        subst e
        split
        · exact hr
        · rename_i hb; exact Mem.wf_cons a b _ hb hr hlt
      · rename_i h1 h2
        refine Mem.wf_cons j c _ hc (ih hr) (fun d hd => ?_)
        rcases Mem.mem_write r a b d hd with rfl | hd
        · exact Nat.lt_of_le_of_ne (Nat.le_of_not_lt h1) (fun e => h2 e.symm)
        · exact hlt d hd

theorem Mem.wf_writeN (m : Mem) (a n v : Nat) (h : Mem.wf m = true) : Mem.wf (Mem.writeN m a n v) = true := by
  induction n generalizing m a v with
  | zero => exact h
  | succ n ih => exact ih _ _ _ (Mem.wf_write m a _ h)

theorem Mem.wf_clear (m : Mem) (a n : Nat) (h : Mem.wf m = true) : Mem.wf (Mem.clear m a n) = true := Mem.wf_filter m _ h

/-- Below its first entry a memory reads zero. -/
theorem Mem.read_below (m : Mem) (a : Nat) (h : ∀ c ∈ m, a < c.1) : Mem.read m a = 0 := by
  cases m with
  | nil => rfl
  | cons p r => simp [Mem.read, h p (List.mem_cons_self ..)]

/-- A byte reads as last written, and a write leaves every other byte. -/
theorem Mem.read_write (m : Mem) (a j : Nat) (b : Byte) (h : Mem.wf m = true) :
    Mem.read (Mem.write m a b) j = if j = a then b else Mem.read m j := by
  induction m with
  | nil =>
    by_cases hb : b = 0
    · simp [Mem.write, Mem.read, hb]
    · simp only [Mem.write, hb, if_false, Mem.read]
      split
      · rename_i hj; simp [Nat.ne_of_lt hj]
      · rfl
  | cons p r ih =>
    obtain ⟨i, c⟩ := p
    obtain ⟨hc, hr, hlt⟩ := Mem.wf_head i c r h
    simp only [Mem.write]
    by_cases h1 : a < i
    · by_cases hb : b = 0
      · simp only [h1, hb, if_true, Mem.read]
        by_cases e : j = a
        · simp [e, h1]
        · simp [e]
      · simp only [h1, hb, if_true, if_false, Mem.read]
        by_cases e : j = a
        · simp [e]
        · by_cases h2 : j < a
          · simp [e, h2, Nat.lt_trans h2 h1]
          · simp [e, h2]
    · by_cases h2 : a = i
      · subst h2
        by_cases hb : b = 0
        · simp only [Nat.lt_irrefl, if_false, if_true, hb, Mem.read]
          by_cases e : j = a
          · simp [e, Mem.read_below r a hlt]
          · by_cases h3 : j < a
            · simp [e, h3, Mem.read_below r j (fun c hc => Nat.lt_trans h3 (hlt c hc))]
            · simp [e, h3]
        · simp only [Nat.lt_irrefl, if_false, if_true, hb, Mem.read]
          by_cases e : j = a
          · simp [e]
          · by_cases h3 : j < a <;> simp [e, h3]
      · simp only [h1, h2, if_false, Mem.read, ih hr]
        by_cases h3 : j < i
        · have : j ≠ a := fun e => h1 (e ▸ h3)
          simp [h3, this]
        · by_cases h4 : j = i
          · have : ¬ i = a := fun e => h2 e.symm
            simp [h4, this]
          · simp [h3, h4]

/-- Bytes outside a run read as before it was written. -/
theorem Mem.read_writeN_ne (m : Mem) (a n v j : Nat) (h : Mem.wf m = true) (hj : j < a ∨ a + n ≤ j) :
    Mem.read (Mem.writeN m a n v) j = Mem.read m j := by
  induction n generalizing m a v with
  | zero => rfl
  | succ n ih =>
    rw [Mem.writeN, ih _ _ _ (Mem.wf_write m a _ h) (by omega), Mem.read_write m a j _ h]
    simp [show j ≠ a by omega]

theorem Mem.readN_add (m : Mem) (a j k : Nat) : m.readN a (j + k) = m.readN a j + 256 ^ j * m.readN (a + j) k := by
  induction j generalizing a with
  | zero => simp [Mem.readN]
  | succ j ih =>
    rw [Nat.succ_add, Mem.readN, Mem.readN, ih, show a + 1 + j = a + (j + 1) by omega, Nat.pow_succ]
    ring

theorem Mem.readN_lt (m : Mem) (a n : Nat) : m.readN a n < 256 ^ n := by
  induction n generalizing a with
  | zero => simp [Mem.readN]
  | succ n ih => have := ih (a + 1); have := (Mem.read m a).isLt; rw [Mem.readN, Nat.pow_succ]; omega

/-- A run reads as last written. -/
theorem Mem.readN_writeN (m : Mem) (a n v : Nat) (h : Mem.wf m = true) :
    Mem.readN (Mem.writeN m a n v) a n = v % 256 ^ n := by
  induction n generalizing m a v with
  | zero => simp [Mem.readN, Nat.mod_one]
  | succ n ih =>
    have hw := Mem.wf_write m a (BitVec.ofNat 8 v) h
    rw [Mem.readN, Mem.writeN, ih _ _ _ hw, Mem.read_writeN_ne _ _ _ _ _ hw (by omega), Mem.read_write m a a _ h]
    simp only [if_true, BitVec.toNat_ofNat]
    rw [show 256 ^ (n + 1) = 256 * 256 ^ n from Nat.pow_succ', Nat.mod_mul]

/-- A run disjoint from a written one reads as before. -/
theorem Mem.readN_writeN_ne (m : Mem) (a n v j k : Nat) (h : Mem.wf m = true) (hj : j + k ≤ a ∨ a + n ≤ j) :
    Mem.readN (Mem.writeN m a n v) j k = Mem.readN m j k := by
  induction k generalizing j with
  | zero => rfl
  | succ k ih => rw [Mem.readN, Mem.readN, ih _ (by omega), Mem.read_writeN_ne _ _ _ _ _ h (by omega)]

/-! ## Byte strings and bit fields -/

theorem getBits_putBits_same (x off n v : Nat) : getBits (putBits x off n v) off n = v % 2 ^ n := by
  have hx : x % 2 ^ off < 2 ^ off := Nat.mod_lt _ (Nat.two_pow_pos _)
  have e : putBits x off n v = x % 2 ^ off + 2 ^ off * (v % 2 ^ n + 2 ^ n * (x / 2 ^ (off + n))) := by
    simp only [putBits, Nat.pow_add]; ring
  rw [getBits, e, Nat.add_mul_div_left _ _ (Nat.two_pow_pos _), Nat.div_eq_of_lt hx, Nat.zero_add, Nat.add_mul_mod_self_left,
    Nat.mod_mod]

theorem getB_eq_getBits (x off n : Nat) : getB x off n = getBits x (8 * off) (8 * n) := by
  simp [getB, getBits, Nat.pow_mul]

theorem putB_eq_putBits (x off n v : Nat) : putB x off n v = putBits x (8 * off) (8 * n) v := by
  simp [putB, putBits, Nat.pow_add, Nat.pow_mul]

/-- Bit i of a number with a field replaced. -/
theorem testBit_putBits (x off n v i : Nat) :
    (putBits x off n v).testBit i = if i < off then x.testBit i else if i < off + n then v.testBit (i - off) else x.testBit i := by
  have hx : x % 2 ^ off < 2 ^ off := Nat.mod_lt _ (Nat.two_pow_pos _)
  have hv : v % 2 ^ n < 2 ^ n := Nat.mod_lt _ (Nat.two_pow_pos _)
  have e : putBits x off n v = 2 ^ off * (2 ^ n * (x / 2 ^ (off + n)) + v % 2 ^ n) + x % 2 ^ off := by
    simp only [putBits, Nat.pow_add]; ring
  rw [e, Nat.testBit_two_pow_mul_add _ hx]
  split
  · rename_i h; simp [Nat.testBit_mod_two_pow, h]
  · rename_i h
    rw [Nat.testBit_two_pow_mul_add _ hv]
    by_cases h2 : i < off + n
    · have : i - off < n := by omega
      simp [this, h2, Nat.testBit_mod_two_pow]
    · have : ¬ i - off < n := by omega
      simp only [this, h2, if_false]
      rw [Nat.testBit_div_two_pow]
      congr 1; omega

theorem testBit_getBits (x off n i : Nat) : (getBits x off n).testBit i = (decide (i < n) && x.testBit (off + i)) := by
  rw [getBits, Nat.testBit_mod_two_pow, Nat.testBit_div_two_pow]
  simp [Nat.add_comm]

/-- A field disjoint from a replaced one is as before. -/
theorem getBits_putBits_ne (x off n v j k : Nat) (h : j + k ≤ off ∨ off + n ≤ j) :
    getBits (putBits x off n v) j k = getBits x j k := by
  apply Nat.eq_of_testBit_eq
  intro i
  simp only [testBit_getBits, testBit_putBits]
  by_cases hi : i < k
  · rcases h with h | h
    · simp [hi, show j + i < off by omega]
    · simp [hi, show ¬ j + i < off by omega, show ¬ j + i < off + n by omega]
  · simp [hi]

theorem getB_putB_same (x off n v : Nat) : getB (putB x off n v) off n = v % 256 ^ n := by
  rw [getB_eq_getBits, putB_eq_putBits, getBits_putBits_same, Nat.pow_mul]

theorem getB_putB_ne (x off n v j k : Nat) (h : j + k ≤ off ∨ off + n ≤ j) : getB (putB x off n v) j k = getB x j k := by
  rw [getB_eq_getBits, putB_eq_putBits, getBits_putBits_ne _ _ _ _ _ _ (by omega), ← getB_eq_getBits]

end Sys2Proof.Machine
end

