-- ==== Sys2Proof/Laws/Late.lean ====
section
/-! SUPPORT. What the record of instructions that may still be under way touches (16 R372): `track` moves that record alone, and taking an
effect back leaves everything else of its thread and core as it is. -/

namespace Sys2Proof.Machine

variable (i : Instr) (s t : State)

@[simp] theorem track_store : (State.track i s t).store = t.store := rfl
@[simp] theorem track_fab : (State.track i s t).fab = t.fab := rfl
@[simp] theorem track_others : (State.track i s t).others = t.others := rfl
@[simp] theorem track_free : (State.track i s t).free = t.free := rfl
@[simp] theorem track_th : (State.track i s t).th = { t.th with recent := s.lateNow i t } := rfl
theorem track_core : (State.track i s t).core = { t.core with parked := (State.track i s t).core.parked } := by
  simp only [State.track]; split <;> rfl

/-- An instruction that accesses no memory leaves the records of the core's other threads. -/
theorem track_quiet (h : s.accesses i = some []) : (State.track i s t).core = t.core := by
  simp [State.track, h]

/-- Nothing more than 22 instructions can be under way (R372). -/
theorem lateNow_length : (s.lateNow i t).length ≤ 22 := by
  unfold State.lateNow
  split
  · exact Nat.zero_le _
  · exact List.length_take_le ..

/-- Taking back changes the registers and flags of a thread and nothing else of it. -/
theorem undo_rest (x : Thread) (u : Undo) : x.undo u = { x with s := (x.undo u).s, vec := (x.undo u).vec } := by
  cases u <;> rfl

/-- Taking back changes the L1 and the scratchpad of a core and nothing else of it. -/
theorem undo_core_rest (c : Core) (u : Undo) : c.undo u = { c with l1 := (c.undo u).l1, spad := (c.undo u).spad } := by
  cases u with
  | line tag old new =>
    cases old with
    | none => rfl
    | some l => simp only [Core.undo, Core.putLine]; split <;> rfl
  | _ => rfl

end Sys2Proof.Machine
end

