-- ==== Sys2Proof/Laws/State.lean ====
section
/-! SUPPORT. One lemma for each field under each update of the state: what an update of a thread's registers leaves. -/

namespace Sys2Proof.Machine

/-! ## Registers after a write -/

@[simp] theorem Thread.setS_s (t : Thread) (r : Reg) (v : Word) : (t.setS r v).s = if r = 0 then t.s else wr t.s r v := by
  unfold Thread.setS; split <;> rfl

@[simp] theorem Thread.setK_k (t : Thread) (r : KReg) (v : Word) : (t.setK r v).k = if r = 0 then t.k else wr t.k r v := by
  unfold Thread.setK; split <;> rfl

@[simp] theorem Thread.setS_occ (t : Thread) (r : Reg) (v : Word) : (t.setS r v).occ = t.occ := by unfold Thread.setS; split <;> rfl
@[simp] theorem Thread.setS_pc (t : Thread) (r : Reg) (v : Word) : (t.setS r v).pc = t.pc := by unfold Thread.setS; split <;> rfl
@[simp] theorem Thread.setS_k (t : Thread) (r : Reg) (v : Word) : (t.setS r v).k = t.k := by unfold Thread.setS; split <;> rfl
@[simp] theorem Thread.setS_p (t : Thread) (r : Reg) (v : Word) : (t.setS r v).p = t.p := by unfold Thread.setS; split <;> rfl
@[simp] theorem Thread.setS_psz (t : Thread) (r : Reg) (v : Word) : (t.setS r v).psz = t.psz := by unfold Thread.setS; split <;> rfl
@[simp] theorem Thread.setS_vec (t : Thread) (r : Reg) (v : Word) : (t.setS r v).vec = t.vec := by unfold Thread.setS; split <;> rfl
@[simp] theorem Thread.setS_lcount (t : Thread) (r : Reg) (v : Word) : (t.setS r v).lcount = t.lcount := by unfold Thread.setS; split <;> rfl
@[simp] theorem Thread.setS_laneBusy (t : Thread) (r : Reg) (v : Word) : (t.setS r v).laneBusy = t.laneBusy := by unfold Thread.setS; split <;> rfl
@[simp] theorem Thread.setS_tframe (t : Thread) (r : Reg) (v : Word) : (t.setS r v).tframe = t.tframe := by unfold Thread.setS; split <;> rfl
@[simp] theorem Thread.setS_level (t : Thread) (r : Reg) (v : Word) : (t.setS r v).level = t.level := by unfold Thread.setS; split <;> rfl
@[simp] theorem Thread.setS_intrap (t : Thread) (r : Reg) (v : Word) : (t.setS r v).intrap = t.intrap := by unfold Thread.setS; split <;> rfl
@[simp] theorem Thread.setS_imask (t : Thread) (r : Reg) (v : Word) : (t.setS r v).imask = t.imask := by unfold Thread.setS; split <;> rfl
@[simp] theorem Thread.setS_gen (t : Thread) (r : Reg) (v : Word) : (t.setS r v).gen = t.gen := by unfold Thread.setS; split <;> rfl
@[simp] theorem Thread.setS_acqL1 (t : Thread) (r : Reg) (v : Word) : (t.setS r v).acqL1 = t.acqL1 := by unfold Thread.setS; split <;> rfl
@[simp] theorem Thread.setS_acqRdc (t : Thread) (r : Reg) (v : Word) : (t.setS r v).acqRdc = t.acqRdc := by unfold Thread.setS; split <;> rfl
@[simp] theorem Thread.setS_convoy (t : Thread) (r : Reg) (v : Word) : (t.setS r v).convoy = t.convoy := by unfold Thread.setS; split <;> rfl
@[simp] theorem Thread.setS_issue (t : Thread) (r : Reg) (v : Word) : (t.setS r v).issue = t.issue := by unfold Thread.setS; split <;> rfl
@[simp] theorem Thread.setS_replay (t : Thread) (r : Reg) (v : Word) : (t.setS r v).replay = t.replay := by unfold Thread.setS; split <;> rfl
@[simp] theorem Thread.setS_rtn (t : Thread) (r : Reg) (v : Word) : (t.setS r v).rtn = t.rtn := by unfold Thread.setS; split <;> rfl
@[simp] theorem Thread.setS_vp (t : Thread) (r : Reg) (v : Word) : (t.setS r v).vp = t.vp := by unfold Thread.setS; split <;> rfl
@[simp] theorem Thread.setS_vpHeld (t : Thread) (r : Reg) (v : Word) : (t.setS r v).vpHeld = t.vpHeld := by unfold Thread.setS; split <;> rfl
@[simp] theorem Thread.setS_rwatch (t : Thread) (r : Reg) (v : Word) : (t.setS r v).rwatch = t.rwatch := by unfold Thread.setS; split <;> rfl
@[simp] theorem Thread.setS_wait (t : Thread) (r : Reg) (v : Word) : (t.setS r v).wait = t.wait := by unfold Thread.setS; split <;> rfl
@[simp] theorem Thread.setS_spin (t : Thread) (r : Reg) (v : Word) : (t.setS r v).spin = t.spin := by unfold Thread.setS; split <;> rfl
@[simp] theorem Thread.setS_qans (t : Thread) (r : Reg) (v : Word) : (t.setS r v).qans = t.qans := by unfold Thread.setS; split <;> rfl
@[simp] theorem Thread.setS_polling (t : Thread) (r : Reg) (v : Word) : (t.setS r v).polling = t.polling := by unfold Thread.setS; split <;> rfl
@[simp] theorem Thread.setS_ending (t : Thread) (r : Reg) (v : Word) : (t.setS r v).ending = t.ending := by unfold Thread.setS; split <;> rfl
@[simp] theorem Thread.setS_atBar (t : Thread) (r : Reg) (v : Word) : (t.setS r v).atBar = t.atBar := by unfold Thread.setS; split <;> rfl
@[simp] theorem Thread.setS_mcStop (t : Thread) (r : Reg) (v : Word) : (t.setS r v).mcStop = t.mcStop := by unfold Thread.setS; split <;> rfl
@[simp] theorem Thread.setS_recent (t : Thread) (r : Reg) (v : Word) : (t.setS r v).recent = t.recent := by unfold Thread.setS; split <;> rfl
@[simp] theorem Thread.setS_flight (t : Thread) (r : Reg) (v : Word) : (t.setS r v).flight = t.flight := by unfold Thread.setS; split <;> rfl
@[simp] theorem Thread.setK_occ (t : Thread) (r : KReg) (v : Word) : (t.setK r v).occ = t.occ := by unfold Thread.setK; split <;> rfl
@[simp] theorem Thread.setK_pc (t : Thread) (r : KReg) (v : Word) : (t.setK r v).pc = t.pc := by unfold Thread.setK; split <;> rfl
@[simp] theorem Thread.setK_s (t : Thread) (r : KReg) (v : Word) : (t.setK r v).s = t.s := by unfold Thread.setK; split <;> rfl
@[simp] theorem Thread.setK_p (t : Thread) (r : KReg) (v : Word) : (t.setK r v).p = t.p := by unfold Thread.setK; split <;> rfl
@[simp] theorem Thread.setK_psz (t : Thread) (r : KReg) (v : Word) : (t.setK r v).psz = t.psz := by unfold Thread.setK; split <;> rfl
@[simp] theorem Thread.setK_vec (t : Thread) (r : KReg) (v : Word) : (t.setK r v).vec = t.vec := by unfold Thread.setK; split <;> rfl
@[simp] theorem Thread.setK_lcount (t : Thread) (r : KReg) (v : Word) : (t.setK r v).lcount = t.lcount := by unfold Thread.setK; split <;> rfl
@[simp] theorem Thread.setK_laneBusy (t : Thread) (r : KReg) (v : Word) : (t.setK r v).laneBusy = t.laneBusy := by unfold Thread.setK; split <;> rfl
@[simp] theorem Thread.setK_tframe (t : Thread) (r : KReg) (v : Word) : (t.setK r v).tframe = t.tframe := by unfold Thread.setK; split <;> rfl
@[simp] theorem Thread.setK_level (t : Thread) (r : KReg) (v : Word) : (t.setK r v).level = t.level := by unfold Thread.setK; split <;> rfl
@[simp] theorem Thread.setK_intrap (t : Thread) (r : KReg) (v : Word) : (t.setK r v).intrap = t.intrap := by unfold Thread.setK; split <;> rfl
@[simp] theorem Thread.setK_imask (t : Thread) (r : KReg) (v : Word) : (t.setK r v).imask = t.imask := by unfold Thread.setK; split <;> rfl
@[simp] theorem Thread.setK_gen (t : Thread) (r : KReg) (v : Word) : (t.setK r v).gen = t.gen := by unfold Thread.setK; split <;> rfl
@[simp] theorem Thread.setK_acqL1 (t : Thread) (r : KReg) (v : Word) : (t.setK r v).acqL1 = t.acqL1 := by unfold Thread.setK; split <;> rfl
@[simp] theorem Thread.setK_acqRdc (t : Thread) (r : KReg) (v : Word) : (t.setK r v).acqRdc = t.acqRdc := by unfold Thread.setK; split <;> rfl
@[simp] theorem Thread.setK_convoy (t : Thread) (r : KReg) (v : Word) : (t.setK r v).convoy = t.convoy := by unfold Thread.setK; split <;> rfl
@[simp] theorem Thread.setK_issue (t : Thread) (r : KReg) (v : Word) : (t.setK r v).issue = t.issue := by unfold Thread.setK; split <;> rfl
@[simp] theorem Thread.setK_replay (t : Thread) (r : KReg) (v : Word) : (t.setK r v).replay = t.replay := by unfold Thread.setK; split <;> rfl
@[simp] theorem Thread.setK_rtn (t : Thread) (r : KReg) (v : Word) : (t.setK r v).rtn = t.rtn := by unfold Thread.setK; split <;> rfl
@[simp] theorem Thread.setK_vp (t : Thread) (r : KReg) (v : Word) : (t.setK r v).vp = t.vp := by unfold Thread.setK; split <;> rfl
@[simp] theorem Thread.setK_vpHeld (t : Thread) (r : KReg) (v : Word) : (t.setK r v).vpHeld = t.vpHeld := by unfold Thread.setK; split <;> rfl
@[simp] theorem Thread.setK_rwatch (t : Thread) (r : KReg) (v : Word) : (t.setK r v).rwatch = t.rwatch := by unfold Thread.setK; split <;> rfl
@[simp] theorem Thread.setK_wait (t : Thread) (r : KReg) (v : Word) : (t.setK r v).wait = t.wait := by unfold Thread.setK; split <;> rfl
@[simp] theorem Thread.setK_spin (t : Thread) (r : KReg) (v : Word) : (t.setK r v).spin = t.spin := by unfold Thread.setK; split <;> rfl
@[simp] theorem Thread.setK_qans (t : Thread) (r : KReg) (v : Word) : (t.setK r v).qans = t.qans := by unfold Thread.setK; split <;> rfl
@[simp] theorem Thread.setK_polling (t : Thread) (r : KReg) (v : Word) : (t.setK r v).polling = t.polling := by unfold Thread.setK; split <;> rfl
@[simp] theorem Thread.setK_ending (t : Thread) (r : KReg) (v : Word) : (t.setK r v).ending = t.ending := by unfold Thread.setK; split <;> rfl
@[simp] theorem Thread.setK_atBar (t : Thread) (r : KReg) (v : Word) : (t.setK r v).atBar = t.atBar := by unfold Thread.setK; split <;> rfl
@[simp] theorem Thread.setK_mcStop (t : Thread) (r : KReg) (v : Word) : (t.setK r v).mcStop = t.mcStop := by unfold Thread.setK; split <;> rfl
@[simp] theorem Thread.setK_recent (t : Thread) (r : KReg) (v : Word) : (t.setK r v).recent = t.recent := by unfold Thread.setK; split <;> rfl
@[simp] theorem Thread.setK_flight (t : Thread) (r : KReg) (v : Word) : (t.setK r v).flight = t.flight := by unfold Thread.setK; split <;> rfl

@[simp] theorem Thread.slotDone_occ (t : Thread) : t.slotDone.occ = t.occ := by unfold Thread.slotDone; split <;> (try split) <;> rfl
@[simp] theorem Thread.slotDone_pc (t : Thread) : t.slotDone.pc = t.pc := by unfold Thread.slotDone; split <;> (try split) <;> rfl
@[simp] theorem Thread.slotDone_s (t : Thread) : t.slotDone.s = t.s := by unfold Thread.slotDone; split <;> (try split) <;> rfl
@[simp] theorem Thread.slotDone_k (t : Thread) : t.slotDone.k = t.k := by unfold Thread.slotDone; split <;> (try split) <;> rfl
@[simp] theorem Thread.slotDone_p (t : Thread) : t.slotDone.p = t.p := by unfold Thread.slotDone; split <;> (try split) <;> rfl
@[simp] theorem Thread.slotDone_psz (t : Thread) : t.slotDone.psz = t.psz := by unfold Thread.slotDone; split <;> (try split) <;> rfl
@[simp] theorem Thread.slotDone_vec (t : Thread) : t.slotDone.vec = t.vec := by unfold Thread.slotDone; split <;> (try split) <;> rfl
@[simp] theorem Thread.slotDone_lcount (t : Thread) : t.slotDone.lcount = t.lcount := by unfold Thread.slotDone; split <;> (try split) <;> rfl
@[simp] theorem Thread.slotDone_laneBusy (t : Thread) : t.slotDone.laneBusy = t.laneBusy := by unfold Thread.slotDone; split <;> (try split) <;> rfl
@[simp] theorem Thread.slotDone_tframe (t : Thread) : t.slotDone.tframe = t.tframe := by unfold Thread.slotDone; split <;> (try split) <;> rfl
@[simp] theorem Thread.slotDone_level (t : Thread) : t.slotDone.level = t.level := by unfold Thread.slotDone; split <;> (try split) <;> rfl
@[simp] theorem Thread.slotDone_intrap (t : Thread) : t.slotDone.intrap = t.intrap := by unfold Thread.slotDone; split <;> (try split) <;> rfl
@[simp] theorem Thread.slotDone_imask (t : Thread) : t.slotDone.imask = t.imask := by unfold Thread.slotDone; split <;> (try split) <;> rfl
@[simp] theorem Thread.slotDone_gen (t : Thread) : t.slotDone.gen = t.gen := by unfold Thread.slotDone; split <;> (try split) <;> rfl
@[simp] theorem Thread.slotDone_acqL1 (t : Thread) : t.slotDone.acqL1 = t.acqL1 := by unfold Thread.slotDone; split <;> (try split) <;> rfl
@[simp] theorem Thread.slotDone_acqRdc (t : Thread) : t.slotDone.acqRdc = t.acqRdc := by unfold Thread.slotDone; split <;> (try split) <;> rfl
@[simp] theorem Thread.slotDone_replay (t : Thread) : t.slotDone.replay = t.replay := by unfold Thread.slotDone; split <;> (try split) <;> rfl
@[simp] theorem Thread.slotDone_rtn (t : Thread) : t.slotDone.rtn = t.rtn := by unfold Thread.slotDone; split <;> (try split) <;> rfl
@[simp] theorem Thread.slotDone_vp (t : Thread) : t.slotDone.vp = t.vp := by unfold Thread.slotDone; split <;> (try split) <;> rfl
@[simp] theorem Thread.slotDone_vpHeld (t : Thread) : t.slotDone.vpHeld = t.vpHeld := by unfold Thread.slotDone; split <;> (try split) <;> rfl
@[simp] theorem Thread.slotDone_rwatch (t : Thread) : t.slotDone.rwatch = t.rwatch := by unfold Thread.slotDone; split <;> (try split) <;> rfl
@[simp] theorem Thread.slotDone_wait (t : Thread) : t.slotDone.wait = t.wait := by unfold Thread.slotDone; split <;> (try split) <;> rfl
@[simp] theorem Thread.slotDone_spin (t : Thread) : t.slotDone.spin = t.spin := by unfold Thread.slotDone; split <;> (try split) <;> rfl
@[simp] theorem Thread.slotDone_qans (t : Thread) : t.slotDone.qans = t.qans := by unfold Thread.slotDone; split <;> (try split) <;> rfl
@[simp] theorem Thread.slotDone_polling (t : Thread) : t.slotDone.polling = t.polling := by unfold Thread.slotDone; split <;> (try split) <;> rfl
@[simp] theorem Thread.slotDone_ending (t : Thread) : t.slotDone.ending = t.ending := by unfold Thread.slotDone; split <;> (try split) <;> rfl
@[simp] theorem Thread.slotDone_atBar (t : Thread) : t.slotDone.atBar = t.atBar := by unfold Thread.slotDone; split <;> (try split) <;> rfl
@[simp] theorem Thread.slotDone_mcStop (t : Thread) : t.slotDone.mcStop = t.mcStop := by unfold Thread.slotDone; split <;> (try split) <;> rfl
@[simp] theorem Thread.slotDone_recent (t : Thread) : t.slotDone.recent = t.recent := by unfold Thread.slotDone; split <;> (try split) <;> rfl
@[simp] theorem Thread.slotDone_flight (t : Thread) : t.slotDone.flight = t.flight := by unfold Thread.slotDone; split <;> (try split) <;> rfl
@[simp] theorem Thread.slotDone_issue (t : Thread) : t.slotDone.issue = none := by unfold Thread.slotDone; split <;> (try split) <;> rfl

/-! ## The rest of the state -/

@[simp] theorem State.setS_slot (s : State) (r : Reg) (v : Word) : (s.setS r v).slot = s.slot := rfl
@[simp] theorem State.setS_core (s : State) (r : Reg) (v : Word) : (s.setS r v).core = s.core := rfl
@[simp] theorem State.setS_coreId (s : State) (r : Reg) (v : Word) : (s.setS r v).coreId = s.coreId := rfl
@[simp] theorem State.setS_others (s : State) (r : Reg) (v : Word) : (s.setS r v).others = s.others := rfl
@[simp] theorem State.setS_store (s : State) (r : Reg) (v : Word) : (s.setS r v).store = s.store := rfl
@[simp] theorem State.setS_fab (s : State) (r : Reg) (v : Word) : (s.setS r v).fab = s.fab := rfl
@[simp] theorem State.setS_boot (s : State) (r : Reg) (v : Word) : (s.setS r v).boot = s.boot := rfl
@[simp] theorem State.setS_harvest (s : State) (r : Reg) (v : Word) : (s.setS r v).harvest = s.harvest := rfl
@[simp] theorem State.setS_drowsyThresh (s : State) (r : Reg) (v : Word) : (s.setS r v).drowsyThresh = s.drowsyThresh := rfl
@[simp] theorem State.setS_ctxtab (s : State) (r : Reg) (v : Word) : (s.setS r v).ctxtab = s.ctxtab := rfl
@[simp] theorem State.setS_recmap (s : State) (r : Reg) (v : Word) : (s.setS r v).recmap = s.recmap := rfl
@[simp] theorem State.setS_time (s : State) (r : Reg) (v : Word) : (s.setS r v).time = s.time := rfl
@[simp] theorem State.setS_seq (s : State) (r : Reg) (v : Word) : (s.setS r v).seq = s.seq := rfl
@[simp] theorem State.setS_lag (s : State) (r : Reg) (v : Word) : (s.setS r v).lag = s.lag := rfl
@[simp] theorem State.setS_free (s : State) (r : Reg) (v : Word) : (s.setS r v).free = s.free := rfl
@[simp] theorem State.setS_schedule (s : State) (r : Reg) (v : Word) : (s.setS r v).schedule = s.schedule := rfl
@[simp] theorem State.setS_ev (s : State) (r : Reg) (v : Word) : (s.setS r v).ev = s.ev := rfl
@[simp] theorem State.setS_th_occ (s : State) (r : Reg) (v : Word) : (s.setS r v).th.occ = s.th.occ := Thread.setS_occ s.th r v
@[simp] theorem State.setS_th_pc (s : State) (r : Reg) (v : Word) : (s.setS r v).th.pc = s.th.pc := Thread.setS_pc s.th r v
@[simp] theorem State.setS_th_k (s : State) (r : Reg) (v : Word) : (s.setS r v).th.k = s.th.k := Thread.setS_k s.th r v
@[simp] theorem State.setS_th_p (s : State) (r : Reg) (v : Word) : (s.setS r v).th.p = s.th.p := Thread.setS_p s.th r v
@[simp] theorem State.setS_th_psz (s : State) (r : Reg) (v : Word) : (s.setS r v).th.psz = s.th.psz := Thread.setS_psz s.th r v
@[simp] theorem State.setS_th_vec (s : State) (r : Reg) (v : Word) : (s.setS r v).th.vec = s.th.vec := Thread.setS_vec s.th r v
@[simp] theorem State.setS_th_lcount (s : State) (r : Reg) (v : Word) : (s.setS r v).th.lcount = s.th.lcount := Thread.setS_lcount s.th r v
@[simp] theorem State.setS_th_laneBusy (s : State) (r : Reg) (v : Word) : (s.setS r v).th.laneBusy = s.th.laneBusy := Thread.setS_laneBusy s.th r v
@[simp] theorem State.setS_th_tframe (s : State) (r : Reg) (v : Word) : (s.setS r v).th.tframe = s.th.tframe := Thread.setS_tframe s.th r v
@[simp] theorem State.setS_th_level (s : State) (r : Reg) (v : Word) : (s.setS r v).th.level = s.th.level := Thread.setS_level s.th r v
@[simp] theorem State.setS_th_intrap (s : State) (r : Reg) (v : Word) : (s.setS r v).th.intrap = s.th.intrap := Thread.setS_intrap s.th r v
@[simp] theorem State.setS_th_imask (s : State) (r : Reg) (v : Word) : (s.setS r v).th.imask = s.th.imask := Thread.setS_imask s.th r v
@[simp] theorem State.setS_th_gen (s : State) (r : Reg) (v : Word) : (s.setS r v).th.gen = s.th.gen := Thread.setS_gen s.th r v
@[simp] theorem State.setS_th_acqL1 (s : State) (r : Reg) (v : Word) : (s.setS r v).th.acqL1 = s.th.acqL1 := Thread.setS_acqL1 s.th r v
@[simp] theorem State.setS_th_acqRdc (s : State) (r : Reg) (v : Word) : (s.setS r v).th.acqRdc = s.th.acqRdc := Thread.setS_acqRdc s.th r v
@[simp] theorem State.setS_th_convoy (s : State) (r : Reg) (v : Word) : (s.setS r v).th.convoy = s.th.convoy := Thread.setS_convoy s.th r v
@[simp] theorem State.setS_th_issue (s : State) (r : Reg) (v : Word) : (s.setS r v).th.issue = s.th.issue := Thread.setS_issue s.th r v
@[simp] theorem State.setS_th_replay (s : State) (r : Reg) (v : Word) : (s.setS r v).th.replay = s.th.replay := Thread.setS_replay s.th r v
@[simp] theorem State.setS_th_rtn (s : State) (r : Reg) (v : Word) : (s.setS r v).th.rtn = s.th.rtn := Thread.setS_rtn s.th r v
@[simp] theorem State.setS_th_vp (s : State) (r : Reg) (v : Word) : (s.setS r v).th.vp = s.th.vp := Thread.setS_vp s.th r v
@[simp] theorem State.setS_th_vpHeld (s : State) (r : Reg) (v : Word) : (s.setS r v).th.vpHeld = s.th.vpHeld := Thread.setS_vpHeld s.th r v
@[simp] theorem State.setS_th_rwatch (s : State) (r : Reg) (v : Word) : (s.setS r v).th.rwatch = s.th.rwatch := Thread.setS_rwatch s.th r v
@[simp] theorem State.setS_th_wait (s : State) (r : Reg) (v : Word) : (s.setS r v).th.wait = s.th.wait := Thread.setS_wait s.th r v
@[simp] theorem State.setS_th_spin (s : State) (r : Reg) (v : Word) : (s.setS r v).th.spin = s.th.spin := Thread.setS_spin s.th r v
@[simp] theorem State.setS_th_qans (s : State) (r : Reg) (v : Word) : (s.setS r v).th.qans = s.th.qans := Thread.setS_qans s.th r v
@[simp] theorem State.setS_th_polling (s : State) (r : Reg) (v : Word) : (s.setS r v).th.polling = s.th.polling := Thread.setS_polling s.th r v
@[simp] theorem State.setS_th_ending (s : State) (r : Reg) (v : Word) : (s.setS r v).th.ending = s.th.ending := Thread.setS_ending s.th r v
@[simp] theorem State.setS_th_atBar (s : State) (r : Reg) (v : Word) : (s.setS r v).th.atBar = s.th.atBar := Thread.setS_atBar s.th r v
@[simp] theorem State.setS_th_mcStop (s : State) (r : Reg) (v : Word) : (s.setS r v).th.mcStop = s.th.mcStop := Thread.setS_mcStop s.th r v
@[simp] theorem State.setS_th_recent (s : State) (r : Reg) (v : Word) : (s.setS r v).th.recent = s.th.recent := Thread.setS_recent s.th r v
@[simp] theorem State.setS_th_flight (s : State) (r : Reg) (v : Word) : (s.setS r v).th.flight = s.th.flight := Thread.setS_flight s.th r v

@[simp] theorem State.setK_slot (s : State) (r : KReg) (v : Word) : (s.setK r v).slot = s.slot := rfl
@[simp] theorem State.setK_core (s : State) (r : KReg) (v : Word) : (s.setK r v).core = s.core := rfl
@[simp] theorem State.setK_coreId (s : State) (r : KReg) (v : Word) : (s.setK r v).coreId = s.coreId := rfl
@[simp] theorem State.setK_others (s : State) (r : KReg) (v : Word) : (s.setK r v).others = s.others := rfl
@[simp] theorem State.setK_store (s : State) (r : KReg) (v : Word) : (s.setK r v).store = s.store := rfl
@[simp] theorem State.setK_fab (s : State) (r : KReg) (v : Word) : (s.setK r v).fab = s.fab := rfl
@[simp] theorem State.setK_boot (s : State) (r : KReg) (v : Word) : (s.setK r v).boot = s.boot := rfl
@[simp] theorem State.setK_harvest (s : State) (r : KReg) (v : Word) : (s.setK r v).harvest = s.harvest := rfl
@[simp] theorem State.setK_drowsyThresh (s : State) (r : KReg) (v : Word) : (s.setK r v).drowsyThresh = s.drowsyThresh := rfl
@[simp] theorem State.setK_ctxtab (s : State) (r : KReg) (v : Word) : (s.setK r v).ctxtab = s.ctxtab := rfl
@[simp] theorem State.setK_recmap (s : State) (r : KReg) (v : Word) : (s.setK r v).recmap = s.recmap := rfl
@[simp] theorem State.setK_time (s : State) (r : KReg) (v : Word) : (s.setK r v).time = s.time := rfl
@[simp] theorem State.setK_seq (s : State) (r : KReg) (v : Word) : (s.setK r v).seq = s.seq := rfl
@[simp] theorem State.setK_lag (s : State) (r : KReg) (v : Word) : (s.setK r v).lag = s.lag := rfl
@[simp] theorem State.setK_free (s : State) (r : KReg) (v : Word) : (s.setK r v).free = s.free := rfl
@[simp] theorem State.setK_schedule (s : State) (r : KReg) (v : Word) : (s.setK r v).schedule = s.schedule := rfl
@[simp] theorem State.setK_ev (s : State) (r : KReg) (v : Word) : (s.setK r v).ev = s.ev := rfl
@[simp] theorem State.setK_th_occ (s : State) (r : KReg) (v : Word) : (s.setK r v).th.occ = s.th.occ := Thread.setK_occ s.th r v
@[simp] theorem State.setK_th_pc (s : State) (r : KReg) (v : Word) : (s.setK r v).th.pc = s.th.pc := Thread.setK_pc s.th r v
@[simp] theorem State.setK_th_s (s : State) (r : KReg) (v : Word) : (s.setK r v).th.s = s.th.s := Thread.setK_s s.th r v
@[simp] theorem State.setK_th_p (s : State) (r : KReg) (v : Word) : (s.setK r v).th.p = s.th.p := Thread.setK_p s.th r v
@[simp] theorem State.setK_th_psz (s : State) (r : KReg) (v : Word) : (s.setK r v).th.psz = s.th.psz := Thread.setK_psz s.th r v
@[simp] theorem State.setK_th_vec (s : State) (r : KReg) (v : Word) : (s.setK r v).th.vec = s.th.vec := Thread.setK_vec s.th r v
@[simp] theorem State.setK_th_lcount (s : State) (r : KReg) (v : Word) : (s.setK r v).th.lcount = s.th.lcount := Thread.setK_lcount s.th r v
@[simp] theorem State.setK_th_laneBusy (s : State) (r : KReg) (v : Word) : (s.setK r v).th.laneBusy = s.th.laneBusy := Thread.setK_laneBusy s.th r v
@[simp] theorem State.setK_th_tframe (s : State) (r : KReg) (v : Word) : (s.setK r v).th.tframe = s.th.tframe := Thread.setK_tframe s.th r v
@[simp] theorem State.setK_th_level (s : State) (r : KReg) (v : Word) : (s.setK r v).th.level = s.th.level := Thread.setK_level s.th r v
@[simp] theorem State.setK_th_intrap (s : State) (r : KReg) (v : Word) : (s.setK r v).th.intrap = s.th.intrap := Thread.setK_intrap s.th r v
@[simp] theorem State.setK_th_imask (s : State) (r : KReg) (v : Word) : (s.setK r v).th.imask = s.th.imask := Thread.setK_imask s.th r v
@[simp] theorem State.setK_th_gen (s : State) (r : KReg) (v : Word) : (s.setK r v).th.gen = s.th.gen := Thread.setK_gen s.th r v
@[simp] theorem State.setK_th_acqL1 (s : State) (r : KReg) (v : Word) : (s.setK r v).th.acqL1 = s.th.acqL1 := Thread.setK_acqL1 s.th r v
@[simp] theorem State.setK_th_acqRdc (s : State) (r : KReg) (v : Word) : (s.setK r v).th.acqRdc = s.th.acqRdc := Thread.setK_acqRdc s.th r v
@[simp] theorem State.setK_th_convoy (s : State) (r : KReg) (v : Word) : (s.setK r v).th.convoy = s.th.convoy := Thread.setK_convoy s.th r v
@[simp] theorem State.setK_th_issue (s : State) (r : KReg) (v : Word) : (s.setK r v).th.issue = s.th.issue := Thread.setK_issue s.th r v
@[simp] theorem State.setK_th_replay (s : State) (r : KReg) (v : Word) : (s.setK r v).th.replay = s.th.replay := Thread.setK_replay s.th r v
@[simp] theorem State.setK_th_rtn (s : State) (r : KReg) (v : Word) : (s.setK r v).th.rtn = s.th.rtn := Thread.setK_rtn s.th r v
@[simp] theorem State.setK_th_vp (s : State) (r : KReg) (v : Word) : (s.setK r v).th.vp = s.th.vp := Thread.setK_vp s.th r v
@[simp] theorem State.setK_th_vpHeld (s : State) (r : KReg) (v : Word) : (s.setK r v).th.vpHeld = s.th.vpHeld := Thread.setK_vpHeld s.th r v
@[simp] theorem State.setK_th_rwatch (s : State) (r : KReg) (v : Word) : (s.setK r v).th.rwatch = s.th.rwatch := Thread.setK_rwatch s.th r v
@[simp] theorem State.setK_th_wait (s : State) (r : KReg) (v : Word) : (s.setK r v).th.wait = s.th.wait := Thread.setK_wait s.th r v
@[simp] theorem State.setK_th_spin (s : State) (r : KReg) (v : Word) : (s.setK r v).th.spin = s.th.spin := Thread.setK_spin s.th r v
@[simp] theorem State.setK_th_qans (s : State) (r : KReg) (v : Word) : (s.setK r v).th.qans = s.th.qans := Thread.setK_qans s.th r v
@[simp] theorem State.setK_th_polling (s : State) (r : KReg) (v : Word) : (s.setK r v).th.polling = s.th.polling := Thread.setK_polling s.th r v
@[simp] theorem State.setK_th_ending (s : State) (r : KReg) (v : Word) : (s.setK r v).th.ending = s.th.ending := Thread.setK_ending s.th r v
@[simp] theorem State.setK_th_atBar (s : State) (r : KReg) (v : Word) : (s.setK r v).th.atBar = s.th.atBar := Thread.setK_atBar s.th r v
@[simp] theorem State.setK_th_mcStop (s : State) (r : KReg) (v : Word) : (s.setK r v).th.mcStop = s.th.mcStop := Thread.setK_mcStop s.th r v
@[simp] theorem State.setK_th_recent (s : State) (r : KReg) (v : Word) : (s.setK r v).th.recent = s.th.recent := Thread.setK_recent s.th r v
@[simp] theorem State.setK_th_flight (s : State) (r : KReg) (v : Word) : (s.setK r v).th.flight = s.th.flight := Thread.setK_flight s.th r v

@[simp] theorem State.setP_slot (s : State) (r : PReg) (v : Word) : (s.setP r v).slot = s.slot := rfl
@[simp] theorem State.setP_core (s : State) (r : PReg) (v : Word) : (s.setP r v).core = s.core := rfl
@[simp] theorem State.setP_coreId (s : State) (r : PReg) (v : Word) : (s.setP r v).coreId = s.coreId := rfl
@[simp] theorem State.setP_others (s : State) (r : PReg) (v : Word) : (s.setP r v).others = s.others := rfl
@[simp] theorem State.setP_store (s : State) (r : PReg) (v : Word) : (s.setP r v).store = s.store := rfl
@[simp] theorem State.setP_fab (s : State) (r : PReg) (v : Word) : (s.setP r v).fab = s.fab := rfl
@[simp] theorem State.setP_boot (s : State) (r : PReg) (v : Word) : (s.setP r v).boot = s.boot := rfl
@[simp] theorem State.setP_harvest (s : State) (r : PReg) (v : Word) : (s.setP r v).harvest = s.harvest := rfl
@[simp] theorem State.setP_drowsyThresh (s : State) (r : PReg) (v : Word) : (s.setP r v).drowsyThresh = s.drowsyThresh := rfl
@[simp] theorem State.setP_ctxtab (s : State) (r : PReg) (v : Word) : (s.setP r v).ctxtab = s.ctxtab := rfl
@[simp] theorem State.setP_recmap (s : State) (r : PReg) (v : Word) : (s.setP r v).recmap = s.recmap := rfl
@[simp] theorem State.setP_time (s : State) (r : PReg) (v : Word) : (s.setP r v).time = s.time := rfl
@[simp] theorem State.setP_seq (s : State) (r : PReg) (v : Word) : (s.setP r v).seq = s.seq := rfl
@[simp] theorem State.setP_lag (s : State) (r : PReg) (v : Word) : (s.setP r v).lag = s.lag := rfl
@[simp] theorem State.setP_free (s : State) (r : PReg) (v : Word) : (s.setP r v).free = s.free := rfl
@[simp] theorem State.setP_schedule (s : State) (r : PReg) (v : Word) : (s.setP r v).schedule = s.schedule := rfl
@[simp] theorem State.setP_ev (s : State) (r : PReg) (v : Word) : (s.setP r v).ev = s.ev := rfl
@[simp] theorem State.setP_th_occ (s : State) (r : PReg) (v : Word) : (s.setP r v).th.occ = s.th.occ := rfl
@[simp] theorem State.setP_th_pc (s : State) (r : PReg) (v : Word) : (s.setP r v).th.pc = s.th.pc := rfl
@[simp] theorem State.setP_th_s (s : State) (r : PReg) (v : Word) : (s.setP r v).th.s = s.th.s := rfl
@[simp] theorem State.setP_th_k (s : State) (r : PReg) (v : Word) : (s.setP r v).th.k = s.th.k := rfl
@[simp] theorem State.setP_th_psz (s : State) (r : PReg) (v : Word) : (s.setP r v).th.psz = s.th.psz := rfl
@[simp] theorem State.setP_th_vec (s : State) (r : PReg) (v : Word) : (s.setP r v).th.vec = s.th.vec := rfl
@[simp] theorem State.setP_th_lcount (s : State) (r : PReg) (v : Word) : (s.setP r v).th.lcount = s.th.lcount := rfl
@[simp] theorem State.setP_th_laneBusy (s : State) (r : PReg) (v : Word) : (s.setP r v).th.laneBusy = s.th.laneBusy := rfl
@[simp] theorem State.setP_th_tframe (s : State) (r : PReg) (v : Word) : (s.setP r v).th.tframe = s.th.tframe := rfl
@[simp] theorem State.setP_th_level (s : State) (r : PReg) (v : Word) : (s.setP r v).th.level = s.th.level := rfl
@[simp] theorem State.setP_th_intrap (s : State) (r : PReg) (v : Word) : (s.setP r v).th.intrap = s.th.intrap := rfl
@[simp] theorem State.setP_th_imask (s : State) (r : PReg) (v : Word) : (s.setP r v).th.imask = s.th.imask := rfl
@[simp] theorem State.setP_th_gen (s : State) (r : PReg) (v : Word) : (s.setP r v).th.gen = s.th.gen := rfl
@[simp] theorem State.setP_th_acqL1 (s : State) (r : PReg) (v : Word) : (s.setP r v).th.acqL1 = s.th.acqL1 := rfl
@[simp] theorem State.setP_th_acqRdc (s : State) (r : PReg) (v : Word) : (s.setP r v).th.acqRdc = s.th.acqRdc := rfl
@[simp] theorem State.setP_th_convoy (s : State) (r : PReg) (v : Word) : (s.setP r v).th.convoy = s.th.convoy := rfl
@[simp] theorem State.setP_th_issue (s : State) (r : PReg) (v : Word) : (s.setP r v).th.issue = s.th.issue := rfl
@[simp] theorem State.setP_th_replay (s : State) (r : PReg) (v : Word) : (s.setP r v).th.replay = s.th.replay := rfl
@[simp] theorem State.setP_th_rtn (s : State) (r : PReg) (v : Word) : (s.setP r v).th.rtn = s.th.rtn := rfl
@[simp] theorem State.setP_th_vp (s : State) (r : PReg) (v : Word) : (s.setP r v).th.vp = s.th.vp := rfl
@[simp] theorem State.setP_th_vpHeld (s : State) (r : PReg) (v : Word) : (s.setP r v).th.vpHeld = s.th.vpHeld := rfl
@[simp] theorem State.setP_th_rwatch (s : State) (r : PReg) (v : Word) : (s.setP r v).th.rwatch = s.th.rwatch := rfl
@[simp] theorem State.setP_th_wait (s : State) (r : PReg) (v : Word) : (s.setP r v).th.wait = s.th.wait := rfl
@[simp] theorem State.setP_th_spin (s : State) (r : PReg) (v : Word) : (s.setP r v).th.spin = s.th.spin := rfl
@[simp] theorem State.setP_th_qans (s : State) (r : PReg) (v : Word) : (s.setP r v).th.qans = s.th.qans := rfl
@[simp] theorem State.setP_th_polling (s : State) (r : PReg) (v : Word) : (s.setP r v).th.polling = s.th.polling := rfl
@[simp] theorem State.setP_th_ending (s : State) (r : PReg) (v : Word) : (s.setP r v).th.ending = s.th.ending := rfl
@[simp] theorem State.setP_th_atBar (s : State) (r : PReg) (v : Word) : (s.setP r v).th.atBar = s.th.atBar := rfl
@[simp] theorem State.setP_th_mcStop (s : State) (r : PReg) (v : Word) : (s.setP r v).th.mcStop = s.th.mcStop := rfl
@[simp] theorem State.setP_th_recent (s : State) (r : PReg) (v : Word) : (s.setP r v).th.recent = s.th.recent := rfl
@[simp] theorem State.setP_th_flight (s : State) (r : PReg) (v : Word) : (s.setP r v).th.flight = s.th.flight := rfl

@[simp] theorem State.setPc_slot (s : State) (pc : Word) : (s.setPc pc).slot = s.slot := rfl
@[simp] theorem State.setPc_core (s : State) (pc : Word) : (s.setPc pc).core = s.core := rfl
@[simp] theorem State.setPc_coreId (s : State) (pc : Word) : (s.setPc pc).coreId = s.coreId := rfl
@[simp] theorem State.setPc_others (s : State) (pc : Word) : (s.setPc pc).others = s.others := rfl
@[simp] theorem State.setPc_store (s : State) (pc : Word) : (s.setPc pc).store = s.store := rfl
@[simp] theorem State.setPc_fab (s : State) (pc : Word) : (s.setPc pc).fab = s.fab := rfl
@[simp] theorem State.setPc_boot (s : State) (pc : Word) : (s.setPc pc).boot = s.boot := rfl
@[simp] theorem State.setPc_harvest (s : State) (pc : Word) : (s.setPc pc).harvest = s.harvest := rfl
@[simp] theorem State.setPc_drowsyThresh (s : State) (pc : Word) : (s.setPc pc).drowsyThresh = s.drowsyThresh := rfl
@[simp] theorem State.setPc_ctxtab (s : State) (pc : Word) : (s.setPc pc).ctxtab = s.ctxtab := rfl
@[simp] theorem State.setPc_recmap (s : State) (pc : Word) : (s.setPc pc).recmap = s.recmap := rfl
@[simp] theorem State.setPc_time (s : State) (pc : Word) : (s.setPc pc).time = s.time := rfl
@[simp] theorem State.setPc_seq (s : State) (pc : Word) : (s.setPc pc).seq = s.seq := rfl
@[simp] theorem State.setPc_lag (s : State) (pc : Word) : (s.setPc pc).lag = s.lag := rfl
@[simp] theorem State.setPc_free (s : State) (pc : Word) : (s.setPc pc).free = s.free := rfl
@[simp] theorem State.setPc_schedule (s : State) (pc : Word) : (s.setPc pc).schedule = s.schedule := rfl
@[simp] theorem State.setPc_ev (s : State) (pc : Word) : (s.setPc pc).ev = s.ev := rfl
@[simp] theorem State.setPc_th_occ (s : State) (pc : Word) : (s.setPc pc).th.occ = s.th.occ := rfl
@[simp] theorem State.setPc_th_s (s : State) (pc : Word) : (s.setPc pc).th.s = s.th.s := rfl
@[simp] theorem State.setPc_th_k (s : State) (pc : Word) : (s.setPc pc).th.k = s.th.k := rfl
@[simp] theorem State.setPc_th_p (s : State) (pc : Word) : (s.setPc pc).th.p = s.th.p := rfl
@[simp] theorem State.setPc_th_psz (s : State) (pc : Word) : (s.setPc pc).th.psz = s.th.psz := rfl
@[simp] theorem State.setPc_th_vec (s : State) (pc : Word) : (s.setPc pc).th.vec = s.th.vec := rfl
@[simp] theorem State.setPc_th_lcount (s : State) (pc : Word) : (s.setPc pc).th.lcount = s.th.lcount := rfl
@[simp] theorem State.setPc_th_laneBusy (s : State) (pc : Word) : (s.setPc pc).th.laneBusy = s.th.laneBusy := rfl
@[simp] theorem State.setPc_th_tframe (s : State) (pc : Word) : (s.setPc pc).th.tframe = s.th.tframe := rfl
@[simp] theorem State.setPc_th_level (s : State) (pc : Word) : (s.setPc pc).th.level = s.th.level := rfl
@[simp] theorem State.setPc_th_intrap (s : State) (pc : Word) : (s.setPc pc).th.intrap = s.th.intrap := rfl
@[simp] theorem State.setPc_th_imask (s : State) (pc : Word) : (s.setPc pc).th.imask = s.th.imask := rfl
@[simp] theorem State.setPc_th_gen (s : State) (pc : Word) : (s.setPc pc).th.gen = s.th.gen := rfl
@[simp] theorem State.setPc_th_acqL1 (s : State) (pc : Word) : (s.setPc pc).th.acqL1 = s.th.acqL1 := rfl
@[simp] theorem State.setPc_th_acqRdc (s : State) (pc : Word) : (s.setPc pc).th.acqRdc = s.th.acqRdc := rfl
@[simp] theorem State.setPc_th_convoy (s : State) (pc : Word) : (s.setPc pc).th.convoy = s.th.convoy := rfl
@[simp] theorem State.setPc_th_issue (s : State) (pc : Word) : (s.setPc pc).th.issue = s.th.issue := rfl
@[simp] theorem State.setPc_th_replay (s : State) (pc : Word) : (s.setPc pc).th.replay = s.th.replay := rfl
@[simp] theorem State.setPc_th_rtn (s : State) (pc : Word) : (s.setPc pc).th.rtn = s.th.rtn := rfl
@[simp] theorem State.setPc_th_vp (s : State) (pc : Word) : (s.setPc pc).th.vp = s.th.vp := rfl
@[simp] theorem State.setPc_th_vpHeld (s : State) (pc : Word) : (s.setPc pc).th.vpHeld = s.th.vpHeld := rfl
@[simp] theorem State.setPc_th_rwatch (s : State) (pc : Word) : (s.setPc pc).th.rwatch = s.th.rwatch := rfl
@[simp] theorem State.setPc_th_wait (s : State) (pc : Word) : (s.setPc pc).th.wait = s.th.wait := rfl
@[simp] theorem State.setPc_th_spin (s : State) (pc : Word) : (s.setPc pc).th.spin = s.th.spin := rfl
@[simp] theorem State.setPc_th_qans (s : State) (pc : Word) : (s.setPc pc).th.qans = s.th.qans := rfl
@[simp] theorem State.setPc_th_polling (s : State) (pc : Word) : (s.setPc pc).th.polling = s.th.polling := rfl
@[simp] theorem State.setPc_th_ending (s : State) (pc : Word) : (s.setPc pc).th.ending = s.th.ending := rfl
@[simp] theorem State.setPc_th_atBar (s : State) (pc : Word) : (s.setPc pc).th.atBar = s.th.atBar := rfl
@[simp] theorem State.setPc_th_mcStop (s : State) (pc : Word) : (s.setPc pc).th.mcStop = s.th.mcStop := rfl
@[simp] theorem State.setPc_th_recent (s : State) (pc : Word) : (s.setPc pc).th.recent = s.th.recent := rfl
@[simp] theorem State.setPc_th_flight (s : State) (pc : Word) : (s.setPc pc).th.flight = s.th.flight := rfl

@[simp] theorem State.advance_slot (s : State) (n : Nat) : (s.advance n).slot = s.slot := rfl
@[simp] theorem State.advance_core (s : State) (n : Nat) : (s.advance n).core = s.core := rfl
@[simp] theorem State.advance_coreId (s : State) (n : Nat) : (s.advance n).coreId = s.coreId := rfl
@[simp] theorem State.advance_others (s : State) (n : Nat) : (s.advance n).others = s.others := rfl
@[simp] theorem State.advance_store (s : State) (n : Nat) : (s.advance n).store = s.store := rfl
@[simp] theorem State.advance_fab (s : State) (n : Nat) : (s.advance n).fab = s.fab := rfl
@[simp] theorem State.advance_boot (s : State) (n : Nat) : (s.advance n).boot = s.boot := rfl
@[simp] theorem State.advance_harvest (s : State) (n : Nat) : (s.advance n).harvest = s.harvest := rfl
@[simp] theorem State.advance_drowsyThresh (s : State) (n : Nat) : (s.advance n).drowsyThresh = s.drowsyThresh := rfl
@[simp] theorem State.advance_ctxtab (s : State) (n : Nat) : (s.advance n).ctxtab = s.ctxtab := rfl
@[simp] theorem State.advance_recmap (s : State) (n : Nat) : (s.advance n).recmap = s.recmap := rfl
@[simp] theorem State.advance_time (s : State) (n : Nat) : (s.advance n).time = s.time := rfl
@[simp] theorem State.advance_seq (s : State) (n : Nat) : (s.advance n).seq = s.seq := rfl
@[simp] theorem State.advance_lag (s : State) (n : Nat) : (s.advance n).lag = s.lag := rfl
@[simp] theorem State.advance_free (s : State) (n : Nat) : (s.advance n).free = s.free := rfl
@[simp] theorem State.advance_schedule (s : State) (n : Nat) : (s.advance n).schedule = s.schedule := rfl
@[simp] theorem State.advance_ev (s : State) (n : Nat) : (s.advance n).ev = s.ev := rfl
@[simp] theorem State.advance_th_occ (s : State) (n : Nat) : (s.advance n).th.occ = s.th.occ := rfl
@[simp] theorem State.advance_th_s (s : State) (n : Nat) : (s.advance n).th.s = s.th.s := rfl
@[simp] theorem State.advance_th_k (s : State) (n : Nat) : (s.advance n).th.k = s.th.k := rfl
@[simp] theorem State.advance_th_p (s : State) (n : Nat) : (s.advance n).th.p = s.th.p := rfl
@[simp] theorem State.advance_th_psz (s : State) (n : Nat) : (s.advance n).th.psz = s.th.psz := rfl
@[simp] theorem State.advance_th_vec (s : State) (n : Nat) : (s.advance n).th.vec = s.th.vec := rfl
@[simp] theorem State.advance_th_lcount (s : State) (n : Nat) : (s.advance n).th.lcount = s.th.lcount := rfl
@[simp] theorem State.advance_th_laneBusy (s : State) (n : Nat) : (s.advance n).th.laneBusy = s.th.laneBusy := rfl
@[simp] theorem State.advance_th_tframe (s : State) (n : Nat) : (s.advance n).th.tframe = s.th.tframe := rfl
@[simp] theorem State.advance_th_level (s : State) (n : Nat) : (s.advance n).th.level = s.th.level := rfl
@[simp] theorem State.advance_th_intrap (s : State) (n : Nat) : (s.advance n).th.intrap = s.th.intrap := rfl
@[simp] theorem State.advance_th_imask (s : State) (n : Nat) : (s.advance n).th.imask = s.th.imask := rfl
@[simp] theorem State.advance_th_gen (s : State) (n : Nat) : (s.advance n).th.gen = s.th.gen := rfl
@[simp] theorem State.advance_th_acqL1 (s : State) (n : Nat) : (s.advance n).th.acqL1 = s.th.acqL1 := rfl
@[simp] theorem State.advance_th_acqRdc (s : State) (n : Nat) : (s.advance n).th.acqRdc = s.th.acqRdc := rfl
@[simp] theorem State.advance_th_convoy (s : State) (n : Nat) : (s.advance n).th.convoy = s.th.convoy := rfl
@[simp] theorem State.advance_th_issue (s : State) (n : Nat) : (s.advance n).th.issue = s.th.issue := rfl
@[simp] theorem State.advance_th_replay (s : State) (n : Nat) : (s.advance n).th.replay = s.th.replay := rfl
@[simp] theorem State.advance_th_rtn (s : State) (n : Nat) : (s.advance n).th.rtn = s.th.rtn := rfl
@[simp] theorem State.advance_th_vp (s : State) (n : Nat) : (s.advance n).th.vp = s.th.vp := rfl
@[simp] theorem State.advance_th_vpHeld (s : State) (n : Nat) : (s.advance n).th.vpHeld = s.th.vpHeld := rfl
@[simp] theorem State.advance_th_rwatch (s : State) (n : Nat) : (s.advance n).th.rwatch = s.th.rwatch := rfl
@[simp] theorem State.advance_th_wait (s : State) (n : Nat) : (s.advance n).th.wait = s.th.wait := rfl
@[simp] theorem State.advance_th_spin (s : State) (n : Nat) : (s.advance n).th.spin = s.th.spin := rfl
@[simp] theorem State.advance_th_qans (s : State) (n : Nat) : (s.advance n).th.qans = s.th.qans := rfl
@[simp] theorem State.advance_th_polling (s : State) (n : Nat) : (s.advance n).th.polling = s.th.polling := rfl
@[simp] theorem State.advance_th_ending (s : State) (n : Nat) : (s.advance n).th.ending = s.th.ending := rfl
@[simp] theorem State.advance_th_atBar (s : State) (n : Nat) : (s.advance n).th.atBar = s.th.atBar := rfl
@[simp] theorem State.advance_th_mcStop (s : State) (n : Nat) : (s.advance n).th.mcStop = s.th.mcStop := rfl
@[simp] theorem State.advance_th_recent (s : State) (n : Nat) : (s.advance n).th.recent = s.th.recent := rfl
@[simp] theorem State.advance_th_flight (s : State) (n : Nat) : (s.advance n).th.flight = s.th.flight := rfl

@[simp] theorem State.raise_slot (s : State) (fx : BitVec 5) : (s.raise fx).slot = s.slot := rfl
@[simp] theorem State.raise_core (s : State) (fx : BitVec 5) : (s.raise fx).core = s.core := rfl
@[simp] theorem State.raise_coreId (s : State) (fx : BitVec 5) : (s.raise fx).coreId = s.coreId := rfl
@[simp] theorem State.raise_others (s : State) (fx : BitVec 5) : (s.raise fx).others = s.others := rfl
@[simp] theorem State.raise_store (s : State) (fx : BitVec 5) : (s.raise fx).store = s.store := rfl
@[simp] theorem State.raise_fab (s : State) (fx : BitVec 5) : (s.raise fx).fab = s.fab := rfl
@[simp] theorem State.raise_boot (s : State) (fx : BitVec 5) : (s.raise fx).boot = s.boot := rfl
@[simp] theorem State.raise_harvest (s : State) (fx : BitVec 5) : (s.raise fx).harvest = s.harvest := rfl
@[simp] theorem State.raise_drowsyThresh (s : State) (fx : BitVec 5) : (s.raise fx).drowsyThresh = s.drowsyThresh := rfl
@[simp] theorem State.raise_ctxtab (s : State) (fx : BitVec 5) : (s.raise fx).ctxtab = s.ctxtab := rfl
@[simp] theorem State.raise_recmap (s : State) (fx : BitVec 5) : (s.raise fx).recmap = s.recmap := rfl
@[simp] theorem State.raise_time (s : State) (fx : BitVec 5) : (s.raise fx).time = s.time := rfl
@[simp] theorem State.raise_seq (s : State) (fx : BitVec 5) : (s.raise fx).seq = s.seq := rfl
@[simp] theorem State.raise_lag (s : State) (fx : BitVec 5) : (s.raise fx).lag = s.lag := rfl
@[simp] theorem State.raise_free (s : State) (fx : BitVec 5) : (s.raise fx).free = s.free := rfl
@[simp] theorem State.raise_schedule (s : State) (fx : BitVec 5) : (s.raise fx).schedule = s.schedule := rfl
@[simp] theorem State.raise_ev (s : State) (fx : BitVec 5) : (s.raise fx).ev = s.ev := rfl
@[simp] theorem State.raise_th_occ (s : State) (fx : BitVec 5) : (s.raise fx).th.occ = s.th.occ := rfl
@[simp] theorem State.raise_th_pc (s : State) (fx : BitVec 5) : (s.raise fx).th.pc = s.th.pc := rfl
@[simp] theorem State.raise_th_s (s : State) (fx : BitVec 5) : (s.raise fx).th.s = s.th.s := rfl
@[simp] theorem State.raise_th_k (s : State) (fx : BitVec 5) : (s.raise fx).th.k = s.th.k := rfl
@[simp] theorem State.raise_th_p (s : State) (fx : BitVec 5) : (s.raise fx).th.p = s.th.p := rfl
@[simp] theorem State.raise_th_psz (s : State) (fx : BitVec 5) : (s.raise fx).th.psz = s.th.psz := rfl
@[simp] theorem State.raise_th_lcount (s : State) (fx : BitVec 5) : (s.raise fx).th.lcount = s.th.lcount := rfl
@[simp] theorem State.raise_th_laneBusy (s : State) (fx : BitVec 5) : (s.raise fx).th.laneBusy = s.th.laneBusy := rfl
@[simp] theorem State.raise_th_tframe (s : State) (fx : BitVec 5) : (s.raise fx).th.tframe = s.th.tframe := rfl
@[simp] theorem State.raise_th_level (s : State) (fx : BitVec 5) : (s.raise fx).th.level = s.th.level := rfl
@[simp] theorem State.raise_th_intrap (s : State) (fx : BitVec 5) : (s.raise fx).th.intrap = s.th.intrap := rfl
@[simp] theorem State.raise_th_imask (s : State) (fx : BitVec 5) : (s.raise fx).th.imask = s.th.imask := rfl
@[simp] theorem State.raise_th_gen (s : State) (fx : BitVec 5) : (s.raise fx).th.gen = s.th.gen := rfl
@[simp] theorem State.raise_th_acqL1 (s : State) (fx : BitVec 5) : (s.raise fx).th.acqL1 = s.th.acqL1 := rfl
@[simp] theorem State.raise_th_acqRdc (s : State) (fx : BitVec 5) : (s.raise fx).th.acqRdc = s.th.acqRdc := rfl
@[simp] theorem State.raise_th_convoy (s : State) (fx : BitVec 5) : (s.raise fx).th.convoy = s.th.convoy := rfl
@[simp] theorem State.raise_th_issue (s : State) (fx : BitVec 5) : (s.raise fx).th.issue = s.th.issue := rfl
@[simp] theorem State.raise_th_replay (s : State) (fx : BitVec 5) : (s.raise fx).th.replay = s.th.replay := rfl
@[simp] theorem State.raise_th_rtn (s : State) (fx : BitVec 5) : (s.raise fx).th.rtn = s.th.rtn := rfl
@[simp] theorem State.raise_th_vp (s : State) (fx : BitVec 5) : (s.raise fx).th.vp = s.th.vp := rfl
@[simp] theorem State.raise_th_vpHeld (s : State) (fx : BitVec 5) : (s.raise fx).th.vpHeld = s.th.vpHeld := rfl
@[simp] theorem State.raise_th_rwatch (s : State) (fx : BitVec 5) : (s.raise fx).th.rwatch = s.th.rwatch := rfl
@[simp] theorem State.raise_th_wait (s : State) (fx : BitVec 5) : (s.raise fx).th.wait = s.th.wait := rfl
@[simp] theorem State.raise_th_spin (s : State) (fx : BitVec 5) : (s.raise fx).th.spin = s.th.spin := rfl
@[simp] theorem State.raise_th_qans (s : State) (fx : BitVec 5) : (s.raise fx).th.qans = s.th.qans := rfl
@[simp] theorem State.raise_th_polling (s : State) (fx : BitVec 5) : (s.raise fx).th.polling = s.th.polling := rfl
@[simp] theorem State.raise_th_ending (s : State) (fx : BitVec 5) : (s.raise fx).th.ending = s.th.ending := rfl
@[simp] theorem State.raise_th_atBar (s : State) (fx : BitVec 5) : (s.raise fx).th.atBar = s.th.atBar := rfl
@[simp] theorem State.raise_th_mcStop (s : State) (fx : BitVec 5) : (s.raise fx).th.mcStop = s.th.mcStop := rfl
@[simp] theorem State.raise_th_recent (s : State) (fx : BitVec 5) : (s.raise fx).th.recent = s.th.recent := rfl
@[simp] theorem State.raise_th_flight (s : State) (fx : BitVec 5) : (s.raise fx).th.flight = s.th.flight := rfl

@[simp] theorem State.setV_slot (s : State) (r : VReg) (x : VRegister) : (s.setV r x).slot = s.slot := rfl
@[simp] theorem State.setV_core (s : State) (r : VReg) (x : VRegister) : (s.setV r x).core = s.core := rfl
@[simp] theorem State.setV_coreId (s : State) (r : VReg) (x : VRegister) : (s.setV r x).coreId = s.coreId := rfl
@[simp] theorem State.setV_others (s : State) (r : VReg) (x : VRegister) : (s.setV r x).others = s.others := rfl
@[simp] theorem State.setV_store (s : State) (r : VReg) (x : VRegister) : (s.setV r x).store = s.store := rfl
@[simp] theorem State.setV_fab (s : State) (r : VReg) (x : VRegister) : (s.setV r x).fab = s.fab := rfl
@[simp] theorem State.setV_boot (s : State) (r : VReg) (x : VRegister) : (s.setV r x).boot = s.boot := rfl
@[simp] theorem State.setV_harvest (s : State) (r : VReg) (x : VRegister) : (s.setV r x).harvest = s.harvest := rfl
@[simp] theorem State.setV_drowsyThresh (s : State) (r : VReg) (x : VRegister) : (s.setV r x).drowsyThresh = s.drowsyThresh := rfl
@[simp] theorem State.setV_ctxtab (s : State) (r : VReg) (x : VRegister) : (s.setV r x).ctxtab = s.ctxtab := rfl
@[simp] theorem State.setV_recmap (s : State) (r : VReg) (x : VRegister) : (s.setV r x).recmap = s.recmap := rfl
@[simp] theorem State.setV_time (s : State) (r : VReg) (x : VRegister) : (s.setV r x).time = s.time := rfl
@[simp] theorem State.setV_seq (s : State) (r : VReg) (x : VRegister) : (s.setV r x).seq = s.seq := rfl
@[simp] theorem State.setV_lag (s : State) (r : VReg) (x : VRegister) : (s.setV r x).lag = s.lag := rfl
@[simp] theorem State.setV_free (s : State) (r : VReg) (x : VRegister) : (s.setV r x).free = s.free := rfl
@[simp] theorem State.setV_schedule (s : State) (r : VReg) (x : VRegister) : (s.setV r x).schedule = s.schedule := rfl
@[simp] theorem State.setV_ev (s : State) (r : VReg) (x : VRegister) : (s.setV r x).ev = s.ev := rfl
@[simp] theorem State.setV_th_occ (s : State) (r : VReg) (x : VRegister) : (s.setV r x).th.occ = s.th.occ := rfl
@[simp] theorem State.setV_th_pc (s : State) (r : VReg) (x : VRegister) : (s.setV r x).th.pc = s.th.pc := rfl
@[simp] theorem State.setV_th_s (s : State) (r : VReg) (x : VRegister) : (s.setV r x).th.s = s.th.s := rfl
@[simp] theorem State.setV_th_k (s : State) (r : VReg) (x : VRegister) : (s.setV r x).th.k = s.th.k := rfl
@[simp] theorem State.setV_th_p (s : State) (r : VReg) (x : VRegister) : (s.setV r x).th.p = s.th.p := rfl
@[simp] theorem State.setV_th_psz (s : State) (r : VReg) (x : VRegister) : (s.setV r x).th.psz = s.th.psz := rfl
@[simp] theorem State.setV_th_lcount (s : State) (r : VReg) (x : VRegister) : (s.setV r x).th.lcount = s.th.lcount := rfl
@[simp] theorem State.setV_th_laneBusy (s : State) (r : VReg) (x : VRegister) : (s.setV r x).th.laneBusy = s.th.laneBusy := rfl
@[simp] theorem State.setV_th_tframe (s : State) (r : VReg) (x : VRegister) : (s.setV r x).th.tframe = s.th.tframe := rfl
@[simp] theorem State.setV_th_level (s : State) (r : VReg) (x : VRegister) : (s.setV r x).th.level = s.th.level := rfl
@[simp] theorem State.setV_th_intrap (s : State) (r : VReg) (x : VRegister) : (s.setV r x).th.intrap = s.th.intrap := rfl
@[simp] theorem State.setV_th_imask (s : State) (r : VReg) (x : VRegister) : (s.setV r x).th.imask = s.th.imask := rfl
@[simp] theorem State.setV_th_gen (s : State) (r : VReg) (x : VRegister) : (s.setV r x).th.gen = s.th.gen := rfl
@[simp] theorem State.setV_th_acqL1 (s : State) (r : VReg) (x : VRegister) : (s.setV r x).th.acqL1 = s.th.acqL1 := rfl
@[simp] theorem State.setV_th_acqRdc (s : State) (r : VReg) (x : VRegister) : (s.setV r x).th.acqRdc = s.th.acqRdc := rfl
@[simp] theorem State.setV_th_convoy (s : State) (r : VReg) (x : VRegister) : (s.setV r x).th.convoy = s.th.convoy := rfl
@[simp] theorem State.setV_th_issue (s : State) (r : VReg) (x : VRegister) : (s.setV r x).th.issue = s.th.issue := rfl
@[simp] theorem State.setV_th_replay (s : State) (r : VReg) (x : VRegister) : (s.setV r x).th.replay = s.th.replay := rfl
@[simp] theorem State.setV_th_rtn (s : State) (r : VReg) (x : VRegister) : (s.setV r x).th.rtn = s.th.rtn := rfl
@[simp] theorem State.setV_th_vp (s : State) (r : VReg) (x : VRegister) : (s.setV r x).th.vp = s.th.vp := rfl
@[simp] theorem State.setV_th_vpHeld (s : State) (r : VReg) (x : VRegister) : (s.setV r x).th.vpHeld = s.th.vpHeld := rfl
@[simp] theorem State.setV_th_rwatch (s : State) (r : VReg) (x : VRegister) : (s.setV r x).th.rwatch = s.th.rwatch := rfl
@[simp] theorem State.setV_th_wait (s : State) (r : VReg) (x : VRegister) : (s.setV r x).th.wait = s.th.wait := rfl
@[simp] theorem State.setV_th_spin (s : State) (r : VReg) (x : VRegister) : (s.setV r x).th.spin = s.th.spin := rfl
@[simp] theorem State.setV_th_qans (s : State) (r : VReg) (x : VRegister) : (s.setV r x).th.qans = s.th.qans := rfl
@[simp] theorem State.setV_th_polling (s : State) (r : VReg) (x : VRegister) : (s.setV r x).th.polling = s.th.polling := rfl
@[simp] theorem State.setV_th_ending (s : State) (r : VReg) (x : VRegister) : (s.setV r x).th.ending = s.th.ending := rfl
@[simp] theorem State.setV_th_atBar (s : State) (r : VReg) (x : VRegister) : (s.setV r x).th.atBar = s.th.atBar := rfl
@[simp] theorem State.setV_th_mcStop (s : State) (r : VReg) (x : VRegister) : (s.setV r x).th.mcStop = s.th.mcStop := rfl
@[simp] theorem State.setV_th_recent (s : State) (r : VReg) (x : VRegister) : (s.setV r x).th.recent = s.th.recent := rfl
@[simp] theorem State.setV_th_flight (s : State) (r : VReg) (x : VRegister) : (s.setV r x).th.flight = s.th.flight := rfl

@[simp] theorem State.setM_slot (s : State) (m : Fin 8) (x : Nat) : (s.setM m x).slot = s.slot := rfl
@[simp] theorem State.setM_core (s : State) (m : Fin 8) (x : Nat) : (s.setM m x).core = s.core := rfl
@[simp] theorem State.setM_coreId (s : State) (m : Fin 8) (x : Nat) : (s.setM m x).coreId = s.coreId := rfl
@[simp] theorem State.setM_others (s : State) (m : Fin 8) (x : Nat) : (s.setM m x).others = s.others := rfl
@[simp] theorem State.setM_store (s : State) (m : Fin 8) (x : Nat) : (s.setM m x).store = s.store := rfl
@[simp] theorem State.setM_fab (s : State) (m : Fin 8) (x : Nat) : (s.setM m x).fab = s.fab := rfl
@[simp] theorem State.setM_boot (s : State) (m : Fin 8) (x : Nat) : (s.setM m x).boot = s.boot := rfl
@[simp] theorem State.setM_harvest (s : State) (m : Fin 8) (x : Nat) : (s.setM m x).harvest = s.harvest := rfl
@[simp] theorem State.setM_drowsyThresh (s : State) (m : Fin 8) (x : Nat) : (s.setM m x).drowsyThresh = s.drowsyThresh := rfl
@[simp] theorem State.setM_ctxtab (s : State) (m : Fin 8) (x : Nat) : (s.setM m x).ctxtab = s.ctxtab := rfl
@[simp] theorem State.setM_recmap (s : State) (m : Fin 8) (x : Nat) : (s.setM m x).recmap = s.recmap := rfl
@[simp] theorem State.setM_time (s : State) (m : Fin 8) (x : Nat) : (s.setM m x).time = s.time := rfl
@[simp] theorem State.setM_seq (s : State) (m : Fin 8) (x : Nat) : (s.setM m x).seq = s.seq := rfl
@[simp] theorem State.setM_lag (s : State) (m : Fin 8) (x : Nat) : (s.setM m x).lag = s.lag := rfl
@[simp] theorem State.setM_free (s : State) (m : Fin 8) (x : Nat) : (s.setM m x).free = s.free := rfl
@[simp] theorem State.setM_schedule (s : State) (m : Fin 8) (x : Nat) : (s.setM m x).schedule = s.schedule := rfl
@[simp] theorem State.setM_ev (s : State) (m : Fin 8) (x : Nat) : (s.setM m x).ev = s.ev := rfl
@[simp] theorem State.setM_th_occ (s : State) (m : Fin 8) (x : Nat) : (s.setM m x).th.occ = s.th.occ := rfl
@[simp] theorem State.setM_th_pc (s : State) (m : Fin 8) (x : Nat) : (s.setM m x).th.pc = s.th.pc := rfl
@[simp] theorem State.setM_th_s (s : State) (m : Fin 8) (x : Nat) : (s.setM m x).th.s = s.th.s := rfl
@[simp] theorem State.setM_th_k (s : State) (m : Fin 8) (x : Nat) : (s.setM m x).th.k = s.th.k := rfl
@[simp] theorem State.setM_th_p (s : State) (m : Fin 8) (x : Nat) : (s.setM m x).th.p = s.th.p := rfl
@[simp] theorem State.setM_th_psz (s : State) (m : Fin 8) (x : Nat) : (s.setM m x).th.psz = s.th.psz := rfl
@[simp] theorem State.setM_th_lcount (s : State) (m : Fin 8) (x : Nat) : (s.setM m x).th.lcount = s.th.lcount := rfl
@[simp] theorem State.setM_th_laneBusy (s : State) (m : Fin 8) (x : Nat) : (s.setM m x).th.laneBusy = s.th.laneBusy := rfl
@[simp] theorem State.setM_th_tframe (s : State) (m : Fin 8) (x : Nat) : (s.setM m x).th.tframe = s.th.tframe := rfl
@[simp] theorem State.setM_th_level (s : State) (m : Fin 8) (x : Nat) : (s.setM m x).th.level = s.th.level := rfl
@[simp] theorem State.setM_th_intrap (s : State) (m : Fin 8) (x : Nat) : (s.setM m x).th.intrap = s.th.intrap := rfl
@[simp] theorem State.setM_th_imask (s : State) (m : Fin 8) (x : Nat) : (s.setM m x).th.imask = s.th.imask := rfl
@[simp] theorem State.setM_th_gen (s : State) (m : Fin 8) (x : Nat) : (s.setM m x).th.gen = s.th.gen := rfl
@[simp] theorem State.setM_th_acqL1 (s : State) (m : Fin 8) (x : Nat) : (s.setM m x).th.acqL1 = s.th.acqL1 := rfl
@[simp] theorem State.setM_th_acqRdc (s : State) (m : Fin 8) (x : Nat) : (s.setM m x).th.acqRdc = s.th.acqRdc := rfl
@[simp] theorem State.setM_th_convoy (s : State) (m : Fin 8) (x : Nat) : (s.setM m x).th.convoy = s.th.convoy := rfl
@[simp] theorem State.setM_th_issue (s : State) (m : Fin 8) (x : Nat) : (s.setM m x).th.issue = s.th.issue := rfl
@[simp] theorem State.setM_th_replay (s : State) (m : Fin 8) (x : Nat) : (s.setM m x).th.replay = s.th.replay := rfl
@[simp] theorem State.setM_th_rtn (s : State) (m : Fin 8) (x : Nat) : (s.setM m x).th.rtn = s.th.rtn := rfl
@[simp] theorem State.setM_th_vp (s : State) (m : Fin 8) (x : Nat) : (s.setM m x).th.vp = s.th.vp := rfl
@[simp] theorem State.setM_th_vpHeld (s : State) (m : Fin 8) (x : Nat) : (s.setM m x).th.vpHeld = s.th.vpHeld := rfl
@[simp] theorem State.setM_th_rwatch (s : State) (m : Fin 8) (x : Nat) : (s.setM m x).th.rwatch = s.th.rwatch := rfl
@[simp] theorem State.setM_th_wait (s : State) (m : Fin 8) (x : Nat) : (s.setM m x).th.wait = s.th.wait := rfl
@[simp] theorem State.setM_th_spin (s : State) (m : Fin 8) (x : Nat) : (s.setM m x).th.spin = s.th.spin := rfl
@[simp] theorem State.setM_th_qans (s : State) (m : Fin 8) (x : Nat) : (s.setM m x).th.qans = s.th.qans := rfl
@[simp] theorem State.setM_th_polling (s : State) (m : Fin 8) (x : Nat) : (s.setM m x).th.polling = s.th.polling := rfl
@[simp] theorem State.setM_th_ending (s : State) (m : Fin 8) (x : Nat) : (s.setM m x).th.ending = s.th.ending := rfl
@[simp] theorem State.setM_th_atBar (s : State) (m : Fin 8) (x : Nat) : (s.setM m x).th.atBar = s.th.atBar := rfl
@[simp] theorem State.setM_th_mcStop (s : State) (m : Fin 8) (x : Nat) : (s.setM m x).th.mcStop = s.th.mcStop := rfl
@[simp] theorem State.setM_th_recent (s : State) (m : Fin 8) (x : Nat) : (s.setM m x).th.recent = s.th.recent := rfl
@[simp] theorem State.setM_th_flight (s : State) (m : Fin 8) (x : Nat) : (s.setM m x).th.flight = s.th.flight := rfl

@[simp] theorem State.setO_slot (s : State) (e : Fin 8) (x : Blob) : (s.setO e x).slot = s.slot := rfl
@[simp] theorem State.setO_core (s : State) (e : Fin 8) (x : Blob) : (s.setO e x).core = s.core := rfl
@[simp] theorem State.setO_coreId (s : State) (e : Fin 8) (x : Blob) : (s.setO e x).coreId = s.coreId := rfl
@[simp] theorem State.setO_others (s : State) (e : Fin 8) (x : Blob) : (s.setO e x).others = s.others := rfl
@[simp] theorem State.setO_store (s : State) (e : Fin 8) (x : Blob) : (s.setO e x).store = s.store := rfl
@[simp] theorem State.setO_fab (s : State) (e : Fin 8) (x : Blob) : (s.setO e x).fab = s.fab := rfl
@[simp] theorem State.setO_boot (s : State) (e : Fin 8) (x : Blob) : (s.setO e x).boot = s.boot := rfl
@[simp] theorem State.setO_harvest (s : State) (e : Fin 8) (x : Blob) : (s.setO e x).harvest = s.harvest := rfl
@[simp] theorem State.setO_drowsyThresh (s : State) (e : Fin 8) (x : Blob) : (s.setO e x).drowsyThresh = s.drowsyThresh := rfl
@[simp] theorem State.setO_ctxtab (s : State) (e : Fin 8) (x : Blob) : (s.setO e x).ctxtab = s.ctxtab := rfl
@[simp] theorem State.setO_recmap (s : State) (e : Fin 8) (x : Blob) : (s.setO e x).recmap = s.recmap := rfl
@[simp] theorem State.setO_time (s : State) (e : Fin 8) (x : Blob) : (s.setO e x).time = s.time := rfl
@[simp] theorem State.setO_seq (s : State) (e : Fin 8) (x : Blob) : (s.setO e x).seq = s.seq := rfl
@[simp] theorem State.setO_lag (s : State) (e : Fin 8) (x : Blob) : (s.setO e x).lag = s.lag := rfl
@[simp] theorem State.setO_free (s : State) (e : Fin 8) (x : Blob) : (s.setO e x).free = s.free := rfl
@[simp] theorem State.setO_schedule (s : State) (e : Fin 8) (x : Blob) : (s.setO e x).schedule = s.schedule := rfl
@[simp] theorem State.setO_ev (s : State) (e : Fin 8) (x : Blob) : (s.setO e x).ev = s.ev := rfl
@[simp] theorem State.setO_th_occ (s : State) (e : Fin 8) (x : Blob) : (s.setO e x).th.occ = s.th.occ := rfl
@[simp] theorem State.setO_th_pc (s : State) (e : Fin 8) (x : Blob) : (s.setO e x).th.pc = s.th.pc := rfl
@[simp] theorem State.setO_th_s (s : State) (e : Fin 8) (x : Blob) : (s.setO e x).th.s = s.th.s := rfl
@[simp] theorem State.setO_th_k (s : State) (e : Fin 8) (x : Blob) : (s.setO e x).th.k = s.th.k := rfl
@[simp] theorem State.setO_th_p (s : State) (e : Fin 8) (x : Blob) : (s.setO e x).th.p = s.th.p := rfl
@[simp] theorem State.setO_th_psz (s : State) (e : Fin 8) (x : Blob) : (s.setO e x).th.psz = s.th.psz := rfl
@[simp] theorem State.setO_th_lcount (s : State) (e : Fin 8) (x : Blob) : (s.setO e x).th.lcount = s.th.lcount := rfl
@[simp] theorem State.setO_th_laneBusy (s : State) (e : Fin 8) (x : Blob) : (s.setO e x).th.laneBusy = s.th.laneBusy := rfl
@[simp] theorem State.setO_th_tframe (s : State) (e : Fin 8) (x : Blob) : (s.setO e x).th.tframe = s.th.tframe := rfl
@[simp] theorem State.setO_th_level (s : State) (e : Fin 8) (x : Blob) : (s.setO e x).th.level = s.th.level := rfl
@[simp] theorem State.setO_th_intrap (s : State) (e : Fin 8) (x : Blob) : (s.setO e x).th.intrap = s.th.intrap := rfl
@[simp] theorem State.setO_th_imask (s : State) (e : Fin 8) (x : Blob) : (s.setO e x).th.imask = s.th.imask := rfl
@[simp] theorem State.setO_th_gen (s : State) (e : Fin 8) (x : Blob) : (s.setO e x).th.gen = s.th.gen := rfl
@[simp] theorem State.setO_th_acqL1 (s : State) (e : Fin 8) (x : Blob) : (s.setO e x).th.acqL1 = s.th.acqL1 := rfl
@[simp] theorem State.setO_th_acqRdc (s : State) (e : Fin 8) (x : Blob) : (s.setO e x).th.acqRdc = s.th.acqRdc := rfl
@[simp] theorem State.setO_th_convoy (s : State) (e : Fin 8) (x : Blob) : (s.setO e x).th.convoy = s.th.convoy := rfl
@[simp] theorem State.setO_th_issue (s : State) (e : Fin 8) (x : Blob) : (s.setO e x).th.issue = s.th.issue := rfl
@[simp] theorem State.setO_th_replay (s : State) (e : Fin 8) (x : Blob) : (s.setO e x).th.replay = s.th.replay := rfl
@[simp] theorem State.setO_th_rtn (s : State) (e : Fin 8) (x : Blob) : (s.setO e x).th.rtn = s.th.rtn := rfl
@[simp] theorem State.setO_th_vp (s : State) (e : Fin 8) (x : Blob) : (s.setO e x).th.vp = s.th.vp := rfl
@[simp] theorem State.setO_th_vpHeld (s : State) (e : Fin 8) (x : Blob) : (s.setO e x).th.vpHeld = s.th.vpHeld := rfl
@[simp] theorem State.setO_th_rwatch (s : State) (e : Fin 8) (x : Blob) : (s.setO e x).th.rwatch = s.th.rwatch := rfl
@[simp] theorem State.setO_th_wait (s : State) (e : Fin 8) (x : Blob) : (s.setO e x).th.wait = s.th.wait := rfl
@[simp] theorem State.setO_th_spin (s : State) (e : Fin 8) (x : Blob) : (s.setO e x).th.spin = s.th.spin := rfl
@[simp] theorem State.setO_th_qans (s : State) (e : Fin 8) (x : Blob) : (s.setO e x).th.qans = s.th.qans := rfl
@[simp] theorem State.setO_th_polling (s : State) (e : Fin 8) (x : Blob) : (s.setO e x).th.polling = s.th.polling := rfl
@[simp] theorem State.setO_th_ending (s : State) (e : Fin 8) (x : Blob) : (s.setO e x).th.ending = s.th.ending := rfl
@[simp] theorem State.setO_th_atBar (s : State) (e : Fin 8) (x : Blob) : (s.setO e x).th.atBar = s.th.atBar := rfl
@[simp] theorem State.setO_th_mcStop (s : State) (e : Fin 8) (x : Blob) : (s.setO e x).th.mcStop = s.th.mcStop := rfl
@[simp] theorem State.setO_th_recent (s : State) (e : Fin 8) (x : Blob) : (s.setO e x).th.recent = s.th.recent := rfl
@[simp] theorem State.setO_th_flight (s : State) (e : Fin 8) (x : Blob) : (s.setO e x).th.flight = s.th.flight := rfl

@[simp] theorem State.setLat_slot (s : State) (u : Fin 7) (x : Blob) : (s.setLat u x).slot = s.slot := rfl
@[simp] theorem State.setLat_core (s : State) (u : Fin 7) (x : Blob) : (s.setLat u x).core = s.core := rfl
@[simp] theorem State.setLat_coreId (s : State) (u : Fin 7) (x : Blob) : (s.setLat u x).coreId = s.coreId := rfl
@[simp] theorem State.setLat_others (s : State) (u : Fin 7) (x : Blob) : (s.setLat u x).others = s.others := rfl
@[simp] theorem State.setLat_store (s : State) (u : Fin 7) (x : Blob) : (s.setLat u x).store = s.store := rfl
@[simp] theorem State.setLat_fab (s : State) (u : Fin 7) (x : Blob) : (s.setLat u x).fab = s.fab := rfl
@[simp] theorem State.setLat_boot (s : State) (u : Fin 7) (x : Blob) : (s.setLat u x).boot = s.boot := rfl
@[simp] theorem State.setLat_harvest (s : State) (u : Fin 7) (x : Blob) : (s.setLat u x).harvest = s.harvest := rfl
@[simp] theorem State.setLat_drowsyThresh (s : State) (u : Fin 7) (x : Blob) : (s.setLat u x).drowsyThresh = s.drowsyThresh := rfl
@[simp] theorem State.setLat_ctxtab (s : State) (u : Fin 7) (x : Blob) : (s.setLat u x).ctxtab = s.ctxtab := rfl
@[simp] theorem State.setLat_recmap (s : State) (u : Fin 7) (x : Blob) : (s.setLat u x).recmap = s.recmap := rfl
@[simp] theorem State.setLat_time (s : State) (u : Fin 7) (x : Blob) : (s.setLat u x).time = s.time := rfl
@[simp] theorem State.setLat_seq (s : State) (u : Fin 7) (x : Blob) : (s.setLat u x).seq = s.seq := rfl
@[simp] theorem State.setLat_lag (s : State) (u : Fin 7) (x : Blob) : (s.setLat u x).lag = s.lag := rfl
@[simp] theorem State.setLat_free (s : State) (u : Fin 7) (x : Blob) : (s.setLat u x).free = s.free := rfl
@[simp] theorem State.setLat_schedule (s : State) (u : Fin 7) (x : Blob) : (s.setLat u x).schedule = s.schedule := rfl
@[simp] theorem State.setLat_ev (s : State) (u : Fin 7) (x : Blob) : (s.setLat u x).ev = s.ev := rfl
@[simp] theorem State.setLat_th_occ (s : State) (u : Fin 7) (x : Blob) : (s.setLat u x).th.occ = s.th.occ := rfl
@[simp] theorem State.setLat_th_pc (s : State) (u : Fin 7) (x : Blob) : (s.setLat u x).th.pc = s.th.pc := rfl
@[simp] theorem State.setLat_th_s (s : State) (u : Fin 7) (x : Blob) : (s.setLat u x).th.s = s.th.s := rfl
@[simp] theorem State.setLat_th_k (s : State) (u : Fin 7) (x : Blob) : (s.setLat u x).th.k = s.th.k := rfl
@[simp] theorem State.setLat_th_p (s : State) (u : Fin 7) (x : Blob) : (s.setLat u x).th.p = s.th.p := rfl
@[simp] theorem State.setLat_th_psz (s : State) (u : Fin 7) (x : Blob) : (s.setLat u x).th.psz = s.th.psz := rfl
@[simp] theorem State.setLat_th_lcount (s : State) (u : Fin 7) (x : Blob) : (s.setLat u x).th.lcount = s.th.lcount := rfl
@[simp] theorem State.setLat_th_laneBusy (s : State) (u : Fin 7) (x : Blob) : (s.setLat u x).th.laneBusy = s.th.laneBusy := rfl
@[simp] theorem State.setLat_th_tframe (s : State) (u : Fin 7) (x : Blob) : (s.setLat u x).th.tframe = s.th.tframe := rfl
@[simp] theorem State.setLat_th_level (s : State) (u : Fin 7) (x : Blob) : (s.setLat u x).th.level = s.th.level := rfl
@[simp] theorem State.setLat_th_intrap (s : State) (u : Fin 7) (x : Blob) : (s.setLat u x).th.intrap = s.th.intrap := rfl
@[simp] theorem State.setLat_th_imask (s : State) (u : Fin 7) (x : Blob) : (s.setLat u x).th.imask = s.th.imask := rfl
@[simp] theorem State.setLat_th_gen (s : State) (u : Fin 7) (x : Blob) : (s.setLat u x).th.gen = s.th.gen := rfl
@[simp] theorem State.setLat_th_acqL1 (s : State) (u : Fin 7) (x : Blob) : (s.setLat u x).th.acqL1 = s.th.acqL1 := rfl
@[simp] theorem State.setLat_th_acqRdc (s : State) (u : Fin 7) (x : Blob) : (s.setLat u x).th.acqRdc = s.th.acqRdc := rfl
@[simp] theorem State.setLat_th_convoy (s : State) (u : Fin 7) (x : Blob) : (s.setLat u x).th.convoy = s.th.convoy := rfl
@[simp] theorem State.setLat_th_issue (s : State) (u : Fin 7) (x : Blob) : (s.setLat u x).th.issue = s.th.issue := rfl
@[simp] theorem State.setLat_th_replay (s : State) (u : Fin 7) (x : Blob) : (s.setLat u x).th.replay = s.th.replay := rfl
@[simp] theorem State.setLat_th_rtn (s : State) (u : Fin 7) (x : Blob) : (s.setLat u x).th.rtn = s.th.rtn := rfl
@[simp] theorem State.setLat_th_vp (s : State) (u : Fin 7) (x : Blob) : (s.setLat u x).th.vp = s.th.vp := rfl
@[simp] theorem State.setLat_th_vpHeld (s : State) (u : Fin 7) (x : Blob) : (s.setLat u x).th.vpHeld = s.th.vpHeld := rfl
@[simp] theorem State.setLat_th_rwatch (s : State) (u : Fin 7) (x : Blob) : (s.setLat u x).th.rwatch = s.th.rwatch := rfl
@[simp] theorem State.setLat_th_wait (s : State) (u : Fin 7) (x : Blob) : (s.setLat u x).th.wait = s.th.wait := rfl
@[simp] theorem State.setLat_th_spin (s : State) (u : Fin 7) (x : Blob) : (s.setLat u x).th.spin = s.th.spin := rfl
@[simp] theorem State.setLat_th_qans (s : State) (u : Fin 7) (x : Blob) : (s.setLat u x).th.qans = s.th.qans := rfl
@[simp] theorem State.setLat_th_polling (s : State) (u : Fin 7) (x : Blob) : (s.setLat u x).th.polling = s.th.polling := rfl
@[simp] theorem State.setLat_th_ending (s : State) (u : Fin 7) (x : Blob) : (s.setLat u x).th.ending = s.th.ending := rfl
@[simp] theorem State.setLat_th_atBar (s : State) (u : Fin 7) (x : Blob) : (s.setLat u x).th.atBar = s.th.atBar := rfl
@[simp] theorem State.setLat_th_mcStop (s : State) (u : Fin 7) (x : Blob) : (s.setLat u x).th.mcStop = s.th.mcStop := rfl
@[simp] theorem State.setLat_th_recent (s : State) (u : Fin 7) (x : Blob) : (s.setLat u x).th.recent = s.th.recent := rfl
@[simp] theorem State.setLat_th_flight (s : State) (u : Fin 7) (x : Blob) : (s.setLat u x).th.flight = s.th.flight := rfl

@[simp] theorem State.busy_slot (s : State) (n : Nat) : (s.busy n).slot = s.slot := rfl
@[simp] theorem State.busy_core (s : State) (n : Nat) : (s.busy n).core = s.core := rfl
@[simp] theorem State.busy_coreId (s : State) (n : Nat) : (s.busy n).coreId = s.coreId := rfl
@[simp] theorem State.busy_others (s : State) (n : Nat) : (s.busy n).others = s.others := rfl
@[simp] theorem State.busy_store (s : State) (n : Nat) : (s.busy n).store = s.store := rfl
@[simp] theorem State.busy_fab (s : State) (n : Nat) : (s.busy n).fab = s.fab := rfl
@[simp] theorem State.busy_boot (s : State) (n : Nat) : (s.busy n).boot = s.boot := rfl
@[simp] theorem State.busy_harvest (s : State) (n : Nat) : (s.busy n).harvest = s.harvest := rfl
@[simp] theorem State.busy_drowsyThresh (s : State) (n : Nat) : (s.busy n).drowsyThresh = s.drowsyThresh := rfl
@[simp] theorem State.busy_ctxtab (s : State) (n : Nat) : (s.busy n).ctxtab = s.ctxtab := rfl
@[simp] theorem State.busy_recmap (s : State) (n : Nat) : (s.busy n).recmap = s.recmap := rfl
@[simp] theorem State.busy_time (s : State) (n : Nat) : (s.busy n).time = s.time := rfl
@[simp] theorem State.busy_seq (s : State) (n : Nat) : (s.busy n).seq = s.seq := rfl
@[simp] theorem State.busy_lag (s : State) (n : Nat) : (s.busy n).lag = s.lag := rfl
@[simp] theorem State.busy_free (s : State) (n : Nat) : (s.busy n).free = s.free := rfl
@[simp] theorem State.busy_schedule (s : State) (n : Nat) : (s.busy n).schedule = s.schedule := rfl
@[simp] theorem State.busy_ev (s : State) (n : Nat) : (s.busy n).ev = s.ev := rfl
@[simp] theorem State.busy_th_occ (s : State) (n : Nat) : (s.busy n).th.occ = s.th.occ := rfl
@[simp] theorem State.busy_th_pc (s : State) (n : Nat) : (s.busy n).th.pc = s.th.pc := rfl
@[simp] theorem State.busy_th_s (s : State) (n : Nat) : (s.busy n).th.s = s.th.s := rfl
@[simp] theorem State.busy_th_k (s : State) (n : Nat) : (s.busy n).th.k = s.th.k := rfl
@[simp] theorem State.busy_th_p (s : State) (n : Nat) : (s.busy n).th.p = s.th.p := rfl
@[simp] theorem State.busy_th_psz (s : State) (n : Nat) : (s.busy n).th.psz = s.th.psz := rfl
@[simp] theorem State.busy_th_vec (s : State) (n : Nat) : (s.busy n).th.vec = s.th.vec := rfl
@[simp] theorem State.busy_th_lcount (s : State) (n : Nat) : (s.busy n).th.lcount = s.th.lcount := rfl
@[simp] theorem State.busy_th_tframe (s : State) (n : Nat) : (s.busy n).th.tframe = s.th.tframe := rfl
@[simp] theorem State.busy_th_level (s : State) (n : Nat) : (s.busy n).th.level = s.th.level := rfl
@[simp] theorem State.busy_th_intrap (s : State) (n : Nat) : (s.busy n).th.intrap = s.th.intrap := rfl
@[simp] theorem State.busy_th_imask (s : State) (n : Nat) : (s.busy n).th.imask = s.th.imask := rfl
@[simp] theorem State.busy_th_gen (s : State) (n : Nat) : (s.busy n).th.gen = s.th.gen := rfl
@[simp] theorem State.busy_th_acqL1 (s : State) (n : Nat) : (s.busy n).th.acqL1 = s.th.acqL1 := rfl
@[simp] theorem State.busy_th_acqRdc (s : State) (n : Nat) : (s.busy n).th.acqRdc = s.th.acqRdc := rfl
@[simp] theorem State.busy_th_convoy (s : State) (n : Nat) : (s.busy n).th.convoy = s.th.convoy := rfl
@[simp] theorem State.busy_th_issue (s : State) (n : Nat) : (s.busy n).th.issue = s.th.issue := rfl
@[simp] theorem State.busy_th_replay (s : State) (n : Nat) : (s.busy n).th.replay = s.th.replay := rfl
@[simp] theorem State.busy_th_rtn (s : State) (n : Nat) : (s.busy n).th.rtn = s.th.rtn := rfl
@[simp] theorem State.busy_th_vp (s : State) (n : Nat) : (s.busy n).th.vp = s.th.vp := rfl
@[simp] theorem State.busy_th_vpHeld (s : State) (n : Nat) : (s.busy n).th.vpHeld = s.th.vpHeld := rfl
@[simp] theorem State.busy_th_rwatch (s : State) (n : Nat) : (s.busy n).th.rwatch = s.th.rwatch := rfl
@[simp] theorem State.busy_th_wait (s : State) (n : Nat) : (s.busy n).th.wait = s.th.wait := rfl
@[simp] theorem State.busy_th_spin (s : State) (n : Nat) : (s.busy n).th.spin = s.th.spin := rfl
@[simp] theorem State.busy_th_qans (s : State) (n : Nat) : (s.busy n).th.qans = s.th.qans := rfl
@[simp] theorem State.busy_th_polling (s : State) (n : Nat) : (s.busy n).th.polling = s.th.polling := rfl
@[simp] theorem State.busy_th_ending (s : State) (n : Nat) : (s.busy n).th.ending = s.th.ending := rfl
@[simp] theorem State.busy_th_atBar (s : State) (n : Nat) : (s.busy n).th.atBar = s.th.atBar := rfl
@[simp] theorem State.busy_th_mcStop (s : State) (n : Nat) : (s.busy n).th.mcStop = s.th.mcStop := rfl
@[simp] theorem State.busy_th_recent (s : State) (n : Nat) : (s.busy n).th.recent = s.th.recent := rfl
@[simp] theorem State.busy_th_flight (s : State) (n : Nat) : (s.busy n).th.flight = s.th.flight := rfl

@[simp] theorem State.slotDone_slot (s : State) : (s.slotDone).slot = s.slot := rfl
@[simp] theorem State.slotDone_core (s : State) : (s.slotDone).core = s.core := rfl
@[simp] theorem State.slotDone_coreId (s : State) : (s.slotDone).coreId = s.coreId := rfl
@[simp] theorem State.slotDone_others (s : State) : (s.slotDone).others = s.others := rfl
@[simp] theorem State.slotDone_store (s : State) : (s.slotDone).store = s.store := rfl
@[simp] theorem State.slotDone_fab (s : State) : (s.slotDone).fab = s.fab := rfl
@[simp] theorem State.slotDone_boot (s : State) : (s.slotDone).boot = s.boot := rfl
@[simp] theorem State.slotDone_harvest (s : State) : (s.slotDone).harvest = s.harvest := rfl
@[simp] theorem State.slotDone_drowsyThresh (s : State) : (s.slotDone).drowsyThresh = s.drowsyThresh := rfl
@[simp] theorem State.slotDone_ctxtab (s : State) : (s.slotDone).ctxtab = s.ctxtab := rfl
@[simp] theorem State.slotDone_recmap (s : State) : (s.slotDone).recmap = s.recmap := rfl
@[simp] theorem State.slotDone_time (s : State) : (s.slotDone).time = s.time := rfl
@[simp] theorem State.slotDone_seq (s : State) : (s.slotDone).seq = s.seq := rfl
@[simp] theorem State.slotDone_lag (s : State) : (s.slotDone).lag = s.lag := rfl
@[simp] theorem State.slotDone_free (s : State) : (s.slotDone).free = s.free := rfl
@[simp] theorem State.slotDone_schedule (s : State) : (s.slotDone).schedule = s.schedule := rfl
@[simp] theorem State.slotDone_ev (s : State) : (s.slotDone).ev = s.ev := rfl
@[simp] theorem State.slotDone_th_occ (s : State) : (s.slotDone).th.occ = s.th.occ := Thread.slotDone_occ s.th
@[simp] theorem State.slotDone_th_pc (s : State) : (s.slotDone).th.pc = s.th.pc := Thread.slotDone_pc s.th
@[simp] theorem State.slotDone_th_s (s : State) : (s.slotDone).th.s = s.th.s := Thread.slotDone_s s.th
@[simp] theorem State.slotDone_th_k (s : State) : (s.slotDone).th.k = s.th.k := Thread.slotDone_k s.th
@[simp] theorem State.slotDone_th_p (s : State) : (s.slotDone).th.p = s.th.p := Thread.slotDone_p s.th
@[simp] theorem State.slotDone_th_psz (s : State) : (s.slotDone).th.psz = s.th.psz := Thread.slotDone_psz s.th
@[simp] theorem State.slotDone_th_vec (s : State) : (s.slotDone).th.vec = s.th.vec := Thread.slotDone_vec s.th
@[simp] theorem State.slotDone_th_lcount (s : State) : (s.slotDone).th.lcount = s.th.lcount := Thread.slotDone_lcount s.th
@[simp] theorem State.slotDone_th_laneBusy (s : State) : (s.slotDone).th.laneBusy = s.th.laneBusy := Thread.slotDone_laneBusy s.th
@[simp] theorem State.slotDone_th_tframe (s : State) : (s.slotDone).th.tframe = s.th.tframe := Thread.slotDone_tframe s.th
@[simp] theorem State.slotDone_th_level (s : State) : (s.slotDone).th.level = s.th.level := Thread.slotDone_level s.th
@[simp] theorem State.slotDone_th_intrap (s : State) : (s.slotDone).th.intrap = s.th.intrap := Thread.slotDone_intrap s.th
@[simp] theorem State.slotDone_th_imask (s : State) : (s.slotDone).th.imask = s.th.imask := Thread.slotDone_imask s.th
@[simp] theorem State.slotDone_th_gen (s : State) : (s.slotDone).th.gen = s.th.gen := Thread.slotDone_gen s.th
@[simp] theorem State.slotDone_th_acqL1 (s : State) : (s.slotDone).th.acqL1 = s.th.acqL1 := Thread.slotDone_acqL1 s.th
@[simp] theorem State.slotDone_th_acqRdc (s : State) : (s.slotDone).th.acqRdc = s.th.acqRdc := Thread.slotDone_acqRdc s.th
@[simp] theorem State.slotDone_th_replay (s : State) : (s.slotDone).th.replay = s.th.replay := Thread.slotDone_replay s.th
@[simp] theorem State.slotDone_th_rtn (s : State) : (s.slotDone).th.rtn = s.th.rtn := Thread.slotDone_rtn s.th
@[simp] theorem State.slotDone_th_vp (s : State) : (s.slotDone).th.vp = s.th.vp := Thread.slotDone_vp s.th
@[simp] theorem State.slotDone_th_vpHeld (s : State) : (s.slotDone).th.vpHeld = s.th.vpHeld := Thread.slotDone_vpHeld s.th
@[simp] theorem State.slotDone_th_rwatch (s : State) : (s.slotDone).th.rwatch = s.th.rwatch := Thread.slotDone_rwatch s.th
@[simp] theorem State.slotDone_th_wait (s : State) : (s.slotDone).th.wait = s.th.wait := Thread.slotDone_wait s.th
@[simp] theorem State.slotDone_th_spin (s : State) : (s.slotDone).th.spin = s.th.spin := Thread.slotDone_spin s.th
@[simp] theorem State.slotDone_th_qans (s : State) : (s.slotDone).th.qans = s.th.qans := Thread.slotDone_qans s.th
@[simp] theorem State.slotDone_th_polling (s : State) : (s.slotDone).th.polling = s.th.polling := Thread.slotDone_polling s.th
@[simp] theorem State.slotDone_th_ending (s : State) : (s.slotDone).th.ending = s.th.ending := Thread.slotDone_ending s.th
@[simp] theorem State.slotDone_th_atBar (s : State) : (s.slotDone).th.atBar = s.th.atBar := Thread.slotDone_atBar s.th
@[simp] theorem State.slotDone_th_mcStop (s : State) : (s.slotDone).th.mcStop = s.th.mcStop := Thread.slotDone_mcStop s.th
@[simp] theorem State.slotDone_th_recent (s : State) : (s.slotDone).th.recent = s.th.recent := Thread.slotDone_recent s.th
@[simp] theorem State.slotDone_th_flight (s : State) : (s.slotDone).th.flight = s.th.flight := Thread.slotDone_flight s.th

@[simp] theorem State.unspin_slot (s : State) : (s.unspin).slot = s.slot := rfl
@[simp] theorem State.unspin_core (s : State) : (s.unspin).core = s.core := rfl
@[simp] theorem State.unspin_coreId (s : State) : (s.unspin).coreId = s.coreId := rfl
@[simp] theorem State.unspin_others (s : State) : (s.unspin).others = s.others := rfl
@[simp] theorem State.unspin_store (s : State) : (s.unspin).store = s.store := rfl
@[simp] theorem State.unspin_fab (s : State) : (s.unspin).fab = s.fab := rfl
@[simp] theorem State.unspin_boot (s : State) : (s.unspin).boot = s.boot := rfl
@[simp] theorem State.unspin_harvest (s : State) : (s.unspin).harvest = s.harvest := rfl
@[simp] theorem State.unspin_drowsyThresh (s : State) : (s.unspin).drowsyThresh = s.drowsyThresh := rfl
@[simp] theorem State.unspin_ctxtab (s : State) : (s.unspin).ctxtab = s.ctxtab := rfl
@[simp] theorem State.unspin_recmap (s : State) : (s.unspin).recmap = s.recmap := rfl
@[simp] theorem State.unspin_time (s : State) : (s.unspin).time = s.time := rfl
@[simp] theorem State.unspin_seq (s : State) : (s.unspin).seq = s.seq := rfl
@[simp] theorem State.unspin_lag (s : State) : (s.unspin).lag = s.lag := rfl
@[simp] theorem State.unspin_free (s : State) : (s.unspin).free = s.free := rfl
@[simp] theorem State.unspin_schedule (s : State) : (s.unspin).schedule = s.schedule := rfl
@[simp] theorem State.unspin_ev (s : State) : (s.unspin).ev = s.ev := rfl
@[simp] theorem State.unspin_th_occ (s : State) : (s.unspin).th.occ = s.th.occ := rfl
@[simp] theorem State.unspin_th_pc (s : State) : (s.unspin).th.pc = s.th.pc := rfl
@[simp] theorem State.unspin_th_s (s : State) : (s.unspin).th.s = s.th.s := rfl
@[simp] theorem State.unspin_th_k (s : State) : (s.unspin).th.k = s.th.k := rfl
@[simp] theorem State.unspin_th_p (s : State) : (s.unspin).th.p = s.th.p := rfl
@[simp] theorem State.unspin_th_psz (s : State) : (s.unspin).th.psz = s.th.psz := rfl
@[simp] theorem State.unspin_th_vec (s : State) : (s.unspin).th.vec = s.th.vec := rfl
@[simp] theorem State.unspin_th_lcount (s : State) : (s.unspin).th.lcount = s.th.lcount := rfl
@[simp] theorem State.unspin_th_laneBusy (s : State) : (s.unspin).th.laneBusy = s.th.laneBusy := rfl
@[simp] theorem State.unspin_th_tframe (s : State) : (s.unspin).th.tframe = s.th.tframe := rfl
@[simp] theorem State.unspin_th_level (s : State) : (s.unspin).th.level = s.th.level := rfl
@[simp] theorem State.unspin_th_intrap (s : State) : (s.unspin).th.intrap = s.th.intrap := rfl
@[simp] theorem State.unspin_th_imask (s : State) : (s.unspin).th.imask = s.th.imask := rfl
@[simp] theorem State.unspin_th_gen (s : State) : (s.unspin).th.gen = s.th.gen := rfl
@[simp] theorem State.unspin_th_acqL1 (s : State) : (s.unspin).th.acqL1 = s.th.acqL1 := rfl
@[simp] theorem State.unspin_th_acqRdc (s : State) : (s.unspin).th.acqRdc = s.th.acqRdc := rfl
@[simp] theorem State.unspin_th_convoy (s : State) : (s.unspin).th.convoy = s.th.convoy := rfl
@[simp] theorem State.unspin_th_issue (s : State) : (s.unspin).th.issue = s.th.issue := rfl
@[simp] theorem State.unspin_th_replay (s : State) : (s.unspin).th.replay = s.th.replay := rfl
@[simp] theorem State.unspin_th_rtn (s : State) : (s.unspin).th.rtn = s.th.rtn := rfl
@[simp] theorem State.unspin_th_vp (s : State) : (s.unspin).th.vp = s.th.vp := rfl
@[simp] theorem State.unspin_th_vpHeld (s : State) : (s.unspin).th.vpHeld = s.th.vpHeld := rfl
@[simp] theorem State.unspin_th_rwatch (s : State) : (s.unspin).th.rwatch = s.th.rwatch := rfl
@[simp] theorem State.unspin_th_wait (s : State) : (s.unspin).th.wait = s.th.wait := rfl
@[simp] theorem State.unspin_th_qans (s : State) : (s.unspin).th.qans = s.th.qans := rfl
@[simp] theorem State.unspin_th_polling (s : State) : (s.unspin).th.polling = s.th.polling := rfl
@[simp] theorem State.unspin_th_ending (s : State) : (s.unspin).th.ending = s.th.ending := rfl
@[simp] theorem State.unspin_th_atBar (s : State) : (s.unspin).th.atBar = s.th.atBar := rfl
@[simp] theorem State.unspin_th_mcStop (s : State) : (s.unspin).th.mcStop = s.th.mcStop := rfl
@[simp] theorem State.unspin_th_recent (s : State) : (s.unspin).th.recent = s.th.recent := rfl
@[simp] theorem State.unspin_th_flight (s : State) : (s.unspin).th.flight = s.th.flight := rfl

@[simp] theorem State.withRtn_slot (s : State) (r : RtnState) : (s.withRtn r).slot = s.slot := rfl
@[simp] theorem State.withRtn_core (s : State) (r : RtnState) : (s.withRtn r).core = s.core := rfl
@[simp] theorem State.withRtn_coreId (s : State) (r : RtnState) : (s.withRtn r).coreId = s.coreId := rfl
@[simp] theorem State.withRtn_others (s : State) (r : RtnState) : (s.withRtn r).others = s.others := rfl
@[simp] theorem State.withRtn_store (s : State) (r : RtnState) : (s.withRtn r).store = s.store := rfl
@[simp] theorem State.withRtn_fab (s : State) (r : RtnState) : (s.withRtn r).fab = s.fab := rfl
@[simp] theorem State.withRtn_boot (s : State) (r : RtnState) : (s.withRtn r).boot = s.boot := rfl
@[simp] theorem State.withRtn_harvest (s : State) (r : RtnState) : (s.withRtn r).harvest = s.harvest := rfl
@[simp] theorem State.withRtn_drowsyThresh (s : State) (r : RtnState) : (s.withRtn r).drowsyThresh = s.drowsyThresh := rfl
@[simp] theorem State.withRtn_ctxtab (s : State) (r : RtnState) : (s.withRtn r).ctxtab = s.ctxtab := rfl
@[simp] theorem State.withRtn_recmap (s : State) (r : RtnState) : (s.withRtn r).recmap = s.recmap := rfl
@[simp] theorem State.withRtn_time (s : State) (r : RtnState) : (s.withRtn r).time = s.time := rfl
@[simp] theorem State.withRtn_seq (s : State) (r : RtnState) : (s.withRtn r).seq = s.seq := rfl
@[simp] theorem State.withRtn_lag (s : State) (r : RtnState) : (s.withRtn r).lag = s.lag := rfl
@[simp] theorem State.withRtn_free (s : State) (r : RtnState) : (s.withRtn r).free = s.free := rfl
@[simp] theorem State.withRtn_schedule (s : State) (r : RtnState) : (s.withRtn r).schedule = s.schedule := rfl
@[simp] theorem State.withRtn_ev (s : State) (r : RtnState) : (s.withRtn r).ev = s.ev := rfl
@[simp] theorem State.withRtn_th_occ (s : State) (r : RtnState) : (s.withRtn r).th.occ = s.th.occ := rfl
@[simp] theorem State.withRtn_th_pc (s : State) (r : RtnState) : (s.withRtn r).th.pc = s.th.pc := rfl
@[simp] theorem State.withRtn_th_s (s : State) (r : RtnState) : (s.withRtn r).th.s = s.th.s := rfl
@[simp] theorem State.withRtn_th_k (s : State) (r : RtnState) : (s.withRtn r).th.k = s.th.k := rfl
@[simp] theorem State.withRtn_th_p (s : State) (r : RtnState) : (s.withRtn r).th.p = s.th.p := rfl
@[simp] theorem State.withRtn_th_psz (s : State) (r : RtnState) : (s.withRtn r).th.psz = s.th.psz := rfl
@[simp] theorem State.withRtn_th_vec (s : State) (r : RtnState) : (s.withRtn r).th.vec = s.th.vec := rfl
@[simp] theorem State.withRtn_th_lcount (s : State) (r : RtnState) : (s.withRtn r).th.lcount = s.th.lcount := rfl
@[simp] theorem State.withRtn_th_laneBusy (s : State) (r : RtnState) : (s.withRtn r).th.laneBusy = s.th.laneBusy := rfl
@[simp] theorem State.withRtn_th_tframe (s : State) (r : RtnState) : (s.withRtn r).th.tframe = s.th.tframe := rfl
@[simp] theorem State.withRtn_th_level (s : State) (r : RtnState) : (s.withRtn r).th.level = s.th.level := rfl
@[simp] theorem State.withRtn_th_intrap (s : State) (r : RtnState) : (s.withRtn r).th.intrap = s.th.intrap := rfl
@[simp] theorem State.withRtn_th_imask (s : State) (r : RtnState) : (s.withRtn r).th.imask = s.th.imask := rfl
@[simp] theorem State.withRtn_th_gen (s : State) (r : RtnState) : (s.withRtn r).th.gen = s.th.gen := rfl
@[simp] theorem State.withRtn_th_acqL1 (s : State) (r : RtnState) : (s.withRtn r).th.acqL1 = s.th.acqL1 := rfl
@[simp] theorem State.withRtn_th_acqRdc (s : State) (r : RtnState) : (s.withRtn r).th.acqRdc = s.th.acqRdc := rfl
@[simp] theorem State.withRtn_th_convoy (s : State) (r : RtnState) : (s.withRtn r).th.convoy = s.th.convoy := rfl
@[simp] theorem State.withRtn_th_issue (s : State) (r : RtnState) : (s.withRtn r).th.issue = s.th.issue := rfl
@[simp] theorem State.withRtn_th_replay (s : State) (r : RtnState) : (s.withRtn r).th.replay = s.th.replay := rfl
@[simp] theorem State.withRtn_th_vp (s : State) (r : RtnState) : (s.withRtn r).th.vp = s.th.vp := rfl
@[simp] theorem State.withRtn_th_vpHeld (s : State) (r : RtnState) : (s.withRtn r).th.vpHeld = s.th.vpHeld := rfl
@[simp] theorem State.withRtn_th_rwatch (s : State) (r : RtnState) : (s.withRtn r).th.rwatch = s.th.rwatch := rfl
@[simp] theorem State.withRtn_th_wait (s : State) (r : RtnState) : (s.withRtn r).th.wait = s.th.wait := rfl
@[simp] theorem State.withRtn_th_spin (s : State) (r : RtnState) : (s.withRtn r).th.spin = s.th.spin := rfl
@[simp] theorem State.withRtn_th_qans (s : State) (r : RtnState) : (s.withRtn r).th.qans = s.th.qans := rfl
@[simp] theorem State.withRtn_th_polling (s : State) (r : RtnState) : (s.withRtn r).th.polling = s.th.polling := rfl
@[simp] theorem State.withRtn_th_ending (s : State) (r : RtnState) : (s.withRtn r).th.ending = s.th.ending := rfl
@[simp] theorem State.withRtn_th_atBar (s : State) (r : RtnState) : (s.withRtn r).th.atBar = s.th.atBar := rfl
@[simp] theorem State.withRtn_th_mcStop (s : State) (r : RtnState) : (s.withRtn r).th.mcStop = s.th.mcStop := rfl
@[simp] theorem State.withRtn_th_recent (s : State) (r : RtnState) : (s.withRtn r).th.recent = s.th.recent := rfl
@[simp] theorem State.withRtn_th_flight (s : State) (r : RtnState) : (s.withRtn r).th.flight = s.th.flight := rfl

@[simp] theorem State.result_slot (s : State) (d : Reg) (v : Word) : (s.result d v).slot = s.slot := rfl
@[simp] theorem State.result_core (s : State) (d : Reg) (v : Word) : (s.result d v).core = s.core := rfl
@[simp] theorem State.result_coreId (s : State) (d : Reg) (v : Word) : (s.result d v).coreId = s.coreId := rfl
@[simp] theorem State.result_others (s : State) (d : Reg) (v : Word) : (s.result d v).others = s.others := rfl
@[simp] theorem State.result_store (s : State) (d : Reg) (v : Word) : (s.result d v).store = s.store := rfl
@[simp] theorem State.result_fab (s : State) (d : Reg) (v : Word) : (s.result d v).fab = s.fab := rfl
@[simp] theorem State.result_boot (s : State) (d : Reg) (v : Word) : (s.result d v).boot = s.boot := rfl
@[simp] theorem State.result_harvest (s : State) (d : Reg) (v : Word) : (s.result d v).harvest = s.harvest := rfl
@[simp] theorem State.result_drowsyThresh (s : State) (d : Reg) (v : Word) : (s.result d v).drowsyThresh = s.drowsyThresh := rfl
@[simp] theorem State.result_ctxtab (s : State) (d : Reg) (v : Word) : (s.result d v).ctxtab = s.ctxtab := rfl
@[simp] theorem State.result_recmap (s : State) (d : Reg) (v : Word) : (s.result d v).recmap = s.recmap := rfl
@[simp] theorem State.result_time (s : State) (d : Reg) (v : Word) : (s.result d v).time = s.time := rfl
@[simp] theorem State.result_seq (s : State) (d : Reg) (v : Word) : (s.result d v).seq = s.seq := rfl
@[simp] theorem State.result_lag (s : State) (d : Reg) (v : Word) : (s.result d v).lag = s.lag := rfl
@[simp] theorem State.result_free (s : State) (d : Reg) (v : Word) : (s.result d v).free = s.free := rfl
@[simp] theorem State.result_schedule (s : State) (d : Reg) (v : Word) : (s.result d v).schedule = s.schedule := rfl
@[simp] theorem State.result_ev (s : State) (d : Reg) (v : Word) : (s.result d v).ev = s.ev := rfl
@[simp] theorem State.result_th_occ (s : State) (d : Reg) (v : Word) : (s.result d v).th.occ = s.th.occ := Thread.setS_occ s.th d v
@[simp] theorem State.result_th_k (s : State) (d : Reg) (v : Word) : (s.result d v).th.k = s.th.k := Thread.setS_k s.th d v
@[simp] theorem State.result_th_p (s : State) (d : Reg) (v : Word) : (s.result d v).th.p = s.th.p := Thread.setS_p s.th d v
@[simp] theorem State.result_th_psz (s : State) (d : Reg) (v : Word) : (s.result d v).th.psz = s.th.psz := Thread.setS_psz s.th d v
@[simp] theorem State.result_th_vec (s : State) (d : Reg) (v : Word) : (s.result d v).th.vec = s.th.vec := Thread.setS_vec s.th d v
@[simp] theorem State.result_th_lcount (s : State) (d : Reg) (v : Word) : (s.result d v).th.lcount = s.th.lcount := Thread.setS_lcount s.th d v
@[simp] theorem State.result_th_laneBusy (s : State) (d : Reg) (v : Word) : (s.result d v).th.laneBusy = s.th.laneBusy := Thread.setS_laneBusy s.th d v
@[simp] theorem State.result_th_tframe (s : State) (d : Reg) (v : Word) : (s.result d v).th.tframe = s.th.tframe := Thread.setS_tframe s.th d v
@[simp] theorem State.result_th_level (s : State) (d : Reg) (v : Word) : (s.result d v).th.level = s.th.level := Thread.setS_level s.th d v
@[simp] theorem State.result_th_intrap (s : State) (d : Reg) (v : Word) : (s.result d v).th.intrap = s.th.intrap := Thread.setS_intrap s.th d v
@[simp] theorem State.result_th_imask (s : State) (d : Reg) (v : Word) : (s.result d v).th.imask = s.th.imask := Thread.setS_imask s.th d v
@[simp] theorem State.result_th_gen (s : State) (d : Reg) (v : Word) : (s.result d v).th.gen = s.th.gen := Thread.setS_gen s.th d v
@[simp] theorem State.result_th_acqL1 (s : State) (d : Reg) (v : Word) : (s.result d v).th.acqL1 = s.th.acqL1 := Thread.setS_acqL1 s.th d v
@[simp] theorem State.result_th_acqRdc (s : State) (d : Reg) (v : Word) : (s.result d v).th.acqRdc = s.th.acqRdc := Thread.setS_acqRdc s.th d v
@[simp] theorem State.result_th_convoy (s : State) (d : Reg) (v : Word) : (s.result d v).th.convoy = s.th.convoy := Thread.setS_convoy s.th d v
@[simp] theorem State.result_th_issue (s : State) (d : Reg) (v : Word) : (s.result d v).th.issue = s.th.issue := Thread.setS_issue s.th d v
@[simp] theorem State.result_th_replay (s : State) (d : Reg) (v : Word) : (s.result d v).th.replay = s.th.replay := Thread.setS_replay s.th d v
@[simp] theorem State.result_th_rtn (s : State) (d : Reg) (v : Word) : (s.result d v).th.rtn = s.th.rtn := Thread.setS_rtn s.th d v
@[simp] theorem State.result_th_vp (s : State) (d : Reg) (v : Word) : (s.result d v).th.vp = s.th.vp := Thread.setS_vp s.th d v
@[simp] theorem State.result_th_vpHeld (s : State) (d : Reg) (v : Word) : (s.result d v).th.vpHeld = s.th.vpHeld := Thread.setS_vpHeld s.th d v
@[simp] theorem State.result_th_rwatch (s : State) (d : Reg) (v : Word) : (s.result d v).th.rwatch = s.th.rwatch := Thread.setS_rwatch s.th d v
@[simp] theorem State.result_th_wait (s : State) (d : Reg) (v : Word) : (s.result d v).th.wait = s.th.wait := Thread.setS_wait s.th d v
@[simp] theorem State.result_th_spin (s : State) (d : Reg) (v : Word) : (s.result d v).th.spin = s.th.spin := Thread.setS_spin s.th d v
@[simp] theorem State.result_th_qans (s : State) (d : Reg) (v : Word) : (s.result d v).th.qans = s.th.qans := Thread.setS_qans s.th d v
@[simp] theorem State.result_th_polling (s : State) (d : Reg) (v : Word) : (s.result d v).th.polling = s.th.polling := Thread.setS_polling s.th d v
@[simp] theorem State.result_th_ending (s : State) (d : Reg) (v : Word) : (s.result d v).th.ending = s.th.ending := Thread.setS_ending s.th d v
@[simp] theorem State.result_th_atBar (s : State) (d : Reg) (v : Word) : (s.result d v).th.atBar = s.th.atBar := Thread.setS_atBar s.th d v
@[simp] theorem State.result_th_mcStop (s : State) (d : Reg) (v : Word) : (s.result d v).th.mcStop = s.th.mcStop := Thread.setS_mcStop s.th d v
@[simp] theorem State.result_th_recent (s : State) (d : Reg) (v : Word) : (s.result d v).th.recent = s.th.recent := Thread.setS_recent s.th d v
@[simp] theorem State.result_th_flight (s : State) (d : Reg) (v : Word) : (s.result d v).th.flight = s.th.flight := Thread.setS_flight s.th d v

@[simp] theorem State.resultK_slot (s : State) (d : KReg) (v : Word) : (s.resultK d v).slot = s.slot := rfl
@[simp] theorem State.resultK_core (s : State) (d : KReg) (v : Word) : (s.resultK d v).core = s.core := rfl
@[simp] theorem State.resultK_coreId (s : State) (d : KReg) (v : Word) : (s.resultK d v).coreId = s.coreId := rfl
@[simp] theorem State.resultK_others (s : State) (d : KReg) (v : Word) : (s.resultK d v).others = s.others := rfl
@[simp] theorem State.resultK_store (s : State) (d : KReg) (v : Word) : (s.resultK d v).store = s.store := rfl
@[simp] theorem State.resultK_fab (s : State) (d : KReg) (v : Word) : (s.resultK d v).fab = s.fab := rfl
@[simp] theorem State.resultK_boot (s : State) (d : KReg) (v : Word) : (s.resultK d v).boot = s.boot := rfl
@[simp] theorem State.resultK_harvest (s : State) (d : KReg) (v : Word) : (s.resultK d v).harvest = s.harvest := rfl
@[simp] theorem State.resultK_drowsyThresh (s : State) (d : KReg) (v : Word) : (s.resultK d v).drowsyThresh = s.drowsyThresh := rfl
@[simp] theorem State.resultK_ctxtab (s : State) (d : KReg) (v : Word) : (s.resultK d v).ctxtab = s.ctxtab := rfl
@[simp] theorem State.resultK_recmap (s : State) (d : KReg) (v : Word) : (s.resultK d v).recmap = s.recmap := rfl
@[simp] theorem State.resultK_time (s : State) (d : KReg) (v : Word) : (s.resultK d v).time = s.time := rfl
@[simp] theorem State.resultK_seq (s : State) (d : KReg) (v : Word) : (s.resultK d v).seq = s.seq := rfl
@[simp] theorem State.resultK_lag (s : State) (d : KReg) (v : Word) : (s.resultK d v).lag = s.lag := rfl
@[simp] theorem State.resultK_free (s : State) (d : KReg) (v : Word) : (s.resultK d v).free = s.free := rfl
@[simp] theorem State.resultK_schedule (s : State) (d : KReg) (v : Word) : (s.resultK d v).schedule = s.schedule := rfl
@[simp] theorem State.resultK_ev (s : State) (d : KReg) (v : Word) : (s.resultK d v).ev = s.ev := rfl
@[simp] theorem State.resultK_th_occ (s : State) (d : KReg) (v : Word) : (s.resultK d v).th.occ = s.th.occ := Thread.setK_occ s.th d v
@[simp] theorem State.resultK_th_s (s : State) (d : KReg) (v : Word) : (s.resultK d v).th.s = s.th.s := Thread.setK_s s.th d v
@[simp] theorem State.resultK_th_p (s : State) (d : KReg) (v : Word) : (s.resultK d v).th.p = s.th.p := Thread.setK_p s.th d v
@[simp] theorem State.resultK_th_psz (s : State) (d : KReg) (v : Word) : (s.resultK d v).th.psz = s.th.psz := Thread.setK_psz s.th d v
@[simp] theorem State.resultK_th_vec (s : State) (d : KReg) (v : Word) : (s.resultK d v).th.vec = s.th.vec := Thread.setK_vec s.th d v
@[simp] theorem State.resultK_th_lcount (s : State) (d : KReg) (v : Word) : (s.resultK d v).th.lcount = s.th.lcount := Thread.setK_lcount s.th d v
@[simp] theorem State.resultK_th_laneBusy (s : State) (d : KReg) (v : Word) : (s.resultK d v).th.laneBusy = s.th.laneBusy := Thread.setK_laneBusy s.th d v
@[simp] theorem State.resultK_th_tframe (s : State) (d : KReg) (v : Word) : (s.resultK d v).th.tframe = s.th.tframe := Thread.setK_tframe s.th d v
@[simp] theorem State.resultK_th_level (s : State) (d : KReg) (v : Word) : (s.resultK d v).th.level = s.th.level := Thread.setK_level s.th d v
@[simp] theorem State.resultK_th_intrap (s : State) (d : KReg) (v : Word) : (s.resultK d v).th.intrap = s.th.intrap := Thread.setK_intrap s.th d v
@[simp] theorem State.resultK_th_imask (s : State) (d : KReg) (v : Word) : (s.resultK d v).th.imask = s.th.imask := Thread.setK_imask s.th d v
@[simp] theorem State.resultK_th_gen (s : State) (d : KReg) (v : Word) : (s.resultK d v).th.gen = s.th.gen := Thread.setK_gen s.th d v
@[simp] theorem State.resultK_th_acqL1 (s : State) (d : KReg) (v : Word) : (s.resultK d v).th.acqL1 = s.th.acqL1 := Thread.setK_acqL1 s.th d v
@[simp] theorem State.resultK_th_acqRdc (s : State) (d : KReg) (v : Word) : (s.resultK d v).th.acqRdc = s.th.acqRdc := Thread.setK_acqRdc s.th d v
@[simp] theorem State.resultK_th_convoy (s : State) (d : KReg) (v : Word) : (s.resultK d v).th.convoy = s.th.convoy := Thread.setK_convoy s.th d v
@[simp] theorem State.resultK_th_issue (s : State) (d : KReg) (v : Word) : (s.resultK d v).th.issue = s.th.issue := Thread.setK_issue s.th d v
@[simp] theorem State.resultK_th_replay (s : State) (d : KReg) (v : Word) : (s.resultK d v).th.replay = s.th.replay := Thread.setK_replay s.th d v
@[simp] theorem State.resultK_th_rtn (s : State) (d : KReg) (v : Word) : (s.resultK d v).th.rtn = s.th.rtn := Thread.setK_rtn s.th d v
@[simp] theorem State.resultK_th_vp (s : State) (d : KReg) (v : Word) : (s.resultK d v).th.vp = s.th.vp := Thread.setK_vp s.th d v
@[simp] theorem State.resultK_th_vpHeld (s : State) (d : KReg) (v : Word) : (s.resultK d v).th.vpHeld = s.th.vpHeld := Thread.setK_vpHeld s.th d v
@[simp] theorem State.resultK_th_rwatch (s : State) (d : KReg) (v : Word) : (s.resultK d v).th.rwatch = s.th.rwatch := Thread.setK_rwatch s.th d v
@[simp] theorem State.resultK_th_wait (s : State) (d : KReg) (v : Word) : (s.resultK d v).th.wait = s.th.wait := Thread.setK_wait s.th d v
@[simp] theorem State.resultK_th_spin (s : State) (d : KReg) (v : Word) : (s.resultK d v).th.spin = s.th.spin := Thread.setK_spin s.th d v
@[simp] theorem State.resultK_th_qans (s : State) (d : KReg) (v : Word) : (s.resultK d v).th.qans = s.th.qans := Thread.setK_qans s.th d v
@[simp] theorem State.resultK_th_polling (s : State) (d : KReg) (v : Word) : (s.resultK d v).th.polling = s.th.polling := Thread.setK_polling s.th d v
@[simp] theorem State.resultK_th_ending (s : State) (d : KReg) (v : Word) : (s.resultK d v).th.ending = s.th.ending := Thread.setK_ending s.th d v
@[simp] theorem State.resultK_th_atBar (s : State) (d : KReg) (v : Word) : (s.resultK d v).th.atBar = s.th.atBar := Thread.setK_atBar s.th d v
@[simp] theorem State.resultK_th_mcStop (s : State) (d : KReg) (v : Word) : (s.resultK d v).th.mcStop = s.th.mcStop := Thread.setK_mcStop s.th d v
@[simp] theorem State.resultK_th_recent (s : State) (d : KReg) (v : Word) : (s.resultK d v).th.recent = s.th.recent := Thread.setK_recent s.th d v
@[simp] theorem State.resultK_th_flight (s : State) (d : KReg) (v : Word) : (s.resultK d v).th.flight = s.th.flight := Thread.setK_flight s.th d v

@[simp] theorem State.resultLong_slot (s : State) (d : Reg) (v : Word) : (s.resultLong d v).slot = s.slot := rfl
@[simp] theorem State.resultLong_core (s : State) (d : Reg) (v : Word) : (s.resultLong d v).core = s.core := rfl
@[simp] theorem State.resultLong_coreId (s : State) (d : Reg) (v : Word) : (s.resultLong d v).coreId = s.coreId := rfl
@[simp] theorem State.resultLong_others (s : State) (d : Reg) (v : Word) : (s.resultLong d v).others = s.others := rfl
@[simp] theorem State.resultLong_store (s : State) (d : Reg) (v : Word) : (s.resultLong d v).store = s.store := rfl
@[simp] theorem State.resultLong_fab (s : State) (d : Reg) (v : Word) : (s.resultLong d v).fab = s.fab := rfl
@[simp] theorem State.resultLong_boot (s : State) (d : Reg) (v : Word) : (s.resultLong d v).boot = s.boot := rfl
@[simp] theorem State.resultLong_harvest (s : State) (d : Reg) (v : Word) : (s.resultLong d v).harvest = s.harvest := rfl
@[simp] theorem State.resultLong_drowsyThresh (s : State) (d : Reg) (v : Word) : (s.resultLong d v).drowsyThresh = s.drowsyThresh := rfl
@[simp] theorem State.resultLong_ctxtab (s : State) (d : Reg) (v : Word) : (s.resultLong d v).ctxtab = s.ctxtab := rfl
@[simp] theorem State.resultLong_recmap (s : State) (d : Reg) (v : Word) : (s.resultLong d v).recmap = s.recmap := rfl
@[simp] theorem State.resultLong_time (s : State) (d : Reg) (v : Word) : (s.resultLong d v).time = s.time := rfl
@[simp] theorem State.resultLong_seq (s : State) (d : Reg) (v : Word) : (s.resultLong d v).seq = s.seq := rfl
@[simp] theorem State.resultLong_lag (s : State) (d : Reg) (v : Word) : (s.resultLong d v).lag = s.lag := rfl
@[simp] theorem State.resultLong_free (s : State) (d : Reg) (v : Word) : (s.resultLong d v).free = s.free := rfl
@[simp] theorem State.resultLong_schedule (s : State) (d : Reg) (v : Word) : (s.resultLong d v).schedule = s.schedule := rfl
@[simp] theorem State.resultLong_ev (s : State) (d : Reg) (v : Word) : (s.resultLong d v).ev = s.ev := rfl
@[simp] theorem State.resultLong_th_occ (s : State) (d : Reg) (v : Word) : (s.resultLong d v).th.occ = s.th.occ := Thread.setS_occ s.th d v
@[simp] theorem State.resultLong_th_k (s : State) (d : Reg) (v : Word) : (s.resultLong d v).th.k = s.th.k := Thread.setS_k s.th d v
@[simp] theorem State.resultLong_th_p (s : State) (d : Reg) (v : Word) : (s.resultLong d v).th.p = s.th.p := Thread.setS_p s.th d v
@[simp] theorem State.resultLong_th_psz (s : State) (d : Reg) (v : Word) : (s.resultLong d v).th.psz = s.th.psz := Thread.setS_psz s.th d v
@[simp] theorem State.resultLong_th_vec (s : State) (d : Reg) (v : Word) : (s.resultLong d v).th.vec = s.th.vec := Thread.setS_vec s.th d v
@[simp] theorem State.resultLong_th_lcount (s : State) (d : Reg) (v : Word) : (s.resultLong d v).th.lcount = s.th.lcount := Thread.setS_lcount s.th d v
@[simp] theorem State.resultLong_th_laneBusy (s : State) (d : Reg) (v : Word) : (s.resultLong d v).th.laneBusy = s.th.laneBusy := Thread.setS_laneBusy s.th d v
@[simp] theorem State.resultLong_th_tframe (s : State) (d : Reg) (v : Word) : (s.resultLong d v).th.tframe = s.th.tframe := Thread.setS_tframe s.th d v
@[simp] theorem State.resultLong_th_level (s : State) (d : Reg) (v : Word) : (s.resultLong d v).th.level = s.th.level := Thread.setS_level s.th d v
@[simp] theorem State.resultLong_th_intrap (s : State) (d : Reg) (v : Word) : (s.resultLong d v).th.intrap = s.th.intrap := Thread.setS_intrap s.th d v
@[simp] theorem State.resultLong_th_imask (s : State) (d : Reg) (v : Word) : (s.resultLong d v).th.imask = s.th.imask := Thread.setS_imask s.th d v
@[simp] theorem State.resultLong_th_gen (s : State) (d : Reg) (v : Word) : (s.resultLong d v).th.gen = s.th.gen := Thread.setS_gen s.th d v
@[simp] theorem State.resultLong_th_acqL1 (s : State) (d : Reg) (v : Word) : (s.resultLong d v).th.acqL1 = s.th.acqL1 := Thread.setS_acqL1 s.th d v
@[simp] theorem State.resultLong_th_acqRdc (s : State) (d : Reg) (v : Word) : (s.resultLong d v).th.acqRdc = s.th.acqRdc := Thread.setS_acqRdc s.th d v
@[simp] theorem State.resultLong_th_convoy (s : State) (d : Reg) (v : Word) : (s.resultLong d v).th.convoy = s.th.convoy := Thread.setS_convoy s.th d v
@[simp] theorem State.resultLong_th_issue (s : State) (d : Reg) (v : Word) : (s.resultLong d v).th.issue = s.th.issue := Thread.setS_issue s.th d v
@[simp] theorem State.resultLong_th_replay (s : State) (d : Reg) (v : Word) : (s.resultLong d v).th.replay = s.th.replay := Thread.setS_replay s.th d v
@[simp] theorem State.resultLong_th_rtn (s : State) (d : Reg) (v : Word) : (s.resultLong d v).th.rtn = s.th.rtn := Thread.setS_rtn s.th d v
@[simp] theorem State.resultLong_th_vp (s : State) (d : Reg) (v : Word) : (s.resultLong d v).th.vp = s.th.vp := Thread.setS_vp s.th d v
@[simp] theorem State.resultLong_th_vpHeld (s : State) (d : Reg) (v : Word) : (s.resultLong d v).th.vpHeld = s.th.vpHeld := Thread.setS_vpHeld s.th d v
@[simp] theorem State.resultLong_th_rwatch (s : State) (d : Reg) (v : Word) : (s.resultLong d v).th.rwatch = s.th.rwatch := Thread.setS_rwatch s.th d v
@[simp] theorem State.resultLong_th_wait (s : State) (d : Reg) (v : Word) : (s.resultLong d v).th.wait = s.th.wait := Thread.setS_wait s.th d v
@[simp] theorem State.resultLong_th_spin (s : State) (d : Reg) (v : Word) : (s.resultLong d v).th.spin = s.th.spin := Thread.setS_spin s.th d v
@[simp] theorem State.resultLong_th_qans (s : State) (d : Reg) (v : Word) : (s.resultLong d v).th.qans = s.th.qans := Thread.setS_qans s.th d v
@[simp] theorem State.resultLong_th_polling (s : State) (d : Reg) (v : Word) : (s.resultLong d v).th.polling = s.th.polling := Thread.setS_polling s.th d v
@[simp] theorem State.resultLong_th_ending (s : State) (d : Reg) (v : Word) : (s.resultLong d v).th.ending = s.th.ending := Thread.setS_ending s.th d v
@[simp] theorem State.resultLong_th_atBar (s : State) (d : Reg) (v : Word) : (s.resultLong d v).th.atBar = s.th.atBar := Thread.setS_atBar s.th d v
@[simp] theorem State.resultLong_th_mcStop (s : State) (d : Reg) (v : Word) : (s.resultLong d v).th.mcStop = s.th.mcStop := Thread.setS_mcStop s.th d v
@[simp] theorem State.resultLong_th_recent (s : State) (d : Reg) (v : Word) : (s.resultLong d v).th.recent = s.th.recent := Thread.setS_recent s.th d v
@[simp] theorem State.resultLong_th_flight (s : State) (d : Reg) (v : Word) : (s.resultLong d v).th.flight = s.th.flight := Thread.setS_flight s.th d v

/-! ## What an update writes -/

@[simp] theorem State.setPc_pc (s : State) (pc : Word) : (s.setPc pc).th.pc = pc := rfl
@[simp] theorem State.advance_pc (s : State) (n : Nat) : (s.advance n).th.pc = s.th.pc + wd n := rfl
@[simp] theorem State.result_pc (s : State) (d : Reg) (v : Word) : (s.result d v).th.pc = s.th.pc + wd 4 := by
  simp [State.result]
@[simp] theorem State.resultK_pc (s : State) (d : KReg) (v : Word) : (s.resultK d v).th.pc = s.th.pc + wd 4 := by
  simp [State.resultK]
@[simp] theorem State.resultLong_pc (s : State) (d : Reg) (v : Word) : (s.resultLong d v).th.pc = s.th.pc + wd 8 := by
  simp [State.resultLong]

/-- `s0` reads zero, a written register as written, any other as before (R122). -/
theorem State.getS_setS (s : State) (d r : Reg) (v : Word) :
    (s.setS d v).getS r = if r = 0 then 0 else if r = d then v else s.getS r := by
  unfold State.getS State.setS Thread.getS
  simp only [Thread.setS_s]
  by_cases h0 : r = 0
  · simp [h0]
  · by_cases h1 : r = d
    · subst h1; simp [h0]
    · by_cases h2 : d = 0
      · simp [h0, h2]
      · simp [h0, h1, h2]

/-- `k0` reads all ones, a written register as written, any other as before (R122). -/
theorem State.getK_setK (s : State) (d r : KReg) (v : Word) :
    (s.setK d v).getK r = if r = 0 then BitVec.allOnes 64 else if r = d then v else s.getK r := by
  unfold State.getK State.setK Thread.getK
  simp only [Thread.setK_k]
  by_cases h0 : r = 0
  · simp [h0]
  · by_cases h1 : r = d
    · subst h1; simp [h0]
    · by_cases h2 : d = 0
      · simp [h0, h2]
      · simp [h0, h1, h2]

@[simp] theorem State.getS_zero (s : State) : s.getS 0 = 0 := rfl
@[simp] theorem State.getK_zero (s : State) : s.getK 0 = BitVec.allOnes 64 := rfl
@[simp] theorem State.getS_advance (s : State) (n : Nat) (r : Reg) : (s.advance n).getS r = s.getS r := rfl
@[simp] theorem State.getK_advance (s : State) (n : Nat) (r : KReg) : (s.advance n).getK r = s.getK r := rfl

/-- A result: the register written, the PC four bytes on, nothing else. -/
theorem State.result_eq (s : State) (d : Reg) (v : Word) :
    s.result d v = { s with th := { s.th with s := if d = 0 then s.th.s else wr s.th.s d v, pc := s.th.pc + wd 4 } } := by
  unfold State.result State.advance State.setPc State.setS Thread.setS
  split <;> rfl

theorem State.resultK_eq (s : State) (d : KReg) (v : Word) :
    s.resultK d v = { s with th := { s.th with k := if d = 0 then s.th.k else wr s.th.k d v, pc := s.th.pc + wd 4 } } := by
  unfold State.resultK State.advance State.setPc State.setK Thread.setK
  split <;> rfl

theorem State.resultLong_eq (s : State) (d : Reg) (v : Word) :
    s.resultLong d v = { s with th := { s.th with s := if d = 0 then s.th.s else wr s.th.s d v, pc := s.th.pc + wd 8 } } := by
  unfold State.resultLong State.advance State.setPc State.setS Thread.setS
  split <;> rfl

end Sys2Proof.Machine
end

