-- ==== Sys2Proof/Laws/MemOnly.lean ====
section
/-! SUPPORT. What accesses to memory leave alone: one lemma for each operation over the homes, the caches and the TLBs. -/

namespace Sys2Proof.Machine

theorem MemOnly.refl (s : State) : MemOnly s s := ⟨rfl, fun _ => rfl⟩

theorem MemOnly.trans {s t u : State} (h : MemOnly s t) (k : MemOnly t u) : MemOnly s u := by
  refine ⟨?_, fun n => ?_⟩
  · exact k.rest.trans (congrArg (fun x : State => { x with
      core := u.core, others := u.others, store := u.store, fab := { x.fab with tasks := u.fab.tasks }, free := u.free }) h.rest)
  · have h1 := h.cores n
    have k1 := k.cores n
    rw [k1, h1]

/-- A step of memory that leaves every core as it was. -/
theorem MemOnly.of_store {s t : State}
    (h : t = { s with store := t.store, fab := { s.fab with tasks := t.fab.tasks }, free := t.free }) : MemOnly s t := by
  have h1 : t.core = s.core := by rw [h]
  have h2 : t.others = s.others := by rw [h]
  have h3 : t.coreId = s.coreId := by rw [h]
  refine ⟨by rw [h1, h2]; exact h, fun n => ?_⟩
  have : t.coreAt n = s.coreAt n := by simp only [State.coreAt, h1, h2, h3]
  rw [this]

@[simp] theorem coreAt_setCore_same (s : State) (n : Nat) (c : Core) : (s.setCore n c).coreAt n = c := by
  unfold State.setCore State.coreAt; by_cases h : n = s.coreId <;> simp [h]

theorem coreAt_setCore_ne (s : State) (n j : Nat) (c : Core) (h : j ≠ n) : (s.setCore n c).coreAt j = s.coreAt j := by
  unfold State.setCore State.coreAt
  by_cases h1 : n = s.coreId
  · subst h1; simp [h]
  · by_cases h2 : j = s.coreId <;> simp [h1, h2, look_assoc_ne _ _ _ _ h]

/-- A core whose memory part alone is replaced. -/
theorem MemOnly.of_setCore (s : State) (n : Nat) (c : Core)
    (h : c = { s.coreAt n with
      l1 := c.l1, pred := c.pred, sent := c.sent, tlb := c.tlb, sys := { (s.coreAt n).sys with ipend := c.sys.ipend } }) :
    MemOnly s (s.setCore n c) := by
  refine ⟨?_, fun j => ?_⟩
  · unfold State.setCore; split <;> rfl
  · by_cases hj : j = n
    · subst hj; rw [coreAt_setCore_same]; exact h
    · rw [coreAt_setCore_ne _ _ _ _ hj]

theorem memOnly_foldl {f : State → α → State} (h : ∀ s a, MemOnly s (f s a)) (l : List α) (s : State) :
    MemOnly s (l.foldl f s) := by
  induction l generalizing s with
  | nil => exact .refl s
  | cons a l ih => exact (h s a).trans (ih _)

/-! ## Homes -/

theorem memOnly_setIpend (s : State) (n : Nat) (b : BitVec 3) : MemOnly s (s.setIpend n b) := .of_setCore s n _ rfl

theorem memOnly_noteAccess (s : State) (ps : List (Nat × BitVec 32)) (r w : Bool) : MemOnly s (s.noteAccess ps r w) := by
  unfold State.noteAccess
  refine (MemOnly.of_store ?_).trans (memOnly_foldl ?_ _ _)
  · rfl
  · intro t x; simp only []; split
    · exact memOnly_setIpend ..
    · exact .refl t

theorem memOnly_noteHome (s : State) (k : Nat) (m : BitVec 32) (r w : Bool) : MemOnly s (s.noteHome k m r w) :=
  memOnly_noteAccess ..

theorem memOnly_setHome (s : State) (k : Nat) (d : Blob) (m : BitVec 32) (c f : Bool) : MemOnly s (s.setHome k d m c f) :=
  .of_store rfl

theorem memOnly_wakePending (s : State) (k : Nat) : MemOnly s (s.wakePending k) := by
  unfold State.wakePending
  simp only []
  split
  · exact (MemOnly.of_store rfl).trans (memOnly_noteHome ..)
  · exact .refl s

theorem memOnly_mergeHome (s : State) (k : Nat) (d : Blob) (m : BitVec 32) (c f u : Bool) :
    MemOnly s (s.mergeHome k d m c f u) := by
  unfold State.mergeHome
  split
  · exact .refl s
  · exact ((memOnly_setHome ..).trans (memOnly_noteHome ..)).trans (memOnly_wakePending ..)

theorem memOnly_sendSector (s : State) (n : Nat) (l : L1Line) (i : Fin 4) : MemOnly s (s.sendSector n l i) := by
  unfold State.sendSector
  simp only []
  split
  · exact .refl s
  · split
    · have h := memOnly_mergeHome s (4 * linLine l.tag + i.val) (getB l.data (32 * i.val) 32) (rd l.sec i).dmask
        (rd l.sec i).poison (rd l.sec i).full false
      generalize s.mergeHome _ _ _ _ _ _ = t at h ⊢
      exact (h.trans (MemOnly.of_store (t := { t with store := (t.store.rdcMerge (dieOf n) l.tag i.val
        (getB l.data (32 * i.val) 32) (rd l.sec i).dmask (rd l.sec i).poison (rd l.sec i).full) }) rfl)).trans
        (.of_setCore _ _ _ rfl)
    · exact memOnly_mergeHome ..

theorem memOnly_sendLine (s : State) (n : Nat) (l : L1Line) : MemOnly s (s.sendLine n l) :=
  memOnly_foldl (fun t i => memOnly_sendSector t n l i) _ s

theorem memOnly_recallFrom (s : State) (n line : Nat) : MemOnly s (s.recallFrom n line) := by
  unfold State.recallFrom
  simp only []
  split
  · exact .refl s
  · exact (MemOnly.of_setCore s n _ rfl).trans (memOnly_sendLine ..)

theorem memOnly_recall (s : State) (line : Nat) (keep : Option (Nat × Nat)) : MemOnly s (s.recall line keep) := by
  refine memOnly_foldl (fun t n => ?_) _ s
  split
  · exact .refl t
  · exact memOnly_recallFrom ..

theorem memOnly_homeRead (s : State) (lin n : Nat) : MemOnly s (s.homeRead lin n) :=
  (memOnly_recall ..).trans (memOnly_noteHome ..)

theorem memOnly_homeWrite (s : State) (lin n v : Nat) (c : Bool) : MemOnly s (s.homeWrite lin n v c) :=
  (memOnly_recall ..).trans (memOnly_mergeHome ..)

theorem memOnly_quietWrite (s : State) (lin n v : Nat) : MemOnly s (s.quietWrite lin n v) :=
  ((memOnly_recall ..).trans (memOnly_setHome ..)).trans (memOnly_wakePending ..)

theorem memOnly_devWriteN (fuel : Nat) (s : State) (pa n v : Nat) : MemOnly s (State.devWriteN fuel s pa n v) := by
  induction fuel generalizing s pa n v with
  | zero => exact .refl s
  | succ k ih =>
    unfold State.devWriteN
    split
    · exact .refl s
    · exact (memOnly_homeWrite ..).trans (ih ..)

theorem memOnly_devReadN (fuel : Nat) (s : State) (pa n : Nat) : MemOnly s (State.devReadN fuel s pa n) := by
  induction fuel generalizing s pa n with
  | zero => exact .refl s
  | succ k ih =>
    unfold State.devReadN
    split
    · exact .refl s
    · exact (memOnly_homeRead ..).trans (ih ..)

/-! ## L1 -/

/-- The core in focus alone is replaced, in its memory part. -/
theorem MemOnly.of_core (s : State) (c : Core)
    (h : c = { s.core with
      l1 := c.l1, pred := c.pred, sent := c.sent, tlb := c.tlb, sys := { s.core.sys with ipend := c.sys.ipend } }) :
    MemOnly s { s with core := c } := by
  have e : ({ s with core := c } : State) = s.setCore s.coreId c := by simp [State.setCore]
  rw [e]
  refine .of_setCore s s.coreId c ?_
  have e2 : s.coreAt s.coreId = s.core := by simp [State.coreAt]
  rw [e2]; exact h

theorem memOnly_free (s : State) (n : Nat) : MemOnly s { s with free := n } := .of_store rfl

theorem memOnly_newWay (s : State) (tag : Nat) : MemOnly s (s.newWay tag).1 := by
  unfold State.newWay
  simp only []
  split
  · exact .refl s
  · exact memOnly_free ..

theorem putLine_eq (c : Core) (l : L1Line) : c.putLine l = { c with l1 := (c.putLine l).l1 } := by
  unfold Core.putLine; split <;> rfl

theorem memOnly_putLine (s : State) (l : L1Line) : MemOnly s { s with core := s.core.putLine l } :=
  .of_core s _ (by rw [putLine_eq])

theorem memOnly_putL1 (s : State) (l : L1Line) : MemOnly s (s.putL1 l) := by
  unfold State.putL1
  split
  · exact memOnly_putLine ..
  · split
    · exact .refl s
    · exact (memOnly_newWay ..).trans (memOnly_putLine ..)

theorem memOnly_readLine (s : State) (line : Nat) : MemOnly s (s.readLine line) :=
  (memOnly_recall ..).trans (memOnly_noteAccess ..)

theorem memOnly_rdcFill (s : State) (die tag : Nat) : MemOnly s (s.rdcFill die tag).1 :=
  (memOnly_readLine s (linLine tag)).trans (.of_store rfl)

theorem memOnly_fetchLine (s : State) (tag : Nat) : MemOnly s (s.fetchLine tag).1 := by
  unfold State.fetchLine
  split
  · simp only []
    split
    · exact .of_store rfl
    · exact memOnly_rdcFill ..
  · exact memOnly_readLine s (linLine tag)

theorem memOnly_l1Read (s : State) (pa n : Nat) : MemOnly s (s.l1Read pa n).1 := by
  unfold State.l1Read
  simp only []
  split
  · exact .refl s
  · exact (memOnly_fetchLine ..).trans (memOnly_putL1 ..)

theorem memOnly_l1ReadHome (s : State) (pa n : Nat) : MemOnly s (s.l1ReadHome pa n).1 := by
  unfold State.l1ReadHome
  simp only []
  split <;> exact memOnly_homeRead ..

theorem memOnly_dropL1 (s : State) (tag : Nat) : MemOnly s { s with core := s.core.dropL1 tag } := .of_core s _ rfl

theorem MemOnly.drops {s t : State} (h : MemOnly s t) : MemAndDrops s t := by
  have e : t.fab.drops = s.fab.drops := by rw [h.rest]
  exact ⟨by rw [← e]; exact h, [], by rw [e, List.append_nil]⟩

theorem MemAndDrops.trans {s t u : State} (h : MemAndDrops s t) (k : MemAndDrops t u) : MemAndDrops s u := by
  obtain ⟨hm, ds, hd⟩ := h
  obtain ⟨km, es, kd⟩ := k
  refine ⟨⟨?_, fun n => ?_⟩, ds ++ es, by rw [kd, hd, List.append_assoc]⟩
  · have a := congrArg (fun x : State => ({ x with fab := { x.fab with drops := s.fab.drops } } : State)) km.rest
    refine a.trans ?_
    exact congrArg (fun x : State => { x with
      core := u.core, others := u.others, store := u.store, fab := { x.fab with tasks := u.fab.tasks }, free := u.free }) hm.rest
  · have k1 : u.coreAt n = _ := km.cores n
    have h1 : t.coreAt n = _ := hm.cores n
    refine k1.trans ?_
    rw [h1]
    rfl

theorem memAndDrops_foldl {f : State → α → State} (h : ∀ s a, MemAndDrops s (f s a)) (l : List α) (s : State) :
    MemAndDrops s (l.foldl f s) := by
  induction l generalizing s with
  | nil => exact (MemOnly.refl s).drops
  | cons a l ih => exact (h s a).trans (ih _)

/-- A last-use load's drops on one line: the home's is put on its way. -/
theorem memAndDrops_dropLast (s : State) (tag : Nat) : MemAndDrops s (s.dropLast tag) :=
  ⟨(memOnly_dropL1 s tag).trans (.of_store rfl), _, rfl⟩

theorem memOnly_storeThrough (s : State) (pa n v : Nat) : MemOnly s (s.storeThrough pa n v) :=
  (memOnly_homeWrite ..).trans (.of_store rfl)

theorem memOnly_l1Write (s : State) (pa n v : Nat) : MemOnly s (s.l1Write pa n v) := by
  unfold State.l1Write
  split
  · exact memOnly_storeThrough ..
  · exact memOnly_putL1 ..

theorem memOnly_writeBack (s : State) (n tag : Nat) (sel : L1Sector → Bool) : MemOnly s (s.writeBack n tag sel) := by
  unfold State.writeBack
  split
  · exact .refl s
  · simp only []
    refine ((memOnly_recall ..).trans (memOnly_foldl (fun t i => ?_) _ _)).trans (.of_setCore _ _ _ ?_)
    · split
      · exact memOnly_sendSector ..
      · exact .refl t
    · rw [putLine_eq]

theorem memOnly_evict (s : State) (n tag : Nat) : MemOnly s (s.evict n tag) :=
  (memOnly_writeBack ..).trans (.of_setCore _ _ _ rfl)

theorem memOnly_homeReady (s : State) (pa : Nat) : MemOnly s (s.homeReady pa) := by
  unfold State.homeReady
  simp only []
  have h := (memOnly_evict s s.coreId (pa / 128)).trans (memOnly_recall _ (linLine (pa / 128)) none)
  generalize ((s.evict s.coreId (pa / 128)).recall (linLine (pa / 128)) none) = t at h ⊢
  exact (h.trans (MemOnly.of_store (t := { t with store := t.store.rdcDrop (dieOf t.coreId) (pa / 128) }) rfl)).trans
    (.of_core _ _ rfl)

theorem memOnly_own (s : State) (tag : Nat) : MemOnly s (s.own tag).1 := by
  unfold State.own
  simp only []
  split
  · exact .of_core s _ rfl
  · exact ((memOnly_readLine s (linLine tag)).trans (.of_store rfl)).trans (memOnly_putL1 ..)

/-! ## Fences, translation -/

theorem memOnly_drainPosted (s : State) : MemOnly s s.drainPosted :=
  (memOnly_foldl (fun t (_ : Posted) => memOnly_devWriteN _ t _ _ _) _ s).trans (.of_store rfl)

theorem memOnly_release (s : State) (scope : Nat) : MemOnly s (s.release scope) := by
  unfold State.release
  split
  · exact .refl s
  · simp only []
    have h : MemOnly s (s.dirtyLines.foldl (fun t tag => t.writeBack t.coreId tag (fun x => rd x.own t.slot != 0)) s) :=
      memOnly_foldl (fun t tag => memOnly_writeBack ..) _ s
    split
    · exact h
    · refine h.trans ?_
      generalize s.dirtyLines.foldl _ s = t
      exact (MemOnly.of_store (t := { t with store := ((t.core.sent.filter (fun p => p.1 == t.slot.val)).foldl
        (fun st p => st.rdcDrop (dieOf t.coreId) (otherTag p.2)) t.store) }) rfl).trans (.of_core _ _ rfl)

theorem memOnly_walked (s : State) (pas : List Nat) : MemOnly s (s.walked pas) :=
  (memOnly_free s (s.free + 1)).trans (memOnly_foldl (fun t _ => memOnly_homeRead t _ 8) pas _)

theorem memOnly_tlbFill (s : State) (e : TlbEntry) : MemOnly s (s.tlbFill e) := by
  unfold State.tlbFill
  simp only []
  exact (MemOnly.of_core s { s.core with tlb := e :: s.core.tlb.take 63 } rfl).trans (.of_store rfl)

theorem memOnly_translate (s : State) (va : Nat) (need : Need) : MemOnly s (s.translate va need).1 := by
  unfold State.translate
  simp only []
  split
  · exact .refl s
  · split
    · exact .refl s
    · split
      · exact memOnly_walked ..
      · simp only []
        split
        · exact (memOnly_walked ..).trans (memOnly_tlbFill ..)
        · exact memOnly_walked ..

theorem memOnly_locate (s : State) (va n : Nat) (need : Need) : MemOnly s (s.locate va n need).1 := by
  unfold State.locate
  simp only []
  split
  · split <;> exact .refl s
  · split
    · exact memOnly_translate ..
    · split <;> exact memOnly_translate ..

theorem watchAt_state (s : State) (va n : Nat) (r w : Bool) :
    (s.watchAt va n r w).1 = s ∨ (s.watchAt va n r w).1 = { s with th := { s.th with rwatch := none } } := by
  unfold State.watchAt
  split
  · exact .inl rfl
  · split
    · exact .inr rfl
    · exact .inl rfl

theorem memOnly_reachUnwatched (s : State) (va n al : Nat) (need : Need) : MemOnly s (s.reachUnwatched va n al need).1 := by
  unfold State.reachUnwatched; split
  · exact .refl s
  · exact memOnly_locate ..

/-- The checks of an access change memory's bookkeeping and, of the thread, at most `rwatch`. -/
theorem memOnly_reach (s : State) (va n al : Nat) (need : Need) :
    ∃ s1, MemOnly s s1 ∧ ((s.reach va n al need).1 = s1 ∨
      (s.reach va n al need).1 = { s1 with th := { s1.th with rwatch := none } }) := by
  refine ⟨_, memOnly_reachUnwatched s va n al need, ?_⟩
  have h := watchAt_state (s.reachUnwatched va n al need).1 va n (need = .read || need = .atomic) (need = .write || need = .atomic)
  unfold State.reach
  simp only []
  split
  · exact .inl rfl
  · split <;> exact h

/-! ## Physical accesses -/

theorem memOnly_readPa (s : State) (kind : LoadKind) (pa n : Nat) : MemOnly s (s.readPa kind pa n).1 := by
  unfold State.readPa
  split
  · split
    · exact memOnly_l1ReadHome ..
    · exact memOnly_l1Read ..
  all_goals exact .refl s

theorem memOnly_readAt (s : State) (kind : LoadKind) (tg : Target) (n : Nat) : MemOnly s (s.readAt kind tg n).1 := by
  unfold State.readAt
  split
  · exact .refl s
  · exact memOnly_readPa ..

/-! ## Atomics, records, code (R297, R298, R386) -/

theorem memOnly_amoMeets (s : State) (q : AmoReq) (tg : Target) : MemOnly s (s.amoMeets q tg) := by
  unfold State.amoMeets
  split
  · exact .refl s
  · split
    · split
      · exact (memOnly_homeReady ..).trans (memOnly_homeRead ..)
      · exact memOnly_own ..
    all_goals exact .refl s

theorem memOnly_noteAtomic (s : State) (line : Nat) (core : Option Nat) : MemOnly s (s.noteAtomic line core).1 := by
  unfold State.noteAtomic
  simp only []
  split <;> exact .of_store rfl

theorem memOnly_readRec (s : State) (rec_ : Nat) : MemOnly s (s.readRec rec_) := (memOnly_readLine ..).trans (memOnly_readLine ..)

theorem memOnly_readMap (s : State) (lin : Nat) : MemOnly s (s.readMap lin) := by
  unfold State.readMap
  split
  · exact memOnly_homeRead ..
  all_goals exact .refl s

theorem memOnly_readBlock (s : State) (blk : Nat) : MemOnly s (s.readBlock blk) := (memOnly_recall ..).trans (memOnly_noteAccess ..)

theorem memAndDrops_dropAt (s : State) (tg : Target) : MemAndDrops s (s.dropAt tg) := by
  unfold State.dropAt
  split
  · exact (MemOnly.refl s).drops
  · split
    · exact memAndDrops_dropLast ..
    all_goals exact (MemOnly.refl s).drops

/-- The drops of a last-use slot's places, and of the elements that it had completed before it was resumed. -/
theorem memAndDrops_dropAll (s : State) (ps : List (Target × Nat)) : MemAndDrops s (s.dropAll ps) :=
  memAndDrops_foldl (α := Target × Nat) (f := fun t p => t.dropAt p.1) (fun t p => memAndDrops_dropAt t p.1) ps s

theorem memOnly_relocate (s : State) (need : Need) (vas : List (Nat × Nat)) : MemOnly s (s.relocate need vas).1 := by
  induction vas generalizing s with
  | nil => exact .refl s
  | cons p l ih => exact (memOnly_locate s p.1 p.2 need).trans (ih _)

theorem memAndDrops_dropEarlier (s : State) (vas : List (Nat × Nat)) : MemAndDrops s (s.dropEarlier vas) :=
  (memOnly_relocate s .read vas).drops.trans (memAndDrops_dropAll _ _)

/-- A store that reaches device memory, host memory or a peer. -/
theorem memOnly_writePa (s : State) (pa n v : Nat) (h : ∀ off, s.place pa ≠ .cfg off) : MemOnly s (s.writePa pa n v) := by
  unfold State.writePa
  split
  · exact memOnly_l1Write ..
  · exact .of_store rfl
  · exact .of_store rfl
  · exact absurd ‹_› (h _)
  · exact .refl s

theorem MemOnly.access {s t : State} (h : MemOnly s t) : AccessOnly s t := by
  refine ⟨?_, h.cores⟩
  have e : t.th = s.th := by rw [h.rest]
  rw [e]; exact h.rest

theorem AccessOnly.then {s t u : State} (h : AccessOnly s t) (k : MemOnly t u) : AccessOnly s u := by
  refine ⟨?_, fun n => ?_⟩
  · have e : u.th = t.th := by rw [k.rest]
    rw [e]
    exact k.rest.trans (congrArg (fun x : State => { x with
      core := u.core, others := u.others, store := u.store, fab := { x.fab with tasks := u.fab.tasks }, free := u.free }) h.rest)
  · rw [k.cores n, h.cores n]

theorem accessOnly_reach (s : State) (va n al : Nat) (need : Need) : AccessOnly s (s.reach va n al need).1 := by
  obtain ⟨s1, h, e | e⟩ := memOnly_reach s va n al need
  · rw [e]; exact h.access
  · rw [e]
    refine ⟨?_, h.cores⟩
    exact congrArg (fun x : State => ({ x with th := { x.th with rwatch := none } } : State)) h.rest

end Sys2Proof.Machine
end

