-- ==== Sys2Proof/Laws/View.lean ====
section
/-! SUPPORT. The bytes of memory that a thread reads depend on a part of the state only: an instruction that leaves that part as it was
leaves every byte of memory as it was. -/

namespace Sys2Proof.Machine

/-- A store with what reading memory neither sees nor changes taken from another. -/
def Store.recast (st u : Store) : Store :=
  { st with ss := u.ss, sliceGen := u.sliceGen, l2tlb := u.l2tlb, trav := u.trav, atomLog := u.atomLog, posted := u.posted, kept := u.kept }

/-- The state u with the part of s that reading memory can see or change. -/
def State.recast (s u : State) : State :=
  { u with
    th := { u.th with acqL1 := s.th.acqL1, acqRdc := s.th.acqRdc, level := s.th.level }
    core := { u.core with
      spad := s.core.spad, l1 := s.core.l1, pred := s.core.pred, sent := s.core.sent, task := s.core.task
      sys := { u.core.sys with ipend := s.core.sys.ipend, ctxid := s.core.sys.ctxid, lease := s.core.sys.lease } }
    coreId := s.coreId, others := s.others
    store := s.store.recast u.store
    fab := { u.fab with tasks := s.fab.tasks, linksDown := s.fab.linksDown }
    boot := s.boot, harvest := s.harvest, drowsyThresh := s.drowsyThresh, time := s.time, seq := s.seq, lag := s.lag
    free := s.free }

/-- A core with what reading memory can see or change taken from another. -/
def Core.recast (c d : Core) : Core :=
  { d with
    spad := c.spad, l1 := c.l1, pred := c.pred, sent := c.sent, task := c.task
    sys := { d.sys with ipend := c.sys.ipend, ctxid := c.sys.ctxid, lease := c.sys.lease } }

/-- An operation that neither sees nor changes the rest of the state. -/
def Blind (f : State → State) : Prop := ∀ s u, f (s.recast u) = (f s).recast u

theorem Blind.comp {f g : State → State} (hf : Blind f) (hg : Blind g) : Blind (fun s => g (f s)) := by
  intro s u; exact (congrArg g (hf s u)).trans (hg (f s) u)

theorem blind_foldl {f : State → α → State} (h : ∀ a, Blind (fun s => f s a)) (l : List α) : Blind (fun s => l.foldl f s) := by
  intro s u
  induction l generalizing s with
  | nil => rfl
  | cons a l ih => simp only [List.foldl_cons]; rw [← ih]; exact congrArg (fun x => l.foldl f x) (h a s u)

theorem poisonMedia_recast (st u : Store) (k : Nat) (on : Bool) : (st.recast u).poisonMedia k on = (st.poisonMedia k on).recast u := by
  unfold Store.poisonMedia; split
  · simp only [show (st.recast u).poison = st.poison from rfl]; split <;> rfl
  · rfl

theorem media_recast (st u : Store) (m : Mem) : { st.recast u with media := m } = ({ st with media := m } : Store).recast u := rfl

theorem cleanSector_recast (st u : Store) (k : Nat) : (st.recast u).cleanSector k = (st.cleanSector k).recast u := by
  unfold Store.cleanSector
  simp only [show (st.recast u).l2 = st.l2 from rfl, show (st.recast u).dropSector k = (st.dropSector k).recast u from rfl,
    poisonMedia_recast]
  split
  · rfl
  · split
    · rfl
    · generalize (st.dropSector k).poisonMedia k _ = z
      rw [show (z.recast u).media = z.media from rfl]
      exact media_recast z u _

theorem cleanLine_recast (st u : Store) (line : Nat) : (st.recast u).cleanLine line = (st.cleanLine line).recast u := by
  simp only [Store.cleanLine, List.foldl, cleanSector_recast]

theorem l2Room_recast (st u : Store) (line : Nat) :
    (st.recast u).l2Room line = ((st.l2Room line).1.recast u, (st.l2Room line).2) := by
  unfold Store.l2Room
  have h1 : (st.recast u).l2 = st.l2 := rfl
  have h2 : (st.recast u).l2Ways (homeSlice (128 * line)) = st.l2Ways (homeSlice (128 * line)) := rfl
  rw [h1, h2]
  cases st.l2.find? (fun x => x.addr / 4 == line) with
  | some x => rfl
  | none =>
    simp only [cleanLine_recast]
    generalize st.l2.filter _ = mine
    generalize (List.range _).find? _ = free
    cases free <;> cases mine.getLast? <;> rfl

theorem putSector_recast (st u : Store) (k : Nat) (d : Blob) (m : BitVec 32) (p : Bool) :
    (st.recast u).putSector k d m p = (st.putSector k d m p).recast u := by
  unfold Store.putSector; rw [l2Room_recast]; rfl

theorem store_recast (s u : State) : (s.recast u).store = s.store.recast u.store := rfl

theorem coreAt_recast (s u : State) (n : Nat) :
    (s.recast u).coreAt n = if n = s.coreId then (s.coreAt n).recast u.core else s.coreAt n := by
  unfold State.coreAt; by_cases h : n = s.coreId <;> simp [h, State.recast, Core.recast]

/-- A core's replacement, when the new core is made alike from both. -/
theorem setCore_recast (s u : State) (n : Nat) (c c' : Core) (h : c' = if n = s.coreId then c.recast u.core else c) :
    (s.recast u).setCore n c' = (s.setCore n c).recast u := by
  subst h; unfold State.setCore; by_cases h : n = s.coreId <;> simp [h, State.recast, Core.recast]

theorem blind_setIpend (n : Nat) (b : BitVec 3) : Blind (fun s => s.setIpend n b) := by
  intro s u
  apply setCore_recast
  rw [coreAt_recast]; by_cases h : n = s.coreId <;> simp [h, Core.recast]

theorem blind_noteAccess (ps : List (Nat × BitVec 32)) (r w : Bool) : Blind (fun s => s.noteAccess ps r w) := by
  intro s u
  refine blind_foldl (f := fun t (w : HomeWatch) =>
    let c := t.coreAt w.core
    if c.task.isSome && c.sys.ctxid.toNat == w.ctx then t.setIpend w.core 4 else t) ?_
    (s.store.homeW.filter (fun x => x.hit ps r w))
    { s with store := { s.store with
      drowsy := s.store.drowsy.filter (fun b => !ps.any (fun p => b == homeBank (32 * p.1)))
      homeW := s.store.homeW.map (fun x => if x.hit ps r w then { x with hits := min (x.hits + 1) (2 ^ 32 - 1) } else x) } } u
  intro w s u
  have h : ((s.recast u).coreAt w.core).task = (s.coreAt w.core).task ∧
      ((s.recast u).coreAt w.core).sys.ctxid = (s.coreAt w.core).sys.ctxid := by
    rw [coreAt_recast]; by_cases h : w.core = s.coreId <;> simp [h, Core.recast]
  simp only [h.1, h.2]
  split
  · exact blind_setIpend w.core 4 s u
  · rfl

theorem blind_noteHome (k : Nat) (m : BitVec 32) (r w : Bool) : Blind (fun s => s.noteHome k m r w) := blind_noteAccess _ r w

theorem blind_setHome (k : Nat) (d : Blob) (m : BitVec 32) (c f : Bool) : Blind (fun s => s.setHome k d m c f) := by
  intro s u
  simp only [State.setHome, store_recast, show (s.store.recast u.store).sector k = s.store.sector k from rfl,
    show (s.store.recast u.store).dirtyMask k = s.store.dirtyMask k from rfl, putSector_recast]
  simp only [Store.writeMarks]
  split <;> rfl

theorem blind_wakePending (k : Nat) : Blind (fun s => s.wakePending k) := by
  intro s u
  unfold State.wakePending
  simp only [show (s.recast u).fab.tasks = s.fab.tasks from rfl, show (s.recast u).time = s.time from rfl,
    store_recast, show (s.store.recast u.store).sector k = s.store.sector k from rfl,
    show (s.store.recast u.store).dirtyMask k = s.store.dirtyMask k from rfl, putSector_recast]
  split
  · exact blind_noteHome k (maskB 20 1) false true
      { s with
        fab := { s.fab with tasks := s.fab.tasks.map (fun t =>
          if (t.phase == .pending && t.rec_ == 32 * k) = true then t.enterReady s.time else t) }
        store := s.store.putSector k (putB (s.store.sector k).1 20 1 2) (s.store.dirtyMask k ||| maskB 20 1) (s.store.sector k).2 } u
  · rfl

theorem blind_mergeHome (k : Nat) (d : Blob) (m : BitVec 32) (c f w : Bool) : Blind (fun s => s.mergeHome k d m c f w) := by
  intro s u
  unfold State.mergeHome
  split
  · rfl
  · exact ((blind_setHome k d m c f).comp (blind_noteHome k m w true)).comp (blind_wakePending k) s u

theorem blind_sendSector (n : Nat) (l : L1Line) (i : Fin 4) : Blind (fun s => s.sendSector n l i) := by
  intro s u
  have hm := blind_mergeHome (4 * linLine l.tag + i.val) (getB l.data (32 * i.val) 32) (rd l.sec i).dmask (rd l.sec i).poison
    (rd l.sec i).full false s u
  simp only [] at hm
  by_cases hx : (rd l.sec i).dmask = 0
  · simp [State.sendSector, hx]
  · by_cases hr : remoteTo n l.tag = true
    · simp only [State.sendSector, hx, hr, if_true, if_false, hm]
      generalize s.mergeHome _ _ _ _ _ _ = s1
      refine setCore_recast { s1 with store := (s1.store.rdcMerge (dieOf n) l.tag i.val (getB l.data (32 * i.val) 32)
        (rd l.sec i).dmask (rd l.sec i).poison (rd l.sec i).full) } u n _ _ ?_
      refine Eq.trans ?_ (b := ?_) ?_
      · exact (fun c : Core => { c with sent :=
          ((((List.range 4).filter (fun j => ((rd l.sec i).own[j]?.getD 0) != 0)).map (fun j => (j, l.tag))).filter
            (fun p => !c.sent.contains p)) ++ c.sent }) (if n = s1.coreId then (s1.coreAt n).recast u.core else s1.coreAt n)
      · rw [← coreAt_recast]; rfl
      · by_cases h : n = s1.coreId <;> simp [h, Core.recast, State.coreAt]
    · simp only [State.sendSector, hx, hr, if_false, hm, Bool.false_eq_true]

theorem blind_sendLine (n : Nat) (l : L1Line) : Blind (fun s => s.sendLine n l) := blind_foldl (blind_sendSector n l) _

theorem exclLine_recast (s u : State) (n line : Nat) :
    ((s.recast u).coreAt n).exclLine line = (s.coreAt n).exclLine line := by
  rw [coreAt_recast]; by_cases h : n = s.coreId <;> simp [h, Core.recast, Core.exclLine]

theorem blind_recallFrom (n line : Nat) : Blind (fun s => s.recallFrom n line) := by
  intro s u
  have h := exclLine_recast s u n line
  unfold State.recallFrom
  simp only [h]
  split
  · rfl
  · next l _ =>
    refine Eq.trans (congrArg (fun x : State => x.sendLine n l) (setCore_recast s u n
      (((s.coreAt n).dropL1 l.tag).bump l.tag true) _ ?_)) (blind_sendLine n l _ u)
    rw [coreAt_recast]; by_cases h : n = s.coreId <;> simp [h, Core.recast, Core.dropL1, Core.bump]

theorem blind_recall (line : Nat) (keep : Option (Nat × Nat)) : Blind (fun s => s.recall line keep) := by
  intro s u
  refine blind_foldl (f := fun t n => if t.keeps keep n line then t else t.recallFrom n line) ?_ _ s u
  intro n s u
  have hk : (s.recast u).keeps keep n line = s.keeps keep n line := by simp only [State.keeps, exclLine_recast]
  simp only [hk]
  split
  · rfl
  · exact blind_recallFrom n line s u

theorem blind_readLine (line : Nat) : Blind (fun s => s.readLine line) :=
  (blind_recall line none).comp (blind_noteAccess (lineMasks line) true false)

theorem grantNow_recast (s u : State) (line : Nat) :
    (s.recast u).grantNow line = ((s.grantNow line).1.recast u, (s.grantNow line).2) := by
  have h := blind_readLine line s u
  simp only [] at h
  unfold State.grantNow
  simp only [h]
  rfl

theorem rdcFill_recast (s u : State) (die tag : Nat) :
    (s.recast u).rdcFill die tag = ((s.rdcFill die tag).1.recast u, (s.rdcFill die tag).2) := by
  unfold State.rdcFill
  simp only [grantNow_recast]
  rfl

theorem fetchLine_recast (s u : State) (tag : Nat) :
    (s.recast u).fetchLine tag = ((s.fetchLine tag).1.recast u, (s.fetchLine tag).2) := by
  unfold State.fetchLine
  simp only [show (s.recast u).coreId = s.coreId from rfl,
    show (s.recast u).rdcCopy tag = s.rdcCopy tag from rfl, grantNow_recast, rdcFill_recast]
  split
  · split <;> rfl
  · rfl

theorem l1Read_recast (s u : State) (pa n : Nat) : ((s.recast u).l1Read pa n).2 = (s.l1Read pa n).2 := by
  unfold State.l1Read
  simp only [fetchLine_recast]
  have h1 : ((s.recast u).core.line (pa / 128)).filter (s.recast u).usable = (s.core.line (pa / 128)).filter s.usable := rfl
  simp only [h1]
  split <;> rfl

theorem place_recast (s u : State) (pa : Nat) : (s.recast u).place pa = s.place pa := rfl

theorem readPa_recast (s u : State) (pa n : Nat) : ((s.recast u).readPa .plain pa n).2 = (s.readPa .plain pa n).2 := by
  unfold State.readPa
  simp only [place_recast]
  split
  · simp [l1Read_recast]
  · rfl
  · rfl
  · rfl
  · rfl

theorem byteAt_recast (s u : State) (tg : Target) : (s.recast u).byteAt tg = s.byteAt tg := by
  unfold State.byteAt State.readAt
  cases tg with
  | spad off => rfl
  | mem pa rc => simp only [readPa_recast]

/-- A state that holds the same as s wherever reading memory looks reads every byte alike. -/
theorem SameBytes.of_recast {s t : State} (h : t = s.recast t) : SameBytes s t := by
  intro tg; rw [h]; exact byteAt_recast s t tg

/-- Only the thread has changed, and neither its level nor what its acquires have told it. -/
theorem OnlyThread.of_eq {s t : State} (h : t = { s with th := t.th }) (h1 : t.th.acqL1 = s.th.acqL1)
    (h2 : t.th.acqRdc = s.th.acqRdc) (h3 : t.th.level = s.th.level) : OnlyThread s t := by
  refine ⟨h, SameBytes.of_recast ?_⟩
  rw [h]
  simp only [State.recast]
  simp [Store.recast, ← h1, ← h2, ← h3]

end Sys2Proof.Machine
end

