-- ==== Sys2Proof/Laws/Shapes.lean ====
section
/-! SUPPORT. What the shared shapes of an instruction leave: one register written, a branch, an advance of the PC. -/

namespace Sys2Proof.Machine

/-- Everything `result` does. -/
theorem result_writesS (s : State) (d : Reg) (v : Word) : WritesS s d v 4 (s.result d v) := by
  refine ⟨?_, ?_, ?_, OnlyThread.of_eq ?_ ?_ ?_ ?_⟩
  · by_cases h : d = 0 <;> simp [State.getS, Thread.getS, State.result, State.advance, State.setPc, State.setS, h]
  · intro r hr
    by_cases h : r = 0
    · simp [State.getS, Thread.getS, h]
    · simp only [State.getS, Thread.getS, State.result, State.advance, State.setPc, State.setS, Thread.setS_s, h, if_false]
      split
      · rfl
      · simp [hr]
  · simp only [State.result, State.advance, State.setPc, State.setS, Thread.setS]; split <;> rfl
  · rfl
  · simp
  · simp
  · simp

/-- Everything `resultK` does. -/
theorem resultK_writesK (s : State) (d : KReg) (v : Word) : WritesK s d v 4 (s.resultK d v) := by
  refine ⟨?_, ?_, ?_, OnlyThread.of_eq ?_ ?_ ?_ ?_⟩
  · by_cases h : d = 0 <;> simp [State.getK, Thread.getK, State.resultK, State.advance, State.setPc, State.setK, h]
  · intro r hr
    by_cases h : r = 0
    · simp [State.getK, Thread.getK, h]
    · simp only [State.getK, Thread.getK, State.resultK, State.advance, State.setPc, State.setK, Thread.setK_k, h, if_false]
      split
      · rfl
      · simp [hr]
  · simp only [State.resultK, State.advance, State.setPc, State.setK, Thread.setK]; split <;> rfl
  · rfl
  · simp
  · simp
  · simp

/-- Everything a jump with a link does. -/
theorem link_links (s : State) (d : Reg) (v pc : Word) : Links s d v pc ((s.setS d v).setPc pc) := by
  refine ⟨?_, ?_, ?_, OnlyThread.of_eq ?_ ?_ ?_ ?_⟩
  · by_cases h : d = 0 <;> simp [State.getS, Thread.getS, State.setPc, State.setS, h]
  · intro r hr
    by_cases h : r = 0
    · simp [State.getS, Thread.getS, h]
    · simp only [State.getS, Thread.getS, State.setPc, State.setS, Thread.setS_s, h, if_false]
      split
      · rfl
      · simp [hr]
  · simp only [State.setPc, State.setS, Thread.setS]; split <;> rfl
  · rfl
  · simp
  · simp
  · simp

/-- Everything a write of the PC does. -/
theorem setPc_goesTo (s : State) (pc : Word) : GoesTo s pc (s.setPc pc) := ⟨rfl, OnlyThread.of_eq rfl rfl rfl rfl⟩

/-- Everything `advance` does. -/
theorem advance_goesTo (s : State) (n : Nat) : GoesTo s (s.th.pc + wd n) (s.advance n) := setPc_goesTo s _

/-- Everything `branch` does. -/
theorem branch_goesTo (s : State) (test : Bool) (off : BitVec 16) :
    GoesTo s (if test then s.target off else s.th.pc + 4) (s.branch test off) := by
  cases test
  · exact advance_goesTo s 4
  · exact setPc_goesTo s _

theorem completes_next {P : State → Prop} {t : State} (h : P t) : Completes (.next t) P := ⟨t, rfl, h⟩

end Sys2Proof.Machine
end

