-- ==== Sys2Proof/Tests/Slice0.lean ====
section
/-! SUPPORT. Tests: ill-formed terms that are refused, words that the spec writes out, results that the spec works out, and for
every statement with hypotheses a state and operands that meet them. -/

set_option Elab.async false

namespace Sys2Proof.Tests

open Sys2Proof Sys2Proof.Machine

/-! ## Well-formedness -/

/-- The fields of a vector instruction with everything plain. -/
def vf : VF :=
  { c := .v 0 false, b := .v 0 false, a := .v 0 false, d := 0, msk := none, ty := .i32, rm := .dyn, sat := false, ord := false, ux := false }

/-- The fields of a matrix instruction with everything zero. -/
def mf : MF :=
  { kd := 0, kc := 0, kr := 0, c := 0, b := 0, a := 0, t := 0, s := 0, ty := .i8, rm := .dyn, sat := false, ca := false, fx := 0 }

/-- Each check of `wf` refuses a term (R51, R54–R61, R67, R135, R150, R161–R176, R193, R223, R300, R303, R313). -/
theorem test_wf_refuses :
    (([.fcvt .i32 .i16 false .rne 1 2, .amoAnd .f32 false 1 2 3, .amoAdd .f32 true false 1 2 3, .qpush false false 1 2 3,
      .qpush true true 1 2 31, .qpop true true 31 2 1, .qsteal false false 1 2 3, .syswr 1 .cycle, .sysset 1 2 .taskrec,
      .convoyIssue [] [], .convoyIssue [0, 0] [0, 0], .convoyIssue [0] [], .vaddInt { vf with ty := .f32 },
      .vmulh { vf with sat := true }, .vmacc { vf with ord := true }, .vand { vf with c := .v 1 false }, .vmv { vf with b := .v 1 false },
      .vcmp .eq { vf with d := 8 }, .vaddFloat vf, .vfma { vf with ty := .e4m3 }, .vsqrt { vf with ty := .f32, b := .v 1 false },
      .vminFloat { vf with ty := .f32, rm := .rtz }, .vfcmp .un vf, .vfclass { vf with ty := .f32, sat := true }, .vsgnj vf,
      .vcvt { vf with c := .s 31 }, .vmand { vf with a := .s 1 }, .vmnot { vf with b := .s 1 }, .vmpop { vf with d := 32 },
      .vmerge { vf with c := .s 1 }, .vmk { vf with a := .v 1 false }, .viota { vf with d := 1, ty := .f32 }, .vid { vf with a := .v 1 false },
      .vslideup { vf with ord := true }, .vperm { vf with sat := true }, .vcompress { vf with ux := true }, .vbcast { vf with c := .v 1 false },
      .vtoo { vf with d := 8 }, .vredsum { vf with ux := true }, .vredmin { vf with sat := true }, .vredand { vf with ty := .f32 },
      .vld { vf with ord := true }, .vlds { vf with b := .v 1 false }, .vldx { vf with b := .s 1 }, .vldxPeer { vf with c := .v 8 false },
      .vldff { vf with ty := .mxf4 }, .ldt { vf with b := .v 1 false }, .vldo { vf with d := 8 }, .vst { vf with d := 1 },
      .vsts { vf with d := 1 }, .vstx { vf with d := 1 }, .vstxPeer { vf with d := 8 }, .vamoAdd { vf with ty := .i8 },
      .vamoAnd { vf with ty := .f32 }, .vamoCas { vf with ux := true }, .mmode { mf with a := 1 }, .mshape { mf with a := 1 },
      .mzero { mf with s := 1 }, .mzeroAcc { mf with t := 1 }, .mldb { mf with t := 1 }, .mmul { mf with b := 1 }, .mopa { mf with t := 1 },
      .mgmul { mf with fx := 1 }, .mdrain { mf with ca := true, ty := .mxf4, fx := 31 }, .mdrainx { mf with a := 1 }, .mrecv { mf with a := 1 },
      .mrecvCancel { mf with s := 1 }, .mchain { mf with t := 1 }, .mchainAccept { mf with t := 1 }, .munchain { mf with s := 1 },
      .mwait { mf with s := 1 }, .mmulx { mf with fx := 1 }, .mrinv { mf with t := 1 }, .mrinvAll { mf with s := 1 }, .mrpf { mf with t := 1 },
      .mrprobe { mf with t := 1 }, .unassignedEncoding 0, .otherHintCode 2 0 0 0] : List Instr).all (fun i => i.wf == false)) = true := by
  decide +kernel

/-- An operand that a micro-operation does not use is refused, and so are `ximm` as a destination and a type outside the row's
(R356-R359). -/
theorem test_ufWf_refuses :
    Instr.ufWf .umov { d := .ximm } = false ∧ Instr.ufWf .uadd { imm := 1 } = false ∧ Instr.ufWf .uj { a := .xa } = false ∧
    Instr.ufWf .uvmul { v := { vd := 0, va := 0, vb := 0, j := 0, ty := .mxf4 } } = false := by
  decide +kernel

/-! ## Words that the spec writes out -/

/-- R54, R60, R65, R73, R76, R150, R154, R229, R233: scalar words. -/
theorem test_decode_scalar :
    [0x00730280, 0x00044292, 0x0000007D, 0xF8931290, 0xD8931390, 0x042282AC, 0x000302A8, 0x00002028, 0x18520C5B].map decodeInstr =
      [.add 5 6 7, .lui 5 0x44, .nop 0 0 0, .fcvt .e4m3 .f32 true .rne 5 6, .fcvt .e4m3 .f32 false .rne 7 6, .vstrip 2 5 5 2,
        .carve 5 6, .tbar, .rtn 5 3 4 5 12] := by decide +kernel

/-- R254, R275, R300, R313, R341, R347: slice scratch, fences, atomics, queues, tasks, engines. -/
theorem test_decode_memory :
    [0x008332AD, 0x0073381E, 0x06002030, 0x04001030, 0x02000030, 0x00734298, 0x70731298, 0x04735298, 0x0223129C, 0x000302A0,
      0x00001020, 0x00004020, 0x007322A0, 0x000332A0, 0x007352A0, 0x007302A4].map decodeInstr =
      [.ssld .i64 5 6 8, .ssst .d 6 7 16, .fenceRel .pkg, .fenceAcq .die, .fence .clu, .amoAdd .f32 false false 5 6 7,
        .cas .i64 false 5 6 7, .amoAdd .bf16 true false 5 6 7, .qpop false true 5 6 2, .tpost 5 6, .tdone, .tyield, .tspawn 5 6 7,
        .tgrp 5 6, .cntarm 5 6 7, .cpy 5 6 7] := by decide +kernel

/-- R362, R375, R382, R385, R391, R392, R265: system long forms. -/
theorem test_decode_system :
    [0x000000050000000F, 0x1F, 0x2F, 0x00000001 * 2 ^ 32 + 0x01CC504F, 0x000C505F, 0x01CC006F, 0x3 * 2 ^ 32 + 0x7F,
      0x305 * 2 ^ 32 + 0xC510F, 0x3000C520F, 0x30000521F, 0x30000522F, 0x30000523F].map decodeInstr =
      [.trap 5, .tret, .brk 0, .ctxsave true false 5 6 7, .ctxload 5 6, .tlbinvVa 6 7, .sysfence 3, .travset 5 6 3 5, .rbind 5 6 3,
        .rload 5 3, .runbind 5 3, .rquery 5 3] := by decide +kernel

/-- R58, R59, R223, R303: the slot of a `vfma`, a `vamo.add`, an `mmul` and an `mmulx`. -/
theorem test_decode_slots :
    decodeSlot 1 0x1012C18201202203 = some (.vfma { vf with c := .v 4 false, b := .s 9, a := .v 1 true, d := 4, ty := .f32 }) ∧
    decodeInstr (0x193 + 2 ^ 32 * 0x2C1402018121F003) = .convoyIssue [3] [0x2C1402018121F003] ∧
    decodeSlot 3 0x2C1402018121F003 = some (.vamoAdd
      { vf with c := .v 11 false, b := .v 10 false, a := .v 2 false, d := 3, ty := .f32, ord := true, ux := true }) ∧
    decodeInstr 0x0030002098B00047 = .mmul { mf with kr := 3, a := 8, t := 1, s := 6, ty := .bf16 } ∧
    decodeInstr 0x6001442118B00107 = .mmulx { mf with kd := 6, c := 5, b := 4, a := 8, t := 2, s := 6, ty := .bf16 } := by
  decide +kernel

/-- The routine that the spec writes out after R366. -/
theorem test_decode_micro :
    [0x000A0000, 0x01AB0000, 0x00290000, 0x80410300, 0x20001000, 0x54210008, 0xF0000003, 0x01000000, 0xFC000000].map decodeMicro =
      [some (.umov, { d := .h 0, a := .xb }), some (.umov, { d := .lc, a := .ximm }), some (.umov, { d := .h 1, a := .xa }),
        some (.uld, { d := .h 2, a := .h 1, ldt := .i64 }), some (.uadd, { d := .h 0, a := .h 0, b := .h 2 }),
        some (.uaddi, { d := .h 1, a := .h 1, imm := 8 }), some (.uloop, { tgt := 3 }), some (.umov, { d := .xd, a := .h 0 }),
        some (.uend, {})] := by decide +kernel

/-- R51, R67: a header with reserved bits, a slot under a wrong unit, a reserved type code. -/
theorem test_decode_refuses :
    decodeInstr (0x193 + 2 ^ 31 + 2 ^ 32 * 0x2C1402018121F003) = .unassignedEncoding 0 ∧
    decodeSlot 2 0x2C1402018121F003 = none ∧ decodeSlot 1 (0x1012C18201202203 + 0x20 * 2 ^ 21) = none := by decide +kernel

/-! ### One word for every constructor, its fields laid out from the spec's encoding tables -/

/-- What a slot's word decodes to under each vector unit of R50: one unit of the six accepts it. -/
def anySlot (w : Nat) : List Instr := (List.range 6).filterMap (fun u => decodeSlot u w)

/-- R136–R138: the register-to-register integer words. -/
theorem test_words_integer :
    [0x1E48080, 0x3D50100, 0x1C59180, 0x1B62200, 0x1A6B280, 0x1974300, 0x187D380, 0x3785400, 0x168E480, 0x1597500,
      0x1498584, 0x13A1604, 0x12AA684, 0x11B4704, 0x10BD784, 0xFC6804, 0xECF884, 0xDD4908, 0xCDD988, 0xBE6A08, 0xAEFA88,
      0xE8088, 0xE1108, 0xDA188, 0xD3208].map decodeInstr =
      [.add 1 9 30, .sub 2 10 29, .and 3 11 28, .or 4 12 27, .xor 5 13 26, .sll 6 14 25, .srl 7 15 24, .sra 8 16 23, .slt
        9 17 22, .sltn 10 18 21, .mul 11 19 20, .mulh 12 20 19, .mulhn 13 21 18, .div 14 22 17, .divn 15 23 16, .rem 16 24
        15, .remn 17 25 14, .bext 18 26 13, .bdep 19 27 12, .rotl 20 28 11, .rotr 21 29 10, .clz 1 29, .ctz 2 28, .popc 3
        27, .rev 4 26] := by decide +kernel

/-- R148–R150: the scalar floating words. -/
theorem test_words_floating :
    [0x1E4808C, 0x23D5110C, 0x45C5A18C, 0x67B6320C, 0x8208C18C, 0xA498818C, 0xC698818C, 0x6988190, 0x4989190, 0x298A190,
      0x98B190, 0x46088190, 0x80088290, 0x80929890, 0xE4A88190].map decodeInstr =
      [.fadd .f64 .dyn 1 9 30, .fsub .f32 .rne 2 10 29, .fmul .f16 .rtz 3 11 28, .fdiv .bf16 .rup 4 12 27, .fsqrt .f32
        .rdn 3 17, .fmin .f16 3 17 9, .fmax .bf16 3 17 9, .fcmp .eq .bf16 3 17 9, .fcmp .lt .f16 3 17 9, .fcmp .le .f32 3
        17 9, .fcmp .un .f64 3 17 9, .fclass .bf16 3 17, .fmvToOperand 5 17, .fmvFromOperand 17 5 9, .fcvt .i32 .f16 true
        .dyn 3 17] := by decide +kernel

/-- R139, R141: the predicate words. -/
theorem test_words_predicates :
    [0xE58194, 0xE59194, 0xE5A194, 0x5B194, 0x5C194, 0x5D994, 0x9E594, 0x3E88594, 0x9A58858D, 0x3E89594, 0x9A58958D,
      0x3E8A594, 0x9A58A58D, 0x3E8B594, 0x9A58B58D, 0x3E8C594, 0x9A58C58D, 0x3E8D594, 0x9A58D58D].map decodeInstr =
      [.kand 3 11 14, .kor 3 11 14, .kxor 3 11 14, .knot 3 11, .kmovKK 3 11, .kmovSK 19 11, .kmovKS 11 19, .cmp .eq 11 17
        30, .cmpi .eq 11 17 0x9A5, .cmp .ne 11 17 30, .cmpi .ne 11 17 0x9A5, .cmp .lt 11 17 30, .cmpi .lt 11 17 0x9A5,
        .cmp .ge 11 17 30, .cmpi .ge 11 17 0x9A5, .cmp .ltn 11 17 30, .cmpi .ltn 11 17 0x9A5, .cmp .gen 11 17 30, .cmpi
        .gen 11 17 0x9A5] := by decide +kernel

/-- R300, R313: the atomic and queue words. -/
theorem test_words_atomics :
    [0x1098A198, 0x2298C198, 0x3098B198, 0x42988198, 0x50989198, 0x6298D198, 0x7098A198, 0x698D198, 0x7E8859C, 0x6B8999C,
      0x2B8A99C, 0x8B19C, 0xB8C19C, 0x98D19C].map decodeInstr =
      [.amoMin .n32 false 3 17 9, .amoMax .f32 true 3 17 9, .amoAnd .n64 false 3 17 9, .amoOr .i32 true 3 17 9, .amoXor
        .i64 false 3 17 9, .amoSwap .bf16 true 3 17 9, .cas .n32 false 3 17 9, .amoAdd .bf16 true true 3 17 9, .qpush true
        true 11 17 30, .qpop true true 19 17 11, .qsteal false true 19 17 11, .qcount 3 17, .qpoll 3 17 11, .qinit 3 17 9] := by decide +kernel

/-- R154, R178, R179, R229, R233, R275, R341, R347: the task, engine, carve-out, vector control and fence words. -/
theorem test_words_control :
    [0x881A0, 0x8B1A0, 0x881A8, 0x98A1A0, 0x98D1A0, 0x9881A4, 0x9891A4, 0x98A1A4, 0x1020, 0x4020, 0x2028, 0x202C, 0x19A8,
      0x20019A8, 0x40019A8, 0x98B028, 0x8B881AC, 0x1A08902C, 0x8902C, 0x30, 0x2001030, 0x4002030, 0x6000030, 0x8001030].map
      decodeInstr =
      [.tpost 3 17, .tgrp 3 17, .carve 3 17, .tspawn 3 17 9, .cntarm 3 17 9, .cpy 3 17 9, .gath 3 17 9, .coll 3 17 9,
        .tdone, .tyield, .tbar, .vpjoin, .carveq 0 19, .carveq 1 19, .carveq 2 19, .szero 17 9, .vstrip 4 3 17 11, .vfetch
        (some 5) 17, .vfetch none 17, .fence .core, .fenceAcq .clu, .fenceRel .die, .fence .pkg, .fenceAcq .fab] := by decide +kernel

/-- R63, R67, R124, R130, R135, R139, R145, R146, R254, R256, R262: the immediate, load, store, cache, pointer, hint and system
register words. -/
theorem test_words_memory :
    [0x9A588181, 0x9A588185, 0x9A589185, 0x9A58A185, 0x9A58818E, 0x2D88189, 0x2D89189, 0x2D8A189, 0x9A588191, 0x9A589195,
      0x9A58A199, 0x9A58B1AD, 0x9A58C191, 0x9A58D195, 0x9A58E199, 0x9A588021, 0x9A589021, 0x9A58A021, 0x9A58B021,
      0x9A588025, 0x9A589025, 0x9A58A025, 0x9A58B025, 0x3882A9, 0x9A5299A9, 0x9A988282, 0x9A98929E, 0x9A98A282, 0x9A98B29E,
      0x8E1FD, 0x18E1FD, 0x28E1FD, 0x3458E1FD, 0x7C, 0x10099D, 0x1008901D, 0x1408A99D, 0x1808B99D].map decodeInstr =
      [.addi 3 17 0x9A5, .andi 3 17 0x9A5, .ori 3 17 0x9A5, .xori 3 17 0x9A5, .jalr 3 17 0x9A5, .slli 3 17 0x2D, .srli 3
        17 0x2D, .srai 3 17 0x2D, .ld .i8 3 17 0x9A5, .ldHome .i16 3 17 0x9A5, .ldLast .i32 3 17 0x9A5, .ssld .i64 3 17
        0x9A5, .ld .n8 3 17 0x9A5, .ldHome .n16 3 17 0x9A5, .ldLast .n32 3 17 0x9A5, .prefL1 17 0x9A5, .prefL2 17 0x9A5,
        .wake 17 0x9A5, .wakeAll 17 0x9A5, .flush 17 0x9A5, .flushMem 17 0x9A5, .inval 17 0x9A5, .drop 17 0x9A5, .pset 5
        17 3, .padv 19 5 0x9A5, .st .b 17 9 0x9A5, .ssst .h 17 9 0x9A5, .st .w 17 9 0x9A5, .ssst .d 17 9 0x9A5, .nop 17 6
        3, .pause 17 6 3, .spin 17 6 3, .otherHintCode 0x345 17 6 3, .unassignedEncoding 0, .sysrd 19 .lcount, .syswr 17
        .mstate, .sysset 19 17 .carve, .sysclr 19 17 .tframe] := by decide +kernel

/-- R60, R61, R140, R142–R144, R265, R362, R375, R382, R385, R391: the branch, jump, routine and system long-form words. -/
theorem test_words_branches_and_long_forms :
    [0x9A5BB806, 0x9A5BB086, 0x9A5B0106, 0x9A5B001A, 0x9A5B798A, 0x9A5B7992, 0x9A5B7996, 0xB698CEDB, 0x1F, 0x9A5B0000000F,
      0x9A5B0000002F, 0x10263303F, 0x110263303F, 0x300263303F, 0x10263304F, 0x20263304F, 0x23305F, 0x262006F, 0x10262006F,
      0x20262006F, 0x20000007F, 0x52D0023310F, 0x2D0023320F, 0x2D0001321F, 0x2D0001322F, 0x6D0023322F, 0x2D0001323F].map
      decodeInstr =
      [.brAny 11 true 0x9A5B, .brAll 11 false 0x9A5B, .br 0x9A5B, .loop 0x9A5B, .jal 19 0x9A5B7, .lui 19 0x9A5B7, .auipc
        19 0x9A5B7, .rtn 45 19 17 9 0x5B, .tret, .trap 0x9A5B, .brk 0x9A5B, .watchCore 1 19 17 9, .watchHome 1 19 17 9,
        .watchCount 0 19 17 9, .ctxsave true false 19 17 9, .ctxsave false true 19 17 9, .ctxload 19 17, .tlbinvVa 17 9,
        .tlbinvCtx 17 9, .tlbinvAll 17 9, .sysfence 2, .travset 19 17 5 45, .rbind 19 17 45, .rload 19 45, .runbind 19 45,
        .runbindCtx 19 17 45, .rquery 19 45] := by decide +kernel

/-- R54–R58, R161: the vector integer slots. -/
theorem test_words_vector_integer :
    [0x2EED9280020003, 0x242D92E8220083, 0xC6D9280420103, 0x6AD92E8600183, 0x2EED9280800203, 0x242D92E8A00283,
      0x18AEED92E8C20303, 0x242D9280E00383, 0x242D9200E00403, 0x242D9180E00483, 0x242D9100E00503, 0x242D9080E00583,
      0x242D9000E00603, 0x242D8F80E00683, 0x242D8F00E00703, 0x177280400783, 0x2EED82D0200803, 0x2EED82D0200883,
      0x2EED82D0200903, 0x2EED82D0200983, 0x2EED82D0200A03, 0x2EED82D0200A83].map anySlot =
      [.vaddInt { vf with b := .s 23, a := .v 45 true, d := 37, ty := .i8, sat := true }, .vsubInt
        { vf with b := .v 18 false, a := .v 45 true, d := 37, msk := some 5, ty := .i16, sat := true }, .vmulInt
        { vf with b := .o 6, a := .v 45 true, d := 37, ty := .i32, sat := true }, .vmulh
        { vf with b := .lat 3, a := .v 45 true, d := 37, msk := some 5, ty := .i64 }, .vminInt
        { vf with b := .s 23, a := .v 45 true, d := 37, ty := .n8 }, .vmaxInt
        { vf with b := .v 18 false, a := .v 45 true, d := 37, msk := some 5, ty := .n16 }, .vmacc
        { vf with c := .o 6, b := .s 23, a := .v 45 true, d := 37, msk := some 5, ty := .n32, sat := true }, .vdivInt
        { vf with b := .v 18 false, a := .v 45 true, d := 37, ty := .n64 }, .vrem
        { vf with b := .v 18 false, a := .v 45 true, d := 36, ty := .n64 }, .vand
        { vf with b := .v 18 false, a := .v 45 true, d := 35, ty := .n64 }, .vor
        { vf with b := .v 18 false, a := .v 45 true, d := 34, ty := .n64 }, .vxor
        { vf with b := .v 18 false, a := .v 45 true, d := 33, ty := .n64 }, .vsll
        { vf with b := .v 18 false, a := .v 45 true, d := 32, ty := .n64 }, .vsrl
        { vf with b := .v 18 false, a := .v 45 true, d := 31, ty := .n64 }, .vsra
        { vf with b := .v 18 false, a := .v 45 true, d := 30, ty := .n64 }, .vmv
        { vf with a := .s 23, d := 37, ty := .i32 }, .vcmp .eq
        { vf with b := .s 23, a := .v 45 true, d := 5, msk := some 2, ty := .i16 }, .vcmp .ne
        { vf with b := .s 23, a := .v 45 true, d := 5, msk := some 2, ty := .i16 }, .vcmp .lt
        { vf with b := .s 23, a := .v 45 true, d := 5, msk := some 2, ty := .i16 }, .vcmp .le
        { vf with b := .s 23, a := .v 45 true, d := 5, msk := some 2, ty := .i16 }, .vcmp .gt
        { vf with b := .s 23, a := .v 45 true, d := 5, msk := some 2, ty := .i16 }, .vcmp .ge
        { vf with b := .s 23, a := .v 45 true, d := 5, msk := some 2, ty := .i16 }].map (fun i => [i]) := by decide +kernel

/-- R163–R165: the vector floating slots. -/
theorem test_words_vector_floating :
    [0x2EED9281042003, 0x2EED9281282083, 0x2EED92814C2103, 0x2EED9281702183, 0x4806AD92F9342203, 0x4806AD92F9342283,
      0x4806AD92F9342303, 0x63281002383, 0x2EED9281603003, 0x2EED9281203083, 0x2EED8281403103, 0x2EED8281403183,
      0x2EED8281403203, 0x2EED8281403283, 0x2D9281203303, 0x242D9281003383, 0x242D9281003403, 0x242D9281003483,
      0x24000B0501863803].map anySlot =
      [.vaddFloat { vf with b := .s 23, a := .v 45 true, d := 37, ty := .f64, rm := .rne }, .vsubFloat
        { vf with b := .s 23, a := .v 45 true, d := 37, ty := .f32, rm := .rtz }, .vmulFloat
        { vf with b := .s 23, a := .v 45 true, d := 37, ty := .f16, rm := .rup }, .vdivFloat
        { vf with b := .s 23, a := .v 45 true, d := 37, ty := .bf16, rm := .rdn }, .vfma
        { vf with c := .v 18 false, b := .lat 3, a := .v 45 true, d := 37, msk := some 7, ty := .f32, rm := .rst }, .vfms
        { vf with c := .v 18 false, b := .lat 3, a := .v 45 true, d := 37, msk := some 7, ty := .f32, rm := .rst }, .vfnma
        { vf with c := .v 18 false, b := .lat 3, a := .v 45 true, d := 37, msk := some 7, ty := .f32, rm := .rst }, .vsqrt
        { vf with a := .o 6, d := 37, ty := .f64 }, .vminFloat
        { vf with b := .s 23, a := .v 45 true, d := 37, ty := .bf16 }, .vmaxFloat
        { vf with b := .s 23, a := .v 45 true, d := 37, ty := .f32 }, .vfcmp .eq
        { vf with b := .s 23, a := .v 45 true, d := 5, ty := .f16 }, .vfcmp .lt
        { vf with b := .s 23, a := .v 45 true, d := 5, ty := .f16 }, .vfcmp .le
        { vf with b := .s 23, a := .v 45 true, d := 5, ty := .f16 }, .vfcmp .un
        { vf with b := .s 23, a := .v 45 true, d := 5, ty := .f16 }, .vfclass
        { vf with a := .v 45 true, d := 37, ty := .f32 }, .vsgnj
        { vf with b := .v 18 false, a := .v 45 true, d := 37, ty := .f64 }, .vsgnn
        { vf with b := .v 18 false, a := .v 45 true, d := 37, ty := .f64 }, .vsgnx
        { vf with b := .v 18 false, a := .v 45 true, d := 37, ty := .f64 }, .vcvt
        { vf with c := .v 9 false, a := .v 11 false, d := 10, ty := .e4m3, rm := .rne, sat := true }].map (fun i => [i]) := by decide +kernel

/-- R166, R167, R169: the mask, permute and reduction slots. -/
theorem test_words_masks_permutes_reductions :
    [0x6060280004003, 0x6060280004083, 0x6060280004103, 0x60280004183, 0x60E80004203, 0x60E80004283, 0x182EED9280404303,
      0x176280004383, 0x61280A04403, 0x1280A04483, 0x2EED9281204803, 0x2EED9281204883, 0x242D9280604903, 0x2D92E0004983,
      0x2EED9281404A03, 0x2EED0280E04A83, 0x2EED9281315003, 0x2EED9280805083, 0x2EED9280805103, 0x2EED9280805183,
      0x2EED9280805203, 0x2EED9280805283].map anySlot =
      [.vmand { vf with b := .v 3 false, a := .v 6 false, d := 5, ty := .i8 }, .vmor
        { vf with b := .v 3 false, a := .v 6 false, d := 5, ty := .i8 }, .vmxor
        { vf with b := .v 3 false, a := .v 6 false, d := 5, ty := .i8 }, .vmnot
        { vf with a := .v 6 false, d := 5, ty := .i8 }, .vmpop { vf with a := .v 6 false, d := 29, ty := .i8 }, .vmfirst
        { vf with a := .v 6 false, d := 29, ty := .i8 }, .vmerge
        { vf with c := .v 6 false, b := .s 23, a := .v 45 true, d := 37, ty := .i32 }, .vmk
        { vf with a := .s 23, d := 5, ty := .i8 }, .viota { vf with a := .v 6 false, d := 37, ty := .n16 }, .vid
        { vf with d := 37, ty := .n16 }, .vslideup { vf with b := .s 23, a := .v 45 true, d := 37, ty := .f32 }, .vslidedn
        { vf with b := .s 23, a := .v 45 true, d := 37, ty := .f32 }, .vperm
        { vf with b := .v 18 false, a := .v 45 true, d := 37, ty := .i64 }, .vcompress
        { vf with a := .v 45 true, d := 37, msk := some 4, ty := .i8 }, .vbcast
        { vf with b := .s 23, a := .v 45 true, d := 37, ty := .f16 }, .vtoo
        { vf with b := .s 23, a := .v 45 false, d := 5, ty := .n64 }, .vredsum
        { vf with b := .s 23, a := .v 45 true, d := 37, ty := .f32, rm := .rdn, ord := true }, .vredmin
        { vf with b := .s 23, a := .v 45 true, d := 37, ty := .n8 }, .vredmax
        { vf with b := .s 23, a := .v 45 true, d := 37, ty := .n8 }, .vredand
        { vf with b := .s 23, a := .v 45 true, d := 37, ty := .n8 }, .vredor
        { vf with b := .s 23, a := .v 45 true, d := 37, ty := .n8 }, .vredxor
        { vf with b := .s 23, a := .v 45 true, d := 37, ty := .n8 }].map (fun i => [i]) := by decide +kernel

/-- R171, R266, R303: the vector memory slots. -/
theorem test_words_vector_memory :
    [0x2EC61281C05803, 0x2EC61281C05883, 0x2EC61281C05903, 0x2EC61281205983, 0x2EC61281205A03, 0x24061281205A83,
      0xC2406128120DA83, 0x24061281205B03, 0x61280005B83, 0x1DAEC01281405C03, 0x60280E05C83, 0xB600060001206803,
      0x18AEC60001206883, 0xD24060001206903, 0xB62406018120E903, 0x5DA406128061F003, 0x5DA406128061F083, 0x5DA406128061F103,
      0x5DA406128061F183, 0x5DA406128061F203, 0x5DA406128061F283, 0x5DA406128061F303, 0x5DA4060001747003,
      0x5DA4061280607383].map anySlot =
      [.vld { vf with b := .s 23, a := .v 6 false, d := 37, ty := .mxf4 }, .vldHome
        { vf with b := .s 23, a := .v 6 false, d := 37, ty := .mxf4 }, .vldLast
        { vf with b := .s 23, a := .v 6 false, d := 37, ty := .mxf4 }, .vlds
        { vf with b := .s 23, a := .v 6 false, d := 37, ty := .f32 }, .vldsHome
        { vf with b := .s 23, a := .v 6 false, d := 37, ty := .f32 }, .vldx
        { vf with b := .v 18 false, a := .v 6 false, d := 37, ty := .f32 }, .vldxPeer
        { vf with c := .v 3 false, b := .v 18 false, a := .v 6 false, d := 37, ty := .f32, ux := true }, .vldxHome
        { vf with b := .v 18 false, a := .v 6 false, d := 37, ty := .f32 }, .vldff
        { vf with a := .v 6 false, d := 37, ty := .i8 }, .ldt { vf with c := .s 7, b := .s 23, d := 37, ty := .f16 },
        .vldo { vf with a := .v 6 false, d := 5, ty := .n64 }, .vst
        { vf with c := .v 45 true, a := .v 6 false, ty := .f32 }, .vsts
        { vf with c := .o 6, b := .s 23, a := .v 6 false, ty := .f32 }, .vstx
        { vf with c := .lat 3, b := .v 18 false, a := .v 6 false, ty := .f32 }, .vstxPeer
        { vf with c := .v 45 true, b := .v 18 false, a := .v 6 false, d := 3, ty := .f32, ux := true }, .vamoAdd
        { vf with c := .s 23, b := .v 18 false, a := .v 6 false, d := 37, ty := .i64, ord := true, ux := true }, .vamoMin
        { vf with c := .s 23, b := .v 18 false, a := .v 6 false, d := 37, ty := .i64, ord := true, ux := true }, .vamoMax
        { vf with c := .s 23, b := .v 18 false, a := .v 6 false, d := 37, ty := .i64, ord := true, ux := true }, .vamoAnd
        { vf with c := .s 23, b := .v 18 false, a := .v 6 false, d := 37, ty := .i64, ord := true, ux := true }, .vamoOr
        { vf with c := .s 23, b := .v 18 false, a := .v 6 false, d := 37, ty := .i64, ord := true, ux := true }, .vamoXor
        { vf with c := .s 23, b := .v 18 false, a := .v 6 false, d := 37, ty := .i64, ord := true, ux := true }, .vamoSwap
        { vf with c := .s 23, b := .v 18 false, a := .v 6 false, d := 37, ty := .i64, ord := true, ux := true }, .vamoAdd
        { vf with c := .s 23, b := .v 18 false, a := .v 6 false, ty := .bf16, rm := .rst }, .vamoCas
        { vf with c := .s 23, b := .v 18 false, a := .v 6 false, d := 37, ty := .i64 }].map (fun i => [i]) := by decide +kernel

/-- R59, R193, R223: the matrix words, and as slots of the matrix unit. -/
theorem test_words_matrix :
    [0x807, 0x280003007, 0x2CC900417, 0x280000027, 0x427, 0xDB0000004CB00037, 0xDB6000B6CCA08047, 0xDB6025B44CD08057,
      0xDB6CA5B6CCE08067, 0xB6CA5B680CB0C77, 0xB6C800000941077, 0xB600002CC000087, 0x2CC000097, 0x280000497, 0x4C0004A7,
      0x4C000CA7, 0xB7, 0xC7, 0xDB6CA5B6CCA08107, 0x4C000117, 0x517, 0x4C000127, 0x4CB00137].map decodeInstr =
      [.mmode { mf with fx := 2 }, .mmode { mf with t := 5, fx := 12 }, .mshape
        { mf with t := 5, s := 19, ty := .f32, fx := 1 }, .mzero { mf with t := 5 }, .mzeroAcc { mf with fx := 1 }, .mldb
        { mf with kd := 13, kc := 11, s := 19, ty := .bf16 }, .mmul
        { mf with kd := 13, kc := 11, kr := 6, a := 45, t := 5, s := 19, ty := .f16, ca := true }, .mopa
        { mf with kd := 13, kc := 11, kr := 6, b := 37, a := 45, s := 19, ty := .e5m2, ca := true }, .mgmul
        { mf with kd := 13, kc := 11, kr := 6, c := 50, b := 37, a := 45, t := 5, s := 19, ty := .mxf4, ca := true },
        .mdrain
        { mf with kc := 11, kr := 6, c := 50, b := 37, a := 45, t := 5, ty := .e4m3, rm := .rst, sat := true, fx := 3 },
        .mdrain { mf with kc := 11, kr := 6, c := 50, ty := .f32, rm := .rtz, fx := 4 }, .mdrainx
        { mf with kc := 11, kr := 6, t := 5, s := 19 }, .mrecv { mf with t := 5, s := 19 }, .mrecvCancel
        { mf with t := 5, fx := 1 }, .mchain { mf with s := 19, fx := 1 }, .mchainAccept { mf with s := 19, fx := 3 },
        .munchain mf, .mwait mf, .mmulx
        { mf with kd := 13, kc := 11, kr := 6, c := 50, b := 37, a := 45, t := 5, s := 19, ty := .f16, ca := true },
        .mrinv { mf with s := 19 }, .mrinvAll { mf with fx := 1 }, .mrpf { mf with s := 19 }, .mrprobe
        { mf with s := 19, ty := .bf16 }] := by decide +kernel

/-- R357, R358: the micro-operation words. -/
theorem test_words_micro_rows :
    [0xAB0000, 0x50005A5, 0x92A05A5, 0xDA00013, 0x10030013, 0x14A01806, 0x18051806, 0x20A91800, 0x24A91800, 0x28A91800,
      0x2CA91800, 0x30A91800, 0x34A91800, 0x38A91800, 0x3CA91800, 0x40A91800, 0x44A91800, 0x48A91800, 0x4CA91800,
      0x50A91800, 0x60A91800, 0x64A91800, 0x68A91800, 0x6CA91800, 0x70A91800, 0x74A91800, 0x54A905A5, 0x78A90001,
      0x7CA90000, 0x80A906A5, 0x84092AA5, 0xA25B52CB, 0xA65B52C8, 0xAA5B52C0, 0xAE5B52C4, 0xB25B52CA, 0xB65B52C7,
      0xBA5B52C3, 0xBE5B52C5, 0xC25B52C9, 0xE00928A5, 0xE40928A5, 0xE80928A5, 0xEC0000A5, 0xF00000A5, 0xFC000000].map
      decodeMicro =
      [(.umov, { d := .h 5, a := .ximm }), (.umovi, { d := .xd, imm := 0x5A5 }), (.uhi,
        { d := .xa, a := .xb, imm := 0x5A5 }), (.urds, { d := .lc, r := 19 }), (.uwrs, { a := .h 3, r := 19 }), (.urdo,
        { d := .h 5, b := .h 3, e := 6 }), (.uwro, { a := .h 5, b := .h 3, e := 6 }), (.uadd,
        { d := .h 5, a := .xa, b := .h 3 }), (.usub, { d := .h 5, a := .xa, b := .h 3 }), (.umul,
        { d := .h 5, a := .xa, b := .h 3 }), (.uand, { d := .h 5, a := .xa, b := .h 3 }), (.uor,
        { d := .h 5, a := .xa, b := .h 3 }), (.uxor, { d := .h 5, a := .xa, b := .h 3 }), (.usll,
        { d := .h 5, a := .xa, b := .h 3 }), (.usrl, { d := .h 5, a := .xa, b := .h 3 }), (.usra,
        { d := .h 5, a := .xa, b := .h 3 }), (.uslt, { d := .h 5, a := .xa, b := .h 3 }), (.usltn,
        { d := .h 5, a := .xa, b := .h 3 }), (.umin, { d := .h 5, a := .xa, b := .h 3 }), (.umax,
        { d := .h 5, a := .xa, b := .h 3 }), (.ufadd, { d := .h 5, a := .xa, b := .h 3 }), (.ufsub,
        { d := .h 5, a := .xa, b := .h 3 }), (.ufmul, { d := .h 5, a := .xa, b := .h 3 }), (.ufma,
        { d := .h 5, a := .xa, b := .h 3 }), (.ufmin, { d := .h 5, a := .xa, b := .h 3 }), (.ufmax,
        { d := .h 5, a := .xa, b := .h 3 }), (.uaddi, { d := .h 5, a := .xa, imm := 0x5A5 }), (.ufcvti,
        { d := .h 5, a := .xa, sat := true }), (.uicvtf, { d := .h 5, a := .xa }), (.uld,
        { d := .h 5, a := .xa, off := 0xA5, ldt := .n32 }), (.ust, { a := .xa, b := .h 5, off := 0xA5, stw := .w }),
        (.uvadd, { v := { vd := 37, va := 45, vb := 18, j := 6, ty := .bf16 } }), (.uvsub,
        { v := { vd := 37, va := 45, vb := 18, j := 6, ty := .f64 } }), (.uvmul,
        { v := { vd := 37, va := 45, vb := 18, j := 6, ty := .i8 } }), (.uvmin,
        { v := { vd := 37, va := 45, vb := 18, j := 6, ty := .n8 } }), (.uvmax,
        { v := { vd := 37, va := 45, vb := 18, j := 6, ty := .f16 } }), (.uvand,
        { v := { vd := 37, va := 45, vb := 18, j := 6, ty := .n64 } }), (.uvor,
        { v := { vd := 37, va := 45, vb := 18, j := 6, ty := .i64 } }), (.uvxor,
        { v := { vd := 37, va := 45, vb := 18, j := 6, ty := .n16 } }), (.uvfma,
        { v := { vd := 37, va := 45, vb := 18, j := 6, ty := .f32 } }), (.ubeq, { a := .xa, b := .h 5, tgt := 0xA5 }),
        (.ubne, { a := .xa, b := .h 5, tgt := 0xA5 }), (.ublt, { a := .xa, b := .h 5, tgt := 0xA5 }), (.uj,
        { tgt := 0xA5 }), (.uloop, { tgt := 0xA5 }), (.uend, {})].map some := by decide +kernel

/-- The word of a table row, and the same word placed where the next step fetches it. -/
theorem test_step_after_reset :
    decodeTableWord 32 0x00730280 = some (.add 5 6 7) ∧
    (match step (State.reset.withFetchWord 32 0x00730280) with
      | .next t => some t.th.pc
      | _ => none) = some 0x1004 := by decide +kernel

/-! ## Results that the spec works out -/

/-- A machine whose one thread, of a task with the default split 0x0010_0810 (R227), is about to run at 0x1000 at level 1. -/
def base : State :=
  let s := State.reset.withFetchWord 32 0x7D
  { s with
    th := { s.th with level := 1, vec := .init 512, tframe := 0x8000 }
    core := { s.core with
      team := 1, task := some 9
      sys := { s.core.sys with carve := 0x00100810, tvec := 0x2000, mcvec := 0x3000, mcframe := 0x9000, ctxid := 5 } } }

/-- Scalar registers set. -/
def put (s : State) (l : List (Reg × Word)) : State := l.foldl (fun t p => t.setS p.1 p.2) s

/-- The next state. -/
def nxt : Out → Option State
  | .next t => some t
  | _ => none

/-- What register d holds after an instruction on `base` with registers set. -/
def reg (i : Instr) (l : List (Reg × Word)) (d : Reg) : Option Word := (nxt (exec i (put base l))).map (fun t => t.getS d)

/-- R136, R137: wrap, the corners of division, the high half of a product. -/
theorem test_integer :
    reg (.add 3 1 2) [(1, 0xFFFFFFFFFFFFFFFF), (2, 2)] 3 = some 1 ∧
    reg (.sub 1 1 1) [(1, 7)] 1 = some 0 ∧
    reg (.div 3 1 2) [(1, 0x8000000000000000), (2, 0xFFFFFFFFFFFFFFFF)] 3 = some 0x8000000000000000 ∧
    reg (.rem 3 1 2) [(1, 0x8000000000000000), (2, 0xFFFFFFFFFFFFFFFF)] 3 = some 0 ∧
    reg (.rem 3 1 2) [(1, 0xFFFFFFFFFFFFFFF9), (2, 2)] 3 = some 0xFFFFFFFFFFFFFFFF ∧
    reg (.divn 3 1 2) [(1, 7)] 3 = some 0xFFFFFFFFFFFFFFFF ∧
    reg (.mulh 3 1 2) [(1, 0xFFFFFFFFFFFFFFFF), (2, 1)] 3 = some 0xFFFFFFFFFFFFFFFF ∧
    reg (.mulhn 3 1 2) [(1, 0xFFFFFFFFFFFFFFFF), (2, 0xFFFFFFFFFFFFFFFF)] 3 = some 0xFFFFFFFFFFFFFFFE ∧
    reg (.sra 3 1 2) [(1, 0x8000000000000000), (2, 127)] 3 = some 0xFFFFFFFFFFFFFFFF ∧
    reg (.add 0 1 2) [(1, 1), (2, 2)] 0 = some 0 := by decide +kernel

/-- R138: the bit operations. -/
theorem test_bits :
    reg (.clz 3 1) [(1, 0)] 3 = some 64 ∧ reg (.ctz 3 1) [(1, 8)] 3 = some 3 ∧ reg (.popc 3 1) [(1, 0xF0F0)] 3 = some 8 ∧
    reg (.rev 3 1) [(1, 1)] 3 = some 0x8000000000000000 ∧ reg (.bext 3 1 2) [(1, 0xABCD), (2, 0xF0F0)] 3 = some 0xAC ∧
    reg (.bdep 3 1 2) [(1, 0xAC), (2, 0xF0F0)] 3 = some 0xA0C0 ∧ reg (.rotl 3 1 2) [(1, 0x8000000000000001), (2, 65)] 3 = some 3 ∧
    reg (.rotr 3 1 2) [(1, 1), (2, 1)] 3 = some 0x8000000000000000 := by decide +kernel

/-- The address of `buf` after R77: `lui` with 0x44, then `addi` with 0xA90. -/
theorem test_lui_addi :
    reg (.lui 5 0x44) [] 5 = some 0x44000 ∧ reg (.addi 5 5 0xA90) [(5, 0x44000)] 5 = some 0x43A90 := by decide +kernel

/-- R150: 500.0 to `.e4m3` with and without `.sat`; afterwards `VSTATE`[7:0] is 0xA9. -/
theorem test_fcvt_e4m3 :
    reg (.fcvt .e4m3 .f32 true .rne 5 6) [(6, 0x43FA0000)] 5 = some 0x7E ∧
    ((nxt (exec (.fcvt .e4m3 .f32 true .rne 5 6) (put base [(6, 0x43FA0000)]))).bind
      (fun t => nxt (exec (.fcvt .e4m3 .f32 false .rne 7 6) t))).map (fun t => (t.getS 7, (t.sysValue .vstate).toNat % 256)) =
      some (0x7F, 0xA9) := by decide +kernel

/-- The values of the table after R79: 0.1 and 300 in each type. -/
theorem test_literals :
    reg (.fcvt .f32 .f64 false .rne 5 6) [(6, 0x3FB999999999999A)] 5 = some 0x3DCCCCCD ∧
    reg (.fcvt .f16 .f64 false .rne 5 6) [(6, 0x3FB999999999999A)] 5 = some 0x2E66 ∧
    reg (.fcvt .bf16 .f64 false .rne 5 6) [(6, 0x3FB999999999999A)] 5 = some 0x3DCD ∧
    reg (.fcvt .e4m3 .f64 false .rne 5 6) [(6, 0x3FB999999999999A)] 5 = some 0x1D ∧
    reg (.fcvt .e5m2 .f64 false .rne 5 6) [(6, 0x3FB999999999999A)] 5 = some 0x2E ∧
    reg (.fcvt .e4m3 .f32 false .rne 5 6) [(6, 0x43960000)] 5 = some 0x79 ∧
    reg (.fcvt .e5m2 .f32 false .rne 5 6) [(6, 0x43960000)] 5 = some 0x5D := by decide +kernel

/-- R109: 1.046875 to `.e4m3` under stochastic rounding is 0x39 from the draw 40,960 on, and 0x38 below. -/
theorem test_stochastic :
    let x := (fmtOf .f32).decode 0x3F860000
    (roundTo .e4m3 .rst false 40960 x).code = 0x39 ∧ (roundTo .e4m3 .rst false 40959 x).code = 0x38 ∧
    (roundTo .e4m3 .rne false 0 x).code = 0x38 := by decide +kernel

/-- R107: 1/3 in `.bf16` lies two thirds of the way from 0x3EAA to 0x3EAB, so q is 43,690 and the draws from 21,846 on go up. -/
theorem test_stochastic_quotient :
    let f := fmtOf .bf16
    let e := Val.div f.quotBits (f.decode 0x3F80) (f.decode 0x4040)
    (roundExact f .rst false 21846 e).code = 0x3EAB ∧ (roundExact f .rst false 21845 e).code = 0x3EAA := by decide +kernel

/-- After R116: the order of a BF16 product gives 2.0, not 3.0. -/
theorem test_product_order :
    let a := [0x4B80, 0x3F80, 0, 0, 0x3F80, 0x3F80, 0xCB80, 0]
    let b := [0x3F80, 0x3F80, 0, 0, 0x3F80, 0x3F80, 0x3F80, 0]
    let el := fun (l : List Nat) k => if k < 8 then some ((fmtOf .bf16).decode (l.getD k 0)) else none
    addTo 0 (cellSum .bf16 64 (el a) (el b) (fun _ => 0x7F) (fun _ => 0x7F)) = 0x40000000 := by decide +kernel

/-- R5, R17, R31: core 3.07.2, the edge cores, VLEN. -/
theorem test_numbering :
    linearOf 826 = some 620 ∧ coreIdOf 620 = 826 ∧ isEdge (192 + 15 * 6 + 4) = true ∧ isEdge 620 = false ∧
    [vlenOf 16 1 false, vlenOf 16 4 true, vlenOf 16 2 true, vlenOf 16 1 true, vlenOf 2 4 false, vlenOf 2 2 true, vlenOf 3 3 true,
      vlenOf 3 3 false] = [512, 512, 1024, 2048, 64, 128, 128, 64] := by decide +kernel

/-- R241, R243: an interleaved address, and the slices of the two strides. -/
theorem test_addresses :
    linOf 0x1000000023480 = some 0x7000004480 ∧
    ((List.range 32).all fun i => sliceHash (0x10000000 + i * 4096) == Nat.xor i 2 && sliceHash (0x10000000 + i * 4224) == 2) = true := by
  decide +kernel

/-- R268: the column order of a 3 x 4 tensor of `.f16` with RSTRIDE 8. -/
theorem test_traverse :
    let e := 0x3000001000 + 8 * 2 ^ 64 + 3 * 2 ^ 128 + 4 * 2 ^ 160 + 1 * 2 ^ 192 + 2 ^ 224
    [2, 3, 4, 5, 6, 7].map (travAddr e 3) =
      [16, 2, 10, 18, 4, 12].map (fun o => some (0x3000001000 + o)) := by decide +kernel

/-- R29: the first points of a ROW group with w = 2 and of a MORTON group. -/
theorem test_traversals :
    let g : LGroup :=
      { id := 1, rec_ := 0, ctx := 0, tmpl := LTask.blank 0 0, inst := 0, n0 := 4, n1 := 3, n2 := 1, order := 0, w := 2, at_ := 0, issued := 0 }
    ((List.range 12).map g.point) =
      [(0, 0), (0, 1), (1, 0), (1, 1), (2, 0), (2, 1), (3, 0), (3, 1), (0, 2), (1, 2), (2, 2), (3, 2)].map some ∧
    ((List.range 16).filterMap { g with n0 := 3, n1 := 2, order := 2, w := 1 }.point) =
      [(0, 0), (1, 0), (0, 1), (1, 1), (2, 0), (2, 1)] := by decide +kernel

/-- The worked example after R312: the routers between core 0.02.1, or core 0.03.4, and slice 20. -/
theorem test_routes :
    routeTo 13 (20 * 128) = [2, 3, 4, 12, 20, 52] ∧ routeTo 22 (20 * 128) = [3, 4, 12, 20, 52] := by decide +kernel

/-- R230: 2 + 1 + 39 granules do not fit; R233, R234: 0x001C_0408 does; at the barrier a register carve-out of 64 KiB
makes VLEN 256 and VL 0. -/
theorem test_carve :
    reg (.carve 5 6) [(6, 0x00270102)] 5 = some 2 ∧ reg (.carve 5 6) [(6, 0x001C0408)] 5 = some 0 ∧
    ((nxt (exec .teamBarrierRelease { base with
        th := { base.th with wait := .tbar, vec := { base.th.vec with vl := 9 } }
        core := { base.core with sys := { base.core.sys with carve := 0x005C080800100810 } } })).map
      (fun t => (t.th.vec.vlen, t.th.vec.vl, t.th.pc, t.core.sys.carve.toNat % 2 ^ 32))) = some (256, 0, 0x1004, 0x001C0808) := by decide +kernel

/-- R334: a task of priority 3 that has waited for 150 microseconds stands at level 1, after 192 at level 0. -/
theorem test_ageing :
    let k : LTask := { LTask.blank 0 0 with prio := 3 }
    { k with aged := k.gained (150 * 8000) }.effective = 1 ∧ { k with aged := k.gained (192 * 8000) }.effective = 0 := by decide +kernel

/-- R375: `trap` is taken with FVA its immediate and RPC after it, and `tret` goes on there at level 0. -/
theorem test_trap_and_return :
    ((nxt (exec (.trap 5) { base with th := { base.th with level := 0 } })).map (fun t => (t.th.pc, t.th.level, t.th.intrap))) =
      some (0x2000, 1, true) ∧
    ((nxt (exec (.trap 5) { base with th := { base.th with level := 0 } })).bind (fun t => nxt (exec .tret t))).map
      (fun t => (t.th.pc, t.th.level, t.th.intrap)) = some (0x1008, 0, false) := by decide +kernel

/-- R228, R145, R146: a store of two bytes, read back signed and unsigned; R145: a byte of device memory. -/
theorem test_store_load :
    ((nxt (exec (.st .h 1 2 0) (put base [(1, 0x00FFFF0000000100), (2, 0x12348001)]))).bind (fun t => nxt (exec (.ld .i16 3 1 0) t))).map
      (fun t => t.getS 3) = some 0xFFFFFFFFFFFF8001 ∧
    ((nxt (exec (.st .w 1 2 0) (put base [(1, 0x4000), (2, 0xAABBCCDD)]))).bind (fun t => nxt (exec (.ld .n8 3 1 1) t))).map
      (fun t => t.getS 3) = some 0xCC := by decide +kernel

/-- `base` with `s5` just loaded, about to fetch at an address with no translation, and a turn of its thread scheduled. -/
def loading (t : Turn) : State :=
  let l : Late :=
    { entry := { pc := 0xFF8, vector := false, slot := 0, prog := 0, vl := 0, rm := .rne, opa := 0x4000, opb := 0, opc := 0, nowatch := false }
      word := 0, unit := 2, dest := [.s 5], undo := [.s 5 7], busy := 0, bits := 0, done := [], parts := false, took := []
      seen := [{ spad := false, addr := 0x4000, n := 8, v := 0 }], stored := [] }
  let s := put base [(5, 9)]
  { s with th := { s.th with pc := 0x40000000, recent := [l] }, schedule := [t] }

/-- R372: a load that is still under way when the next instruction traps stands in the frame, its register as before; one that has finished
does not. -/
theorem test_late_load :
    [loading (.late 0 0 [0]), loading (.run 0 0)].map (fun s =>
      (nxt (step s)).map (fun t => (t.th.pc, t.getS 5, t.peek false 0x8000 8 / 2 ^ 24 % 32))) = [some (0x2000, 7, 1), some (0x2000, 9, 0)] := by
  decide +kernel

/-- `base` whose store of elements 7 and 8 to the scratchpad, where 1 and 2 stood, has just been performed, about to trap at a fetch. -/
def storing (t : Turn) : State :=
  let l : Late :=
    { entry := { pc := 0xFF0, vector := true, slot := 0, prog := 0, vl := 2, rm := .rne, opa := spw, opb := 0, opc := 0, nowatch := false }
      word := BitVec.ofNat 64 ((encode (.vst { vf with ty := .i64, c := .v 2 false })).getD 0), unit := 3, dest := []
      undo := [.spad 0 16 (1 + 2 ^ 65) (7 + 2 ^ 67)], busy := 0, bits := 64, done := [0, 1], parts := true
      took := [], seen := [], stored := [(0, { spad := true, addr := 0, n := 8, v := 7 }), (1, { spad := true, addr := 8, n := 8, v := 8 })] }
  { base with
    th := { base.th with pc := 0x40000000, recent := [l] }, schedule := [t]
    core := { base.core with spad := base.core.spad.writeN 0 16 (7 + 2 ^ 67) } }

/-- R372: a store that is still under way at element 1 has stored element 0 and not element 1. -/
theorem test_late_store :
    [storing (.late 0 0 [1]), storing (.run 0 0)].map (fun s => (nxt (step s)).map (fun t =>
      (t.core.spad.readN 0 8, t.core.spad.readN 8 8, t.peek false 0x8000 8 / 2 ^ 24 % 32))) = [some (7, 2, 1), some (7, 8, 0)] := by
  decide +kernel

/-- R404: a port that goes down during a turn: LINKS loses its bit and no other. -/
theorem test_port_falls :
    (nxt (step { base with schedule := [.falls 0 0 (some 2) 0] })).map (fun t => (t.boot.ports.getLsbD 2, t.boot.ports.getLsbD 3)) =
      some (false, true) := by
  decide +kernel

/-! ## The statements' hypotheses are met -/

/-- Virtual processor 0 of two, at its join. -/
def vps : VpState :=
  let x : Vp := { pc := 0x1000, stopped := false, never := false, s := base.th.s, k := base.th.k, acqL1 := 0, acqRdc := 0 }
  { vl := 2, join := 0x1000, s := base.th.s, k := base.th.k, acqL1 := 0, acqRdc := 0, vps := [x, x], group := [0], todo := [], cur := some 0
    blkFrom := 0x1000, blkTop := 0x1004, blkLeft := 63 }

/-- `base` in a block of virtual processors. -/
def inVp : State := { base with th := { base.th with vp := some vps } }

/-- The vector state with a VL. -/
def withVl (n : Nat) (s : State) : State := { s with th := { s.th with vec := { s.th.vec with vl := n } } }

/-- Another privilege level. -/
def atLevel (n : BitVec 2) (s : State) : State := { s with th := { s.th with level := n } }

/-- Matrix entries under way. -/
def entry : MEntry :=
  { mop := 12, f := mf, slot := 0, vl := 0, rm := .rne, sv := 0, sv1 := 0, kr := 0, kr1 := 0, kc := 0, kc1 := 0, kd := 0, level := 0, chained := false }
def busy (n : Nat) : State := { base with core := { base.core with mat := { base.core.mat with queue := List.replicate n entry } } }

/-- No core of a machine like `base` holds a line exclusive, and no record is PENDING. -/
theorem settled (s : State) (h1 : s.core.l1 = []) (h2 : s.others = []) (h3 : s.fab.tasks = []) (line : Nat) : s.Settled line := by
  refine ⟨fun n => ?_, fun k hk => by simp [h3] at hk⟩
  by_cases h : n = s.coreId <;> simp [State.coreAt, Core.exclLine, h, h1, h2, look, Core.reset]

theorem witness_IntegerResults :
    decodeInstr (srW 2 3 2 0 1 0) = .unassignedEncoding 0 ∧ decodeInstr (srW 127 3 2 7 1 0) = .unassignedEncoding 0 ∧
    decodeInstr (srW 1 3 2 1 1 0) = .unassignedEncoding 0 ∧ decodeInstr (srW 1 3 2 7 1 0) = .unassignedEncoding 0 ∧
    decodeInstr (srW 1 3 2 0 1 1) = .unassignedEncoding 0 ∧ decodeInstr (srW 127 3 2 7 1 1) = .unassignedEncoding 0 ∧
    decodeInstr (srW 0 3 2 3 1 1) = .unassignedEncoding 0 := by decide +kernel

theorem witness_BitOperationResults :
    decodeInstr (srW 1 3 2 4 1 2) = .unassignedEncoding 0 ∧ decodeInstr (srW 127 3 2 7 1 2) = .unassignedEncoding 0 ∧
    decodeInstr (srW 0 1 2 0 1 2) = .unassignedEncoding 0 ∧ decodeInstr (srW 0 31 2 3 1 2) = .unassignedEncoding 0 := by decide +kernel

theorem witness_ImmediateResults :
    decodeInstr (siW 0 2 1 1 0) = .unassignedEncoding 0 ∧ decodeInstr (siW 4095 2 7 1 0) = .unassignedEncoding 0 ∧
    decodeInstr (siW 0 2 3 1 1) = .unassignedEncoding 0 ∧ decodeInstr (siW 0 2 3 1 2) = .unassignedEncoding 0 ∧
    decodeInstr (siW 0 2 6 1 3) = .unassignedEncoding 0 ∧ decodeInstr (siW 0 2 7 1 3) = .unassignedEncoding 0 ∧
    decodeInstr (siW 64 2 0 1 2) = .unassignedEncoding 0 ∧ decodeInstr (siW 4095 2 2 1 2) = .unassignedEncoding 0 ∧
    (put base [(2, 5)]).getS 2 = (5 : Word) ∧ ¬ (5 : Word) = (BitVec.signExtend 64 (4 : BitVec 12)) := by decide +kernel

theorem witness_PredicateResults :
    decodeInstr (srW 2 3 2 0 1 5) = .unassignedEncoding 0 ∧ decodeInstr (srW 127 3 2 7 1 5) = .unassignedEncoding 0 ∧
    decodeInstr (srW 0 0 2 7 1 5) = .unassignedEncoding 0 ∧ decodeInstr (srW 0 1 2 3 1 5) = .unassignedEncoding 0 ∧
    decodeInstr (srW 0 31 2 6 1 5) = .unassignedEncoding 0 ∧ decodeInstr (srW 1 3 2 6 1 5) = .unassignedEncoding 0 ∧
    decodeInstr (srW 1 3 2 7 1 5) = .unassignedEncoding 0 := by decide +kernel

theorem witness_BranchesAndJumps :
    ((put base [(2, 0x2000)]).getS 2 + BitVec.signExtend 64 (4 : BitVec 12)).toNat % 4 = 0 ∧
    ((put base [(2, 0x2001)]).getS 2 + BitVec.signExtend 64 (4 : BitVec 12)).toNat % 4 ≠ 0 ∧
    decodeInstr (scW 8 0 0 3 1) = .unassignedEncoding 0 ∧ decodeInstr (scW 8 0 0 15 1) = .unassignedEncoding 0 ∧
    decodeInstr (scW 8 1 0 2 1) = .unassignedEncoding 0 ∧ decodeInstr (scW 8 0 1 2 1) = .unassignedEncoding 0 := by decide +kernel

theorem witness_HintsAndLoop :
    base.th.vp = none ∧ inVp.th.vp ≠ none ∧ base.th.occ = true ∧ base.th.ending = false ∧ decodeInstr (scW 8 0 0 1 6) = .unassignedEncoding 0 ∧
    decodeInstr (scW 8 0 0 15 6) = .unassignedEncoding 0 ∧ decodeInstr (scW 8 1 0 0 6) = .unassignedEncoding 0 ∧
    decodeInstr (scW 8 0 1 0 6) = .unassignedEncoding 0 := by decide +kernel

theorem witness_ScalarFloatResults :
    (tyFmt .bf16).isSome = true ∧ (tyFmt .mxf4).isSome = true ∧ (65535 : Nat) < 2 ^ 16 ∧ (1 : Nat) ≠ 0 ∧ ETy.bf16 ≠ .mxf4 := by
  decide +kernel

theorem witness_FloatSpecialCases :
    let x := fun (c : Word) => (fmtOf .f32).decode (((put base [(2, c)]).getS 2).toNat % 2 ^ 32)
    (x 0x7FC00000).isNan = true ∧ (x 0x7F800001).isSnan = true ∧ x 0x3F800000 = .fin false 0x800000 (-23) false ∧
    x 0x80000000 = .fin true 0 (-149) false ∧ (fmtOf .f32).infCode = some 0x7F800000 ∧ x 0xBF800000 = .fin true 0x800000 (-23) false ∧
    (x 0x3F800000).isNan = false ∧ (x 0).isNan = false := by decide +kernel

theorem witness_ScalarCompareAndConvert :
    ETy.i8.isInt = true ∧ ETy.n64.isInt = true ∧ (Instr.fcvt .e4m3 .f32 true .rne 5 6).wf = true ∧
    (tyFmt .e4m3).isSome = true ∧ (65535 : Nat) < 2 ^ 16 ∧ ¬ (ETy.e4m3.isInt = true ∧ ETy.f32.isInt = true) ∧ (Instr.fcvt .f64 .n64 false .dyn 5 6).wf = true := by decide +kernel

theorem witness_PointersAndOperandFile :
    let s := { base with th := { base.th with psz := wr base.th.psz 1 4 } }
    s.th.vp = none ∧ rd s.th.psz 0 ≠ 4 ∧ rd s.th.psz 1 = 4 ∧ (-2048 : BitVec 12).toInt % 2 = 0 ∧ (2047 : BitVec 12).toInt % 2 = 1 ∧
    s.nLanes = 64 ∧ ((put s [(2, 63)]).getS 2).toNat < s.nLanes ∧ s.nLanes ≤ ((put s [(2, 64)]).getS 2).toNat ∧ inVp.th.vp ≠ none := by
  decide +kernel

/-- The check passes, and the state after it and the place. -/
def reached (s : State) (va n : Nat) (need : Need) : Option (State × Target) :=
  match s.reach va n n need with
  | (s1, .ok tg) => some (s1, tg)
  | (_, .error _) => none

/-- A load by a path answers with nothing poisoned. -/
def clean (k : LoadKind) (n : Nat) (x : State × Target) : Bool := (x.1.readAt k x.2 n).2.2.isNone

theorem witness_LoadResults :
    ((reached base 0x4000 8 .read).map fun x => clean .plain 8 x && clean .home 8 x && clean .last 8 x) = some true ∧
    ((reached base 0x00FFFF000001FFFF 1 .read).map fun x => clean .plain 1 x && clean .home 1 x && clean .last 1 x) = some true := by
  decide +kernel

theorem witness_StoreResults :
    ((reached base 0x4FF8 8 .write).map fun x =>
      (match x.2 with
        | .mem pa _ => decide (pa % 8 = 0) && x.1.core.ways != 0 && (match x.1.place pa with | .cfg _ => false | _ => true)
        | .spad _ => false) && x.1.core.spad.wf && x.1.store.host.wf && x.1.store.peer.isEmpty && (x.1.core.l1.map (·.tag)).isEmpty) = some true ∧
    ((reached base 0x00FFFF0000000000 1 .write).map fun x => x.2 == .spad 0) = some true := by decide +kernel

/-- What a check that fails raises. -/
def refusedWith (s : State) (va n : Nat) (need : Need) : Option Nat :=
  match s.reach va n n need with
  | (_, .ok _) => none
  | (_, .error t) => some t.cause

theorem witness_MisalignedAccesses :
    (0x4001 : Nat) % ldBytes .i16 ≠ 0 ∧ (0x4004 : Nat) % stBytes .d ≠ 0 ∧ refusedWith base 0x40000000 8 .read = some 6 ∧
    refusedWith base 0x40000000 8 .write = some 6 := by decide +kernel

theorem witness_ScratchpadAccesses :
    let s := { base with store := { base.store with sscr := [(clusterOf 0, 0x0000000500000001)] } }
    s.core.spadSize = 131072 ∧ s.core.watchHit 0x00FFFF000001FFF8 8 true false = none ∧
    s.core.watchHit 0x00FFFF000001FFF8 8 false true = none ∧ (0x00FFFF000001FFF8 : Nat) % 8 = 0 ∧ 131064 + 8 ≤ s.core.spadSize ∧
    s.core.spadSize < 131072 + 1 ∧ (s.sscrOf (clusterOf s.coreId)).toNat % 16 * 262144 = 262144 ∧
    s.core.sys.ctxid.toNat = (s.sscrOf (clusterOf s.coreId)).toNat / 2 ^ 32 % 2 ^ 16 ∧ 262136 + 8 ≤ 262144 ∧ 262144 < 262144 + 1 ∧
    base.core.sys.ctxid.toNat ≠ (base.sscrOf (clusterOf 0)).toNat / 2 ^ 32 % 2 ^ 16 := by decide +kernel

theorem witness_SysregReads :
    base.th.vp = none ∧ sysReadLevel .tvec ≤ base.th.level.toNat ∧ sysReadLevel .vstate ≤ (atLevel 0 base).th.level.toNat ∧
    base.core.mat.queue = [] ∧ (busy 1).core.mat.queue ≠ [] ∧ SysReg.vstate ≠ .fqueue ∧ SysReg.vstate ≠ .liftw ∧
    (let tabled := { base with ctxtab := 0xA000 }
     tabled.place (tabled.ctxtab.toNat + 128 * base.core.sys.ctxid.toNat + 0x40) = .media 0xA2C0 ∧
     tabled.place (tabled.ctxtab.toNat + 128 * base.core.sys.ctxid.toNat + 0x48) = .media 0xA2C8 ∧ 0xA2C0 % 8 = 0 ∧ 0xA2C8 % 8 = 0) ∧
    base.core.l1 = [] ∧ base.others = [] ∧ base.fab.tasks = [] := by decide +kernel

theorem witness_SysregLayouts :
    base.th.vec.vl < 2 ^ 16 ∧ base.th.vec.vlen < 2 ^ 16 ∧ base.core.team < 8 ∧ base.lanes base.coreId < 128 ∧ base.coreId < 1536 ∧
    base.core.mat.queue.length ≤ 32 ∧ base.core.mat.partner < 2 ^ 11 ∧
    (∀ i : Fin 8, (rd base.core.mat.tshape i).rows < 2 ^ 8 ∧ (rd base.core.mat.tshape i).cols < 2 ^ 8) := by decide +kernel

theorem witness_SysregWrites :
    let s := atLevel 2 base
    let c := (0x0050081000000000 : Nat)
    let live := { s with core := { s.core with mat := { s.core.mat with mode := .ws } } }
    let tabled := { s with ctxtab := 0xA000 }
    s.th.vp = none ∧ s.core.mat.queue = [] ∧ s.th.level = 2 ∧ (0x0050081000000000 : Word).getLsbD 54 = true ∧
    c / 2 ^ 32 % 2 ^ 6 = s.core.sys.carve.toNat % 2 ^ 6 ∧ 2 ≤ c / 2 ^ 32 % 2 ^ 6 ∧ 1 ≤ c / 2 ^ 40 % 2 ^ 6 ∧
    c / 2 ^ 32 % 2 ^ 6 + c / 2 ^ 40 % 2 ^ 6 + c / 2 ^ 48 % 2 ^ 6 ≤ 40 - s.core.heldOut ∧ live.core.mat.mode ≠ .v ∧
    (0x0050081200000000 : Nat) / 2 ^ 32 % 2 ^ 6 ≠ live.core.sys.carve.toNat % 2 ^ 6 ∧ (8 : Nat) < 9 ∧ (8 : Nat) ≤ 8 ∧
    (s.ssOf (clusterOf s.coreId)).wf = true ∧ s.store.media.wf = true ∧
    (∀ x ∈ s.store.l2, x.data < 256 ^ 32 ∧ x.dmask ≠ 0) ∧
    tabled.place (tabled.ctxtab.toNat + 128 * s.core.sys.ctxid.toNat + 0x40) = .media 0xA2C0 ∧ 0xA2C0 % 8 = 0 ∧
    (1 ≤ 16 ∧ 16 ≤ 16) ∧ (16 : Nat) < 17 ∧ rmCode .rne = 1 ∧ rmCode .rst = 5 ∧ (6 : Nat) ≤ 7 ∧
    (256 : Nat) ≤ 256 ∧ (4096 : Nat) ≤ 4096 ∧ (255 : Nat) < 256 ∧ (4096 : Nat) < 4097 ∧ (0x0023000000000000 : Word).getLsbD 54 = false := by
  decide +kernel

theorem witness_SysregSetAndClear :
    base.th.vp = none ∧ sysWriteLevel .tvec ≤ base.th.level.toNat ∧ base.core.mat.queue = [] ∧
    (SysReg.lease ≠ .thread ∧ SysReg.lease ≠ .cycle ∧ SysReg.lease ≠ .lanebusy ∧ (∀ i, SysReg.lease ≠ .tshape i) ∧ SysReg.lease ≠ .orflt0 ∧
      SysReg.lease ≠ .orflt1 ∧ SysReg.lease ≠ .orprobe ∧ SysReg.lease ≠ .taskrec ∧ SysReg.lease ≠ .mstate) ∧
    (base.sysPut .lease (base.sysValue .lease ||| 1)).isSome = true ∧ (base.sysPut .lease (base.sysValue .lease &&& ~~~ 0x400)).isNone = true ∧
    (base.sysPut .vstate (base.sysValue .vstate ||| 6)).isNone = true ∧ (base.sysPut .vstate (base.sysValue .vstate &&& ~~~ 0xF8)).isSome = true := by
  decide +kernel

theorem witness_PrivilegeIsChecked :
    let s := atLevel 0 base
    s.th.vp = none ∧ s.th.level = 0 ∧ s.th.level.toNat < sysReadLevel .tvec ∧ s.th.level.toNat < sysWriteLevel .tvec ∧
    base.th.level.toNat < sysWriteLevel .mcvec ∧ inVp.th.vp ≠ none := by decide +kernel

/-- The address reaches a byte of device memory. -/
def inMedia (x : State × Target) : Bool :=
  match x.2 with
  | .mem pa _ => (match x.1.place pa with | .media _ => true | _ => false)
  | .spad _ => false

/-- Core 0 with a line of die 1 in L1 that its thread has stored to, and the links of its row to that die down. -/
def cutOffState : State :=
  { base with
    core := { base.core with l1 := [{ L1Line.empty (2 ^ 29) with
      sec := Vector.replicate 4 { dmask := 1, own := Vector.replicate 4 1, since := 0, full := false, poison := false } }] }
    fab := { base.fab with linksDown := [(0, 8), (0, 9)] } }

theorem witness_CacheInstructions :
    (match base.locate 0x4000 1 .read with
      | (s1, .ok tg) => inMedia (s1, tg)
      | _ => false) = true ∧
    (reached base 0x4000 1 .read).map inMedia = some true ∧ (reached base 0x00FFFF0000000000 1 .read).map inMedia = some false ∧
    (reached { cutOffState with core := { cutOffState.core with tlb := [{
        ctx := 5, va := 0x4000, size := 0x1000, pa := 0x1000000000, r := true, w := true, x := true, u := true, rc := false }] } } 0x4000 1 .read).map (fun x =>
      (inMedia x, x.1.cutOff x.1.coreId (homeDie 0x1000000000),
      (x.1.core.line (2 ^ 29)).map (fun l => (l.excl, decide ((rd l.sec 0).dmask ≠ 0))))) = some (true, true, some (false, true)) := by
  decide +kernel

theorem witness_FenceResults :
    base.matBusy = false ∧ base.dirtyLines = [] ∧ cutOffState.matBusy = false ∧ cutOffState.dirtyLines = [2 ^ 29] ∧
    cutOffState.cutOff cutOffState.coreId (homeDie (128 * linLine (2 ^ 29))) = true := by decide +kernel

theorem witness_FrameLayout :
    let c : Convoy :=
      { hdr := 0x1000, units := [0], slots := [0], next := 7, vl := 0, rm := .rne, after := 0x100C, lane0 := 0, lender := none, lent := false }
    (0xFF : Nat) < 2 ^ 8 ∧ inVp.th.unfinished.length ≤ 24 ∧ c.next < 8 ∧ { placedRtn with upc := 511 }.upc < 512 ∧
    { base.th with convoy := some c }.unfinished.length ≤ 24 ∧ { base.th with rtn := some placedRtn }.rtn = some placedRtn ∧
    inVp.th.vp = some vps := by decide +kernel

theorem witness_TrapEntry :
    base.th.intrap = false ∧ base.th.vp = none ∧ (frameWords base.th { cause := 20 } 0x1008).length = 290 ∧
    base.frameOk base.th.tframe.toNat 0x910 = true := by decide +kernel

theorem witness_NestedTrapsAndMachineChecks :
    base.th.vp = none ∧ { base.th with intrap := true }.intrap = true ∧ base.frameOk 0xFFF8000000000 0x910 = false ∧
    base.th.level ≠ 2 ∧ base.frameOk base.core.sys.mcframe.toNat 0x910 = true ∧ (atLevel 2 base).th.level = 2 ∧
    base.boot.ok = false ∧ base.boot.stopped = false ∧ base.boot.mode ≠ 3 ∧ ({ base.boot with ok := true } : Boot).ok = true := by decide +kernel

theorem witness_TrapInstructions : base.th.vp = none ∧ inVp.th.vp ≠ none := by decide +kernel

/-- A frame of zeros is sound: it returns to level 0 at address 0. -/
theorem witness_TrapReturn :
    let s := { base with th := { base.th with intrap := true } }
    let r := s.readWords s.th.tframe.toNat 290
    base.th.intrap = false ∧ s.th.vp = none ∧ s.th.level = 1 ∧ s.th.intrap = true ∧ s.frameOk s.th.tframe.toNat 0x910 = true ∧
    r.2.2 = none ∧ (r.2.1.all fun w => w == 0) = true ∧ ((List.range 4).all fun j => (r.1.threadAt 0 j).wait == .none) = true ∧
    (let odd := { s with store := { s.store with media := s.store.media.writeN 0x8008 1 2 } }
     odd.frameOk odd.th.tframe.toNat 0x910 = true ∧ (odd.readWords odd.th.tframe.toNat 290).2.2 = none ∧
     ((odd.readWords odd.th.tframe.toNat 290).2.1.getD 1 0).toNat % 4 ≠ 0) := by
  decide +kernel

/-- A thread of two virtual processors with an entry to reissue. -/
theorem witness_FrameLayout_entries :
    let e : Replay := { pc := 0x1000, vector := true, slot := 7, prog := 65535, vl := 65535, rm := .rup, opa := 1, opb := 2, opc := 3, nowatch := true }
    let t := { inVp.th with replay := [e] }
    t.unfinished[0]? = some e ∧ t.unfinished.length ≤ 24 ∧ e.prog < 2 ^ 16 ∧ e.slot < 8 ∧ e.vl < 2 ^ 16 ∧ (1 : Nat) < 24 ∧ t.vp = some vps ∧
    vps.vps.length = 2 ∧ (vps.vps[1]?).map (fun y => y.pc.toNat % 4) = some 0 ∧ base.th.vp = none ∧ base.th.rtn = none ∧ base.th.convoy = none := by
  decide +kernel

/-- `base` in a handler, its frame as the words given, the others zero; instructions at 0x5000. -/
def framed (ws : List (Nat × Nat)) (code : Nat) : State :=
  let m := ws.foldl (fun (m : Mem) p => m.writeN (0x8000 + 8 * p.1) 8 p.2) (base.store.media.writeN 0x5000 8 code)
  { base with th := { base.th with intrap := true }, store := { base.store with media := m } }

def frameOf (s : State) : List Nat := (s.readWords 0x8000 290).2.1.map BitVec.toNat

/-! Vector instructions. -/

/-- A vector register holds VLMAX elements of each width, and none more: 512 of 8 bits, 64 of 64. -/
theorem witness_VectorIntegerResults :
    (withVl 512 base).tooLong [ETy.i8.bits] = false ∧ (withVl 64 base).tooLong [ETy.i64.bits] = false ∧
    (withVl 65 base).tooLong [ETy.i64.bits] = true ∧ (withVl 0 base).tooLong [ETy.n16.bits] = false ∧
    (withVl 512 base).tooLong [ETy.n8.bits] = false ∧ (withVl 128 base).tooLong [ETy.i32.bits] = false := by decide +kernel

theorem witness_VectorFloatResults :
    (withVl 64 base).tooLong [ETy.f64.bits] = false ∧ (withVl 256 base).tooLong [ETy.bf16.bits] = false ∧ (Rm.rdn ≠ .rst) := by
  decide +kernel

theorem witness_VectorFloatUnrounded :
    ((fmtOf .f32).decode 0x7FC00000).isNan = true ∧ ((fmtOf .f32).decode 0).isNan = false ∧ ETy.i8.isInt = true ∧
    ¬ (ETy.f32.isInt = true ∧ ETy.i8.isInt = true) ∧ (withVl 512 base).tooLong [ETy.e5m2.bits] = false ∧ vcvtSrc { vf with ty := .f32, c := .v 0 false } = some .i8 ∧
    (withVl 128 base).tooLong [ETy.f32.bits, ETy.i8.bits] = false ∧ ETy.f32 ≠ .mxf4 ∧ ETy.i8 ≠ .mxf4 := by decide +kernel

theorem witness_VectorMaskResults :
    let f := { vf with a := .s 3 }
    let s := withVl 512 base
    f.a = .s 3 ∧ s.th.vp = none ∧ s.tooLong [ETy.i8.bits] = false ∧ ((s.actives f).filter (bit (s.maskOf f.a)) = []) ∧
    (({ s with th := { s.th with vec := { s.th.vec with m := wr s.th.vec.m 1 5 } } }).actives f).filter (bit 5) = [0, 2] ∧
    s.vl < 2 ^ 64 := by decide +kernel

theorem witness_VectorPermutes :
    let f := { vf with a := .v 3 false, b := .s 1 }
    let s := put (withVl 128 base) [(1, 7)]
    s.th.vp = none ∧ s.tooLong [f.ty.bits] = false ∧ f.ty ≠ .mxf4 ∧ s.taggedSrc f.a = false ∧ s.taggedSrc f.b = false ∧
    8 * s.nLanes * 0 < s.vlen ∧ ¬ 8 * s.nLanes * 1 < s.vlen ∧ s.offset { f with c := .v 0 false } ≤ 128 := by decide +kernel

theorem witness_VectorReductions :
    (withVl 128 base).th.vp = none ∧ (withVl 128 base).tooLong [ETy.f32.bits] = false ∧ ETy.i32.isInt = true ∧ ETy.f32.isInt = false ∧
    ({ vf with ord := true }).ord = true ∧ base.mode .dyn ≠ .rst := by decide +kernel

theorem witness_VectorLengthIsChecked :
    let s := withVl 513 base
    let c := { vf with ty := .f32, a := .v 1 false, c := .v 0 false }
    s.vlen * 8 / ETy.i8.bits < s.vl ∧ s.vlen * 8 / ETy.i64.bits < (withVl 65 base).vl ∧ s.th.vp = none ∧
    ({ s with th := { s.th with vp := some vps } } : State).vl = 513 ∧ vf.a.isMain = true ∧ AmoTy.ofEty .i32 ≠ none ∧
    (withVl 129 base).vlen * 8 / ETy.i32.bits < (withVl 129 base).vl ∧ s.actives vf ≠ [] ∧ vcvtSrc c = some .i8 ∧ c.a.isMain = true := by
  decide +kernel

/-- Pointer register 1 set. -/
def atP (a : Word) (s : State) : State := s.setP 1 a

/-- What a unit-stride load slot of a type answers from a base address. -/
def loadsAt (s : State) (f : VF) : ElemRun := (s.loadElems .plain (f.ty.bits / 8) (s.unitEa f) (s.remaining f)).2

theorem witness_VectorLoads :
    let f := { vf with ty := .i64, a := .v 1 false, c := .s 0 }
    let s := atP 0x4000 (withVl 2 base)
    f.ty ≠ .mxf4 ∧ s.tooLong [f.ty.bits] = false ∧ s.th.vp = none ∧ s.fab.falling = none ∧ (loadsAt s f).stop = none ∧
    (loadsAt (atP 0x3FFFFFF8 (withVl 2 base)) f).stop.map (fun p => p.1) = some 1 ∧
    (loadsAt (atP 0x40000000 (withVl 2 base)) f).stop.map (fun p => p.1) = some 0 ∧ (s.actives f).head? = some 0 ∧
    s.spanBreaks { f with b := .v 1 false } = false ∧ (withVl 65 base).spanBreaks { f with b := .v 63 false } = true ∧
    (withVl 64 base).spanBreaks { f with ty := .i8, b := .v 1 false, ux := true } = false := by decide +kernel

theorem witness_VectorScratchpadAccesses :
    let f := { vf with a := .v 1 false, b := .s 2, c := .v 3 false, d := 3 }
    let s := atP 0x00FFFF000001FFF8 (put (withVl 2 base) [(2, 4)])
    let inPad := fun (ea : Nat → Nat) => ∀ i, i < s.vl → s.active f.msk i = true →
      0x00FFFF0000000000 ≤ ea i ∧ ea i < 0x00FFFF0000000000 + 2 ^ 20 ∧ ea i - 0x00FFFF0000000000 + 4 ≤ s.core.spadSize ∧ ea i % 4 = 0
    f.ty ≠ .mxf4 ∧ s.tooLong [f.ty.bits] = false ∧ s.slotNow.prog = 0 ∧ s.fab.falling = none ∧ s.th.vp = none ∧
    (∀ i : Fin 2, (rd s.core.watch i).rd = false ∧ (rd s.core.watch i).wr = false) ∧
    inPad (s.unitEa f) ∧ inPad (s.strideEa f) ∧ inPad (s.indexEa { f with b := .v 1 false }) ∧
    s.spanBreaks { f with b := .v 1 false } = false ∧
    ¬ ∀ i, i < (withVl 3 s).vl → s.active f.msk i = true → s.unitEa f i - 0x00FFFF0000000000 + 4 ≤ s.core.spadSize := by
  decide +kernel

/-- Entry 0 of the traverse table of die 3: the tensor of R268, of context 5. -/
def withTensor (s : State) : State :=
  let e := 0x3000001000 + 8 * 2 ^ 64 + 3 * 2 ^ 128 + 4 * 2 ^ 160 + 1 * 2 ^ 192 + 5 * 2 ^ 208 + 2 ^ 224
  { s with store := { s.store with trav := [(3 * 64, BitVec.ofNat 256 e)] } }

theorem witness_VectorOtherLoads :
    let f := { vf with a := .v 1 false, b := .s 2, c := .v 7 false, d := 3 }
    let s := atP 0x4000 (put (withVl 12 (withTensor base)) [(2, 0x300)])
    let e := s.travEntry 3 0
    s.th.vp = none ∧ s.slotNow.prog = 0 ∧
    (s.loadElems .plain 8 (fun e => (s.pointer f.a + 8 * e) % 2 ^ 64)
      ((List.range s.nLanes).filter (fun e => decide (s.slotNow.prog ≤ e)))).2.stop.isNone = true ∧
    s.tooLong [f.ty.bits] = false ∧ s.spanBreaks { f with b := .v 1 false } = false ∧ f.c = .v 7 false ∧
    s.tooLong [ETy.f16.bits] = false ∧ s.actives f ≠ [] ∧ (s.scalar .b 2 0).toNat / 2 ^ 8 % 8 = 3 ∧ (s.scalar .b 2 0).toNat % 64 = 0 ∧
    s.stackPresent 3 = true ∧ travValid e = true ∧ travCtx e = s.core.sys.ctxid.toNat ∧ 8 * travSize e = ETy.f16.bits ∧
    (∀ i ∈ s.actives f, (travAddr e 3 (0 + i)).map (fun a => s.store.poison.contains (a / 32)) = some false) ∧
    travAddr e 3 12 = none := by decide +kernel

theorem witness_BlockScaledMemory :
    let f := { vf with ty := .mxf4, a := .v 1 false, c := .v 3 false, d := 3 }
    let s := atP 0x4000 (withVl 64 base)
    let s8 := atP 0x4008 (withVl 64 base)
    f.ty = .mxf4 ∧ (withVl 1024 base).tooLong [4] = false ∧ s.tooLong [4] = false ∧ s.mxBroken f = false ∧ (withVl 33 s).mxBroken f = true ∧
    s.remaining f ≠ [] ∧ s.pointer f.a % 16 = 0 ∧ (s.loadMx f .plain (s.remaining f)).2.1.stop.isNone = true ∧
    (s.vreg 3).tag = false ∧ s8.pointer f.a % 16 ≠ 0 ∧ s8.mxBroken f = false ∧ s8.remaining f ≠ [] := by decide +kernel

theorem witness_VectorOtherLoads_peer :
    let f := { vf with a := .v 1 false, b := .v 1 false, c := .v 3 false, d := 3 }
    let s := withVl 2 base
    let odd := atP 2 (withVl 2 base)
    s.tooLong [f.ty.bits] = false ∧ s.spanBreaks f = false ∧ s.slotNow.prog = 0 ∧ s.peerPlace f 0 = some (0, 0) ∧
    odd.peerPlace f 0 = some (0, 2) ∧ (2 : Nat) % (f.ty.bits / 8) ≠ 0 ∧ odd.active f.msk 0 = true ∧ 0 < odd.vl ∧ (3 : VReg).val < 8 := by
  decide +kernel

theorem witness_BlockScaledMemory_whole :
    let f := { vf with ty := .mxf4, a := .v 1 false, b := .s 2, c := .v 3 false, d := 3 }
    let s0 := atP 0x00FFFF0000000000 (put (withVl 64 base) [(2, 0x00FFFF0000000100)])
    let s := { s0 with th := { s0.th with vec := { s0.th.vec with v := s0.th.vec.v.map (fun (r : VRegister) => { r with tag := true }) } } }
    s.tooLong [4] = false ∧ s.mxBroken f = false ∧ s.pointer f.a % 16 = 0 ∧ s.slotNow.prog = 0 ∧ s.fab.falling = none ∧ s.actives f ≠ [] ∧
    (∀ i : Fin 2, (rd s.core.watch i).rd = false ∧ (rd s.core.watch i).wr = false) ∧ (s.vreg 3).tag = true ∧
    (∀ i : Fin 64, spw ≤ s.pointer f.a + i.val / 2 ∧ s.pointer f.a + i.val / 2 < spw + 2 ^ 17 ∧ spw ≤ (s.bScalar f i.val).toNat + i.val / 32 ∧
      (s.bScalar f i.val).toNat + i.val / 32 < spw + 2 ^ 17) ∧ s.core.spadSize = 2 ^ 17 := by decide +kernel

theorem witness_AtomicResults_scratchpad :
    let s := put base [(1, 0x00FFFF000001FFF8), (2, 0xFFFFFFFFFFFFFFFF)]
    AmoTy.i64.ety.isInt = true ∧ 0x00FFFF0000000000 ≤ (s.getS 1).toNat ∧ (s.getS 1).toNat < 0x00FFFF0000000000 + 2 ^ 20 ∧
    (s.getS 1).toNat % 8 = 0 ∧ (s.getS 1).toNat - 0x00FFFF0000000000 + 8 ≤ s.core.spadSize ∧
    s.core.watchHit (s.getS 1).toNat 8 true true = none := by decide +kernel

/-- The check of an atomic on 8 bytes, and what the place then refuses. -/
def atomAt (s : State) (va : Nat) : Option (Option Trap) := (reached s va 8 .atomic).map (fun x => x.1.amoFault va x.2 .add .i64)

/-- `base` with its thread's L1 holding the line of 0x4000 exclusive. -/
def withLine : State :=
  { base with core := { base.core with l1 := [{ L1Line.empty 0x80 with filled := true, excl := true }] } }

theorem witness_AtomicResults_memory :
    let q : AmoReq := { op := .add, ty := .i64, sr := false, far := false, v := 1, expect := 0, lane := none }
    refusedWith base 0x4001 8 .atomic = some 5 ∧ refusedWith base 0x40000000 8 .atomic = some 6 ∧
    atomAt { base with store := { base.store with poison := [0x200] } } 0x4000 = some (some (Cause.poison 0x4000 0x4000)) ∧
    atomAt base 0x4000 = some none ∧
    (reached withLine 0x4000 8 .atomic).map (fun x => (x.2, x.1.runsFar q 0x4000, inMedia x,
      (x.1.core.line (0x4000 / 128)).map (fun l => l.excl))) = some (.mem 0x4000 false, false, true, some true) := by decide +kernel

/-- `base` with the page of 0x4000 at a physical address. -/
def mapped (pa : Nat) (s : State) : State :=
  { s with core := { s.core with tlb := [{ ctx := 5, va := 0x4000, size := 0x1000, pa, r := true, w := true, x := true, u := true, rc := false }] } }

/-- Host memory, a port that is up, configuration space. -/
theorem witness_AtomicResults_outside :
    let ports := { base with boot := { base.boot with ports := 255 } }
    (reached (mapped (2 ^ 50) base) 0x4000 8 .atomic).map (fun x => (x.2, x.1.place (2 ^ 50))) = some (.mem (2 ^ 50) false, .host 0) ∧
    (reached (mapped (2 ^ 50 + 2 ^ 49) ports) 0x4000 8 .atomic).map (fun x => (x.2, x.1.place (2 ^ 50 + 2 ^ 49))) =
      some (.mem (2 ^ 50 + 2 ^ 49) false, .peer 0 0) ∧
    (reached (mapped (2 ^ 51) base) 0x4000 8 .atomic).map (fun x => (x.2, x.1.place (2 ^ 51))) = some (.mem (2 ^ 51) false, .cfg 0) ∧
    ETy.i64.isInt = true ∧ ETy.f32.isInt = false := by decide +kernel

/-- A near atomic on a line that the core owns, one on a line that nobody owns, and far ones. -/
theorem witness_AtomicResults_device :
    (reached withLine 0x4000 8 .atomic).map (fun x => (x.1.atomicPoison 0x4000, x.1.isDeps 0x4000, x.1.armed 0x4000, x.1.core.ways != 0,
      look x.1.core.pred (128 % 256))) = some (false, false, none, true, none) ∧
    (reached withLine 0x4000 8 .atomic).map (fun x => (x.1.core.exclLine 128 == x.1.core.line 128, x.1.others == [])) = some (true, true) ∧
    (reached base 0x4000 8 .atomic).map (fun x => (x.1.atomicPoison 0x4000, x.1.core.l1 == [], x.1.others == [], x.1.fab.tasks == [])) =
      some (false, true, true, true) ∧
    (reached { base with core := { base.core with pred := [(128, 2)] } } 0x4000 8 .atomic).map (fun x => look x.1.core.pred (128 % 256)) =
      some (some 2) ∧ (0x4000 : Nat) % 8 = 0 ∧ (7 : Nat) < 256 ^ 8 := by decide +kernel

/-- No core holds the line of 0x4000 there. -/
theorem witness_AtomicResults_settled : base.Settled 128 ∧ { base with core := { base.core with pred := [(128, 2)] } }.Settled 128 :=
  ⟨settled _ rfl rfl rfl _, settled _ rfl rfl rfl _⟩

/-- Owned, stored to, and in no core's way. -/
theorem witness_CacheInstructions_quiet :
    let s1 : State := { withLine with core := { withLine.core with l1 := withLine.core.l1.map (fun (l : L1Line) =>
      { l with excl := false, sec := Vector.replicate 4 { dmask := 3, own := Vector.replicate 4 1, since := 0, full := false, poison := false } }) } }
    (s1.core.line 128).map (fun l => (l.excl, (rd l.sec 0).dmask)) = some (false, 3) ∧ s1.core.exclLine 128 = none ∧ s1.others = [] ∧
    s1.fab.tasks = [] ∧ s1.store.media.wf = true ∧ (s1.dirtyByte 128 0x4001).isSome = true ∧ s1.dirtyByte 128 0x4002 = none ∧
    (withLine.core.line 128).map (fun l => l.excl) = some true ∧ withLine.core.exclLine 128 = withLine.core.line 128 ∧
    withLine.cutOff withLine.coreId (homeDie 0x4000) = false := by decide +kernel

theorem witness_VectorAtomics :
    let f := { vf with ty := .i64, a := .v 1 false, b := .v 1 false, c := .v 3 false, d := 3, ord := true }
    let s := atP 0x4000 (withVl 2 base)
    let sBad := atP 0x40000000 (withVl 2 base)
    let q : AmoReq := { op := .add, ty := .i64, sr := false, far := false, v := 0, expect := 0, lane := some 0 }
    AmoTy.ofEty f.ty = some .i64 ∧ s.tooLong [f.ty.bits] = false ∧ s.spanBreaks f = false ∧ s.th.vp = none ∧
    (s.checkElems (fun _ => q) (s.indexEa f) (s.remaining f)).2.2.isNone = true ∧
    (sBad.checkElems (fun _ => q) (sBad.indexEa f) (sBad.remaining f)).2.2.map (fun p => p.1) = some 0 := by decide +kernel

/-! Convoys, the carve-out, watchpoints, contexts, routines, queues, tasks. -/

/-- The machine with a register window set. -/
def withCarve (c : Word) (s : State) : State := { s with core := { s.core with sys := { s.core.sys with carve := c } } }

theorem witness_ConvoysAndVirtualProcessors :
    let odd := withVl 3 { base with th := { base.th with psz := wr base.th.psz 1 4 } }
    let other := { inVp with th := { inVp.th with vp := some { vps with vps := vps.vps.map (fun (x : Vp) => { x with stopped := true }) } } }
    let masked := { base with th := { base.th with vec := { base.th.vec with vl := 2, m := wr base.th.vec.m 1 0 } } }
    base.th.vp = none ∧ odd.th.vec.vl % 2 = 1 ∧ (odd.getK 0).getLsbD 1 = true ∧ rd odd.th.psz 1 = 4 ∧ ¬ base.th.vec.vl % 2 = 1 ∧
    base.matBusy = false ∧ (busy 1).matBusy = true ∧ (∀ u ∈ [(6 : Fin 7)], u = 6) ∧ vpSafeConvoy [6] [0x0000000000000006] = false ∧
    vpSafeConvoy [1] [0x1012C18201202203] = true ∧ base.core.mat.mode = .v ∧
    ({ base.core.mat with mode := .ws } : Mat).mode ≠ .v ∧ inVp.th.vp = some vps ∧
    ((put base [(1, 0x1002)]).getS 1).toNat % 4 ≠ 0 ∧ ((put base [(1, 0x1004)]).getS 1).toNat % 4 = 0 ∧
    (List.range masked.th.vec.vl).filter (masked.active (some 1)) = [] ∧
    (List.range masked.th.vec.vl).filter (masked.active none) = [0, 1] ∧
    vps.cur = some 0 ∧ vps.vps[0]?.isSome = true ∧ inVp.th.pc = vps.join ∧ vps.vps[1]?.map (fun (y : Vp) => y.stopped || y.never) = some false ∧
    (other.th.vp.bind (fun v => v.vps[1]?)).map (fun (y : Vp) => y.stopped) = some true := by decide +kernel

/-- A requested split and the machine to ask it of. -/
def asks (w : Word) (s : State) : State := put s [(1, w)]

theorem witness_CarveAndBarrier :
    let live := { base with core := { base.core with mat := { base.core.mat with mode := .ws } } }
    let at_ := { base with th := { base.th with wait := .tbar, occ := true } }
    let sum := fun (w : Nat) => w % 2 ^ 6 + w / 2 ^ 8 % 2 ^ 6 + w / 2 ^ 16 % 2 ^ 6
    base.th.vp = none ∧ (0x00100801 : Nat) % 2 ^ 6 < 2 ∧ (0x00100002 : Nat) / 2 ^ 8 % 2 ^ 6 < 1 ∧ (0x00400102 : Nat) / 2 ^ 22 % 2 ^ 42 ≠ 0 ∧
    40 - base.core.heldOut = 40 ∧ 40 < sum 0x00270102 ∧ ¬ 40 < sum 0x00250102 ∧
    (0x00250102 : Nat) % 2 ^ 6 ≠ base.core.sys.carve.toNat % 2 ^ 6 ∧ base.matBusy = false ∧ live.matBusy = false ∧
    live.core.mat.mode ≠ .v ∧ (0x00100110 : Nat) % 2 ^ 6 = base.core.sys.carve.toNat % 2 ^ 6 ∧
    base.core.sys.carve.toNat / 2 ^ 16 % 2 ^ 6 * 8192 = 131072 ∧ (130944 + 128 : Nat) ≤ 131072 ∧ ¬ (130944 + 256 : Nat) ≤ 131072 ∧
    base.core.watchHit (0x00FFFF0000000000 + 130944) 128 false true = none ∧ base.core.spad.wf = true ∧
    (at_.threadAt at_.ev.core 0).occ = true ∧ (at_.threadAt at_.ev.core 0).wait = .tbar ∧
    (∀ j, j < 4 → j ≠ 0 → (at_.threadAt at_.ev.core j).occ = false) ∧ (at_.coreAt at_.ev.core).mat.queue = [] ∧ (at_.coreAt at_.ev.core).rpend = [] ∧
    ({ base with core := { base.core with rpend := [3] } }.coreAt 0).rpend ≠ [] ∧ ((busy 1).coreAt 0).mat.queue ≠ [] ∧
    (base.core.sys.carve.toNat / 2 ^ 54 % 2 = 0) ∧ (0x005C080800100810 : Nat) / 2 ^ 54 % 2 = 1 ∧
    (0x005C080800100810 : Nat) / 2 ^ 32 % 2 ^ 6 ≠ 0x005C080800100810 % 2 ^ 6 ∧
    (0x005C081000100810 : Nat) / 2 ^ 32 % 2 ^ 6 = 0x005C081000100810 % 2 ^ 6 := by decide +kernel

/-- Home watchpoint 0 of the slice of 0x4000, of a context. -/
def homeWatched (ctx : Nat) : State :=
  { base with store := { base.store with
    homeW := [{ slice := homeSlice 0x4000, idx := 0, lin := 0x4000, rd := true, wr := false, len := 0, ctx, core := 3, hits := 12 }] } }

/-- The place of a home watchpoint: the trap, no slice, or the linear address. -/
def watchedPlace (s : State) (va : Nat) : Option (Option Nat) :=
  match (s.watchPlace va).2 with
  | .ok x => some x
  | .error _ => none

/-- The traverse-table entry of R268 in memory. -/
def tensorAt (e : Nat) (s : State) : Bool :=
  match ({ s with core := { s.core with spad := s.core.spad.writeN 0 32 e } }).load .plain 0x00FFFF0000000000 32 with
  | (_, .ok x) => x == e
  | (_, .error _) => false

/-- A message in flight that has used the TLB entry of 0x4000. -/
def using_ : State :=
  { base with
    core := { base.core with tlb := [{ ctx := 5, va := 0x4000, size := 0x1000, pa := 0x4000, r := true, w := true, x := true, u := true, rc := false }] }
    fab := { base.fab with used := [(1, 5, 0x4000)], msgs := [{
      id := 1, op := .push, core := 0, slot := 0, hdr := 0x4000, lin := 0x4000, e16 := false, lo := 7, hi := 0, pairable := true, win := 0
      router := 0, path := [], at_ := 0, place := .moving, mate := 0 }] } }

theorem witness_WatchpointsTlbsAndTables :
    let good := 0x3000001000 + 8 * 2 ^ 64 + 3 * 2 ^ 128 + 4 * 2 ^ 160 + 1 * 2 ^ 192 + 5 * 2 ^ 208 + 2 ^ 224
    base.th.vp = none ∧ 1 ≤ base.th.level.toNat ∧ (0x20 : Nat) / 32 ≠ 0 ∧ (0x4004 : Nat) % 2 ^ 3 ≠ 0 ∧ (0x4008 : Nat) % 2 ^ 3 = 0 ∧
    (0x1F : Nat) / 32 = 0 ∧ watchedPlace base 0x40000000 = none ∧ watchedPlace base 0x00FFFF0000000000 = some none ∧
    watchedPlace base 0x4000 = some (some 0x4000) ∧ (base.homeWatchAt 0x4000 0).isNone = true ∧
    ((homeWatched 5).homeWatchAt 0x4000 0).map (fun h => h.ctx == base.core.sys.ctxid.toNat) = some true ∧
    ((homeWatched 6).homeWatchAt 0x4000 0).map (fun h => h.ctx == base.core.sys.ctxid.toNat) = some false ∧
    base.fab.used = [] ∧ using_.fab.used = [(1, 5, 0x4000)] ∧ using_.fab.inFlight 1 = true ∧
    (using_.coreAt 0).tlb.map (fun e => e.covers 5 0x4000) = [true] ∧ 0 ∈ using_.coreNos ∧
    (let rows := { using_ with core := { using_.core with mat := { using_.core.mat with ctr := some 0x4000, queue := [{ entry with mop := 8, sv1 := 0x4000 }] } } }
     (rows.coreAt 0).mat.ctr = some 0x4000 ∧ (rows.coreAt 0).mat.queue.map (fun e => e.sv1.toNat) = [0x4000] ∧ (rows.coreAt 0).sys.ctxid.toNat = 5) ∧
    (busy 1).matBusy = true ∧ base.matBusy = false ∧ tensorAt good base = true ∧ travBad good = false ∧
    travBad (good + 1) = true ∧ tensorAt (good + 1) base = true ∧ base.stackPresent 3 = true ∧
    ({ base with boot := { base.boot with mode := 1, live := 0 } }).stackPresent 3 = false ∧
    (match base.load .plain 0x40000000 32 with | (_, .error _) => true | (_, .ok _) => false) = true := by decide +kernel

/-- A second thread of core 0. -/
def sibling (f : Thread → Thread) (s : State) : State := s.setThread 0 1 (f { Thread.reset 0 1 with occ := true })

/-- The length of the image that the machine would save. -/
def imageLen (s : State) : Option Nat :=
  match s.releaseTeam.draft with
  | (_, .ok dr) => some (piecesLen dr.parts)
  | (_, .error _) => none

/-- What an address holds for `ctxload`: a trap, no image, or one with its VN, MN and carve-out. -/
def imageAt (s : State) (va : Nat) : Option (Option (Bool × Nat × Nat × Nat)) :=
  match (s.readImage va).2 with
  | .ok x => some (x.map fun im => (im.portv, im.vn, im.mn, im.carve.toNat))
  | .error _ => none

theorem witness_ContextImages :
    base.th.vp = none ∧ 1 ≤ base.th.level.toNat ∧ (0x11000 : Nat) % 4096 = 0 ∧ (0x11800 : Nat) % 4096 ≠ 0 ∧
    (sibling (fun t => { t with intrap := true }) base).siblingInTrap = true ∧ base.siblingInTrap = false ∧
    (sibling (fun t => { t with wait := .queue 1 .tdone }) base).siblingInTrap = false ∧
    (sibling (fun t => { t with wait := .queue 1 .tdone }) base).siblingsReady = false ∧ base.siblings = [] ∧
    (let two := (sibling (fun t => { t with wait := .queue 1 .tdone }) base).setThread 0 2 { Thread.reset 0 2 with occ := true }
     two.siblings = [1, 2] ∧ two.siblingsReady = false ∧ two.th.occ = true ∧ two.th.level ≠ 2 ∧ (two.threadAt 0 2).atBoundary = true ∧
     ({ two with th := { two.th with wait := .saving } } : State).calledUp 0 2 = false) ∧
    (imageLen (withCarve 0x0810 base)).isSome = true ∧ (withCarve 0x0810 base).siblings = [] ∧
    imageAt base 0x40000000 = none ∧ imageAt base 0x11000 = some none := by decide +kernel

/-- Bytes of the scratchpad, read by sectors as an image is. -/
theorem imageRead_pad (s : State) (fuel off n : Nat) (h : off + n ≤ s.core.spadSize) (top : off + n ≤ 2 ^ 20)
    (enough : n = 0 ∨ off % 32 + n ≤ 32 * fuel) :
    State.imageRead fuel s (spw + off) n = (s, .ok (s.core.spad.readN off n)) := by
  induction fuel generalizing off n with
  | zero => obtain rfl : n = 0 := by omega
            rfl
  | succ fuel ih =>
    rw [State.imageRead]
    by_cases hn : n = 0
    · subst hn; rfl
    rw [if_neg hn]
    have hw : spw = 0x00FFFF0000000000 := rfl
    obtain ⟨k, hk, h0, h1⟩ : ∃ k, min n (32 - off % 32) = k ∧ k ≤ n ∧ (k = n ∨ k + off % 32 = 32 ∧ (off + k) % 32 = 0) :=
      ⟨_, rfl, by omega, by omega⟩
    have hs : (spw + off) % 32 = off % 32 := by omega
    have hm : (spw + off + k) % 2 ^ 64 = spw + (off + k) := by omega
    have hin : inSpw (spw + off) = true := by simp [inSpw]; omega
    have hfit : ¬ s.core.spadSize < off + k := by omega
    have hr := ih (off + k) (n - k) (by omega) (by omega) (by omega)
    simp only [hs, hk, State.locate, hin, if_true, Nat.add_sub_cancel_left, hfit, if_false, State.readAt, hm, hr]
    rw [← Mem.readN_add, Nat.add_sub_cancel' h0]

/-- An image whose thread section, registers and scratchpad are empty: the header, RM in `VSTATE`. -/
def blob : Nat := ((withCarve 0x0810 base).imageHeader 11840 0 true false).data + 256 ^ (256 + 8 * 290)

/-- `base` with a scratchpad, and granules held for outputs. -/
def imaged (m : Mem) (held : Nat) : State := { base with core := { base.core with spad := m, heldOut := held } }

/-- What an image without a matrix section leaves to other sources. -/
def nothing : Beyond := { kept := [], rec_ := 0, va := 0, joined := false, scales := fun _ => 0 }

theorem blob_reads : blob % 256 ^ 11840 = blob ∧ getB (blob % 256 ^ 256) 0 4 = 11840 ∧ headerBad (blob % 256 ^ 256) 0 = false ∧
    bit (getB blob 0x17 1) 1 = false ∧
    (parseImage blob 0 64 nothing).map (fun im => (im.portv, im.vn, im.mn, im.carve.toNat)) = some (true, 64, 0, 0x0810) := by
  decide +kernel

theorem parse_bare (x : Blob) (p q : Beyond) (h : bit (getB x 0x17 1) 1 = false) :
    (parseImage x 0 64 p).map (fun im => (im.portv, im.vn, im.mn, im.carve.toNat)) =
      (parseImage x 0 64 q).map (fun im => (im.portv, im.vn, im.mn, im.carve.toNat)) := by
  simp only [parseImage, h, Bool.false_eq_true, if_false]
  split
  · rfl
  · split
    · rfl
    · split <;> rfl

theorem blob_parses (p : Beyond) :
    (parseImage blob 0 64 p).map (fun im => (im.portv, im.vn, im.mn, im.carve.toNat)) = some (true, 64, 0, 0x0810) :=
  (parse_bare blob p nothing blob_reads.2.2.2.1).trans blob_reads.2.2.2.2

theorem pad_facts : base.core.spadSize = 131072 ∧ base.nLanes = 64 ∧ base.slot.val = 0 := by decide +kernel

theorem readN_written (n v k : Nat) (h : k ≤ n) (hv : v % 256 ^ n = v) : (Mem.writeN [] 0 n v).readN 0 k = v % 256 ^ k := by
  have h1 := Mem.readN_writeN [] 0 n v rfl
  obtain ⟨j, rfl⟩ := Nat.exists_eq_add_of_le h
  rw [hv, Mem.readN_add] at h1
  generalize (Mem.writeN [] 0 (k + j) v) = m at *
  rw [← h1, Nat.add_mul_mod_self_left, Nat.mod_eq_of_lt (Mem.readN_lt _ _ _)]

theorem imaged_read (m : Mem) (x held : Nat) (g0 : m.readN 0 256 = x % 256 ^ 256) (g1 : m.readN 0 11840 = x)
    (g2 : getB (x % 256 ^ 256) 0 4 = 11840) (g3 : headerBad (x % 256 ^ 256) 0 = false) :
    ∃ s p, (imaged m held).readImage spw = (s, .ok (parseImage x 0 64 p)) ∧ s = { imaged m held with free := s.free } := by
  obtain ⟨f1, f2, f3⟩ := pad_facts
  have hs : (imaged m held).core.spadSize = 131072 := by rw [← f1]; simp only [Core.spadSize, imaged]
  have r1 := imageRead_pad (imaged m held) 10 0 256 (by omega) (by omega) (by omega)
  have r2 := imageRead_pad (imaged m held) 372 0 11840 (by omega) (by omega) (by omega)
  have hp : (imaged m held).core.spad = m := by simp only [imaged]
  rw [hp, g0] at r1
  rw [hp, g1] at r2
  have h3 : (imaged m held).slot.val = 0 := by rw [← f3]; simp only [imaged]
  have h2 : (imaged m held).nLanes = 64 := by rw [← f2]; simp only [State.nLanes, State.lanes, imaged]
  rw [State.readImage, show spw = spw + 0 from rfl, r1]
  simp only [h3, g3, g2, h2, show 11840 / 32 + 2 = 372 from rfl, r2, if_false, Bool.false_eq_true]
  exact ⟨_, _, rfl, rfl⟩

/-- An image at the start of the scratchpad that loads with status 0, and with status 3 where outputs hold 17 granules. -/
theorem witness_ContextImages_load :
    ∃ m : Mem, ∀ held, ∃ s im, (imaged m held).readImage spw = (s, .ok (some im)) ∧ im.portv = true ∧ im.mn = 0 ∧ im.carve = 0x0810 ∧
      s = { imaged m held with free := s.free } := by
  obtain ⟨g1, g2, g3, -, -⟩ := blob_reads
  have g4 := blob_parses
  generalize blob = x at *
  refine ⟨Mem.writeN [] 0 11840 x, fun held => ?_⟩
  have r := readN_written 11840 x
  obtain ⟨s, p, h, hs⟩ := imaged_read (Mem.writeN [] 0 11840 x) x held (r _ (by omega) g1) ((r _ (by omega) g1).trans g1) g2 g3
  have g := g4 p
  cases hi : parseImage x 0 64 p with
  | none => simp [hi] at g
  | some im =>
    simp only [hi, Option.map_some, Option.some.injEq, Prod.mk.injEq] at g
    exact ⟨s, im, hi ▸ h, g.1, g.2.2.1, BitVec.eq_of_toNat_eq g.2.2.2, hs⟩

/-- Another thread under way, its frame in memory or outside it. -/
def running (tframe : Word) : State := sibling (fun t => { t with tframe }) (withCarve 0x0810 base)

/-- Saves that stop another thread, or cannot; what is written where. -/
theorem witness_ContextImages_save :
    let stops := fun (s : State) => s.siblings.foldl (fun u j =>
      if (u.threadAt u.coreId j).isStopped then u
      else u.onThread u.coreId (Fin.ofNat 4 j) (fun v => v.stopThread { cause := 33 } (some true))) s
    let one := withCarve 0x0810 base
    let none_ := stops (running 0xFFF8000000000)
    let pieces : List Piece := [.bytes 8 5]
    (running 0xB000).siblings = [1] ∧ (running 0xB000).siblingInTrap = false ∧ (running 0xB000).siblingsReady = true ∧
    ((running 0xB000).threadAt 0 1).isStopped = false ∧ ((running 0xB000).threadAt 0 1).vp = none ∧ (running 0xB000).frameOk 0xB000 2320 = true ∧
    (none_.threadAt 0 1).isStopped = false ∧
    one.core.team ≤ 4 ∧ one.core.mat.queue.length ≤ 32 ∧ one.core.mat.gate < 256 ∧ one.core.mat.lat.length ≤ 64 ∧ one.core.mat.bound = none ∧
    (one.th.vec.vl < 2 ^ 16 ∧ one.th.vec.vlen < 2 ^ 16 ∧ ∀ r : VReg, (rd one.th.vec.v r).vb < 2 ^ 16) ∧
    (∀ i : Fin 8, (rd one.core.mat.tshape i).rows ≤ 128 ∧ (rd one.core.mat.tshape i).cols ≤ 128) ∧
    ((imageLen one).map fun n => decide (n < 2 ^ 32)) = some true ∧
    (match base.writeParts false 0x11000 pieces with | (_, .ok ()) => true | (_, .error _) => false) = true ∧
    (match base.writeParts false 0x40000000 pieces with | (_, .ok ()) => false | (_, .error _) => true) = true ∧
    (State.imageRead 10 base 0x11000 256).2.toOption = some 0 := by decide +kernel

/-- A routine of one `umov` and a `uend` bound to slot 3, its image in the scratchpad; resident or not. -/
def bound (words : Option (List (BitVec 32))) (image : Word) : State :=
  { base with core := { base.core with
    spad := (base.core.spad.writeN 512 8 2).writeN 520 8 0xFC000000000A0000
    binds := [{ ctx := 5, slot := 3, image, words }] } }

/-- The header of an image, and whether its words are a routine. -/
def routineAt (s : State) (va : Nat) : Option (Nat × Bool) :=
  match s.load .plain va 8 with
  | (s1, .ok n) => (match s1.loadMicros (va + 8) n with
    | (_, .ok ws) => some (n, wordsOk ws)
    | (_, .error _) => some (n, false))
  | (_, .error _) => none

theorem witness_RoutineTable :
    let s := bound (some [0x000A0000, 0xFC000000]) 0x00FFFF0000000200
    let bad := { s with core := { s.core with spad := s.core.spad.writeN 524 4 0xFFFFFFFF } }
    let in_ := { s with th := { s.th with rtn := some { placedRtn with slot := 3, ctx := 5 } } }
    s.th.vp = none ∧ 1 ≤ s.th.level.toNat ∧ base.core.bindingOf 5 3 = none ∧ (s.core.bindingOf 5 3).isSome = true ∧
    ((s.core.bindingOf 5 3).bind (fun e => e.words)).isSome = true ∧
    ((bound none 0x4000).core.bindingOf 5 3).map (fun e => e.words) = some none ∧
    s.slotUsed 3 = false ∧ in_.slotUsed 3 = true ∧ (0x204 : Nat) % 8 ≠ 0 ∧ (0x208 : Nat) % 8 = 0 ∧
    s.core.binds.length < 256 ∧ routineAt s 0x00FFFF0000000200 = some (2, true) ∧ routineAt bad 0x00FFFF0000000200 = some (2, false) ∧
    routineAt s 0x40000000 = none ∧ (routineAt s 0x00FFFF0000000300).map (fun x => x.1) = some 0 ∧
    (match s.load .plain 0x00FFFF0000000208 8 with | (_, .ok n) => decide (256 < n) | (_, .error _) => false) = true ∧ s.core.storeUsed ≤ 256 := by decide +kernel

theorem witness_MicroOperations :
    let r := { placedRtn with cur := { a := .h 1, b := .h 2, ldt := .i64, stw := .d, off := 0, v := { vd := 1, va := 2, vb := 3, j := 4, ty := .f32 } }
                              h := wr (wr placedRtn.h 1 0x4000) 2 63 }
    let s := { base with th := { base.th with rtn := some r } }
    let g := 64 * s.nLanes / 32
    s.th.rtn = some r ∧ (s.uget r r.cur.b).toNat < s.nLanes ∧ s.nLanes ≤ (s.uget r r.cur.a).toNat ∧
    (match s.load .plain 0x40000000 8 with | (_, .error _) => true | (_, .ok _) => false) = true ∧
    (match s.load .plain 0x4000 8 with | (_, .ok _) => true | (_, .error _) => false) = true ∧
    refusedWith s 0x40000000 8 .write = some 6 ∧ ((reached s 0x4000 8 .write).map fun x =>
      (match x.2 with
        | .mem pa _ => decide (pa % 8 = 0) && x.1.core.ways != 0 && (match x.1.place pa with | .cfg _ => false | _ => true)
        | .spad _ => false) && x.1.core.spad.wf && x.1.store.host.wf && x.1.store.peer.isEmpty && (x.1.core.l1.map (·.tag)).isEmpty) = some true ∧
    s.matBusy = false ∧ { busy 1 with th := s.th }.matBusy = true ∧ g = 128 ∧ s.vlen * 8 / 32 = 128 ∧
    (0 + 1) * g ≤ s.vlen * 8 / 32 ∧ s.vlen * 8 / 32 < (1 + 1) * g ∧ ETy.f32.isInt = false ∧ ETy.n8.isInt = true := by decide +kernel

/-- The thread waits for the answer to a queue instruction. -/
def answered (x : Option QAns) : State := { base with th := { base.th with wait := .queue 9 .tdone, qans := x } }

/-- The headers that the entries of a table of 64 bytes name. -/
def polled (s : State) : Option (List Word) :=
  match s.reach 0x00FFFF0000000000 64 64 .read with
  | (s1, .ok tg) => (match s1.readTable tg 0x00FFFF0000000000 with
    | (_, .ok ws) => some ws
    | (_, .error _) => none)
  | (_, .error _) => none

/-- The header of a queue of 8 entries of 8 bytes that holds 3. -/
def withQueue : State :=
  { base with
    store := { base.store with media := base.store.media.writeN 0x5000 32 (8 * 2 ^ 192 + 3 * 2 ^ 224 + 1) }
    core := { base.core with spad := base.core.spad.writeN 8 8 0x5000 } }

theorem witness_QueueInstructions :
    (answered none).th.wait = .queue 9 .tdone ∧ (answered none).th.qans = none ∧ (answered (some .done)).th.qans = some .done ∧
    (answered (some (.entry 5 9))).th.qans = some (.entry 5 9) ∧ ((30 : Reg).val ≠ 31) ∧ (answered (some .empty)).th.qans = some .empty ∧
    (answered (some .full)).th.qans = some .full ∧ (answered (some (.bad 2))).th.qans = some (.bad 2) ∧
    (answered (some (.nomem 0x5000))).th.qans = some (.nomem 0x5000) ∧ (answered (some (.count 17))).th.qans = some (.count 17) ∧
    (answered (some (.status 1))).th.qans = some (.status 1) ∧
    base.th.vp = none ∧ base.th.wait = .none ∧ base.matBusy = false ∧
    (match base.reachHeader 0x5001 .atomic with | (_, .error _) => true | (_, .ok _) => false) = true ∧
    (match base.reachHeader 0x5000 .atomic with | (s1, .ok pa) => pa == 0x5000 && !s1.matBusy | (_, .error _) => false) = true ∧
    polled base = some [0, 0, 0, 0, 0, 0, 0, 0] ∧ polled withQueue = some [0, 0x5000, 0, 0, 0, 0, 0, 0] := by decide +kernel

/-- A queue object at 0x5000 with a control word, COUNT, HEAD, TAIL and entry 1 of the ring. -/
def queueAt (control count head tail : Nat) : State :=
  let m := base.store.media.writeN 0x5000 32 (control + 4 * 2 ^ 192 + count * 2 ^ 224)
  { base with store := { base.store with
    media := (m.writeN 0x5020 8 (head + 2 ^ 32 * tail)).writeN 0x5088 8 77, l2 := [] } }

/-- The header is well formed. -/
def headed (s : State) : Bool := !s.qMalformed 0x5000 (s.qBytes 0x5000 128).1

theorem witness_QueueInstructions_home :
    let s := queueAt 0 2 1 3
    let field := fun (s : State) at_ n => getBits (s.qBytes 0x5000 128).1 at_ n
    let poisoned := fun k => { s with store := { s.store with poison := [k] } }
    (0x5000 : Nat) % 128 = 0 ∧ s.place 0x5000 = .media 0x5000 ∧ s.store.media.wf = true ∧ (s.core.l1 = [] ∧ s.others = [] ∧ s.fab.tasks = []) ∧
    (s.qBytes 0x5000 128).2 = none ∧ ((poisoned 0x281).qBytes 0x5000 128).2 = some 0x5020 ∧ headed s = true ∧
    headed (queueAt 4 2 1 3) = false ∧ headed (queueAt 0 5 1 3) = false ∧ headed (queueAt 0 2 4 3) = false ∧ field s 3 1 = 0 ∧
    field s 224 32 = 2 ∧ field (queueAt 0 4 1 1) 224 32 = field (queueAt 0 4 1 1) 192 32 ∧ field (queueAt 0 0 1 1) 224 32 = 0 ∧
    field s 0 2 = 0 ∧ field (queueAt 1 2 1 3) 0 2 = 1 ∧ linOf (0x5080 + 3 * 8) = some 0x5098 ∧ (field s 288 32 + 4 - 1) % 4 = 2 ∧
    (s.qBytes 0x5088 8) = (77, none) ∧ ((poisoned 0x284).qBytes 0x5088 8).2 = some 0x5080 ∧
    s.qBadControl 0x5000 0x0000000400000101 = false ∧ s.qBadControl 0x5000 0x0000000400000104 = true := by decide +kernel

/-- A poll that has asked for entry 1 and has an answer. -/
theorem witness_QueueInstructions_poll :
    let s := { (answered (some (.count 3))) with th := { (answered (some (.count 3))).th with
      k := (wr base.th.k 1 0xFF), polling := some (1, 0, [0x5000]) } }
    s.th.wait = .queue 9 .tdone ∧ s.th.polling = some (1, 0, [0x5000]) ∧ s.th.qans = some (.count 3) ∧ (s.getK 1).getLsbD 2 = true ∧
    (match s.reachHeader 0x5000 .read with | (u, .ok pa) => u.place pa == .media 0x5000 | (_, .error _) => false) = true ∧
    (cutOffState.releaseCut 3 = true) ∧ base.releaseCut 3 = false ∧ inVp.th.wait = .none := by decide +kernel

/-- A task. -/
def task (id : Nat) (ph : Phase) (core : Nat) : LTask := { LTask.blank 0x5000 5 with id, phase := ph, core, entry := 0x1000, team := 1 }

/-- A context that may use the record at 0x5000 and its counter (R340, R388): the TLB holds the page as a record page, the record map
gives the context. The task 9 runs. -/
def withRecords (f : Mem → Mem) : State :=
  { base with
    recmap := 0x9000
    core := { base.core with tlb := [{ ctx := 5, va := 0x4000, size := 0x10000, pa := 0x4000, r := true, w := true, x := true, u := true, rc := true }] }
    fab := { base.fab with tasks := [task 9 .running 0] }
    store := { base.store with media := f (((base.store.media.writeN 0x5010 4 1).writeN 0x9000 4 (2 ^ 31 + 5))) } }

/-- A check that passes, with the rest of what is asked. -/
def passes {α : Type} (r : State × Except Trap α) (p : State → α → Bool) : Bool :=
  match r with
  | (s, .ok x) => p s x
  | (_, .error _) => false

def traps {α : Type} (r : State × Except Trap α) : Bool :=
  match r with
  | (_, .ok _) => false
  | (_, .error _) => true

/-- `base` with tables down to level 3 for the page of 0x40000000: a group of C leaves from 0x500000, of which `e` may replace the
first. -/
def paged (e : Nat) : State :=
  let group := (List.range 15).foldl (fun m j => m.writeN (0x400008 + 8 * j) 8 (0x50109F + 4096 * j)) (base.store.media.writeN 0x400000 8 e)
  { base with store := { base.store with
    media := ((group.writeN 0x100000 8 0x200001).writeN 0x200008 8 0x300001).writeN 0x300000 8 0x400001, l2 := [] } }

theorem pointer_sound {e va n : Nat} (h1 : getBits e 52 12 = 0) (h2 : getBits e 9 3 = 0) (h3 : getBits e 5 2 = 0) (p : PointsOn e)
    (h4 : n ≠ 3) (h5 : bit e 7 = false) : ¬ Malformed e va n := by
  simp [Malformed, *]

theorem leaf_sound {e va k : Nat} (h1 : getBits e 52 12 = 0) (h2 : getBits e 9 3 = 0) (h3 : getBits e 5 2 = 0) (r : bit e 1 = true)
    (h : getBits e 12 40 * 4096 = 65536 * k + 4096 * getBits va 12 4) : ¬ Malformed e va 3 := by
  have p : ¬ PointsOn e := by simp [PointsOn, r]
  simp only [Malformed, h1, h2, h3, p, r, h]
  simp

theorem paged_facts (e : Nat) (he : e = 0x50009F ∨ e = 0x60009F ∨ e = 0) :
    let s := paged e
    s.place 0x100000 = .media 0x100000 ∧ s.place 0x200008 = .media 0x200008 ∧ s.place 0x300000 = .media 0x300000 ∧
    s.place 0x400000 = .media 0x400000 ∧ s.homeBytes 0x100000 8 = 0x200001 ∧ s.homeBytes 0x200008 8 = 0x300001 ∧
    s.homeBytes 0x300000 8 = 0x400001 ∧ s.homeBytes 0x400000 8 = e ∧ s.homePoison 0x100000 = false ∧ s.homePoison 0x200008 = false ∧
    s.homePoison 0x300000 = false ∧ s.homePoison 0x400000 = false ∧ s.tlbHit s.core.sys.ctxid.toNat 0x40000000 = none ∧
    s.core.sys.ptroot.toNat = 0x100000 := by
  rcases he with rfl | rfl | rfl <;> decide +kernel

theorem paged_table (e : Nat) (he : e = 0x50009F ∨ e = 0x60009F ∨ e = 0) :
    (paged e).TableAt 0x40000000 (paged e).core.sys.ptroot.toNat 3 0x400000 := by
  obtain ⟨p1, p2, p3, -, b1, b2, b3, -, q1, q2, q3, -, -, r⟩ := paged_facts e he
  have s1 : ¬ Malformed 0x200001 0x40000000 0 := pointer_sound (by decide) (by decide) (by decide) (by simp [PointsOn]; decide) (by decide) (by decide)
  have s2 : ¬ Malformed 0x300001 0x40000000 1 := pointer_sound (by decide) (by decide) (by decide) (by simp [PointsOn]; decide) (by decide) (by decide)
  have s3 : ¬ Malformed 0x400001 0x40000000 2 := pointer_sound (by decide) (by decide) (by decide) (by simp [PointsOn]; decide) (by decide) (by decide)
  refine ⟨0x300000, 0x300000, ⟨0x200000, 0x200008, ⟨0x100000, 0x100000, r.symm, p1, q1, ?_, ?_, ?_⟩, p2, q2, ?_, ?_, ?_⟩, p3, q3, ?_, ?_, ?_⟩
  all_goals first
    | rw [b1]; first | exact s1 | decide | (simp only [PointsOn]; decide)
    | rw [b2]; first | exact s2 | decide | (simp only [PointsOn]; decide)
    | rw [b3]; first | exact s3 | decide | (simp only [PointsOn]; decide)

/-- The leaf of a walk: sound, malformed by its alignment, and not valid. -/
theorem witness_TranslationResults_leaf :
    (bit 0x50009F 0 = true ∧ ¬ Malformed 0x50009F 0x40000000 3 ∧ ¬ PointsOn 0x50009F ∧ bit 0x50009F 7 = true) ∧
    (bit 0x50109F 0 = true ∧ Malformed 0x50109F 0x40000000 3) ∧ bit 0 0 = false := by
  refine ⟨⟨by decide, leaf_sound (k := 0x50) (by decide) (by decide) (by decide) (by decide) (by decide), ?_, by decide⟩, ⟨by decide, ?_⟩, by decide⟩
  · simp only [PointsOn]; decide
  · refine .inr (.inr (.inr (.inr ⟨by simp only [PointsOn]; decide, .inr (.inr (.inr ⟨by decide, .inr fun k h => ?_⟩))⟩)))
    have h' : (0x501000 : Nat) = 65536 * k + 0 := h
    omega

theorem witness_TranslationResults :
    let alike := paged 0x50009F
    let bad := { (paged 0x50009F) with store := { (paged 0x50009F).store with poison := [0x20000] } }
    let far := { base with store := { base.store with media := base.store.media.writeN 0x100000 8 (0xFFC000000 + 1), l2 := [] } }
    (∀ j : Fin 16, alike.place (0x400000 + 8 * j.val) = .media (0x400000 + 8 * j.val) ∧
      alike.homeBytes (0x400000 + 8 * j.val) 8 + 4096 * getBits 0x40000000 12 4 = 0x50009F + 4096 * j.val) ∧
    (alike.translate 0x40000123 .read).2 = .ok 0x500123 false ∧ bad.homePoison 0x400000 = true ∧
    (paged 0).homeBytes 0x400000 8 = 0 ∧ (far.translate 0x40000000 .read).2 = .bad 6 0xFFC000008 ∧ far.place 0xFFC000008 = .none ∧
    ((withRecords fun m => m).tlbHit 5 0x4000).isSome = true ∧ (2 ^ 56 : Nat) ≤ 2 ^ 56 ∧ (0x40000000 : Nat) < 2 ^ 56 ∧
    ¬ (spw ≤ 0x40000000 ∧ 0x40000000 < spw + 2 ^ 20) ∧ 2 ^ 39 ≤ (2 ^ 40 : Nat) ∧ (2 ^ 40 : Nat) < 2 ^ 48 ∧
    (0xFFC000000 : Nat) ≤ 0xFFC000000 % 2 ^ 36 ∧ (atLevel 0 base).th.level.toNat = 0 := by decide +kernel

theorem witness_TasksAndCommands_records :
    let s := withRecords (fun m => m)
    let ran := withRecords (fun m => m.writeN 0x5014 1 2)
    s.th.vp = none ∧ s.core.task = some 9 ∧ (s.taskById 9).isSome = true ∧ traps (s.reachRecord 0x5008) = true ∧
    passes (s.reachRecord 0x5000) (fun s1 pa => pa == 0x5000 && !s1.matBusy && !s1.homePoison pa && (s1.poisonIn pa 256).isNone) = true ∧
    passes ({ s with store := { s.store with poison := [0x280] } }.reachRecord 0x5000) (fun s1 pa => s1.homePoison pa) = true ∧
    passes (s.reachRecord 0x5000) (fun s1 pa =>
      (((s1.release 3).homeReady pa).homeReady (pa + 128)).recByte 0x5000 0x14 == 0) = true ∧
    passes (ran.reachRecord 0x5000) (fun s1 pa =>
      (((s1.release 3).homeReady pa).homeReady (pa + 128)).recByte 0x5000 0x14 == 2) = true := by decide +kernel

/-- Frames with a convoy, with virtual processors, with entries to reissue, with a routine. -/
theorem witness_TrapReturn_frames :
    let convoy := framed [(0, 2 ^ 32 + 3 * 2 ^ 33), (1, 0x1010), (5, 0x1000)] 0
    let vp := framed [(0, 2 ^ 40), (1, 0x1000), (288, 2), (289, 0x1008), (290, 0x1000), (291, 0x1005)] 0
    let load := framed [(0, 2 ^ 24), (1, 0x1000), (96, 0x5000), (97, 0), (98, 1 + 2 ^ 16)] ((encode (.ld .i64 3 1 0)).getD 0)
    let slot := framed [(0, 2 ^ 24), (1, 0x1000), (96, 0x5000), (97, 2 + 2 ^ 20 + 2 ^ 25), (98, 4 * 2 ^ 16)] 0
    let rtn := framed [(1, 0x5000), (64, 2 ^ 63 + 3 + 2 ^ 32), (65, 9)] ((encode (.rtn 3 5 6 7 1)).getD 0)
    (frameOf convoy).getD 0 0 / 2 ^ 33 % 8 = 3 ∧ (frameOf vp).getD 288 0 = 2 ∧ (vp.readWords 0x8910 2).2 = ([0x1000, 0x1005], none) ∧
    8 * 2 ≤ 16 * vp.vlen ∧ vp.frameOk 0x8000 (0x910 + 8 * 2) = true ∧ (frameOf load).getD 96 0 = 0x5000 ∧
    ((load.fetchAt 0x5000).2.toOption.map (fun p => p.1)) = some (.ld .i64 3 1 0) ∧ (frameOf slot).getD 97 0 / 2 ^ 20 % 4 = 1 ∧
    passes (rtn.fetchParcel 0x5000) (fun s3 p => decodeInstr p == .rtn 3 5 6 7 1 && (s3.core.bindingOf 5 3).isNone) = true ∧
    (let bound := fun ws => { rtn with core := { rtn.core with binds := [{ ctx := 5, slot := 3, image := 0x6000, words := ws }] } }
     ((bound none).core.bindingOf 5 3).map (fun e => e.words) = some none ∧
     ((bound (some [])).core.bindingOf 5 3).map (fun e => e.words) = some (some []) ∧
     ((bound (some [0])).core.bindingOf 5 3).map (fun e => e.words) = some (some [0])) ∧
    traps (({ rtn with th := { rtn.th with pc := 0 } } : State).fetchParcel 0x40000000) = true := by decide +kernel

/-- At level 2: the frame at `MCFRAME`, a held entry of the thread, a thread to be stopped again. -/
theorem witness_TrapReturn_machine :
    let s := atLevel 2 base
    let held := { s with core := { s.core with mat := { s.core.mat with
      queue := [entry], held := some { cause := 1, addr := 0, untaken := false, checked := true } } } }
    let mfault := { (framed [(0, 16)] 0) with core := { base.core with mat := { base.core.mat with
      queue := [entry], held := some { cause := 1, addr := 0, untaken := false, checked := false } } } }
    s.th.level = 2 ∧ s.core.sys.mcframe.toNat = 0x9000 ∧ s.frameOk 0x9000 0x910 = true ∧ (s.readWords 0x9000 290).2.2 = none ∧
    ((s.readWords 0x9000 290).2.1.all fun w => w == 0) = true ∧ s.th.mcStop = none ∧ held.core.mat.queue = [entry] ∧
    held.core.mat.held.map (fun h => h.checked) = some true ∧ entry.slot = held.slot ∧ (frameOf mfault).getD 0 0 % 256 = 16 ∧
    mfault.core.mat.held.map (fun h => h.untaken) = some false ∧
    ({ s.th with mcStop := some (some true) } : Thread).mcStop = some (some true) ∧ (2 : Nat) < 4 ∧ (s.threadAt 0 2).wait = .none ∧
    (s.threadAt 0 2).mcStop = none ∧ s.frameOk 0xFFF8000000000 0x910 = false ∧
    (({ s with store := { s.store with poison := [0x9000 / 32] } } : State).readWords 0x9000 290).2.2 = some 0x9000 := by decide +kernel

/-- `withRecords` with a stored byte that cannot go home. -/
def cutRecords : State :=
  { (withRecords (fun m => m)) with
    core := { (withRecords (fun m => m)).core with l1 := cutOffState.core.l1 }
    fab := { (withRecords (fun m => m)).fab with linksDown := cutOffState.fab.linksDown } }

theorem witness_TasksAndCommands_cut :
    passes (cutRecords.reachRecord 0x5000) (fun s1 pa => s1.releaseCut 3 && !s1.homePoison pa && (s1.poisonIn pa 256).isNone) = true ∧
    passes ((withRecords (fun m => m)).reachRecord 0x5000) (fun s1 _ => !s1.releaseCut 3) = true ∧
    (let s := { cutRecords with core := { cutRecords.core with
      spad := base.core.spad.writeN 0 64 (packB 8 [0x4000, 0x6000, 2 + 64 * 2 ^ 32, 64 + 64 * 2 ^ 32, 0, 0, 0, 1]) } }
     passes (s.reach 0x00FFFF0000000000 64 64 .read) (fun s1 tg => passes (s1.readTable tg 0x00FFFF0000000000) (fun s2 ws =>
      passes (s2.commandCounter 0x5200) (fun s3 _ => let blk := packB 8 (ws.map BitVec.toNat)
        !blkBad .cpy blk s3.core.spadSize && (s3.engineFor .cpy 0).isSome && s3.releaseCut (blkScope blk)))) = true) := by decide +kernel

theorem witness_TasksAndCommands_spawn :
    let s := withRecords (fun m => m)
    let ran := withRecords (fun m => m.writeN 0x5114 1 2)
    let bad := withRecords (fun m => m.writeN 0x6016 1 1)
    (0x6080 : Nat) % 256 ≠ 0 ∧ (0x6000 : Nat) % 256 = 0 ∧
    passes (s.loadWords 0x6000 32) (fun s1 ws => passes (s1.reachRecord 0x5100) (fun s2 pa =>
      !s2.matBusy && (((s2.release 3).homeReady pa).homeRead (pa + 0x14) 1).recByte pa 0x14 == 0 && getB (packB 8 (ws.map BitVec.toNat)) 0x16 1 == 0)) = true ∧
    passes (ran.loadWords 0x6000 32) (fun s1 _ => passes (s1.reachRecord 0x5100) (fun s2 pa =>
      (((s2.release 3).homeReady pa).homeRead (pa + 0x14) 1).recByte pa 0x14 == 2)) = true ∧
    passes (bad.loadWords 0x6000 32) (fun _ ws => getB (packB 8 (ws.map BitVec.toNat)) 0x16 1 == 1) = true := by decide +kernel

theorem witness_TasksAndCommands_counters :
    let s := fun v e => withRecords (fun m => (m.writeN 0x5200 7 v).writeN 0x5208 8 e)
    let armed := { (s 5 0) with store := { (s 5 0).store with marks := [(0x5200, 0x5000)] } }
    let look_ := fun (s : State) (p : State → Bool) => passes (s.reachCounter 0x5200) (fun s1 _ =>
      passes (s1.reachRecord 0x5000) (fun s2 rpa => rpa == 0x5000 && !s2.matBusy && p (((s2.release 3).homeReady 0x5200).homeRead 0x5200 24)))
    look_ (s 5 (2 ^ 63)) (fun v => bit (v.homeBytes 0x5208 8) 63) = true ∧ look_ (s 5 0) (fun v => !bit (v.homeBytes 0x5208 8) 63) = true ∧
    look_ armed (fun v => (v.armed 0x5200).isSome) = true ∧ look_ (s 5 0) (fun v => (v.armed 0x5200).isNone && v.homeBytes 0x5200 7 != 0) = true ∧
    look_ (s 0 0) (fun v => (v.armed 0x5200).isNone && v.homeBytes 0x5200 7 == 0) = true := by decide +kernel

theorem witness_TasksAndCommands_engines :
    let s := fun blk => { (withRecords (fun m => m)) with core := { (withRecords (fun m => m)).core with spad := base.core.spad.writeN 0 64 blk } }
    let blk := packB 8 [0x4000, 0x6000, 2 + 64 * 2 ^ 32, 64 + 64 * 2 ^ 32, 0, 0, 0, 1]
    let gath := packB 8 [0x4000, 0x6000, 0x7000, 2 + 8 * 2 ^ 32, 0, 0, 0, 1]
    let c : ECmd := { id := 9, kind := .gath, die := 0, eng := 0, blk := gath, counter := 0x5200, ctx := 5, root := 0, level := 1, core := 0, sent := 0, counted := 0 }
    let full := fun (t : State) => { t with fab := { t.fab with cmds := List.replicate 64 c } }
    let asked := fun (t : State) (p : State → Nat → Bool) => passes (t.reach 0x00FFFF0000000000 64 64 .read) (fun s1 tg =>
      passes (s1.readTable tg 0x00FFFF0000000000) (fun s2 ws => passes (s2.commandCounter 0x5200) (fun s3 _ =>
        !s3.matBusy && p s3 (packB 8 (ws.map BitVec.toNat)))))
    traps (base.reach 0x40000000 64 64 .read) = true ∧
    asked (s 0) (fun t x => blkBad .cpy x t.core.spadSize) = true ∧
    asked (s blk) (fun t x => !blkBad .cpy x t.core.spadSize && (t.engineFor .cpy (dieOf t.coreId)).isSome) = true ∧
    asked (full (s gath)) (fun t x => !blkBad .gath x t.core.spadSize && (t.engineFor .gath (dieOf t.coreId)).isNone) = true := by
  decide +kernel

/-! The matrix queue, steps of the environment, the machine. -/

/-- The array in a mode: tile 1 of 4 rows and 4 columns based at v48, weights of `.bf16` loaded, register 6 the stride 512, 5 a
drain's rows 0 to 3, 9 the core east of core 0. -/
def tiled (m : MMode) (shape : Bool) : State :=
  put { base with core := { base.core with mat := { base.core.mat with
    mode := m, wlive := true, latTy := .bf16
    tshape := if shape then wr base.core.mat.tshape 1 { owner := 0, rows := 4, cols := 4, base := 48 } else base.core.mat.tshape } } }
    [(6, 512), (5, 0x400), (4, 0x00040430), (3, 0x00040000), (7, 0x8000), (2, 0x00010005), (9, BitVec.ofNat 64 (coreIdOf 6))]

/-- What the posting checks read. -/
def ctx (s : State) : PostCtx := { v := s.core.postView, n := s.lanes s.coreId, core := s.coreId, slot := s.slot, th := s.th }

/-- Every posting check passes somewhere. -/
theorem witness_MatrixPosting_ok :
    let ws := tiled .ws true
    let rs := tiled .rs true
    let v := tiled .v true
    let bf := { mf with t := 1, s := 6, ty := .bf16, a := 8, b := 16, c := 20 }
    mmodeOk (ctx ws) { mf with fx := 2 } = true ∧ mshapeOk (ctx ws) { mf with t := 1, s := 4 } = true ∧ mzeroOk (ctx ws) { mf with t := 1 } = true ∧
    mzeroOk (ctx rs) { mf with fx := 1 } = true ∧ mldbOk (ctx ws) { bf with t := 0 } = true ∧ mmulOk (ctx ws) { bf with b := 0, c := 0 } = true ∧
    mopaOk (ctx rs) { bf with t := 0, kr := 1, kc := 1 } = true ∧ mgmulOk (ctx ws) bf = true ∧ mdrainOk (ctx ws) { bf with s := 5 } = true ∧
    mdrainxOk (ctx ws) { bf with s := 5 } = true ∧ mrecvOk (ctx v) { mf with t := 1, s := 3 } = true ∧
    mchainOk (ctx ws) { mf with s := 9 } .ws false = true ∧ mchainOk (ctx v) mf .v true = false ∧
    munchainOk (ctx ws) = true ∧ mmulxOk (ctx ws) bf = true ∧ mrinvOk (ctx v) { mf with s := 9 } = true ∧
    mrpfOk (ctx v) { mf with s := 2 } = true ∧ mrprobeOk (ctx v) { mf with s := 9 } = true := by decide +kernel

theorem witness_MatrixPosting_refused :
    let ws := tiled .ws false
    let v := tiled .v true
    let bf := { mf with t := 1, s := 6, ty := .bf16, a := 8, b := 16, c := 20 }
    let far := { (tiled .v true) with coreId := 6 }
    ws.th.vp = none ∧ ws.core.mat.queue.length < 32 ∧ ws.matBusy = false ∧ 32 ≤ (busy 32).core.mat.queue.length ∧
    (busy 31).core.mat.queue.length < 32 ∧ (busy 31).matBusy = true ∧ (busy 31).core.chainPending = false ∧
    mmodeOk (ctx ws) { mf with fx := 4 } = false ∧ mshapeOk (ctx ws) { mf with t := 1, s := 0 } = false ∧
    mzeroOk (ctx ws) { mf with t := 1 } = false ∧ mldbOk (ctx v) bf = false ∧ mmulOk (ctx ws) bf = false ∧ mopaOk (ctx ws) bf = false ∧
    mgmulOk (ctx ws) bf = false ∧ mdrainOk (ctx ws) bf = false ∧ mdrainxOk (ctx ws) bf = false ∧ mrecvOk (ctx ws) bf = false ∧
    mchainOk (ctx v) mf .ws false = false ∧ mchainOk (ctx far) { mf with s := 0 } .v true = true ∧
    munchainOk { (ctx ws) with v := { (ctx ws).v with chain := 4 } } = false ∧ mmulxOk (ctx ws) bf = false ∧
    mrinvOk (ctx v) { mf with s := 7 } = false ∧ mrpfOk (ctx v) { mf with s := 0 } = false ∧ mrprobeOk (ctx v) { mf with s := 7 } = false := by
  decide +kernel

/-- The arguments of the next step of the environment. -/
def withEv (e : Ev) (s : State) : State := { s with ev := e }

/-- An entry of the matrix queue. -/
def queued (mop fx : Nat) (s : State) : State :=
  { s with core := { s.core with mat := { s.core.mat with queue := [{ entry with mop, f := { mf with fx := BitVec.ofNat 5 fx } }] } } }

/-- What the conditions of a posting say, where it passes and where it does not. -/
theorem witness_MatrixPosting_limits :
    let ws := tiled .ws true
    let v := ws.core.mat.queue.foldl MView.after ws.core.mat.view
    let t := rd v.shape 1
    let w := (ws.getS 6).toNat
    let drain := (ws.getS 5).toNat
    let shape := (ws.getS 4).toNat
    v.mode = .ws ∧ v.chain = 0 ∧ v.wlive = true ∧ v.latTy = .bf16 ∧ t.rows = 4 ∧ t.cols = 4 ∧ t.base = 48 ∧ t.owner = ws.slot ∧
    ws.lanes ws.coreId = 64 ∧ ws.th.vec.vlen = 512 ∧ w = 512 ∧ w % 8 = 0 ∧ 8 ≤ w ∧ w ≤ 1024 ∧ 512 * 8 / 16 = 256 ∧ (256 * 16 + 7) / 8 ≤ w ∧
    (8 * 512 + t.rows * w ≤ 64 * 512) ∧ ¬ (48 * 512 < 8 * 512 + t.rows * w) ∧ (20 * 512 + 4 * t.rows ≤ 64 * 512) ∧
    drain / 2 ^ 16 = 0 ∧ drain % 256 = 0 ∧ drain / 256 % 256 = 4 ∧
    shape / 2 ^ 26 = 0 ∧ getBits shape 6 2 = 0 ∧ getBits shape 16 8 = 4 ∧ getBits shape 8 8 = 4 ∧ shape % 64 = 48 ∧ rd v.recv 1 = false ∧
    (tiled .ws false).core.mat.queue = [] ∧ (rd ((tiled .ws false).core.mat.view).shape 1).rows = 0 ∧
    (let d := { (busy 1) with th := { base.th with ending := true } }
     let h := { d with core := { d.core with mat := { d.core.mat with held := some { cause := 1, addr := 0, untaken := true, checked := false } } } }
     h.th.ending = true ∧ h.core.mat.held.isSome = true ∧ h.th.convoy = none) ∧
    (let f := queued 10 0 base
     f.matBusy = true ∧ ∃ e ∈ f.core.mat.queue, e.mop = 10 ∧ e.f.fx.getLsbD 1 = false) := by decide +kernel

/-- A row under way from core 0 to core 7. -/
def row (id : Nat) : MRow :=
  { id, src := 0, dst := 7, tile := 0, cols := 4, row := 1, vals := [(0, 5)], bytes := 16, counter := 0x5200, ctx := 5 }

theorem witness_ThreadAndMatrixSteps :
    let w := fun (x : Wait) => { base with th := { base.th with wait := x } }
    let due := { base with time := 9000, core := { base.core with sys := { base.core.sys with ttimer := 0x8000000000000001 } } }
    let irq := { base with th := { base.th with imask := false }, core := { base.core with sys := { base.core.sys with ipend := 1 } } }
    let up := { base with boot := { base.boot with ok := true } }
    let held := { base with core := { base.core with mat := { base.core.mat with held := some { cause := 1, addr := 0, untaken := true, checked := false } } } }
    let rows := withEv { base.ev with id := 3 } { base with fab := { base.fab with rows := [row 3, row 4] } }
    let pend := withEv { base.ev with id := 3 } { base with core := { base.core with rpend := [3], rcache := [(3, 77)] } }
    ((w (.pause 0)).threadAt base.ev.core base.ev.slot.val).wait = .pause 0 ∧ 0 ≤ base.cycle ∧ base.cycle < 5 ∧
    ((w (.pause 5)).threadAt 0 0).wait = .pause 5 ∧ due.timerDue 0 = true ∧ (withEv { base.ev with v := 1 } base).ev.v.getLsbD 0 = true ∧
    base.ev.core < 1536 ∧ base.ev.v.getLsbD 0 = false ∧ base.enabled 7 = true ∧ base.boot.ok = false ∧ base.boot.stopped = false ∧
    base.boot.mode ≠ 3 ∧ up.ev.core = up.coreId ∧ (up.teamSlots 0).head? = some up.slot.val ∧ up.th.level ≠ 2 ∧
    up.frameOk up.core.sys.mcframe.toNat 0x910 = true ∧ ({ base with harvest := [(7, false, false)] } : State).enabled 7 = false ∧ (∀ i, i < 4 → (base.threadAt 7 i).occ = false) ∧
    irq.canInterrupt 0 = true ∧ irq.teamSlots 0 = [irq.slot.val] ∧ irq.core.sys.ipend.getLsbD 1 = false ∧ irq.th.intrap = false ∧
    irq.th.vp = none ∧ irq.frameOk irq.th.tframe.toNat 0x910 = true ∧ irq.ev.core = irq.coreId ∧ base.core.mat.held = none ∧
    (queued 1 1 base).core.mat.queue.map (fun e => (e.mop, e.f.fx.getLsbD 0, e.slot == base.slot)) = [(1, true, true)] ∧
    (queued 2 1 base).core.mat.queue.map (fun e => (e.mop, e.f.fx.getLsbD 0)) = [(2, true)] ∧
    (queued 12 0 (w .mwait)).th.wait = .mwait ∧ (w .mwait).th.convoy = none ∧ (held.coreAt 0).mat.held.isSome = true ∧
    (base.coreAt 0).mat.queue = [] ∧ rows.fab.rows.find? (fun x => x.id == rows.ev.id) = some (row 3) ∧
    rows.fab.rows.find? (fun x => clusterOf x.src == clusterOf (row 3).src && clusterOf x.dst == clusterOf (row 3).dst) = some (row 3) ∧ 3 ∈ (pend.coreAt 0).rpend ∧
    look pend.core.rcache pend.ev.id = some 77 := by decide +kernel

/-- `base` with the array as given, an instruction at the head of its queue. -/
def heading (m : Mat) (e : MEntry) : State := { base with core := { base.core with mat := { m with queue := [e] } } }

/-- Tile 1 of 4 rows and 4 columns at v48, in a mode. -/
def tileIn (mode : MMode) : Mat := { (tiled mode true).core.mat with queue := [] }

theorem holds (q : TShape) (s : State) (h : q.base.val * 512 + 4 * q.rows * q.cols ≤ 64 * 512)
    (hv : (s.threadAt s.coreId q.owner.val).vec.vlen = 512) : s.HoldsTile s.coreId q := by
  simp only [State.HoldsTile, hv]
  exact ⟨by decide, by decide, h⟩

theorem witness_MatrixArrayResults_tile :
    let s := heading (tileIn .ws) { entry with mop := 4, f := { mf with t := 1, a := 8, ty := .bf16 }, sv := 512 }
    s.HoldsTile s.coreId (rd s.core.mat.tshape 1) ∧ s.HoldsTile s.coreId { owner := 0, rows := 4, cols := 4, base := 48 } := by
  refine ⟨holds _ _ (by decide +kernel) (by decide +kernel), holds _ _ (by decide +kernel) (by decide +kernel)⟩

theorem witness_MatrixArrayResults :
    let e := fun mop fx (sv : Word) =>
      ({ entry with mop, f := { mf with fx := BitVec.ofNat 5 fx, t := 1, a := 8, b := 16, c := 20, ty := .bf16 }, sv, vl := 2 } : MEntry)
    let s := heading (tileIn .ws) (e 4 0 512)
    let q := rd s.core.mat.tshape 1
    let rs := { (tileIn .rs) with alive := true }
    let gone := { (tileIn .ws) with chain := 7 }
    let tagged := { s with th := { s.th with vec := { s.th.vec with v := s.th.vec.v.map (fun (r : VRegister) => { r with tag := true }) } } }
    s.ev.core = s.coreId ∧ s.core.mat.held = none ∧ s.core.mat.queue = [e 4 0 512] ∧ (e 4 0 512).slot = s.slot ∧
    modeOfCode ((e 0 1 0).f.fx.toNat % 4) ≠ .v ∧ (heading (tileIn .v) (e 0 1 0)).convoysBefore 0 false = false ∧ rs.mode = .rs ∧
    (e 0 4 0).f.fx.getLsbD 2 = true ∧ modeOfCode ((e 0 4 0).f.fx.toNat % 4) ≠ .rs ∧ (e 1 0 0).f.fx.getLsbD 0 = false ∧
    ({ (e 4 0 512) with chained := true }).chained = true ∧ gone.chain ≠ 2 ∧ gone.chain ≠ 3 ∧ (e 4 0 512).chained = false ∧
    32768 + 2048 ≤ s.core.spadSize ∧ s.core.spadSize ≤ 2 ^ 20 ∧ 256 * ETy.bf16.bits ≤ 8 * 512 ∧ s.nLanes = 64 ∧ matOn 0 0 0 0 = true ∧
    hitsTile 8 (q.rows * 512) s.th.vec.vlen q s.slot = false ∧ hitsTile 16 4 s.th.vec.vlen q s.slot = false ∧
    hitsTile 20 4 s.th.vec.vlen q s.slot = false ∧ tagged.th.tagged 8 2048 = true ∧ (∀ r : VReg, (rd tagged.th.vec.v r).tag = true) ∧
    0 < s.th.vec.vlen ∧ s.th.vec.vlen % 64 = 0 ∧ 20 * s.th.vec.vlen + 32 ≤ 64 * s.th.vec.vlen ∧
    overlaps 20 (spanOf 32 512) 8 (spanOf 16 512) = false ∧ overlaps 20 (spanOf 32 512) 48 (spanOf 64 512) = false := by decide +kernel

theorem witness_MatrixTransfers :
    let e := fun mop fx (sv sv1 : Word) =>
      ({ entry with mop, f := { mf with fx := BitVec.ofNat 5 fx, t := 1, a := 8, b := 16, c := 20, ty := .bf16 }, sv, sv1, vl := 2 } : MEntry)
    let s := heading (tileIn .ws) (e 8 0 0x400 0x5000)
    let offer := heading (tileIn .v) (e 10 2 9 0)
    let partner := { Core.reset with
      task := some 4, sys := { Core.reset.sys with ctxid := 5 }, mat := { Core.reset.mat with chain := 1, partner := coreIdOf 0 } }
    let pair := { (heading (tileIn .ws) (e 10 0 (BitVec.ofNat 64 (coreIdOf 6)) 0)) with others := [(6, partner)] }
    let led := { (tileIn .ws) with chain := 2, partner := coreIdOf 6 }
    let b : Bound := { cause := [0, 0, 0, 0], idx := [3, 3, 3, 3], recs := [(3, 0)] }
    let x := packB 8 [0x00FFFF0000000000, 0, 11 + 16 * 2 ^ 16 + 4 * 2 ^ 32, 5 + 7 * 2 ^ 16]
    let cached := { (heading (tileIn .v) (e 19 0 3 0)) with core := { (heading (tileIn .v) (e 19 0 3 0)).core with
      rcache := [(3, x)], sys := { base.core.sys with orcnt := 4 } } }
    s.ev.core = s.coreId ∧ s.core.mat.held = none ∧ s.core.mat.queue = [e 8 0 0x400 0x5000] ∧ (e 8 0 0x400 0x5000).slot = s.slot ∧
    s.core.mat.ctr = none ∧ ((s.release 3).drainCounter (e 8 0 0x400 0x5000)).2 = some 0x5000 ∧
    ((s.release 3).drainCounter (e 8 0 0x400 0x5000)).1.core.mat = s.core.mat ∧
    ((s.release 3).drainCounter (e 8 0 0x400 0x40000000)).2 = none ∧ (e 10 2 9 0).f.fx.getLsbD 1 = true ∧
    offer.convoysBefore offer.coreId true = false ∧ linearOf (coreIdOf 6) = some 6 ∧ linearOf 6 = none ∧
    (6 : Nat) ≠ pair.coreId ∧ (pair.coreAt 6).mat.chain = 1 ∧ (pair.coreAt 6).mat.partner = coreIdOf pair.coreId ∧ pair.enabled 6 = true ∧
    pair.lanes 6 = pair.lanes pair.coreId ∧ (pair.coreAt 6).task.isSome = true ∧ (∀ j : Fin 4, (pair.threadAt 6 j.val).occ = false) ∧
    (pair.coreAt 6).sys.ctxid = pair.core.sys.ctxid ∧ (s.coreAt 6).mat.chain ≠ 1 ∧ led.chain = 2 ∧ linearOf led.partner = some 6 ∧
    (let follower := { (heading led (e 11 0 0 0)) with others := [(6, { partner with mat := { partner.mat with chain := 4 } })] }
     (follower.coreAt 6).mat.chain = 4 ∧ linearOf (follower.coreAt 6).mat.partner = some follower.coreId ∧
     { (tileIn .follow) with chain := 5 }.chain = 5 ∧ ((heading led (e 11 0 0 0)).coreAt 6).mat.chain ≠ 4) ∧
    (tileIn .v).chain ≠ 2 ∧ (tileIn .v).chain ≠ 3 ∧ (tileIn .v).chain ≠ 4 ∧ (tileIn .v).chain ≠ 5 ∧
    (heading (tileIn .ws) (e 16 0 512 0)).core.mat.bound = none ∧
    (match State.bindRows (e 16 0 512 0) 4 (heading (tileIn .ws) (e 16 0 512 0)) 0 [] { cause := [], idx := [], recs := [] } with
      | (_, .ok c) => c.cause == [1, 1, 1, 1] | (_, .error _) => false) = true ∧
    (match State.loadRows (e 16 0 512 0) b [0, 1] s none [] .bf16 with | (u, .ok l) => l.length == 2 && u.core.mat == s.core.mat | (_, .error _) => false) =
      true ∧ (3 : Nat) < cached.core.sys.orcnt.toNat ∧ ¬ (4 : Nat) < cached.core.sys.orcnt.toNat ∧ look cached.core.rcache 3 = some x ∧
    ETy.ofCode (getBits x 128 6) = some .bf16 ∧ ETy.bf16.isMatIn = true ∧ getBits x 144 12 = 16 ∧ getBits x 160 8 = 4 ∧ getBits x 64 64 = 0 ∧
    getBits x 134 10 = 0 ∧ getBits x 156 4 = 0 ∧ getBits x 168 24 = 0 ∧ getBits x 224 288 = 0 ∧ getBits x 192 16 = 5 := by decide +kernel

/-- A row that core 7 admits. -/
theorem witness_MatrixTransfers_rows :
    let w : Recv := { sender := coreIdOf 0, cnt := 3, row0 := 0, seen := 0 }
    let c := { Core.reset with task := some 4, sys := { Core.reset.sys with ctxid := 5 }, mat := { Core.reset.mat with
      tshape := wr Core.reset.mat.tshape 0 { owner := 0, rows := 4, cols := 4, base := 48 }, recv := wr Core.reset.mat.recv 0 (some w) } }
    let s := withEv { base.ev with id := 3 } { base with others := [(7, c)], fab := { base.fab with rows := [row 3] } }
    s.fab.rows.find? (fun x => x.id == s.ev.id) = some (row 3) ∧
    s.fab.rows.find? (fun x => clusterOf x.src == clusterOf (row 3).src && clusterOf x.dst == clusterOf (row 3).dst) = some (row 3) ∧
    rd (s.coreAt 7).mat.recv 0 = some w ∧ s.enabled 7 = true ∧ (s.coreAt 7).task.isSome = true ∧ (s.coreAt 7).sys.ctxid.toNat = (row 3).ctx ∧
    linearOf w.sender = some (row 3).src ∧ (rd (s.coreAt 7).mat.tshape 0).rows ≠ 0 ∧ (rd (s.coreAt 7).mat.tshape 0).cols = (row 3).cols ∧
    w.row0 ≤ (row 3).row ∧ (row 3).row < w.row0 + w.cnt ∧ s.ev.flag = false ∧ ((row 3).vals.map (fun p => p.1)).Nodup ∧
    (row 3).row < (rd (s.coreAt 7).mat.tshape 0).rows ∧ (∀ p ∈ (row 3).vals, p.1 < (rd (s.coreAt 7).mat.tshape 0).cols) ∧
    linearOf { w with sender := 9 }.sender ≠ some (row 3).src := by decide +kernel

/-- The line of 0x4000 in L1, granted and past its lease. -/
def stale : State :=
  { withLine with time := 1000000, core := { withLine.core with l1 := withLine.core.l1.map (fun l => { l with excl := false, expiry := 0 }) } }

/-- `base` about to have a step of the environment at 0x4000 or 0x5000. -/
def evAt (pa : Nat) (s : State) : State := withEv { s.ev with pa, ty := .i64, op := .add } s

theorem witness_CacheAndLinkSteps :
    let s := evAt 0x5000 base
    let failed := fun n => { base with fab := { base.fab with linkFails := [((evLink base.ev).1, (evLink base.ev).2, n)] } }
    let remote : RdcLine := { die := 0, tag := 0x80, data := 0, poison := 0, grant := 0, expiry := 5 }
    let rdc := { (withEv { (evAt 0x4000 base).ev with flag := true } base) with time := 1000000, store := { base.store with rdc := [remote] } }
    let port := fun (b : BitVec 8) => { base with boot := { base.boot with ports := b } }
    (cutOffState.coreAt 0).line (2 ^ 29) = cutOffState.core.l1.head? ∧ cutOffState.cutOff 0 (homeDie (128 * linLine (2 ^ 29))) = true ∧
    (withLine.core.line 0x80).isSome = true ∧ withLine.cutOff 0 (homeDie (128 * linLine 0x80)) = false ∧ withLine.core.l1.length = 1 ∧
    base.boot.ok = false ∧ base.boot.stopped = false ∧ base.boot.mode ≠ 3 ∧ (port 0).boot.ports.getLsbD base.ev.port.val = false ∧
    s.place s.ev.pa = .media 0x5000 ∧ ¬ 0x5000 / 128 ∈ s.fab.drops ∧
    0x5000 / 128 ∈ ({ s with fab := { s.fab with drops := [160] } } : State).fab.drops ∧ ((withLine.coreAt 0).l1.map (fun l => l.excl)) = [true] ∧ s.enabled s.ev.core = true ∧
    s.ev.core = s.coreId ∧ s.ev.slot = s.slot ∧ s.th.occ = true ∧ s.core.ways ≠ 0 ∧ stale.ev.flag = false ∧
    ((evAt 0x4000 stale).core.line 0x80).map (fun l => (l.filled, l.excl, decide (l.expiry < stale.cycle))) = some (true, false, true) ∧
    rdc.ev.flag = true ∧ (rdc.store.rdcFind 0 (rdc.ev.pa / 128)).map (fun x => decide (x.expiry < rdc.cycle)) = some true ∧
    rd base.drowsyThresh base.ev.die ≠ 0 ∧ rd ({ base with drowsyThresh := Vector.replicate 8 0 } : State).drowsyThresh base.ev.die = 0 ∧
    ¬ evLink base.ev ∈ base.fab.linksDown ∧ (failed 2).linkCount (evLink base.ev) < 3 ∧ 3 ≤ (failed 3).linkCount (evLink base.ev) ∧
    (base.threadAt 0 1).occ = false ∧ (withEv { base.ev with link := 25 } base).ev.link = 25 ∧
    evLink { base.ev with link := 25 } = (17, 1) ∧ (port 1).boot.ports.getLsbD base.ev.port.val = true ∧
    0x5000 % (AmoTy.i64.ety.bits / 8) = 0 ∧ s.homePoison 0x5000 = false ∧ amoAccepts .add .i64 = true ∧ s.store.posted = [] ∧
    hostAtomicOk .add .i64 = true ∧ s.ev.pa < 2 ^ 39 := by decide +kernel

/-- Atomics from outside on a sector that no core holds, at a misaligned place and on a poisoned sector. -/
theorem witness_CacheAndLinkSteps_atomics :
    let s := evAt 0x5000 base
    let spoilt := { s with store := { s.store with poison := [0x5000 / 32] } }
    s.Settled (0x5000 / 128) ∧ (evAt 0x5004 base).place 0x5004 = .media 0x5004 ∧ (0x5004 : Nat) % 8 ≠ 0 ∧ spoilt.homePoison 0x5000 = true ∧
    s.isDeps 0x5000 = false ∧ s.armed 0x5000 = none ∧ (0 : Nat) < 256 ^ 8 ∧ amoAccepts .add .bf16 = true := by
  refine ⟨settled _ rfl rfl rfl _, ?_⟩
  decide +kernel

theorem witness_RegisterAndPowerSteps :
    let at_ := fun (r : SysReg) (v : Word) (s : State) => withEv { s.ev with reg := r, v } s
    let late := { base with time := 80000000000 }
    base.ev.core = base.coreId ∧ base.ev.slot = base.slot ∧ ownStep .tvec = false ∧ ownStep .lease = true ∧
    sysWriteLevel .tvec ≤ base.th.level.toNat ∧ ((at_ .tvec 0x4000 base).sysPut .tvec 0x4000).isSome = true ∧
    ((at_ .lease 0 base).sysPut .lease 0).isNone = true ∧ (atLevel 0 base).th.level.toNat < sysWriteLevel .tvec ∧ base.core.mat.queue = [] ∧
    ((busy 1).coreAt (busy 1).ev.core).mat.queue ≠ [] ∧ (1 : Nat) ≤ 255 ∧ ¬ 256 ≤ (255 : Nat) ∧
    base.boot.ok = false ∧ base.boot.stopped = false ∧ base.boot.mode ≠ 3 ∧ 80000000000 ≤ late.time ∧ base.time < 80000000000 ∧
    base.enabled 0 = true ∧ ((atLevel 2 base).threadAt 0 0).occ = true ∧ ((atLevel 2 base).threadAt 0 0).level = 2 := by decide +kernel

/-- What a start finds: a module as shipped in which all is well. -/
def wellFacts : BootFacts := base.boot.facts

theorem witness_RegisterAndPowerSteps_start :
    let f := wellFacts
    let broken := { f with stackFails := [0] }
    let all := { f with dieFails := [0, 1, 2, 3, 4, 5, 6, 7] }
    f.signature = true ∧ ({ f with signature := false }).signature = false ∧ f.dieFails = [] ∧ f.stackFails = [] ∧ f.linksTrain = true ∧
    broken.stackFails ≠ [] ∧ ({ f with linksTrain := false }).linksTrain = false ∧ (2 : Nat) < 3 ∧ (3 : Nat) ≤ 3 ∧ shippedFacts f = true ∧
    ¬ ((1 : Fin 8) ∈ broken.dieFails ∨ 1 ∈ broken.stackFails) ∧ (∀ c : Fin 8, c < 1 → c ∈ broken.dieFails ∨ c ∈ broken.stackFails) ∧
    (∀ c : Fin 8, c ∈ all.dieFails ∨ c ∈ all.stackFails) := by decide +kernel

/-- A message of a queue instruction. -/
def msg (id : Nat) (op : QOp) (place : QPlace) (path : List Nat) (mate : Nat) : QMsg :=
  { id, op, core := 0, slot := 0, hdr := 0x5000, lin := 0x5000, e16 := false, lo := 7, hi := 0, pairable := true, win := 0, router := 0, path,
    at_ := 0, place, mate }

/-- `base` with messages and a step about message 1. -/
def withMsgs (ms : List QMsg) : State := withEv { base.ev with id := 1 } { base with fab := { base.fab with msgs := ms } }

/-- A context table whose entry 5 is usable (R338), with a fault queue or none, and tasks; the step is about task 9 on die 0. -/
def lifted (fq : Word) (ts : List LTask) : State :=
  let m := ((((base.store.media.writeN 0xA280 16 (1 + 2 ^ 64 * base.core.sys.ptroot.toNat)).writeN 0xA290 8 1024).writeN 0xA2B8 4 1).writeN 0xA2C8 8 1).writeN 0xA2C0 8 fq.toNat
  withEv { base.ev with id := 9 } { base with
    ctxtab := 0xA000, core := { base.core with task := none }, fab := { base.fab with tasks := ts }, store := { base.store with media := m } }

theorem witness_QueueLiftAndEngineSteps_messages :
    let first := fun (s : State) => (s.msgById s.ev.id).map (fun m => (m.place, m.path, decide (m.at_ ≤ s.time)))
    (let alone := withMsgs [msg 1 .push .moving [4, 12] 0]
     let behind := withMsgs [msg 1 .push .moving [4, 12] 0, { msg 2 .push .moving [4] 0 with router := 4 }]
     let m := msg 1 .push .moving [4, 12] 0
     (alone.fab.msgs.all fun x => !alone.meetAt m x || !before x.turn m.turn) = true ∧
     (behind.fab.msgs.any fun x => behind.meetAt m x && before x.turn m.turn) = true) ∧
    first (withMsgs [msg 1 .push .moving [4, 12] 0]) = some (.moving, [4, 12], true) ∧
    first (withMsgs [msg 1 .pop .moving [] 0]) = some (.moving, [], true) ∧ first (withMsgs [msg 1 .push .notice [] 0]) = some (.notice, [], true) ∧
    first (withMsgs [msg 1 .push (.held 0) [] 0]) = some (.held 0, [], true) ∧
    (let s := withMsgs [msg 1 .push .ack [] 2, msg 2 .pop .matched [] 3, msg 3 .push .matched [] 2]
     first s = some (.ack, [], true) ∧ (s.dropMsg 1).msgById 2 = some (msg 2 .pop .matched [] 3) ∧
     (s.dropMsg 1).msgById 3 = some (msg 3 .push .matched [] 2)) := by decide +kernel

theorem witness_QueueLiftAndEngineSteps_tasks :
    let s := fun ph => lifted 0 [task 9 ph 0]
    let k := task 9 .ready 0
    ((s .ready).ageTasks.pickTask (s .ready).ev.die.val).map (fun p => (p.1.id, p.1.image == none, p.1.ins == [], decide (p.1.team ≤ 4))) =
      some (9, true, true, true) ∧
    (((s .ready).ageTasks.segTasks 0).all (fun q =>
      ((s .ready).ageTasks.ctxUsable q.ctx).isSome && (s .ready).ageTasks.placeable q)) = true ∧ ((s .ready).ageTasks.segTasks 0).length = 1 ∧
    ((s .ready).bestCore k k.seg).isSome = true ∧ ((s .staging).taskById 9).map (fun q => q.image == none) = some true ∧
    (∃ q, (lifted 0 [{ task 9 .staging 0 with image := some 0x11000 }]).taskById 9 = some q ∧ q.image = some 0x11000) ∧
    (let e := lifted 0 [task 9 (.ending true) 0]
     { e with th := { e.th with ending := true } }.teamDone 0 = true) ∧
    ((lifted 0 [{ task 9 .outputs 0 with succs := some [] }]).taskById 9).map (fun q => (q.outs == [], q.succs == some [])) = some (true, true) := by
  decide +kernel

theorem witness_QueueLiftAndEngineSteps_faults :
    let f := task 9 .faulted 0
    let q := { (lifted 0x5000 [f]) with store := { (lifted 0x5000 [f]).store with
      media := (lifted 0x5000 [f]).store.media.writeN 0x5000 32 (8 * 2 ^ 192 + 8) } }
    (lifted 0 [f]).taskById 9 = some f ∧ f.tried ≤ base.time ∧ ((lifted 0 [f]).faultQueueAt f.ctx).2 = none ∧
    (let s := { (lifted 0 [task 9 .running 0]) with th := { base.th with intrap := true }, core := { base.core with task := some 9 } }
     (s.coreAt s.ev.core).task = some 9 ∧ s.taskById 9 = some (task 9 .running 0) ∧ (s.threadAt s.ev.core 0).occ = true ∧
     (s.threadAt s.ev.core 0).intrap = true) ∧ (q.faultQueueAt f.ctx).2 = some 0x5000 ∧ q.pushMayRun f = true ∧
    ({ q with fab := { q.fab with msgs := [msg 1 .push .moving [] 0] } } : State).pushMayRun f = false ∧
    ((q.faultQueueAt f.ctx).1.homePush 0x5000 (wd f.rec_) (wd (f.cause + f.leaving * 2 ^ 8 + f.extra))).2 = true := by decide +kernel

/-- A group of 4 by 3 points, at a position. -/
def grp (at_ : Nat) (n0 : Nat) : LGroup :=
  { id := 9, rec_ := 0, ctx := 0, tmpl := LTask.blank 0 0, inst := 0, n0, n1 := 3, n2 := 1, order := 2, w := 1, at_, issued := at_ }

/-- A command of the copy engine that delivers nothing yet. -/
def cmd (kind : EKind) : ECmd :=
  { id := 9, kind, die := 0, eng := 0, blk := packB 8 [0x4000, 0x6000, 2 + 4 * 2 ^ 32, 4 + 4 * 2 ^ 32, 2 * 2 ^ 32, 0, 0, 1], counter := 0x5200,
    ctx := 5, root := 0, level := 1, core := 0, sent := 0, counted := 0 }

theorem witness_QueueLiftAndEngineSteps_groups :
    let s := fun g => withEv { base.ev with id := 9 } { base with fab := { base.fab with groups := [g] } }
    let c := fun k => withEv { base.ev with id := 9, why := .link, parts := [[], []] } { base with fab := { base.fab with cmds := [cmd k] } }
    (s (grp 0 3)).fab.groups.find? (fun g => g.id == (s (grp 0 3)).ev.id) = some (grp 0 3) ∧
    (grp 16 3).plane * (grp 16 3).n2 ≤ (grp 16 3).at_ ∧
    (grp 15 3).at_ < (grp 15 3).plane * (grp 15 3).n2 ∧ (grp 15 3).point ((grp 15 3).at_ % (grp 15 3).plane) = none ∧
    (grp 0 3).point 0 = some (0, 0) ∧ (grp 0 3).inst = 0 ∧ (c .cpy).cmdById 9 = some (cmd .cpy) ∧ (c .cpy).ev.why = .link ∧
    ((c .cpy).ev.parts.length = collSize (cmd .coll).blk) ∧ (cmd .cpy).total ≤ (cmd .cpy).sent + 65536 := by decide +kernel

/-- A command on 8 bytes of the scratchpad. -/
def padCmd (kind : EKind) (blk : List Nat) : ECmd := { cmd kind with blk := packB 8 blk }

/-- Copies, gathers and collectives in the scratchpad; the ways on which an engine reaches memory. -/
theorem witness_QueueLiftAndEngineSteps_bytes :
    let s := base
    let cpy := padCmd .cpy [spw, spw + 64, 2 + 4 * 2 ^ 32, 4 + 4 * 2 ^ 32, 2 * 2 ^ 32, 0, 0, 1]
    let gath := padCmd .gath [spw, spw + 256, spw + 512, 1 + 8 * 2 ^ 32, 0, 0, 0, 1]
    let coll := padCmd .coll [spw, spw + 0x1000, 256, 0, 9 * 2 ^ 8 + 2 * 2 ^ 32, 0, 0, 1]
    let x := coll.blk
    (s.engineTurn cpy).2 = false ∧ (State.deliver cpy 8 s 0 8).2 = 8 ∧ (s.engineRead cpy spw 4).2 = some (0, false) ∧
    (s.engineWrite cpy (spw + 64) 4 0 false).2 = true ∧ (s.engineWrite cpy (spw + 64) 4 0 true).2 = false ∧
    (s.engineRead cpy 0x40000000 4).2 = none ∧
    (State.engineBytes gath 0 2 s (getB gath.blk 8 8) 8).2 = some (0, []) ∧
    ETy.ofCode (getB x 0x21 1) = some .f32 ∧ getB x 0x20 1 = 0 ∧ getB x 0x24 1 = 2 ∧ getB x 0x23 1 = 0 ∧ getB x 0x22 1 = 0 ∧
    getB x 0x10 8 = 256 ∧ 256 % (2 * 128) = 0 ∧ collSize x = 2 ∧
    (State.engineBytes coll spw (256 / 32 + 2) s.drainPosted spw 256).2 = some (0, []) ∧
    getB x 8 8 - 0x00FFFF0000000000 + 256 ≤ s.core.spadSize ∧ s.core.spad.wf = true ∧
    (let f := task 9 .faulted 0
     let q := withMsgs [{ msg 1 .push .moving [] 0 with hdr := 0x5000 }]
     base.pushMayRun f = true ∧ q.msgMayStep (msg 1 .push .moving [] 0) = true) := by decide +kernel

/-- A turn of the thread in focus at 0x1000, and at a place of the scratchpad that holds a `tdone`. -/
theorem witness_StepRunsDecoded :
    let s := { base with schedule := [.run 0 0] }
    let pad := { s with th := { s.th with pc := 0x00FFFF000001FFFC }, core := { s.core with spad := s.core.spad.writeN 0x1FFFC 4 0x1020 } }
    let lost := { s with th := { s.th with pc := 0x40000000 } }
    let next := ({ s with seq := s.seq + 1, schedule := [] } : State).settleDrops
    let at_ := fun (w : Wait) => { base with th := { base.th with wait := w } }
    s.fab.checks = [] ∧ s.fab.drops = [] ∧ s.core.issued ≠ s.cycle + 1 ∧ next.nextSlot s.coreId = some s.slot.val ∧ s.slotReady 0 0 = true ∧
    (s.focusTurn 0 0).stalls = false ∧ (at_ .tbar).nextSlot 0 = none ∧ (at_ .tbar).calledUp 0 0 = false ∧ ((at_ .tbar).threadAt 0 0).ending = false ∧
    ((at_ (.pause 5)).threadAt 0 0).wait = .pause 5 ∧ (at_ (.pause 5)).cycle ≤ 5 ∧ ((at_ .mwait).threadAt 0 0).wait = .mwait ∧
    s.schedule = [.run s.coreId s.slot.val] ∧ s.boot.mode ≠ 3 ∧ s.boot.stopped = false ∧ s.enabled s.coreId = true ∧ s.th.occ = true ∧
    s.th.ending = false ∧ s.th.wait = .none ∧ s.th.spin = 0 ∧ s.owesMfault = none ∧ s.th.issue = none ∧ s.th.replay = [] ∧
    s.th.rtn = none ∧ s.th.convoy = none ∧ s.th.vp = none ∧
    passes (s.fetchAt s.th.pc.toNat) (fun _ p => p.1 == .nop 0 0 0 && !writesMemory p.1) = true ∧ s.matReads = false ∧
    traps (lost.fetchAt lost.th.pc.toNat) = true ∧ instrLen (pad.core.spad.readN 0x1FFFC 4) = 4 ∧
    decodeInstr (pad.core.spad.readN 0x1FFFC 4) = .tdone ∧ 0x1FFFC + 4 ≤ pad.core.spadSize ∧ 0x1FFFC + 4 ≤ 2 ^ 20 := by decide +kernel

theorem witness_DecodeEncode :
    let slot : Instr := .vfma { vf with c := .v 4 false, b := .s 9, a := .v 1 true, d := 4, ty := .f32 }
    let micro : UF := { d := .h 2, a := .h 1, ldt := .i64 }
    (Instr.add 31 31 31).wf = true ∧ (encode (.add 31 31 31)).isSome = true ∧ slot.wf = true ∧ (encode slot).isSome = true ∧
    (Instr.convoyIssue [3] [0x2C1402018121F003]).wf = true ∧ (encode (.convoyIssue [3] [0x2C1402018121F003])).isSome = true ∧
    (decodeSlot 3 0x2C1402018121F003).isSome = true ∧ Instr.ufWf .uld micro = true ∧ (encodeMicro .uld micro).isSome = true := by
  decide +kernel

/-- `base` about to take the turn of its thread. -/
def turning : State := { base with schedule := [.run 0 0] }

theorem witness_MemoriesStayCanonical :
    turning.MemInv ∧ (nxt (step turning)).isSome = true ∧ State.reset.MemInv := by
  refine ⟨⟨?_, ?_, ?_, ?_, ?_, ?_, ?_, ?_, ?_, ?_, ?_⟩, ?_, ⟨?_, ?_, ?_, ?_, ?_, ?_, ?_, ?_, ?_, ?_, ?_⟩⟩ <;> decide +kernel

end Sys2Proof.Tests
end

section
/-! SUPPORT. The steps of a thread and of the matrix array outside every instruction stream (O52): a pause, the timer, a request, a core
out of service, an interrupt, the sequencer's simple entries, a row on its way, a prefetched record. The rules about the focus, the trap
frame and the Lift's reads come first in each part, and the statement is assembled from them at the end. -/

namespace Sys2Proof.Machine

/-! ## The thread in focus, and a core or a thread replaced -/

@[simp] theorem focus_self (s : State) : s.focus s.coreId s.slot = s := by simp [State.focus]

/-- An action on the thread in focus that leaves the focus where it is. -/
theorem onThread_self (s : State) (f : State → State) (hc : (f s).coreId = s.coreId) (hs : (f s).slot = s.slot) :
    s.onThread s.coreId s.slot f = f s := by
  rw [State.onThread, focus_self, ← hc, ← hs, focus_self]

@[simp] theorem coreAt_self (s : State) : s.coreAt s.coreId = s.core := by simp [State.coreAt]

@[simp] theorem threadAt_self (s : State) : s.threadAt s.coreId s.slot.val = s.th := by simp [State.threadAt]

@[simp] theorem setCore_th (s : State) (n : Nat) (c : Core) : (s.setCore n c).th = s.th := by unfold State.setCore; split <;> rfl
@[simp] theorem setCore_slot (s : State) (n : Nat) (c : Core) : (s.setCore n c).slot = s.slot := by unfold State.setCore; split <;> rfl
@[simp] theorem setCore_coreId (s : State) (n : Nat) (c : Core) : (s.setCore n c).coreId = s.coreId := by
  unfold State.setCore; split <;> rfl
@[simp] theorem setCore_store (s : State) (n : Nat) (c : Core) : (s.setCore n c).store = s.store := by unfold State.setCore; split <;> rfl
@[simp] theorem setCore_fab (s : State) (n : Nat) (c : Core) : (s.setCore n c).fab = s.fab := by unfold State.setCore; split <;> rfl
@[simp] theorem setCore_boot (s : State) (n : Nat) (c : Core) : (s.setCore n c).boot = s.boot := by unfold State.setCore; split <;> rfl

theorem setCore_self (s : State) (c : Core) : s.setCore s.coreId c = { s with core := c } := by simp [State.setCore]

/-- A core replaced by one with the same threads. -/
theorem threadAt_setCore (s : State) (n j : Nat) (c : Core) (h : c.parked = (s.coreAt n).parked) :
    (s.setCore n c).threadAt n j = s.threadAt n j := by
  simp only [State.threadAt, setCore_coreId, setCore_slot, setCore_th, coreAt_setCore_same, h]

@[simp] theorem threadAt_setThread_same (s : State) (n j : Nat) (t : Thread) : (s.setThread n j t).threadAt n j = t := by
  by_cases h : n = s.coreId ∧ j = s.slot.val
  · simp [State.setThread, State.threadAt, h]
  · simp [State.setThread, State.threadAt, h]

@[simp] theorem setThread_store (s : State) (n j : Nat) (t : Thread) : (s.setThread n j t).store = s.store := by
  unfold State.setThread; split <;> simp
@[simp] theorem setThread_fab (s : State) (n j : Nat) (t : Thread) : (s.setThread n j t).fab = s.fab := by
  unfold State.setThread; split <;> simp
@[simp] theorem setMat_fab (s : State) (n : Nat) (m : Mat) : (s.setMat n m).fab = s.fab := by simp [State.setMat]

/-! ## Pause, timer, request -/

theorem execPauseExpiry_of_pause (s : State) {u : Nat} (h : (s.threadAt s.ev.core s.ev.slot.val).wait = .pause u) :
    exec .pauseExpiry s = .next (if u < s.cycle then
      s.setThread s.ev.core s.ev.slot.val (s.threadAt s.ev.core s.ev.slot.val).wake else s) := by
  change execPauseExpiry s = _
  simp only [execPauseExpiry, h]

theorem wake_of_pause (t : Thread) {u : Nat} (h : t.wait = .pause u) : t.wake = { t with wait := .none, pc := t.pc + 4 } := by
  simp only [Thread.wake, h]

theorem pauseExpiry_over (s : State) {u : Nat} (h : (s.threadAt s.ev.core s.ev.slot.val).wait = .pause u) (hu : u < s.cycle) :
    Completes (exec .pauseExpiry s) (fun t =>
      t.threadAt s.ev.core s.ev.slot.val = { s.threadAt s.ev.core s.ev.slot.val with
        wait := .none, pc := (s.threadAt s.ev.core s.ev.slot.val).pc + 4 } ∧ t.store = s.store) := by
  rw [execPauseExpiry_of_pause s h, if_pos hu]
  exact completes_next ⟨by rw [threadAt_setThread_same, wake_of_pause _ h], setThread_store ..⟩

theorem pauseExpiry_early (s : State) {u : Nat} (h : (s.threadAt s.ev.core s.ev.slot.val).wait = .pause u) (hu : s.cycle ≤ u) :
    exec .pauseExpiry s = .next s := by
  rw [execPauseExpiry_of_pause s h, if_neg (Nat.not_lt.2 hu)]

/-- Setting pending bits of a core sets them and is no more than an access to memory may do. -/
theorem setIpend_sets (s : State) (n : Nat) (b : BitVec 3) :
    ((s.setIpend n b).coreAt n).sys.ipend = (s.coreAt n).sys.ipend ||| b ∧ MemOnly s (s.setIpend n b) :=
  ⟨by simp [State.setIpend], memOnly_setIpend s n b⟩

theorem timerCompare_due (s : State) (h : s.timerDue s.ev.core = true) :
    exec .timerCompare s = .next (s.setIpend s.ev.core 1) := by
  change execTimerCompare s = _
  rw [execTimerCompare, if_pos h]

theorem preemptRequest_set (s : State) (hv : s.ev.v.getLsbD 0 = true) (hn : s.ev.core < 1536) :
    exec .preemptRequest s = .next (s.setIpend s.ev.core 2) := by
  change execPreemptRequest s = _
  simp only [execPreemptRequest, hv, hn, decide_true, Bool.and_self, if_true]

theorem preemptRequest_discarded (s : State) (hv : s.ev.v.getLsbD 0 = false) : exec .preemptRequest s = .next s := by
  change execPreemptRequest s = _
  simp only [execPreemptRequest, hv, Bool.false_and, Bool.false_eq_true, if_false]

/-! ## What an access to memory leaves -/

namespace MemOnly

variable {s t : State} (h : MemOnly s t)
include h

theorem th : t.th = s.th := by rw [h.rest]
theorem slot : t.slot = s.slot := by rw [h.rest]
theorem coreId : t.coreId = s.coreId := by rw [h.rest]
theorem rows : t.fab.rows = s.fab.rows := by rw [h.rest]

/-- The same of the core in focus. -/
theorem core : t.core = { s.core with
    l1 := t.core.l1, pred := t.core.pred, sent := t.core.sent, tlb := t.core.tlb
    sys := { s.core.sys with ipend := t.core.sys.ipend } } := by
  have e := h.cores s.coreId
  have et : t.coreAt s.coreId = t.core := by rw [← h.coreId, coreAt_self]
  rwa [et, coreAt_self] at e

theorem coreSys : t.core.sys = { s.core.sys with ipend := t.core.sys.ipend } := by rw [h.core]
theorem outOfService : t.core.outOfService = s.core.outOfService := by rw [h.core]
theorem rpend : t.core.rpend = s.core.rpend := by rw [h.core]

end MemOnly

/-! ## The frame of a trap (R370) -/

theorem padWords_length (n : Nat) (ws : List Word) : (padWords n ws).length = n := by
  simp [padWords]

/-- Without a VP section a frame has 0x910 bytes. -/
theorem frameWords_length (th : Thread) (t : Trap) (rpc : Word) (h : th.vp = none) : (frameWords th t rpc).length = 290 := by
  cases hr : th.rtn <;> simp [frameWords, h, hr, padWords_length]

/-- The windows of device memory lie below 2^49. -/
theorem place_media_lt {s : State} {pa lin : Nat} (h : s.place pa = .media lin) : pa < 2 ^ 49 := by
  unfold State.place at h
  dsimp only at h
  split_ifs at h <;> omega

/-- Configuration space lies above every window of memory. -/
theorem place_cfg_le {s : State} {pa off : Nat} (h : s.place pa = .cfg off) : 2 ^ 51 ≤ pa := by
  unfold State.place at h
  dsimp only at h
  split_ifs at h
  omega

/-- A frame area begins in a window of device memory. -/
theorem frameOk_lt {s : State} {pa n : Nat} (h : s.frameOk pa n = true) : pa < 2 ^ 49 := by
  unfold State.frameOk at h
  split at h
  · exact place_media_lt ‹_›
  · cases h

/-- Words stored below configuration space are stored in memory. -/
theorem memOnly_writeWords (s : State) (pa : Nat) (ws : List Word) (h : pa + 8 * ws.length ≤ 2 ^ 51) :
    MemOnly s (s.writeWords pa ws) := by
  induction ws generalizing s pa with
  | nil => exact .refl s
  | cons w ws ih =>
    rw [List.length_cons] at h
    have hw : MemOnly s (s.writePa pa 8 w.toNat) := memOnly_writePa s pa 8 _ (fun off e => by have := place_cfg_le e; omega)
    exact hw.trans (ih _ _ (by omega))

/-! ## Traps and machine checks that are taken (R373, R377) -/

theorem parkVp_of_none (s : State) (h : s.th.vp = none) : s.parkVp = s := by
  simp [State.parkVp, Thread.parkVp, h]

/-- Leaving an `mwait` changes the matrix queue alone. -/
theorem leaveMwait_eq (s : State) : s.leaveMwait = { s with core := { s.core with mat := s.leaveMwait.core.mat } } := by
  unfold State.leaveMwait; split <;> rfl

theorem leaveMwait_th (s : State) : s.leaveMwait.th = s.th := by rw [leaveMwait_eq]
theorem leaveMwait_sys (s : State) : s.leaveMwait.core.sys = s.core.sys := by rw [leaveMwait_eq]
theorem leaveMwait_frameOk (s : State) (pa n : Nat) : s.leaveMwait.frameOk pa n = s.frameOk pa n := by rw [leaveMwait_eq]; rfl

/-- The state once a thread outside a VP phase has left its `mwait` and its frame stands in memory. -/
def State.framed (s : State) (base : Nat) (t : Trap) (rpc : Word) : State :=
  s.leaveMwait.writeWords base (frameWords s.th t rpc)

section
variable (s : State) {base : Nat} (t : Trap) (rpc : Word) (hv : s.th.vp = none) (hb : s.frameOk base 0x910 = true)
include hv hb

theorem memOnly_framed : MemOnly s.leaveMwait (s.framed base t rpc) := by
  refine memOnly_writeWords _ _ _ ?_
  have := frameOk_lt hb
  rw [frameWords_length _ _ _ hv]
  omega

theorem framed_th : (s.framed base t rpc).th = s.th := by rw [(memOnly_framed s t rpc hv hb).th, leaveMwait_th]
theorem framed_slot : (s.framed base t rpc).slot = s.slot := by rw [(memOnly_framed s t rpc hv hb).slot, leaveMwait_eq]
theorem framed_coreId : (s.framed base t rpc).coreId = s.coreId := by rw [(memOnly_framed s t rpc hv hb).coreId, leaveMwait_eq]
theorem framed_sys : (s.framed base t rpc).core.sys = { s.core.sys with ipend := (s.framed base t rpc).core.sys.ipend } := by
  rw [← leaveMwait_sys s]; exact (memOnly_framed s t rpc hv hb).coreSys
theorem framed_outOfService : (s.framed base t rpc).core.outOfService = s.core.outOfService := by
  rw [(memOnly_framed s t rpc hv hb).outOfService, leaveMwait_eq]

end

/-- A trap that can be delivered writes its frame and enters the kernel's handler. -/
theorem enterTrap_delivers (s : State) (t : Trap) (rpc : Word) (hv : s.th.vp = none) (hi : s.th.intrap = false)
    (hf : s.frameOk s.th.tframe.toNat 0x910 = true) :
    s.enterTrap t rpc = { s.framed s.th.tframe.toNat t rpc with
      th := { s.th.enter s.core.sys.tvec with level := 1, intrap := true, imask := true } } := by
  have hth := framed_th s t rpc hv hf
  have hvec := congrArg CoreRegs.tvec (framed_sys s t rpc hv hf)
  simp only [State.framed] at hth hvec ⊢
  simp only [State.enterTrap, parkVp_of_none s hv, leaveMwait_th, leaveMwait_frameOk, frameWords_length _ _ _ hv, hi, hf, hth, hvec,
    Bool.false_eq_true, Bool.true_eq_false, or_self, if_false, Nat.reduceMul]

/-- A machine check that can be delivered outside a start writes its frame and enters the machine-check handler. -/
theorem machineCheck_delivers (s : State) (src : Nat) (rpc : Word) (hv : s.th.vp = none) (hb : s.boot.starting = false)
    (hl : s.th.level ≠ 2) (hf : s.frameOk s.core.sys.mcframe.toNat 0x910 = true) :
    s.machineCheck src rpc = { s.framed s.core.sys.mcframe.toNat (Cause.mcheck src) rpc with
      th := { s.th.enter s.core.sys.mcvec with level := 2, imask := true, mcStop := s.th.stoppedBy } } := by
  have hth := framed_th s (Cause.mcheck src) rpc hv hf
  have hvec := congrArg CoreRegs.mcvec (framed_sys s (Cause.mcheck src) rpc hv hf)
  simp only [State.framed] at hth hvec ⊢
  simp only [State.machineCheck, parkVp_of_none s hv, leaveMwait_th, leaveMwait_sys, leaveMwait_frameOk, frameWords_length _ _ _ hv,
    hb, hl, hf, hth, hvec, Bool.false_eq_true, Bool.true_eq_false, or_self, if_false, Nat.reduceMul]

/-! ## A core out of service (R21) -/

theorem starting_iff (b : Boot) : b.starting = true ↔ b.ok = false ∧ b.stopped = false ∧ b.mode ≠ 3 := by
  simp [Boot.starting, and_assoc]

theorem mem_teamSlots {s : State} {n j : Nat} : j ∈ s.teamSlots n ↔ j < 4 ∧ (s.threadAt n j).occ = true := by
  simp [State.teamSlots]

/-- A core's team whose lowest slot is the one in focus. -/
theorem lowSlot_of_head {s : State} {n : Nat} (h : (s.teamSlots n).head? = some s.slot.val) : s.lowSlot n = s.slot := by
  simp [State.lowSlot, List.headD_eq_head?_getD, h]

theorem occ_of_mem_team {s : State} (h : s.slot.val ∈ s.teamSlots s.coreId) : s.th.occ = true := by
  simpa using (mem_teamSlots.1 h).2

/-- The state with core n marked out of service. -/
def State.retired (s : State) (n : Nat) : State := s.setCore n { s.coreAt n with outOfService := true }

theorem coreOutOfService_of_enabled (s : State) (h : s.enabled s.ev.core = true) :
    exec .coreOutOfService s = .next ((s.retired s.ev.core).report s.ev.core (s.lowSlot s.ev.core) 6) := by
  change execCoreOutOfService s = _
  rw [execCoreOutOfService, if_pos h]
  rfl

theorem coreOutOfService_of_disabled (s : State) (h : s.enabled s.ev.core = false) : exec .coreOutOfService s = .next s := by
  change execCoreOutOfService s = _
  simp [execCoreOutOfService, h]

@[simp] theorem retired_coreAt (s : State) (n : Nat) : (s.retired n).coreAt n = { s.coreAt n with outOfService := true } :=
  coreAt_setCore_same ..
@[simp] theorem retired_boot (s : State) (n : Nat) : (s.retired n).boot = s.boot := setCore_boot ..
@[simp] theorem retired_fab (s : State) (n : Nat) : (s.retired n).fab = s.fab := setCore_fab ..
@[simp] theorem retired_th (s : State) (n : Nat) : (s.retired n).th = s.th := setCore_th ..
@[simp] theorem retired_store (s : State) (n : Nat) : (s.retired n).store = s.store := setCore_store ..
@[simp] theorem retired_threadAt (s : State) (n j : Nat) : (s.retired n).threadAt n j = s.threadAt n j := threadAt_setCore s n j _ rfl
theorem retired_self (s : State) : s.retired s.coreId = { s with core := { s.core with outOfService := true } } := by
  rw [State.retired, setCore_self, coreAt_self]

/-- A machine check during a start stops the start (R408). -/
theorem report_starting (s : State) (n : Nat) (j : Fin 4) (src : Nat) (h : s.boot.starting = true) :
    s.report n j src = { s with boot := s.boot.stop 6 } := by
  rw [State.report, if_pos h]

/-- A machine check that no thread is there to take waits for one (log 49). -/
theorem report_unattended (s : State) (n : Nat) (j : Fin 4) (src : Nat) (h : s.boot.starting = false)
    (hj : (s.threadAt n j.val).occ = false) : s.report n j src = { s with fab := { s.fab with checks := s.fab.checks ++ [src] } } := by
  simp [State.report, h, hj]

/-- A machine check of the thread in focus that can be delivered. -/
theorem report_focus (s : State) (src : Nat) (he : s.enabled s.coreId = true) (ho : s.th.occ = true) (hv : s.th.vp = none)
    (hb : s.boot.starting = false) (hl : s.th.level ≠ 2) (hf : s.frameOk s.core.sys.mcframe.toNat 0x910 = true) :
    s.report s.coreId s.slot src = { s.framed s.core.sys.mcframe.toNat (Cause.mcheck src) s.th.pc with
      th := { s.th.enter s.core.sys.mcvec with level := 2, imask := true, mcStop := s.th.stoppedBy } } := by
  have hr : s.report s.coreId s.slot src = s.onThread s.coreId s.slot (fun t => t.machineCheck src t.th.pc) := by
    simp only [State.report, State.checkThread, threadAt_self, he, ho, hb, hl, Bool.false_eq_true, and_self, if_true, if_false]
  have hm := machineCheck_delivers s src s.th.pc hv hb hl hf
  rw [hr, onThread_self, hm]
  · rw [hm]; exact framed_coreId s _ _ hv hf
  · rw [hm]; exact framed_slot s _ _ hv hf

theorem coreOutOfService_starting (s : State) (he : s.enabled s.ev.core = true) (hb : s.boot.starting = true) :
    Completes (exec .coreOutOfService s) (fun t => t.coreAt s.ev.core = { s.coreAt s.ev.core with outOfService := true } ∧
      t.boot.stopped = true ∧ t.boot.reason = 6 ∧ t.th = s.th ∧ t.store = s.store) := by
  rw [coreOutOfService_of_enabled s he, report_starting _ _ _ _ (by rwa [retired_boot])]
  exact completes_next ⟨retired_coreAt s _, rfl, rfl, retired_th s _, retired_store s _⟩

theorem coreOutOfService_unattended (s : State) (he : s.enabled s.ev.core = true) (hb : s.boot.starting = false)
    (ho : ∀ i, i < 4 → (s.threadAt s.ev.core i).occ = false) :
    Completes (exec .coreOutOfService s) (fun t => t.coreAt s.ev.core = { s.coreAt s.ev.core with outOfService := true } ∧
      t.fab = { s.fab with checks := s.fab.checks ++ [6] } ∧ t.th = s.th ∧ t.store = s.store) := by
  rw [coreOutOfService_of_enabled s he, report_unattended _ _ _ _ (by rwa [retired_boot])
    (by rw [retired_threadAt]; exact ho _ (Fin.isLt _))]
  exact completes_next ⟨retired_coreAt s _, by rw [retired_fab], retired_th s _, retired_store s _⟩

theorem coreOutOfService_taken (s : State) (he : s.enabled s.ev.core = true) (hb : s.boot.starting = false)
    (hn : s.ev.core = s.coreId) (hh : (s.teamSlots s.ev.core).head? = some s.slot.val) (hl : s.th.level ≠ 2) (hv : s.th.vp = none)
    (hf : s.frameOk s.core.sys.mcframe.toNat 0x910 = true) :
    Completes (exec .coreOutOfService s) (fun t => t.core.outOfService = true ∧ t.th.pc = s.core.sys.mcvec ∧ t.th.level = 2 ∧
      t.th.imask = true ∧ t.th.intrap = s.th.intrap ∧ t.th.s = s.th.s ∧ t.th.k = s.th.k ∧ t.th.vec = s.th.vec) := by
  rw [coreOutOfService_of_enabled s he, lowSlot_of_head hh]
  rw [hn] at he hh ⊢
  have ho := occ_of_mem_team (List.mem_of_mem_head? hh)
  have hr := report_focus { s with core := { s.core with outOfService := true } } 6 he ho hv hb hl hf
  rw [retired_self]
  exact ⟨_, congrArg Host.Outcome.next hr, framed_outOfService _ _ _ hv hf, rfl, rfl, rfl, rfl, rfl, rfl, rfl⟩

/-! ## An interrupt (R378) -/

/-- The only thread of a team takes an interrupt that pre-empts nothing. -/
theorem interruptTake_alone (s : State) (hn : s.ev.core = s.coreId) (hi : s.canInterrupt s.ev.core = true)
    (ht : s.teamSlots s.ev.core = [s.slot.val]) (hp : s.core.sys.ipend.getLsbD 1 = false) :
    exec .interruptTake s = .next (s.onThread s.coreId s.slot (fun t =>
      t.stopThread (Cause.intr s.core.sys.ipend.toNat) none)) := by
  change execInterruptTake s = _
  rw [hn] at hi ht
  have hj : Fin.ofNat 4 s.slot.val = s.slot := Fin.ext (Nat.mod_eq_of_lt s.slot.isLt)
  simp only [execInterruptTake, hn, hi, ht, coreAt_self, hp, Bool.false_eq_true, if_true, if_false, List.foldl_cons, List.foldl_nil,
    List.head?_cons, hj]

theorem stopThread_of_occ (s : State) (t : Trap) (h : s.th.occ = true) : s.stopThread t none = s.enterTrap t s.th.pc := by
  simp [State.stopThread, h]

theorem interruptTake_taken (s : State) (hn : s.ev.core = s.coreId) (hi : s.canInterrupt s.ev.core = true)
    (ht : s.teamSlots s.ev.core = [s.slot.val]) (hp : s.core.sys.ipend.getLsbD 1 = false) (hin : s.th.intrap = false)
    (hv : s.th.vp = none) (hf : s.frameOk s.th.tframe.toNat 0x910 = true) :
    Completes (exec .interruptTake s) (fun t => t.th.pc = s.core.sys.tvec ∧ t.th.level = 1 ∧ t.th.intrap = true ∧
      t.th.imask = true ∧ t.th.s = s.th.s ∧ t.th.k = s.th.k ∧ t.th.vec = s.th.vec ∧ t.th.wait = .none) := by
  have ho : s.th.occ = true := occ_of_mem_team (by rw [← hn, ht]; exact List.mem_singleton_self _)
  have he := (stopThread_of_occ s (Cause.intr s.core.sys.ipend.toNat) ho).trans (enterTrap_delivers s _ _ hv hin hf)
  rw [interruptTake_alone s hn hi ht hp, onThread_self]
  · rw [he]; exact completes_next ⟨rfl, rfl, rfl, rfl, rfl, rfl, rfl, rfl⟩
  · rw [he]; exact framed_coreId s _ _ hv hf
  · rw [he]; exact framed_slot s _ _ hv hf

/-! ## The sequencer's simple entries (R189, R195, R197, R210) -/

/-- The array once its running entry has completed. -/
def Mat.done (m : Mat) (es : List MEntry) : Mat :=
  { m with queue := es, started := false, gate := 0, bound := none, xlive := false, ctr := none }

theorem seqDone_eq (s : State) {e : MEntry} {es : List MEntry} (h : s.core.mat.queue = e :: es) :
    s.seqDone = { s with core := { s.core with mat := s.core.mat.done es } } := by
  simp only [State.seqDone, State.setM1, Mat.done, h, List.drop_one, List.tail_cons]

/-- The shape word by its fields (R183). -/
theorem shapeOf_eq (w : Word) (owner : Fin 4) : shapeOf w owner = {
    owner, rows := w.toNat / 2 ^ 16 % 2 ^ 8, cols := w.toNat / 2 ^ 8 % 2 ^ 8, base := Fin.ofNat 64 (w.toNat % 2 ^ 6) } := by
  simp only [shapeOf, field, getBits, Nat.pow_zero, Nat.div_one]

theorem seqMshape_kept (s : State) {e : MEntry} {es : List MEntry} (hq : s.core.mat.queue = e :: es) (hm : e.mop = 1)
    (hx : e.f.fx.getLsbD 0 = true) :
    s.seqEntry e = { s with core := { s.core with mat := { s.core.mat.done es with
      tshape := wr s.core.mat.tshape e.f.t {
        owner := e.slot, rows := e.sv.toNat / 2 ^ 16 % 2 ^ 8, cols := e.sv.toNat / 2 ^ 8 % 2 ^ 8
        base := Fin.ofNat 64 (e.sv.toNat % 2 ^ 6) }
      mvl := BitVec.ofNat 2 (e.sv.toNat / 2 ^ 24 % 2 ^ 2) } } } := by
  have h : s.seqEntry e = s.seqMshape e := by simp [State.seqEntry, hm, mopMmode, mopMshape]
  rw [h, State.seqMshape, shapeOf_eq]
  simp only [fxBit, hx, if_true]
  exact seqDone_eq _ hq

theorem seqMzero_acc (s : State) {e : MEntry} {es : List MEntry} (hq : s.core.mat.queue = e :: es) (hm : e.mop = 2)
    (hx : e.f.fx.getLsbD 0 = true) :
    s.seqEntry e = { s with core := { s.core with mat := { s.core.mat.done es with acc := 0 } } } := by
  have h : s.seqEntry e = s.seqMzero e := by simp [State.seqEntry, hm, mopMmode, mopMshape, mopMzero]
  rw [h, State.seqMzero]
  simp only [fxBit, hx, if_true]
  exact seqDone_eq _ hq

theorem seqMwait_wakes (s : State) {e : MEntry} {es : List MEntry} (hq : s.core.mat.queue = e :: es) (hm : e.mop = 12)
    (hw : s.th.wait = .mwait) (hc : s.th.convoy = none) :
    s.seqEntry e = { s with
      th := { s.th with wait := .none, pc := s.th.pc + 8 }, core := { s.core with mat := s.core.mat.done es } } := by
  have h : s.seqEntry e = s.seqMwait := by
    simp [State.seqEntry, hm, mopMmode, mopMshape, mopMzero, mopMldb, mopMmul, mopMopa, mopMgmul, mopMdrain, mopMdrainx, mopMrecv,
      mopMchain, mopMunchain, mopMwait]
  rw [h, State.seqMwait, seqDone_eq s hq]
  simp only [hw, if_true, State.posted, hc]
  rfl

/-- The head of the queue runs with its poster in focus. -/
theorem matrixSequence_head (s t : State) {e : MEntry} {es : List MEntry} (hn : s.ev.core = s.coreId) (hh : s.core.mat.held = none)
    (hq : s.core.mat.queue = e :: es) (hs : e.slot = s.slot) (ht : s.seqEntry e = t) (hc : t.coreId = s.coreId)
    (hl : t.slot = s.slot) : exec .matrixSequence s = .next t := by
  subst ht
  change execMatrixSequence s = _
  simp only [execMatrixSequence, hn, coreAt_self, hh, hq, hs]
  rw [onThread_self s _ hc hl]

/-- A held fault and an empty queue stop the sequencer. -/
theorem matrixSequence_stopped (s : State)
    (h : (s.coreAt s.ev.core).mat.held.isSome = true ∨ (s.coreAt s.ev.core).mat.queue = []) : exec .matrixSequence s = .next s := by
  change execMatrixSequence s = _
  unfold execMatrixSequence
  dsimp only
  split
  · next hh hq => simp [hh, hq] at h
  · rfl

/-! ## What the Lift reads (R331, R338, R414) -/

theorem memOnly_xlateAs (s : State) (va : Nat) (need : Need) (r : Rights) : MemOnly s (s.xlateAs va need r).1 := by
  unfold State.xlateAs
  split
  · exact .refl s
  · dsimp only
    split
    · exact .refl s
    · exact memOnly_walked ..

theorem memOnly_readCtx (s : State) (c : Nat) : MemOnly s (s.readCtx c) := by
  unfold State.readCtx
  split
  · exact memOnly_readLine ..
  · exact .refl s

theorem memOnly_ctxXlate (s : State) (ctx va : Nat) (need : Need) (level : Nat) : MemOnly s (s.ctxXlate ctx va need level).1 := by
  unfold State.ctxXlate
  dsimp only
  split
  · exact memOnly_readCtx ..
  · exact (memOnly_readCtx ..).trans (memOnly_xlateAs ..)

theorem memOnly_liftRead (s : State) (pa m level : Nat) : MemOnly s (s.liftRead pa m level).1 := by
  unfold State.liftRead
  split
  · exact memOnly_homeRead ..
  all_goals exact .refl s

theorem memOnly_bytesAs (r : Rights) (fuel : Nat) (s : State) (va n : Nat) : MemOnly s (State.bytesAs r fuel s va n).1 := by
  induction fuel generalizing s va n with
  | zero => exact .refl s
  | succ k ih =>
    unfold State.bytesAs
    split
    · exact .refl s
    · have hx := memOnly_xlateAs s (va % 2 ^ 64) .read r
      dsimp only
      split
      · exact hx
      · next pa _ _ =>
        have hl := hx.trans (memOnly_liftRead _ pa (min n (32 - va % 32)) r.level)
        split
        · exact hl
        · exact hl.trans (ih ..)

theorem memOnly_readEntries (r : Rights) (n : Nat) (s : State) (va : Nat) : MemOnly s (State.readEntries r n s va).1 := by
  induction n generalizing s va with
  | zero => exact .refl s
  | succ n ih =>
    unfold State.readEntries
    exact (memOnly_bytesAs r 3 s va 16).trans (ih ..)

theorem memOnly_readSuccs (s : State) (ctx : Nat) (succ : Word) : MemOnly s (s.readSuccs ctx succ).1 := by
  unfold State.readSuccs
  split
  · exact .refl s
  · dsimp only
    have hc := memOnly_readCtx s ctx
    split
    · exact hc
    · next e _ =>
      have hb := hc.trans (memOnly_bytesAs (e.rights ctx 0) 3 _ succ.toNat 8)
      split
      · exact hb
      · split
        · exact hb
        · exact hb.trans (memOnly_readEntries ..)

theorem memOnly_checkRecord (s : State) (pa : Nat) (rc : Bool) (ctx : Nat) : MemOnly s (s.checkRecord pa rc ctx).1 := by
  unfold State.checkRecord
  dsimp only
  split
  · split
    · exact memOnly_readMap ..
    · exact .refl s
  · exact .refl s

theorem memOnly_parseGroup (s : State) (x : Blob) (rec_ ctx : Nat) : MemOnly s (s.parseGroup x rec_ ctx).1 := by
  unfold State.parseGroup
  dsimp only
  split
  · exact .refl s
  · have hx := memOnly_ctxXlate s ctx (getB x 0 8) .read 0
    split
    · exact hx
    · split
      · split
        · exact hx
        · next lin _ _ =>
          dsimp only
          exact hx.trans (memOnly_readRec _ lin)
      all_goals exact hx

theorem memOnly_instHome (s : State) (g : LGroup) (l : Nat) : MemOnly s (s.instHome g l).1 := by
  unfold State.instHome
  dsimp only
  have hx := memOnly_ctxXlate s g.ctx (g.inst.toNat + 256 * l) .write 0
  split
  · exact hx
  · next pa rc _ =>
    split
    · exact hx.trans (memOnly_checkRecord _ pa rc g.ctx)
    all_goals exact hx

theorem memOnly_homeUpdate (s : State) (lin n : Nat) (f : Nat → Option Nat) : MemOnly s (s.homeUpdate lin n f).1 := by
  unfold State.homeUpdate
  dsimp only
  split
  · exact (memOnly_recall ..).trans (memOnly_noteHome ..)
  · exact (memOnly_recall ..).trans (memOnly_mergeHome ..)

/-! ## Rows on their way: nothing that the Lift or a counter does adds or removes one (R203) -/

@[simp] theorem setFab_fab (s : State) (f : Fabric) : (s.setFab f).fab = f := rfl
@[simp] theorem homeWrite_rows (s : State) (lin n v : Nat) (c : Bool) : (s.homeWrite lin n v c).fab.rows = s.fab.rows :=
  (memOnly_homeWrite ..).rows
@[simp] theorem homeRead_rows (s : State) (lin n : Nat) : (s.homeRead lin n).fab.rows = s.fab.rows := (memOnly_homeRead ..).rows
@[simp] theorem devWriteN_rows (fuel : Nat) (s : State) (pa n v : Nat) : (State.devWriteN fuel s pa n v).fab.rows = s.fab.rows :=
  (memOnly_devWriteN ..).rows
@[simp] theorem recall_rows (s : State) (line : Nat) (keep : Option (Nat × Nat)) : (s.recall line keep).fab.rows = s.fab.rows :=
  (memOnly_recall ..).rows
@[simp] theorem readMap_rows (s : State) (lin : Nat) : (s.readMap lin).fab.rows = s.fab.rows := (memOnly_readMap ..).rows
@[simp] theorem readRec_rows (s : State) (rec_ : Nat) : (s.readRec rec_).fab.rows = s.fab.rows := (memOnly_readRec ..).rows
@[simp] theorem readSuccs_rows (s : State) (ctx : Nat) (succ : Word) : (s.readSuccs ctx succ).1.fab.rows = s.fab.rows :=
  (memOnly_readSuccs ..).rows
@[simp] theorem parseGroup_rows (s : State) (x : Blob) (rec_ ctx : Nat) : (s.parseGroup x rec_ ctx).1.fab.rows = s.fab.rows :=
  (memOnly_parseGroup ..).rows
@[simp] theorem instHome_rows (s : State) (g : LGroup) (l : Nat) : (s.instHome g l).1.fab.rows = s.fab.rows :=
  (memOnly_instHome ..).rows
@[simp] theorem homeUpdate_rows (s : State) (lin n : Nat) (f : Nat → Option Nat) : (s.homeUpdate lin n f).1.fab.rows = s.fab.rows :=
  (memOnly_homeUpdate ..).rows

@[simp] theorem addTask_rows (s : State) (t : LTask) : (s.addTask t).fab.rows = s.fab.rows := rfl
@[simp] theorem dropTask_rows (s : State) (id : Nat) : (s.dropTask id).fab.rows = s.fab.rows := rfl

@[simp] theorem putRecCause_rows (s : State) (t : LTask) (state cause : Nat) : (s.putRecCause t state cause).fab.rows = s.fab.rows := by
  unfold State.putRecCause
  split <;> simp

@[simp] theorem faultTask_rows (s : State) (t : LTask) (cause leaving extra : Nat) :
    (s.faultTask t cause leaving extra).fab.rows = s.fab.rows := by
  unfold State.faultTask
  dsimp only
  split <;> simp

@[simp] theorem enterLift_rows (s : State) (t : LTask) (pend : Nat) : (s.enterLift t pend).fab.rows = s.fab.rows := by
  unfold State.enterLift
  dsimp only
  split <;> simp

@[simp] theorem takeIndex_rows (s : State) (rec_ : Nat) : (s.takeIndex rec_).1.fab.rows = s.fab.rows := by
  unfold State.takeIndex
  split <;> rfl

@[simp] theorem writeInsts_rows (s : State) (g : LGroup) (x : Blob) (l n : Nat) : (s.writeInsts g x l n).1.fab.rows = s.fab.rows := by
  induction n generalizing s l with
  | zero => rfl
  | succ n ih =>
    unfold State.writeInsts
    dsimp only
    split
    · simp
    · simp [ih]

@[simp] theorem startGroup_rows (s : State) (rec_ ctx : Nat) : (s.startGroup rec_ ctx).1.fab.rows = s.fab.rows := by
  unfold State.startGroup
  dsimp only
  split
  · simp
  · split
    · simp
    · split
      · simp
      · split
        · simp
        · split <;> simp

@[simp] theorem dispatch_rows (s : State) (rec_ : Nat) : (s.dispatch rec_).fab.rows = s.fab.rows := by
  unfold State.dispatch
  dsimp only
  split
  · simp
  · split_ifs
    · simp
    · simp
    · simp
    · split <;> simp

@[simp] theorem postRecord_rows (s : State) (rec_ : Nat) : (s.postRecord rec_).1.fab.rows = s.fab.rows := by
  unfold State.postRecord
  extract_lets r
  have h : r.1.fab.rows = s.fab.rows := homeUpdate_rows ..
  clear_value r
  split <;> simp [h]

@[simp] theorem disarm_rows (s : State) (lin : Nat) : (s.disarm lin).fab.rows = s.fab.rows := homeWrite_rows ..

@[simp] theorem fireAt_rows (s : State) (lin : Nat) : (s.fireAt lin).fab.rows = s.fab.rows := by
  unfold State.fireAt
  split
  · rfl
  · split <;> simp

@[simp] theorem decrement_rows (s : State) (lin n : Nat) : (s.decrement lin n).1.fab.rows = s.fab.rows := by
  unfold State.decrement
  dsimp only
  split_ifs <;> simp

@[simp] theorem stopAt_rows (s : State) (lin rest total : Nat) : (s.stopAt lin rest total).fab.rows = s.fab.rows := by
  unfold State.stopAt
  dsimp only
  rw [homeWrite_rows, decrement_rows]
  split
  · split <;> simp
  · split <;> simp

@[simp] theorem putTile_fab (s : State) (c : Nat) (t : TShape) (es : List (Nat × Nat × Nat)) : (s.putTile c t es).fab = s.fab := by
  unfold State.putTile
  split
  · rfl
  · exact setThread_fab ..

/-- An accepted row lowers its counter by its bytes, or stops there (R203, R350). -/
def State.countRow (s : State) (r : MRow) : State :=
  if r.bytes = 0 then s
  else
    let q := s.decrement r.counter r.bytes
    if q.2 then q.1 else q.1.stopAt r.counter 0 r.bytes

theorem countRow_rows (s : State) (r : MRow) : (s.countRow r).fab.rows = s.fab.rows := by
  unfold State.countRow
  dsimp only
  split_ifs <;> simp

/-- A row that arrives first between its routers leaves the way, added or refused (R204, R246). -/
theorem mdrainxRowArrival_removes (s : State) {r : MRow} (h : s.fab.rows.find? (fun x => x.id == s.ev.id) = some r)
    (hf : s.fab.rows.find? (fun x => clusterOf x.src == clusterOf r.src && clusterOf x.dst == clusterOf r.dst) = some r) :
    Completes (exec .mdrainxRowArrival s) (fun t => t.fab.rows = s.fab.rows.filter (fun x => x.id != r.id)) := by
  refine ⟨_, rfl, ?_⟩
  change s.fab.rows.find? (fun x => x.sameWay r) = some r at hf
  simp only [h, hf, ne_eq, not_true_eq_false, if_false]
  split
  · rw [stopAt_rows]; rfl
  · exact (countRow_rows _ r).trans (by rw [setMat_fab, putTile_fab]; rfl)

/-! ## A prefetched record (R224) -/

/-- An access with other rights than the thread's, which it has again afterwards. -/
theorem MemOnly.of_level {s t : State} {level : BitVec 2} (h : MemOnly { s with th := { s.th with level } } t) :
    MemOnly s { t with th := { t.th with level := s.th.level } } := by
  have hth := h.th
  refine ⟨?_, h.cores⟩
  rw [hth]
  exact congrArg (fun x : State => { x with th := s.th }) h.rest

theorem memOnly_seqBytes (level : BitVec 2) (fuel : Nat) (s : State) (va n : Nat) :
    MemOnly s (State.seqBytes level fuel s va n).1 := by
  induction fuel generalizing s va n with
  | zero => exact .refl s
  | succ k ih =>
    unfold State.seqBytes
    split
    · exact .refl s
    · dsimp only
      have hl := memOnly_locate { s with th := { s.th with level } } (va % 2 ^ 64) (min n (32 - va % 32)) .read
      split
      · exact hl.of_level
      · next tg _ =>
        have hr := (hl.trans (memOnly_readAt _ .plain tg (min n (32 - va % 32)))).of_level
        split
        · exact hr
        · split
          · exact hr.trans (ih ..)
          · exact hr.trans (ih ..)

/-- A fetch of a record changes the record cache, and beyond it no more than reads of memory may. -/
theorem fetchRecord_leaves (s : State) (i : Nat) :
    ∃ u, MemOnly s u ∧ (s.fetchRecord i).1 = { u with core := { u.core with rcache := (s.fetchRecord i).1.core.rcache } } := by
  unfold State.fetchRecord
  split
  · exact ⟨s, .refl s, rfl⟩
  · dsimp only
    refine ⟨_, memOnly_seqBytes 1 3 s (s.core.sys.orbase.toNat + 64 * i) 64, ?_⟩
    split <;> rfl

/-- A prefetch that completes: its record stands in the cache already, or is fetched. -/
def State.prefetched (s : State) (i : Nat) : State :=
  let t : State := { s with core := { s.core with rpend := s.core.rpend.filter (fun k => k != i) } }
  if (look s.core.rcache i).isSome then t else (t.fetchRecord i).1

theorem prefetched_of_cached (s : State) {i : Nat} (h : (look s.core.rcache i).isSome = true) :
    s.prefetched i = { s with core := { s.core with rpend := s.core.rpend.filter (fun k => k != i) } } := if_pos h

theorem prefetched_leaves (s : State) (i : Nat) :
    (s.prefetched i).th = s.th ∧ (s.prefetched i).slot = s.slot ∧ (s.prefetched i).coreId = s.coreId ∧
      (s.prefetched i).core.rpend = s.core.rpend.filter (fun k => k != i) := by
  unfold State.prefetched
  dsimp only
  split
  · exact ⟨rfl, rfl, rfl, rfl⟩
  · obtain ⟨u, hu, e⟩ := fetchRecord_leaves { s with core := { s.core with rpend := s.core.rpend.filter (fun k => k != i) } } i
    rw [e]
    exact ⟨hu.th, hu.slot, hu.coreId, hu.rpend⟩

theorem mrpfFetchCompletion_asked (s : State) (hi : s.ev.id ∈ (s.coreAt s.ev.core).rpend) (hn : s.ev.core = s.coreId) :
    exec .mrpfFetchCompletion s = .next (s.prefetched s.ev.id) := by
  change execMrpfFetchCompletion s = _
  obtain ⟨-, hs, hc, -⟩ := prefetched_leaves s s.ev.id
  rw [execMrpfFetchCompletion, if_pos (List.contains_iff_mem.2 hi), if_pos hn, hn]
  exact congrArg Host.Outcome.next (onThread_self s (fun t => t.prefetched s.ev.id) hc hs)

theorem mrpfFetchCompletion_leaves (s : State) (hi : s.ev.id ∈ (s.coreAt s.ev.core).rpend) (hn : s.ev.core = s.coreId) :
    Completes (exec .mrpfFetchCompletion s) (fun t => t.core.rpend = s.core.rpend.filter (fun i => i != s.ev.id) ∧ t.th = s.th ∧
      ∀ x, look s.core.rcache s.ev.id = some x → look t.core.rcache s.ev.id = some x) := by
  obtain ⟨hth, -, -, hr⟩ := prefetched_leaves s s.ev.id
  rw [mrpfFetchCompletion_asked s hi hn]
  refine completes_next ⟨hr, hth, fun x hx => ?_⟩
  rwa [prefetched_of_cached s (by rw [hx]; rfl)]

/-- Settles O52: each clause is the lemma about its step. -/
theorem threadAndMatrixSteps : Obligations.ThreadAndMatrixSteps := by
  intro s
  dsimp only
  refine ⟨fun u hw => ⟨pauseExpiry_over s hw, pauseExpiry_early s hw⟩, ?timer, ?request, preemptRequest_discarded s,
    fun he => ⟨?starting, ?unattended, ?taken⟩, coreOutOfService_of_disabled s, interruptTake_taken s,
    fun hn hh e es hq hs => ⟨?shape, ?zero, ?mwait⟩, matrixSequence_stopped s, ?row, mrpfFetchCompletion_leaves s⟩
  case timer => exact fun h => ⟨_, timerCompare_due s h, setIpend_sets ..⟩
  case request => exact fun hv hn => ⟨_, preemptRequest_set s hv hn, setIpend_sets ..⟩
  case starting => exact fun hb => coreOutOfService_starting s he ((starting_iff _).2 hb)
  case unattended => exact fun hb ho => coreOutOfService_unattended s he (by rwa [← starting_iff, Bool.not_eq_true] at hb) ho
  case taken =>
    exact fun hb hn hh hl hv hf => coreOutOfService_taken s he (by rwa [← starting_iff, Bool.not_eq_true] at hb) hn hh hl hv hf
  case shape => exact fun hm hx => matrixSequence_head s _ hn hh hq hs (seqMshape_kept s hq hm hx) rfl rfl
  case zero => exact fun hm hx => matrixSequence_head s _ hn hh hq hs (seqMzero_acc s hq hm hx) rfl rfl
  case mwait => exact fun hm hw hc => matrixSequence_head s _ hn hh hq hs (seqMwait_wakes s hq hm hw hc) rfl rfl
  case row =>
    intro r h hf
    obtain ⟨t, ht, hr⟩ := mdrainxRowArrival_removes s h hf
    exact ⟨t, ht, fun x => by simp [hr]⟩

end Sys2Proof.Machine
end

section
/-! SUPPORT. The state after reset (O58), hints and the loop (O6), pointers and the operand file (O10). -/

namespace Sys2Proof.Machine

/-! ## Reset -/

/-- Settles O58: the values stand in the definitions of reset, and an empty memory is in canonical form. -/
theorem resetState : Obligations.ResetState := by
  have cores : ∀ n, State.reset.coreAt n = .reset := fun n => by unfold State.coreAt; split <;> rfl
  have registers (i : Fin 8) : rd Core.reset.mat.recv i = none ∧ (rd Core.reset.mat.tshape i).rows = 0 := by
    simp [rd, Core.reset, Mat.reset, TShape.undef]
  have thresholds (d : Fin 8) : rd State.reset.drowsyThresh d = 4096 := by simp [rd, State.reset]
  have memories : State.reset.MemInv := {
    media := rfl, host := rfl, spad := rfl, falling := rfl, tags := List.nodup_nil
    peer := List.forall_mem_nil _, ss := List.forall_mem_nil _, others := List.forall_mem_nil _
    held := List.forall_mem_nil _, tmpl := List.forall_mem_nil _, otherTags := List.forall_mem_nil _ }
  exact ⟨rfl, rfl, rfl, rfl, rfl, rfl, rfl, rfl, rfl, rfl, rfl, rfl, rfl, registers, rfl, rfl, rfl, rfl, rfl, rfl, rfl, rfl, rfl, rfl,
    rfl, rfl, thresholds, rfl, cores, memories⟩

/-! ## Instructions that are not VP-safe (R35, R151) -/

theorem notVp_outside (s body : State) (h : s.th.vp = none) : s.notVp body = body := by
  simp [State.notVp, State.inVp, h]

theorem notVp_illegal (s body : State) (h : s.th.vp ≠ none) : (.next (s.notVp body) : Out) = .next (s.fault Cause.illegal) := by
  simp [State.notVp, State.inVp, Option.isSome_iff_ne_none, h]

/-! ## Hints and the loop (R63, R144) -/

/-- The target of an offset, as an integer. -/
theorem target_eq (s : State) (off : BitVec 16) : s.target off = BitVec.ofInt 64 (s.th.pc.toInt + off.toInt * 4) := by
  simp only [State.target, sext, BitVec.ofInt_add, BitVec.ofInt_mul, BitVec.ofInt_toInt]
  rfl

/-- Everything a branch taken after LCOUNT was written does. -/
theorem loop_counts (s : State) (off : BitVec 16) (h : s.th.vp = none) :
    Completes (exec (.loop off) s) (fun t =>
      t.th = { s.th with
        lcount := s.th.lcount - 1
        pc := if s.th.lcount - 1 = 0 then s.th.pc + 4 else BitVec.ofInt 64 (s.th.pc.toInt + off.toInt * 4) } ∧ OnlyThread s t) := by
  change Completes (execLoop off s) _
  rw [execLoop, notVp_outside s _ h]
  obtain ⟨hth, honly⟩ := branch_goesTo { s with th := { s.th with lcount := s.th.lcount - 1 } } (s.th.lcount - 1 != 0) off
  refine completes_next ⟨?_, ?_⟩
  · rw [hth, ← target_eq]
    by_cases hn : s.th.lcount - 1 = 0 <;> simp <;> rfl
  · exact OnlyThread.of_eq honly.rest (by rw [hth]) (by rw [hth]) (by rw [hth])

/-- The fields of a word of quadrant 10 with a predicate (R48, R142). -/
theorem fld_scW (off k n fn4 op : Nat) (hk : k < 16) (hn : n < 2) (hf : fn4 < 16) (ho : op < 32) :
    let w := scW off k n fn4 op
    fld w 0 2 = 2 ∧ fld w 2 5 = op ∧ fld w 7 4 = fn4 ∧ fld w 11 1 = n ∧ fld w 12 4 = k ∧ fld w 16 16 = off % 2 ^ 16 := by
  simp only [fld, scW]
  omega

theorem decodeInstr_scW_loop (off : BitVec 16) (k : KReg) (n : Bool) (fn4 : Nat) (hf : fn4 < 16) :
    decodeInstr (scW off.toNat k.val (if n then 1 else 0) fn4 6) =
      if fn4 = 0 ∧ k = 0 ∧ n = false then .loop off else .unassignedEncoding 0 := by
  obtain ⟨h0, hop, hfn, hn, hk, hoff⟩ := fld_scW off.toNat k.val (if n then 1 else 0) fn4 6 k.isLt (by split <;> omega) hf (by omega)
  have ek : Fin.ofNat 16 k.val = k := Fin.ext (Nat.mod_eq_of_lt k.isLt)
  have en : bitOf (if n then 1 else 0) = n := by cases n <;> rfl
  have eo : BitVec.ofNat 16 (off.toNat % 2 ^ 16) = off := by rw [Nat.mod_eq_of_lt off.isLt, BitVec.ofNat_toNat, BitVec.setWidth_eq]
  simp only [decodeInstr, h0, decodeQ2, hop, hfn, hn, hk, hoff, ek, en, eo]
  split <;> rfl

/-- Settles O6: hints advance the PC or mark the thread, `loop` is a branch on the count, its word has no other fields. -/
theorem hintsAndLoop : Obligations.HintsAndLoop := by
  intro s a d f3 code off k n'
  refine ⟨⟨_, rfl, advance_goesTo s 4⟩, ⟨_, rfl, advance_goesTo s 4⟩, ⟨_, rfl, rfl, OnlyThread.of_eq rfl rfl rfl rfl, ?ready, rfl⟩,
    ⟨_, rfl, rfl, Nat.zero_lt_succ 2, OnlyThread.of_eq rfl rfl rfl rfl⟩, loop_counts s off, ?inside, ?word, ?others⟩
  case ready =>
    intro ho he c
    simp [Thread.ready, ho, he]
  case inside => exact notVp_illegal s _
  case word => exact decodeInstr_scW_loop off 0 false 0 (by omega)
  case others =>
    intro fn4 hf hbad
    refine (decodeInstr_scW_loop off k n' fn4 hf).trans (if_neg ?_)
    rintro ⟨hfn, hk, hn⟩
    rcases hbad with h | h | h
    exacts [h hfn, h hk, by simp [hn] at h]

/-! ## Pointers and the operand file (R123, R124, R149) -/

/-- Bit 0 of an immediate says whether its value is odd. -/
theorem odd_iff_toInt (imm : BitVec 12) : imm.toNat % 2 = 1 ↔ imm.toInt % 2 = 1 := by
  rw [BitVec.toInt_eq_toNat_cond]
  split <;> omega

theorem pset_sets (s : State) (p : PReg) (a : Reg) (sz : Fin 5) (h : s.th.vp = none) :
    Completes (exec (.pset p a sz) s) (fun t =>
      t.getP p = s.getS a ∧ rd t.th.psz p = sz ∧ (∀ q, q ≠ p → t.getP q = s.getP q ∧ rd t.th.psz q = rd s.th.psz q) ∧
      t.th = { s.th with p := t.th.p, psz := t.th.psz, pc := s.th.pc + 4 } ∧ OnlyThread s t) := by
  change Completes (execPset p a sz s) _
  rw [execPset, notVp_outside s _ h]
  exact completes_next ⟨rd_wr_same .., rd_wr_same .., fun q hq => ⟨rd_wr_ne _ _ _ _ hq, rd_wr_ne _ _ _ _ hq⟩, rfl,
    OnlyThread.of_eq rfl rfl rfl rfl⟩

/-- The pointer that `padv` leaves, where its size allows the step. -/
theorem padv_advances (s : State) (d : Reg) (p : PReg) (imm : BitVec 12) (h : s.th.vp = none)
    (hz : ¬ (rd s.th.psz p = 4 ∧ imm.toInt % 2 = 1)) :
    let v := s.getP p + sizeTimes (rd s.th.psz p) imm.toInt
    Completes (exec (.padv d p imm) s) (fun t =>
      t.getP p = v ∧ (∀ q, q ≠ p → t.getP q = s.getP q) ∧ t.getS d = (if d = 0 then 0 else v) ∧ (∀ q, q ≠ d → t.getS q = s.getS q) ∧
      t.th = { s.th with s := t.th.s, p := t.th.p, pc := s.th.pc + 4 } ∧ OnlyThread s t) := by
  intro v
  change Completes (execPadv d p imm s) _
  rw [execPadv, notVp_outside s _ h, if_neg (by rwa [odd_iff_toInt])]
  obtain ⟨hv, ho, hth, honly⟩ := result_writesS (s.setP p v) d v
  have hp : ((s.setP p v).result d v).th.p = wr s.th.p p v := State.result_th_p ..
  refine completes_next ⟨?_, fun q hq => ?_, hv, ho, ?_, OnlyThread.of_eq honly.rest ?_ ?_ ?_⟩
  · exact (congrArg (rd · p) hp).trans (rd_wr_same ..)
  · exact (congrArg (rd · q) hp).trans (rd_wr_ne _ _ _ _ hq)
  · rw [hp]; exact hth
  all_goals rw [hth]; rfl

theorem padv_odd (s : State) (d : Reg) (p : PReg) (imm : BitVec 12) (h : s.th.vp = none) (hz : rd s.th.psz p = 4)
    (hi : imm.toInt % 2 = 1) : exec (.padv d p imm) s = .next (s.fault Cause.resop) := by
  change execPadv d p imm s = _
  rw [execPadv, notVp_outside s _ h, if_pos ⟨hz, (odd_iff_toInt imm).2 hi⟩]

/-- Every lane's place of a splat holds the value. -/
theorem getB_splat64 (n v l : Nat) (h : l < n) : getB (splat64 n v) (8 * l) 8 = v % 2 ^ 64 := by
  induction n generalizing l with
  | zero => omega
  | succ n ih =>
    have hpow : (256 : Nat) ^ 8 = 2 ^ 64 := rfl
    cases l with
    | zero => rw [splat64, getB, Nat.mul_zero, Nat.pow_zero, Nat.div_one, hpow, Nat.add_mul_mod_self_left, Nat.mod_mod]
    | succ l =>
      have hrest : splat64 (n + 1) v / 256 ^ 8 = splat64 n v := by
        rw [hpow, splat64, Nat.add_mul_div_left _ _ (Nat.two_pow_pos 64), Nat.div_eq_of_lt (Nat.mod_lt _ (Nat.two_pow_pos 64)), Nat.zero_add]
      rw [getB, show 8 * (l + 1) = 8 + 8 * l by omega, Nat.pow_add, ← Nat.div_div_eq_div_mul, hrest]
      exact ih l (by omega)

theorem fmvToOperand_splats (s : State) (e : Fin 8) (a : Reg) (h : s.th.vp = none) :
    Completes (exec (.fmvToOperand e a) s) (fun t =>
      (∀ l, l < s.nLanes → getB (rd t.th.vec.o e) (8 * l) 8 = (s.getS a).toNat) ∧
      (∀ j, j ≠ e → rd t.th.vec.o j = rd s.th.vec.o j) ∧
      t.th = { s.th with vec := { s.th.vec with o := t.th.vec.o }, pc := s.th.pc + 4 } ∧ OnlyThread s t) := by
  change Completes (execFmvToOperand e a s) _
  rw [execFmvToOperand, notVp_outside s _ h]
  refine completes_next ⟨fun l hl => ?_, fun j hj => rd_wr_ne _ _ _ _ hj, rfl, OnlyThread.of_eq rfl rfl rfl rfl⟩
  have ho : rd ((s.setO e (splat64 s.nLanes (s.getS a).toNat)).advance 4).th.vec.o e = splat64 s.nLanes (s.getS a).toNat :=
    rd_wr_same ..
  rw [ho, getB_splat64 _ _ _ hl, Nat.mod_eq_of_lt (s.getS a).isLt]

theorem fmvFromOperand_reads (s : State) (d : Reg) (e : Fin 8) (b : Reg) (h : s.th.vp = none) (hb : (s.getS b).toNat < s.nLanes) :
    Completes (exec (.fmvFromOperand d e b) s) (WritesS s d (wd (getB (rd s.th.vec.o e) (8 * (s.getS b).toNat) 8)) 4) := by
  change Completes (execFmvFromOperand d e b s) _
  rw [execFmvFromOperand, notVp_outside s _ h, if_neg (Nat.not_le.2 hb)]
  exact completes_next (result_writesS ..)

theorem fmvFromOperand_noLane (s : State) (d : Reg) (e : Fin 8) (b : Reg) (h : s.th.vp = none) (hb : s.nLanes ≤ (s.getS b).toNat) :
    exec (.fmvFromOperand d e b) s = .next (s.fault Cause.resop) := by
  change execFmvFromOperand d e b s = _
  rw [execFmvFromOperand, notVp_outside s _ h, if_pos hb]

/-- Settles O10: each clause is the lemma about its instruction; in a block of virtual processors none of them is VP-safe. -/
theorem pointersAndOperandFile : Obligations.PointersAndOperandFile := by
  intro s d a b p e sz imm
  refine ⟨fun h => ⟨pset_sets s p a sz h, ?padv, padv_odd s d p imm h, fmvToOperand_splats s e a h, fmvFromOperand_reads s d e b h,
    fmvFromOperand_noLane s d e b h⟩, fun h => ⟨notVp_illegal s _ h, notVp_illegal s _ h, notVp_illegal s _ h, notVp_illegal s _ h⟩⟩
  case padv =>
    rintro v (⟨hz, rfl⟩ | ⟨hz, hi, rfl⟩)
    · have hp := padv_advances s d p imm h (fun c => hz c.1)
      rwa [sizeTimes, if_neg hz] at hp
    · have hp := padv_advances s d p imm h (fun c => by omega)
      rwa [sizeTimes, if_pos hz] at hp

end Sys2Proof.Machine
end

section
/-! SUPPORT. The machine's turns (02 R30, R43): which slot the barrel serves, what the turn of the thread in focus executes, and what a
fetch leaves. -/

namespace Sys2Proof.Machine

/-! ## Which slot the barrel serves (R30) -/

/-- The first of the values that pass a filter and a test is the value of the first index that passes both. -/
theorem find?_filterMap_ite (l : List Nat) (f : Nat → Nat) (p q : Nat → Bool) :
    (l.filterMap (fun d => if p (f d) then some (f d) else none)).find? q = (l.find? (fun d => p (f d) && q (f d))).map f := by
  induction l with
  | nil => rfl
  | cons d l ih => by_cases hp : p (f d) = true <;> by_cases hq : q (f d) = true <;> simp [hp, hq, ih]

/-- Slot j of core n is neither waiting nor stalled. -/
def State.takesTurn (s : State) (n j : Nat) : Bool := s.slotReady n j && !(s.focusTurn n j).stalls

theorem nextSlot_eq (s : State) {n : Nat} (h : s.enabled n = true) :
    s.nextSlot n = ([1, 2, 3, 4].find? (fun d => s.takesTurn n (((s.coreAt n).lastSlot + d) % 4))).map
      (fun d => ((s.coreAt n).lastSlot + d) % 4) := by
  simp only [State.nextSlot, State.readySlots, h, Bool.not_true, Bool.false_eq_true, if_false]
  exact find?_filterMap_ite ..

theorem nextSlot_first (s : State) {n d : Nat} (h : s.enabled n = true) (h1 : 1 ≤ d) (h4 : d ≤ 4)
    (ht : s.takesTurn n (((s.coreAt n).lastSlot + d) % 4) = true)
    (hc : ∀ c, 1 ≤ c → c < d → s.takesTurn n (((s.coreAt n).lastSlot + c) % 4) = false) :
    s.nextSlot n = some (((s.coreAt n).lastSlot + d) % 4) := by
  have first : [1, 2, 3, 4].find? (fun d => s.takesTurn n (((s.coreAt n).lastSlot + d) % 4)) = some d := by
    interval_cases d
    · simp only [List.find?_cons, ht]
    · simp only [List.find?_cons, hc 1 (by omega) (by omega), ht]
    · simp only [List.find?_cons, hc 1 (by omega) (by omega), hc 2 (by omega) (by omega), ht]
    · simp only [List.find?_cons, hc 1 (by omega) (by omega), hc 2 (by omega) (by omega), hc 3 (by omega) (by omega), ht]
  rw [nextSlot_eq s h, first, Option.map_some]

theorem nextSlot_none (s : State) {n : Nat} (h : s.enabled n = true)
    (hc : ∀ d, 1 ≤ d → d ≤ 4 → s.takesTurn n (((s.coreAt n).lastSlot + d) % 4) = false) : s.nextSlot n = none := by
  rw [nextSlot_eq s h]
  simp only [List.find?_cons, List.find?_nil, hc 1 (by omega) (by omega), hc 2 (by omega) (by omega), hc 3 (by omega) (by omega),
    hc 4 (by omega) (by omega), Option.map_none]

/-- A thread that stands in a wait which nothing calls it out of takes no turn. -/
theorem slotReady_waiting (s : State) {n j : Nat} (hc : s.calledUp n j = false) (hr : (s.threadAt n j).ready s.cycle = false) :
    s.slotReady n j = false := by
  simp [State.slotReady, hc, hr]

theorem calledUp_pause (s : State) {n j u : Nat} (h : (s.threadAt n j).wait = .pause u) : s.calledUp n j = false := by
  simp [State.calledUp, h]

/-! ## Drops that settle, and what a fetch leaves -/

/-- The state with a list of drops on their way. -/
def State.withDrops (s : State) (ds : List Nat) : State := { s with fab := { s.fab with drops := ds } }

theorem MemOnly.withDrops {s t : State} (h : MemOnly s t) (ds : List Nat) : MemOnly (s.withDrops ds) (t.withDrops ds) :=
  ⟨congrArg (State.withDrops · ds) h.rest, h.cores⟩

theorem memOnly_dropHome (s : State) (line : Nat) (ds : List Nat) : MemOnly (s.withDrops ds) ((s.dropHome line).withDrops ds) :=
  ((memOnly_recall s line none).withDrops ds).trans (.of_store rfl)

/-- Drops that reach their homes change, beside the list of those on their way, what an access to memory may. -/
theorem memOnly_dropHomes (ls : List Nat) (s : State) (ds : List Nat) :
    MemOnly (s.withDrops ds) ((ls.foldl State.dropHome s).withDrops ds) := by
  induction ls generalizing s with
  | nil => exact .refl _
  | cons l ls ih => exact (memOnly_dropHome s l ds).trans (ih _)

theorem memOnly_settleDrops (s : State) : MemOnly s (s.settleDrops.withDrops s.fab.drops) := memOnly_dropHomes _ s _

/-- A parcel read at a physical address fills the code block; nothing else of the thread or the turn changes. -/
theorem parcelAt_th (s : State) (pa : Nat) : (s.parcelAt pa).1.th = s.th := by
  unfold State.parcelAt
  split
  · split
    · rfl
    · exact (memOnly_readBlock s (pa / 64)).th
  all_goals rfl

theorem fetchParcel_th (s : State) (va : Nat) : (s.fetchParcel va).1.th = s.th := by
  unfold State.fetchParcel
  split
  · split <;> rfl
  · have hx := (memOnly_translate s va .exec).th
    dsimp only
    split
    · exact hx
    · split_ifs
      · exact hx
      · exact (memOnly_readBlock ..).th.trans hx
      · exact (parcelAt_th ..).trans hx

theorem fetchParcels_th (n : Nat) (s : State) (va : Nat) : (s.fetchParcels va n).1.th = s.th := by
  induction n generalizing s va with
  | zero => rfl
  | succ n ih =>
    have hp := fetchParcel_th s va
    unfold State.fetchParcels
    dsimp only
    split
    · exact hp
    · split <;> exact (ih ..).trans hp

/-- A fetch leaves the thread as it was. -/
theorem fetchAt_th (s : State) (va : Nat) : (s.fetchAt va).1.th = s.th := by
  have hp := fetchParcel_th s va
  unfold State.fetchAt
  dsimp only
  split
  · exact hp
  · split <;> exact (fetchParcels_th ..).trans hp

/-! ## A fetch from the scratchpad -/

theorem fetchParcel_spad (s : State) (off : Nat) (h : off + 4 ≤ s.core.spadSize) (top : off + 4 ≤ 2 ^ 20) :
    s.fetchParcel (spw + off) = (s, .ok (s.core.spad.readN off 4)) := by
  have hin : inSpw (spw + off) = true := by simp [inSpw]; omega
  rw [State.fetchParcel, if_pos hin, Nat.add_sub_cancel_left, if_neg (by omega)]

theorem fetchParcels_spad (n : Nat) (s : State) (off : Nat) (h : off + 4 * n ≤ s.core.spadSize) (top : off + 4 * n ≤ 2 ^ 20) :
    s.fetchParcels (spw + off) n = (s, .ok (s.core.spad.readN off (4 * n))) := by
  induction n generalizing off with
  | zero => rfl
  | succ n ih =>
    have hwrap : (spw + off + 4) % 2 ^ 64 = spw + (off + 4) := by unfold spw; omega
    have hjoin := Mem.readN_add s.core.spad off 4 (4 * n)
    rw [State.fetchParcels, fetchParcel_spad s off (by omega) (by omega)]
    dsimp only
    rw [hwrap, ih (off + 4) (by omega) (by omega), Nat.mul_succ, Nat.add_comm (4 * n) 4, hjoin]
    rfl

theorem instrLen_parcels (w : Nat) : 4 * (instrLen w / 4) = instrLen w ∧ 4 ≤ instrLen w := by
  unfold instrLen
  split <;> omega

/-- An instruction that stands in the scratchpad is what its bytes decode to. -/
theorem fetchAt_spad (s : State) (off : Nat) :
    let n := instrLen (s.core.spad.readN off 4)
    off + n ≤ s.core.spadSize → off + n ≤ 2 ^ 20 → s.fetchAt (spw + off) = (s, .ok (decodeInstr (s.core.spad.readN off n), n)) := by
  intro n h top
  obtain ⟨hn, h4⟩ := instrLen_parcels (s.core.spad.readN off 4)
  have hwrap : (spw + off + 4) % 2 ^ 64 = spw + (off + 4) := by unfold spw; omega
  have hrest : 4 * (n / 4 - 1) = n - 4 := by omega
  have hjoin := Mem.readN_add s.core.spad off 4 (n - 4)
  rw [Nat.add_sub_cancel' h4] at hjoin
  rw [State.fetchAt, fetchParcel_spad s off (by omega) (by omega)]
  dsimp only
  rw [hwrap, fetchParcels_spad _ s (off + 4) (by omega) (by omega), hrest, hjoin]
  rfl

/-! ## The turn of the thread in focus -/

/-- The thread in focus goes on with the instruction at its PC: it waits for nothing, and no other work of its own comes first. -/
structure State.AtInstruction (s : State) : Prop where
  wait : s.th.wait = .none
  spin : s.th.spin = 0
  issue : s.th.issue = none
  replay : s.th.replay = []
  rtn : s.th.rtn = none
  convoy : s.th.convoy = none
  vp : s.th.vp = none
  owes : s.owesMfault = none
  checks : s.fab.checks = []

namespace State.AtInstruction

variable {s : State} (h : s.AtInstruction)
include h

/-- The turn of a thread at an instruction fetches it. -/
theorem threadTurn_eq : s.threadTurn = s.fetchTurn := by
  have hvp : s.th.vpTurn = s.th := by simp [Thread.vpTurn, Thread.parkVp, h.vp]
  simp only [State.threadTurn, h.wait, h.owes, h.issue, h.replay, h.rtn, h.convoy, hvp]

theorem focusTurn_eq : s.focusTurn s.coreId s.slot.val = s.ordered s.fetchTurn := by
  have hj : Fin.ofNat 4 s.slot.val = s.slot := Fin.ext (Nat.mod_eq_of_lt s.slot.isLt)
  have hw : s.th.wake = s.th := by simp only [Thread.wake, h.wait]
  simp only [State.focusTurn, hj, focus_self, h.checks, h.spin, hw, Nat.lt_irrefl, if_false, h.threadTurn_eq]

end State.AtInstruction

theorem fetchTurn_ok {s s1 : State} {i : Instr} {n : Nat} (hv : s.th.vp = none)
    (h : ({ s with th := s.th.dropRwatch } : State).fetchAt s.th.pc.toNat = (s1, .ok (i, n))) : s.fetchTurn = .run i s1 := by
  have ht := fetchAt_th { s with th := s.th.dropRwatch } s.th.pc.toNat
  rw [h] at ht
  have hvp : s1.th.vp = none := by
    rw [ht]; unfold Thread.dropRwatch; split <;> exact hv
  have hpark := parkVp_of_none s1 hvp
  have hfetched : ({ s1 with th := s1.th.vpFetched n } : State) = s1 := by simp only [Thread.vpFetched, hvp]
  have hpc : s.th.dropRwatch.pc = s.th.pc := by unfold Thread.dropRwatch; split <;> rfl
  simp only [State.fetchTurn, hpc, h, hfetched, hpark, ite_self]
  split <;> rfl

theorem fetchTurn_error {s s1 : State} {t : Trap}
    (h : ({ s with th := s.th.dropRwatch } : State).fetchAt s.th.pc.toNat = (s1, .error t)) : s.fetchTurn = .done (s1.fault t) := by
  have hpc : s.th.dropRwatch.pc = s.th.pc := by unfold Thread.dropRwatch; split <;> rfl
  simp only [State.fetchTurn, hpc, h]

/-- The core in focus has given its thread in focus this cycle's turn. -/
def State.turnGiven (s : State) : State := { s with core := { s.core with lastSlot := s.slot.val, issued := s.cycle + 1 } }

/-- A turn, or a step that passes over a stalled thread. -/
def Go.orPass (s : State) : Go → Go
  | .stall => .done s
  | .run i u => .run i u
  | .done u => .done u

/-- A turn of the core in focus that its barrel gives to the thread in focus, in a new cycle. -/
theorem runTurn_focus (s : State) (hh : s.halted = false) (hi : s.core.issued ≠ s.cycle + 1) (hn : s.nextSlot s.coreId = some s.slot.val) :
    s.runTurn s.coreId s.slot.val = (s.turnGiven.focusTurn s.coreId s.slot.val).orPass s := by
  have hc : s.inNewCycle s.coreId = s := by rw [State.inNewCycle, coreAt_self, if_neg hi]
  have hw : s.served s.coreId s.slot.val = s.turnGiven := by rw [State.served, setCore_self, coreAt_self]; rfl
  rw [State.runTurn, State.turnSlot, hc, hw, if_pos ⟨s.slot.isLt, hh, hn⟩]
  cases s.turnGiven.focusTurn s.coreId s.slot.val <;> rfl

/-- What a step makes of the outcome of an instruction that its turn executes from s. -/
def State.after (s : State) (i : Instr) : Out → Out
  | .next t => .next (if isStepInstr i then t else s.track i t)
  | .fault f => .fault f
  | .refused r => .refused r

/-- A step whose schedule gives a barrel turn, before which the drops on their way settle. -/
theorem step_run (s : State) {n j : Nat} {ts : List Turn} {g : Go} (hs : s.schedule = .run n j :: ts)
    (hg : ({ s with seq := s.seq + 1, schedule := ts } : State).settleDrops.runTurn n j = g) :
    step s = match g with
      | .run i s1 => s1.after i (exec i s1)
      | .done s1 => .next s1
      | .stall => .next { s with seq := s.seq + 1 } := by
  simp only [step, List.isEmpty_cons, Bool.and_false, Bool.false_eq_true, if_false, State.nextTurn, hs, State.takeTurn, Turn.leavesDrops, hg]
  cases g with
  | run i s1 => simp only [State.after]; cases exec i s1 <;> rfl
  | done s1 => rfl
  | stall => rfl

/-- After an instruction the records of what may still be under way follow, and nothing else changes. -/
theorem after_next (s t : State) (i : Instr) : ∃ (late : List Late) (others : Thread → List Late), s.after i (.next t) = .next { t with
    th := { t.th with recent := late }
    core := { t.core with parked := t.core.parked.map (fun p => (p.1, { p.2 with recent := others p.2 })) } } := by
  have same : t.core.parked.map (fun p => (p.1, { p.2 with recent := p.2.recent })) = t.core.parked := List.map_id _
  by_cases hi : isStepInstr i = true
  · exact ⟨t.th.recent, (·.recent), by rw [same, State.after, if_pos hi]⟩
  · by_cases hq : (s.accesses i == some []) = true
    · exact ⟨s.lateNow i t, (·.recent), by rw [same]; simp only [State.after, hi, State.track, hq, if_true, Bool.false_eq_true, if_false]⟩
    · exact ⟨s.lateNow i t, fun q => q.recent.takeWhile (fun l => l.stored.isEmpty),
        by simp only [State.after, hi, State.track, hq, Bool.false_eq_true, if_false]⟩

theorem dropRwatch_eq (t : Thread) : t.dropRwatch = { t with rwatch := if t.rwatch = some t.pc then t.rwatch else none } := by
  unfold Thread.dropRwatch
  split <;> rfl

/-- The state in which the turn of the thread in focus fetches its instruction. -/
def State.turnBegun (s : State) : State := { s.turnGiven with th := s.th.dropRwatch }

section
variable {v : State} (hat : v.AtInstruction) (hh : v.halted = false) (hi : v.core.issued ≠ v.cycle + 1)
  (hn : v.nextSlot v.coreId = some v.slot.val)
include hat hh hi hn

/-- The turn fetches the instruction at the PC. -/
theorem runTurn_fetches : v.runTurn v.coreId v.slot.val = (v.turnGiven.ordered v.turnGiven.fetchTurn).orPass v := by
  have hat' : v.turnGiven.AtInstruction :=
    ⟨hat.wait, hat.spin, hat.issue, hat.replay, hat.rtn, hat.convoy, hat.vp, hat.owes, hat.checks⟩
  have hg : v.turnGiven.focusTurn v.coreId v.slot.val = v.turnGiven.ordered v.turnGiven.fetchTurn := hat'.focusTurn_eq
  rw [runTurn_focus v hh hi hn, hg]

theorem runTurn_ok {s1 : State} {i : Instr} {n : Nat} (h : v.turnBegun.fetchAt v.th.pc.toNat = (s1, .ok (i, n)))
    (hm : writesMemory i = true → v.turnBegun.matReads = false) : v.runTurn v.coreId v.slot.val = .run i s1 := by
  have hw : ¬ ((v.turnGiven.matReads && writesMemory i) = true) := by
    have hm' : writesMemory i = true → v.turnGiven.matReads = false := hm
    cases hx : writesMemory i
    · simp
    · simp [hm' hx]
  have hf : v.turnGiven.fetchTurn = .run i s1 := fetchTurn_ok (s := v.turnGiven) hat.vp h
  rw [runTurn_fetches hat hh hi hn, hf, State.ordered, if_neg hw, Go.orPass]

theorem runTurn_error {s1 : State} {t : Trap} (h : v.turnBegun.fetchAt v.th.pc.toNat = (s1, .error t)) :
    v.runTurn v.coreId v.slot.val = .done (s1.fault t) := by
  have hf : v.turnGiven.fetchTurn = .done (s1.fault t) := fetchTurn_error (s := v.turnGiven) h
  rw [runTurn_fetches hat hh hi hn, hf, State.ordered, Go.orPass]

end

/-- What settles before a turn, of what the turn goes by. -/
structure State.SameTurn (s v : State) : Prop where
  th : v.th = s.th
  slot : v.slot = s.slot
  coreId : v.coreId = s.coreId
  mat : v.core.mat = s.core.mat
  spad : v.core.spad = s.core.spad
  carve : v.core.sys.carve = s.core.sys.carve
  issued : v.core.issued = s.core.issued
  boot : v.boot = s.boot
  time : v.time = s.time
  checks : v.fab.checks = s.fab.checks

theorem sameTurn_settleDrops (s : State) : s.SameTurn s.settleDrops := by
  have h := memOnly_settleDrops s
  have mat := congrArg Core.mat h.core
  have spad := congrArg Core.spad h.core
  have carve := congrArg (fun c : Core => c.sys.carve) h.core
  have issued := congrArg Core.issued h.core
  have boot := congrArg State.boot h.rest
  have time := congrArg State.time h.rest
  have checks := congrArg (fun x : State => x.fab.checks) h.rest
  exact ⟨h.th, h.slot, h.coreId, mat, spad, carve, issued, boot, time, checks⟩

theorem settleDrops_nil (s : State) (h : s.fab.drops = []) : s.settleDrops = s := by
  simp [State.settleDrops, h]

/-- Settles O56: the barrel's choice is the first slot that takes its turn; the turn of the thread in focus comes down to its fetch, and the
step to the instruction fetched. -/
theorem stepRunsDecoded : Obligations.StepRunsDecoded := by
  refine ⟨fun s n he => ⟨fun d h1 h4 ht hc => ?first, fun hc => ?none, fun j hj => ⟨fun hc hw => ?waits, fun u hw hu => ?pause⟩⟩, ?turn⟩
  case first => exact nextSlot_first s he h1 h4 (by simpa [State.takesTurn] using ht) (fun c h h' => by simpa [State.takesTurn] using hc c h h')
  case none => exact nextSlot_none s he (fun d h1 h4 => by simpa [State.takesTurn] using hc d h1 h4)
  case waits => exact slotReady_waiting s hc (by rcases hw with hw | hw <;> simp [Thread.ready, hj, hw])
  case pause => exact slotReady_waiting s (calledUp_pause s hw) (by simp [Thread.ready, hj, hw, hu])
  case turn =>
    intro s ts hs hm hst he ho hend hw hsp hmf hiss hrep hrtn hcv hvp hck his v hn u runs
    have same : s.SameTurn v := by
      obtain ⟨th, slot, coreId, mat, spad, carve, issued, boot, time, checks⟩ :=
        sameTurn_settleDrops { s with seq := s.seq + 1, schedule := ts }
      exact ⟨th, slot, coreId, mat, spad, carve, issued, boot, time, checks⟩
    have hcyc : v.cycle = s.cycle := congrArg (· / sclk) same.time
    have hat : v.AtInstruction := by
      constructor
      case owes => rw [← hmf]; simp only [State.owesMfault, same.mat, same.slot, same.th]
      case checks => rw [same.checks, hck]
      all_goals rw [same.th]; assumption
    have hh : v.halted = false := by
      rw [State.halted, same.boot, hst, Bool.or_false]; exact beq_eq_false_iff_ne.2 hm
    have hi : v.core.issued ≠ v.cycle + 1 := by rwa [same.issued, hcyc]
    have hnext : v.nextSlot v.coreId = some v.slot.val := by rwa [same.coreId, same.slot]
    have hu : v.turnBegun = u := by
      simp only [u, State.turnBegun, State.turnGiven, dropRwatch_eq, hcyc, same.slot, same.th]
    have decoded (s1 : State) (i : Instr) (n : Nat) (hf : u.fetchAt s.th.pc.toNat = (s1, .ok (i, n)))
        (hmem : writesMemory i = true → u.matReads = false) : runs i s1 := by
      have hrun := runTurn_ok hat hh hi hnext (by rw [hu, same.th]; exact hf) (by rwa [hu])
      rw [same.coreId, same.slot] at hrun
      have hs1 : step s = s1.after i (exec i s1) := step_run s hs hrun
      refine ⟨fun t ht => ?_, fun f hf => ?_, fun r hr => ?_⟩
      · obtain ⟨late, others, h⟩ := after_next s1 t i
        exact ⟨late, others, by rw [hs1, ht, h]⟩
      · rw [hs1, hf, State.after]
      · rw [hs1, hr, State.after]
    refine ⟨fun hd => settleDrops_nil _ hd, decoded, fun s1 t hf => ?_, fun hlow hsize htop hmem => ?_⟩
    · have hrun := runTurn_error hat hh hi hnext (by rw [hu, same.th]; exact hf)
      rw [same.coreId, same.slot] at hrun
      exact step_run s hs hrun
    · have hspad : u.core.spad = s.core.spad := same.spad
      have hsz : u.core.spadSize = s.core.spadSize := congrArg (fun w => splitSpad w * 8192) same.carve
      have hspw : spw + (s.th.pc.toNat - spw) = s.th.pc.toNat := Nat.add_sub_cancel' hlow
      have hf := fetchAt_spad u (s.th.pc.toNat - spw)
      rw [hspad, hsz, hspw] at hf
      exact decoded u _ _ (hf hsize htop) hmem

end Sys2Proof.Machine
end

section
/-! SUPPORT. Strip-mining, convoy headers with lent lanes, and virtual processors (O40). -/

namespace Sys2Proof.Machine

/-! ## Strip-mining (R154) -/

/-- Some chosen pointer counts in half bytes. -/
theorem any_halfPointer (s : State) (sel : Word) :
    (List.range 8).any (fun j => sel.getLsbD j && rd s.th.psz (Fin.ofNat 8 j) == 4) = true ↔
      ∃ p : PReg, sel.getLsbD p.val = true ∧ rd s.th.psz p = 4 := by
  simp only [List.any_eq_true, List.mem_range, Bool.and_eq_true, beq_iff_eq]
  constructor
  · rintro ⟨j, hj, hs, hz⟩
    exact ⟨Fin.ofNat 8 j, by rwa [Fin.val_ofNat, Nat.mod_eq_of_lt hj], hz⟩
  · rintro ⟨p, hs, hz⟩
    exact ⟨p.val, p.isLt, hs, by rwa [show Fin.ofNat 8 p.val = p from Fin.ext (Nat.mod_eq_of_lt p.isLt)]⟩

theorem sizeTimes_natCast (sz : Fin 5) (n : Nat) :
    sizeTimes sz n = BitVec.ofNat 64 (if sz = 4 then n / 2 else n * 2 ^ sz.val) := by
  unfold sizeTimes
  split
  · rw [← BitVec.ofInt_natCast]; rfl
  · rw [← BitVec.ofInt_natCast]; congr 1

theorem rd_stepPointers (t : Thread) (sel : Word) (n : Nat) (p : PReg) :
    rd (t.stepPointers sel n).p p = if sel.getLsbD p.val then rd t.p p + sizeTimes (rd t.psz p) n else rd t.p p := by
  simp [Thread.stepPointers, rd]

/-- The vector length is granted, and the chosen pointers have moved past the old one. -/
def State.stripped (s : State) (sel : Word) (vl : Nat) : State :=
  { s with th := { s.th.stepPointers sel s.th.vec.vl with vec := { s.th.vec with vl } } }

section
variable (s : State) (sz : Fin 5) (d a : Reg) (k : KReg) (hv : s.th.vp = none)
include hv

theorem vstrip_broken (h : s.th.vec.vl % 2 = 1 ∧ ∃ p : PReg, (s.getK k).getLsbD p.val = true ∧ rd s.th.psz p = 4) :
    exec (.vstrip sz d a k) s = .next (s.fault Cause.resop) := by
  change execVstrip sz d a k s = _
  rw [execVstrip, notVp_outside s _ hv]
  dsimp only
  rw [if_pos ⟨h.1, (any_halfPointer s _).2 h.2⟩]

/-- Everything `vstrip` does where its pointers can move. -/
theorem vstrip_grants (h : ¬ (s.th.vec.vl % 2 = 1 ∧ ∃ p : PReg, (s.getK k).getLsbD p.val = true ∧ rd s.th.psz p = 4)) :
    let vl := grantVl (s.getS a).toNat s.vlen sz
    Completes (exec (.vstrip sz d a k) s) (fun t =>
      t.th.vec = { s.th.vec with vl } ∧ t.getS d = (if d = 0 then 0 else BitVec.ofNat 64 ((s.getS a).toNat - vl)) ∧
      (∀ q, q ≠ d → t.getS q = s.getS q) ∧
      (∀ p : PReg, (s.getK k).getLsbD p.val = true → t.getP p = s.getP p + sizeTimes (rd s.th.psz p) s.th.vec.vl) ∧
      (∀ p : PReg, ¬ (s.getK k).getLsbD p.val = true → t.getP p = s.getP p) ∧
      t.th = { s.th with s := t.th.s, p := t.th.p, vec := t.th.vec, pc := s.th.pc + 4 } ∧ OnlyThread s t) := by
  intro vl
  change Completes (execVstrip sz d a k s) _
  rw [execVstrip, notVp_outside s _ hv]
  dsimp only
  rw [if_neg (by rwa [any_halfPointer])]
  let v : Word := wd ((s.getS a).toNat - vl)
  change Completes (.next ((s.stripped (s.getK k) vl).result d v)) _
  obtain ⟨hval, hoth, hth, honly⟩ := result_writesS (s.stripped (s.getK k) vl) d v
  have hp (p : PReg) : ((s.stripped (s.getK k) vl).result d v).getP p = rd (s.th.stepPointers (s.getK k) s.th.vec.vl).p p :=
    congrArg (rd · p) (State.result_th_p ..)
  refine completes_next ⟨State.result_th_vec .., hval, hoth, fun p h => ?_, fun p h => ?_, ?_,
    OnlyThread.of_eq honly.rest (State.result_th_acqL1 ..) (State.result_th_acqRdc ..) (State.result_th_level ..)⟩
  · exact (hp p).trans ((rd_stepPointers ..).trans (if_pos h))
  · exact (hp p).trans ((rd_stepPointers ..).trans (if_neg h))
  · rw [State.result_th_p, State.result_th_vec]; exact hth

end
/-! ## The siblings of the thread in focus (R37) -/

theorem look_map_val (l : List (Nat × α)) (f : Nat → α → β) (k : Nat) :
    look (l.map (fun p => (p.1, f p.1 p.2))) k = (look l k).map (f k) := by
  induction l with
  | nil => rfl
  | cons p l ih =>
    by_cases h : p.1 = k
    · simp [look, h]
    · simpa [look, h] using ih

theorem threadAt_sibling (s : State) {j : Nat} (h : j ≠ s.slot.val) :
    s.threadAt s.coreId j = (look s.core.parked j).getD (.reset s.coreId j) := by
  simp [State.threadAt, h]

/-- The state with every parked thread of the core in focus changed, by its slot. -/
def State.onSiblings (s : State) (f : Nat → Thread → Thread) : State :=
  { s with core := { s.core with parked := s.core.parked.map (fun p => (p.1, f p.1 p.2)) } }

/-- A change that leaves the empty thread of a slot as it is changes each sibling. -/
theorem threadAt_onSiblings (s : State) (f : Nat → Thread → Thread) {j : Nat} (h : j ≠ s.slot.val)
    (hf : f j (.reset s.coreId j) = .reset s.coreId j) : (s.onSiblings f).threadAt s.coreId j = f j (s.threadAt s.coreId j) := by
  have hl := threadAt_sibling (s.onSiblings f) h
  refine hl.trans ?_
  rw [threadAt_sibling s h]
  simp only [State.onSiblings, look_map_val]
  cases look s.core.parked j with
  | none => exact hf.symm
  | some t => rfl

/-- What a convoy becomes when thread i takes back the lanes that it has lent. -/
def Convoy.takenBack (i : Fin 4) (c : Convoy) : Convoy := if c.lender = some i then { c with lane0 := 0, lender := none } else c

theorem reclaimLanes_eq (s : State) : s.reclaimLanes = s.onSiblings (fun _ t => t.onConvoy (·.takenBack s.slot)) := rfl

theorem threadAt_reclaimLanes (s : State) {j : Nat} (h : j ≠ s.slot.val) :
    s.reclaimLanes.threadAt s.coreId j = (s.threadAt s.coreId j).onConvoy (·.takenBack s.slot) := by
  rw [reclaimLanes_eq, threadAt_onSiblings s _ h rfl]

theorem markLent_eq (s : State) (j : Fin 4) :
    s.markLent j = s.onSiblings (fun i t => if i = j.val then t.onConvoy (fun c => { c with lent := true }) else t) := rfl

theorem threadAt_markLent (s : State) (j : Fin 4) {i : Nat} (h : i ≠ s.slot.val) :
    (s.markLent j).threadAt s.coreId i =
      if i = j.val then (s.threadAt s.coreId i).onConvoy (fun c => { c with lent := true }) else s.threadAt s.coreId i := by
  rw [markLent_eq, threadAt_onSiblings s _ h (by split <;> rfl)]

/-- Counting back from a slot comes to every other one. -/
theorem sibling_counted : ∀ i j : Fin 4, j ≠ i → ∃ d ∈ [3, 2, 1], (i.val + d) % 4 = j.val := by decide

theorem counted_sibling : ∀ i : Fin 4, ∀ d ∈ [3, 2, 1], Fin.ofNat 4 ((i.val + d) % 4) ≠ i := by decide

theorem canLend_iff (c : Convoy) (n vl : Nat) : c.canLend n vl = true ↔ c.lent = false ∧ c.lender = none ∧ c.vl + vl ≤ n := by
  simp [Convoy.canLend, and_assoc]

/-- A sibling lends only lanes that suffice, of a convoy that lends and borrows none. -/
theorem lenderFor_some (s : State) {vl n : Nat} {j : Fin 4} (h : s.lenderFor vl = some (j, n)) :
    j ≠ s.slot ∧ ∃ o, (s.threadAt s.coreId j.val).convoy = some o ∧ o.canLend s.nLanes vl = true ∧ n = o.vl := by
  obtain ⟨d, hd, hx⟩ := List.exists_of_findSome?_eq_some h
  dsimp only at hx
  split at hx
  · next c hc =>
    split at hx
    · next hl =>
      simp only [Option.some.injEq, Prod.mk.injEq] at hx
      obtain ⟨rfl, rfl⟩ := hx
      have hv : (Fin.ofNat 4 ((s.slot.val + d) % 4)).val = (s.slot.val + d) % 4 := by simp
      exact ⟨counted_sibling s.slot d hd, c, by rw [hv]; exact hc, (Bool.and_eq_true _ _ ▸ hl).2, rfl⟩
    · cases hx
  · cases hx

/-- With no lender, no thread of the core has idle lanes that suffice. -/
theorem lenderFor_none (s : State) {vl : Nat} (h : s.lenderFor vl = none) {j : Fin 4} (hj : j ≠ s.slot) {o : Convoy}
    (ho : (s.threadAt s.coreId j.val).occ = true) (hc : (s.threadAt s.coreId j.val).convoy = some o) : o.canLend s.nLanes vl = false := by
  obtain ⟨d, hd, e⟩ := sibling_counted s.slot j hj
  have hx := List.findSome?_eq_none_iff.1 h d hd
  dsimp only at hx
  rw [e] at hx
  simpa [hc, ho] using hx

/-! ## A convoy's header (R155, R178, R188, R190) -/

theorem parkVp_pc (t : Thread) : t.parkVp.pc = t.pc := by unfold Thread.parkVp; split <;> (try split) <;> rfl
theorem parkVp_vec (t : Thread) : t.parkVp.vec = t.vec := by unfold Thread.parkVp; split <;> (try split) <;> rfl
theorem parkVp_vp_none (t : Thread) (h : t.vp = none) : t.parkVp = t := by simp only [Thread.parkVp, h]

theorem parkVp_vp_some (t : Thread) {v : VpState} (h : t.vp = some v) : ∃ w, t.parkVp.vp = some w ∧ w.vl = v.vl := by
  unfold Thread.parkVp
  simp only [h]
  split
  · exact ⟨v, h, rfl⟩
  · exact ⟨_, rfl, rfl⟩

/-- A header reads the same VL before and after the VP in focus is put back. -/
theorem parkVp_issueVl (t : Thread) : t.parkVp.issueVl = t.issueVl := by
  cases h : t.vp with
  | none => rw [parkVp_vp_none t h]
  | some v =>
    obtain ⟨w, hw, hl⟩ := parkVp_vp_some t h
    simp only [Thread.issueVl, hw, h, hl]

theorem groupPc_rest (t : Thread) (pc : Word) : t.groupPc pc = { t with vp := (t.groupPc pc).vp } := by
  unfold Thread.groupPc; split <;> rfl

theorem groupPc_vp_none (t : Thread) (pc : Word) (h : t.vp = none) : (t.groupPc pc).vp = none := by
  simp only [Thread.groupPc, h]

/-- The members of the served group stand at the address, the other VPs where they stood. -/
theorem groupPc_vp_some (t : Thread) (pc : Word) {v : VpState} (h : t.vp = some v) :
    ∃ w, (t.groupPc pc).vp = some w ∧ w = { v with todo := [], vps := w.vps } ∧
      ∀ i : Nat, w.vps[i]? = (v.vps[i]?).map (fun x => if i ∈ v.group then { x with pc } else x) := by
  refine ⟨{ v with todo := [], vps := v.vps.mapIdx (fun i x => if v.group.contains i then { x with pc } else x) }, ?_, rfl, fun i => ?_⟩
  · simp only [Thread.groupPc, h]
  · simp [List.getElem?_mapIdx]

/-- The siblings once a header has issued: lanes lent by the thread in focus are taken back, and those of the lender are lent. -/
def State.siblingsAfter (s : State) (lender : Option (Fin 4)) : State :=
  match lender with
  | none => s.reclaimLanes
  | some j => s.reclaimLanes.markLent j

/-- What the convoy of a sibling becomes as a header issues on slot i. -/
def Convoy.afterIssue (c : Convoy) (i : Fin 4) (lends : Bool) : Convoy := { c with
  lane0 := if c.lender = some i then 0 else c.lane0
  lender := if c.lender = some i then none else c.lender
  lent := if lends then true else c.lent }

theorem afterIssue_of_takenBack (c : Convoy) (i : Fin 4) : c.takenBack i = c.afterIssue i false := by
  unfold Convoy.takenBack Convoy.afterIssue
  split <;> simp [*]

theorem threadAt_siblingsAfter (s : State) (lender : Option (Fin 4)) {j : Fin 4} (h : j ≠ s.slot) :
    (s.siblingsAfter lender).threadAt s.coreId j.val =
      (s.threadAt s.coreId j.val).onConvoy (·.afterIssue s.slot (decide (lender = some j))) := by
  have hj : j.val ≠ s.slot.val := fun e => h (Fin.ext e)
  have hback := threadAt_reclaimLanes s hj
  cases lender with
  | none =>
    refine hback.trans ?_
    simp only [afterIssue_of_takenBack]
    rfl
  | some l =>
    have hm : (s.reclaimLanes.markLent l).threadAt s.coreId j.val = _ := threadAt_markLent s.reclaimLanes l hj
    refine hm.trans ?_
    have hc : s.reclaimLanes.coreId = s.coreId := rfl
    rw [hc, hback]
    by_cases e : j = l
    · subst e
      simp only [if_true, decide_true, Thread.onConvoy, Option.map_map, afterIssue_of_takenBack]
      rfl
    · have e1 : ¬ j.val = l.val := fun x => e (Fin.ext x)
      have e2 : ¬ (some l = some j) := fun x => e (Option.some.inj x).symm
      simp only [e1, e2, if_false, decide_false, afterIssue_of_takenBack]

theorem siblingsAfter_rest (s : State) (lender : Option (Fin 4)) :
    s.siblingsAfter lender = { s with core := { s.core with parked := (s.siblingsAfter lender).core.parked } } := by
  cases lender <;> rfl

/-- A sibling does not depend on the thread in focus. -/
theorem threadAt_withTh (s : State) (x : Thread) {j : Fin 4} (h : j ≠ s.slot) :
    ({ s with th := x } : State).threadAt s.coreId j.val = s.threadAt s.coreId j.val := by
  have hj : j.val ≠ s.slot.val := fun e => h (Fin.ext e)
  rw [threadAt_sibling s hj]
  exact threadAt_sibling _ hj

/-- The siblings once a header has issued, whatever the thread in focus has become. -/
theorem threadAt_issued (s : State) (lender : Option (Fin 4)) (x : Thread) {j : Fin 4} (h : j ≠ s.slot) :
    ({ s.siblingsAfter lender with th := x } : State).threadAt s.coreId j.val =
      (s.threadAt s.coreId j.val).onConvoy (·.afterIssue s.slot (decide (lender = some j))) := by
  have hx : ({ s.siblingsAfter lender with th := x } : State).threadAt s.coreId j.val = (s.siblingsAfter lender).threadAt s.coreId j.val := by
    cases lender <;> exact threadAt_withTh _ x h
  exact hx.trans (threadAt_siblingsAfter s lender h)

/-- A header issues on its own lanes where none can be lent, else on those of the lender. -/
theorem issueConvoy_eq (s : State) (units : List (Fin 7)) (slots : List (BitVec 64)) :
    ∃ (lane0 : Nat) (lender : Option (Fin 4)),
      s.issueConvoy units slots = { s.siblingsAfter lender with th := s.th.issueConvoy units slots lane0 lender } ∧
      (lender = none → lane0 = 0 ∧ s.reclaimLanes.lenderFor s.th.issueVl = none) ∧
      (∀ j, lender = some j → s.reclaimLanes.lenderFor s.th.issueVl = some (j, lane0)) := by
  have hth : s.reclaimLanes.th = s.th := rfl
  cases h : s.reclaimLanes.lenderFor s.th.issueVl with
  | none =>
    refine ⟨0, none, ?_, fun _ => ⟨rfl, rfl⟩, nofun⟩
    simp only [State.issueConvoy, hth, h, State.siblingsAfter]
  | some p =>
    refine ⟨p.2, some p.1, ?_, nofun, fun j e => by cases e; rfl⟩
    simp only [State.issueConvoy, hth, h, State.siblingsAfter]

/-- The convoy of a header that has issued. -/
def Thread.issuedConvoy (t : Thread) (units : List (Fin 7)) (slots : List (BitVec 64)) (lane0 : Nat) (lender : Option (Fin 4)) : Convoy :=
  { hdr := t.pc, units, slots, next := 0, vl := t.issueVl, rm := t.vec.rm, after := t.pc + wd (4 + 8 * slots.length), lane0, lender
    lent := false }

theorem issueConvoy_th (t : Thread) (units : List (Fin 7)) (slots : List (BitVec 64)) (lane0 : Nat) (lender : Option (Fin 4)) :
    t.issueConvoy units slots lane0 lender = { t with
      pc := t.pc + wd (4 + 8 * slots.length), convoy := some (t.issuedConvoy units slots lane0 lender)
      vp := (t.groupPc (t.pc + wd (4 + 8 * slots.length))).vp } := by
  rw [Thread.issueConvoy, groupPc_rest]
  rfl

/-! ## The outcomes of a header -/

theorem not_waits (s : State) (units : List (Fin 7)) (hq : s.matBusy = false ∨ ∀ u ∈ units, u = 6) :
    ¬ (units.any (fun u => u != 6) && s.matBusy) = true := by
  rcases hq with h | h
  · simp [h]
  · simpa using fun u hu hne => absurd (h u hu) hne

section
variable (s : State) (units : List (Fin 7)) (slots : List (BitVec 64))

theorem convoyIssue_unsafe (hv : s.th.vp ≠ none) (h : vpSafeConvoy units slots = false) :
    exec (.convoyIssue units slots) s = .next (s.fault Cause.illegal) := by
  change execConvoyIssue units slots s = _
  have hin : s.inVp = true := Option.isSome_iff_ne_none.2 hv
  rw [execConvoyIssue, hin, h]
  rfl

variable (hs : s.th.vp = none ∨ vpSafeConvoy units slots = true)
include hs

/-- A header that may stand where it does waits, raises RESOP or issues. -/
theorem convoyIssue_eq : exec (.convoyIssue units slots) s = .next (
    if units.any (fun u => u != 6) && s.matBusy then s
    else if units.contains 1 && s.core.mat.mode != .v then s.fault Cause.resop
    else s.parkVp.issueConvoy units slots) := by
  change execConvoyIssue units slots s = _
  have h : (s.inVp && !vpSafeConvoy units slots) = false := by
    rcases hs with h | h <;> simp [State.inVp, h]
  rw [execConvoyIssue, h]
  rfl

theorem convoyIssue_waits (hu : ∃ u ∈ units, u ≠ 6) (hb : s.matBusy = true) : exec (.convoyIssue units slots) s = .next s := by
  rw [convoyIssue_eq s units slots hs, if_pos (by simpa [hb] using hu)]

variable (hq : s.matBusy = false ∨ ∀ u ∈ units, u = 6)
include hq

theorem convoyIssue_resop (hf : 1 ∈ units) (hm : s.core.mat.mode ≠ .v) :
    exec (.convoyIssue units slots) s = .next (s.fault Cause.resop) := by
  rw [convoyIssue_eq s units slots hs, if_neg (not_waits s units hq), if_pos (by simp [hf, hm])]

theorem convoyIssue_issues (hm : 1 ∈ units → s.core.mat.mode = .v) :
    exec (.convoyIssue units slots) s = .next (s.parkVp.issueConvoy units slots) := by
  have h : ¬ (units.contains 1 && s.core.mat.mode != .v) = true := by simpa using hm
  rw [convoyIssue_eq s units slots hs, if_neg (not_waits s units hq), if_neg h]

end

/-- With no lender for the thread in focus, a sibling's convoy that borrows no lanes has none that suffice. -/
theorem noLender (s : State) {vl : Nat} (h : s.reclaimLanes.lenderFor vl = none) {j : Fin 4} {o : Convoy} (hj : j ≠ s.slot)
    (hocc : (s.threadAt s.coreId j.val).occ = true) (hc : (s.threadAt s.coreId j.val).convoy = some o) (hl : o.lender = none) :
    ¬ (o.lent = false ∧ o.vl + vl ≤ s.nLanes) := by
  rintro ⟨hlent, hfit⟩
  have hr := threadAt_reclaimLanes s (fun e => hj (Fin.ext e) : j.val ≠ s.slot.val)
  have hback : o.takenBack s.slot = o := by simp [Convoy.takenBack, hl]
  have hn := lenderFor_none s.reclaimLanes h (j := j) (o := o) hj (by rw [show s.reclaimLanes.coreId = s.coreId from rfl, hr]; exact hocc)
    (by rw [show s.reclaimLanes.coreId = s.coreId from rfl, hr, Thread.onConvoy, hc, Option.map_some, hback])
  have hcan : o.canLend s.reclaimLanes.nLanes vl = true := (canLend_iff ..).2 ⟨hlent, hl, hfit⟩
  rw [hcan] at hn
  cases hn

/-- The lender's convoy has lent no lanes before, and its idle ones suffice. -/
theorem lender_lends (s : State) {vl n : Nat} {j : Fin 4} (h : s.reclaimLanes.lenderFor vl = some (j, n)) :
    j ≠ s.slot ∧ ∃ o, (s.threadAt s.coreId j.val).convoy = some o ∧ o.lent = false ∧ o.vl + vl ≤ s.nLanes ∧ n = o.vl := by
  obtain ⟨hj, q, hq, hcan, rfl⟩ := lenderFor_some s.reclaimLanes h
  have hr := threadAt_reclaimLanes s (fun e => hj (Fin.ext e) : j.val ≠ s.slot.val)
  rw [show s.reclaimLanes.coreId = s.coreId from rfl, hr] at hq
  obtain ⟨o, ho, rfl⟩ := Option.map_eq_some_iff.1 hq
  obtain ⟨hlent, -, hfit⟩ := (canLend_iff ..).1 hcan
  rw [afterIssue_of_takenBack] at hlent hfit ⊢
  exact ⟨hj, o, ho, hlent, hfit, rfl⟩

/-! ## Virtual processors (R34, R178, R179) -/

section
variable (s : State) (msk : Option (Fin 8)) (a : Reg)

theorem vfetch_ialign (h : (s.getS a).toNat % 4 ≠ 0) :
    exec (.vfetch msk a) s = .next (s.fault (Cause.ialign (s.getS a))) := by
  change execVfetch msk a s = _
  simp only [execVfetch, h, ne_eq, not_false_eq_true, if_true]

theorem vfetch_aligned (h : (s.getS a).toNat % 4 = 0) : exec (.vfetch msk a) s = .next (s.notVp (
    let acts := (List.range s.th.vec.vl).filter (s.active msk)
    if acts.isEmpty then s.setPc (s.getS a + 4) else { s with th := s.th.startVps acts (s.getS a) })) := by
  change execVfetch msk a s = _
  simp only [execVfetch, h, ne_eq, not_true_eq_false, if_false]

theorem vfetch_inside (h : (s.getS a).toNat % 4 = 0) (hv : s.th.vp ≠ none) :
    exec (.vfetch msk a) s = .next (s.fault Cause.illegal) := by
  rw [vfetch_aligned s msk a h, notVp_illegal s _ hv]

theorem vfetch_empty (h : (s.getS a).toNat % 4 = 0) (hv : s.th.vp = none) (he : (List.range s.th.vec.vl).filter (s.active msk) = []) :
    Completes (exec (.vfetch msk a) s) (GoesTo s (s.getS a + 4)) := by
  rw [vfetch_aligned s msk a h, notVp_outside s _ hv]
  simp only [he, List.isEmpty_nil, if_true]
  exact completes_next (setPc_goesTo ..)

theorem vfetch_starts (h : (s.getS a).toNat % 4 = 0) (hv : s.th.vp = none) (he : (List.range s.th.vec.vl).filter (s.active msk) ≠ []) :
    exec (.vfetch msk a) s = .next { s with
      th := s.th.startVps ((List.range s.th.vec.vl).filter (s.active msk)) (s.getS a) } := by
  rw [vfetch_aligned s msk a h, notVp_outside s _ hv]
  simp only [List.isEmpty_eq_false_iff.2 he, Bool.false_eq_true, if_false]

end

/-- The phase that `vfetch` starts: the copies of every VP are the thread's registers. -/
theorem startVps_vp (t : Thread) (acts : List Nat) (join : Word) : ∃ v, t.startVps acts join = { t with vp := some v } ∧
    v.vl = t.vec.vl ∧ v.join = join ∧ v.group = acts ∧ v.s = t.s ∧ v.k = t.k ∧ v.vps.length = t.vec.vl ∧
    ∀ (i : Nat) (x : Vp), v.vps[i]? = some x →
      x.pc = t.pc + 4 ∧ x.s = t.s ∧ x.k = t.k ∧ x.stopped = false ∧ (x.never = false ↔ i ∈ acts) := by
  refine ⟨_, rfl, rfl, rfl, rfl, rfl, rfl, by simp, fun i x hx => ?_⟩
  simp only [List.getElem?_map, Option.map_eq_some_iff] at hx
  obtain ⟨j, hj, rfl⟩ := hx
  obtain ⟨hlt, e⟩ := List.getElem?_eq_some_iff.1 hj
  rw [List.getElem_range] at e
  subst e
  simp

/-- A VP with the thread's registers as its copies. -/
def Vp.taking (x : Vp) (t : Thread) : Vp := { x with pc := t.pc, s := t.s, k := t.k, acqL1 := t.acqL1, acqRdc := t.acqRdc }

/-- The phase with VP i put back, and no VP in the thread's registers. -/
def VpState.putBack (v : VpState) (t : Thread) (i : Nat) : VpState := { v with vps := v.vps.modify i (·.taking t), cur := none }

/-- The copies of the VPs once VP i has stopped. -/
theorem stopped_vps (t : Thread) {v : VpState} {i : Nat} {x : Vp} (hx : v.vps[i]? = some x) (j : Nat) :
    ((v.putBack t i).vps.modify i (fun x => { x with stopped := true }))[j]? =
      if j = i then some { x.taking t with stopped := true } else v.vps[j]? := by
  by_cases h : j = i
  · subst h; simp [VpState.putBack, hx]
  · simp [VpState.putBack, h, Ne.symm h]

section
variable (s : State) {v : VpState} {i : Nat} {x : Vp} (hv : s.th.vp = some v) (hi : v.cur = some i) (hx : v.vps[i]? = some x)
  (hpc : s.th.pc = v.join)

include hv hi in
theorem parkVp_loaded : s.th.parkVp = { s.th with
    s := v.s, k := v.k, acqL1 := v.acqL1, acqRdc := v.acqRdc, vp := some (v.putBack s.th i) } := by
  simp only [Thread.parkVp, hv, hi]
  rfl

include hv hi hpc

/-- The VP in focus stops at the join that `vfetch` named. -/
theorem vpjoin_stops : exec .vpjoin s = .next { s with th := s.th.parkVp.stopVp (v.putBack s.th i) i } := by
  change execVpjoin s = _
  have hidx : s.vpIndex = some i := by simp only [State.vpIndex, hv, hi]
  have hp : s.parkVp.th.vp = some (v.putBack s.th i) := congrArg Thread.vp (parkVp_loaded s hv hi)
  have hj : ¬ s.th.pc ≠ (v.putBack s.th i).join := not_not.2 hpc
  simp only [execVpjoin, hidx, hp, if_neg hj]
  rfl

include hx

/-- The last VP to stop leaves the phase, with the thread's own registers. -/
theorem vpjoin_last (hall : ∀ j y, v.vps[j]? = some y → j ≠ i → y.stopped = true ∨ y.never = true) :
    Completes (exec .vpjoin s) (fun t =>
      t.th = { s.th with s := v.s, k := v.k, acqL1 := v.acqL1, acqRdc := v.acqRdc, pc := v.join + 4, vp := none } ∧
      t = { s with th := t.th }) := by
  have hdone : ((v.putBack s.th i).vps.modify i (fun x => { x with stopped := true })).all Vp.done = true := by
    rw [List.all_eq_true]
    intro y hy
    obtain ⟨j, hj⟩ := List.getElem?_of_mem hy
    rw [stopped_vps s.th hx] at hj
    split at hj
    · cases hj; simp [Vp.done]
    · next hne => simpa [Vp.done] using hall j y hj hne
  rw [vpjoin_stops s hv hi hpc, Thread.stopVp]
  dsimp only
  rw [if_pos hdone, parkVp_loaded s hv hi]
  exact completes_next ⟨rfl, rfl⟩

/-- While another VP goes on, the phase does. -/
theorem vpjoin_other (hsome : ∃ j y, v.vps[j]? = some y ∧ j ≠ i ∧ y.stopped = false ∧ y.never = false) :
    Completes (exec .vpjoin s) (fun t => ∃ w, t.th.vp = some w ∧ w.vps[i]? = some { x.taking s.th with stopped := true } ∧
      (∀ j, j ≠ i → w.vps[j]? = v.vps[j]?) ∧ t.th.pc = s.th.pc ∧ t = { s with th := t.th }) := by
  have hvps := stopped_vps s.th hx
  have hdone : ¬ ((v.putBack s.th i).vps.modify i (fun x => { x with stopped := true })).all Vp.done = true := by
    obtain ⟨j, y, hj, hne, hst, hnv⟩ := hsome
    have hy := (hvps j).trans (if_neg hne)
    rw [hj] at hy
    intro hall
    have := List.all_eq_true.1 hall y (List.mem_of_getElem? hy)
    simp [Vp.done, hst, hnv] at this
  rw [vpjoin_stops s hv hi hpc, Thread.stopVp]
  dsimp only
  rw [if_neg hdone]
  exact completes_next ⟨_, rfl, (hvps i).trans (if_pos rfl), fun j hj => (hvps j).trans (if_neg hj), parkVp_pc s.th, rfl⟩

end

/-- What a fetched block holds of the instructions that are not VP-safe as slots. -/
theorem vpSafeSlot_false (f : VF) : ∀ i ∈ ([.vmpop f, .vmfirst f, .viota f, .vslideup f, .vslidedn f, .vperm f, .vcompress f, .vbcast f,
    .vtoo f, .vredsum f, .vredmin f, .vredmax f, .vredand f, .vredor f, .vredxor f, .vldff f, .vldo f, .ldt f] : List Instr),
    vpSafeSlot i = false := by
  simp [vpSafeSlot]

theorem vpjoin_outside (s : State) (hv : s.th.vp = none) : exec .vpjoin s = .next (s.fault Cause.illegal) := by
  change execVpjoin s = _
  simp only [execVpjoin, State.vpIndex, hv]

/-- Settles O40: each clause is the lemma about its instruction. -/
theorem convoysAndVirtualProcessors : Obligations.ConvoysAndVirtualProcessors := by
  intro s sz d a k units slots msk
  refine ⟨fun hv => ⟨vstrip_broken s sz d a k hv, ?strip⟩, ⟨convoyIssue_unsafe s units slots, fun hs => ⟨convoyIssue_waits s units slots hs,
    fun hq => ⟨convoyIssue_resop s units slots hs hq, fun hm => ?issues⟩⟩, vpSafeSlot_false⟩,
    fun hv => ⟨vfetch_ialign s msk a, fun h he => vfetch_empty s msk a h hv he, fun h he => ?starts, vpjoin_outside s hv⟩,
    fun hv => ⟨vfetch_ialign s msk a, fun h => vfetch_inside s msk a h hv, notVp_illegal s _ hv⟩,
    fun v i x hv hi hx hpc => ⟨vpjoin_last s hv hi hx hpc, vpjoin_other s hv hi hx hpc⟩⟩
  case strip =>
    intro h
    obtain ⟨t, ht, hvec, hd, hs, hp, hp', hth, honly⟩ := vstrip_grants s sz d a k hv h
    exact ⟨t, ht, hvec, hd, hs, fun p h => by rw [hp p h, sizeTimes_natCast], hp', hth, honly⟩
  case starts =>
    obtain ⟨v, hth, hvl, hjoin, hgroup, hs, hk, hlen, hvps⟩ := startVps_vp s.th ((List.range s.th.vec.vl).filter (s.active msk)) (s.getS a)
    rw [vfetch_starts s msk a h hv he]
    exact completes_next ⟨v, hth, by rw [hth]; exact OnlyThread.of_eq rfl rfl rfl rfl, hvl, hjoin, hgroup, hs, hk, hlen, hvps⟩
  case issues =>
    have hwith {j : Fin 4} (hj : j ≠ s.slot) := threadAt_withTh s s.th.parkVp hj
    obtain ⟨lane0, lender, ht, hown, hlent⟩ := issueConvoy_eq s.parkVp units slots
    have hsib {j : Fin 4} (hj : j ≠ s.slot) := (threadAt_issued s.parkVp lender
      (s.parkVp.th.issueConvoy units slots lane0 lender) hj).trans (congrArg (Thread.onConvoy · _) (hwith hj))
    rw [← ht] at hsib
    have hvl : s.th.parkVp.issueVl = s.th.issueVl := parkVp_issueVl s.th
    have hth : (s.parkVp.issueConvoy units slots).th = s.th.parkVp.issueConvoy units slots lane0 lender := by rw [ht]; rfl
    have hafter : s.th.parkVp.pc + wd (4 + 8 * slots.length) = s.th.pc + BitVec.ofNat 64 (4 + 8 * slots.length) := by rw [parkVp_pc]; rfl
    rw [issueConvoy_th, hafter] at hth
    refine ⟨_, convoyIssue_issues s units slots hs hq hm, s.th.parkVp.issuedConvoy units slots lane0 lender,
      parkVp_pc .., rfl, rfl, rfl, congrArg VecState.rm (parkVp_vec ..), hafter, rfl, ?vl, ?phase, fun he => ⟨(hown he).1, ?none⟩, ?lends,
      ?th, ?outside, ?group, ?rest, ?siblings⟩
    case vl => exact fun hv => hvl.trans (by simp only [Thread.issueVl, hv])
    case phase => exact fun v hv => hvl.trans (by simp only [Thread.issueVl, hv])
    case none =>
      rintro j o hocc hl ⟨hj, hc, hlent, hfit⟩
      refine noLender s.parkVp (hown he).2 hj ?_ ?_ hl ⟨hlent, hfit⟩
      · exact (congrArg Thread.occ (hwith hj)).trans hocc
      · exact (congrArg Thread.convoy (hwith hj)).trans hc
    case lends =>
      intro j he
      obtain ⟨hj, o, hc, hlo, hfit, h0⟩ := lender_lends s.parkVp (hlent j he)
      exact ⟨o, ⟨hj, (congrArg Thread.convoy (hwith hj)).symm.trans hc, hlo, hfit⟩, h0⟩
    case th => rw [hth]
    case outside => exact fun hv => by rw [hth, parkVp_vp_none s.th hv]; exact groupPc_vp_none _ _ hv
    case group => exact fun v hv => by rw [hth]; exact groupPc_vp_some _ _ hv
    case rest => rw [ht, siblingsAfter_rest]; rfl
    case siblings =>
      intro j hj
      have h := hsib hj
      have hconv := congrArg Thread.convoy h
      refine ⟨?_, fun hc => ?_, fun o hc => ?_⟩
      · exact h.trans (congrArg (fun c => ({ s.threadAt s.coreId j.val with convoy := c } : Thread)) hconv.symm)
      · exact hconv.trans (congrArg (Option.map _) hc)
      · have hl : (if decide (lender = some j) = true then true else o.lent) = if lender = some j then true else o.lent := by simp
        exact (hconv.trans (congrArg (Option.map _) hc)).trans (congrArg (fun b => some ({ o with
          lane0 := if o.lender = some s.slot then 0 else o.lane0
          lender := if o.lender = some s.slot then none else o.lender
          lent := b } : Convoy)) hl)

end Sys2Proof.Machine
end

section
/-! SUPPORT. A state whose media are out of order (log 4), in which a byte that an engine writes uncovers another byte of device memory. -/

namespace Sys2Proof.Machine

/-! ## An engine's write over media out of order -/

/-- A copy command whose accesses go through tables at 0x2000. -/
def strayCommand : ECmd :=
  { id := 0, kind := .cpy, die := 0, eng := 0, blk := 0, counter := 0, ctx := 0, root := 0x2000, level := 0, core := 0, sent := 0, counted := 0 }

/-- The one sector that L2 holds, newer than the media: zeros, of a line in set 0, as line 0 is. -/
def straySector : L2Sector := { addr := 0x42000, way := 0, data := 0, dmask := BitVec.allOnes 32, poison := false }

/-- A table at 0x2000 that points to one at 0x1000, whose first entry is a page of 1 GiB at 0; behind them a byte of `straySector`,
and behind this, out of order and so not read, a byte at 0x4000. -/
def strayMedia : Mem := [(0x1000, 0x17), (0x2000, 0x01), (0x2001, 0x10), (0x840000, 1), (0x4000, 7)]

/-- The machine after reset with this command and these memories; slice scratch has left one way of L2 in slice 0. -/
def strayState : State :=
  { State.reset with
    fab := { Fabric.reset with cmds := [strayCommand] }
    store := { Store.reset with media := strayMedia, l2 := [straySector], sscr := [(0, 15)] } }

/-- The state once the command's walk for address 0 has read its two entries. -/
def strayWalked : State := strayState.walked (strayState.walk 0 strayCommand.rights).2

/-- Such a state is none that a step leads to from reset: `MemInv` asks for media in order. -/
theorem strayMedia_not_wf : strayMedia.wf = false := by decide

theorem strayState_xlateOf : strayState.xlateOf 0 .write strayCommand.rights = .ok 0 false := by decide

theorem strayWalked_place : strayWalked.place 0 = .media 0 := by decide

theorem strayWalked_engineCut : strayWalked.engineCut strayCommand.die 0 = false := by decide

/-- The line that the command writes is exclusive nowhere and holds no PENDING record. -/
theorem strayWalked_settled : strayWalked.Settled 0 := by
  refine ⟨fun n => ?_, fun k hk => absurd (show k ∈ ([] : List LTask) from hk) List.not_mem_nil⟩
  by_cases hn : n = strayWalked.coreId
  · rw [hn, coreAt_self]; rfl
  · rw [State.coreAt, if_neg hn]; rfl

/-- L2 does not hold line 0, and line 128 is of another set. -/
theorem strayLine_apart : l2Set (0x4000 / 128) ≠ l2Set (0 / 128) := by decide

theorem strayWalked_homeByte : strayWalked.homeByte 0x4000 = 0 := by decide

/-- The write of byte 0 sends `straySector` to the media, where its zeros take away the entry before that of 0x4000. -/
theorem strayState_engineWrite_homeByte : (strayState.engineWrite strayCommand 0 1 0 false).1.homeByte 0x4000 = 7 := by decide

/-- Refutes O55: the clause on what an engine writes asks that no byte of another set changes, and does not ask that the media of
the state `v` be in canonical order (log 4). Where they are not, the line that leaves L2 for a write of byte 0 uncovers the byte at 0x4000. -/
theorem not_queueLiftAndEngineSteps : ¬ Obligations.QueueLiftAndEngineSteps := by
  intro h
  obtain ⟨-, -, -, -, -, -, -, -, hcmd⟩ := h strayState
  obtain ⟨-, -, haccess, -⟩ := hcmd strayCommand rfl
  obtain ⟨-, houtside⟩ := haccess strayState 0 1
  obtain ⟨-, -, hmedia⟩ := houtside (by decide) (by decide)
  obtain ⟨-, hopen⟩ := hmedia 0 false 0 strayWalked_place (by decide) (by decide) strayWalked_settled
  obtain ⟨-, hwrites⟩ := hopen strayWalked_engineCut
  obtain ⟨v1, hv1, -, hframe, -⟩ := hwrites 0 false strayState_xlateOf
  have hkept : v1.homeByte 0x4000 = strayWalked.homeByte 0x4000 :=
    hframe 0x4000 (by decide) (fun l hl => .inr (.inr (List.mem_singleton.1 hl ▸ strayLine_apart)))
  have hchanged : v1.homeByte 0x4000 = 7 := by
    rw [← show (strayState.engineWrite strayCommand 0 1 0 false).1 = v1 from congrArg Prod.fst hv1]
    exact strayState_engineWrite_homeByte
  rw [hchanged, strayWalked_homeByte] at hkept
  exact absurd hkept (by decide)

end Sys2Proof.Machine
end

section
/-! SUPPORT. The encoder and the decoder agree (O59, O57). First what each code table gives back, then the fields of each word format,
then one lemma for each format that takes a decoder's answer on those fields to the whole word; the statement is assembled by constructor. -/

namespace Sys2Proof

/-! ## Codes of single fields (R55–R58, R122) -/

@[simp] theorem reg_val (r : Reg) : reg r.val = r := Fin.ext (Nat.mod_eq_of_lt r.isLt)
@[simp] theorem reg_zero : reg 0 = 0 := rfl
theorem reg_val_of_lt {n : Nat} (h : n < 32) : (reg n).val = n := Nat.mod_eq_of_lt h
@[simp] theorem kreg_reg (k : KReg) : kreg (reg k.val).val = some k := by simp [kreg, reg_val_of_lt (Nat.lt_trans k.isLt (by decide))]
@[simp] theorem preg_reg (p : Fin 8) : preg (reg p.val).val = some p := by simp [preg, reg_val_of_lt (Nat.lt_trans p.isLt (by decide))]
@[simp] theorem bitOf_bitCode (b : Bool) : bitOf (bitCode b) = b := by cases b <;> rfl
theorem bitCode_lt (b : Bool) : bitCode b < 2 := by cases b <;> decide

/-- Two flags in the low bits of a field. -/
theorem bitCode_pair (x y : Bool) :
    (2 * bitCode x + bitCode y) % 2 = bitCode y ∧ (2 * bitCode x + bitCode y) / 2 % 2 = bitCode x ∧ 2 * bitCode x + bitCode y < 4 := by
  cases x <;> cases y <;> decide

@[simp] theorem mskOf_mskCode (m : Option (Fin 8)) : mskOf (mskCode m) = some m := by
  cases m with
  | none => rfl
  | some i => simp [mskOf, mskCode]

theorem mskCode_lt (m : Option (Fin 8)) : mskCode m < 16 := by
  cases m with
  | none => decide
  | some i => simp only [mskCode]; omega

@[simp] theorem FFmt.ofCode_code (f : FFmt) : FFmt.ofCode f.code = some f := by cases f <;> rfl
@[simp] theorem FRel.ofCode_code (r : FRel) : FRel.ofCode r.code = some r := by cases r <;> rfl
@[simp] theorem Cond.ofCode_code (c : Cond) : Cond.ofCode c.code = some c := by cases c <;> rfl
@[simp] theorem Scope.ofCode_code (sc : Scope) : Scope.ofCode sc.code = some sc := by cases sc <;> rfl
@[simp] theorem AmoTy.ofCode_code (t : AmoTy) : AmoTy.ofCode t.code = some t := by cases t <;> rfl
@[simp] theorem LdTy.ofCode_code (t : LdTy) : LdTy.ofCode t.code = some t := by cases t <;> rfl
@[simp] theorem StW.ofCode_code (t : StW) : StW.ofCode t.code = some t := by cases t <;> rfl
@[simp] theorem RmSel.ofCode_code (r : RmSel) : RmSel.ofCode r.code = some r := by cases r <;> rfl

theorem FFmt.code_lt (f : FFmt) : f.code < 4 := by cases f <;> decide
theorem FRel.code_lt (r : FRel) : r.code < 4 := by cases r <;> decide
theorem Cond.code_lt (c : Cond) : c.code < 6 := by cases c <;> decide
theorem Scope.code_lt (sc : Scope) : sc.code < 5 := by cases sc <;> decide
theorem AmoTy.code_lt (t : AmoTy) : t.code < 6 := by cases t <;> decide
theorem LdTy.code_lt (t : LdTy) : t.code < 7 := by cases t <;> decide
theorem StW.code_lt (t : StW) : t.code < 4 := by cases t <;> decide
theorem RmSel.code_lt (r : RmSel) : r.code < 6 := by cases r <;> decide

@[simp] theorem ETy.ofCode_code (t : ETy) : ETy.ofCode t.code = some t := by
  cases t with
  | b8 p n x => revert p n x; decide
  | _ => rfl

theorem ETy.code_lt (t : ETy) : t.code < 64 := by
  cases t with
  | b8 p n x => revert p n x; decide
  | _ => decide

@[simp] theorem SysReg.ofNum_num (r : SysReg) : SysReg.ofNum r.num = some r := by
  cases r with
  | tshape i => revert i; decide
  | _ => rfl

theorem SysReg.num_lt (r : SysReg) : r.num < 4096 := by
  cases r with
  | tshape i => simp only [SysReg.num]; omega
  | _ => decide

/-! ## Scalar words (R46–R48) -/

/-- The fields that the decoder reads from a word of quadrant 00, and from a store, whose offset fills two of them. -/
structure SrFields (quad w f7 b a f3 d op : Nat) : Prop where
  quad : fld w 0 2 = quad
  op : fld w 2 5 = op
  d : fld w 7 5 = d
  f3 : fld w 12 3 = f3
  a : fld w 15 5 = a
  b : fld w 20 5 = b
  f7 : fld w 25 7 = f7

/-- The fields that it reads from a word with a 12-bit immediate: of quadrant 01, and `jalr`. -/
structure SiFields (quad w imm a f3 d op : Nat) : Prop where
  quad : fld w 0 2 = quad
  op : fld w 2 5 = op
  d : fld w 7 5 = d
  f3 : fld w 12 3 = f3
  a : fld w 15 5 = a
  imm : fld w 20 12 = imm

/-- The fields that it reads from a branch. -/
structure ScFields (w off k n fn4 op : Nat) : Prop where
  quad : fld w 0 2 = 2
  op : fld w 2 5 = op
  fn4 : fld w 7 4 = fn4
  n : fld w 11 1 = n
  k : fld w 12 4 = k
  off : fld w 16 16 = off

/-- The fields that it reads from a word with a 20-bit immediate. -/
structure SjFields (w imm d op : Nat) : Prop where
  quad : fld w 0 2 = 2
  op : fld w 2 5 = op
  d : fld w 7 5 = d
  imm : fld w 12 20 = imm

theorem srW_add_fields {quad f7 b a f3 d op : Nat} (hq : quad < 4) (h7 : f7 < 128) (hb : b < 32) (ha : a < 32) (h3 : f3 < 8)
    (hd : d < 32) (ho : op < 32) : SrFields quad (srW f7 b a f3 d op + quad) f7 b a f3 d op := by
  constructor <;> simp only [fld, srW] <;> omega

theorem siW_add_fields {n imm a f3 d op : Nat} (hn : n < 3) (hi : imm < 4096) (ha : a < 32) (h3 : f3 < 8) (hd : d < 32) (ho : op < 32) :
    SiFields (n + 1) (siW imm a f3 d op + n) imm a f3 d op := by
  constructor <;> simp only [fld, siW] <;> omega

theorem scW_fields {off k n fn4 op : Nat} (hf : off < 2 ^ 16) (hk : k < 16) (hn : n < 2) (h4 : fn4 < 16) (ho : op < 32) :
    ScFields (scW off k n fn4 op) off k n fn4 op := by
  obtain ⟨hquad, hop, hfn4, hbit, hkreg, hoff⟩ := Machine.fld_scW off k n fn4 op hk hn h4 ho
  rw [Nat.mod_eq_of_lt hf] at hoff
  constructor <;> assumption

theorem sjW_fields {imm d op : Nat} (hi : imm < 1048576) (hd : d < 32) (ho : op < 32) : SjFields (sjW imm d op) imm d op := by
  constructor <;> simp only [fld, sjW] <;> omega

theorem decodeInstr_of_decodeQ2 {w : Nat} {i : Instr} (hq : fld w 0 2 = 2) (hi : decodeQ2 w = some i) : decodeInstr w = i := by
  simp [decodeInstr, hq, hi]

section
/-! An encoded word is decoded to `i` when the decoder of its quadrant answers `i` for every word with its fields. -/
variable {w : Nat} {i : Instr}

theorem decodeInstr_of_srW {f7 b a f3 d op : Nat} (hw : some (srW f7 b a f3 d op) = some w)
    (hi : ∀ w, SrFields 0 w f7 b a f3 d op → decodeSR w = some i) (h7 : f7 < 128 := by omega) (hb : b < 32 := by omega)
    (ha : a < 32 := by omega) (h3 : f3 < 8 := by omega) (hd : d < 32 := by omega) (ho : op < 32 := by omega) :
    decodeInstr w = i := by
  have h := srW_add_fields (quad := 0) (by decide) h7 hb ha h3 hd ho
  rw [Nat.add_zero, Option.some.inj hw] at h
  simp [decodeInstr, h.quad, hi w h]

theorem decodeInstr_of_siW {imm a f3 d op : Nat} (hw : some (siW imm a f3 d op) = some w)
    (hi : ∀ w, SiFields 1 w imm a f3 d op → decodeSI w = some i) (hm : imm < 4096 := by omega) (ha : a < 32 := by omega)
    (h3 : f3 < 8 := by omega) (hd : d < 32 := by omega) (ho : op < 32 := by omega) : decodeInstr w = i := by
  have h : SiFields 1 (siW imm a f3 d op) imm a f3 d op := siW_add_fields (n := 0) (by decide) hm ha h3 hd ho
  rw [Option.some.inj hw] at h
  simp [decodeInstr, h.quad, hi w h]

theorem decodeInstr_of_siW_succ {imm a f3 d op : Nat} (hw : some (siW imm a f3 d op + 1) = some w)
    (hi : ∀ w, SiFields 2 w imm a f3 d op → decodeQ2 w = some i) (hm : imm < 4096 := by omega) (ha : a < 32 := by omega)
    (h3 : f3 < 8 := by omega) (hd : d < 32 := by omega) (ho : op < 32 := by omega) : decodeInstr w = i := by
  have h : SiFields 2 w imm a f3 d op := Option.some.inj hw ▸ siW_add_fields (n := 1) (by decide) hm ha h3 hd ho
  exact decodeInstr_of_decodeQ2 h.quad (hi w h)

theorem decodeInstr_of_ssW {off b a f3 op : Nat} (hw : some (ssW off b a f3 op) = some w)
    (hi : ∀ w, SrFields 2 w (off / 32) b a f3 (off % 32) op → decodeQ2 w = some i) (hf : off < 4096 := by omega)
    (hb : b < 32 := by omega) (ha : a < 32 := by omega) (h3 : f3 < 8 := by omega) (ho : op < 32 := by omega) : decodeInstr w = i := by
  have h : SrFields 2 w (off / 32) b a f3 (off % 32) op :=
    Option.some.inj hw ▸ srW_add_fields (by decide) (by omega) hb ha h3 (by omega) ho
  exact decodeInstr_of_decodeQ2 h.quad (hi w h)

theorem decodeInstr_of_scW {off k n fn4 op : Nat} (hw : some (scW off k n fn4 op) = some w)
    (hi : ∀ w, ScFields w off k n fn4 op → decodeQ2 w = some i) (hf : off < 2 ^ 16 := by omega) (hk : k < 16 := by omega)
    (hn : n < 2 := by omega) (h4 : fn4 < 16 := by omega) (ho : op < 32 := by omega) : decodeInstr w = i := by
  have h : ScFields w off k n fn4 op := Option.some.inj hw ▸ scW_fields hf hk hn h4 ho
  exact decodeInstr_of_decodeQ2 h.quad (hi w h)

theorem decodeInstr_of_sjW {imm d op : Nat} (hw : some (sjW imm d op) = some w)
    (hi : ∀ w, SjFields w imm d op → decodeQ2 w = some i) (hm : imm < 1048576 := by omega) (hd : d < 32 := by omega)
    (ho : op < 32 := by omega) : decodeInstr w = i := by
  have h : SjFields w imm d op := Option.some.inj hw ▸ sjW_fields hm hd ho
  exact decodeInstr_of_decodeQ2 h.quad (hi w h)

end

/-- The hint codes that have a name lie below 3. -/
theorem decodeHint_other {imm : Nat} (f3 : Nat) (d a : Reg) (h : 3 ≤ imm) :
    decodeHint f3 d a imm = .otherHintCode (BitVec.ofNat 12 imm) a (Fin.ofNat 8 f3) d := by
  unfold decodeHint
  split
  · omega
  · omega
  · omega
  · rfl

/-! ## Routine invocations and system long forms (R60, R61) -/

/-- The fields that the decoder reads from a system long form. -/
structure SysFields (w imm b a d sop : Nat) : Prop where
  quad : fld w 0 2 = 3
  long : fld w 2 2 = 3
  sop : fld w 4 8 = sop
  d : fld w 12 5 = d
  a : fld w 17 5 = a
  b : fld w 22 5 = b
  zero : fld w 27 5 = 0
  imm : fld w 32 32 = imm

theorem sysW_fields {imm b a d sop : Nat} (hi : imm < 4294967296) (hb : b < 32) (ha : a < 32) (hd : d < 32) (hs : sop < 256) :
    SysFields (sysW imm b a d sop) imm b a d sop := by
  constructor <;> simp only [fld, sysW] <;> omega

theorem decodeInstr_of_sysW {w imm b a d sop : Nat} {i : Instr} (hw : some (sysW imm b a d sop) = some w)
    (hi : ∀ w, SysFields w imm b a d sop → decodeSystem w = some i) (hm : imm < 4294967296 := by omega) (hb : b < 32 := by omega)
    (ha : a < 32 := by omega) (hd : d < 32 := by omega) (hs : sop < 256 := by omega) : decodeInstr w = i := by
  have h : SysFields w imm b a d sop := Option.some.inj hw ▸ sysW_fields hm hb ha hd hs
  simp [decodeInstr, h.quad, h.long, hi w h]

theorem decodeInstr_rtn (slot : Fin 64) (d a b : Reg) (imm : BitVec 7) :
    decodeInstr (imm.toNat * 2 ^ 25 + b.val * 2 ^ 20 + a.val * 2 ^ 15 + d.val * 2 ^ 10 + slot.val * 2 ^ 4 + 11) = .rtn slot d a b imm := by
  generalize hw : imm.toNat * 2 ^ 25 + b.val * 2 ^ 20 + a.val * 2 ^ 15 + d.val * 2 ^ 10 + slot.val * 2 ^ 4 + 11 = w
  have hquad : fld w 0 2 = 3 := by simp only [fld]; omega
  have hlong : fld w 2 2 = 2 := by simp only [fld]; omega
  have hslot : fld w 4 6 = slot.val := by simp only [fld]; omega
  have hd : fld w 10 5 = d.val := by simp only [fld]; omega
  have ha : fld w 15 5 = a.val := by simp only [fld]; omega
  have hb : fld w 20 5 = b.val := by simp only [fld]; omega
  have himm : fld w 25 7 = imm.toNat := by simp only [fld]; omega
  simp [decodeInstr, decodeRtn, hquad, hlong, hslot, hd, ha, hb, himm]

/-! ## Vector slots (R51, R54, R55, R64) -/

@[simp] theorem decodeSrc_fields (x : VSrc) : decodeSrc x.fields.2.2 x.fields.1 x.fields.2.1 = some x := by
  cases x <;> simp [VSrc.fields, decodeSrc]

theorem VSrc.fields_lt (x : VSrc) : x.fields.1 < 64 ∧ x.fields.2.1 < 2 ∧ x.fields.2.2 < 4 := by
  cases x with
  | v r ch => exact ⟨r.isLt, bitCode_lt ch, Nat.zero_lt_succ 3⟩
  | o e | lat u | s r => simp only [VSrc.fields]; omega

/-- The fields that the decoder reads from a vector slot. -/
structure VecFields (w vop : Nat) (f : VF) : Prop where
  low : fld w 0 7 = 3
  vop : fld w 7 8 = vop
  ux : fld w 15 1 = bitCode f.ux
  ord : fld w 16 1 = bitCode f.ord
  sat : fld w 17 1 = bitCode f.sat
  rm : fld w 18 3 = f.rm.code
  ty : fld w 21 6 = f.ty.code
  msk : fld w 27 4 = mskCode f.msk
  d : fld w 31 6 = f.d.val
  aLevel : fld w 37 2 = f.a.fields.2.2
  aChain : fld w 39 1 = f.a.fields.2.1
  aReg : fld w 40 6 = f.a.fields.1
  bLevel : fld w 46 2 = f.b.fields.2.2
  bChain : fld w 48 1 = f.b.fields.2.1
  bReg : fld w 49 6 = f.b.fields.1
  cLevel : fld w 55 2 = f.c.fields.2.2
  cChain : fld w 57 1 = f.c.fields.2.1
  cReg : fld w 58 6 = f.c.fields.1

theorem vecW_fields {vop : Nat} (f : VF) (h : vop < 256) : VecFields (vecW vop f) vop f := by
  obtain ⟨ha1, ha2, ha3⟩ := f.a.fields_lt
  obtain ⟨hb1, hb2, hb3⟩ := f.b.fields_lt
  obtain ⟨hc1, hc2, hc3⟩ := f.c.fields_lt
  have hd := f.d.isLt
  have hm := mskCode_lt f.msk
  have ht := f.ty.code_lt
  have hr := f.rm.code_lt
  have hs := bitCode_lt f.sat
  have ho := bitCode_lt f.ord
  have hu := bitCode_lt f.ux
  constructor <;> simp only [fld, vecW] <;> omega

theorem VecFields.decodeVF {w vop : Nat} {f : VF} (h : VecFields w vop f) : decodeVF w = some f := by
  simp [Sys2Proof.decodeVF, h.ux, h.ord, h.sat, h.rm, h.ty, h.msk, h.d, h.aLevel, h.aChain, h.aReg, h.bLevel, h.bChain, h.bReg,
    h.cLevel, h.cChain, h.cReg]

/-- A vector instruction stands in a slot of the unit that its vop names. -/
theorem decodeSlot_of_vecW {vop w : Nat} {f : VF} {i : Instr} (hw : some (vecW vop f) = some w) (hwf : i.wf = true) (u : Fin 6)
    (hi : vopInstr vop f = some i) (hu : vopUnit vop = some u.val) (hv : vop < 256 := by omega) :
    ∃ u : Fin 6, decodeSlot u.val w = some i := by
  have h : VecFields w vop f := Option.some.inj hw ▸ vecW_fields f hv
  have h6 : u.val ≠ 6 := by omega
  exact ⟨u, by simp [decodeSlot, decodeVector, h6, h.low, h.vop, h.decodeVF, hu, hi, hwf]⟩

/-! ## Matrix instructions (R59, R65) -/

/-- The fields that the decoder reads from a matrix instruction. -/
structure MatFields (w mop : Nat) (f : MF) : Prop where
  quad : fld w 0 2 = 3
  long : fld w 2 2 = 1
  low : fld w 0 4 = 7
  mop : fld w 4 6 = mop
  fx : fld w 10 5 = f.fx.toNat
  ca : fld w 15 1 = bitCode f.ca
  sat : fld w 16 1 = bitCode f.sat
  rm : fld w 17 3 = f.rm.code
  ty : fld w 20 6 = f.ty.code
  s : fld w 26 5 = f.s.val
  t : fld w 31 3 = f.t.val
  a : fld w 34 6 = f.a.val
  b : fld w 40 6 = f.b.val
  c : fld w 46 6 = f.c.val
  kr : fld w 52 4 = f.kr.val
  kc : fld w 56 4 = f.kc.val
  kd : fld w 60 4 = f.kd.val

theorem matW_fields {mop : Nat} (f : MF) (h : mop < 64) : MatFields (matW mop f) mop f := by
  have hx := f.fx.isLt
  have hc := bitCode_lt f.ca
  have hs := bitCode_lt f.sat
  have hr := f.rm.code_lt
  have ht := f.ty.code_lt
  constructor <;> simp only [fld, matW] <;> omega

theorem MatFields.decodeMF {w mop : Nat} {f : MF} (h : MatFields w mop f) : decodeMF w = some f := by
  simp [Sys2Proof.decodeMF, h.fx, h.ca, h.sat, h.rm, h.ty, h.s, h.t, h.a, h.b, h.c, h.kr, h.kc, h.kd]

theorem decodeInstr_of_matW {mop w : Nat} {f : MF} {i : Instr} (hw : some (matW mop f) = some w) (hwf : i.wf = true)
    (hi : mopInstr mop f = some i) (hm : mop < 64 := by omega) : decodeInstr w = i := by
  have h : MatFields w mop f := Option.some.inj hw ▸ matW_fields f hm
  simp [decodeInstr, decodeMatrix, h.quad, h.long, h.low, h.mop, h.decodeMF, hi, Option.filter, hwf]

/-! ## A word of its own (O59) -/

theorem decodeInstr_fcvt {dst src : ETy} {sat : Bool} {rm : RmSel} {d a : Reg} {w : Nat} (hok : okFcvt dst src rm = true)
    (henc : encode (.fcvt dst src sat rm d a) = some w) : decodeInstr w = .fcvt dst src sat rm d a := by
  have hlt : dst.code < 14 ∧ src.code < 14 := by simp [okFcvt] at hok; omega
  have hs := bitCode_lt sat
  have hr := rm.code_lt
  have hfn : (96 + 16 * bitCode sat + dst.code) / 32 = 3 := by omega
  have hdst : (96 + 16 * bitCode sat + dst.code) % 16 = dst.code := by omega
  have hsat : (96 + 16 * bitCode sat + dst.code) / 16 % 2 = bitCode sat := by omega
  have hsrc := reg_val_of_lt (n := src.code) (by omega)
  exact decodeInstr_of_srW henc fun w h => by
    simp [decodeSR, decodeFcmp, h.op, h.f7, h.f3, h.d, h.a, h.b, hfn, hdst, hsat, hsrc, hok]

theorem decodeInstr_amoAdd {ty : AmoTy} {sr far : Bool} {d a b : Reg} {w : Nat} (hwf : (Instr.amoAdd ty sr far d a b).wf = true)
    (henc : encode (.amoAdd ty sr far d a b) = some w) : decodeInstr w = .amoAdd ty sr far d a b := by
  have ht := ty.code_lt
  obtain ⟨hfar, hsr, hlt⟩ := bitCode_pair sr far
  have hop : (2 * bitCode sr + bitCode far) / 4 % 2 = 0 ∧ (2 * bitCode sr + bitCode far) / 8 = 0 := by omega
  have hok : amoAccepts .add ty = true ∧ (sr = false ∨ ty = .bf16) := by simpa [Instr.wf] using hwf
  exact decodeInstr_of_srW henc fun w h => by simp [decodeSR, decodeAmo, h.op, h.f7, h.f3, h.d, h.a, h.b, hfar, hsr, hop, hok]

theorem decodeInstr_ctxsave {rel inc : Bool} {d a b : Reg} {w : Nat} (henc : encode (.ctxsave rel inc d a b) = some w) :
    decodeInstr w = .ctxsave rel inc d a b := by
  have hr := bitCode_lt rel
  have hi := bitCode_lt inc
  have himm : bitCode rel + 2 * bitCode inc < 4 ∧ (bitCode rel + 2 * bitCode inc) % 2 = bitCode rel ∧
    (bitCode rel + 2 * bitCode inc) / 2 = bitCode inc := by omega
  exact decodeInstr_of_sysW henc fun w h => by simp [decodeSystem, h.zero, h.sop, h.imm, h.d, h.a, h.b, himm]

theorem decodeInstr_travset {d a : Reg} {die : Fin 8} {entry : Fin 64} {w : Nat} (henc : encode (.travset d a die entry) = some w) :
    decodeInstr w = .travset d a die entry := by
  have himm : die.val * 256 + entry.val < 2048 ∧ (die.val * 256 + entry.val) / 64 % 4 = 0 ∧
    (die.val * 256 + entry.val) / 256 = die.val ∧ (die.val * 256 + entry.val) % 64 = entry.val := by omega
  exact decodeInstr_of_sysW henc fun w h => by simp [decodeSystem, h.zero, h.sop, h.imm, h.d, h.a, h.b, himm]

theorem decodeInstr_runbindCtx {d a : Reg} {slot : Fin 64} {w : Nat} (henc : encode (.runbindCtx d a slot) = some w) :
    decodeInstr w = .runbindCtx d a slot := by
  have himm : ¬ 64 + slot.val < 64 ∧ 64 + slot.val < 128 ∧ (64 + slot.val) % 64 = slot.val := by omega
  exact decodeInstr_of_sysW henc fun w h => by simp [decodeSystem, h.zero, h.sop, h.imm, h.d, h.a, h.b, himm]

/-! The `.peer` forms are told from the others of their vop by ux (R266). -/

theorem VF.ux_of_plain {f : VF} (h : f.plain = true) : f.ux = false := by
  simp only [VF.plain, decide_eq_true_eq] at h
  exact h.2.2.2

theorem okLdx_ux {f : VF} (h : okLdx f = true) : f.ux = false := VF.ux_of_plain (of_decide_eq_true h).1

theorem okStx_ux {f : VF} (h : okStx f = true) : f.ux = false := VF.ux_of_plain (of_decide_eq_true h).1

theorem okLdxPeer_ux {f : VF} (h : okLdxPeer f = true) : f.ux = true := by
  obtain ⟨-, -, -, hux, -⟩ := of_decide_eq_true h
  exact hux

theorem okStxPeer_ux {f : VF} (h : okStxPeer f = true) : f.ux = true := by
  obtain ⟨-, -, -, hux, -⟩ := of_decide_eq_true h
  exact hux

/-- A well-formed instruction other than a convoy is decoded from its word, or in a slot from its slot's word: one group of constructors
for each decoder that answers them. -/
theorem decodeInstr_encode (i : Instr) (w : Nat) (hwf : i.wf = true) (hc : ∀ us ws, i ≠ .convoyIssue us ws) (henc : encode i = some w) :
    decodeInstr w = i ∨ ∃ u : Fin 6, decodeSlot u.val w = some i := by
  cases i
  -- SR majors 0x00–0x02 (R136–R138)
  case add d a b | sub d a b | and d a b | or d a b | xor d a b | sll d a b | srl d a b | sra d a b | slt d a b | sltn d a b
      | mul d a b | mulh d a b | mulhn d a b | div d a b | divn d a b | rem d a b | remn d a b | clz d a | ctz d a | popc d a | rev d a
      | bext d a b | bdep d a b | rotl d a b | rotr d a b =>
    exact .inl (decodeInstr_of_srW henc fun w h => by simp [decodeSR, decodeInt, h.op, h.f7, h.f3, h.d, h.a, h.b])
  -- SR majors 0x03 and 0x04 (R148–R150)
  case fadd f rm d a b | fsub f rm d a b | fmul f rm d a b | fdiv f rm d a b | fsqrt f rm d a =>
    have hf := f.code_lt
    have hr := rm.code_lt
    refine .inl (decodeInstr_of_srW henc fun w h => ?_)
    cases f <;> simp [decodeSR, decodeFlt, FFmt.code, FFmt.ofCode, h.op, h.f7, h.f3, h.d, h.a, h.b]
  case fmin f d a b | fmax f d a b =>
    have hf := f.code_lt
    refine .inl (decodeInstr_of_srW henc fun w h => ?_)
    cases f <;> simp [decodeSR, decodeFlt, FFmt.code, FFmt.ofCode, RmSel.ofCode, h.op, h.f7, h.f3, h.d, h.a, h.b]
  case fcmp r f d a b =>
    have hf := f.code_lt
    have hr := r.code_lt
    refine .inl (decodeInstr_of_srW henc fun w h => ?_)
    cases f <;> simp [decodeSR, decodeFcmp, FFmt.code, FFmt.ofCode, h.op, h.f7, h.f3, h.d, h.a, h.b]
  case fclass f d a =>
    have hf := f.code_lt
    refine .inl (decodeInstr_of_srW henc fun w h => ?_)
    cases f <;> simp [decodeSR, decodeFcmp, FFmt.code, FFmt.ofCode, h.op, h.f7, h.f3, h.d, h.a, h.b]
  case fmvToOperand d a | fmvFromOperand d a b =>
    exact .inl (decodeInstr_of_srW henc fun w h => by simp [decodeSR, decodeFcmp, h.op, h.f7, h.f3, h.d, h.a, h.b])
  case fcvt dst src sat rm d a => exact .inl (decodeInstr_fcvt hwf henc)
  -- SR major 0x05 (R141)
  case kand d a b | kor d a b | kxor d a b | knot d a | kmovKK d a | kmovSK d a | kmovKS d a =>
    exact .inl (decodeInstr_of_srW henc fun w h => by simp [decodeSR, decodePred, h.op, h.f7, h.f3, h.d, h.a, h.b])
  case cmp c d a b =>
    have hc := c.code_lt
    exact .inl (decodeInstr_of_srW henc fun w h => by simp [decodeSR, decodePred, h.op, h.f7, h.f3, h.d, h.a, h.b])
  -- SR major 0x06 (R300)
  case amoAdd ty sr far d a b => exact .inl (decodeInstr_amoAdd hwf henc)
  case amoMin ty far d a b | amoMax ty far d a b | amoAnd ty far d a b | amoOr ty far d a b | amoXor ty far d a b | amoSwap ty far d a b
      | cas ty far d a b =>
    have ht := ty.code_lt
    have hf := bitCode_lt far
    simp only [Instr.wf] at hwf
    refine .inl (decodeInstr_of_srW henc fun w h => ?_)
    cases far <;> simp [decodeSR, decodeAmo, bitCode, bitOf, h.op, h.f7, h.f3, h.d, h.a, h.b, hwf]
  -- SR majors 0x07–0x0C (R154, R178, R229, R275, R313, R341, R347)
  case qpush e16 nb k x y | qpop e16 nb x y k | qsteal e16 nb x y k =>
    obtain ⟨hnb, he16, hlt⟩ := bitCode_pair e16 nb
    simp only [Instr.wf, Bool.and_eq_true, Bool.or_eq_true, beq_iff_eq, bne_iff_ne, Bool.not_eq_true'] at hwf
    exact .inl (decodeInstr_of_srW henc fun w h => by
      simp [decodeSR, decodeQueue, h.op, h.f7, h.f3, h.d, h.a, h.b, hnb, he16, hlt, hwf])
  case qcount d a | qpoll d a k | qinit d a b =>
    exact .inl (decodeInstr_of_srW henc fun w h => by simp [decodeSR, decodeQueue, h.op, h.f7, h.f3, h.d, h.a, h.b])
  case tpost d a | tdone | tspawn d a b | tgrp d a | tyield | cntarm d a b | cpy d a b | gath d a b | coll d a b =>
    exact .inl (decodeInstr_of_srW henc fun w h => by simp [decodeSR, decodeTask, h.op, h.f7, h.f3, h.d, h.a, h.b])
  case carve d a | carveq n d | tbar | szero a b =>
    exact .inl (decodeInstr_of_srW henc fun w h => by simp [decodeSR, decodeCarve, h.op, h.f7, h.f3, h.d, h.a, h.b])
  case vstrip sz d a k | vpjoin =>
    exact .inl (decodeInstr_of_srW henc fun w h => by simp [decodeSR, decodeVctl, h.op, h.f7, h.f3, h.d, h.a, h.b])
  case vfetch msk a =>
    have hm := mskCode_lt msk
    exact .inl (decodeInstr_of_srW henc fun w h => by simp [decodeSR, decodeVctl, h.op, h.f7, h.f3, h.d, h.a, h.b, hm])
  case fence sc | fenceAcq sc | fenceRel sc =>
    have hs := sc.code_lt
    exact .inl (decodeInstr_of_srW henc fun w h => by simp [decodeSR, decodeFence, h.op, h.f7, h.f3, h.d, h.a, h.b])
  -- SI majors (R139, R145, R124, R135, R254, R262)
  case addi d a imm | andi d a imm | ori d a imm | xori d a imm | prefL1 a imm | prefL2 a imm | wake a imm | wakeAll a imm
      | flush a imm | flushMem a imm | inval a imm | drop a imm | pset d a sz | padv d a imm =>
    exact .inl (decodeInstr_of_siW henc fun w h => by simp [decodeSI, h.op, h.f3, h.d, h.a, h.imm])
  case slli d a sh | srli d a sh | srai d a sh =>
    have hs : sh.toNat < 64 := sh.isLt
    exact .inl (decodeInstr_of_siW henc fun w h => by simp [decodeSI, h.op, h.f3, h.d, h.a, h.imm, hs])
  case cmpi c d a imm =>
    have hc := c.code_lt
    exact .inl (decodeInstr_of_siW henc fun w h => by simp [decodeSI, h.op, h.f3, h.d, h.a, h.imm])
  case ld ty d a imm | ldHome ty d a imm | ldLast ty d a imm | ssld ty d a imm =>
    have ht := ty.code_lt
    exact .inl (decodeInstr_of_siW henc fun w h => by simp [decodeSI, h.op, h.f3, h.d, h.a, h.imm])
  case sysrd d r =>
    have hr := r.num_lt
    exact .inl (decodeInstr_of_siW henc fun w h => by simp [decodeSI, decodeSys, h.op, h.f3, h.d, h.a, h.imm])
  case syswr a r | sysset d a r | sysclr d a r =>
    have hr := r.num_lt
    simp only [Instr.wf] at hwf
    exact .inl (decodeInstr_of_siW henc fun w h => by simp [decodeSI, decodeSys, h.op, h.f3, h.d, h.a, h.imm, hwf])
  -- hints (R63)
  case nop a f3 d | pause a f3 d | spin a f3 d =>
    exact .inl (decodeInstr_of_siW henc fun w h => by simp [decodeSI, decodeHint, h.op, h.f3, h.d, h.a, h.imm])
  case otherHintCode code a f3 d =>
    have hcode : 3 ≤ code.toNat := of_decide_eq_true hwf
    exact .inl (decodeInstr_of_siW henc fun w h => by simp [decodeSI, h.op, h.f3, h.d, h.a, h.imm, decodeHint_other _ _ _ hcode])
  -- quadrant 10 (R48, R140, R142–R144, R146, R254)
  case st wd a b off | ssst wd a b off =>
    have ht := wd.code_lt
    exact .inl (decodeInstr_of_ssW henc fun w h => by simp [decodeQ2, h.op, h.f7, h.f3, h.d, h.a, h.b, Nat.div_add_mod'])
  case brAny k n off | brAll k n off =>
    have hn := bitCode_lt n
    exact .inl (decodeInstr_of_scW henc fun w h => by simp [decodeQ2, h.op, h.fn4, h.n, h.k, h.off])
  case br off | loop off =>
    exact .inl (decodeInstr_of_scW henc fun w h => by simp [decodeQ2, bitOf, h.op, h.fn4, h.n, h.k, h.off])
  case jal d imm | lui d imm | auipc d imm =>
    exact .inl (decodeInstr_of_sjW henc fun w h => by simp [decodeQ2, h.op, h.d, h.imm])
  case jalr d a imm =>
    exact .inl (decodeInstr_of_siW_succ henc fun w h => by simp [decodeQ2, h.op, h.f3, h.d, h.a, h.imm])
  -- routines and system long forms (R60, R61, R265, R362, R375, R382, R385, R391, R392)
  case rtn slot d a b imm => exact .inl (Option.some.inj henc ▸ decodeInstr_rtn slot d a b imm)
  case trap imm | tret | brk imm | ctxload d a | tlbinvVa a b | tlbinvCtx a b | tlbinvAll a b =>
    exact .inl (decodeInstr_of_sysW henc fun w h => by simp [decodeSystem, h.zero, h.sop, h.imm, h.d, h.a, h.b])
  case watchCore n d a b | watchHome n d a b | watchCount n d a b =>
    refine .inl (decodeInstr_of_sysW henc fun w h => ?_)
    fin_cases n <;> simp [decodeSystem, decodeWatch, h.zero, h.sop, h.imm, h.d, h.a, h.b]
  case ctxsave rel inc d a b => exact .inl (decodeInstr_ctxsave henc)
  case sysfence imm =>
    have hi : imm.toNat < 4 := imm.isLt
    exact .inl (decodeInstr_of_sysW henc fun w h => by simp [decodeSystem, h.zero, h.sop, h.imm, h.d, h.a, h.b, hi])
  case travset d a die entry => exact .inl (decodeInstr_travset henc)
  case rbind d a slot | rload d slot | runbind d slot | rquery d slot =>
    have hs := Nat.mod_eq_of_lt slot.isLt
    exact .inl (decodeInstr_of_sysW henc fun w h => by simp [decodeSystem, h.zero, h.sop, h.imm, h.d, h.a, h.b, hs])
  case runbindCtx d a slot => exact .inl (decodeInstr_runbindCtx henc)
  -- vector slots by unit (R64, R161–R171, R303)
  case vaddInt f | vsubInt f | vmulInt f | vmulh f | vminInt f | vmaxInt f | vmacc f | vdivInt f | vrem f | vand f | vor f | vxor f
      | vsll f | vsrl f | vsra f | vmv f | vminFloat f | vmaxFloat f | vfclass f | vsgnj f | vsgnn f | vsgnx f | vcvt f
      | vmand f | vmor f | vmxor f | vmnot f | vmpop f | vmfirst f | vmerge f | vmk f | viota f | vid f =>
    exact .inr (decodeSlot_of_vecW henc hwf 0 rfl rfl)
  case vcmp r f | vfcmp r f => cases r <;> exact .inr (decodeSlot_of_vecW henc hwf 0 rfl rfl (by decide))
  case vaddFloat f | vsubFloat f | vmulFloat f | vdivFloat f | vfma f | vfms f | vfnma f | vsqrt f =>
    exact .inr (decodeSlot_of_vecW henc hwf 1 rfl rfl)
  case vld f | vldHome f | vldLast f | vlds f | vldsHome f | vldxHome f | vldff f | ldt f | vldo f =>
    exact .inr (decodeSlot_of_vecW henc hwf 2 rfl rfl)
  case vldx f => exact .inr (decodeSlot_of_vecW henc hwf 2 (by simp [vopInstr, okLdx_ux hwf]) rfl)
  case vldxPeer f => exact .inr (decodeSlot_of_vecW henc hwf 2 (by simp [vopInstr, okLdxPeer_ux hwf]) rfl)
  case vst f | vsts f | vamoAdd f | vamoMin f | vamoMax f | vamoAnd f | vamoOr f | vamoXor f | vamoSwap f | vamoCas f =>
    exact .inr (decodeSlot_of_vecW henc hwf 3 rfl rfl)
  case vstx f => exact .inr (decodeSlot_of_vecW henc hwf 3 (by simp [vopInstr, okStx_ux hwf]) rfl)
  case vstxPeer f => exact .inr (decodeSlot_of_vecW henc hwf 3 (by simp [vopInstr, okStxPeer_ux hwf]) rfl)
  case vslideup f | vslidedn f | vperm f | vcompress f | vbcast f | vtoo f => exact .inr (decodeSlot_of_vecW henc hwf 4 rfl rfl)
  case vredsum f | vredmin f | vredmax f | vredand f | vredor f | vredxor f => exact .inr (decodeSlot_of_vecW henc hwf 5 rfl rfl)
  -- matrix instructions; where a mop has two forms, `fx` tells them apart (R65, R193, R223)
  case mmode f | mshape f | mldb f | mmul f | mopa f | mgmul f | mdrain f | mdrainx f | munchain f | mwait f | mmulx f | mrpf f
      | mrprobe f =>
    exact .inl (decodeInstr_of_matW henc hwf rfl)
  case mzero f | mrecv f | mrinv f =>
    have hfx : f.fx = 0 := congrArg MF.fx (of_decide_eq_true hwf)
    exact .inl (decodeInstr_of_matW henc hwf (by simp [mopInstr, hfx]))
  case mzeroAcc f | mrecvCancel f | mrinvAll f =>
    have hfx : f.fx = 1 := congrArg MF.fx (of_decide_eq_true hwf)
    exact .inl (decodeInstr_of_matW henc hwf (by simp [mopInstr, hfx]))
  case mchain f =>
    have hfx : f.fx.toNat < 2 := (of_decide_eq_true hwf).2
    exact .inl (decodeInstr_of_matW henc hwf (by simp [mopInstr, hfx]))
  case mchainAccept f =>
    have hfx : f.fx.toNat / 2 = 1 := (of_decide_eq_true hwf).2
    have hge : ¬ f.fx.toNat < 2 := by omega
    exact .inl (decodeInstr_of_matW henc hwf (by simp [mopInstr, hge]))
  case convoyIssue us ws => exact absurd rfl (hc us ws)
  -- what no word holds: micro-operations, steps outside an instruction stream
  all_goals cases henc

/-! ## Convoys (R50, R51) -/

theorem fld_add_high {lo k : Nat} (hi j n : Nat) (h : lo < 2 ^ k) : fld (hi * 2 ^ k + lo) (k + j) n = fld hi j n := by
  rw [fld, Nat.pow_add, ← Nat.div_div_eq_div_mul, Nat.mul_comm, Nat.mul_add_div (Nat.two_pow_pos k), Nat.div_eq_of_lt h]
  rfl

theorem fld_add_low {j n k : Nat} (hi lo : Nat) (h : j + n ≤ k) : fld (hi * 2 ^ k + lo) j n = fld lo j n := by
  obtain ⟨m, rfl⟩ := Nat.exists_eq_add_of_le h
  have hsplit : hi * 2 ^ (j + n + m) + lo = 2 ^ j * (2 ^ n * (hi * 2 ^ m)) + lo := by ring
  rw [fld, hsplit, Nat.mul_add_div (Nat.two_pow_pos j), Nat.mul_add_mod]
  rfl

/-- Field i of the number whose k-bit digits a list gives, lowest first. -/
theorem fld_ofDigits {k : Nat} (ds : List Nat) (h : ∀ d ∈ ds, d < 2 ^ k) (i : Nat) :
    fld (Nat.ofDigits (2 ^ k) ds) (k * i) k = ds.getD i 0 := by
  induction ds generalizing i with
  | nil => simp [fld]
  | cons d ds ih =>
    have hd : d < 2 ^ k := h d List.mem_cons_self
    rw [Nat.ofDigits_cons, Nat.add_comm, Nat.mul_comm]
    cases i with
    | zero => rw [Nat.mul_zero, fld_add_low _ _ (Nat.zero_add k).le]; simp [fld, Nat.mod_eq_of_lt hd]
    | succ i =>
      rw [Nat.mul_succ, Nat.add_comm (k * i), fld_add_high _ _ _ hd]
      exact ih (fun x hx => h x (List.mem_cons_of_mem d hx)) i

theorem unitsW_eq_ofDigits (us : List (Fin 7)) : unitsW us = Nat.ofDigits (2 ^ 3) (us.map Fin.val) := by
  induction us with
  | nil => rfl
  | cons u us ih => simp [unitsW, Nat.ofDigits_cons, ih]

theorem slotsW_eq_ofDigits (ws : List (BitVec 64)) : slotsW ws = Nat.ofDigits (2 ^ 64) (ws.map BitVec.toNat) := by
  induction ws with
  | nil => rfl
  | cons x ws ih => simp [slotsW, Nat.ofDigits_cons, ih]

theorem unit_digit_lt {us : List (Fin 7)} : ∀ d ∈ us.map Fin.val, d < 2 ^ 3 := by
  intro d hd
  obtain ⟨u, -, rfl⟩ := List.mem_map.1 hd
  omega

theorem fld_unitsW (us : List (Fin 7)) (i : Nat) : fld (unitsW us) (3 * i) 3 = (us.map Fin.val).getD i 0 := by
  rw [unitsW_eq_ofDigits, fld_ofDigits _ unit_digit_lt]

theorem unitsW_lt (us : List (Fin 7)) (h : us.length ≤ 6) : unitsW us < 2 ^ 18 := by
  rw [unitsW_eq_ofDigits]
  calc Nat.ofDigits (2 ^ 3) (us.map Fin.val) < (2 ^ 3) ^ (us.map Fin.val).length := Nat.ofDigits_lt_base_pow_length (by decide) unit_digit_lt
    _ ≤ (2 ^ 3) ^ 6 := Nat.pow_le_pow_right (by decide) (by simpa using h)
    _ = 2 ^ 18 := by decide

theorem fld_slotsW (ws : List (BitVec 64)) (i : Nat) : fld (slotsW ws) (64 * i) 64 = (ws.map BitVec.toNat).getD i 0 := by
  rw [slotsW_eq_ofDigits, fld_ofDigits]
  intro d hd
  obtain ⟨x, -, rfl⟩ := List.mem_map.1 hd
  exact x.isLt

/-- The words of a convoy, as `encode` lays them out. -/
def convoyW (us : List (Fin 7)) (ws : List (BitVec 64)) : Nat := slotsW ws * 2 ^ 32 + unitsW us * 2 ^ 7 + us.length * 2 ^ 4 + 3

section
variable {us : List (Fin 7)} {ws : List (BitVec 64)}

theorem convoyW_header (h : us.length ≤ 6) :
    fld (convoyW us ws) 0 2 = 3 ∧ fld (convoyW us ws) 2 2 = 0 ∧ fld (convoyW us ws) 4 3 = us.length ∧ fld (convoyW us ws) 25 7 = 0 := by
  have hu := unitsW_lt us h
  simp only [fld, convoyW]
  omega

theorem convoyW_unit (h : us.length ≤ 6) {i : Nat} (hi : i < 6) : fld (convoyW us ws) (7 + 3 * i) 3 = (us.map Fin.val).getD i 0 := by
  have hlow : us.length * 2 ^ 4 + 3 < 2 ^ 7 := by omega
  have hword : convoyW us ws = (slotsW ws * 2 ^ 25 + unitsW us) * 2 ^ 7 + (us.length * 2 ^ 4 + 3) := by rw [convoyW]; ring
  rw [hword, fld_add_high _ _ _ hlow, fld_add_low _ _ (by omega), fld_unitsW]

theorem convoyW_slotWord (h : us.length ≤ 6) (i : Nat) : slotWord (convoyW us ws) i = (ws.map BitVec.toNat).getD i 0 := by
  have hu := unitsW_lt us h
  have hlow : unitsW us * 2 ^ 7 + (us.length * 2 ^ 4 + 3) < 2 ^ 32 := by omega
  have hword : convoyW us ws = slotsW ws * 2 ^ 32 + (unitsW us * 2 ^ 7 + (us.length * 2 ^ 4 + 3)) := by rw [convoyW]; ring
  rw [slotWord, hword, fld_add_high _ _ _ hlow, fld_slotsW]

theorem convoyW_headerUnits (h : us.length ≤ 6) : headerUnits (convoyW us ws) us.length = us.map Fin.val := by
  refine List.ext_getElem (by simp [headerUnits]) fun i hi _ => ?_
  have hlt : i < us.length := by simpa [headerUnits] using hi
  simp [headerUnits, convoyW_unit h (Nat.lt_of_lt_of_le hlt h), hlt]

theorem convoyW_slots (h : us.length ≤ 6) (hn : ws.length = us.length) :
    (List.range us.length).map (fun i => BitVec.ofNat 64 (slotWord (convoyW us ws) i)) = ws := by
  refine List.ext_getElem (by simp [hn]) fun i hi hlt => ?_
  simp [convoyW_slotWord h, hlt]

end

/-- No slot is at fault when each has a unit of its own that decodes it. -/
theorem badSlot_eq_none {w : Nat} {all : List Nat} (us : List Nat) (i : Nat)
    (h : ∀ j (hj : j < us.length), us[j] ≠ 7 ∧ all.count us[j] < 2 ∧ (decodeSlot us[j] (slotWord w (i + j))).isSome = true) :
    badSlot w all i us = none := by
  induction us generalizing i with
  | nil => rfl
  | cons u us ih =>
    obtain ⟨h7, hcount, hslot⟩ := h 0 (Nat.zero_lt_succ _)
    have hrest : badSlot w all (i + 1) us = none := ih (i + 1) fun j hj => by
      have hj' := h (j + 1) (Nat.succ_lt_succ hj)
      rw [show i + (j + 1) = i + 1 + j by omega] at hj'
      exact hj'
    rw [badSlot, if_neg, hrest]
    rintro (h' | h' | h')
    · exact h7 h'
    · exact Nat.not_lt.2 h' hcount
    · simp only [List.getElem_cons_zero, Nat.add_zero] at hslot
      simp [Option.isNone_iff_eq_none.1 h'] at hslot

theorem decodeConvoy_convoyW {us : List (Fin 7)} {ws : List (BitVec 64)} (hn : ws.length = us.length) (h1 : 1 ≤ us.length)
    (h6 : us.length ≤ 6) (hnodup : us.Nodup) (hslots : ∀ p ∈ us.zip ws, (decodeSlot p.1.val p.2.toNat).isSome = true) :
    decodeConvoy (convoyW us ws) = .convoyIssue us ws := by
  obtain ⟨-, -, hlen, hzero⟩ := convoyW_header (ws := ws) h6
  have hnobad : badSlot (convoyW us ws) (us.map Fin.val) 0 (us.map Fin.val) = none := by
    refine badSlot_eq_none _ _ fun j hj => ?_
    have hj' : j < us.length := by simpa using hj
    have hcount : (us.map Fin.val).count us[j].val ≤ 1 := List.nodup_iff_count_le_one.1 (hnodup.map Fin.val_injective) _
    have hslot := hslots (us[j], ws[j]) (List.mem_iff_getElem.2 ⟨j, by simp [hn, hj'], by simp⟩)
    have hword : slotWord (convoyW us ws) j = ws[j].toNat := by simp [convoyW_slotWord h6, hn, hj']
    simp only [List.getElem_map, Nat.zero_add, hword]
    exact ⟨by omega, by omega, hslot⟩
  have hunused : (List.range 6).find? (fun i => decide (us.length ≤ i) && fld (convoyW us ws) (7 + 3 * i) 3 != 0) = none := by
    refine List.find?_eq_none.2 fun i hi => ?_
    have hunit := convoyW_unit (ws := ws) h6 (List.mem_range.1 hi)
    by_cases hi' : us.length ≤ i
    · simp [hunit, hi']
    · simp [hi']
  have hunits : (us.map Fin.val).map (Fin.ofNat 7) = us := by simp [Function.comp_def]
  simp only [decodeConvoy, hlen, hzero, convoyW_headerUnits h6, hnobad, hunused, hunits, convoyW_slots h6 hn]
  rw [if_neg (by omega)]
  rfl

theorem decodeInstr_convoyIssue {us : List (Fin 7)} {ws : List (BitVec 64)} {w : Nat} (hwf : (Instr.convoyIssue us ws).wf = true)
    (henc : encode (.convoyIssue us ws) = some w) (hslots : ∀ p ∈ us.zip ws, (decodeSlot p.1.val p.2.toNat).isSome = true) :
    decodeInstr w = .convoyIssue us ws := by
  obtain ⟨⟨⟨hn, h1⟩, h6⟩, hnodup⟩ : ((ws.length = us.length ∧ 1 ≤ us.length) ∧ us.length ≤ 6) ∧ us.Nodup := by
    simpa [Instr.wf] using hwf
  have hw : convoyW us ws = w := Option.some.inj henc
  obtain ⟨hquad, hlong, -, -⟩ := convoyW_header (ws := ws) h6
  have hconvoy := decodeConvoy_convoyW hn h1 h6 hnodup hslots
  rw [hw] at hquad hlong hconvoy
  simp [decodeInstr, hquad, hlong, hconvoy]

/-! ## Micro-operations (R355–R359) -/

@[simp] theorem UOpd.ofCode_code (x : UOpd) : UOpd.ofCode x.code = some x := by
  cases x with
  | h i => simp [UOpd.code, UOpd.ofCode]
  | _ => rfl

theorem UOpd.code_lt (x : UOpd) : x.code < 32 := by
  cases x with
  | h i => simp only [UOpd.code]; omega
  | _ => decide

/-- The fields that the decoder reads from a micro-operation on operands; `lo` holds the low 11 bits. -/
structure UaFields (w uop d a b lo : Nat) : Prop where
  uop : fld w 26 6 = uop
  d : fld w 21 5 = d
  a : fld w 16 5 = a
  b : fld w 11 5 = b
  low : fld w 0 11 = lo
  sz : fld w 8 3 = lo / 256
  off : fld w 0 8 = lo % 256

theorem uaW_fields {uop d a b lo : Nat} (hu : uop < 64) (hd : d < 32) (ha : a < 32) (hb : b < 32) (hl : lo < 2048) :
    UaFields (uaW uop d a b lo) uop d a b lo := by
  constructor <;> simp only [fld, uaW] <;> omega

/-- The fields that it reads from a vector micro-operation. -/
structure UvFields (w uop : Nat) (v : UV) : Prop where
  uop : fld w 26 6 = uop
  ty : fld w 0 5 = v.ty.code
  j : fld w 5 3 = v.j.val
  vb : fld w 8 6 = v.vb.val
  va : fld w 14 6 = v.va.val
  vd : fld w 20 6 = v.vd.val

theorem okUv_code_lt {bitwise : Bool} {v : UV} (h : okUv bitwise v = true) : v.ty.code < 32 := by
  cases hty : v.ty with
  | b8 p n x => simp [okUv, hty, ETy.isInt, ETy.isFloat4] at h
  | _ => decide

theorem uvW_fields {uop : Nat} (v : UV) (hu : uop < 64) (ht : v.ty.code < 32) : UvFields (uvW uop v) uop v := by
  constructor <;> simp only [fld, uvW] <;> omega

theorem UvFields.decodeUV {w uop : Nat} {v : UV} (h : UvFields w uop v) : decodeUV w = some v := by
  simp [Sys2Proof.decodeUV, h.ty, h.j, h.vb, h.va, h.vd]

/-- A word is decoded to the micro-operation that its fields give when that encodes to it. -/
theorem decodeMicro_of_fields {i : Instr} {f : UF} {w : Nat} (hwf : i.ufWf f = true) (henc : encodeMicro i f = some w)
    (hi : microFields (fld w 26 6) ((UOpd.ofCode (fld w 21 5)).filter (fun x => x != .ximm)) (UOpd.ofCode (fld w 16 5))
      (UOpd.ofCode (fld w 11 5)) w = some (i, f)) : decodeMicro w = some (i, f) := by
  simp [decodeMicro, hi, hwf, henc]

theorem decodeMicro_of_uaW {i : Instr} {f : UF} {w uop d a b lo : Nat} (hwf : i.ufWf f = true) (henc : encodeMicro i f = some w)
    (hw : encodeMicro i f = some (uaW uop d a b lo))
    (hi : ∀ w, UaFields w uop d a b lo →
      microFields uop ((UOpd.ofCode d).filter (fun x => x != .ximm)) (UOpd.ofCode a) (UOpd.ofCode b) w = some (i, f))
    (hu : uop < 64 := by omega) (hd : d < 32 := by omega) (ha : a < 32 := by omega) (hb : b < 32 := by omega)
    (hl : lo < 2048 := by omega) : decodeMicro w = some (i, f) := by
  have h := uaW_fields hu hd ha hb hl
  rw [Option.some.inj (hw.symm.trans henc)] at h
  refine decodeMicro_of_fields hwf henc ?_
  rw [h.uop, h.d, h.a, h.b]
  exact hi w h

theorem decodeMicro_of_uvW {i : Instr} {f : UF} {w uop : Nat} {bitwise : Bool} (hwf : i.ufWf f = true) (henc : encodeMicro i f = some w)
    (hw : encodeMicro i f = some (uvW uop f.v)) (hty : okUv bitwise f.v = true)
    (hi : ∀ w, decodeUV w = some f.v → ∀ dst oa ob, microFields uop dst oa ob w = some (i, f)) (hu : uop < 64 := by omega) :
    decodeMicro w = some (i, f) := by
  have h := uvW_fields f.v hu (okUv_code_lt hty)
  rw [Option.some.inj (hw.symm.trans henc)] at h
  refine decodeMicro_of_fields hwf henc ?_
  rw [h.uop]
  exact hi w h.decodeUV _ _ _

theorem decodeMicro_encodeMicro {i : Instr} {f : UF} {w : Nat} (hwf : i.ufWf f = true) (henc : encodeMicro i f = some w) :
    decodeMicro w = some (i, f) := by
  have hcd := f.d.code_lt
  have hca := f.a.code_lt
  have hcb := f.b.code_lt
  cases i
  case umov | umovi | uhi | urds | urdo | uaddi | uicvtf =>
    obtain ⟨hf, hd⟩ := of_decide_eq_true hwf
    exact decodeMicro_of_uaW hwf henc rfl fun w h => by simpa [microFields, Option.filter, hd, h.low] using hf.symm
  case uwrs | uwro =>
    have hf := of_decide_eq_true hwf
    exact decodeMicro_of_uaW hwf henc rfl fun w h => by simpa [microFields, h.low] using hf.symm
  case uadd | usub | umul | uand | uor | uxor | usll | usrl | usra | uslt | usltn | umin | umax | ufadd | ufsub | ufmul | ufma
      | ufmin | ufmax =>
    obtain ⟨hf, hd⟩ := of_decide_eq_true hwf
    exact decodeMicro_of_uaW hwf henc rfl fun w h => by simpa [microFields, uopV, uop3, Option.filter, hd] using hf.symm
  case ufcvti =>
    obtain ⟨hf, hd⟩ := of_decide_eq_true hwf
    have hs := bitCode_lt f.sat
    exact decodeMicro_of_uaW hwf henc rfl fun w h => by simpa [microFields, Option.filter, hd, h.low] using hf.symm
  case uld =>
    obtain ⟨hf, hd⟩ := of_decide_eq_true hwf
    have ht := f.ldt.code_lt
    have hsz : (f.ldt.code * 256 + f.off.toNat) / 256 = f.ldt.code := by omega
    have hoff : (f.ldt.code * 256 + f.off.toNat) % 256 = f.off.toNat := by omega
    exact decodeMicro_of_uaW hwf henc rfl fun w h => by simpa [microFields, Option.filter, hd, h.sz, h.off, hsz, hoff] using hf.symm
  case ust =>
    have hf := of_decide_eq_true hwf
    have ht := f.stw.code_lt
    have hsz : (f.stw.code * 256 + f.off.toNat) / 256 = f.stw.code := by omega
    have hoff : (f.stw.code * 256 + f.off.toNat) % 256 = f.off.toNat := by omega
    exact decodeMicro_of_uaW hwf henc rfl fun w h => by simpa [microFields, h.sz, h.off, hsz, hoff] using hf.symm
  case uvadd | uvsub | uvmul | uvmin | uvmax | uvfma | uvand | uvor | uvxor =>
    obtain ⟨hf, hty⟩ := of_decide_eq_true hwf
    exact decodeMicro_of_uvW hwf henc rfl hty fun w h dst oa ob => by simpa [microFields, uopV, h] using hf.symm
  case ubeq | ubne | ublt | uj | uloop =>
    have hf := of_decide_eq_true hwf
    have ht := Nat.mod_eq_of_lt f.tgt.isLt
    exact decodeMicro_of_uaW hwf henc rfl fun w h => by simpa [microFields, h.off, ht] using hf.symm
  case uend =>
    have hf := of_decide_eq_true hwf
    exact decodeMicro_of_uaW hwf henc rfl fun w h => by simpa [microFields] using hf.symm
  all_goals cases henc

end Sys2Proof

namespace Sys2Proof.Machine

/-- Settles O59: the word of each constructor has the fields that its decoder reads, and each field's code gives its operand back. -/
theorem decodeEncode : Obligations.DecodeEncode :=
  ⟨fun i w hwf hc henc => decodeInstr_encode i w hwf hc henc, fun _ _ _ hwf henc hslots => decodeInstr_convoyIssue hwf henc hslots,
    fun _ _ _ hwf henc => decodeMicro_encodeMicro hwf henc⟩

/-- Settles O57: the decoder evaluated on each word. -/
theorem decodesSpecWords : Obligations.DecodesSpecWords :=
  ⟨rfl, rfl, rfl, rfl, rfl, rfl, rfl, rfl, rfl, rfl, rfl⟩

end Sys2Proof.Machine
end

section
/-! SUPPORT. What stops an instruction before its work: privilege and blocks of virtual processors (O19); the trap instructions (O25). -/

namespace Sys2Proof.Machine

/-- The instruction does its work outside a block of virtual processors and from level n up only. -/
def Guarded (i : Instr) (n : Nat) (s : State) : Prop := ∃ body, exec i s = .next (s.notVp (s.atLevel n body))

section
variable {i : Instr} {n : Nat} {s : State}

theorem atLevel_below (body : State) (h : s.th.level.toNat < n) : s.atLevel n body = s.fault Cause.priv := if_pos h

theorem Guarded.priv (hg : Guarded i n s) (hvp : s.th.vp = none) (h : s.th.level.toNat < n) : exec i s = .next (s.fault Cause.priv) := by
  obtain ⟨body, hbody⟩ := hg
  rw [hbody, notVp_outside s _ hvp, atLevel_below body h]

theorem Guarded.illegal (hg : Guarded i n s) (hvp : s.th.vp ≠ none) : exec i s = .next (s.fault Cause.illegal) := by
  obtain ⟨body, hbody⟩ := hg
  rw [hbody, notVp_illegal s _ hvp]

end

/-- Each system register form asks for its register's level (R135). -/
theorem sysForm_guarded (s : State) (d a : Reg) (r : SysReg) :
    Guarded (.sysrd d r) (sysReadLevel r) s ∧ Guarded (.syswr a r) (sysWriteLevel r) s ∧ Guarded (.sysset d a r) (sysWriteLevel r) s ∧
      Guarded (.sysclr d a r) (sysWriteLevel r) s :=
  ⟨⟨_, rfl⟩, ⟨_, rfl⟩, ⟨_, rfl⟩, ⟨_, rfl⟩⟩

/-- Settles O19: each of the instructions is guarded by its level and against a block of virtual processors; `rquery` by the latter. -/
theorem privilegeIsChecked : Obligations.PrivilegeIsChecked := by
  intro s d a b r i imm die entry rel inc privileged priv
  obtain ⟨hrd, hwr, hset, hclr⟩ := sysForm_guarded s d a r
  have hpriv : ∀ j ∈ privileged, Guarded j 1 s := by
    simp only [privileged, List.forall_mem_cons]
    exact ⟨⟨_, rfl⟩, ⟨_, rfl⟩, ⟨_, rfl⟩, ⟨_, rfl⟩, ⟨_, rfl⟩, ⟨_, rfl⟩, ⟨_, rfl⟩, ⟨_, rfl⟩, ⟨_, rfl⟩, ⟨_, rfl⟩, ⟨_, rfl⟩, ⟨_, rfl⟩, ⟨_, rfl⟩,
      ⟨_, rfl⟩, ⟨_, rfl⟩, List.forall_mem_nil _⟩
  refine ⟨fun hvp => ⟨hrd.priv hvp, fun h => ⟨hwr.priv hvp h, hset.priv hvp h, hclr.priv hvp h⟩, fun h j hj => ?_⟩,
    fun hvp => ⟨hrd.illegal hvp, hwr.illegal hvp, hset.illegal hvp, hclr.illegal hvp, fun j hj => (hpriv j hj).illegal hvp,
      notVp_illegal s _ hvp⟩⟩
  exact (hpriv j hj).priv hvp (by rw [h]; decide)

/-- Outside a block of virtual processors a fault at an instruction names no VP. -/
theorem fault_outside (s : State) (t : Trap) (h : s.th.vp = none) : s.fault t = s.enterTrap t s.th.pc := by
  simp [State.fault, State.vpIndex, h]

/-- Settles O25: `trap` and `brk` are taken after the instruction, an illegal encoding faults at itself, and the former are not VP-safe. -/
theorem trapInstructions : Obligations.TrapInstructions := by
  intro s imm slot
  have htrap : exec (.trap imm) s = .next (s.trapAfter (Cause.syscall imm)) := rfl
  have hbrk : exec (.brk imm) s = .next (s.trapAfter (Cause.brk imm)) := rfl
  have hbad : exec (.unassignedEncoding slot) s = .next (s.fault { Cause.illegal with felem := wd slot }) := rfl
  refine ⟨fun h => ?outside, fun h => ⟨notVp_illegal s _ h, notVp_illegal s _ h⟩⟩
  case outside =>
    rw [htrap, hbrk, hbad, State.trapAfter, State.trapAfter, notVp_outside s _ h, notVp_outside s _ h, fault_outside s _ h]
    exact ⟨rfl, rfl, rfl⟩

end Sys2Proof.Machine
end

section
/-! SUPPORT. Rounding (05 R104, R107–R110): a cut of a magnitude, taken as a real number, answers what R107 asks; from that what `roundMag`,
`roundFloat`, quotients and roots leave; and the scalar operations that round (O7). -/

namespace Sys2Proof.Machine

/-- `cmp` compares the magnitude x with fractions. -/
def Measures (cmp : Nat → Nat → Ordering) (x : ℝ) : Prop := ∀ p q : Nat, 0 < q → cmp p q = compare x ((p : ℝ) / q)

/-- The magnitude z lies where m and a sticky bit say: at m, or strictly between m and m + 1. -/
def Lies (m : Nat) (st : Bool) (z : ℝ) : Prop := if st then (m : ℝ) < z ∧ z < m + 1 else z = m

theorem compare_congr {α β : Type} [LinearOrder α] [LinearOrder β] {a b : α} {c d : β} (hlt : a < b ↔ c < d) (heq : a = b ↔ c = d) :
    compare a b = compare c d := by
  rcases lt_trichotomy a b with h | h | h
  · rw [compare_lt_iff_lt.2 h, compare_lt_iff_lt.2 (hlt.1 h)]
  · rw [compare_eq_iff_eq.2 h, compare_eq_iff_eq.2 (heq.1 h)]
  · have hc : d < c := lt_of_le_of_ne (not_lt.1 fun hl => absurd (hlt.2 hl) h.asymm) fun e => h.ne (heq.2 e.symm).symm
    rw [compare_gt_iff_gt.2 h, compare_gt_iff_gt.2 hc]

section
variable {cmp : Nat → Nat → Ordering} {x : ℝ} (hx : Measures cmp x) {p q : Nat} (hq : 0 < q)
include hx hq

theorem Measures.lt_iff : cmp p q = .lt ↔ x < (p : ℝ) / q := by rw [hx p q hq, compare_lt_iff_lt]
theorem Measures.eq_iff : cmp p q = .eq ↔ x = (p : ℝ) / q := by rw [hx p q hq, compare_eq_iff_eq]
theorem Measures.gt_iff : cmp p q = .gt ↔ (p : ℝ) / q < x := by rw [hx p q hq, compare_gt_iff_gt]
theorem Measures.ge_iff : cmp p q ≠ .lt ↔ (p : ℝ) / q ≤ x := by rw [Ne, hx.lt_iff hq, not_lt]

end

/-- A power of two with an integer exponent, as the quotient of two natural ones. -/
theorem two_zpow_toNat (k : Int) : (2 : ℝ) ^ k = 2 ^ k.toNat / 2 ^ (-k).toNat := by
  rcases le_total 0 k with h | h
  · obtain ⟨n, rfl⟩ := Int.eq_ofNat_of_zero_le h
    simp
  · obtain ⟨n, hn⟩ := Int.exists_eq_neg_ofNat h
    subst hn
    simp

theorem measures_cmpMag (num den : Nat) (k : Int) (hd : 0 < den) : Measures (cmpMag num den k) (num / den * 2 ^ k) := by
  intro p q hq
  have hd' : (0 : ℝ) < den := Nat.cast_pos.2 hd
  have hq' : (0 : ℝ) < q := Nat.cast_pos.2 hq
  have h2 : (0 : ℝ) < 2 ^ (-k).toNat := by positivity
  have e : (num : ℝ) / den * 2 ^ k = (num * 2 ^ k.toNat) / (den * 2 ^ (-k).toNat) := by
    rw [two_zpow_toNat, div_mul_div_comm]
  rw [cmpMag, e]
  have hb : (0 : ℝ) < den * 2 ^ (-k).toNat := by positivity
  refine compare_congr ?_ ?_
  · rw [div_lt_div_iff₀ hb hq', ← Nat.cast_lt (α := ℝ)]
    push_cast
    rw [mul_assoc (p : ℝ)]
  · rw [div_eq_div_iff hb.ne' hq'.ne', ← Nat.cast_inj (R := ℝ)]
    push_cast
    rw [mul_assoc (p : ℝ)]

/-- Comparing squares compares the root. -/
theorem Measures.sqrt {cmp : Nat → Nat → Ordering} {x : ℝ} (hx : Measures cmp x) (h0 : 0 ≤ x) :
    Measures (fun p q => cmp (p * p) (q * q)) (Real.sqrt x) := by
  intro p q hq
  have hpq : (0 : ℝ) ≤ (p : ℝ) / q := by positivity
  have e : (((p * p : Nat) : ℝ)) / ((q * q : Nat) : ℝ) = ((p : ℝ) / q) ^ 2 := by push_cast; rw [div_pow, sq, sq]
  show cmp (p * p) (q * q) = _
  rw [hx _ _ (Nat.mul_pos hq hq), e]
  refine compare_congr ?_ ?_
  · rcases hpq.eq_or_lt with h | h
    · rw [← h]; exact iff_of_false (by simpa using h0) (Real.sqrt_nonneg x).not_gt
    · rw [Real.sqrt_lt' h]
  · rw [Real.sqrt_eq_iff_eq_sq h0 hpq]

section
variable {m : Nat} {st : Bool} {z : ℝ} (hz : Lies m st z) (n : Nat)
include hz

theorem Lies.le_iff : (n : ℝ) ≤ z ↔ n ≤ m := by
  cases st
  · simp only [Lies, Bool.false_eq_true, if_false] at hz
    rw [hz, Nat.cast_le]
  · obtain ⟨h1, h2⟩ : (m : ℝ) < z ∧ z < m + 1 := by simpa [Lies] using hz
    refine ⟨fun h => Nat.lt_succ_iff.1 ?_, fun h => (Nat.cast_le.2 h).trans h1.le⟩
    exact_mod_cast h.trans_lt h2

theorem Lies.eq_iff : z = n ↔ m = n ∧ st = false := by
  cases st
  · simp only [Lies, Bool.false_eq_true, if_false] at hz
    rw [hz, Nat.cast_inj]; simp
  · obtain ⟨h1, h2⟩ : (m : ℝ) < z ∧ z < m + 1 := by simpa [Lies] using hz
    simp only [Bool.true_eq_false, and_false, iff_false]
    rintro rfl
    have h3 : m < n := by exact_mod_cast h1
    have h4 : n < m + 1 := by exact_mod_cast h2
    omega

theorem Lies.lt_iff : (n : ℝ) < z ↔ n < m ∨ n = m ∧ st = true := by
  rw [lt_iff_le_and_ne, hz.le_iff, ne_comm, Ne, hz.eq_iff]
  cases st <;> simp <;> omega

theorem Lies.lt_succ : z < m + 1 := by
  have := (hz.le_iff (m + 1)).not
  push_cast at this
  exact not_le.1 (this.2 (by omega))

end

/-- What a cut of the magnitude y, in quanta, answers: the quanta below, exactness, the half, and a draw of 16 bits. -/
structure CutAt (c : Cut) (rnd : Nat) (y : ℝ) : Prop where
  low : (c.units : ℝ) ≤ y
  high : y < c.units + 1
  exact : c.exact = true ↔ y = c.units
  gt : c.cmpHalf = .gt ↔ (c.units : ℝ) + 1 / 2 < y
  eq : c.cmpHalf = .eq ↔ y = (c.units : ℝ) + 1 / 2
  draw : 2 ^ 16 ≤ c.q16 + rnd ↔ (c.units : ℝ) + (1 - rnd / 2 ^ 16) ≤ y

/-- A cut above the exponent is a division with remainder: what is left over of z lies where the remainder says. -/
theorem cutAt_of_div {m s rnd : Nat} {st : Bool} {z : ℝ} (hz : Lies m st z) (hs : 0 < s) (hst : st = true → 16 ≤ s) (hr : rnd < 2 ^ 16) :
    CutAt { units := m / 2 ^ s, exact := m % 2 ^ s = 0 && !st
            cmpHalf := if 2 * (m % 2 ^ s) < 2 ^ s then .lt else if 2 * (m % 2 ^ s) = 2 ^ s && !st then .eq else .gt
            q16 := m % 2 ^ s * 2 ^ 16 / 2 ^ s } rnd (z / 2 ^ s) := by
  obtain ⟨d, hd⟩ : ∃ d, d = m / 2 ^ s := ⟨_, rfl⟩
  obtain ⟨r, hr'⟩ : ∃ r, r = m % 2 ^ s := ⟨_, rfl⟩
  obtain ⟨f, hf⟩ : ∃ f : ℝ, f = z - d * 2 ^ s := ⟨_, rfl⟩
  have hm : (m : ℝ) = d * 2 ^ s + r := by rw [hd, hr']; exact_mod_cast (Nat.div_add_mod' m (2 ^ s)).symm
  have hfr : Lies r st f := by
    unfold Lies at hz ⊢
    split
    · next h => rw [if_pos h] at hz; constructor <;> linarith [hz.1, hz.2]
    · next h => rw [if_neg h] at hz; linarith
  have hpos : (0 : ℝ) < 2 ^ s := by positivity
  have hy : z / 2 ^ s = d + f / 2 ^ s := by rw [hf]; field_simp; ring
  obtain ⟨h, hh⟩ : ∃ h, 2 ^ s = 2 * h := ⟨2 ^ (s - 1), by rw [← Nat.pow_succ']; congr 1; omega⟩
  have hhR : (2 : ℝ) ^ s = 2 * h := by exact_mod_cast hh
  have hhpos : (0 : ℝ) < h := by linarith
  have hrlt : r < 2 * h := hh ▸ hr' ▸ Nat.mod_lt _ (Nat.two_pow_pos _)
  rw [← hd, ← hr', hy]
  refine ⟨?_, ?_, ?_, ?_, ?_, ?_⟩ <;> dsimp only
  · have := (hfr.le_iff 0).2 (Nat.zero_le _)
    rw [le_add_iff_nonneg_right]
    exact div_nonneg (by simpa using this) hpos.le
  · rw [add_lt_add_iff_left, div_lt_one hpos]
    have : (r : ℝ) + 1 ≤ 2 ^ s := by rw [hhR]; exact_mod_cast hrlt
    exact hfr.lt_succ.trans_le this
  · have := hfr.eq_iff 0
    simp only [add_eq_left, div_eq_zero_iff, hpos.ne', or_false]
    simpa using this.symm
  · rw [add_lt_add_iff_left, lt_div_iff₀ hpos, hhR, show (1 : ℝ) / 2 * (2 * h) = h by ring, hfr.lt_iff, hh]
    cases st <;> (simp; omega)
  · rw [add_right_inj, div_eq_iff hpos.ne', hhR, show (1 : ℝ) / 2 * (2 * h) = h by ring, hfr.eq_iff, hh]
    cases st <;> simp
    omega
  · have hnat : 2 ^ 16 ≤ r * 2 ^ 16 / 2 ^ s + rnd ↔ (2 ^ 16 - rnd) * 2 ^ s ≤ r * 2 ^ 16 := by
      rw [← Nat.le_div_iff_mul_le (Nat.two_pow_pos s)]; omega
    have hsub : ((2 ^ 16 - rnd : Nat) : ℝ) = 2 ^ 16 - rnd := by rw [Nat.cast_sub hr.le]; norm_num
    have hreal : (d : ℝ) + (1 - rnd / 2 ^ 16) ≤ d + f / 2 ^ s ↔ ((2 ^ 16 - rnd : Nat) : ℝ) * 2 ^ s ≤ f * 2 ^ 16 := by
      rw [add_le_add_iff_left, le_div_iff₀ hpos, hsub, ← mul_le_mul_iff_left₀ (by norm_num : (0 : ℝ) < 2 ^ 16)]
      field_simp
    rw [hnat, hreal]
    cases st
    · have : f = r := by simpa [Lies] using hfr
      rw [this, ← Nat.cast_le (α := ℝ)]; norm_num
    · have e : (2 ^ s : Nat) = 2 ^ (s - 16) * 2 ^ 16 := by rw [← Nat.pow_add]; congr 1; have := hst rfl; omega
      have eR : (2 : ℝ) ^ s = ((2 ^ (s - 16) : Nat) : ℝ) * 2 ^ 16 := by exact_mod_cast e
      rw [e, eR, ← mul_assoc, ← mul_assoc, mul_le_mul_iff_left₀ (by norm_num : (0 : ℝ) < 2 ^ 16), ← Nat.cast_mul, hfr.le_iff,
        Nat.mul_le_mul_right_iff (by norm_num)]

/-- `cut` answers for the magnitude in quanta; what a sticky bit hides lies 16 bits or more below the quantum. -/
theorem cut_cutAt {m : Nat} {st : Bool} {z : ℝ} (hz : Lies m st z) (e q : Int) {rnd : Nat} (hst : st = true → e + 16 ≤ q) (hr : rnd < 2 ^ 16) :
    CutAt (cut m e q st) rnd (z * 2 ^ (e - q)) := by
  unfold cut
  split
  · next h =>
    obtain rfl : st = false := by
      cases st
      · rfl
      · have := hst rfl; omega
    have hz' : z = m := by simpa [Lies] using hz
    obtain ⟨k, hk⟩ := Int.eq_ofNat_of_zero_le (show 0 ≤ e - q by omega)
    have hy : z * 2 ^ (e - q) = ((m * 2 ^ (e - q).toNat : Nat) : ℝ) := by rw [hz', hk]; simp
    rw [hy]
    have hlt : (rnd : ℝ) / 2 ^ 16 < 1 := by rw [div_lt_one (by norm_num)]; exact_mod_cast hr
    refine ⟨le_rfl, by simp, by simp, ?_, ?_, ?_⟩ <;> dsimp only
    · simp
    · simp
    · simp only [Nat.zero_add]
      constructor <;> intro h <;> exfalso
      · omega
      · linarith
  · next h =>
    obtain ⟨s, hs⟩ := Int.eq_ofNat_of_zero_le (show 0 ≤ q - e by omega)
    have hy : z * 2 ^ (e - q) = z / 2 ^ s := by rw [show e - q = -(s : Int) by omega, zpow_neg, zpow_natCast, div_eq_mul_inv]
    rw [hy, show (q - e).toNat = s by omega]
    exact cutAt_of_div hz (by omega) (fun h => by have := hst h; omega) hr

/-- The decision to round away from zero is R107's, for neighbours u and u + 1 quanta of w, given as A / d and B / d. -/
theorem goesUp_iff {c : Cut} {rnd : Nat} {y w : ℝ} (hc : CutAt c rnd y) {cmp : Nat → Nat → Ordering} (hx : Measures cmp (y * w)) (hw : 0 < w)
    {A B d : Nat} (hd : 0 < d) (hr : rnd < 2 ^ 16) (hA : (A : ℝ) = c.units * w * d) (hB : (B : ℝ) = (c.units + 1) * w * d) (mode : Rm) (neg odd : Bool) :
    GoesUp mode neg odd rnd A B d cmp ↔ (!c.exact && roundsUp mode neg odd c rnd) = true := by
  have hd' : (0 : ℝ) < d := Nat.cast_pos.2 hd
  have hAd : (A : ℝ) / d = c.units * w := by rw [hA]; field_simp
  have hne : cmp A d ≠ .eq ↔ c.exact = false := by
    rw [Ne, hx.eq_iff hd, hAd, mul_left_inj' hw.ne', ← hc.exact, Bool.not_eq_true]
  have hmid : ((A + B : Nat) : ℝ) / (2 * d : Nat) = (c.units + 1 / 2) * w := by push_cast; rw [hA, hB]; field_simp; ring
  have hAB : A ≤ B := by
    have : (A : ℝ) ≤ B := by rw [hA, hB]; gcongr; linarith
    exact_mod_cast this
  have hrnd : ((2 ^ 16 - rnd : Nat) : ℝ) = 2 ^ 16 - rnd := by rw [Nat.cast_sub hr.le]; norm_num
  have hdraw : ((A * 2 ^ 16 + (B - A) * (2 ^ 16 - rnd) : Nat) : ℝ) / (d * 2 ^ 16 : Nat) = (c.units + (1 - rnd / 2 ^ 16)) * w := by
    rw [Nat.cast_add, Nat.cast_mul (B - A), hrnd, Nat.cast_sub hAB]; push_cast; rw [hA, hB]; field_simp; ring
  unfold GoesUp
  rw [hne]
  cases hex : c.exact
  case true => simp
  case false =>
    simp only [true_and, Bool.not_false, Bool.true_and]
    cases mode <;> simp only [roundsUp]
    case rne =>
      rw [hx.gt_iff (by omega), hx.eq_iff (by omega), hmid, mul_lt_mul_iff_left₀ hw, mul_left_inj' hw.ne', ← hc.gt, ← hc.eq]
      simp
    case rtz => simp
    case rup => simp
    case rst =>
      rw [hx.ge_iff (by positivity), hdraw, mul_le_mul_iff_left₀ hw, ← hc.draw]
      simp

/-- u quanta, a quantum being 2^k units of the least subnormal, are the magnitude of the code k 2^t + u, where the code's leading bit is
explicit or the quantum is the unit. -/
theorem units_add (f : Fmt) {k u : Nat} (hu : k = 0 ∨ 2 ^ f.t ≤ u) (hl : u ≤ 2 ^ (f.t + 1)) : f.units (k * 2 ^ f.t + u) = u * 2 ^ k := by
  have hpos := Nat.two_pow_pos f.t
  rw [Nat.pow_succ] at hl
  unfold Fmt.units
  rcases Nat.lt_or_ge u (2 ^ f.t) with h | h
  · obtain rfl : k = 0 := by omega
    simp [Nat.div_eq_of_lt h]
  · obtain ⟨v, rfl⟩ := Nat.exists_eq_add_of_le h
    rcases Nat.lt_or_ge v (2 ^ f.t) with h2 | h2
    · have e : k * 2 ^ f.t + (2 ^ f.t + v) = 2 ^ f.t * (k + 1) + v := by ring
      rw [e, Nat.mul_add_div hpos, Nat.mul_add_mod, Nat.div_eq_of_lt h2, Nat.mod_eq_of_lt h2]
      simp
    · obtain rfl : v = 2 ^ f.t := by omega
      have e : k * 2 ^ f.t + (2 ^ f.t + 2 ^ f.t) = 2 ^ f.t * (k + 2) := by ring
      rw [e, Nat.mul_div_cancel_left _ hpos, Nat.mul_mod_right]
      simp [Nat.pow_succ]; ring

/-- The magnitude is at least its leading bit's and below twice that. -/
theorem Lies.leading {m : Nat} {st : Bool} {z : ℝ} (hz : Lies m st z) (hm : m ≠ 0) : (2 : ℝ) ^ log2 m ≤ z ∧ z < 2 ^ (log2 m + 1) := by
  have h1 := (hz.le_iff (2 ^ log2 m)).2 (Nat.log2_self_le hm)
  have h2 := not_le.1 ((hz.le_iff (2 ^ (log2 m + 1))).not.2 (not_le.2 Nat.lt_log2_self))
  exact ⟨by exact_mod_cast h1, by exact_mod_cast h2⟩

/-- Tininess (R104), for a magnitude of y quanta at unbounded range, y in [2^t, 2^(t+1)), whose leading bit stands k above the least normal's.
Only at k = −1, where the quantum is half a unit, could rounding at unbounded range reach the least normal. -/
theorem tiny_iff {f : Fmt} {c : Cut} {rnd : Nat} {y : ℝ} {k : Int} {cmp : Nat → Nat → Ordering} {mode : Rm} {neg up : Bool} (hc : CutAt c rnd y)
    (hlo : (2 : ℝ) ^ f.t ≤ y) (hhi : y < 2 ^ (f.t + 1)) (hx : Measures cmp (y * 2 ^ k)) (hr : rnd < 2 ^ 16)
    (hup : up = (!c.exact && roundsUp mode neg (if f.t = 0 then (k + 1) % 2 = 1 else c.units % 2 = 1) c rnd)) :
    f.Tiny mode neg rnd cmp ↔ (if up ∧ c.units + 1 = 2 ^ (f.t + 1) then k + 1 else k) < 0 := by
  have hT : (1 : ℝ) ≤ 2 ^ f.t := one_le_pow₀ one_le_two
  have htwo : (2 : ℝ) ^ (f.t + 1) = 2 * 2 ^ f.t := pow_succ' 2 f.t
  have htwoN : 2 ^ (f.t + 1) = 2 * 2 ^ f.t := Nat.pow_succ'
  obtain ⟨last, hlast⟩ : ∃ last, last = 2 ^ (f.t + 1) - 1 := ⟨_, rfl⟩
  have hlastN : last + 1 = 2 ^ (f.t + 1) := by have := Nat.two_pow_pos (f.t + 1); omega
  have hlastR : (last : ℝ) + 1 = 2 ^ (f.t + 1) := by exact_mod_cast hlastN
  have hleast : cmp (2 ^ f.t) 1 = .lt ↔ y * 2 ^ k < 2 ^ f.t := by
    rw [hx.lt_iff one_pos]; push_cast; rw [div_one]
  rw [Fmt.Tiny, hleast, ← hlast]
  rcases lt_trichotomy k (-1) with h | h | h
  case inl =>
    have hp : (2 : ℝ) ^ k ≤ 1 / 4 := calc
      (2 : ℝ) ^ k ≤ 2 ^ (-2 : Int) := zpow_le_zpow_right₀ one_le_two (by omega)
      _ = 1 / 4 := by norm_num
    have hsmall : y * 2 ^ k < 2 ^ f.t / 2 := by nlinarith
    refine iff_of_true ⟨by linarith, fun hbelow => absurd ((hx.ge_iff two_pos).1 hbelow.1) (not_le.2 ?_)⟩ (by split <;> omega)
    push_cast; linarith
  case inr.inl =>
    subst h
    rw [show ((2 : ℝ) ^ (-1 : Int)) = 1 / 2 by norm_num] at hx ⊢
    have hge : cmp last 2 ≠ .lt ↔ (last : ℝ) ≤ y := by
      rw [hx.ge_iff two_pos]; push_cast; constructor <;> intro h2 <;> linarith
    rw [hge, and_iff_right (by linarith)]
    by_cases hu : c.units = last
    case pos =>
      have hodd : (if f.t = 0 then decide ((-1 + 1 : Int) % 2 = 1) else decide (c.units % 2 = 1)) = decide (0 < f.t) := by
        rcases Nat.eq_zero_or_pos f.t with h0 | h0
        · simp [h0]
        · have := Nat.two_pow_pos f.t
          simp [h0, Nat.ne_of_gt h0]; omega
      have hgo := goesUp_iff hc hx one_half_pos two_pos hr (A := last) (B := last + 1) (by rw [hu]; ring) (by rw [hu]; push_cast; ring) mode
        neg (decide (0 < f.t))
      rw [hgo, ← hodd, ← hup, and_iff_right (hu ▸ hc.low)]
      cases up <;> simp [hu, hlastN]
    case neg =>
      have hlt : ¬ (last : ℝ) ≤ y := by
        have h3 : c.units < last + 1 := by
          have : (c.units : ℝ) < last + 1 := by rw [hlastR]; exact hc.low.trans_lt hhi
          exact_mod_cast this
        have h4 : (c.units : ℝ) + 1 ≤ last := by exact_mod_cast (by omega : c.units + 1 ≤ last)
        linarith [hc.high]
      exact iff_of_true (fun hbelow => hlt hbelow.1) (by split <;> omega)
  case inr.inr =>
    have h1 : (1 : ℝ) ≤ 2 ^ k := one_le_zpow₀ one_le_two (by omega)
    exact iff_of_false (fun htiny => absurd htiny.1 (not_lt.2 (hlo.trans (le_mul_of_one_le_right (by linarith) h1)))) (by split <;> omega)

section
variable {f : Fmt} {mode : Rm} {neg st : Bool} {m rnd : Nat} {e : Int} {z : ℝ} {cmp : Nat → Nat → Ordering}
  (hz : Lies m st z) (hm : m ≠ 0) (hst : st = true → f.t + 16 ≤ log2 m) (hr : rnd < 2 ^ 16)
  (hx : Measures cmp (z * 2 ^ (e - f.unitExp)))
include hz hm hst hr hx

/-- The code that `roundMag` finds is the neighbour toward zero, or the next where R107 goes up; exactness as well. -/
theorem roundMag_code : ∃ a, cmp (f.units a) 1 ≠ .lt ∧ cmp (f.units (a + 1)) 1 = .lt ∧
    ((roundMag f mode neg m e st rnd).2.1 = true ↔ cmp (f.units a) 1 = .eq) ∧
    ((roundMag f mode neg m e st rnd).1 = a + 1 ∧ GoesUp mode neg (decide (a % 2 = 1)) rnd (f.units a) (f.units (a + 1)) 1 cmp ∨
      (roundMag f mode neg m e st rnd).1 = a ∧ ¬ GoesUp mode neg (decide (a % 2 = 1)) rnd (f.units a) (f.units (a + 1)) 1 cmp) := by
  obtain ⟨hlo, hhi⟩ := hz.leading hm
  obtain ⟨k, hk⟩ := Int.eq_ofNat_of_zero_le (show 0 ≤ max (e + log2 m) (1 - (f.bias : Int)) - (1 - f.bias) by omega)
  obtain ⟨q, hq⟩ : ∃ q : Int, q = max (e + log2 m) (1 - (f.bias : Int)) - f.t := ⟨_, rfl⟩
  have hc : CutAt (cut m e q st) rnd (z * 2 ^ (e - q)) := cut_cutAt hz e q (fun h => by have := hst h; omega) hr
  obtain ⟨u, hu⟩ : ∃ u, u = (cut m e q st).units := ⟨_, rfl⟩
  have hqk : q - f.unitExp = k := by simp only [Fmt.unitExp]; omega
  have hxw : z * 2 ^ (e - f.unitExp) = z * 2 ^ (e - q) * 2 ^ k := by
    rw [mul_assoc, ← zpow_natCast, ← zpow_add₀ two_ne_zero, ← hqk]; congr 2; omega
  have hult : u < 2 ^ (f.t + 1) := by
    have h : (u : ℝ) < 2 ^ (f.t + 1) := calc
      (u : ℝ) ≤ z * 2 ^ (e - q) := hu ▸ hc.low
      _ < 2 ^ (log2 m + 1) * 2 ^ (e - q) := by gcongr
      _ = 2 ^ ((log2 m + 1 : Nat) + (e - q)) := by rw [zpow_add₀ two_ne_zero, zpow_natCast]
      _ ≤ 2 ^ ((f.t + 1 : Nat) : Int) := zpow_le_zpow_right₀ one_le_two (by omega)
      _ = 2 ^ (f.t + 1) := zpow_natCast _ _
    exact_mod_cast h
  have huge : k = 0 ∨ 2 ^ f.t ≤ u := by
    refine or_iff_not_imp_left.2 fun hk0 => ?_
    have h : (2 : ℝ) ^ f.t ≤ z * 2 ^ (e - q) := calc
      (2 : ℝ) ^ f.t = 2 ^ ((log2 m : Nat) + (e - q)) := by rw [← zpow_natCast]; congr 1; omega
      _ = 2 ^ log2 m * 2 ^ (e - q) := by rw [zpow_add₀ two_ne_zero, zpow_natCast]
      _ ≤ z * 2 ^ (e - q) := by gcongr
    have h2 : ((2 ^ f.t : Nat) : ℝ) < (u + 1 : Nat) := by
      have := hc.high; rw [← hu] at this; push_cast; linarith
    exact Nat.lt_succ_iff.1 (by exact_mod_cast h2)
  have hA : f.units (k * 2 ^ f.t + u) = u * 2 ^ k := units_add f huge hult.le
  have hB : f.units (k * 2 ^ f.t + u + 1) = (u + 1) * 2 ^ k := by
    rw [Nat.add_assoc]; exact units_add f (huge.imp_right (Nat.le_trans · (Nat.le_succ u))) hult
  have hw : (0 : ℝ) < 2 ^ k := by positivity
  rw [hxw] at hx
  have hup := goesUp_iff hc hx hw one_pos hr (A := u * 2 ^ k) (B := (u + 1) * 2 ^ k) (by rw [← hu]; push_cast; ring)
    (by rw [← hu]; push_cast; ring) mode neg (decide ((k * 2 ^ f.t + u) % 2 = 1))
  refine ⟨k * 2 ^ f.t + u, ?_, ?_, ?_, ?_⟩
  · rw [hA, hx.ge_iff one_pos]; push_cast; rw [div_one, mul_le_mul_iff_left₀ hw, hu]; exact hc.low
  · rw [hB, hx.lt_iff one_pos]; push_cast; rw [div_one, mul_lt_mul_iff_left₀ hw, hu]; exact hc.high
  · rw [hA, hx.eq_iff one_pos]; push_cast; rw [div_one, mul_left_inj' hw.ne', hu, ← hc.exact, hq]; rfl
  · rw [hA, hB, hup, hu, hq, show k = (max (e + log2 m) (1 - (f.bias : Int)) - (1 - f.bias)).toNat by omega]
    simp only [roundMag]
    split <;> simp_all

theorem roundMag_tiny : (roundMag f mode neg m e st rnd).2.2 = true ↔ f.Tiny mode neg rnd cmp := by
  obtain ⟨hlo, hhi⟩ := hz.leading hm
  obtain ⟨q, hq⟩ : ∃ q : Int, q = e + log2 m - f.t := ⟨_, rfl⟩
  obtain ⟨k, hk⟩ : ∃ k : Int, k = e + log2 m - (1 - f.bias) := ⟨_, rfl⟩
  have hc : CutAt (cut m e q st) rnd (z * 2 ^ (e - q)) := cut_cutAt hz e q (fun h => by have := hst h; omega) hr
  have hylo : (2 : ℝ) ^ f.t ≤ z * 2 ^ (e - q) := calc
    (2 : ℝ) ^ f.t = 2 ^ ((log2 m : Nat) + (e - q)) := by rw [← zpow_natCast]; congr 1; omega
    _ = 2 ^ log2 m * 2 ^ (e - q) := by rw [zpow_add₀ two_ne_zero, zpow_natCast]
    _ ≤ z * 2 ^ (e - q) := by gcongr
  have hyhi : z * 2 ^ (e - q) < 2 ^ (f.t + 1) := calc
    z * 2 ^ (e - q) < 2 ^ (log2 m + 1) * 2 ^ (e - q) := by gcongr
    _ = 2 ^ ((log2 m + 1 : Nat) + (e - q)) := by rw [zpow_add₀ two_ne_zero, zpow_natCast]
    _ = 2 ^ (f.t + 1) := by rw [← zpow_natCast]; congr 1; push_cast; omega
  have hxw : z * 2 ^ (e - f.unitExp) = z * 2 ^ (e - q) * 2 ^ k := by
    rw [mul_assoc, ← zpow_add₀ two_ne_zero, Fmt.unitExp]; congr 2; omega
  rw [hxw] at hx
  rw [tiny_iff hc hylo hyhi hx hr rfl, hk, hq]
  simp only [roundMag, decide_eq_true_eq, Bool.and_eq_true]
  split <;> split <;> simp_all <;> omega

end

theorem units_one (f : Fmt) : f.units 1 = 1 := by
  unfold Fmt.units
  rcases Nat.eq_zero_or_pos f.t with h | h
  · simp [h]
  · simp [Nat.div_eq_of_lt (Nat.one_lt_two_pow (Nat.ne_of_gt h))]

/-- A magnitude that rounds to zero is tiny: the range being unbounded does not bring it to the least normal. -/
theorem tiny_of_zero {f : Fmt} {mode : Rm} {neg : Bool} {rnd : Nat} {cmp : Nat → Nat → Ordering} {x : ℝ} (hx : Measures cmp x) (hr : rnd < 2 ^ 16)
    (hlt : cmp 1 1 = .lt) (hdown : ¬ GoesUp mode neg false rnd 0 1 1 cmp) (hne : cmp 0 1 ≠ .eq) : f.Tiny mode neg rnd cmp := by
  have hx1 : x < 1 := by simpa using (hx.lt_iff one_pos).1 hlt
  have hT : (1 : ℝ) ≤ 2 ^ f.t := one_le_pow₀ one_le_two
  refine ⟨by rw [hx.lt_iff one_pos]; push_cast; linarith, fun ⟨hge, hup⟩ => hdown ?_⟩
  rw [hx.ge_iff two_pos] at hge
  have hr' : ((2 ^ 16 - rnd : Nat) : ℝ) = 2 ^ 16 - rnd := by rw [Nat.cast_sub hr.le]; norm_num
  rcases Nat.eq_zero_or_pos f.t with h | h
  case inl =>
    simp only [h, Nat.zero_add, Nat.pow_one, Nat.add_one_sub_one, lt_self_iff_false, decide_false] at hge hup
    obtain ⟨-, hup⟩ := hup
    refine ⟨hne, ?_⟩
    cases mode <;> dsimp only at hup ⊢
    case rne =>
      simp only [Bool.false_eq_true, and_false, or_false, hx.gt_iff (show 0 < 2 * 2 by norm_num)] at hup
      simp only [hx.gt_iff (show 0 < 2 * 1 by norm_num)]
      left; norm_num at hup ⊢; linarith
    case rup => exact hup
    case rdn => exact hup
    case rst =>
      rw [hx.ge_iff (by norm_num)] at hup ⊢
      push_cast [hr'] at hup ⊢
      have : (0 : ℝ) ≤ rnd := Nat.cast_nonneg _
      norm_num at hup ⊢
      linarith
  case inr =>
    have h2 : (2 : ℝ) ≤ 2 ^ f.t := by simpa using pow_le_pow_right₀ one_le_two h
    have h3 : ((2 ^ (f.t + 1) - 1 : Nat) : ℝ) = 2 * 2 ^ f.t - 1 := by
      rw [Nat.cast_sub Nat.one_le_two_pow]; push_cast; rw [pow_succ']
    rw [h3] at hge
    push_cast at hge
    linarith

/-- `roundFloat` is `FitRange` after `roundMag`. -/
theorem roundFloat_fin {f : Fmt} {mode : Rm} {neg st exact tiny : Bool} {m rnd g : Nat} {e : Int} (sat : Bool) (hm : m ≠ 0)
    (hmag : roundMag f mode neg m e st rnd = (g, exact, tiny)) (hzero : g = 0 → exact = false → tiny = true) :
    roundFloat f mode sat rnd (.fin neg m e st) = {
      code := (f.fit mode sat neg g exact tiny).1, fx := (f.fit mode sat neg g exact tiny).2, drew := !exact && mode = .rst } := by
  simp only [roundFloat, hm, decide_false, Bool.false_and, Bool.false_eq_true, if_false, hmag, Fmt.fit]
  by_cases h0 : g = 0
  case pos => cases exact <;> simp_all [fxNX, fxUF]
  case neg =>
    simp only [h0, if_false]
    by_cases hneg : neg = true ∧ f.signed = false
    case pos => cases sat <;> cases tiny <;> simp [hneg, fxNX, fxUF, fxNV]
    case neg =>
      have hneg' : (neg && !f.signed) = false := by cases neg <;> simp_all
      simp only [hneg, hneg', Bool.false_eq_true, if_false]
      split
      · cases exact <;> cases tiny <;> simp [fxNX, fxUF]
      · cases sat
        · cases f.infCode
          · simp [fxOF, fxNX, fxNV]
          · cases neg <;> cases mode <;> simp [fxOF, fxNX]
        · simp [fxOF, fxNX]

/-- A nonzero finite value is rounded as R104, R107 and R110 say. -/
theorem roundFloat_rounds {f : Fmt} {mode : Rm} {neg st : Bool} {m rnd : Nat} {e : Int} {z : ℝ} {cmp : Nat → Nat → Ordering} (sat : Bool)
    (hz : Lies m st z) (hm : m ≠ 0) (hst : st = true → f.t + 16 ≤ log2 m) (hr : rnd < 2 ^ 16)
    (hx : Measures cmp (z * 2 ^ (e - f.unitExp))) : f.Rounds mode sat rnd neg cmp (roundFloat f mode sat rnd (.fin neg m e st)) := by
  obtain ⟨a, hlo, hhi, hex, hg⟩ := roundMag_code (mode := mode) (neg := neg) hz hm hst hr hx
  have htiny := roundMag_tiny (mode := mode) (neg := neg) hz hm hst hr hx
  obtain ⟨⟨g, exact, tiny⟩, hmag⟩ : ∃ r, r = roundMag f mode neg m e st rnd := ⟨_, rfl⟩
  rw [← hmag] at hex hg htiny
  dsimp only at hex hg htiny
  have hzero : g = 0 → exact = false → tiny = true := by
    intro h0 hne
    obtain ⟨h1, -⟩ | ⟨h1, hdown⟩ := hg
    · omega
    · obtain rfl : a = 0 := by omega
      have u0 : f.units 0 = 0 := by simp [Fmt.units]
      rw [u0] at hdown hex
      rw [units_one] at hdown hhi
      exact htiny.2 (tiny_of_zero hx hr hhi hdown fun h => by simp [hex.2 h] at hne)
  refine ⟨a, g, exact, tiny, hlo, hhi, hex, hg, htiny, ?_, ?_⟩
  · rw [roundFloat_fin sat hm hmag.symm hzero]
  · rw [roundFloat_fin sat hm hmag.symm hzero]; simp

/-! ## Quotients and roots -/

/-- Without flags of its own an operation rounds its result. -/
theorem roundExact_valid (f : Fmt) (mode : Rm) (sat : Bool) (rnd : Nat) (v : Val) :
    roundExact f mode sat rnd ⟨v, false, false⟩ = roundFloat f mode sat rnd v := by
  simp [roundExact]

theorem le_log2_of_two_pow_le {n k : Nat} (h : 2 ^ k ≤ n) : k ≤ log2 n :=
  (Nat.le_log2 (Nat.ne_of_gt (Nat.lt_of_lt_of_le (Nat.two_pow_pos k) h))).2 h

/-- A quotient lies where the integer quotient and the remainder say. -/
theorem lies_div (m n : Nat) (hn : n ≠ 0) : Lies (m / n) (m % n != 0) ((m : ℝ) / n) := by
  have hn' : (0 : ℝ) < n := Nat.cast_pos.2 (Nat.pos_of_ne_zero hn)
  have hm : (m : ℝ) = n * (m / n : Nat) + (m % n : Nat) := by exact_mod_cast (Nat.div_add_mod m n).symm
  have hlt : ((m % n : Nat) : ℝ) < n := Nat.cast_lt.2 (Nat.mod_lt _ (Nat.pos_of_ne_zero hn))
  unfold Lies
  by_cases h : m % n = 0
  · simp only [h, bne_self_eq_false, Bool.false_eq_true, if_false, div_eq_iff hn'.ne']
    rw [h] at hm; push_cast at hm; linarith
  · have h0 : (0 : ℝ) < (m % n : Nat) := Nat.cast_pos.2 (Nat.pos_of_ne_zero h)
    rw [if_pos (by simpa using h), lt_div_iff₀ hn', div_lt_iff₀ hn']
    constructor <;> nlinarith

theorem div_rounds {f : Fmt} (mode : Rm) (sat : Bool) {rnd : Nat} (hr : rnd < 2 ^ 16) (neg neg' : Bool) {m m' : Nat} (e e' : Int) (hm : m ≠ 0)
    (hm' : m' ≠ 0) : f.Rounds mode sat rnd (neg != neg') (cmpMag m m' (e - e' - f.unitExp))
      (roundExact f mode sat rnd (Val.div f.quotBits (.fin neg m e false) (.fin neg' m' e' false))) := by
  obtain ⟨sh, hsh⟩ : ∃ sh, sh = f.quotBits + log2 m' + 1 := ⟨_, rfl⟩
  have hbig : 2 ^ (f.t + 20) ≤ m * 2 ^ sh / m' := by
    rw [Nat.le_div_iff_mul_le (Nat.pos_of_ne_zero hm')]
    calc 2 ^ (f.t + 20) * m' ≤ 2 ^ (f.t + 20) * 2 ^ (log2 m' + 1) := Nat.mul_le_mul_left _ Nat.lt_log2_self.le
      _ = 1 * 2 ^ sh := by rw [hsh, Fmt.quotBits, ← Nat.pow_add, Nat.one_mul]; rfl
      _ ≤ m * 2 ^ sh := Nat.mul_le_mul_right _ (Nat.pos_of_ne_zero hm)
  have hval : Val.div f.quotBits (.fin neg m e false) (.fin neg' m' e' false) =
      ⟨.fin (neg != neg') (m * 2 ^ sh / m') (e - e' - sh) (m * 2 ^ sh % m' != 0), false, false⟩ := by
    simp only [Val.div, hm, hm', if_false, hsh]
  rw [hval, roundExact_valid]
  refine roundFloat_rounds sat (lies_div _ _ hm') ?_ (fun _ => ?_) hr ?_
  · exact Nat.ne_of_gt (Nat.lt_of_lt_of_le (Nat.two_pow_pos _) hbig)
  · have := le_log2_of_two_pow_le hbig; omega
  · have hx := measures_cmpMag m m' (e - e' - f.unitExp) (Nat.pos_of_ne_zero hm')
    have : ((m * 2 ^ sh : Nat) : ℝ) / m' * 2 ^ (e - e' - sh - f.unitExp) = m / m' * 2 ^ (e - e' - f.unitExp) := by
      push_cast
      rw [show e - e' - f.unitExp = sh + (e - e' - sh - f.unitExp) by ring, zpow_add₀ two_ne_zero, zpow_natCast]
      ring
    rwa [this]

/-- From a root known to 2^(k+1), `sqrtBits` finds the integer root. -/
theorem sqrtBits_spec (x : Nat) (k r : Nat) (h1 : r * r ≤ x) (h2 : x < (r + 2 ^ (k + 1)) * (r + 2 ^ (k + 1))) :
    sqrtBits x k r * sqrtBits x k r ≤ x ∧ x < (sqrtBits x k r + 1) * (sqrtBits x k r + 1) := by
  induction k generalizing r with
  | zero =>
    unfold sqrtBits
    split
    · next h => exact ⟨h, h2⟩
    · next h => exact ⟨h1, Nat.lt_of_not_le h⟩
  | succ k ih =>
    unfold sqrtBits
    split
    · next h =>
      refine ih _ h ?_
      rwa [Nat.add_assoc, ← Nat.two_mul, ← Nat.pow_succ']
    · next h => exact ih _ h1 (Nat.lt_of_not_le h)

theorem sqrtBits_log2 (x : Nat) : sqrtBits x (log2 x / 2 + 1) 0 * sqrtBits x (log2 x / 2 + 1) 0 ≤ x ∧
    x < (sqrtBits x (log2 x / 2 + 1) 0 + 1) * (sqrtBits x (log2 x / 2 + 1) 0 + 1) := by
  refine sqrtBits_spec x _ 0 (Nat.zero_le _) ?_
  calc x < 2 ^ (log2 x + 1) := Nat.lt_log2_self
    _ ≤ 2 ^ ((log2 x / 2 + 1 + 1) + (log2 x / 2 + 1 + 1)) := Nat.pow_le_pow_right two_pos (by omega)
    _ = _ := by rw [Nat.pow_add, Nat.zero_add]

/-- A root lies where the integer root and its square say. -/
theorem lies_sqrt {x r : Nat} (h1 : r * r ≤ x) (h2 : x < (r + 1) * (r + 1)) : Lies r (r * r != x) (Real.sqrt x) := by
  unfold Lies
  by_cases h : r * r = x
  · simp [← h]
  · rw [if_pos (by simpa using h), Real.lt_sqrt (Nat.cast_nonneg r), Real.sqrt_lt' (by positivity), sq, sq]
    exact ⟨by exact_mod_cast lt_of_le_of_ne h1 h, by exact_mod_cast h2⟩

theorem sqrt_rounds {f : Fmt} (mode : Rm) (sat : Bool) {rnd : Nat} (hr : rnd < 2 ^ 16) {m : Nat} (e : Int) (hm : m ≠ 0) :
    f.Rounds mode sat rnd false (fun p q => cmpMag m 1 (e - 2 * f.unitExp) (p * p) (q * q))
      (roundExact f mode sat rnd (Val.sqrt f.quotBits (.fin false m e false))) := by
  obtain ⟨sh, hsh⟩ : ∃ sh, sh = 2 * f.quotBits + (if (e - 2 * f.quotBits) % 2 = 0 then 0 else 1) := ⟨_, rfl⟩
  obtain ⟨x, hx⟩ : ∃ x, x = m * 2 ^ sh := ⟨_, rfl⟩
  obtain ⟨r, hrt⟩ : ∃ r, r = sqrtBits x (log2 x / 2 + 1) 0 := ⟨_, rfl⟩
  obtain ⟨h1, h2⟩ : r * r ≤ x ∧ x < (r + 1) * (r + 1) := hrt ▸ sqrtBits_log2 x
  have hval : Val.sqrt f.quotBits (.fin false m e false) = ⟨.fin false r ((e - sh) / 2) (r * r != x), false, false⟩ := by
    simp only [Val.sqrt, hm, if_false, Bool.false_eq_true, hrt, hx, hsh]
  obtain ⟨k, hk⟩ : ∃ k : Int, e - sh = 2 * k := by
    refine ⟨(e - sh) / 2, ?_⟩
    rw [hsh]; split <;> push_cast <;> omega
  have hbig : 2 ^ (f.t + 20) ≤ r := by
    have h3 : 2 ^ (f.t + 20) * 2 ^ (f.t + 20) ≤ x := by
      rw [hx, ← Nat.pow_add]
      calc 2 ^ (f.t + 20 + (f.t + 20)) ≤ 1 * 2 ^ sh := by rw [Nat.one_mul, hsh, Fmt.quotBits]; exact Nat.pow_le_pow_right two_pos (by omega)
        _ ≤ m * 2 ^ sh := Nat.mul_le_mul_right _ (Nat.pos_of_ne_zero hm)
    exact Nat.lt_succ_iff.1 (Nat.mul_self_lt_mul_self_iff.1 (h3.trans_lt h2))
  rw [hval, roundExact_valid]
  refine roundFloat_rounds sat (lies_sqrt h1 h2) ?_ (fun _ => ?_) hr ?_
  · exact Nat.ne_of_gt (Nat.lt_of_lt_of_le (Nat.two_pow_pos _) hbig)
  · have := le_log2_of_two_pow_le hbig; omega
  · have hs := (measures_cmpMag m 1 (e - 2 * f.unitExp) one_pos).sqrt (by positivity)
    have : Real.sqrt x * 2 ^ ((e - sh) / 2 - f.unitExp) = Real.sqrt ((m : ℝ) / (1 : Nat) * 2 ^ (e - 2 * f.unitExp)) := by
      have h4 : (m : ℝ) / (1 : Nat) * 2 ^ (e - 2 * f.unitExp) = x * (2 ^ (k - f.unitExp)) ^ 2 := by
        rw [hx, show e - 2 * f.unitExp = sh + 2 * (k - f.unitExp) by omega, zpow_add₀ two_ne_zero, zpow_natCast, two_mul,
          zpow_add₀ two_ne_zero]
        push_cast; ring
      rw [h4, Real.sqrt_mul (Nat.cast_nonneg x), Real.sqrt_sq (by positivity), show (e - sh) / 2 = k by omega]
    rwa [this]

/-- A number m × 2^e is compared exactly. -/
theorem measures_fin (f : Fmt) (m : Nat) (e : Int) : Measures (cmpMag m 1 (e - f.unitExp)) (m * 2 ^ (e - f.unitExp)) := by
  simpa using measures_cmpMag m 1 (e - f.unitExp) one_pos

theorem lies_exact (m : Nat) : Lies m false (m : ℝ) := by simp [Lies]

theorem fin_rounds {f : Fmt} (mode : Rm) (sat : Bool) {rnd : Nat} (hr : rnd < 2 ^ 16) (neg : Bool) {m : Nat} (e : Int) (hm : m ≠ 0) :
    f.Rounds mode sat rnd neg (cmpMag m 1 (e - f.unitExp)) (roundFloat f mode sat rnd (.fin neg m e false)) :=
  roundFloat_rounds sat (lies_exact m) hm (fun h => by cases h) hr (measures_fin f m e)

/-! ## Scalar results -/

/-- Everything that an instruction does which writes v beside the flags and the draw of a rounding (R104, R109, R148). -/
theorem roundedResult_writesF (s : State) (d : Reg) (r : Rounded) (v : Word) :
    WritesF s d v r.fx r.drew (((s.genStepped r.drew).raise r.fx).result d v) := by
  obtain ⟨hval, hoth, hth, -⟩ := result_writesS ((s.genStepped r.drew).raise r.fx) d v
  have hgen : s.genStepped r.drew = { s with th := { s.th with gen := if r.drew then genStep s.th.gen else s.th.gen } } := by
    unfold State.genStepped; split <;> rfl
  refine ⟨hval, fun q hq => ?_, ?_, OnlyThread.of_eq ?_ ?_ ?_ ?_⟩
  · rw [hoth q hq, hgen]; rfl
  · rw [hth, hgen]; rfl
  all_goals simp [State.result_eq, hgen, State.raise]

theorem fresult_writesF (s : State) (d : Reg) (r : Rounded) : WritesF s d (wd r.code) r.fx r.drew (s.fresult d r) :=
  roundedResult_writesF s d r (wd r.code)

theorem fop_writesF (s : State) (op : FOp) (f : FFmt) (rm : RmSel) (d a b : Reg) :
    let fm := fmtOf f.ety
    let r := op.eval fm (s.scalarMode rm) (genDraw s.th.gen) (s.low a fm) (s.low b fm)
    WritesF s d (wd r.code) r.fx r.drew (s.fop op f rm d a b) := fresult_writesF s d _

/-- Settles O7: rounding is R107's and R110's for exact values, quotients and roots; each operation rounds its exact result by it. -/
theorem scalarFloatResults : Obligations.ScalarFloatResults := by
  refine ⟨fun ty f mode sat rnd _ hr _ => ⟨fun neg m e hm => fin_rounds mode sat hr neg e hm,
    fun neg m e neg' m' e' hm hm' => div_rounds mode sat hr neg neg' e e' hm hm', fun m e hm => sqrt_rounds mode sat hr e hm,
    fun neg e => rfl, fun signalling => rfl, fun neg => ?_⟩, fun s f rm d a b => ?_⟩
  · simp only [roundFloat]
    cases neg <;> cases f.signed <;> cases sat <;> cases f.infCode <;> rfl
  · exact ⟨completes_next (fop_writesF s .add f rm d a b), completes_next (fop_writesF s .sub f rm d a b),
      completes_next (fop_writesF s .mul f rm d a b), completes_next (fop_writesF s .div f rm d a b),
      completes_next (fop_writesF s .sqrt f rm d a 0)⟩

end Sys2Proof.Machine
end

section
/-! SUPPORT. NaN operands, a zero divisor, roots of negative numbers, the lesser and the greater (05 R102, R104; 06 R148; O8). -/

namespace Sys2Proof.Machine

/-! ## NaN operands (R102) -/

@[simp] theorem Val.neg_isNan (a : Val) : a.neg.isNan = a.isNan := by cases a <;> rfl
@[simp] theorem Val.neg_isSnan (a : Val) : a.neg.isSnan = a.isSnan := by cases a <;> rfl

section
variable {a b : Val} (h : a.isNan = true ∨ b.isNan = true)
include h

theorem Val.add_nan (rdn : Bool) : Val.add rdn a b = ⟨.anyNan a b, false, false⟩ := by
  cases a <;> cases b <;> simp_all [Val.isNan, Val.add]

theorem Val.mul_nan : Val.mul a b = ⟨.anyNan a b, false, false⟩ := by
  cases a <;> cases b <;> simp_all [Val.isNan, Val.mul]

theorem Val.div_nan (bits : Nat) : Val.div bits a b = ⟨.anyNan a b, false, false⟩ := by
  cases a <;> cases b <;> simp_all [Val.isNan, Val.div]

end

theorem roundExact_anyNan (f : Fmt) (m : Rm) (sat : Bool) (rnd : Nat) (a b : Val) : roundExact f m sat rnd ⟨.anyNan a b, false, false⟩ =
    { code := f.nan, fx := if a.isSnan = true ∨ b.isSnan = true then 16 else 0, drew := false } := by
  rw [roundExact_valid]
  simp only [Val.anyNan, roundFloat, Bool.or_eq_true, fxNV]

/-- A NaN operand of a sum, difference, product or quotient gives the canonical NaN, and NV when one signals. -/
theorem FOp.eval_nan (op : FOp) (hop : op ≠ .sqrt) (f : Fmt) (m : Rm) (rnd u w : Nat)
    (h : (f.decode u).isNan = true ∨ (f.decode w).isNan = true) : op.eval f m rnd u w =
      { code := f.nan, fx := if (f.decode u).isSnan = true ∨ (f.decode w).isSnan = true then 16 else 0, drew := false } := by
  cases op with
  | add => rw [FOp.eval, Val.add_nan h, roundExact_anyNan]
  | sub => rw [FOp.eval, Val.add_nan (by simpa using h), roundExact_anyNan, Val.neg_isSnan]
  | mul => rw [FOp.eval, Val.mul_nan h, roundExact_anyNan]
  | div => rw [FOp.eval, Val.div_nan h, roundExact_anyNan]
  | sqrt => exact absurd rfl hop

/-! ## The lesser and the greater -/

theorem Val.eq_comm (x y : Val) : Val.eq x y = Val.eq y x := by
  simp only [Val.eq, Bool.and_assoc, Bool.and_left_comm, Bool.and_comm]

theorem fminmax_fx (f : Fmt) (big : Bool) (u w : Nat) :
    (fminmax f big u w).2 = if (f.decode u).isSnan = true ∨ (f.decode w).isSnan = true then 16 else 0 := by
  simp only [fminmax, Bool.or_eq_true, fxNV]
  split <;> (try split) <;> rfl

section
variable (f : Fmt) (big : Bool) {u w : Nat}

theorem fminmax_nans (hu : (f.decode u).isNan = true) (hw : (f.decode w).isNan = true) : (fminmax f big u w).1 = f.nan := by
  simp [fminmax, hu, hw]

theorem fminmax_nan_left (hu : (f.decode u).isNan = true) (hw : (f.decode w).isNan = false) : (fminmax f big u w).1 = w := by
  simp [fminmax, hu, hw]

theorem fminmax_nan_right (hu : (f.decode u).isNan = false) (hw : (f.decode w).isNan = true) : (fminmax f big u w).1 = u := by
  simp [fminmax, hu, hw]

/-- Without a NaN the second operand is taken when it is less, −0 below +0, or for the maximum when it is not. -/
theorem fminmax_numbers (hu : (f.decode u).isNan = false) (hw : (f.decode w).isNan = false) :
    let secondIsLess := Val.lt (f.decode w) (f.decode u) = true ∨
      Val.eq (f.decode u) (f.decode w) = true ∧ (f.decode w).isNeg = true ∧ (f.decode u).isNeg = false
    (fminmax f false u w).1 = (if secondIsLess then w else u) ∧ (fminmax f true u w).1 = (if secondIsLess then u else w) := by
  have hless : Val.less (f.decode w) (f.decode u) = true ↔ Val.lt (f.decode w) (f.decode u) = true ∨
      Val.eq (f.decode u) (f.decode w) = true ∧ (f.decode w).isNeg = true ∧ (f.decode u).isNeg = false := by
    simp [Val.less, Val.eq_comm (f.decode w), and_assoc]
  dsimp only
  simp only [← hless, fminmax, hu, hw, Bool.false_eq_true, if_false]
  cases Val.less (f.decode w) (f.decode u) <;> simp

end

theorem isSnan_isNan {x : Val} (h : x.isNan = false) : x.isSnan = false := by cases x <;> simp_all [Val.isNan, Val.isSnan]

/-! ## The scalar instructions -/

theorem fmtOf_ffmt (f : FFmt) : (fmtOf f.ety).signed = true ∧ (fmtOf f.ety).negZero = true := by cases f <;> exact ⟨rfl, rfl⟩

theorem pack_ffmt (f : FFmt) (neg : Bool) (c : Nat) : (fmtOf f.ety).pack neg c = c + if neg then 2 ^ ((fmtOf f.ety).width - 1) else 0 := by
  obtain ⟨hs, hz⟩ := fmtOf_ffmt f
  cases neg <;> simp [Fmt.pack, hs, hz, Nat.add_comm]

section
variable (s : State) (f : FFmt) (rm : RmSel) (d a b : Reg)

/-- The operation's result, when it is r, is written. -/
theorem fop_completes (op : FOp) {r : Rounded} {i : Instr} (hi : exec i s = .next (s.fop op f rm d a b))
    (hr : op.eval (fmtOf f.ety) (s.scalarMode rm) (genDraw s.th.gen) (s.low a (fmtOf f.ety)) (s.low b (fmtOf f.ety)) = r) :
    Completes (exec i s) (WritesF s d (wd r.code) r.fx r.drew) := by
  rw [hi, ← hr]; exact completes_next (fop_writesF s op f rm d a b)

/-- `fmin` and `fmax` write what `fminmax` gives. -/
theorem fmm_completes (mx : Bool) : Completes (.next (s.fmm mx f d a b)) (WritesF s d
    (wd (fminmax (fmtOf f.ety) mx (s.low a (fmtOf f.ety)) (s.low b (fmtOf f.ety))).1)
    (fminmax (fmtOf f.ety) mx (s.low a (fmtOf f.ety)) (s.low b (fmtOf f.ety))).2 false) :=
  completes_next (fresult_writesF s d { code := _, fx := _, drew := false })

end

/-- Settles O8: each clause is what the exact operation answers for such operands. -/
theorem floatSpecialCases : Obligations.FloatSpecialCases := by
  intro s f rm d a b fm u w x y nv
  have hmm := fun mx => fmm_completes s f d a b mx
  simp only [fminmax_fx] at hmm
  refine ⟨fun h => ?nan, fun n m e st n' e' st' inf hx hm hy hinf => ?zeroDivisor, fun e st hx => ?rootOfZero, fun m e st hx hm => ?rootOfNegative,
    fun hx hy => ?left, fun hx hy => ?right, fun hx hy => ?both, fun hx hy => ?neither⟩
  case nan =>
    have hnan := fun op hop => FOp.eval_nan op hop fm (s.scalarMode rm) (genDraw s.th.gen) u w h
    exact ⟨fop_completes s f rm d a b .add rfl (hnan .add nofun), fop_completes s f rm d a b .sub rfl (hnan .sub nofun),
      fop_completes s f rm d a b .mul rfl (hnan .mul nofun), fop_completes s f rm d a b .div rfl (hnan .div nofun)⟩
  case zeroDivisor =>
    refine fop_completes s f rm d a b .div (r := { code := _, fx := 8, drew := false }) rfl ?_
    have hdiv : Val.div fm.quotBits x y = ⟨.inf (n != n'), false, true⟩ := by simp [hx, hy, Val.div, hm]
    have hs : fm.signed = true := (fmtOf_ffmt f).1
    have hpack : fm.pack (n != n') inf = inf + if n = n' then 0 else 2 ^ (fm.width - 1) := by
      rw [pack_ffmt f]; cases n <;> cases n' <;> rfl
    change roundExact fm _ false _ (Val.div fm.quotBits x y) = _
    rw [hdiv, ← hpack]
    simp [roundExact, roundFloat, hs, hinf, fxDZ]
  case rootOfZero =>
    refine fop_completes s f rm d a 0 .sqrt (r := { code := _, fx := 0, drew := false }) rfl ?_
    have hsqrt : Val.sqrt fm.quotBits x = ⟨.fin true 0 0 false, false, false⟩ := by simp [hx, Val.sqrt]
    change roundExact fm _ false _ (Val.sqrt fm.quotBits x) = _
    have hpack : fm.pack true 0 = 2 ^ (fm.width - 1) := by rw [pack_ffmt f]; simp [fm]
    rw [hsqrt, roundExact_valid, ← hpack]
    rfl
  case rootOfNegative =>
    refine fop_completes s f rm d a 0 .sqrt (r := { code := fm.nan, fx := 16, drew := false }) rfl ?_
    have hsqrt : Val.sqrt fm.quotBits x = ⟨.nan false, true, false⟩ := by simp [hx, Val.sqrt, hm]
    change roundExact fm _ false _ (Val.sqrt fm.quotBits x) = _
    rw [hsqrt]
    simp [roundExact, roundFloat, fxNV]
  case left =>
    refine ⟨?_, ?_⟩
    · exact fminmax_nan_left fm false hx hy ▸ hmm false
    · exact fminmax_nan_left fm true hx hy ▸ hmm true
  case right =>
    refine ⟨?_, ?_⟩
    · exact fminmax_nan_right fm false hx hy ▸ hmm false
    · exact fminmax_nan_right fm true hx hy ▸ hmm true
  case both =>
    refine ⟨?_, ?_⟩
    · exact fminmax_nans fm false hx hy ▸ hmm false
    · exact fminmax_nans fm true hx hy ▸ hmm true
  case neither =>
    obtain ⟨hmin, hmax⟩ := fminmax_numbers fm hx hy
    have hquiet : ¬ (x.isSnan = true ∨ y.isSnan = true) := by simp [isSnan_isNan hx, isSnan_isNan hy]
    have hfx : (if x.isSnan = true ∨ y.isSnan = true then 16 else 0 : BitVec 5) = 0 := if_neg hquiet
    simp only [Bool.not_eq_true]
    exact ⟨hfx ▸ hmin ▸ hmm false, hfx ▸ hmax ▸ hmm true⟩

end Sys2Proof.Machine
end

section
/-! SUPPORT. Rounding to an integer, conversions, comparisons and classes (05 R110, R111; 06 R149, R150; O9). -/

namespace Sys2Proof.Machine

/-! ## Rounding to an integer (R107, R110) -/

/-- The least and the greatest integer of a width (R93). -/
def intLow (signed : Bool) (w : Nat) : Int := if signed then -(2 ^ (w - 1)) else 0
def intHigh (signed : Bool) (w : Nat) : Int := if signed then 2 ^ (w - 1) - 1 else 2 ^ w - 1

theorem intLow_le_intHigh (signed : Bool) (w : Nat) : intLow signed w ≤ intHigh signed w := by
  have h1 : (0 : Int) < 2 ^ (w - 1) := by positivity
  have h2 : (0 : Int) < 2 ^ w := by positivity
  cases signed <;> simp [intLow, intHigh]
  omega

theorem uint_eq (w : Nat) (x : Int) : uint w x = (x % 2 ^ w).toNat := by simp [uint]

/-- `roundInt` of a finite value, in terms of the cut at 1 and the signed magnitude that comes of it. -/
theorem roundInt_fin (signed : Bool) (w : Nat) (mode : Rm) (sat : Bool) (rnd : Nat) (neg : Bool) (m : Nat) (e : Int) (c : Cut) (g : Nat) (v : Int)
    (hc : c = cut m e 0 false) (hg : g = if (!c.exact && roundsUp mode neg (decide (c.units % 2 = 1)) c rnd) = true then c.units + 1 else c.units)
    (hv : v = if neg then -(g : Int) else g) :
    roundInt signed w mode sat rnd (.fin neg m e false) =
      if v < intLow signed w ∨ intHigh signed w < v then {
        code := if sat then (max (intLow signed w) (min (intHigh signed w) v) % 2 ^ w).toNat else if signed then 2 ^ (w - 1) else 2 ^ w - 1
        fx := 16, drew := !c.exact && mode = .rst }
      else { code := (v % 2 ^ w).toNat, fx := if c.exact then 0 else 1, drew := !c.exact && mode = .rst } := by
  have hlo : (if signed then -((2 ^ (w - 1) : Nat) : Int) else 0) = intLow signed w := by simp [intLow]
  have hhi : (if signed then ((2 ^ (w - 1) : Nat) : Int) - 1 else ((2 ^ w : Nat) : Int) - 1) = intHigh signed w := by simp [intHigh]
  have hclamp : v < intLow signed w ∨ intHigh signed w < v →
      (if v < intLow signed w then intLow signed w else intHigh signed w) = max (intLow signed w) (min (intHigh signed w) v) := by
    have := intLow_le_intHigh signed w
    intro h; split <;> omega
  simp only [roundInt, hlo, hhi, ← hc, ← hg, ← hv, uint_eq, Bool.or_eq_true, decide_eq_true_eq, fxNV, fxNX]
  split
  · next h => rw [hclamp h]
  · rfl

/-- A finite value is rounded to an integer as R107 and R110 say. -/
theorem roundInt_rounds (signed : Bool) (w : Nat) (mode : Rm) (sat : Bool) {rnd : Nat} (hr : rnd < 2 ^ 16) (neg : Bool) (m : Nat) (e : Int) :
    RoundsInt signed w mode sat rnd neg (cmpMag m 1 e) (roundInt signed w mode sat rnd (.fin neg m e false)) := by
  have hx : Measures (cmpMag m 1 e) ((m : ℝ) * 2 ^ e * 1) := by simpa using measures_cmpMag m 1 e one_pos
  have hc : CutAt (cut m e 0 false) rnd ((m : ℝ) * 2 ^ e) := by
    simpa using cut_cutAt (lies_exact m) e 0 (fun h => by cases h) hr
  obtain ⟨c, hcdef⟩ : ∃ c, c = cut m e 0 false := ⟨_, rfl⟩
  rw [← hcdef] at hc
  have hup := goesUp_iff hc hx one_pos one_pos hr (A := c.units) (B := c.units + 1) (by simp) (by simp) mode neg (decide (c.units % 2 = 1))
  have hex : c.exact = true ↔ cmpMag m 1 e c.units 1 = .eq := by rw [hx.eq_iff one_pos]; simpa using hc.exact
  obtain ⟨g, hg⟩ : ∃ g, g = if (!c.exact && roundsUp mode neg (decide (c.units % 2 = 1)) c rnd) = true then c.units + 1 else c.units := ⟨_, rfl⟩
  obtain ⟨v, hv⟩ : ∃ v : Int, v = if neg then -(g : Int) else g := ⟨_, rfl⟩
  refine ⟨c.units, g, v, ?_, ?_, hv, ?_, fun hin => ?_, fun hout => ?_, ?_⟩
  · rw [hx.ge_iff one_pos]; simpa using hc.low
  · rw [hx.lt_iff one_pos]; simpa using hc.high
  · rw [hup, hg]; split <;> simp_all
  all_goals rw [roundInt_fin signed w mode sat rnd neg m e c g v hcdef hg hv]
  · have hin' : ¬ (v < intLow signed w ∨ intHigh signed w < v) := by simp only [not_or, not_lt]; exact hin
    simp only [if_neg hin', ← hex, and_self]
  · rw [if_pos (show v < intLow signed w ∨ intHigh signed w < v from hout)]; exact ⟨rfl, rfl⟩
  · have : c.exact = false ↔ cmpMag m 1 e c.units 1 ≠ .eq := by rw [Ne, ← hex, Bool.not_eq_true]
    rw [← this]
    split <;> simp

/-- The codes of the least and the greatest integer. -/
theorem uint_intLow (signed : Bool) {w : Nat} (hw : w ≠ 0) : uint w (intLow signed w) = if signed then 2 ^ (w - 1) else 0 := by
  obtain ⟨k, rfl⟩ := Nat.exists_eq_succ_of_ne_zero hw
  rw [uint_eq]
  cases signed
  · simp [intLow]
  · have hp : (2 : Int) ^ (k + 1) = 2 ^ k + 2 ^ k := by rw [pow_succ']; ring
    have hpos : (0 : Int) < 2 ^ k := by positivity
    have : (-(2 ^ k) : Int) % 2 ^ (k + 1) = 2 ^ k := by
      rw [show (-(2 ^ k) : Int) = 2 ^ k - 2 ^ (k + 1) by omega, Int.sub_emod_right]
      exact Int.emod_eq_of_lt hpos.le (by omega)
    simp only [intLow, if_true, Nat.succ_eq_add_one, Nat.add_sub_cancel, this]
    exact_mod_cast Int.toNat_natCast (2 ^ k)

theorem uint_intHigh (signed : Bool) {w : Nat} (hw : w ≠ 0) : uint w (intHigh signed w) = if signed then 2 ^ (w - 1) - 1 else 2 ^ w - 1 := by
  obtain ⟨k, rfl⟩ := Nat.exists_eq_succ_of_ne_zero hw
  have hp : (2 : Int) ^ (k + 1) = 2 ^ k + 2 ^ k := by rw [pow_succ']; ring
  have hpos : (0 : Int) < 2 ^ k := by positivity
  rw [uint_eq, Int.emod_eq_of_lt (by cases signed <;> simp [intHigh] <;> omega) (by cases signed <;> simp [intHigh] <;> omega)]
  have hnat : ∀ n, ((2 : Int) ^ n - 1).toNat = 2 ^ n - 1 := fun n => by
    rw [show (2 : Int) ^ n - 1 = ((2 ^ n - 1 : Nat) : Int) by rw [Nat.cast_sub Nat.one_le_two_pow]; push_cast; rfl, Int.toNat_natCast]
  cases signed
  · exact hnat (k + 1)
  · exact hnat k

theorem roundInt_inf (signed : Bool) (w : Nat) (mode : Rm) (sat : Bool) (rnd : Nat) (neg : Bool) :
    roundInt signed w mode sat rnd (.inf neg) = {
      code := if sat then (if neg then uint w (intLow signed w) else uint w (intHigh signed w)) else if signed then 2 ^ (w - 1) else 2 ^ w - 1
      fx := 16, drew := false } := by
  simp only [roundInt, intLow, intHigh, Nat.cast_pow, Nat.cast_ofNat, fxNV]
  cases neg <;> rfl

theorem tyFmt_int {ty : ETy} (h : ty.isInt = true) : tyFmt ty = none := by cases ty <;> simp_all [ETy.isInt, tyFmt]

theorem roundTo_int {ty : ETy} (h : ty.isInt = true) (mode : Rm) (sat : Bool) (rnd : Nat) (x : Val) :
    roundTo ty mode sat rnd x = roundInt ty.isSigned ty.bits mode sat rnd x := by simp only [roundTo, tyFmt_int h]

theorem roundTo_fmt {ty : ETy} {f : Fmt} (h : tyFmt ty = some f) (mode : Rm) (sat : Bool) (rnd : Nat) (x : Val) :
    roundTo ty mode sat rnd x = roundFloat f mode sat rnd x := by simp only [roundTo, h]

/-! ## Conversions between integer types (R93, R111) -/

theorem clamp_eq_max_min {lo hi : Int} (h : lo ≤ hi) (x : Int) : (if x < lo then lo else if hi < x then hi else x) = max lo (min hi x) := by
  split
  · omega
  · split <;> omega

theorem clampInt_eq (ty : ETy) (x : Int) :
    clampInt ty x = (max (intLow ty.isSigned ty.bits) (min (intHigh ty.isSigned ty.bits) x) % 2 ^ ty.bits).toNat := by
  rw [← uint_eq, ← clamp_eq_max_min (intLow_le_intHigh ty.isSigned ty.bits)]
  simp only [clampInt, intLow, intHigh, Nat.cast_pow, Nat.cast_ofNat]
  rfl

/-- Between integer types a conversion keeps the value's low bits, or clamps it; into or from a floating type it rounds (R111). -/
theorem convert_ints {dst src : ETy} (hd : dst.isInt = true) (hs : src.isInt = true) (mode : Rm) (sat : Bool) (rnd c : Nat) :
    convert dst src mode sat rnd c = {
      code := ((if sat then max (intLow dst.isSigned dst.bits) (min (intHigh dst.isSigned dst.bits) (tyInt src c)) else tyInt src c) %
        2 ^ dst.bits).toNat
      fx := 0, drew := false } := by
  simp only [convert, hd, hs, Bool.and_self, if_true, clampInt_eq, uint_eq]
  cases sat <;> rfl

theorem convert_rounds {dst src : ETy} (h : ¬ (dst.isInt = true ∧ src.isInt = true)) (mode : Rm) (sat : Bool) (rnd c : Nat) :
    convert dst src mode sat rnd c = roundTo dst mode sat rnd (tyVal src c) := by
  simp only [convert, Bool.and_eq_true, h, if_false]

/-- The integer of a code is in its type's range and is the code modulo 2^w. -/
theorem tyInt_range (ty : ETy) (c : Nat) (hw : ty.bits ≠ 0) : intLow ty.isSigned ty.bits ≤ tyInt ty c ∧ tyInt ty c ≤ intHigh ty.isSigned ty.bits ∧
    tyInt ty c % 2 ^ ty.bits = c % 2 ^ ty.bits := by
  obtain ⟨w, hw⟩ : ∃ w, ty.bits = w + 1 := Nat.exists_eq_succ_of_ne_zero hw
  have hlt : c % 2 ^ (w + 1) < 2 ^ (w + 1) := Nat.mod_lt _ (Nat.two_pow_pos _)
  have hp : 2 ^ (w + 1) = 2 * 2 ^ w := Nat.pow_succ'
  have hpR : (2 : Int) ^ (w + 1) = 2 * 2 ^ w := pow_succ' 2 w
  have hmod : ((c : Int) % 2 ^ (w + 1)) = (c % 2 ^ (w + 1) : Nat) := by push_cast; rfl
  have hltR : ((c % 2 ^ (w + 1) : Nat) : Int) < 2 ^ (w + 1) := by exact_mod_cast hlt
  have hneg : (((c % 2 ^ (w + 1) : Nat) : Int) - 2 ^ (w + 1)) % 2 ^ (w + 1) = (c % 2 ^ (w + 1) : Nat) := by
    rw [Int.sub_emod_right]; exact Int.emod_eq_of_lt (by omega) hltR
  have hpos : ((c % 2 ^ (w + 1) : Nat) : Int) % 2 ^ (w + 1) = (c % 2 ^ (w + 1) : Nat) := Int.emod_eq_of_lt (by omega) hltR
  rw [hw, hmod]
  unfold tyInt sint intLow intHigh
  rw [hw]
  generalize c % 2 ^ (w + 1) = x at *
  cases ty.isSigned
  · simp only [Bool.false_eq_true, if_false]
    exact ⟨by omega, by omega, hpos⟩
  · simp only [if_true, Nat.add_sub_cancel]
    have hhalf : (2 * x < 2 ^ (w + 1)) ↔ (x : Int) < 2 ^ w := by
      rw [hp, Nat.mul_lt_mul_left two_pos, ← Nat.cast_lt (α := Int)]; push_cast; rfl
    by_cases h : 2 * x < 2 ^ (w + 1)
    · have := hhalf.1 h
      rw [if_pos h]
      exact ⟨by omega, by omega, hpos⟩
    · have := hhalf.not.1 h
      rw [if_neg h]
      push_cast
      exact ⟨by omega, by omega, hneg⟩

theorem bits_ne_zero (ty : ETy) : ty.bits ≠ 0 := by cases ty <;> simp [ETy.bits]

/-- A value in range is the integer of its code. -/
theorem tyInt_of_range (ty : ETy) {z : Int} (hlo : intLow ty.isSigned ty.bits ≤ z) (hhi : z ≤ intHigh ty.isSigned ty.bits) :
    tyInt ty (z % 2 ^ ty.bits).toNat = z := by
  obtain ⟨h1, h2, h3⟩ := tyInt_range ty (z % 2 ^ ty.bits).toNat (bits_ne_zero ty)
  obtain ⟨w, hw⟩ : ∃ w, ty.bits = w + 1 := Nat.exists_eq_succ_of_ne_zero (bits_ne_zero ty)
  have hp : (2 : Int) ^ ty.bits = 2 * 2 ^ (ty.bits - 1) := by rw [hw]; exact pow_succ' 2 w
  have hspan : intHigh ty.isSigned ty.bits - intLow ty.isSigned ty.bits < 2 ^ ty.bits := by
    unfold intHigh intLow
    cases ty.isSigned <;> simp
    omega
  have hnn : 0 ≤ z % 2 ^ ty.bits := Int.emod_nonneg _ (by positivity)
  rw [Int.toNat_of_nonneg hnn, Int.emod_emod_of_dvd _ (dvd_refl _)] at h3
  have hdvd := Int.dvd_of_emod_eq_zero (Int.emod_eq_emod_iff_emod_sub_eq_zero.1 h3)
  have := Int.eq_zero_of_abs_lt_dvd hdvd (abs_lt.2 ⟨by omega, by omega⟩)
  omega

/-- A code is extended to a register by its type's own signedness (R150). -/
theorem extend_code (ty : ETy) (h : ty.bits % 8 = 0) (c : Nat) :
    extend ty.isSigned (ty.bits / 8) c = if ty.isSigned then BitVec.ofInt 64 (tyInt ty c) else wd (c % 2 ^ ty.bits) := by
  have h8 : 8 * (ty.bits / 8) = ty.bits := by omega
  have hp : 256 ^ (ty.bits / 8) = 2 ^ ty.bits := by rw [show 256 = 2 ^ 8 from rfl, ← Nat.pow_mul, h8]
  cases hs : ty.isSigned
  · simp only [extend, hp, Bool.false_eq_true, if_false]
  · simp only [extend, h8, tyInt, hs, if_true]

theorem extend_code_int {ty : ETy} (h : ty.isInt = true) (c : Nat) : extend ty.isSigned (ty.bits / 8) c = BitVec.ofInt 64 (tyInt ty c) := by
  rw [extend_code ty (by cases ty <;> simp_all [ETy.isInt, ETy.bits])]
  cases hs : ty.isSigned
  · simp only [tyInt, hs, Bool.false_eq_true, if_false, BitVec.ofInt_natCast]; rfl
  · rfl

/-! ## Comparison and class (R149) -/

theorem decode_exact (f : Fmt) (c : Nat) {n : Bool} {m : Nat} {e : Int} {st : Bool} (h : f.decode c = .fin n m e st) : st = false := by
  unfold Fmt.decode at h
  dsimp only at h
  split_ifs at h <;> cases h <;> rfl

/-- `fclass` sets the bit of its operand's class. -/
theorem fclassify_bit (f : Fmt) (c : Nat) : ∃ i, i < 10 ∧ fclassify f c = 2 ^ i ∧
    (i = 9 ↔ (f.decode c).isNan = true ∧ ¬ (f.decode c).isSnan = true) ∧ (i = 8 ↔ (f.decode c).isSnan = true) ∧
    (i = 0 ↔ f.decode c = .inf true) ∧ (i = 7 ↔ f.decode c = .inf false) ∧ (i = 3 ∨ i = 4 ↔ (f.decode c).isZero = true) ∧
    (i ≤ 3 ↔ (f.decode c).isNeg = true) ∧ (i = 2 ∨ i = 5 ↔ ∃ n m e st, f.decode c = .fin n m e st ∧ 0 < m ∧ m < 2 ^ f.t) := by
  unfold fclassify
  cases h : f.decode c with
  | nan s => exact ⟨if s then 8 else 9, by cases s <;> simp [Val.isNan, Val.isSnan, Val.isZero, Val.isNeg]⟩
  | inf n => exact ⟨if n then 0 else 7, by cases n <;> simp [Val.isNan, Val.isSnan, Val.isZero, Val.isNeg]⟩
  | fin n m e st =>
    obtain rfl := decode_exact f c h
    by_cases h0 : m = 0
    case pos => exact ⟨if n then 3 else 4, by cases n <;> simp [h0, Val.isNan, Val.isSnan, Val.isZero, Val.isNeg]⟩
    case neg =>
      have hpos : 0 < m := Nat.pos_of_ne_zero h0
      by_cases hsub : m < 2 ^ f.t
      · exact ⟨if n then 2 else 5, by cases n <;> simp [h0, hpos, hsub, Val.isNan, Val.isSnan, Val.isZero, Val.isNeg]⟩
      · exact ⟨if n then 1 else 6, by cases n <;> simp [h0, hsub, Val.isNan, Val.isSnan, Val.isZero, Val.isNeg]⟩

/-- An ordered comparison raises NV for a NaN, the others for a signalling one. -/
theorem fcompare_fx (f : Fmt) (r : FRel) (u w : Nat) : (fcompare f r u w).2 =
    if (if r = .eq ∨ r = .un then (f.decode u).isSnan = true ∨ (f.decode w).isSnan = true
      else (f.decode u).isNan = true ∨ (f.decode w).isNan = true) then 16 else 0 := by
  cases r <;> simp [fcompare, fxNV]

/-! ## The scalar instructions -/

/-- `fcmp` writes 1 or 0 and the flags of its comparison. -/
theorem fcmp_completes (s : State) (r : FRel) (f : FFmt) (d a b : Reg) {x : Bool × BitVec 5}
    (hx : fcompare (fmtOf f.ety) r (s.low a (fmtOf f.ety)) (s.low b (fmtOf f.ety)) = x) :
    Completes (exec (.fcmp r f d a b) s) (WritesF s d (if x.1 then 1 else 0) x.2 false) := by
  have hval : (if x.1 then 1 else 0 : Word) = wd (if x.1 then 1 else 0) := by split <;> rfl
  rw [hval, ← hx]
  exact completes_next (fresult_writesF s d { code := if _ then 1 else 0, fx := _, drew := false })

/-- `fcvt` writes the conversion's code, extended. -/
theorem fcvt_completes (s : State) (dst src : ETy) (sat : Bool) (rm : RmSel) (d a : Reg) {r : Rounded}
    (hr : convert dst src (s.scalarMode rm) sat (genDraw s.th.gen) ((s.getS a).toNat % 2 ^ src.bits) = r) :
    Completes (exec (.fcvt dst src sat rm d a) s) (WritesF s d (extend dst.isSigned (dst.bits / 8) r.code) r.fx r.drew) := by
  rw [← hr]; exact completes_next (roundedResult_writesF s d _ _)

/-- Settles O9: rounding to an integer is R107's and R110's; each instruction writes what its relation, class or conversion gives. -/
theorem scalarCompareAndConvert : Obligations.ScalarCompareAndConvert := by
  refine ⟨fun dst mode sat rnd => ⟨fun f x h => roundTo_fmt h mode sat rnd x, fun hd hr => ?rounding⟩, fun s f r dst src sat rm d a b => ?scalar⟩
  case rounding =>
    simp only [roundTo_int hd]
    refine ⟨fun neg m e => roundInt_rounds _ _ mode sat hr neg m e, fun signalling => rfl, fun neg => ?_⟩
    have hlow := uint_intLow dst.isSigned (bits_ne_zero dst)
    have hhigh := uint_intHigh dst.isSigned (bits_ne_zero dst)
    rw [roundInt_inf, hlow, hhigh]
    cases neg <;> cases sat <;> rfl
  case scalar =>
    refine ⟨?compare, ?classBit, fun hi => ?integers, fun hwf hi => ?rounded⟩
    case compare =>
      have h := fcmp_completes s r f d a b rfl
      rw [fcompare_fx] at h
      cases r <;> exact h
    case classBit =>
      obtain ⟨i, hi, hbit, hiff⟩ := fclassify_bit (fmtOf f.ety) (s.low a (fmtOf f.ety))
      exact ⟨i, hi, hbit ▸ completes_next (result_writesS s d _), hiff⟩
    case integers =>
      obtain ⟨hd, hs⟩ := hi
      have h := fcvt_completes s dst src sat rm d a (convert_ints hd hs ..)
      rw [extend_code_int hd] at h
      refine ⟨_, (tyInt_range dst _ (bits_ne_zero dst)).1, (tyInt_range dst _ (bits_ne_zero dst)).2.1, ?_, h⟩
      cases sat
      case false =>
        generalize hv : tyInt src ((s.getS a).toNat % 2 ^ src.bits) = v
        have hmod := (tyInt_range dst (v % 2 ^ dst.bits).toNat (bits_ne_zero dst)).2.2
        rwa [Int.toNat_of_nonneg (Int.emod_nonneg _ (by positivity)), Int.emod_emod_of_dvd _ (dvd_refl _)] at hmod
      case true =>
        exact tyInt_of_range dst (le_max_left _ _) (max_le (intLow_le_intHigh _ _) (min_le_left _ _))
    case rounded =>
      have h8 : dst.bits % 8 = 0 := by
        have hok : dst.code < 14 := (of_decide_eq_true hwf).1
        cases dst <;> simp_all [ETy.bits, ETy.code]
      have h := fcvt_completes s dst src sat rm d a (convert_rounds hi ..)
      rwa [extend_code dst h8] at h

end Sys2Proof.Machine
end

section
/-! SUPPORT. What a slot that computes elements or bits leaves (05 R117; 07 R157–R165; O27–O29): the rules about element strings and masks,
then one lemma for each shared shape of a slot, then the instructions. -/

namespace Sys2Proof.Machine

/-! ## Elements and masks as byte strings -/

/-- Elements replaced each by a function of its number: the ones listed read so, the others as before. -/
theorem getBits_putElems (bits : Nat) (g : Nat → Nat) (l : List Nat) (x : Blob) (i : Nat) :
    getBits (putElems x bits (l.map (fun j => (j, g j)))) (i * bits) bits = if i ∈ l then g i % 2 ^ bits else getBits x (i * bits) bits := by
  induction l generalizing x with
  | nil => simp [putElems]
  | cons j l ih =>
    rw [List.map_cons, putElems, ih]
    by_cases hl : i ∈ l
    · simp [hl]
    · by_cases hj : i = j
      · simp [hj, getBits_putBits_same]
      · have hne : i * bits + bits ≤ j * bits ∨ j * bits + bits ≤ i * bits := by
          rcases Nat.lt_or_gt_of_ne hj with h | h
          · left; rw [← Nat.succ_mul]; exact Nat.mul_le_mul_right _ h
          · right; rw [← Nat.succ_mul]; exact Nat.mul_le_mul_right _ h
        simp [hl, hj, getBits_putBits_ne _ _ _ _ _ _ hne]

theorem bit_eq_testBit (x i : Nat) : bit x i = x.testBit i := by
  rw [bit, Nat.testBit_eq_decide_div_mod_eq]

/-- Bits replaced each by a function of its number. -/
theorem bit_putEach (g : Nat → Bool) (l : List Nat) (x i : Nat) :
    bit ((l.map (fun j => (j, g j))).foldl (fun x b => putBits x b.1 1 (if b.2 then 1 else 0)) x) i = if i ∈ l then g i else bit x i := by
  induction l generalizing x with
  | nil => simp
  | cons j l ih =>
    rw [List.map_cons, List.foldl_cons, ih]
    by_cases hl : i ∈ l
    · simp [hl]
    · have hput : bit (putBits x j 1 (if g j = true then 1 else 0)) i = if i = j then g i else bit x i := by
        rw [bit_eq_testBit, bit_eq_testBit, testBit_putBits]
        rcases lt_trichotomy i j with h | rfl | h
        · simp [h, Nat.ne_of_lt h]
        · cases g i <;> simp
        · simp [show ¬ i < j by omega, show ¬ i < j + 1 by omega, show i ≠ j by omega]
      rw [if_neg hl, hput]
      by_cases hj : i = j <;> simp [hl, hj]

/-! ## Parts of a slot's end -/

theorem mem_actives (s : State) (f : VF) (i : Nat) : i ∈ s.actives f ↔ i < s.vl ∧ s.active f.msk i = true := by
  simp [State.actives]

/-- The state with the vector state of the thread in focus replaced. -/
def State.withVec (s : State) (x : VecState) : State := { s with th := { s.th with vec := x } }

/-- The state after a slot that leaves the vector state x and has kept its lanes busy for n cycles. -/
def State.ended (s : State) (x : VecState) (n : Nat) : State :=
  { s with th := { s.th with vec := x, laneBusy := s.th.laneBusy + wd n, issue := none, convoy := s.th.slotDone.convoy } }

theorem writeV_eq (s : State) (r : VReg) (bits : Nat) (es : List (Nat × Nat)) :
    s.writeV r bits es = s.withVec { s.th.vec with v := (s.writeV r bits es).th.vec.v } := by
  unfold State.writeV; split <;> rfl

theorem writeV_vreg_ne (s : State) {r q : VReg} (bits : Nat) (es : List (Nat × Nat)) (h : q ≠ r) : (s.writeV r bits es).vreg q = s.vreg q := by
  unfold State.writeV
  split
  · rfl
  · exact rd_wr_ne _ _ _ _ h

theorem writeV_tag (s : State) (r : VReg) (bits : Nat) {es : List (Nat × Nat)} (h : es ≠ []) : ((s.writeV r bits es).vreg r).tag = false := by
  have : es.isEmpty = false := by simpa using h
  simp [State.writeV, this, State.vreg, State.setV]

theorem writeV_data (s : State) (r : VReg) (bits : Nat) (es : List (Nat × Nat)) :
    ((s.writeV r bits es).vreg r).data = putElems (s.vreg r).data bits es := by
  cases es with
  | nil => rfl
  | cons e es => simp [State.writeV, State.vreg, State.setV]

theorem latchV_eq (s : State) (u : Fin 7) (r : VReg) (bits : Nat) : s.latchV u r bits =
    s.withVec { s.th.vec with lat := wr s.th.vec.lat u (if s.vl = 0 then rd s.th.vec.lat u else s.group r (s.lastGroup bits)) } := by
  unfold State.latchV
  split
  · simp [rd, wr, State.withVec]
  · rfl

theorem slotDone_convoy (t : Thread) : t.slotDone.convoy = t.convoy ∨ t.slotDone.convoy = none := by
  unfold Thread.slotDone; split <;> (try split) <;> simp

theorem slotDone_convoy_congr {t u : Thread} (h : t.convoy = u.convoy) : t.slotDone.convoy = u.slotDone.convoy := by
  unfold Thread.slotDone; rw [h]; split <;> (try split) <;> simp_all

theorem slotDone_eq (s : State) : s.slotDone = { s with th := { s.th with issue := none, convoy := s.th.slotDone.convoy } } := by
  have : s.th.slotDone = { s.th with issue := none, convoy := s.th.slotDone.convoy } := by
    unfold Thread.slotDone; split <;> (try split) <;> simp_all
  rw [State.slotDone, ← this]

theorem busy_slotDone_withVec (s : State) (x : VecState) (n : Nat) : ((s.withVec x).busy n).slotDone = s.ended x n := by
  rw [slotDone_eq, slotDone_convoy_congr (t := ((s.withVec x).busy n).th) (u := s.th) rfl]; rfl

/-- A slot has finished and touched no more than the vector state, lane time and the lanes' generators. -/
theorem SlotOnly.of_eq {s t : State} (hth : t.th = { s.th with
      vec := t.th.vec, laneBusy := t.th.laneBusy, issue := none, convoy := t.th.convoy, s := t.th.s })
    (hconv : t.th.convoy = s.th.convoy ∨ t.th.convoy = none) (hrest : t = { s with th := t.th, core := { s.core with laneGen := t.core.laneGen } }) :
    SlotOnly s t := by
  have hfree : t.free = s.free := by rw [hrest]
  refine ⟨hth, hconv, hfree ▸ hrest, SameBytes.of_recast ?_⟩
  rw [hrest, hth]
  rfl

/-! ## The shapes of a slot -/

/-- From s to t flags have been raised and generators of lanes may have stepped. -/
def Raised (s : State) (fx : BitVec 5) (t : State) : Prop :=
  t = { s with th := { s.th with vec := { s.th.vec with fx := s.th.vec.fx ||| fx } }, core := { s.core with laneGen := t.core.laneGen } }

theorem Raised.refl (s : State) : Raised s 0 s := by simp [Raised]

theorem finishV_eq (s : State) (u : Fin 7) (f : VF) (bits rate : Nat) (es : List (Nat × Nat)) : s.finishV u f bits rate es =
    s.ended { s.th.vec with
      v := (s.writeV f.d bits es).th.vec.v
      lat := wr s.th.vec.lat u (if s.vl = 0 then rd s.th.vec.lat u else (s.writeV f.d bits es).group f.d (s.lastGroup bits)) }
      (s.laneCycles bits rate) := by
  have h := writeV_eq s f.d bits es
  unfold State.finishV
  rw [latchV_eq]
  generalize s.writeV f.d bits es = w at h ⊢
  have hvl : w.vl = s.vl := by rw [h]; rfl
  have hgroup : w.lastGroup bits = s.lastGroup bits := by rw [h]; rfl
  have hlat : w.th.vec.lat = s.th.vec.lat := by rw [h]; rfl
  rw [hvl, hgroup, hlat, ← busy_slotDone_withVec]
  generalize w.group f.d (s.lastGroup bits) = gr
  rw [h]
  rfl

theorem ended_slotOnly {s s1 : State} {fx : BitVec 5} (h : Raised s fx s1) (x : VecState) (n : Nat) : SlotOnly s (s1.ended x n) := by
  have hth : s1.th = { s.th with vec := s1.th.vec } := by rw [h]
  have hrest : s1 = { s with th := s1.th, core := { s.core with laneGen := s1.core.laneGen } } := by rw [h]
  have hconv : (s1.ended x n).th.convoy = s1.th.slotDone.convoy := rfl
  refine SlotOnly.of_eq ?_ ?_ ?_
  · simp only [State.ended]
    rw [hth]
  · rw [hconv, slotDone_convoy_congr (u := s.th) (by rw [hth])]
    exact slotDone_convoy s.th
  · simp only [State.ended]
    rw [hrest]

/-- Everything that `finishV` does: each active element is written with its value, modulo 2^bits. -/
theorem finishV_writes {s s1 : State} {fx : BitVec 5} (h : Raised s fx s1) (u : Fin 7) (f : VF) (bits rate : Nat) (g g' : Nat → Nat)
    (hg : ∀ i, i ∈ s.actives f → g i % 2 ^ bits = g' i % 2 ^ bits) :
    SlotWritesV s u f.d bits fx (s.onActive f g') (s1.finishV u f bits rate ((s.actives f).map (fun i => (i, g i)))) := by
  rw [finishV_eq]
  obtain ⟨es, hes⟩ : ∃ es, es = (s.actives f).map (fun i => (i, g i)) := ⟨_, rfl⟩
  rw [← hes]
  have hvec : s1.th.vec = { s.th.vec with fx := s.th.vec.fx ||| fx } := by rw [h]
  have hdata : ∀ q, s1.vreg q = s.vreg q := fun q => by rw [State.vreg, hvec]; rfl
  have hvl : s1.vl = s.vl := by rw [h]; rfl
  have hgroup : s1.lastGroup bits = s.lastGroup bits := by rw [h]; rfl
  have hlanes : (s1.writeV f.d bits es).nLanes = s.nLanes := by rw [writeV_eq, h]; rfl
  have hlanes' : ∀ x n, (s1.ended x n).nLanes = s.nLanes := fun x n => by rw [h]; rfl
  obtain ⟨x, hx⟩ : ∃ x : VecState, x = { s1.th.vec with
      v := (s1.writeV f.d bits es).th.vec.v
      lat := wr s1.th.vec.lat u (if s1.vl = 0 then rd s1.th.vec.lat u else (s1.writeV f.d bits es).group f.d (s1.lastGroup bits)) } := ⟨_, rfl⟩
  rw [← hx]
  obtain ⟨t, ht⟩ : ∃ t, t = s1.ended x (s1.laneCycles bits rate) := ⟨_, rfl⟩
  have hreg : ∀ q, t.vreg q = (s1.writeV f.d bits es).vreg q := fun q => by rw [ht, State.vreg]; change rd x.v q = _; rw [hx]; rfl
  have htvec : t.th.vec = x := by rw [ht]; rfl
  have hlat : x.lat = wr s.th.vec.lat u (if s.vl = 0 then rd s.th.vec.lat u else t.group f.d (s.lastGroup bits)) := by
    have : t.group f.d (s.lastGroup bits) = (s1.writeV f.d bits es).group f.d (s.lastGroup bits) := by
      rw [State.group, State.group, hreg, hlanes, ht, hlanes']
    rw [hx, this, hvl, hgroup, hvec]
  rw [← ht]
  refine ⟨fun i => ?elems, fun i y hy => ?tag, fun q hq => ?others, ?latch, ?vec, ?scalars, ht ▸ ended_slotOnly h x _⟩
  case elems =>
    have : t.velem f.d bits i = if i ∈ s.actives f then g i % 2 ^ bits else s.velem f.d bits i := by
      rw [State.velem, hreg, writeV_data, hdata, hes, getBits_putElems]; rfl
    rw [this, State.onActive]
    by_cases hi : i ∈ s.actives f
    · rw [if_pos hi, if_pos ((mem_actives s f i).1 hi), hg i hi]
    · rw [if_neg hi, if_neg (mt (mem_actives s f i).2 hi)]
  case tag =>
    have hi : i ∈ s.actives f := by
      by_contra hi
      rw [State.onActive, if_neg (mt (mem_actives s f i).2 hi)] at hy
      cases hy
    have hne : es ≠ [] := by rw [hes, Ne, List.map_eq_nil_iff]; exact List.ne_nil_of_mem hi
    rw [hreg]; exact writeV_tag s1 f.d bits hne
  case others => rw [hreg, writeV_vreg_ne s1 bits es hq, hdata]
  case latch => rw [htvec, hlat, rd_wr_same]
  case vec =>
    rw [htvec, hlat, rd_wr_same, ← hlat, hx, hvec]
  case scalars => rw [ht]; change s1.th.s = _; rw [h]

/-- An elementwise slot writes each active element (R157). -/
theorem elementwise_writes (s : State) (u : Fin 7) (f : VF) (rate : Nat) {g g' : Nat → Nat} (hlen : s.tooLong [f.ty.bits] = false)
    (hg : ∀ i, g i % 2 ^ f.ty.bits = g' i % 2 ^ f.ty.bits) :
    Completes (.next (s.elementwise u f rate g)) (SlotWritesV s u f.d f.ty.bits 0 (s.onActive f g')) := by
  rw [State.elementwise, hlen, if_neg Bool.false_ne_true]
  exact completes_next (finishV_writes (Raised.refl s) u f f.ty.bits rate g g' (fun i _ => hg i))

theorem raise_raised (s : State) (fx : BitVec 5) : Raised s fx (s.raise fx) := rfl

/-- An ALU slot that raises flags writes each active element and its flags stick (R164). -/
theorem flagged_writes (s : State) (f : VF) (g : Nat → Nat × BitVec 5) (hlen : s.tooLong [f.ty.bits] = false) :
    Completes (.next (s.flagged f g))
      (SlotWritesV s 0 f.d f.ty.bits (s.allFx f (fun i => (g i).2)) (s.onActive f (fun i => (g i).1))) := by
  rw [State.flagged, hlen, if_neg Bool.false_ne_true]
  exact completes_next (finishV_writes (raise_raised s _) 0 f f.ty.bits 1 _ _ (fun _ _ => rfl))

/-- A slot that computes a mask: active bits written, bits from VL on cleared (R162). -/
theorem maskwise_writes {s s1 : State} {fx : BitVec 5} (h : Raised s fx s1) (f : VF) (bits : Option Nat) (g : Nat → Bool)
    (hlen : s.tooLong bits.toList = false) :
    Completes (.next (s1.maskwise f bits g)) (SlotWritesM s (Fin.ofNat 8 f.d.val) f.msk fx g) := by
  have hlen1 : s1.tooLong bits.toList = false := by rw [← hlen, h]; rfl
  have hact : s1.actives f = s.actives f := by rw [h]; rfl
  have hvl : s1.vl = s.vl := by rw [h]; rfl
  have hvec : s1.th.vec = { s.th.vec with fx := s.th.vec.fx ||| fx } := by rw [h]
  obtain ⟨d, hd⟩ : ∃ d, d = Fin.ofNat 8 f.d.val := ⟨_, rfl⟩
  obtain ⟨y, hy⟩ : ∃ y, y = ((s.actives f).map (fun i => (i, g i))).foldl (fun x b => putBits x b.1 1 (if b.2 then 1 else 0))
    (s.mask d % 2 ^ s.vl) := ⟨_, rfl⟩
  have hmask : s1.mask d = s.mask d := by rw [State.mask, hvec]; rfl
  have hend : s1.maskwise f bits g = s1.ended { s1.th.vec with m := wr s1.th.vec.m d y } (s1.laneCycles (bits.getD 8) 1) := by
    rw [State.maskwise, hlen1, if_neg Bool.false_ne_true, ← busy_slotDone_withVec, State.writeM, ← hd, hact, hvl, hmask, ← hy]
    rfl
  rw [← hd, hend]
  obtain ⟨t, ht⟩ : ∃ t, t = s1.ended { s1.th.vec with m := wr s1.th.vec.m d y } (s1.laneCycles (bits.getD 8) 1) := ⟨_, rfl⟩
  have htm : t.mask d = y := by rw [ht]; exact rd_wr_same _ _ _
  rw [← ht]
  refine completes_next ⟨fun i => ?_, ?_, ?_, ht ▸ ended_slotOnly h _ _⟩
  · rw [htm, hy, bit_putEach]
    have hcut : bit (s.mask d % 2 ^ s.vl) i = (decide (i < s.vl) && bit (s.mask d) i) := by
      simp only [bit_eq_testBit, Nat.testBit_mod_two_pow]
    simp only [mem_actives, hcut]
    by_cases hi : i < s.vl <;> simp [hi]
  · rw [htm, ht, State.ended, hvec]
  · rw [ht]; change s1.th.s = _; rw [h]

/-! ## Draws of the lanes (R109, R159) -/

theorem genDraw_lt (g : BitVec 32) : genDraw g < 2 ^ 16 := by
  rw [genDraw]; have := (genStep g).isLt; omega

theorem foldl_or (g : Nat → BitVec 5) (l : List Nat) (a : BitVec 5) :
    l.foldl (fun x i => x ||| g i) a = a ||| l.foldl (fun x i => x ||| g i) 0 := by
  induction l generalizing a with
  | nil => simp
  | cons i l ih => rw [List.foldl_cons, List.foldl_cons, ih, ih (0 ||| g i), BitVec.or_assoc]; simp

/-- Elements rounded in order: each with some draw of 16 bits; nothing but generators of lanes changes. -/
theorem roundEach_eq (g : Nat → Nat → Rounded) (l : List Nat) (hl : l.Nodup) (s : State) : ∃ (rnd : Nat → Nat) (t : State),
    (∀ i, rnd i < 2 ^ 16) ∧ t = { s with core := { s.core with laneGen := t.core.laneGen } } ∧
    s.roundEach g l = (t, l.map (fun i => (i, (g i (rnd i)).code)), l.foldl (fun x i => x ||| (g i (rnd i)).fx) 0) := by
  induction l generalizing s with
  | nil => exact ⟨fun _ => 0, s, fun _ => Nat.two_pow_pos _, rfl, rfl⟩
  | cons i l ih =>
    obtain ⟨hi, hl⟩ := List.nodup_cons.1 hl
    obtain ⟨draw, hdraw⟩ : ∃ n, n = genDraw (s.laneGenOf ((s.lane0 + i) % s.nLanes)) := ⟨_, rfl⟩
    obtain ⟨s1, hs1⟩ : ∃ s1, s1 = s.laneStep ((s.lane0 + i) % s.nLanes) (g i draw).drew := ⟨_, rfl⟩
    have hstep : s1 = { s with core := { s.core with laneGen := s1.core.laneGen } } := by
      rw [hs1, State.laneStep]; split <;> rfl
    obtain ⟨rnd, t, hrnd, ht, heq⟩ := ih hl s1
    have hother : ∀ j ∈ l, Function.update rnd i draw j = rnd j := fun j hj => Function.update_of_ne (fun e : j = i => hi (e ▸ hj)) _ _
    refine ⟨Function.update rnd i draw, t, fun j => ?_, ?_, ?_⟩
    · by_cases hj : j = i
      · rw [hj, Function.update_self, hdraw]; exact genDraw_lt _
      · rw [Function.update_of_ne hj]; exact hrnd j
    · rw [ht, hstep]
    · have hmap : l.map (fun j => (j, (g j (Function.update rnd i draw j)).code)) = l.map (fun j => (j, (g j (rnd j)).code)) :=
        List.map_congr_left fun j hj => by rw [hother j hj]
      have hfx : l.foldl (fun x j => x ||| (g j (Function.update rnd i draw j)).fx) 0 = l.foldl (fun x j => x ||| (g j (rnd j)).fx) 0 :=
        List.foldl_ext _ _ _ fun a j hj => by rw [hother j hj]
      rw [List.map_cons, List.foldl_cons, foldl_or, hmap, hfx, Function.update_self]
      simp only [State.roundEach, ← hdraw, ← hs1, heq]
      simp

theorem actives_nodup (s : State) (f : VF) : (s.actives f).Nodup := List.nodup_range.filter _

/-- A slot that rounds each active element with a draw of its lane, and whose flags stick. -/
theorem roundEach_writes (s : State) (u : Fin 7) (f : VF) (rate : Nat) (g : Nat → Nat → Rounded) : ∃ rnd : Nat → Nat, (∀ i, rnd i < 2 ^ 16) ∧
    SlotWritesV s u f.d f.ty.bits (s.allFx f (fun i => (g i (rnd i)).fx)) (s.onActive f (fun i => (g i (rnd i)).code))
      (((s.roundEach g (s.actives f)).1.raise (s.roundEach g (s.actives f)).2.2).finishV u f f.ty.bits rate
        (s.roundEach g (s.actives f)).2.1) := by
  obtain ⟨rnd, t, hrnd, ht, heq⟩ := roundEach_eq g (s.actives f) (actives_nodup s f) s
  refine ⟨rnd, hrnd, ?_⟩
  rw [heq]
  have hraised : Raised s (s.allFx f (fun i => (g i (rnd i)).fx)) (t.raise (s.allFx f (fun i => (g i (rnd i)).fx))) := by
    unfold Raised State.raise; rw [ht]
  exact finishV_writes hraised u f f.ty.bits rate _ _ (fun _ _ => rfl)

theorem rounded_writes (s : State) (u : Fin 7) (f : VF) (rate : Nat) (g : Nat → Nat → Rounded) (hlen : s.tooLong [f.ty.bits] = false) :
    ∃ rnd : Nat → Nat, (∀ i, rnd i < 2 ^ 16) ∧ Completes (.next (s.rounded u f rate g)) (SlotWritesV s u f.d f.ty.bits
      (s.allFx f (fun i => (g i (rnd i)).fx)) (s.onActive f (fun i => (g i (rnd i)).code))) := by
  obtain ⟨rnd, hrnd, hw⟩ := roundEach_writes s u f rate g
  refine ⟨rnd, hrnd, ?_⟩
  rw [State.rounded, hlen, if_neg Bool.false_ne_true]
  exact completes_next hw

end Sys2Proof.Machine
end

section
/-! SUPPORT. The computing vector instructions (07 R161–R165): integers (O27), rounding (O28), without rounding and conversions (O29). -/

namespace Sys2Proof.Machine

/-! ## Integers (R161, R162) -/

theorem fitInt_eq (f : VF) (x : Int) : fitInt f x = if f.sat then clampInt f.ty x else (x % 2 ^ f.ty.bits).toNat := by
  simp only [fitInt, uint_eq]

section
variable (s : State) (f : VF) (hlen : s.tooLong [f.ty.bits] = false)
include hlen

/-- A slot that computes each element exactly from integers. -/
theorem fitInt_writes (g : Nat → Int) : Completes (.next (s.elementwise 0 f 1 (fun i => fitInt f (g i)))) (SlotWritesV s 0 f.d f.ty.bits 0
    (s.onActive f (fun i => if f.sat then clampInt f.ty (g i) else (g i % 2 ^ f.ty.bits).toNat))) :=
  elementwise_writes s 0 f 1 hlen fun i => by rw [fitInt_eq]

/-- A slot that computes each element from the bits of two sources. -/
theorem vbits_writes (g : Nat → Nat → Nat) (g' : Nat → Nat) (hg : ∀ i, g (s.srcA f i) (s.srcB f i) % 2 ^ f.ty.bits = g' i % 2 ^ f.ty.bits) :
    Completes (.next (s.vbits f g)) (SlotWritesV s 0 f.d f.ty.bits 0 (s.onActive f g')) :=
  elementwise_writes s 0 f 1 hlen hg

end

theorem tooLong_readBits (s : State) (f : VF) (h : s.tooLong [f.ty.bits] = false) : s.tooLong (readBits f).toList = false := by
  unfold readBits; split
  · exact h
  · rfl

/-- Settles O27: each instruction is elementwise on exact integers or on bits, or computes a mask. -/
theorem vectorIntegerResults : Obligations.VectorIntegerResults := by
  refine ⟨fun s f hlen => ?exact, fun s f r hlen => ?bits⟩
  case exact =>
    have h := fitInt_writes s f hlen
    refine ⟨h _, h _, h _, ?high, h _, h _, h _, h _, h _⟩
    case high => exact elementwise_writes s 0 f 1 hlen fun i => by rw [fitInt_eq, Nat.cast_pow]; rfl
  case bits =>
    have h := vbits_writes s f hlen
    refine ⟨h Nat.land _ fun i => rfl, h Nat.lor _ fun i => rfl, h Nat.xor _ fun i => rfl, h _ _ fun i => ?left, h _ _ fun i => ?right,
      h _ _ fun i => ?arithmetic, h _ _ fun i => rfl, ?compare⟩
    case left => rw [Nat.mod_mod, Nat.shiftLeft_eq]; rfl
    case right => rw [Nat.shiftRight_eq_div_pow]; rfl
    case arithmetic => rw [uint_eq, Nat.cast_pow]; rfl
    case compare =>
      have hm : ∀ g : Nat → Bool, (∀ i, vrelHolds r (tyInt f.ty (s.srcA f i)) (tyInt f.ty (s.srcB f i)) = g i) →
          Completes (exec (.vcmp r f) s) (SlotWritesM s (Fin.ofNat 8 f.d.val) f.msk 0 g) := fun g hg =>
        funext hg ▸ maskwise_writes (Raised.refl s) f (readBits f) _ (tooLong_readBits s f hlen)
      refine hm _ fun i => ?_
      cases r
      case ne => exact (decide_not ..).symm
      all_goals rfl

/-! ## Rounding (R163) -/

/-- The draw matters under stochastic rounding only (R108). -/
theorem roundsUp_draw {mode : Rm} (h : mode ≠ .rst) (neg odd : Bool) (c : Cut) (r q : Nat) : roundsUp mode neg odd c r = roundsUp mode neg odd c q := by
  cases mode
  case rst => exact absurd rfl h
  all_goals rfl

theorem roundExact_draw {m : Rm} (h : m ≠ .rst) (fm : Fmt) (sat : Bool) (r q : Nat) (e : Exact) :
    roundExact fm m sat r e = roundExact fm m sat q e := by
  have hmag : ∀ neg n k st, roundMag fm m neg n k st r = roundMag fm m neg n k st q := fun neg n k st => by
    simp only [roundMag, roundsUp_draw h _ _ _ r q]
  have hround : ∀ x, roundFloat fm m sat r x = roundFloat fm m sat q x := fun x => by
    cases x with
    | nan s => rfl
    | inf neg => rfl
    | fin neg n k st => simp only [roundFloat, hmag]
  rw [roundExact, roundExact, hround]

/-- Settles O28: each instruction rounds the exact result of every active element with a draw of its lane. -/
theorem vectorFloatResults : Obligations.VectorFloatResults := by
  refine ⟨fun fm m sat r q e h => roundExact_draw h fm sat r q e, fun s f hlen => ?_⟩
  have h := fun g => rounded_writes s 1 f (fmaRate f.ty) g hlen
  exact ⟨h _, h _, h _, h _, h _, h _, h _, h _⟩

/-! ## Without rounding, and conversions (R164, R165) -/

/-- Settles O29: each instruction raises the flags of its active elements, computes a mask, or rounds a conversion. -/
theorem vectorFloatUnrounded : Obligations.VectorFloatUnrounded := by
  refine ⟨fun fm big u w => ⟨fminmax_fx fm big u w, fminmax_nans fm big, fminmax_nan_left fm big, fminmax_nan_right fm big, fminmax_numbers fm⟩,
    fun dst src mode sat rnd c => ⟨fun hd hs => convert_ints hd hs mode sat rnd c, fun h => convert_rounds h mode sat rnd c⟩,
    fun s f r hlen => ?unrounded, fun s f src hsrc hty hsrcty hlen => ?converted⟩
  case unrounded =>
    have hzero : s.allFx f (fun _ => 0) = 0 := by
      rw [State.allFx]; induction s.actives f <;> simp_all
    have hflag := fun g => flagged_writes s f g hlen
    have helem : ∀ g, Completes (.next (s.elementwise 0 f 1 g)) (SlotWritesV s 0 f.d f.ty.bits (s.allFx f fun _ => 0) (s.onActive f g)) :=
      fun g => by rw [hzero]; exact elementwise_writes s 0 f 1 hlen fun _ => rfl
    refine ⟨hflag _, hflag _, helem _, helem _, helem _, helem _, ?compare⟩
    case compare =>
      have hlen' := tooLong_readBits s f hlen
      have hm := maskwise_writes (raise_raised s (s.allFx f fun i => (fcompare (fmtOf f.ty) r (s.srcA f i) (s.srcB f i)).2)) f (readBits f)
        (fun i => (fcompare (fmtOf f.ty) r (s.srcA f i) (s.srcB f i)).1) hlen'
      have hexec : exec (.vfcmp r f) s = .next (if s.tooLong (readBits f).toList then s.slotResop else
        (s.raise (s.allFx f fun i => (fcompare (fmtOf f.ty) r (s.srcA f i) (s.srcB f i)).2)).maskwise f (readBits f)
          (fun i => (fcompare (fmtOf f.ty) r (s.srcA f i) (s.srcB f i)).1)) := rfl
      rw [hexec, hlen', if_neg Bool.false_ne_true]
      exact hm
  case converted =>
    obtain ⟨rnd, hrnd, hw⟩ := roundEach_writes s 0 f 1 (s.cvtElem f src)
    refine ⟨rnd, hrnd, ?_⟩
    have hcvt : ∀ i, s.cvtElem f src i (rnd i) = convert f.ty src (s.mode f.rm) f.sat (rnd i) (s.elem .a f.a src.bits i) := fun i => by
      rw [State.cvtElem, if_neg hsrcty]
    simp only [hcvt] at hw
    have hshort : s.tooLong ([f.ty.bits] ++ (if f.a.isMain then [src.bits] else [])) = false := by
      have hboth : s.tooLong [f.ty.bits] = false ∧ s.tooLong [src.bits] = false := by simpa [State.tooLong] using hlen
      split
      · exact hlen
      · exact hboth.1
    have hexec : exec (.vcvt f) s = .next (((s.roundEach (s.cvtElem f src) (s.actives f)).1.raise
        (s.roundEach (s.cvtElem f src) (s.actives f)).2.2).finishV 0 f f.ty.bits 1 (s.roundEach (s.cvtElem f src) (s.actives f)).2.1) := by
      change execVcvt f s = _
      simp only [execVcvt, hsrc, hshort]
      simp [hty, hsrcty]
    rw [hexec]
    exact completes_next hw

end Sys2Proof.Machine
end

section
/-! SUPPORT. The count of free values shows in no byte that a load reads: every operation of a read of memory up to its value commutes with
setting that count (log 3). -/

namespace Sys2Proof.Machine

/-- The state with the count of free values replaced. -/
def State.refree (s : State) (n : Nat) : State := { s with free := n }

/-- An operation that neither sees nor changes the count of free values. -/
def FreeBlind (f : State → State) : Prop := ∀ s n, f (s.refree n) = (f s).refree n

theorem freeBlind_foldl {f : State → α → State} (h : ∀ a, FreeBlind (fun s => f s a)) (l : List α) : FreeBlind (fun s => l.foldl f s) := by
  intro s n
  induction l generalizing s with
  | nil => rfl
  | cons a l ih => exact (congrArg (fun x => l.foldl f x) (h a s n)).trans (ih (f s a))

theorem setCore_refree (s : State) (n k : Nat) (c : Core) : (s.refree n).setCore k c = (s.setCore k c).refree n := by
  unfold State.setCore; split <;> simp_all [State.refree]

theorem noteAccess_refree (ps : List (Nat × BitVec 32)) (r w : Bool) : FreeBlind (fun s => s.noteAccess ps r w) := by
  intro s n
  refine freeBlind_foldl (f := fun t (w : HomeWatch) =>
    let c := t.coreAt w.core
    if c.task.isSome && c.sys.ctxid.toNat == w.ctx then t.setIpend w.core 4 else t) ?_
    (s.store.homeW.filter (fun x => x.hit ps r w))
    { s with store := { s.store with
      drowsy := s.store.drowsy.filter (fun b => !ps.any (fun p => b == homeBank (32 * p.1)))
      homeW := s.store.homeW.map (fun x => if x.hit ps r w then { x with hits := min (x.hits + 1) (2 ^ 32 - 1) } else x) } } n
  intro w s n
  dsimp only
  split <;> rename_i h
  · rw [if_pos (by exact h)]; exact setCore_refree s n _ _
  · rw [if_neg (by exact h)]

theorem wakePending_refree (k : Nat) : FreeBlind (fun s => s.wakePending k) := by
  intro s n
  unfold State.wakePending
  dsimp only
  split <;> rename_i h
  · rw [if_pos (by exact h)]
    exact noteAccess_refree [(k, maskB 20 1)] false true
      { s with
        fab := { s.fab with tasks := s.fab.tasks.map (fun t =>
          if (t.phase == .pending && t.rec_ == 32 * k) = true then t.enterReady s.time else t) }
        store := s.store.putSector k (putB (s.store.sector k).1 20 1 2) (s.store.dirtyMask k ||| maskB 20 1) (s.store.sector k).2 } n
  · rw [if_neg (by exact h)]

theorem mergeHome_refree (k : Nat) (d : Blob) (m : BitVec 32) (c f u : Bool) : FreeBlind (fun s => s.mergeHome k d m c f u) := by
  intro s n
  unfold State.mergeHome
  dsimp only
  split
  · rfl
  · exact (congrArg (State.wakePending · k) (noteAccess_refree _ u true (s.setHome k d m c f) n)).trans (wakePending_refree k _ n)

theorem sendSector_refree (k : Nat) (l : L1Line) (i : Fin 4) : FreeBlind (fun s => s.sendSector k l i) := by
  intro s n
  unfold State.sendSector
  dsimp only
  have h := mergeHome_refree (4 * linLine l.tag + i.val) (getB l.data (32 * i.val) 32) (rd l.sec i).dmask (rd l.sec i).poison
    (rd l.sec i).full false s n
  dsimp only at h
  split
  · rfl
  · rw [h]
    generalize s.mergeHome _ _ _ _ _ _ = s1
    split
    · exact setCore_refree { s1 with store := (s1.store.rdcMerge (dieOf k) l.tag i.val (getB l.data (32 * i.val) 32)
        (rd l.sec i).dmask (rd l.sec i).poison (rd l.sec i).full) } n k _
    · rfl

theorem recallFrom_refree (k line : Nat) : FreeBlind (fun s => s.recallFrom k line) := by
  intro s n
  have hc : (s.refree n).coreAt k = s.coreAt k := rfl
  unfold State.recallFrom
  dsimp only
  rw [hc]
  split
  · rfl
  · rw [setCore_refree]; exact freeBlind_foldl (sendSector_refree k _) _ _ n

theorem readLine_refree (line : Nat) : FreeBlind (fun s => s.readLine line) := by
  intro s n
  have hrecall : (s.refree n).recall line none = (s.recall line none).refree n := by
    refine freeBlind_foldl (f := fun t k => if t.keeps none k line then t else t.recallFrom k line) ?_ _ s n
    intro k s n
    have hk : (s.refree n).keeps none k line = s.keeps none k line := rfl
    dsimp only
    rw [hk]
    split
    · rfl
    · exact recallFrom_refree k line s n
  dsimp only [State.readLine]
  rw [hrecall]
  exact noteAccess_refree _ true false _ n

theorem fetchLine_refree (s : State) (n tag : Nat) : ((s.refree n).fetchLine tag).2 = (s.fetchLine tag).2 ∧
    ((s.refree n).fetchLine tag).1 = (s.fetchLine tag).1.refree n := by
  have hgrant : ∀ line, (s.refree n).grantNow line = ((s.grantNow line).1.refree n, (s.grantNow line).2) := by
    intro line
    have h := readLine_refree line s n
    unfold State.grantNow
    dsimp only at h ⊢
    rw [h]; rfl
  have hcopy : (s.refree n).rdcCopy tag = s.rdcCopy tag := rfl
  unfold State.fetchLine State.rdcFill
  rw [hcopy, show (s.refree n).coreId = s.coreId from rfl]
  simp only [hgrant]
  split
  · split <;> exact ⟨rfl, rfl⟩
  · exact ⟨rfl, rfl⟩

theorem byteAt_refree (s : State) (n : Nat) (tg : Target) : (s.refree n).byteAt tg = s.byteAt tg := by
  have hl1 : ∀ pa, ((s.refree n).l1Read pa 1).2 = (s.l1Read pa 1).2 := by
    intro pa
    have hline : ((s.refree n).core.line (pa / 128)).filter (s.refree n).usable = (s.core.line (pa / 128)).filter s.usable := rfl
    obtain ⟨hf, hs⟩ := fetchLine_refree s n (pa / 128)
    unfold State.l1Read
    dsimp only
    rw [hline]
    split
    · rfl
    · dsimp only; rw [hf, hs]; rfl
  unfold State.byteAt State.readAt
  cases tg with
  | spad off => rfl
  | mem pa rc =>
    have hplace : (s.refree n).place pa = s.place pa := rfl
    dsimp only
    unfold State.readPa
    rw [hplace]
    split
    · simp [hl1]
    all_goals rfl

/-- A state that holds the same as s wherever reading memory looks, but for the count of free values, reads every byte alike. -/
theorem SameBytes.of_recast_refree {s t : State} {n : Nat} (h : t = (s.refree n).recast t) : SameBytes s t := fun tg =>
  (SameBytes.of_recast h tg).trans (byteAt_refree s n tg)

end Sys2Proof.Machine
end

section
/-! SUPPORT. Block-scaled loads and stores (05 R117, R118; 07 R173, R174): O37. -/

namespace Sys2Proof.Machine

/-! ## Elements written in a row -/

theorem putElems_append (x : Blob) (bits : Nat) (l k : List (Nat × Nat)) :
    putElems x bits (l ++ k) = putElems (putElems x bits l) bits k := by
  induction l generalizing x with
  | nil => rfl
  | cons e l ih => exact ih _

theorem look_cons (e : Nat × Nat) (l : List (Nat × Nat)) (i : Nat) : look (e :: l) i = if e.1 = i then some e.2 else look l i := by
  unfold look
  by_cases h : e.1 = i <;> simp [h]

/-- What an element reads after several are written: the last value written to it, or what it held. -/
theorem getBits_putElems_look (bits : Nat) (l : List (Nat × Nat)) (x : Blob) (i : Nat) :
    getBits (putElems x bits l) (i * bits) bits =
      match look l.reverse i with | some v => v % 2 ^ bits | none => getBits x (i * bits) bits := by
  induction l using List.reverseRecOn with
  | nil => rfl
  | append_singleton l e ih =>
    have hlast := getBits_putElems bits (fun _ => e.2) [e.1] (putElems x bits l) i
    simp only [List.map_cons, List.map_nil, List.mem_singleton] at hlast
    rw [putElems_append, hlast, List.reverse_append, List.reverse_singleton, List.singleton_append, look_cons, ih]
    by_cases h : i = e.1
    · simp [h]
    · simp [h, Ne.symm h]

/-- In a list of pairs whose values are a function of their keys, a key is found with that value, wherever it stands. -/
theorem look_reverse_of_mem {l : List (Nat × Nat)} {g : Nat → Nat} (h : ∀ p ∈ l, p.2 = g p.1) {i : Nat} (hi : i ∈ l.map Prod.fst) :
    look l.reverse i = some (g i) := by
  obtain ⟨v, hv⟩ : ∃ v, look l.reverse i = some v := by
    obtain ⟨p, hp, rfl⟩ := List.mem_map.1 hi
    rw [look]
    exact Option.isSome_iff_exists.1 (by simpa using ⟨p.2, hp⟩)
  rw [hv]
  exact congrArg some (h (i, v) (List.mem_reverse.1 (mem_of_look _ _ _ hv)))

theorem look_reverse_of_not_mem {l : List (Nat × Nat)} {i : Nat} (hi : i ∉ l.map Prod.fst) : look l.reverse i = none := by
  cases hv : look l.reverse i with
  | none => rfl
  | some v => exact absurd (List.mem_map.2 ⟨(i, v), List.mem_reverse.1 (mem_of_look _ _ _ hv), rfl⟩) hi

/-! ## The parts of a memory slot's end -/

/-- Nothing but the vector state and the count of free values has changed. -/
def VecFree (s t : State) : Prop := t = (s.refree t.free).withVec t.th.vec

theorem writeMx_vecFree (s : State) (r : VReg) (es sides : List (Nat × Nat)) : VecFree s (s.writeMx r es sides) := by
  unfold State.writeMx State.sidecar
  split
  · rfl
  · dsimp only; split <;> rfl

theorem writeMx_data (s : State) (r : VReg) (es sides : List (Nat × Nat)) :
    ((s.writeMx r es sides).vreg r).data = putElems (s.vreg r).data 4 es := by
  cases es with
  | nil => rfl
  | cons e es => simp [State.writeMx, State.vreg, State.setV]

theorem writeMx_tag (s : State) (r : VReg) {es : List (Nat × Nat)} (sides : List (Nat × Nat)) (h : es ≠ []) :
    ((s.writeMx r es sides).vreg r).tag = true := by
  have : es.isEmpty = false := by simpa using h
  simp [State.writeMx, this, State.vreg, State.setV]

theorem writeMx_side (s : State) (r : VReg) {es : List (Nat × Nat)} (sides : List (Nat × Nat)) (h : es ≠ []) {j v : Nat}
    (hj : look sides.reverse j = some v) : getB ((s.writeMx r es sides).vreg r).side j 1 = v % 256 := by
  have : es.isEmpty = false := by simpa using h
  have hside : ((s.writeMx r es sides).vreg r).side = putElems (s.sidecar r).2 8 sides := by
    simp [State.writeMx, this, State.vreg, State.setV]
  rw [hside, getB_eq_getBits, Nat.mul_comm 8 j]
  exact (getBits_putElems_look 8 sides _ j).trans (by rw [hj]; rfl)

theorem writeMx_vreg_ne (s : State) {r q : VReg} (es sides : List (Nat × Nat)) (h : q ≠ r) : (s.writeMx r es sides).vreg q = s.vreg q := by
  unfold State.writeMx State.sidecar
  split
  · rfl
  · dsimp only; split <;> exact rd_wr_ne _ _ _ _ h

/-- The end of a memory slot, but for its accesses. -/
def State.memEnd (s : State) (u : Fin 7) (r : VReg) (bits : Nat) : State := ((s.latchV u r bits).busyFree bits).slotDone

theorem memEnd_eq (s : State) (u : Fin 7) (r : VReg) (bits : Nat) : ∃ n, s.memEnd u r bits =
    (s.refree (s.free + 1)).ended (s.latchV u r bits).th.vec n := by
  refine ⟨s.laneCycles bits 1 + (Config.freeWord s.free).toNat % 2 ^ 32, ?_⟩
  rw [← busy_slotDone_withVec, State.memEnd, latchV_eq]
  rfl

/-- A slot has finished, and the count of free values has moved. -/
theorem ended_slotOnly_refree (s : State) (m : Nat) (x : VecState) (n : Nat) : SlotOnly s ((s.refree m).ended x n) :=
  ⟨rfl, slotDone_convoy s.th, rfl, SameBytes.of_recast_refree (n := m) rfl⟩

theorem memEnd_vreg (s : State) (u : Fin 7) (r q : VReg) (bits : Nat) : (s.memEnd u r bits).vreg q = s.vreg q := by
  obtain ⟨n, h⟩ := memEnd_eq s u r bits
  rw [h, latchV_eq]; rfl

theorem memEnd_scalars (s : State) (u : Fin 7) (r : VReg) (bits : Nat) : (s.memEnd u r bits).th.s = s.th.s := by
  obtain ⟨n, h⟩ := memEnd_eq s u r bits
  rw [h]; rfl

theorem memEnd_slotOnly {s t : State} (h : VecFree s t) (u : Fin 7) (r : VReg) (bits : Nat) : SlotOnly s (t.memEnd u r bits) := by
  obtain ⟨n, hend⟩ := memEnd_eq t u r bits
  have hconv : (t.refree (t.free + 1)).th.slotDone.convoy = (s.refree (t.free + 1)).th.slotDone.convoy :=
    slotDone_convoy_congr (by rw [h]; rfl)
  have hended : t.memEnd u r bits = (s.refree (t.free + 1)).ended (t.latchV u r bits).th.vec n := by
    rw [hend]
    generalize (t.latchV u r bits).th.vec = x
    simp only [State.ended, hconv]
    rw [h]
    rfl
  rw [hended]
  exact ended_slotOnly_refree s _ _ n

/-! ## Loads -/

theorem loadMx_sides (f : VF) (kind : LoadKind) (l : List Nat) (s : State) :
    (s.loadMx f kind l).2.1.vals = [] → (s.loadMx f kind l).2.2 = [] := by
  induction l generalizing s with
  | nil => exact fun _ => rfl
  | cons i l ih =>
    unfold State.loadMx
    split
    · exact ih s
    · dsimp only
      split
      · exact fun _ => rfl
      · split
        · split
          · exact fun _ => rfl
          · exact fun h => by cases h
        · exact fun h => by cases h

/-- What a `.mxf4` load leaves of the elements and scale bytes that it has got in state s. -/
def MxLoaded (s : State) (f : VF) (vals sides : List (Nat × Nat)) (t : State) : Prop :=
  (∀ i, t.velem f.d 4 i = match look vals.reverse i with | some v => v % 16 | none => s.velem f.d 4 i) ∧
  (vals ≠ [] → (t.vreg f.d).tag = true) ∧
  (∀ j v, look sides.reverse j = some v → getB (t.vreg f.d).side j 1 = v % 256) ∧
  (∀ k, k ≠ f.d → t.vreg k = s.vreg k) ∧ t.th.s = s.th.s ∧ SlotOnly s t

theorem writeMx_loaded (s : State) (f : VF) {vals sides : List (Nat × Nat)} (h : vals = [] → sides = []) :
    MxLoaded s f vals sides ((s.writeMx f.d vals sides).memEnd 2 f.d 4) := by
  have hfree := writeMx_vecFree s f.d vals sides
  refine ⟨fun i => ?_, fun hv => ?_, fun j v hj => ?_, fun k hk => ?_, ?_, memEnd_slotOnly hfree 2 f.d 4⟩
  · rw [State.velem, memEnd_vreg, writeMx_data]; exact getBits_putElems_look 4 vals _ i
  · rw [memEnd_vreg]; exact writeMx_tag s f.d sides hv
  · have hv : vals ≠ [] := fun hv => by rw [h hv] at hj; cases hj
    rw [memEnd_vreg]; exact writeMx_side s f.d sides hv hj
  · rw [memEnd_vreg]; exact writeMx_vreg_ne s vals sides hk
  · rw [memEnd_scalars, hfree]; rfl

section MxLoad
variable {s : State} {f : VF} (hlen : s.tooLong [4] = false) (hmx : s.mxBroken f = false)
include hlen hmx

/-- A load slot of whole blocks at a base of 16 bytes whose accesses have all been done. -/
theorem vloadMx_done {kind : LoadKind} (hp : s.pointer f.a % 16 = 0) (hrem : s.remaining f ≠ []) {s1 : State} {r : ElemRun}
    {q : List (Nat × Nat)} (hload : s.loadMx f (if kind = .home then .home else .plain) (s.remaining f) = (s1, r, q))
    (hstop : r.stop = none) : s.vloadMx f kind =
      (if kind = .last then ((s1.writeMx f.d r.vals q).dropEarlier (s.earlierMx f)).dropAll r.places
        else s1.writeMx f.d r.vals q).memEnd 2 f.d 4 := by
  unfold State.vloadMx
  simp only [hlen, hmx, Bool.false_or, Bool.false_eq_true, if_false]
  split
  · exact absurd ‹_› hrem
  · next e es he => rw [if_neg (not_not.2 hp), ← he, hload]; dsimp only; rw [hstop]; rfl

theorem vloadMx_dalign (kind : LoadKind) {i : Nat} {is : List Nat} (hrem : s.remaining f = i :: is) (hp : s.pointer f.a % 16 ≠ 0) :
    s.vloadMx f kind = s.elemFault i { cause := 5, fva := wd (s.unitEa f i) } := by
  unfold State.vloadMx
  simp only [hlen, hmx, Bool.false_or, Bool.false_eq_true, if_false, hrem, if_pos hp]
  rfl

end MxLoad

/-! ## The scratchpad -/

/-- The byte at an address in the scratchpad window. -/
def State.padByte (s : State) (a : Nat) : Nat := s.core.spad.readN (a - spw) 1

/-- The address names a byte of the scratchpad. -/
def State.InPad (s : State) (a : Nat) : Prop := spw ≤ a ∧ a < spw + 2 ^ 20 ∧ a - spw < s.core.spadSize

/-- No link goes down during the turn and no watchpoint of the core is set. -/
def State.Undisturbed (s : State) : Prop :=
  s.fab.falling = none ∧ ∀ i : Fin 2, (rd s.core.watch i).rd = false ∧ (rd s.core.watch i).wr = false

/-- The bytes of `.mxf4` element i lie in the scratchpad: its own, and its block's scale. -/
def State.MxInPad (s : State) (f : VF) (i : Nat) : Prop :=
  s.InPad (s.pointer f.a + i / 2) ∧ s.InPad ((s.bScalar f i).toNat + i / 32)

theorem watchHit_none {c : Core} (h : ∀ i : Fin 2, (rd c.watch i).rd = false ∧ (rd c.watch i).wr = false) (va n : Nat) (r w : Bool) :
    c.watchHit va n r w = none := by
  simp [Core.watchHit, (h _).1, (h _).2]

theorem reachWith_pad {s : State} (h : s.Undisturbed) {a : Nat} (ha : s.InPad a) (i : Nat) (watched : Bool) (need : Need) :
    (s.fallAt i).reachWith watched a 1 1 need = (s, .ok (.spad (a - spw))) := by
  obtain ⟨hfall, hwatch⟩ := h
  obtain ⟨hlo, hhi, hsize⟩ := ha
  have hun : s.reachUnwatched a 1 1 need = (s, .ok (.spad (a - spw))) := by
    have hin : inSpw a = true := by rw [inSpw, decide_eq_true hlo, decide_eq_true hhi]; rfl
    rw [State.reachUnwatched, Nat.mod_one, if_neg (by simp), State.locate, if_pos hin, if_neg (by omega)]
  have hwatched : s.reach a 1 1 need = (s, .ok (.spad (a - spw))) := by
    unfold State.reach State.watchAt
    rw [hun]
    simp only [watchHit_none hwatch]
  have : s.fallAt i = s := by rw [State.fallAt, hfall]
  rw [this, State.reachWith]
  split
  · exact hwatched
  · exact hun

theorem loadElem_pad {s : State} (h : s.Undisturbed) {a : Nat} (ha : s.InPad a) (kind : LoadKind) (i : Nat) :
    s.loadElem kind a 1 i = (s, .ok (s.padByte a, .spad (a - spw))) := by
  obtain ⟨y, hy⟩ : ∃ y, s.asElem i = { s with th := y } := by unfold State.asElem; split <;> exact ⟨_, rfl⟩
  unfold State.loadElem
  rw [reachWith_pad h ha]
  dsimp only
  rw [hy]
  rfl

theorem spw_end : spw + 2 ^ 20 < 2 ^ 64 := by decide

section Addresses
variable {s : State} {f : VF} {i : Nat} (hty : f.ty = .mxf4) (hi : s.MxInPad f i)
include hi

theorem scaleEa_pad : s.scaleEa f i = (s.bScalar f i).toNat + i / 32 := by
  obtain ⟨-, -, hhi, -⟩ := hi
  exact Nat.mod_eq_of_lt (hhi.trans spw_end)

include hty
theorem unitEa_pad : s.unitEa f i = s.pointer f.a + i / 2 := by
  obtain ⟨⟨-, hhi, -⟩, -⟩ := hi
  have hb : f.ty.bits = 4 := by rw [hty]; rfl
  rw [State.unitEa, hb, show i * 4 / 8 = i / 2 by omega]
  exact Nat.mod_eq_of_lt (hhi.trans spw_end)

end Addresses

/-- Element j of packed `.mxf4` elements at the base of f in the scratchpad. -/
def State.padNibble (s : State) (f : VF) (j : Nat) : Nat := s.padByte (s.pointer f.a + j / 2) / 16 ^ (j % 2) % 16

/-- The scale byte of block j in the scratchpad. -/
def State.padScale (s : State) (f : VF) (j : Nat) : Nat := s.padByte ((s.bScalar f (32 * j)).toNat + j)

/-- What a load of these elements from the scratchpad gets. -/
structure PadRun (s : State) (f : VF) (l : List Nat) (r : ElemRun) (q : List (Nat × Nat)) : Prop where
  stop : r.stop = none
  places : ∀ p ∈ r.places, ∃ o, p.1 = .spad o
  vals : ∀ p ∈ r.vals, p.2 = s.padNibble f p.1
  keys : ∀ j, j ∈ r.vals.map Prod.fst ↔ ∃ i ∈ l, i % 2 = 0 ∧ (j = i ∨ j = i + 1)
  scales : ∀ p ∈ q, p.2 = s.padScale f p.1
  blocks : ∀ j, j ∈ q.map Prod.fst ↔ 32 * j ∈ l

theorem padNibble_pair (s : State) (f : VF) {i : Nat} (h : i % 2 = 0) :
    s.padByte (s.pointer f.a + i / 2) % 16 = s.padNibble f i ∧ s.padByte (s.pointer f.a + i / 2) / 16 = s.padNibble f (i + 1) := by
  have hlt : s.padByte (s.pointer f.a + i / 2) < 256 ^ 1 := Mem.readN_lt _ _ _
  have h1 : (i + 1) / 2 = i / 2 := by omega
  have h2 : (i + 1) % 2 = 1 := by omega
  rw [State.padNibble, State.padNibble, h1, h2, h, Nat.pow_zero, Nat.div_one, Nat.pow_one]
  exact ⟨rfl, by omega⟩

theorem loadMx_pad {s : State} {f : VF} (hty : f.ty = .mxf4) (h : s.Undisturbed) (kind : LoadKind) (l : List Nat)
    (hl : ∀ i ∈ l, s.MxInPad f i) : ∃ r q, s.loadMx f kind l = (s, r, q) ∧ PadRun s f l r q := by
  induction l with
  | nil => exact ⟨{}, [], rfl, ⟨rfl, by simp, by simp, by simp, by simp, by simp⟩⟩
  | cons i l ih =>
    obtain ⟨r, q, heq, hrun⟩ := ih (fun j hj => hl j (List.mem_cons_of_mem _ hj))
    have hi := hl i List.mem_cons_self
    unfold State.loadMx
    by_cases hodd : i % 2 = 1
    · rw [if_pos hodd]
      refine ⟨r, q, heq, hrun.stop, hrun.places, hrun.vals, fun j => ?_, hrun.scales, fun j => ?_⟩
      · rw [hrun.keys]; simp [hodd]
      · rw [hrun.blocks, List.mem_cons, or_iff_right (by omega)]
    · have heven : i % 2 = 0 := by omega
      obtain ⟨hlow, hhigh⟩ := padNibble_pair s f heven
      have hkeys : ∀ j, j ∈ ((i, s.padNibble f i) :: (i + 1, s.padNibble f (i + 1)) :: r.vals).map Prod.fst ↔
          ∃ k ∈ i :: l, k % 2 = 0 ∧ (j = k ∨ j = k + 1) := fun j => by
        simp only [List.map_cons, List.mem_cons, hrun.keys, exists_eq_or_imp, heven, true_and, or_assoc]
      have hvals : ∀ p ∈ (i, s.padNibble f i) :: (i + 1, s.padNibble f (i + 1)) :: r.vals, p.2 = s.padNibble f p.1 := by
        simpa using hrun.vals
      rw [if_neg hodd, unitEa_pad hty hi, scaleEa_pad hi, loadElem_pad h hi.1]
      dsimp only
      rw [loadElem_pad h hi.2, heq, hlow, hhigh]
      by_cases hfirst : i % 32 = 0
      · have hscale : s.padByte ((s.bScalar f i).toNat + i / 32) = s.padScale f (i / 32) := by
          rw [State.padScale, show 32 * (i / 32) = i by omega]
        rw [if_pos hfirst, hscale]
        refine ⟨_, _, rfl, hrun.stop, by simpa using hrun.places, hvals, hkeys, by simpa using hrun.scales, fun j => ?_⟩
        rw [List.map_cons, List.mem_cons, List.mem_cons, hrun.blocks]
        exact or_congr (by dsimp only; omega) Iff.rfl
      · rw [if_neg hfirst]
        refine ⟨_, _, rfl, hrun.stop, by simpa using hrun.places, hvals, hkeys, hrun.scales, fun j => ?_⟩
        rw [hrun.blocks, List.mem_cons, or_iff_right (by omega)]

/-! ## Whole blocks (R118) -/

section Whole
variable {s : State} {f : VF} (hmx : s.mxBroken f = false)
include hmx

theorem block_active {i : Nat} (hi : i < s.vl) : s.active f.msk i = s.active f.msk (32 * (i / 32)) := by
  simp only [State.mxBroken, Bool.or_eq_false_iff, bne_eq_false_iff_eq, List.any_eq_false, List.mem_range, Bool.not_eq_true] at hmx
  obtain ⟨hvl, hblocks⟩ := hmx
  have := hblocks (i / 32) (by omega) (i % 32) (by omega)
  rwa [Nat.div_add_mod] at this

/-- With an element its pair and the first of its block take part. -/
theorem actives_pair {j : Nat} : (∃ i ∈ s.actives f, i % 2 = 0 ∧ (j = i ∨ j = i + 1)) ↔ j ∈ s.actives f := by
  have hvl : s.vl % 32 = 0 := by
    have := hmx
    simp only [State.mxBroken, Bool.or_eq_false_iff, bne_eq_false_iff_eq] at this
    exact this.1
  simp only [mem_actives]
  constructor
  · rintro ⟨i, ⟨hlt, hact⟩, heven, hj⟩
    have hj' : j < s.vl ∧ j / 32 = i / 32 := by omega
    exact ⟨hj'.1, by rw [block_active hmx hj'.1, hj'.2, ← block_active hmx hlt, hact]⟩
  · rintro ⟨hlt, hact⟩
    refine ⟨j / 2 * 2, ⟨by omega, ?_⟩, by omega, by omega⟩
    rw [block_active hmx (by omega), show j / 2 * 2 / 32 = j / 32 by omega, ← block_active hmx hlt, hact]

end Whole

/-! ## Slots that no trap has interrupted -/

section Fresh
variable {s : State} {f : VF} (hprog : s.slotNow.prog = 0)
include hprog

theorem remaining_fresh : s.remaining f = s.actives f := by
  simp [State.remaining, hprog]

theorem earlierMx_fresh : s.earlierMx f = [] := by
  simp [State.earlierMx, State.earlier, hprog]

end Fresh

theorem dropEarlier_nil (s : State) : s.dropEarlier [] = s := rfl

theorem dropAll_pad (s : State) {ps : List (Target × Nat)} (h : ∀ p ∈ ps, ∃ o, p.1 = .spad o) : s.dropAll ps = s := by
  induction ps with
  | nil => rfl
  | cons p ps ih =>
    obtain ⟨o, ho⟩ := h p List.mem_cons_self
    have hp : s.dropAt p.1 = s := by rw [ho]; rfl
    rw [State.dropAll, List.foldl_cons, hp]
    exact ih (fun p hp => h p (List.mem_cons_of_mem _ hp))

/-- What a `.mxf4` load of whole blocks from the scratchpad leaves (R118, R173). -/
def MxLoadedPad (s : State) (f : VF) (t : State) : Prop :=
  (∀ i, t.velem f.d 4 i = if i < s.vl ∧ s.active f.msk i = true then s.padNibble f i else s.velem f.d 4 i) ∧
  (∀ j, 32 * j < s.vl → s.active f.msk (32 * j) = true → getB (t.vreg f.d).side j 1 = s.padScale f j) ∧
  (t.vreg f.d).tag = true ∧ (∀ k, k ≠ f.d → t.vreg k = s.vreg k) ∧ t.th.s = s.th.s ∧ SlotOnly s t

theorem vloadMx_pad {s : State} {f : VF} (hty : f.ty = .mxf4) (hlen : s.tooLong [4] = false) (hmx : s.mxBroken f = false)
    (hp : s.pointer f.a % 16 = 0) (hprog : s.slotNow.prog = 0) (h : s.Undisturbed)
    (hpad : ∀ i ∈ s.actives f, s.MxInPad f i) (hne : s.actives f ≠ []) (kind : LoadKind) :
    MxLoadedPad s f (s.vloadMx f kind) := by
  have hrem : s.remaining f = s.actives f := remaining_fresh hprog
  obtain ⟨r, q, hload, hrun⟩ := loadMx_pad hty h (if kind = .home then .home else .plain) _ hpad
  have hkeys : ∀ j, j ∈ r.vals.map Prod.fst ↔ j ∈ s.actives f := fun j => by rw [hrun.keys, actives_pair hmx]
  have hdone := vloadMx_done hlen hmx hp (hrem ▸ hne) (by rw [hrem]; exact hload) hrun.stop
  rw [earlierMx_fresh hprog, dropEarlier_nil, dropAll_pad _ hrun.places, ite_self] at hdone
  have hsides := loadMx_sides f (if kind = .home then .home else .plain) (s.actives f) s
  rw [hload] at hsides
  obtain ⟨helems, htag, hside, hothers, hscalars, honly⟩ := writeMx_loaded s f hsides
  rw [hdone]
  refine ⟨fun i => ?_, fun j hj hact => ?_, htag fun hv => ?_, hothers, hscalars, honly⟩
  · have hact := mem_actives s f i
    rw [helems]
    by_cases hi : i ∈ s.actives f
    · rw [look_reverse_of_mem hrun.vals ((hkeys i).2 hi), if_pos (hact.1 hi)]; exact Nat.mod_mod _ _
    · rw [look_reverse_of_not_mem (mt (hkeys i).1 hi), if_neg (mt hact.2 hi)]
  · have hin : 32 * j ∈ s.actives f := (mem_actives s f _).2 ⟨hj, hact⟩
    have hlt : s.padScale f j < 256 ^ 1 := Mem.readN_lt _ _ _
    rw [hside j _ (look_reverse_of_mem hrun.scales ((hrun.blocks j).2 hin))]
    exact Nat.mod_eq_of_lt hlt
  · obtain ⟨i, hi⟩ := List.exists_mem_of_ne_nil _ hne
    have hmem := (hkeys i).2 hi
    rw [show r.vals = [] from hv] at hmem
    exact List.not_mem_nil hmem

/-! ## Stores -/

/-- The state with the scratchpad replaced. -/
def State.withPad (s : State) (m : Mem) : State := { s with core := { s.core with spad := m } }

/-- The bytes that element i of a `.mxf4` store brings to the scratchpad: a pair of elements, and its block's scale after the first pair. -/
def State.padStoreMx (s : State) (f : VF) (side : Blob) (m : Mem) (i : Nat) : Mem :=
  if i % 2 = 1 then m
  else
    let m1 := m.writeN (s.pointer f.a + i / 2 - spw) 1 (s.elem .c f.c 4 i + 16 * s.elem .c f.c 4 (i + 1))
    if i % 32 = 0 then m1.writeN ((s.bScalar f i).toNat + i / 32 - spw) 1 (getB side (i / 32) 1) else m1

theorem storeMx_pad {s : State} {f : VF} (hty : f.ty = .mxf4) (h : s.Undisturbed) (side : Blob) (l : List Nat)
    (hl : ∀ i ∈ l, s.MxInPad f i) (m : Mem) : ∃ r, (s.withPad m).storeMx f side l = (s.withPad (l.foldl (s.padStoreMx f side) m), r) ∧
      r.stop = none ∧ ∀ p ∈ r.places, ∃ o, p.1 = .spad o := by
  have hbits : f.ty.bits = 4 := by rw [hty]; rfl
  induction l generalizing m with
  | nil => exact ⟨{}, rfl, rfl, by simp⟩
  | cons i l ih =>
    obtain ⟨r, heq, hstop, hplaces⟩ := ih (fun j hj => hl j (List.mem_cons_of_mem _ hj)) (s.padStoreMx f side m i)
    have hi : (s.withPad m).MxInPad f i := hl i List.mem_cons_self
    have hreach := fun watched => reachWith_pad (s := s.withPad m) h hi.1 i watched .write
    have hscale := fun watched => reachWith_pad (s := s.withPad m) h hi.2 i watched .write
    have hfall : (s.withPad m).fallAt i = s.withPad m := by rw [State.fallAt, show (s.withPad m).fab.falling = none from h.1]
    rw [hfall] at hreach hscale
    rw [List.foldl_cons]
    obtain ⟨m', hm'⟩ : ∃ m', m' = s.padStoreMx f side m i := ⟨_, rfl⟩
    rw [← hm'] at heq ⊢
    unfold State.padStoreMx at hm'
    unfold State.storeMx
    split at hm' <;> rename_i hodd
    · rw [if_pos hodd, ← hm']
      exact ⟨r, heq, hstop, hplaces⟩
    · rw [if_neg hodd, hfall, unitEa_pad hty hi, scaleEa_pad hi, hreach]
      dsimp only at hm' ⊢
      have hc : ∀ k, (s.withPad m).srcC f k = s.elem .c f.c 4 k := fun k => by rw [State.srcC, hbits]; rfl
      have hw : ∀ m o v, (s.withPad m).writeAt (.spad o) 1 v = s.withPad (m.writeN o 1 v) := fun _ _ _ => rfl
      rw [hc, hc, hscale]
      dsimp only
      rw [hw, hw, show (s.withPad m).pointer f.a = s.pointer f.a from rfl, show (s.withPad m).bScalar f i = s.bScalar f i from rfl]
      split at hm' <;> rename_i hfirst
      · rw [if_pos hfirst, ← hm', heq]
        exact ⟨_, rfl, hstop, by simpa using hplaces⟩
      · rw [if_neg hfirst, ← hm', heq]
        exact ⟨_, rfl, hstop, by simpa using hplaces⟩

/-- Places in the scratchpad cover no sector of device memory. -/
theorem clearFull_pad (s : State) {ps : List (Target × Nat)} (h : ∀ p ∈ ps, ∃ o, p.1 = .spad o) : s.clearFull ps = s := by
  have hcov : covered ps = [] := by
    unfold covered
    induction ps with
    | nil => rfl
    | cons p ps ih =>
      obtain ⟨o, ho⟩ := h p List.mem_cons_self
      rw [List.foldl_cons, ho]
      exact ih (fun p hp => h p (List.mem_cons_of_mem _ hp))
  rw [State.clearFull, hcov]; rfl

theorem latchStore_eq (s : State) (f : VF) (bits : Nat) : ∃ x, s.latchStore f bits = s.withVec { s.th.vec with lat := x } := by
  unfold State.latchStore
  split
  · exact ⟨s.th.vec.lat, rfl⟩
  · split <;> exact ⟨_, rfl⟩

section MxStore
variable {s : State} {f : VF} {r : VReg} {c : Bool} (hc : f.c = .v r c)
include hc

theorem vstoreMx_resop (h : s.tooLong [4] = true ∨ s.mxBroken f = true ∨ (s.vreg r).tag = false) : s.vstoreMx f = s.slotResop := by
  unfold State.vstoreMx
  rw [hc]
  rcases h with h | h | h <;> simp [h]

variable (hlen : s.tooLong [4] = false) (hmx : s.mxBroken f = false) (htag : (s.vreg r).tag = true)
include hlen hmx htag

theorem vstoreMx_dalign {i : Nat} {is : List Nat} (hrem : s.remaining f = i :: is) (hp : s.pointer f.a % 16 ≠ 0) :
    s.vstoreMx f = s.elemFault i { cause := 5, fva := wd (s.unitEa f i) } := by
  unfold State.vstoreMx
  simp only [hc, hlen, hmx, htag, hrem, if_pos hp]
  rfl

theorem vstoreMx_empty (hrem : s.remaining f = []) : s.vstoreMx f = (s.latchStore f 4).slotDone := by
  unfold State.vstoreMx
  simp only [hc, hlen, hmx, htag, hrem]
  rfl

theorem vstoreMx_aligned (hrem : s.remaining f ≠ []) (hp : s.pointer f.a % 16 = 0) {s1 : State} {run : ElemRun}
    (hrun : s.storeMx f (s.vreg r).side (s.remaining f) = (s1, run)) : s.vstoreMx f = s1.storeEnd f 4 run (s.earlierMx f) := by
  unfold State.vstoreMx
  simp only [hc, hlen, hmx, htag, Bool.or_self, Bool.not_true, Bool.false_eq_true, if_false]
  split
  · exact absurd ‹_› hrem
  · next he => rw [if_neg (not_not.2 hp), ← he, hrun]

/-- A store of a tagged register to the scratchpad (R118, R173). -/
theorem vstoreMx_pad (hty : f.ty = .mxf4) (hp : s.pointer f.a % 16 = 0) (hprog : s.slotNow.prog = 0) (h : s.Undisturbed)
    (hpad : ∀ i ∈ s.actives f, s.MxInPad f i) : ∃ lat laneBusy free, s.vstoreMx f = { s with
      core := { s.core with spad := (s.actives f).foldl (s.padStoreMx f (s.vreg r).side) s.core.spad }
      th := { s.th with
        vec := { s.th.vec with lat }
        laneBusy, issue := none
        convoy := s.th.slotDone.convoy
        spin := if s.actives f = [] then s.th.spin else 0 }
      free } := by
  have hrem : s.remaining f = s.actives f := remaining_fresh hprog
  by_cases hact : s.actives f = []
  · obtain ⟨x, hx⟩ := latchStore_eq s f 4
    have hconv : (s.latchStore f 4).th.slotDone.convoy = s.th.slotDone.convoy := slotDone_convoy_congr (by rw [hx]; rfl)
    rw [vstoreMx_empty hc hlen hmx htag (hrem.trans hact), slotDone_eq, hconv, hx, hact, if_pos rfl]
    exact ⟨x, s.th.laneBusy, s.free, rfl⟩
  · obtain ⟨m, hm⟩ : ∃ m, m = (s.actives f).foldl (s.padStoreMx f (s.vreg r).side) s.core.spad := ⟨_, rfl⟩
    obtain ⟨run, hrun, hstop, hplaces⟩ := storeMx_pad hty h (s.vreg r).side _ hpad s.core.spad
    obtain ⟨x, hx⟩ := latchStore_eq (s.withPad m).unspin f 4
    have hend : (s.withPad m).storeEnd f 4 run [] = (((s.withPad m).unspin.latchStore f 4).busyFree 4).slotDone := by
      unfold State.storeEnd
      simp only [State.relocate, List.nil_append, clearFull_pad _ hplaces, hstop]
    have hconv : (((s.withPad m).unspin.latchStore f 4).busyFree 4).th.slotDone.convoy = s.th.slotDone.convoy :=
      slotDone_convoy_congr (by rw [hx]; rfl)
    rw [← hm] at hrun ⊢
    rw [← hrem] at hrun
    rw [vstoreMx_aligned hc hlen hmx htag (hrem ▸ hact) hp (s1 := s.withPad m) (run := run) hrun, earlierMx_fresh hprog, hend, slotDone_eq, hconv, hx,
      if_neg hact]
    exact ⟨_, _, _, rfl⟩

end MxStore

/-! ## O37 -/

theorem vldKinds_eq (s : State) {f : VF} (hty : f.ty = .mxf4) {i : Instr} (hi : i ∈ ([.vld f, .vldHome f, .vldLast f] : List Instr)) :
    ∃ kind, exec i s = .next (s.vloadMx f kind) := by
  simp only [List.mem_cons, List.not_mem_nil, or_false] at hi
  have hexec : ∀ kind, s.vloadUnit f kind = s.vloadMx f kind := fun kind => if_pos hty
  rcases hi with rfl | rfl | rfl
  · exact ⟨.plain, congrArg Host.Outcome.next (hexec _)⟩
  · exact ⟨.home, congrArg Host.Outcome.next (hexec _)⟩
  · exact ⟨.last, congrArg Host.Outcome.next (hexec _)⟩

theorem vloadMx_resop {s : State} {f : VF} (hmx : s.mxBroken f = true) (kind : LoadKind) : s.vloadMx f kind = s.slotResop := by
  rw [State.vloadMx, hmx, Bool.or_true, if_pos rfl]

/-- Settles O37: the bytes of a run over whole blocks, each written to its own place. -/
theorem blockScaledMemory : Obligations.BlockScaledMemory := by
  unfold Obligations.BlockScaledMemory
  intro s f hty hlen resop base inPad whole byteOf
  have hvst : exec (.vst f) s = .next (s.vstoreMx f) := congrArg Host.Outcome.next (if_pos hty)
  have hvld : ∀ {P : Instr → Prop}, (∀ i ∈ ([.vld f, .vldHome f, .vldLast f] : List Instr), P i) → P (.vld f) ∧ P (.vldHome f) ∧ P (.vldLast f) :=
    fun h => ⟨h _ (by simp), h _ (by simp), h _ (by simp)⟩
  refine ⟨fun hmx hrem hp s1 r q hload hstop => ?load, fun hwhole hne i hi => ?pad, fun r c hc htag hwhole => ?store, fun hmx => ?broken,
    fun r c hc htag => ?untagged, fun hc => ?other, fun i is hmx hrem hp => ?align⟩
  case load =>
    have hsides := loadMx_sides f .plain (s.remaining f) s
    rw [hload] at hsides
    refine ⟨_, ?_, writeMx_loaded s1 f hsides⟩
    exact congrArg Host.Outcome.next ((if_pos hty).trans (vloadMx_done hlen hmx hp hrem (kind := .plain) hload hstop))
  case pad =>
    obtain ⟨hmx, hp, hprog, hfall, hwatch, hin⟩ := hwhole
    obtain ⟨kind, hexec⟩ := vldKinds_eq s hty hi
    exact ⟨_, hexec, vloadMx_pad hty hlen hmx hp hprog ⟨hfall, hwatch⟩
      (fun i hi => hin i ((mem_actives s f i).1 hi).1 ((mem_actives s f i).1 hi).2) hne kind⟩
  case store =>
    obtain ⟨hmx, hp, hprog, hfall, hwatch, hin⟩ := hwhole
    obtain ⟨lat, laneBusy, free, heq⟩ := vstoreMx_pad hc hlen hmx htag hty hp hprog ⟨hfall, hwatch⟩
      (fun i hi => hin i ((mem_actives s f i).1 hi).1 ((mem_actives s f i).1 hi).2)
    exact ⟨_, hvst.trans (congrArg Host.Outcome.next heq), rfl, rfl, rfl⟩
  case broken =>
    obtain ⟨hp, hh, hl⟩ := hvld (P := resop) fun i hi => by
      obtain ⟨kind, hexec⟩ := vldKinds_eq s hty hi
      exact hexec.trans (congrArg Host.Outcome.next (vloadMx_resop hmx kind))
    refine ⟨hp, hh, hl, hvst.trans (congrArg Host.Outcome.next ?_)⟩
    cases hc : f.c with
    | v r c => exact vstoreMx_resop hc (.inr (.inl hmx))
    | o _ | lat _ | s _ => rw [State.vstoreMx, hc]; rfl
  case untagged => exact hvst.trans (congrArg Host.Outcome.next (vstoreMx_resop hc (.inr (.inr htag))))
  case other =>
    refine hvst.trans (congrArg Host.Outcome.next ?_)
    cases hf : f.c with
    | v r c => exact absurd hf (hc r c)
    | o _ | lat _ | s _ => rw [State.vstoreMx, hf]; rfl
  case align =>
    intro dalign
    obtain ⟨hplain, hhome, hlast⟩ := hvld (P := dalign) fun j hj => by
      obtain ⟨kind, hexec⟩ := vldKinds_eq s hty hj
      exact hexec.trans (congrArg Host.Outcome.next (vloadMx_dalign hlen hmx kind hrem hp))
    exact ⟨hplain, hhome, hlast, fun r c hc htag => hvst.trans (congrArg Host.Outcome.next (vstoreMx_dalign hc hlen hmx htag hrem hp))⟩

end Sys2Proof.Machine
end

section
/-! SUPPORT. A drain of a row that its tile does not have (08 R202; O50). -/

namespace Sys2Proof.Machine

/-- `mdrain` of rows 15 and 16 of tile 0 into v1, as `.f32`; R202 lets a tile of one row give row 0 alone. -/
def pastDrain : MEntry :=
  { mop := mopMdrain, slot := 0, vl := 0, rm := .rne, sv := 15 + 2 * 2 ^ 8, sv1 := 0, kr := 0, kr1 := 0, kc := 0, kc1 := 0, kd := 0
    level := 0, chained := false
    f := { kd := 0, kc := 0, kr := 0, c := 1, b := 0, a := 0, t := 0, s := 0, ty := .f32, rm := .rne, sat := false, ca := false, fx := 0 } }

/-- The machine after reset with this drain at the head of the queue: registers of 64 bytes, a tile of one row and one column at v0,
zeros but for 1.0 in the last four bytes of v0, which stand where row 15 would. Row 16 would stand in v1. -/
def pastState : State :=
  { State.reset with
    th := { State.reset.th with vec := { VecState.init 64 with
      v := wr (VecState.init 64).v 0 { VRegister.zero with data := 0x3F800000 * 256 ^ 60 } } }
    core := { State.reset.core with mat := { Mat.reset with
      queue := [pastDrain]
      tshape := wr Mat.reset.tshape 0 { owner := 0, rows := 1, cols := 1, base := 0 } } } }

/-- Row 16, as the state before the drain has it, is +0. -/
theorem pastState_row16 : pastState.tileElem pastState.coreId { owner := 0, rows := 1, cols := 1, base := 0 } 16 0 = 0 := by decide +kernel

/-- The drain has written row 15 where row 16 stood before it comes to row 16. -/
theorem pastState_drained : (pastState.seqEntry pastDrain).th.group 1 4 4 = 0x3F800000 := by decide +kernel

theorem roundTo_zero (rnd : Nat) : (roundTo .f32 .rne false rnd ((fmtOf .f32).decode 0)).code = 0 := rfl

theorem pastState_steps : exec .matrixSequence pastState = .next (pastState.seqEntry pastDrain) :=
  matrixSequence_head pastState _ (e := pastDrain) (es := []) (by decide) (by decide) (by decide) (by decide) rfl (by decide +kernel)
    (by decide +kernel)

/-- Refutes O50: the clause on drains asks that the destination lie apart from the tile's own rows, and does not ask that the rows drained be
rows of the tile (R202: ROW0 + CNT is no more than ROWS). A row beyond them can stand in the destination, where the drain of the row
before has overwritten it. -/
theorem not_matrixArrayResults : ¬ Obligations.MatrixArrayResults := by
  intro h
  obtain ⟨-, -, -, -, -, -, -, hdrain⟩ := h pastState pastDrain [] (by decide) (by decide) (by decide) (by decide)
  obtain ⟨t, ht, rnd, -, -, hout, -⟩ := hdrain (by decide) (by decide) (by decide) (by decide) (by decide) (by decide) (by decide) (by decide)
  have hrow16 := hout (by decide) 1 0 (by decide) (by decide)
  rw [← show pastState.seqEntry pastDrain = t from Host.Outcome.next.inj (pastState_steps.symm.trans ht)] at hrow16
  have hzero : (pastState.seqEntry pastDrain).th.group 1 4 4 = 0 := by
    refine hrow16.trans ((if_pos (by decide)).trans ?_)
    change (roundTo .f32 .rne false (rnd 1 0) ((fmtOf .f32).decode
      (pastState.tileElem pastState.coreId { owner := 0, rows := 1, cols := 1, base := 0 } 16 0))).code % 2 ^ 32 = 0
    rw [pastState_row16, roundTo_zero]
    rfl
  rw [pastState_drained] at hzero
  exact absurd hzero (by decide)

end Sys2Proof.Machine
end

section
/-! SUPPORT. What a slot that writes listed elements leaves, and a slot whose result is a scalar (07 R157, R158, R160). -/

namespace Sys2Proof.Machine

/-! ## Values found in a list of elements -/

theorem look_reverse_map (g : Nat → Nat) (l : List Nat) (i : Nat) :
    look (l.map (fun j => (j, g j))).reverse i = if i ∈ l then some (g i) else none := by
  have hkeys : (l.map (fun j => (j, g j))).map Prod.fst = l := by simp [Function.comp_def]
  split <;> rename_i hi
  · exact look_reverse_of_mem (by simp) (hkeys.symm ▸ hi)
  · exact look_reverse_of_not_mem (hkeys.symm ▸ hi)

/-- The active elements, each with a value. -/
theorem look_actives (s : State) (f : VF) (g : Nat → Nat) (i : Nat) :
    look ((s.actives f).map (fun i => (i, g i))).reverse i = s.onActive f g i := by
  simp only [look_reverse_map, State.onActive, mem_actives]

/-- Where no key stands twice, it does not matter from which end a list is searched. -/
theorem look_reverse_of_nodup {l : List (Nat × Nat)} (h : (l.map Prod.fst).Nodup) (i : Nat) : look l.reverse i = look l i := by
  induction l with
  | nil => rfl
  | cons e l ih =>
    obtain ⟨he, hl⟩ := List.nodup_cons.1 h
    have happ : ∀ k : List (Nat × Nat), look (k ++ [e]) i = match look k i with | some v => some v | none => look [e] i := fun k => by
      simp only [look, List.find?_append]
      cases k.find? (fun p => p.1 == i) <;> rfl
    rw [List.reverse_cons, happ, ih hl, look_cons, look_cons]
    by_cases hi : e.1 = i
    · have hnone : look l i = none := by
        rw [← ih hl]; exact look_reverse_of_not_mem (hi ▸ he)
      rw [hnone, if_pos hi, if_pos hi]
    · simp only [hi, if_false]
      cases look l i <;> rfl

/-! ## The state that a slot leaves -/

theorem slotNotVp_thread {s : State} (h : s.th.vp = none) (body : State) : s.slotNotVp body = body := by
  rw [State.slotNotVp, h]

/-- The vector state of a slot of unit u that has written elements of a register. -/
def State.written (s : State) (u : Fin 7) (r : VReg) (bits : Nat) (es : List (Nat × Nat)) : VecState :=
  ((s.writeV r bits es).latchV u r bits).th.vec

theorem written_eq (s : State) (u : Fin 7) (r : VReg) (bits : Nat) (es : List (Nat × Nat)) : s.written u r bits es =
    { s.th.vec with
      v := (s.writeV r bits es).th.vec.v
      lat := wr s.th.vec.lat u (if s.vl = 0 then rd s.th.vec.lat u else (s.writeV r bits es).group r (s.lastGroup bits)) } := by
  have h := writeV_eq s r bits es
  rw [State.written, latchV_eq]
  generalize s.writeV r bits es = w at h ⊢
  have hvl : w.vl = s.vl := by rw [h]; rfl
  have hgroup : w.lastGroup bits = s.lastGroup bits := by rw [h]; rfl
  have hlat : w.th.vec.lat = s.th.vec.lat := by rw [h]; rfl
  rw [hvl, hgroup, hlat]
  generalize w.group r (s.lastGroup bits) = g
  rw [h]
  rfl

theorem written_refree (s : State) (n : Nat) (u : Fin 7) (r : VReg) (bits : Nat) (es : List (Nat × Nat)) :
    (s.refree n).written u r bits es = s.written u r bits es := by
  have h : (s.refree n).writeV r bits es = (s.writeV r bits es).refree n := by unfold State.writeV; split <;> rfl
  rw [written_eq, written_eq, h]
  rfl

theorem finishV_ended (s : State) (u : Fin 7) (f : VF) (bits rate : Nat) (es : List (Nat × Nat)) :
    s.finishV u f bits rate es = s.ended (s.written u f.d bits es) (s.laneCycles bits rate) := by
  rw [finishV_eq, written_eq]

theorem ended_withVec (s : State) (x y : VecState) (n : Nat) : (s.withVec x).ended y n = s.ended y n := by
  have hconv : (s.withVec x).th.slotDone.convoy = s.th.slotDone.convoy := slotDone_convoy_congr rfl
  rw [State.ended, hconv]
  rfl

/-- The end of a memory slot that has changed the vector state. -/
theorem busyFree_slotDone_withVec (s : State) (x : VecState) (bits : Nat) : ∃ n,
    ((s.withVec x).busyFree bits).slotDone = (s.refree (s.free + 1)).ended x n := by
  refine ⟨(s.withVec x).laneCycles bits 1 + (Config.freeWord s.free).toNat % 2 ^ 32, ?_⟩
  rw [← busy_slotDone_withVec]
  rfl

theorem memEnd_written (s : State) (u : Fin 7) (r : VReg) (bits : Nat) (es : List (Nat × Nat)) : ∃ n,
    (s.writeV r bits es).memEnd u r bits = (s.refree (s.free + 1)).ended (s.written u r bits es) n := by
  obtain ⟨n, h⟩ := memEnd_eq (s.writeV r bits es) u r bits
  refine ⟨n, ?_⟩
  rw [h, State.written]
  generalize ((s.writeV r bits es).latchV u r bits).th.vec = x
  rw [writeV_eq]
  exact ended_withVec (s.refree (s.free + 1)) _ x n

/-- Everything that a slot does which writes the listed elements: element i is what the list gives for it, modulo 2^bits. -/
theorem ended_writes {s s1 : State} {fx : BitVec 5} (h : Raised s fx s1) (u : Fin 7) (d : VReg) (bits n : Nat) {es : List (Nat × Nat)}
    {w : Nat → Option Nat} (hw : ∀ i, (look es.reverse i).map (· % 2 ^ bits) = (w i).map (· % 2 ^ bits)) :
    SlotWritesV s u d bits fx w (s1.ended (s1.written u d bits es) n) := by
  have hvec : s1.th.vec = { s.th.vec with fx := s.th.vec.fx ||| fx } := by rw [h]
  have hregs : ∀ q, s1.vreg q = s.vreg q := fun q => by rw [State.vreg, hvec]; rfl
  have hvl : s1.vl = s.vl := by rw [h]; rfl
  have hgroup : s1.lastGroup bits = s.lastGroup bits := by rw [h]; rfl
  obtain ⟨t, ht⟩ : ∃ t, t = s1.ended (s1.written u d bits es) n := ⟨_, rfl⟩
  have htvec : t.th.vec = s1.written u d bits es := by rw [ht]; rfl
  have hreg : ∀ q, t.vreg q = (s1.writeV d bits es).vreg q := fun q => by rw [State.vreg, htvec, written_eq]; rfl
  have hlanes : (s1.writeV d bits es).nLanes = t.nLanes := by rw [writeV_eq, ht]; rfl
  have hlat : (s1.writeV d bits es).group d (s1.lastGroup bits) = t.group d (s.lastGroup bits) := by
    rw [State.group, State.group, hreg, hlanes, hgroup]
  rw [written_eq, hlat, hvl] at htvec
  rw [← ht]
  refine ⟨fun i => ?elems, fun i x hx => ?tag, fun q hq => ?others, ?latch, ?vec, ?scalars, ht ▸ ended_slotOnly h _ _⟩
  case elems =>
    have helem := getBits_putElems_look bits es (s1.vreg d).data i
    rw [State.velem, hreg, writeV_data, helem, hregs]
    have hi := hw i
    cases hl : look es.reverse i <;> cases hv : w i <;> rw [hl, hv] at hi
    · rfl
    · cases hi
    · cases hi
    · exact Option.some.inj hi
  case tag =>
    have hne : es ≠ [] := fun he => by have hi := hw i; rw [he, hx] at hi; cases hi
    rw [hreg]; exact writeV_tag s1 d bits hne
  case others => rw [hreg, writeV_vreg_ne s1 bits es hq, hregs]
  case latch => rw [htvec, rd_wr_same, hvec]
  case vec => rw [htvec, rd_wr_same, hvec]
  case scalars => rw [ht]; change s1.th.s = _; rw [h]

/-- A slot that computes listed elements. -/
theorem finishV_writes_list {s s1 : State} {fx : BitVec 5} (h : Raised s fx s1) (u : Fin 7) (f : VF) (bits rate : Nat)
    {es : List (Nat × Nat)} {w : Nat → Option Nat} (hw : ∀ i, look es.reverse i = w i) :
    SlotWritesV s u f.d bits fx w (s1.finishV u f bits rate es) := by
  rw [finishV_ended]
  exact ended_writes h u f.d bits _ fun i => by rw [hw]

/-- The count of free values is no part of what a slot has written. -/
theorem SlotWritesV.of_refree {s t : State} {n : Nat} {u : Fin 7} {d : VReg} {bits : Nat} {fx : BitVec 5} {w : Nat → Option Nat}
    (h : SlotWritesV (s.refree n) u d bits fx w t) : SlotWritesV s u d bits fx w t := by
  obtain ⟨helems, htag, hothers, hlatch, hvec, hscalars, hthread, hconvoy, hrest, hbytes⟩ := h
  exact ⟨helems, htag, hothers, hlatch, hvec, hscalars, hthread, hconvoy, hrest, fun tg => (hbytes tg).trans (byteAt_refree s n tg)⟩

/-- A memory slot that has got the listed elements. -/
theorem memEnd_writes (s : State) (u : Fin 7) (d : VReg) (bits : Nat) {es : List (Nat × Nat)} {w : Nat → Option Nat}
    (hw : ∀ i, (look es.reverse i).map (· % 2 ^ bits) = (w i).map (· % 2 ^ bits)) :
    SlotWritesV s u d bits 0 w ((s.writeV d bits es).memEnd u d bits) := by
  obtain ⟨n, hend⟩ := memEnd_written s u d bits es
  rw [hend, ← written_refree s (s.free + 1)]
  exact (ended_writes (Raised.refl _) u d bits n hw).of_refree

end Sys2Proof.Machine
end

section
/-! SUPPORT. Mask instructions (07 R166; O30). -/

namespace Sys2Proof.Machine

/-- A slot whose result is a scalar writes that register and leaves the vector state (R166). -/
theorem maskScalar_writes (s : State) (f : VF) (v : Word) : Completes (.next (s.maskScalar f v)) (fun t =>
    t.th.s = (s.setS (Fin.ofNat 32 f.d.val) v).th.s ∧ t.th.vec = s.th.vec ∧ SlotOnly s t) := by
  obtain ⟨u, hu⟩ : ∃ u, u = s.th.setS (Fin.ofNat 32 f.d.val) v := ⟨_, rfl⟩
  have hrest : u = { s.th with s := u.s } := by rw [hu]; unfold Thread.setS; split <;> rfl
  have hend : s.maskScalar f v = { s with th := { u with
      laneBusy := u.laneBusy + wd (s.laneCycles 8 1), issue := none, convoy := s.th.slotDone.convoy } } := by
    rw [State.maskScalar, slotDone_eq, slotDone_convoy_congr (u := s.th) (by rw [State.busy]; exact Thread.setS_convoy ..), State.setS, ← hu]
    rfl
  rw [hend]
  refine completes_next ⟨hu ▸ rfl, by rw [hrest], SlotOnly.of_eq ?_ (slotDone_convoy s.th) rfl⟩
  rw [hrest]

theorem marked_sorted (s : State) (f : VF) : (s.marked f).Pairwise (· < ·) := (List.pairwise_lt_range.filter _).filter _

theorem lt_vl_of_marked {s : State} {f : VF} {i : Nat} (h : i ∈ s.marked f) : i < s.vl :=
  ((mem_actives s f i).1 (List.mem_of_mem_filter h)).1

/-- The number of the first marked element, all ones where there is none (R166). -/
def State.firstMark (s : State) (f : VF) : Word := match s.marked f with | i :: _ => wd i | [] => BitVec.allOnes 64

/-- In a vector whose elements a word can number it is the least marked one. -/
theorem firstMark_least (s : State) (f : VF) : (s.marked f = [] → s.firstMark f = BitVec.allOnes 64) ∧
    (∀ i, i ∈ s.marked f → (s.firstMark f).toNat ≤ i % 2 ^ 64 ∨ 2 ^ 64 ≤ s.vl) ∧
    (s.marked f ≠ [] → s.vl < 2 ^ 64 → (s.firstMark f).toNat ∈ s.marked f) := by
  have hsorted := marked_sorted s f
  have hlt := fun i => lt_vl_of_marked (s := s) (f := f) (i := i)
  unfold State.firstMark
  cases hm : s.marked f with
  | nil => exact ⟨fun _ => rfl, by simp, fun h => absurd rfl h⟩
  | cons j l =>
    rw [hm] at hsorted hlt
    have hj : (wd j).toNat = j % 2 ^ 64 := BitVec.toNat_ofNat ..
    refine ⟨fun h => (List.cons_ne_nil _ _ h).elim, fun i hi => ?_, fun _ hvl => ?_⟩
    · rcases Nat.lt_or_ge s.vl (2 ^ 64) with hvl | hvl
      · have hle : j ≤ i := by
          rcases List.mem_cons.1 hi with rfl | hi
          · exact Nat.le_refl _
          · exact Nat.le_of_lt (List.rel_of_pairwise_cons hsorted hi)
        have := hlt i hi
        left
        dsimp only
        rw [hj]; omega
      · exact .inr hvl
    · have := hlt j List.mem_cons_self
      dsimp only
      rw [hj, Nat.mod_eq_of_lt (by omega)]
      exact List.mem_cons_self

/-- Settles O30: each mask instruction computes its bits, `vmpop` and `vmfirst` a scalar from the marked elements, and the rest elements. -/
theorem vectorMaskResults : Obligations.VectorMaskResults := by
  intro s f a b d marked
  have hmask := fun g => maskwise_writes (Raised.refl s) f none g rfl
  refine ⟨hmask _, hmask _, hmask _, hmask _, fun r hr => ?bitOf, fun hvp => ⟨⟨_, BitVec.toNat_ofNat _ _, ?count⟩, ?first⟩,
    fun hlen => ?elements⟩
  case bitOf =>
    have hexec : exec (.vmk f) s = .next (s.maskwise f none (fun i => (s.scalar .a r i).getLsbD (i % 64))) := by
      change execVmk f s = _
      rw [execVmk, hr]
    rw [hexec]; exact hmask _
  case count =>
    have hexec : exec (.vmpop f) s = .next (s.slotNotVp (s.maskScalar f (wd (s.marked f).length))) := rfl
    rw [hexec, slotNotVp_thread hvp]
    exact maskScalar_writes s f _
  case first =>
    obtain ⟨hnone, hleast, hmem⟩ := firstMark_least s f
    refine ⟨_, hnone, hleast, hmem, ?_⟩
    have hexec : exec (.vmfirst f) s = .next (s.slotNotVp (s.maskScalar f (s.firstMark f))) := rfl
    rw [hexec, slotNotVp_thread hvp]
    exact maskScalar_writes s f _
  case elements =>
    refine ⟨elementwise_writes s 0 f 1 hlen fun _ => rfl, elementwise_writes s 0 f 1 hlen fun _ => Nat.mod_mod _ _, fun hvp => ?_⟩
    have hexec : exec (.viota f) s = .next (s.slotNotVp (s.elementwise 0 f 1 (fun i =>
      ((s.marked f).filter (fun j => decide (j < i))).length % 2 ^ f.ty.bits))) := rfl
    rw [hexec, slotNotVp_thread hvp]
    exact elementwise_writes s 0 f 1 hlen fun _ => Nat.mod_mod _ _

end Sys2Proof.Machine
end

section
/-! SUPPORT. Permutes (07 R167, R168; O31). -/

namespace Sys2Proof.Machine

theorem look_reverse_mapIdx (g : Nat → Nat) (l : List Nat) (k : Nat) :
    look (l.mapIdx (fun k i => (k, g i))).reverse k = (l[k]?).map g := by
  induction l using List.reverseRecOn with
  | nil => rfl
  | append_singleton l i ih =>
    rw [List.mapIdx_append, List.reverse_append, List.mapIdx_singleton, List.reverse_singleton, List.singleton_append, look_cons, ih,
      List.getElem?_append]
    rcases lt_trichotomy k l.length with h | rfl | h
    · simp [h, Nat.ne_of_gt h]
    · simp
    · have : k - l.length ≠ 0 := by omega
      simp [Nat.ne_of_lt h, show ¬ k < l.length by omega, this]

section
variable {s : State} {f : VF} (hlen : s.tooLong [f.ty.bits] = false) (hty : f.ty ≠ .mxf4) (ha : s.taggedSrc f.a = false)
include hlen hty ha

/-- A permute of an untagged register writes the elements that it lists. -/
theorem permute_writes {es : List (Nat × Nat)} {w : Nat → Option Nat} (hw : ∀ i, look es.reverse i = w i) :
    SlotWritesV s 4 f.d f.ty.bits 0 w (s.permute f es) := by
  rw [State.permute, hlen, ha, Bool.or_self, if_neg Bool.false_ne_true, if_neg hty]
  exact finishV_writes_list (Raised.refl s) 4 f _ 1 hw

/-- A slide of an untagged register likewise. -/
theorem slide_writes (up : Bool) {es : List (Nat × Nat)} (keepBlk : Nat → Bool) (from_ : Nat → Option Nat) {w : Nat → Option Nat}
    (hw : ∀ i, look es.reverse i = w i) : SlotWritesV s 4 f.d f.ty.bits 0 w (s.slide f up es keepBlk from_) := by
  have hmx : (f.ty == .mxf4) = false := beq_false_of_ne hty
  rw [State.slide, hlen, ha, hmx, Bool.or_self, if_neg Bool.false_ne_true, if_neg Bool.false_ne_true]
  exact finishV_writes_list (Raised.refl s) 4 f _ 1 hw

end

/-- `vtoo` moves one element group into an entry of the operand file. -/
theorem group_toOperandFile (s : State) (e : Fin 8) (x : Blob) (n : Nat) : Completes (.next ((s.setO e x).busy n).slotDone) (fun t =>
    t.th.vec = { s.th.vec with o := wr s.th.vec.o e x } ∧ t.th.s = s.th.s ∧ SlotOnly s t) := by
  have hend : ((s.setO e x).busy n).slotDone = s.ended { s.th.vec with o := wr s.th.vec.o e x } n := busy_slotDone_withVec s _ n
  rw [hend]
  exact completes_next ⟨rfl, rfl, ended_slotOnly (Raised.refl s) _ n⟩

/-- Settles O31: each permute writes the elements that it lists for its active elements; `vtoo` writes an entry. -/
theorem vectorPermutes : Obligations.VectorPermutes := by
  intro s f hvp hlen hty ha hb x o done
  have hdone : ∀ {i : Instr} {body : State} {w}, exec i s = .next (s.slotNotVp body) → SlotWritesV s 4 f.d f.ty.bits 0 w body → done i w :=
    fun hexec hbody => by rw [slotNotVp_thread hvp] at hexec; exact ⟨_, hexec, hbody⟩
  have hslide := fun up {es} keepBlk from_ {w} => slide_writes hlen hty ha up (es := es) keepBlk from_ (w := w)
  have hpermute := fun {es w} => permute_writes hlen hty ha (es := es) (w := w)
  refine ⟨hdone rfl (hslide _ _ _ fun i => ?up), hdone rfl (hslide _ _ _ fun i => look_actives s f _ i), hdone rfl ?perm,
    hdone rfl (hpermute fun k => look_reverse_mapIdx x _ k), hdone rfl (hpermute fun i => look_actives s f _ i), fun r c hr ho => ?too⟩
  case up =>
    have hmem : i ∈ (s.actives f).filter (fun i => decide (o ≤ i)) ↔ i ∈ s.actives f ∧ o ≤ i := by
      rw [List.mem_filter, decide_eq_true_eq]
    rw [look_reverse_map]
    by_cases hi : o ≤ i
    · rw [if_pos hi, ← look_actives, look_reverse_map]
      exact if_congr (hmem.trans (and_iff_left hi)) rfl rfl
    · rw [if_neg hi, if_neg fun h => hi (hmem.1 h).2]
  case perm =>
    rw [hb, if_neg Bool.false_ne_true]
    exact hpermute fun i => look_actives s f _ i
  case too =>
    have htag : (s.vreg r).tag = false := by rw [hr] at ha; exact ha
    have hexec : exec (.vtoo f) s = .next ((s.setO (Fin.ofNat 8 f.d.val) (s.group r (s.offset f))).busy s.nLanes).slotDone := by
      change execVtoo f s = _
      rw [execVtoo, slotNotVp_thread hvp, hr]
      dsimp only
      rw [htag, decide_eq_false (Nat.not_le.2 ho), Bool.or_self, if_neg Bool.false_ne_true]
    rw [hexec]
    exact group_toOperandFile s _ _ _

end Sys2Proof.Machine
end

section
/-! SUPPORT. Reductions (07 R169, R170; O32). -/

namespace Sys2Proof.Machine

/-! ## Element 0 alone -/

/-- A reduction writes element 0 and nothing else of its register. -/
theorem reduced_writes {s s1 : State} {fx : BitVec 5} (h : Raised s fx s1) {f : VF} (hlen : s.tooLong [f.ty.bits] = false) (v : Nat) :
    SlotWritesV s 5 f.d f.ty.bits fx (fun i => if i = 0 then some v else none) (s1.reduced f v) := by
  have hlen1 : s1.tooLong [f.ty.bits] = false := by rw [← hlen, h]; rfl
  rw [State.reduced, hlen1, if_neg Bool.false_ne_true]
  refine finishV_writes_list h 5 f _ 1 fun i => ?_
  rw [List.reverse_singleton, look_cons]
  exact if_congr eq_comm rfl rfl

section
variable {s : State} {f : VF} (hvp : s.th.vp = none) (hlen : s.tooLong [f.ty.bits] = false)
include hvp hlen

theorem reduce_writes (g : Nat → Nat → Nat) : SlotWritesV s 5 f.d f.ty.bits 0
    (fun i => if i = 0 then some ((s.actives f).foldl (fun x i => g x (s.srcA f i)) (s.initial f)) else none) (s.reduce f g) := by
  rw [State.reduce, slotNotVp_thread hvp]
  exact reduced_writes (Raised.refl s) hlen _

/-! ## Integers -/

/-- The least or the greatest of integers by their values, where `best` is the lesser or the greater of two. -/
theorem reduceMinMax_int (hint : f.ty.isInt = true) (mx : Bool) {best : Int → Int → Int}
    (hbest : ∀ a b, best a b = if (decide (b < a)) != mx then b else a) : ∃ v,
    tyInt f.ty v = (s.actives f).foldl (fun a i => best a (tyInt f.ty (s.srcA f i))) (tyInt f.ty (s.initial f)) ∧
      SlotWritesV s 5 f.d f.ty.bits 0 (fun i => if i = 0 then some v else none) (s.reduceMinMax f mx) := by
  rw [State.reduceMinMax, if_pos hint]
  refine ⟨_, ?_, reduce_writes hvp hlen _⟩
  exact (List.foldl_hom (tyInt f.ty) fun x i => by rw [hbest, apply_ite (tyInt f.ty)]).symm

omit hvp in
theorem sumInt_writes : SlotWritesV s 5 f.d f.ty.bits 0 (fun i => if i = 0 then some
    (if f.sat then clampInt f.ty (tyInt f.ty (s.initial f) + ((s.actives f).map (fun i => tyInt f.ty (s.srcA f i))).sum)
      else ((tyInt f.ty (s.initial f) + ((s.actives f).map (fun i => tyInt f.ty (s.srcA f i))).sum) % 2 ^ f.ty.bits).toNat)
    else none) (s.sumInt f) := by
  have hsum : ∀ (l : List Nat) a, l.foldl (fun x i => x + tyInt f.ty (s.srcA f i)) a = a + (l.map (fun i => tyInt f.ty (s.srcA f i))).sum := by
    intro l
    induction l with
    | nil => simp
    | cons i l ih => intro a; rw [List.foldl_cons, ih, List.map_cons, List.sum_cons, add_assoc]
  rw [State.sumInt, hsum, uint_eq]
  exact reduced_writes (Raised.refl s) hlen _

/-! ## Floating pairs -/

theorem reduceMinMax_float (hint : f.ty.isInt = false) (mx : Bool) :
    let r := (s.actives f).foldl (fun (p : Nat × BitVec 5) i =>
      ((fminmax (fmtOf f.ty) mx p.1 (s.srcA f i)).1, p.2 ||| (fminmax (fmtOf f.ty) mx p.1 (s.srcA f i)).2)) (s.initial f, 0)
    SlotWritesV s 5 f.d f.ty.bits r.2 (fun i => if i = 0 then some r.1 else none) (s.reduceMinMax f mx) := by
  intro r
  have hbody : s.reduceMinMax f mx = (s.raise r.2).reduced f r.1 := by
    rw [State.reduceMinMax, hint, if_neg Bool.false_ne_true, slotNotVp_thread hvp, hlen, if_neg Bool.false_ne_true]
  rw [hbody]
  exact reduced_writes (raise_raised s r.2) hlen _

end

/-! ## Floating sums -/

/-- From s to t generators of lanes may have stepped and free values been taken. -/
def Drew (s t : State) : Prop := t = { s with core := { s.core with laneGen := t.core.laneGen }, free := t.free }

theorem Drew.refl (s : State) : Drew s s := rfl

theorem Drew.trans {s t u : State} (h : Drew s t) (k : Drew t u) : Drew s u := by
  unfold Drew at *
  rw [k, h]

theorem addOne_drew (s : State) (f : VF) (lane x y : Nat) : Drew s (s.addOne f lane x y).1 := by
  unfold State.addOne State.laneStep
  dsimp only
  split <;> rfl

theorem Drew.srcA {s t : State} (h : Drew s t) (f : VF) (i : Nat) : t.srcA f i = s.srcA f i := by rw [h]; rfl

/-- One addition of a sum, with a draw that does not matter where the rounding is not stochastic. -/
def State.sumStep (s : State) (f : VF) (x i : Nat) : Rounded :=
  roundExact (fmtOf f.ty) (s.mode f.rm) false 0
    (Val.add (s.mode f.rm = .rdn) ((fmtOf f.ty).decode x) ((fmtOf f.ty).decode (s.srcA f i)))

/-- Roundings in a row: the last value, and the flags of all. -/
def foldRounded (add : Nat → Nat → Rounded) (p : Nat × BitVec 5) (l : List Nat) : Nat × BitVec 5 :=
  l.foldl (fun p i => ((add p.1 i).code, p.2 ||| (add p.1 i).fx)) p

/-- Flags that stick from the start stick to the end. -/
theorem foldRounded_flags (add : Nat → Nat → Rounded) (l : List Nat) (x : Nat) (fx : BitVec 5) :
    foldRounded add (x, fx) l = ((foldRounded add (x, 0) l).1, fx ||| (foldRounded add (x, 0) l).2) := by
  induction l generalizing x fx with
  | nil => simp [foldRounded]
  | cons i l ih =>
    have hcons : ∀ fx, foldRounded add (x, fx) (i :: l) = foldRounded add ((add x i).code, fx ||| (add x i).fx) l := fun _ => rfl
    rw [hcons, hcons, ih, ih _ (0 ||| (add x i).fx), show 0 ||| (add x i).fx = (add x i).fx from BitVec.zero_or, BitVec.or_assoc]

/-- One addition whose rounding is not stochastic gives what the exact sum rounds to. -/
theorem addOne_value {s s1 : State} (h : Drew s s1) {f : VF} (hm : s.mode f.rm ≠ .rst) (lane x i : Nat) :
    (s1.addOne f lane x (s1.srcA f i)).2 = ((s.sumStep f x i).code, (s.sumStep f x i).fx) := by
  have hmode : s1.mode f.rm = s.mode f.rm := by rw [h]; rfl
  unfold State.addOne FOp.eval
  dsimp only
  rw [hmode, h.srcA, roundExact_draw hm _ _ _ 0]
  rfl

/-- The ordered sum adds the elements one by one, each sum rounded. -/
theorem sumOrdered_eq (f : VF) (l : List Nat) {s s1 : State} (h : Drew s s1) (acc : Nat) : Drew s (s1.sumOrdered f acc l).1 ∧
    (s.mode f.rm ≠ .rst → (s1.sumOrdered f acc l).2 = foldRounded (s.sumStep f) (acc, 0) l) := by
  induction l generalizing s1 acc with
  | nil => exact ⟨h, fun _ => rfl⟩
  | cons i l ih =>
    have hstep := addOne_drew s1 f ((s1.lane0 + i) % s1.nLanes) acc (s1.srcA f i)
    have hvalue := fun hm => addOne_value (f := f) h hm ((s1.lane0 + i) % s1.nLanes) acc i
    rw [State.sumOrdered]
    generalize s1.addOne f ((s1.lane0 + i) % s1.nLanes) acc (s1.srcA f i) = r at hstep hvalue
    obtain ⟨s2, x, fx⟩ := r
    obtain ⟨hdrew, hsum⟩ := ih (h.trans hstep) x
    refine ⟨hdrew, fun hm => ?_⟩
    obtain ⟨hx, hfx⟩ := Prod.mk.inj (hvalue hm)
    have hcons : foldRounded (s.sumStep f) (acc, 0) (i :: l) = foldRounded (s.sumStep f) (x, 0 ||| fx) l := by rw [hx, hfx]; rfl
    rw [hcons, show 0 ||| fx = fx from BitVec.zero_or, foldRounded_flags, ← hsum hm]

theorem pickOut_drew (s : State) (xs : List Nat) : Drew s (s.pickOut xs).1 := rfl

/-- The unordered sum changes no more, whatever the order. -/
theorem sumTree_drew (f : VF) (n : Nat) (s : State) (xs : List Nat) : Drew s (s.sumTree f n xs).1 := by
  induction n generalizing s xs with
  | zero => exact rfl
  | succ n ih =>
    unfold State.sumTree
    split
    · exact rfl
    · exact rfl
    · have hpick := (pickOut_drew s xs).trans (pickOut_drew (s.pickOut xs).1 (s.pickOut xs).2.2)
      refine (hpick.trans ?_).trans (ih _ _)
      exact Drew.trans (t := { ((s.pickOut xs).1.pickOut (s.pickOut xs).2.2).1 with
        free := ((s.pickOut xs).1.pickOut (s.pickOut xs).2.2).1.free + 1 }) rfl (addOne_drew _ f _ _ _)

/-- A sum whose flags are raised after the draws that it has made. -/
theorem drew_reduced_writes {s s1 : State} (h : Drew s s1) {f : VF} (hlen : s.tooLong [f.ty.bits] = false) (v : Nat) (fx : BitVec 5) :
    SlotWritesV s 5 f.d f.ty.bits fx (fun i => if i = 0 then some v else none) ((s1.raise fx).reduced f v) := by
  have hraised : Raised (s.refree s1.free) fx (s1.raise fx) := by
    unfold Raised State.raise
    rw [h]
    rfl
  exact (reduced_writes hraised (f := f) hlen v).of_refree

section
variable {s : State} {f : VF} (hlen : s.tooLong [f.ty.bits] = false)
include hlen

theorem sumFloat_ordered (hord : f.ord = true) (hm : s.mode f.rm ≠ .rst) :
    let sum := foldRounded (s.sumStep f) (s.initial f, 0) (s.actives f)
    SlotWritesV s 5 f.d f.ty.bits sum.2 (fun i => if i = 0 then some sum.1 else none) (s.sumFloat f) := by
  obtain ⟨hdrew, hvalue⟩ := sumOrdered_eq f (s.actives f) (Drew.refl s) (s.initial f)
  rw [State.sumFloat, hlen, if_neg Bool.false_ne_true, if_pos hord, ← hvalue hm]
  exact drew_reduced_writes hdrew hlen _ _

theorem sumFloat_some : ∃ v fx, SlotWritesV s 5 f.d f.ty.bits fx (fun i => if i = 0 then some v else none) (s.sumFloat f) := by
  have hdrew : Drew s (if f.ord then s.sumOrdered f (s.initial f) (s.actives f)
      else s.sumTree f (s.initial f :: (s.actives f).map (s.srcA f)).length (s.initial f :: (s.actives f).map (s.srcA f))).1 := by
    split
    · exact (sumOrdered_eq f _ (Drew.refl s) _).1
    · exact sumTree_drew f _ s _
  rw [State.sumFloat, hlen, if_neg Bool.false_ne_true]
  exact ⟨_, _, drew_reduced_writes hdrew hlen _ _⟩

end

/-- Settles O32: a reduction folds its active elements into x0, in any order where that gives the same, and writes element 0. -/
theorem vectorReductions : Obligations.VectorReductions := by
  intro s f hvp hlen x x0 xs at0 done
  have hdone : ∀ {i : Instr} {t : State} {v}, exec i s = .next t → SlotWritesV s 5 f.d f.ty.bits 0 (at0 v) t → done i v :=
    fun hexec h => ⟨_, hexec, h⟩
  have hsum : ∀ {P : State → Prop} {t : State}, (if f.ty.isInt then s.sumInt f else s.sumFloat f) = t → P t →
      Completes (exec (.vredsum f) s) P := fun ht h => ⟨_, congrArg Host.Outcome.next ((slotNotVp_thread hvp _).trans ht), h⟩
  refine ⟨hdone rfl (reduce_writes hvp hlen Nat.land), hdone rfl (reduce_writes hvp hlen Nat.lor), hdone rfl (reduce_writes hvp hlen Nat.xor),
    fun hint => ⟨?least, ?greatest, ?sum⟩, fun hint => ⟨⟨?_, ?_⟩, fun hord hm => ?ordered, ?some⟩⟩
  case least =>
    obtain ⟨v, hv, h⟩ := reduceMinMax_int hvp hlen hint false (best := min) fun a b => by
      rw [Bool.bne_false, min_def]; simp only [decide_eq_true_eq]; split <;> split <;> omega
    exact ⟨v, hv, hdone rfl h⟩
  case greatest =>
    obtain ⟨v, hv, h⟩ := reduceMinMax_int hvp hlen hint true (best := max) fun a b => by
      rw [Bool.bne_true, max_def, ← decide_not]; simp only [decide_eq_true_eq]; split <;> split <;> omega
    exact ⟨v, hv, hdone rfl h⟩
  case sum => exact hsum (if_pos hint) (sumInt_writes hlen)
  case ordered => exact hsum (if_neg (by rw [hint]; exact Bool.false_ne_true)) (sumFloat_ordered hlen hord hm)
  case some =>
    obtain ⟨v, fx, h⟩ := sumFloat_some (f := f) hlen
    exact ⟨v, fx, hsum (if_neg (by rw [hint]; exact Bool.false_ne_true)) h⟩
  all_goals exact ⟨_, rfl, reduceMinMax_float hvp hlen hint _⟩

end Sys2Proof.Machine
end

section
/-! SUPPORT. VL above VLMAX (07 R158, R160; O33). -/

namespace Sys2Proof.Machine

theorem tooLong_iff (s : State) (bits : Nat) : s.tooLong [bits] = true ↔ s.vlen * 8 / bits < s.vl := by
  rw [State.tooLong, List.any_cons, List.any_nil, Bool.or_false, decide_eq_true_eq]
  rfl

section
variable {s : State} {f : VF} (hlong : s.tooLong [f.ty.bits] = true)
include hlong

/-- A slot whose first check is that of VL. -/
theorem exec_tooLong {i : Instr} {body : State} (hexec : exec i s = .next (if s.tooLong [f.ty.bits] then s.slotResop else body)) :
    exec i s = .next s.slotResop := by
  rw [hexec, if_pos hlong]

/-- A slot whose check of VL stands beside another one. -/
theorem exec_tooLong_or {i : Instr} {test : Bool} {body : State}
    (hexec : exec i s = .next (if s.tooLong [f.ty.bits] || test then s.slotResop else body)) : exec i s = .next s.slotResop := by
  rw [hexec, hlong, Bool.true_or, if_pos rfl]

/-- A slot whose check of VL comes after another one that stops it alike. -/
theorem exec_tooLong_after {i : Instr} {test : Bool} {body : State}
    (hexec : exec i s = .next (if test then s.slotResop else if s.tooLong [f.ty.bits] then s.slotResop else body)) :
    exec i s = .next s.slotResop := by
  rw [hexec, if_pos hlong, ite_self]

theorem vload_tooLong (kind : LoadKind) (ea : Nat → Nat) : s.vload f kind ea = s.slotResop := if_pos hlong

theorem vloadUnit_tooLong (kind : LoadKind) : s.vloadUnit f kind = s.slotResop := by
  unfold State.vloadUnit
  split <;> rename_i hty
  · have hlong4 : s.tooLong [4] = true := by rw [hty] at hlong; exact hlong
    rw [State.vloadMx, hlong4, Bool.true_or, if_pos rfl]
  · exact vload_tooLong hlong kind _

theorem vst_tooLong : exec (.vst f) s = .next s.slotResop := by
  have hexec : exec (.vst f) s = .next (if f.ty = .mxf4 then s.vstoreMx f else s.vstore f (s.unitEa f)) := rfl
  rw [hexec]
  split <;> rename_i hty
  · have hlong4 : s.tooLong [4] = true := by rw [hty] at hlong; exact hlong
    cases hc : f.c with
    | v r c => rw [vstoreMx_resop hc (.inl hlong4)]
    | o _ | lat _ | s _ => rw [State.vstoreMx, hc]
  · rw [State.vstore, if_pos hlong]

theorem vcmp_tooLong (r : VRel) (q : FRel) (h : f.a.isMain = true ∨ f.b.isMain = true) :
    exec (.vcmp r f) s = .next s.slotResop ∧ exec (.vfcmp q f) s = .next s.slotResop := by
  have hbits : readBits f = some f.ty.bits := if_pos ((Bool.or_eq_true _ _).mpr h)
  have hread : s.tooLong (readBits f).toList = true := by rw [hbits]; exact hlong
  exact ⟨congrArg Host.Outcome.next (if_pos hread), congrArg Host.Outcome.next (if_pos hread)⟩

theorem vamo_tooLong (hty : AmoTy.ofEty f.ty ≠ none) (hvp : f.ord = false ∨ s.th.vp = none) (op : AmoOp) : s.vamo op f = s.slotResop := by
  obtain ⟨ty, hty⟩ := Option.ne_none_iff_exists'.1 hty
  unfold State.vamo
  rw [hty]
  dsimp only
  rw [hlong, Bool.true_or, if_pos rfl]
  rcases hvp with hord | hvp
  · rw [hord, if_neg Bool.false_ne_true]
  · rw [slotNotVp_thread hvp, ite_self]

theorem permute_tooLong (es : List (Nat × Nat)) : s.permute f es = s.slotResop := by
  rw [State.permute, hlong, Bool.true_or, if_pos rfl]

section
variable (hvp : s.th.vp = none)
include hvp

theorem reduce_tooLong (g : Nat → Nat → Nat) : s.reduce f g = s.slotResop := by
  rw [State.reduce, slotNotVp_thread hvp, State.reduced, if_pos hlong]

theorem reduceMinMax_tooLong (mx : Bool) : s.reduceMinMax f mx = s.slotResop := by
  rw [State.reduceMinMax]
  by_cases hint : f.ty.isInt = true
  · rw [if_pos hint]; exact reduce_tooLong hlong hvp _
  · rw [if_neg hint, slotNotVp_thread hvp, if_pos hlong]

theorem vredsum_tooLong : exec (.vredsum f) s = .next s.slotResop := by
  have hexec : exec (.vredsum f) s = .next (s.slotNotVp (if f.ty.isInt then s.sumInt f else s.sumFloat f)) := rfl
  rw [hexec, slotNotVp_thread hvp]
  split
  · rw [State.sumInt, State.reduced, if_pos hlong]
  · rw [State.sumFloat, if_pos hlong]

theorem ldt_tooLong (hact : s.actives f ≠ []) : exec (.ldt f) s = .next s.slotResop := by
  have hne : (s.actives f).isEmpty = false := by simpa using hact
  change execLdt f s = _
  rw [execLdt, slotNotVp_thread hvp, hne, if_neg Bool.false_ne_true, if_pos hlong]

end

end

theorem vcvt_tooLong {s : State} {f : VF} {src : ETy} (hsrc : vcvtSrc f = some src)
    (hlong : s.tooLong [f.ty.bits] = true ∨ f.a.isMain = true ∧ s.tooLong [src.bits] = true) : exec (.vcvt f) s = .next s.slotResop := by
  have hboth : s.tooLong ([f.ty.bits] ++ (if f.a.isMain then [src.bits] else [])) = true := by
    rcases hlong with h | ⟨hmain, h⟩
    · rw [State.tooLong, List.any_append, Bool.or_eq_true]; exact .inl h
    · rw [State.tooLong, List.any_append, Bool.or_eq_true, if_pos hmain]; exact .inr h
  change execVcvt f s = _
  simp only [execVcvt, hsrc, hboth, Bool.true_or, if_true]

/-- Settles O33: in each shape of a slot the check of VL comes before every effect, and what is checked before it stops the slot alike. -/
theorem vectorLengthIsChecked : Obligations.VectorLengthIsChecked := by
  intro s f r q past resop
  refine ⟨fun hpast => ?typed, fun src hsrc hpast => ?converted⟩
  case converted => exact vcvt_tooLong hsrc (hpast.imp (tooLong_iff s _).2 (And.imp_right (tooLong_iff s _).2))
  case typed =>
    have hlong := (tooLong_iff s f.ty.bits).2 hpast
    have h : ∀ {i body}, exec i s = .next (if s.tooLong [f.ty.bits] then s.slotResop else body) → exec i s = resop :=
      fun hexec => exec_tooLong hlong hexec
    refine ⟨?elements, ?memory, fun hvp => ?thread, vcmp_tooLong hlong r q, fun hty hvp => ?atomics, fun hvp => ldt_tooLong hlong hvp⟩
    case elements =>
      simp only [List.mem_cons, List.not_mem_nil, or_false, forall_eq_or_imp, forall_eq]
      exact ⟨h rfl, h rfl, h rfl, h rfl, h rfl, h rfl, h rfl, h rfl, h rfl, h rfl, h rfl, h rfl, h rfl, h rfl, h rfl, h rfl, h rfl, h rfl, h rfl,
        h rfl, h rfl, h rfl, h rfl, h rfl, h rfl, h rfl, h rfl, h rfl, h rfl, h rfl, h rfl, h rfl⟩
    case memory =>
      have hunit : ∀ kind, (.next (s.vloadUnit f kind) : Out) = resop := fun kind => congrArg Host.Outcome.next (vloadUnit_tooLong hlong kind)
      have hor : ∀ {i} {test : Bool} {body}, exec i s = .next (if s.tooLong [f.ty.bits] || test then s.slotResop else body) → exec i s = resop :=
        fun hexec => exec_tooLong_or hlong hexec
      have hafter : ∀ {i} {test : Bool} {body}, exec i s =
          .next (if test then s.slotResop else if s.tooLong [f.ty.bits] then s.slotResop else body) → exec i s = resop :=
        fun hexec => exec_tooLong_after hlong hexec
      simp only [List.mem_cons, List.not_mem_nil, or_false, forall_eq_or_imp, forall_eq]
      exact ⟨hunit .plain, hunit .home, hunit .last, h rfl, h rfl, hafter rfl, hafter rfl, hor rfl, vst_tooLong hlong, h rfl, hafter rfl, hor rfl⟩
    case thread =>
      have hthread : ∀ {i body}, exec i s = .next (s.slotNotVp body) → body = s.slotResop → exec i s = resop :=
        fun hexec hbody => by rw [hexec, slotNotVp_thread hvp, hbody]; rfl
      have hvperm : exec (.vperm f) s = resop := hthread rfl (by rw [permute_tooLong hlong, ite_self])
      simp only [List.mem_cons, List.not_mem_nil, or_false, forall_eq_or_imp, forall_eq]
      exact ⟨hthread rfl (if_pos hlong), hthread rfl (if_pos hlong), hthread rfl (if_pos hlong), hvperm,
        hthread rfl (permute_tooLong hlong _), hthread rfl (permute_tooLong hlong _), vredsum_tooLong hlong hvp,
        congrArg Host.Outcome.next (reduceMinMax_tooLong hlong hvp false), congrArg Host.Outcome.next (reduceMinMax_tooLong hlong hvp true),
        congrArg Host.Outcome.next (reduce_tooLong hlong hvp _), congrArg Host.Outcome.next (reduce_tooLong hlong hvp _),
        congrArg Host.Outcome.next (reduce_tooLong hlong hvp _), hthread rfl (if_pos hlong)⟩
    case atomics =>
      have hamo : ∀ op, (.next (s.vamo op f) : Out) = resop := fun op => congrArg Host.Outcome.next (vamo_tooLong hlong hty hvp op)
      simp only [List.mem_cons, List.not_mem_nil, or_false, forall_eq_or_imp, forall_eq]
      exact ⟨hamo .add, hamo .min, hamo .max, hamo .and, hamo .or, hamo .xor, hamo .swap, hamo .cas⟩

end Sys2Proof.Machine
end

section
/-! SUPPORT. Vector loads (07 R171, R174, R175; O34): what the accesses of a run of elements leave, and the ends of a load slot. -/

namespace Sys2Proof.Machine

/-! ## The accesses of a load -/

theorem AccessOnly.trans {s t u : State} (h : AccessOnly s t) (k : AccessOnly t u) : AccessOnly s u := by
  refine ⟨?_, fun n => by rw [k.cores n, h.cores n]⟩
  exact k.rest.trans (congrArg (fun x : State => { x with
    th := { x.th with rwatch := u.th.rwatch }
    core := u.core, others := u.others, store := u.store, fab := { x.fab with tasks := u.fab.tasks }, free := u.free }) h.rest)

theorem AccessOnly.falling {s t : State} (h : AccessOnly s t) : t.fab.falling = s.fab.falling := by rw [h.rest]

/-- An access made on behalf of another thread state. -/
theorem MemOnly.rethread {s u t : State} (h : MemOnly u t) (hu : ∃ y, u = { s with th := y }) : MemOnly s { t with th := s.th } := by
  obtain ⟨y, rfl⟩ := hu
  exact ⟨congrArg (fun x : State => ({ x with th := s.th } : State)) h.rest, h.cores⟩

theorem accessOnly_reachWith (s : State) (watched : Bool) (va n al : Nat) (need : Need) :
    AccessOnly s (s.reachWith watched va n al need).1 := by
  unfold State.reachWith
  split
  · exact accessOnly_reach ..
  · exact (memOnly_reachUnwatched ..).access

theorem asElem_eq (s : State) (i : Nat) : ∃ y, s.asElem i = { s with th := y } := by
  unfold State.asElem; split <;> exact ⟨_, rfl⟩

theorem fallAt_eq {s : State} (h : s.fab.falling = none) (i : Nat) : s.fallAt i = s := by rw [State.fallAt, h]

theorem accessOnly_loadElem {s : State} (h : s.fab.falling = none) (kind : LoadKind) (va n i : Nat) :
    AccessOnly s (s.loadElem kind va n i).1 := by
  unfold State.loadElem
  rw [fallAt_eq h]
  have hreach := accessOnly_reachWith s (s.watches i) va n n .read
  generalize s.reachWith (s.watches i) va n n .read = p at hreach ⊢
  obtain ⟨s1, x⟩ := p
  cases x with
  | error t => exact hreach
  | ok tg =>
    have hread := (memOnly_readAt (s1.asElem i) kind tg n).rethread (asElem_eq s1 i)
    dsimp only
    generalize (s1.asElem i).readAt kind tg n = p at hread ⊢
    obtain ⟨s2, v, p⟩ := p
    cases p <;> exact hreach.then hread

theorem accessOnly_loadElems {s : State} (h : s.fab.falling = none) (kind : LoadKind) (n : Nat) (ea : Nat → Nat) (l : List Nat) :
    AccessOnly s (s.loadElems kind n ea l).1 := by
  induction l generalizing s with
  | nil => exact (MemOnly.refl s).access
  | cons i l ih =>
    have hone := accessOnly_loadElem h kind (ea i) n i
    unfold State.loadElems
    generalize s.loadElem kind (ea i) n i = p at hone ⊢
    obtain ⟨s1, x⟩ := p
    cases x with
    | error t => exact hone
    | ok p => exact hone.trans (ih (hone.falling.trans h))

/-- The elements that a run has got are the first of its list, and the one that has failed comes next. -/
theorem loadElems_keys (s : State) (kind : LoadKind) (n : Nat) (ea : Nat → Nat) (l : List Nat) :
    let r := (s.loadElems kind n ea l).2
    ∃ k, l = r.vals.map Prod.fst ++ k ∧ ∀ e x, r.stop = some (e, x) → k.head? = some e := by
  induction l generalizing s with
  | nil => exact ⟨[], rfl, fun _ _ h => by cases h⟩
  | cons i l ih =>
    unfold State.loadElems
    generalize s.loadElem kind (ea i) n i = p
    obtain ⟨s1, x⟩ := p
    cases x with
    | error t => exact ⟨i :: l, rfl, fun e x h => by cases h; rfl⟩
    | ok p =>
      obtain ⟨k, hk, hstop⟩ := ih s1
      exact ⟨k, congrArg (i :: ·) hk, hstop⟩

theorem remaining_sorted (s : State) (f : VF) : (s.remaining f).Pairwise (· < ·) := (List.pairwise_lt_range.filter _).filter _

section
variable {s s1 : State} {kind : LoadKind} {n : Nat} {ea : Nat → Nat} {l : List Nat} {r : ElemRun} (hsorted : l.Pairwise (· < ·))
  (hload : s.loadElems kind n ea l = (s1, r))
include hsorted hload

theorem loaded_nodup : (r.vals.map Prod.fst).Nodup := by
  obtain ⟨k, hk, -⟩ := loadElems_keys s kind n ea l
  rw [hload] at hk
  rw [hk, List.pairwise_append] at hsorted
  exact hsorted.1.imp Nat.ne_of_lt

/-- No element at or above the one that has failed has been got. -/
theorem look_loaded_above {e : Nat} {x : Trap} (hstop : r.stop = some (e, x)) {i : Nat} (hi : e ≤ i) : look r.vals i = none := by
  rw [← look_reverse_of_nodup (loaded_nodup hsorted hload)]
  obtain ⟨k, hk, hhead⟩ := loadElems_keys s kind n ea l
  rw [hload] at hk hhead
  obtain ⟨k, rfl⟩ : ∃ k', k = e :: k' := List.head?_eq_some_iff.1 (hhead e x hstop)
  rw [hk, List.pairwise_append] at hsorted
  refine look_reverse_of_not_mem fun hmem => ?_
  have := hsorted.2.2 i hmem e List.mem_cons_self
  omega

end

/-! ## The vector state is no part of where an access goes -/

/-- An operation that reads memory commutes with a change of the vector state. -/
theorem Blind.withVec {F : State → State} (h : Blind F) (s : State) (x : VecState) : F (s.withVec x) = (F s).withVec x := by
  have hself : F s = (F s).recast s := h s s
  calc F (s.withVec x) = (F s).recast (s.withVec x) := h s (s.withVec x)
    _ = ((F s).recast s).withVec x := rfl
    _ = (F s).withVec x := by rw [← hself]

theorem blind_homeRead (lin n : Nat) : Blind (fun s => s.homeRead lin n) := (blind_recall _ none).comp (blind_noteHome _ _ _ _)

theorem blind_walked (pas : List Nat) : Blind (fun s => s.walked pas) :=
  Blind.comp (f := fun s => { s with free := s.free + 1 }) (fun _ _ => rfl)
    (blind_foldl (f := fun t pa => t.homeRead ((linOf pa).getD 0) 8) (fun _ => blind_homeRead _ 8) pas)

section
variable (s : State) (x : VecState)

theorem walkFrom_withVec (va ctx fuel tab level : Nat) : (s.withVec x).walkFrom va ctx fuel tab level = s.walkFrom va ctx fuel tab level := by
  induction fuel generalizing tab level with
  | zero => rfl
  | succ fuel ih =>
    have hpte : ∀ pa, (s.withVec x).pte pa = s.pte pa := fun _ => rfl
    have hgroup : ∀ tab va e, (s.withVec x).groupEntry tab va e = s.groupEntry tab va e := fun _ _ _ => rfl
    simp only [State.walkFrom, hpte, hgroup, ih]

theorem translate_withVec (va : Nat) (need : Need) :
    (s.withVec x).translate va need = ((s.translate va need).1.withVec x, (s.translate va need).2) := by
  have hhit : ∀ ctx va, (s.withVec x).tlbHit ctx va = s.tlbHit ctx va := fun _ _ => rfl
  have hwalk : ∀ va r, (s.withVec x).walk va r = s.walk va r := fun va r => walkFrom_withVec s x va r.ctx 4 r.root 0
  have hwalked : ∀ pas, (s.withVec x).walked pas = (s.walked pas).withVec x := fun pas => (blind_walked pas).withVec s x
  unfold State.translate
  dsimp only
  rw [show (s.withVec x).rights = s.rights from rfl, hhit, hwalk, hwalked]
  split
  · rfl
  · split
    · rfl
    · split
      · rfl
      · split <;> rfl

theorem locate_withVec (va n : Nat) (need : Need) :
    (s.withVec x).locate va n need = ((s.locate va n need).1.withVec x, (s.locate va n need).2) := by
  unfold State.locate
  dsimp only
  rw [translate_withVec]
  generalize s.translate va need = p
  obtain ⟨s1, y⟩ := p
  have hpresent : ∀ pa, (s1.withVec x).present pa n = s1.present pa n := fun _ => rfl
  have hcfg : ∀ pa, (s1.withVec x).inCfg pa = s1.inCfg pa := fun _ => rfl
  have hsize : (s.withVec x).core.spadSize = s.core.spadSize := rfl
  rw [hsize]
  split
  · split <;> rfl
  · cases y with
    | bad sub fpa => rfl
    | ok pa rc => dsimp only; rw [hpresent, hcfg]; split <;> rfl

theorem relocate_withVec (need : Need) (vas : List (Nat × Nat)) :
    (s.withVec x).relocate need vas = ((s.relocate need vas).1.withVec x, (s.relocate need vas).2) := by
  induction vas generalizing s with
  | nil => rfl
  | cons p l ih =>
    unfold State.relocate
    dsimp only
    rw [locate_withVec, ih]

theorem dropAll_withVec (ps : List (Target × Nat)) : (s.withVec x).dropAll ps = (s.dropAll ps).withVec x := by
  have hone : ∀ (t : State) tg, (t.withVec x).dropAt tg = (t.dropAt tg).withVec x := fun t tg => by
    unfold State.dropAt
    cases tg with
    | spad o => rfl
    | mem pa rc =>
      have hplace : (t.withVec x).place pa = t.place pa := rfl
      dsimp only
      rw [hplace]
      cases t.place pa <;> rfl
  induction ps generalizing s with
  | nil => rfl
  | cons p ps ih => exact (congrArg (State.dropAll · ps) (hone s p.1)).trans (ih (s.dropAt p.1))

theorem dropEarlier_withVec (vas : List (Nat × Nat)) : (s.withVec x).dropEarlier vas = (s.dropEarlier vas).withVec x := by
  unfold State.dropEarlier
  rw [relocate_withVec]
  exact dropAll_withVec _ x _

end

theorem MemAndDrops.th {s t : State} (h : MemAndDrops s t) : t.th = s.th := by
  have := MemOnly.th h.mem
  exact this

/-- A register is written alike before and after lines are dropped. -/
theorem drops_writeV (s : State) (vas : List (Nat × Nat)) (ps : List (Target × Nat)) (d : VReg) (bits : Nat) (es : List (Nat × Nat)) :
    ((s.writeV d bits es).dropEarlier vas).dropAll ps = ((s.dropEarlier vas).dropAll ps).writeV d bits es := by
  have hdrops : MemAndDrops s ((s.dropEarlier vas).dropAll ps) := (memAndDrops_dropEarlier s vas).trans (memAndDrops_dropAll _ ps)
  have hregs : (((s.dropEarlier vas).dropAll ps).writeV d bits es).th.vec = (s.writeV d bits es).th.vec := by
    unfold State.writeV
    split
    · rw [hdrops.th]
    · rw [State.vreg, State.setV, hdrops.th]; rfl
  have hafter := writeV_eq ((s.dropEarlier vas).dropAll ps) d bits es
  rw [hregs, hdrops.th] at hafter
  rw [writeV_eq s, dropEarlier_withVec, dropAll_withVec, hafter]

/-! ## The ends of a load slot -/

section
variable {s : State} {f : VF} {r : ElemRun} {bits : Nat} (hstop : r.stop = none)
include hstop

theorem loadEnd_plain (vas : List (Nat × Nat)) : s.loadEnd f bits r false vas = (s.writeV f.d bits r.vals).memEnd 2 f.d bits := by
  unfold State.loadEnd
  rw [hstop]
  rfl

theorem loadEnd_last (vas : List (Nat × Nat)) : s.loadEnd f bits r true vas =
    (((s.dropEarlier vas).dropAll r.places).writeV f.d bits r.vals).memEnd 2 f.d bits := by
  unfold State.loadEnd
  rw [hstop, ← drops_writeV]
  rfl

end

theorem loadEnd_fault {s : State} {f : VF} {r : ElemRun} {bits e : Nat} {x : Trap} (hstop : r.stop = some (e, x)) (last : Bool)
    (vas : List (Nat × Nat)) : s.loadEnd f bits r last vas = (s.writeV f.d bits r.vals).elemFault e x := by
  unfold State.loadEnd
  rw [hstop]

/-- A load slot that has got elements, none of them twice, writes them. -/
theorem loaded_writes (s : State) (d : VReg) (bits : Nat) {vals : List (Nat × Nat)} (hnodup : (vals.map Prod.fst).Nodup) :
    SlotWritesV s 2 d bits 0 (look vals) ((s.writeV d bits vals).memEnd 2 d bits) :=
  memEnd_writes s 2 d bits fun i => by rw [look_reverse_of_nodup hnodup]

section
variable {s s1 : State} {f : VF} {ea : Nat → Nat} {r : ElemRun} (hlen : s.tooLong [f.ty.bits] = false)
include hlen

theorem vload_eq {kind : LoadKind}
    (hload : s.loadElems (if kind = .home then .home else .plain) (f.ty.bits / 8) ea (s.remaining f) = (s1, r)) :
    s.vload f kind ea = s1.loadEnd f f.ty.bits r (kind == .last) (s.earlierAt f ea) := by
  rw [State.vload, hlen, if_neg Bool.false_ne_true, hload]

/-- A load slot other than a last-use one, whose accesses have been made: done, or at the element that has failed. -/
theorem vload_ends {kind : LoadKind} (hkind : kind = .plain ∨ kind = .home)
    (hload : s.loadElems kind (f.ty.bits / 8) ea (s.remaining f) = (s1, r)) :
    (s.fab.falling = none → AccessOnly s s1) ∧
    (r.stop = none → SlotWritesV s1 2 f.d f.ty.bits 0 (look r.vals) (s.vload f kind ea)) ∧
    (∀ e x, r.stop = some (e, x) → s.vload f kind ea = (s1.writeV f.d f.ty.bits r.vals).elemFault e x) := by
  have hkinds : (if kind = .home then .home else .plain) = kind ∧ (kind == .last) = false := by
    rcases hkind with rfl | rfl <;> exact ⟨rfl, rfl⟩
  have heq := vload_eq hlen (kind := kind) (hkinds.1.symm ▸ hload)
  rw [hkinds.2] at heq
  refine ⟨fun hfall => ?_, fun hstop => ?_, fun e x hstop => heq.trans (loadEnd_fault hstop _ _)⟩
  · have h := accessOnly_loadElems hfall kind (f.ty.bits / 8) ea (s.remaining f)
    rwa [hload] at h
  · rw [heq, loadEnd_plain hstop]
    exact loaded_writes s1 f.d f.ty.bits (loaded_nodup (remaining_sorted s f) hload)

/-- The three ends of `vldff` (R175). -/
theorem vldff_ends (hvp : s.th.vp = none) (hload : s.loadElems .plain (f.ty.bits / 8) (s.unitEa f) (s.remaining f) = (s1, r)) :
    (r.stop = none → exec (.vldff f) s = .next (s1.loadEnd f f.ty.bits r false)) ∧
    (∀ e x, r.stop = some (e, x) → (s.actives f).head? = some e → exec (.vldff f) s = .next (s1.loadEnd f f.ty.bits r false)) ∧
    (∀ e x, r.stop = some (e, x) → (s.actives f).head? ≠ some e →
      let s2 := s1.loadEnd f f.ty.bits { r with stop := none } false
      exec (.vldff f) s = .next { s2 with th := { s2.th with vec := { s2.th.vec with vl := e } } }) := by
  have hbody : ∀ {o : Out}, execVldff f s = o → exec (.vldff f) s = o := id
  refine ⟨fun hstop => hbody ?_, fun e x hstop hhead => hbody ?_, fun e x hstop hhead => hbody ?_⟩ <;>
    rw [execVldff, slotNotVp_thread hvp, hlen, if_neg Bool.false_ne_true, hload] <;> dsimp only <;> rw [hstop]
  · exact congrArg Host.Outcome.next (if_pos hhead)
  · exact congrArg Host.Outcome.next (if_neg hhead)

/-- A fault of `vldff` above the lowest active element truncates VL (R175). -/
theorem vldff_truncates (hvp : s.th.vp = none) (hload : s.loadElems .plain (f.ty.bits / 8) (s.unitEa f) (s.remaining f) = (s1, r))
    {e : Nat} {x : Trap} (hstop : r.stop = some (e, x)) (hhead : (s.actives f).head? ≠ some e) : Completes (exec (.vldff f) s) (fun t =>
      t.th.vec.vl = e ∧ (∀ i, e ≤ i → t.velem f.d f.ty.bits i = s1.velem f.d f.ty.bits i) ∧ (∀ q, q ≠ f.d → t.vreg q = s1.vreg q) ∧
      t.th.s = s1.th.s ∧ t.th.convoy = s1.th.slotDone.convoy ∧ SlotOnly s1 t) := by
  have hwrites := loaded_writes s1 f.d f.ty.bits (loaded_nodup (remaining_sorted s f) hload)
  obtain ⟨n, hend⟩ := memEnd_written s1 2 f.d f.ty.bits r.vals
  rw [hend] at hwrites
  have hexec : exec (.vldff f) s = .next ((s1.refree (s1.free + 1)).ended { s1.written 2 f.d f.ty.bits r.vals with vl := e } n) := by
    have hcut := (vldff_ends hlen hvp hload).2.2 e x hstop hhead
    rw [loadEnd_plain (r := { r with stop := none }) rfl, hend] at hcut
    exact hcut
  rw [hexec]
  refine completes_next ⟨rfl, fun i hi => ?_, fun q hq => hwrites.others q hq, rfl, slotDone_convoy_congr rfl, ended_slotOnly_refree s1 _ _ n⟩
  have helem := hwrites.elems i
  rw [look_loaded_above (remaining_sorted s f) hload hstop hi] at helem
  exact helem

end

/-- Settles O34: a load slot makes its accesses in order, then writes what it has got, and finishes, faults or truncates VL. -/
theorem vectorLoads : Obligations.VectorLoads := by
  intro s f hty hlen n done
  have hdone : ∀ {i kind ea}, kind = .plain ∨ kind = .home → exec i s = .next (s.vload f kind ea) → done i kind ea :=
    fun hkind hexec s1 r hload => by
      obtain ⟨haccess, hend, hfault⟩ := vload_ends hlen hkind hload
      exact ⟨haccess, fun hstop => ⟨_, hexec, hend hstop⟩, fun e x hstop => hexec.trans (congrArg Host.Outcome.next (hfault e x hstop))⟩
  have hunit : ∀ kind, s.vloadUnit f kind = s.vload f kind (s.unitEa f) := fun _ => if_neg hty
  refine ⟨hdone (.inl rfl) (congrArg Host.Outcome.next (hunit _)), hdone (.inr rfl) (congrArg Host.Outcome.next (hunit _)),
    hdone (.inl rfl) rfl, hdone (.inr rfl) rfl, fun hspan => ?indexed, fun hspan => ?broken, fun s1 r hload hstop => ?last,
    fun hvp s1 r hload => ⟨fun hstop => ?whole, fun e x hstop hhead => ?first, fun e x hstop hhead => ?truncated⟩⟩
  case indexed =>
    have hshort : ∀ {body : State}, (if s.spanBreaks f then s.slotResop else body) = body := fun {_} => by
      rw [hspan, if_neg Bool.false_ne_true]
    exact ⟨hdone (.inl rfl) (congrArg Host.Outcome.next hshort), hdone (.inr rfl) (congrArg Host.Outcome.next hshort)⟩
  case broken =>
    exact ⟨congrArg Host.Outcome.next (if_pos hspan), congrArg Host.Outcome.next (if_pos hspan), congrArg Host.Outcome.next (if_pos hspan)⟩
  case last =>
    have hwrites := fun u => loaded_writes u f.d f.ty.bits (loaded_nodup (remaining_sorted s f) hload)
    refine ⟨(memAndDrops_dropEarlier s1 _).trans (memAndDrops_dropAll _ _), _, ?_, hwrites _⟩
    have hend := vload_eq hlen (kind := .last) hload
    exact congrArg Host.Outcome.next ((hunit .last).trans (hend.trans (loadEnd_last hstop _)))
  case whole =>
    obtain ⟨hwhole, -, -⟩ := vldff_ends hlen hvp hload
    rw [hwhole hstop, loadEnd_plain hstop]
    exact completes_next (loaded_writes s1 f.d f.ty.bits (loaded_nodup (remaining_sorted s f) hload))
  case first =>
    obtain ⟨-, hfirst, -⟩ := vldff_ends hlen hvp hload
    rw [hfirst e x hstop hhead, loadEnd_fault hstop]
  case truncated => exact vldff_truncates hlen hvp hload hstop hhead

end Sys2Proof.Machine
end

section
/-! SUPPORT. Vector loads and stores in the scratchpad (07 R171, R174; 10 R228; O35). -/

namespace Sys2Proof.Machine

/-- The n bytes at an address lie in the scratchpad, aligned. -/
def State.HasPad (s : State) (n a : Nat) : Prop := spw ≤ a ∧ a < spw + 2 ^ 20 ∧ a - spw + n ≤ s.core.spadSize ∧ a % n = 0

theorem reachWith_spad {s : State} (h : s.Undisturbed) {n a : Nat} (ha : s.HasPad n a) (i : Nat) (watched : Bool) (need : Need) :
    (s.fallAt i).reachWith watched a n n need = (s, .ok (.spad (a - spw))) := by
  obtain ⟨hfall, hwatch⟩ := h
  obtain ⟨hlo, hhi, hsize, halign⟩ := ha
  have hin : inSpw a = true := by rw [inSpw, decide_eq_true hlo, decide_eq_true hhi]; rfl
  have hun : s.reachUnwatched a n n need = (s, .ok (.spad (a - spw))) := by
    rw [State.reachUnwatched, if_neg (not_not.2 halign), State.locate, if_pos hin, if_neg (by omega)]
  have hwatched : s.reach a n n need = (s, .ok (.spad (a - spw))) := by
    unfold State.reach State.watchAt
    rw [hun]
    simp only [watchHit_none hwatch]
  rw [fallAt_eq hfall, State.reachWith]
  split
  · exact hwatched
  · exact hun

theorem loadElem_spad {s : State} (h : s.Undisturbed) {n a : Nat} (ha : s.HasPad n a) (kind : LoadKind) (i : Nat) :
    s.loadElem kind a n i = (s, .ok (s.core.spad.readN (a - spw) n, .spad (a - spw))) := by
  obtain ⟨y, hy⟩ := asElem_eq s i
  unfold State.loadElem
  rw [reachWith_spad h ha]
  dsimp only
  rw [hy]
  rfl

theorem loadElems_spad {s : State} (h : s.Undisturbed) (kind : LoadKind) (n : Nat) (ea : Nat → Nat) (l : List Nat)
    (hl : ∀ i ∈ l, s.HasPad n (ea i)) : s.loadElems kind n ea l = (s,
      { vals := l.map (fun i => (i, s.core.spad.readN (ea i - spw) n)), places := l.map (fun i => (.spad (ea i - spw), n)), stop := none }) := by
  induction l with
  | nil => rfl
  | cons i l ih =>
    unfold State.loadElems
    rw [loadElem_spad h (hl i List.mem_cons_self)]
    dsimp only
    rw [ih fun j hj => hl j (List.mem_cons_of_mem _ hj)]
    rfl

theorem storeElems_spad {s : State} (h : s.Undisturbed) (n : Nat) (ea val : Nat → Nat) (l : List Nat) (m : Mem)
    (hl : ∀ i ∈ l, s.HasPad n (ea i)) : (s.withPad m).storeElems n ea val l =
      (s.withPad (l.foldl (fun m i => m.writeN (ea i - spw) n (val i)) m), { places := l.map (fun i => (.spad (ea i - spw), n)) }) := by
  induction l generalizing m with
  | nil => rfl
  | cons i l ih =>
    have hreach := reachWith_spad (s := s.withPad m) h (hl i List.mem_cons_self) i ((s.withPad m).watches i) .write
    unfold State.storeElems
    rw [hreach]
    have hw : (s.withPad m).writeAt (.spad (ea i - spw)) n (val i) = s.withPad (m.writeN (ea i - spw) n (val i)) := rfl
    dsimp only
    rw [hw, ih _ fun j hj => hl j (List.mem_cons_of_mem _ hj)]
    rfl

/-- The end of a store slot whose places cover no sector of device memory. -/
theorem storeEnd_spad (s : State) (f : VF) (bits : Nat) {r : ElemRun} (hstop : r.stop = none) (hplaces : ∀ p ∈ r.places, ∃ o, p.1 = .spad o) :
    ∃ lat laneBusy free, s.storeEnd f bits r = { s with
      th := { s.th with
        vec := { s.th.vec with lat }
        laneBusy, issue := none, spin := 0
        convoy := s.th.slotDone.convoy }
      free } := by
  obtain ⟨x, hx⟩ := latchStore_eq s.unspin f bits
  have hend : s.storeEnd f bits r = ((s.unspin.latchStore f bits).busyFree bits).slotDone := by
    unfold State.storeEnd
    simp only [State.relocate, List.nil_append, clearFull_pad _ hplaces, hstop]
  have hconv : ((s.unspin.latchStore f bits).busyFree bits).th.slotDone.convoy = s.th.slotDone.convoy :=
    slotDone_convoy_congr (by rw [hx]; rfl)
  rw [hend, slotDone_eq, hconv, hx]
  exact ⟨_, _, _, rfl⟩

theorem earlierAt_fresh {s : State} {f : VF} (hprog : s.slotNow.prog = 0) (ea : Nat → Nat) : s.earlierAt f ea = [] := by
  simp [State.earlierAt, State.earlier, hprog]

section
variable {s : State} {f : VF} {ea : Nat → Nat} (hlen : s.tooLong [f.ty.bits] = false) (hprog : s.slotNow.prog = 0) (h : s.Undisturbed)
  (hpad : ∀ i ∈ s.actives f, s.HasPad (f.ty.bits / 8) (ea i))
include hlen hprog h hpad

theorem vload_spad (kind : LoadKind) : SlotWritesV s 2 f.d f.ty.bits 0
    (s.onActive f (fun i => s.core.spad.readN (ea i - spw) (f.ty.bits / 8))) (s.vload f kind ea) := by
  have hrun := loadElems_spad h (if kind = .home then .home else .plain) (f.ty.bits / 8) ea (s.remaining f)
    (by rw [remaining_fresh hprog]; exact hpad)
  have hdrop : ∀ l : List Nat, s.dropAll (l.map (fun i => (.spad (ea i - spw), f.ty.bits / 8))) = s := fun l =>
    dropAll_pad s fun p hp => by obtain ⟨i, -, rfl⟩ := List.mem_map.1 hp; exact ⟨_, rfl⟩
  have hend : s.vload f kind ea = (s.writeV f.d f.ty.bits
      ((s.remaining f).map (fun i => (i, s.core.spad.readN (ea i - spw) (f.ty.bits / 8))))).memEnd 2 f.d f.ty.bits := by
    rw [vload_eq hlen hrun, earlierAt_fresh hprog]
    cases kind == .last
    · exact loadEnd_plain rfl _
    · rw [loadEnd_last rfl, dropEarlier_nil, hdrop]
  rw [hend, remaining_fresh hprog]
  exact memEnd_writes s 2 f.d f.ty.bits fun i => by rw [look_actives]

theorem vstore_spad : ∃ lat laneBusy free, s.vstore f ea = { s with
    core := { s.core with spad := (s.actives f).foldl (fun m i => m.writeN (ea i - spw) (f.ty.bits / 8) (s.srcC f i)) s.core.spad }
    th := { s.th with
      vec := { s.th.vec with lat }
      laneBusy, issue := none, spin := 0
      convoy := s.th.slotDone.convoy }
    free } := by
  have hrun := storeElems_spad h (f.ty.bits / 8) ea (s.srcC f) (s.remaining f) s.core.spad (by rw [remaining_fresh hprog]; exact hpad)
  rw [remaining_fresh hprog] at hrun
  have hself : s.withPad s.core.spad = s := rfl
  rw [hself] at hrun
  rw [State.vstore, hlen, if_neg Bool.false_ne_true, remaining_fresh hprog, hrun, earlierAt_fresh hprog]
  exact storeEnd_spad (s.withPad _) f f.ty.bits rfl fun p hp => by obtain ⟨i, -, rfl⟩ := List.mem_map.1 hp; exact ⟨_, rfl⟩

end

/-- Settles O35: with no element's access disturbed, a slot reads or writes the scratchpad element by element. -/
theorem vectorScratchpadAccesses : Obligations.VectorScratchpadAccesses := by
  intro s f hty hlen hprog hfall hwatch n base inPad loads stores
  have hpad : ∀ {ea}, inPad ea → ∀ i ∈ s.actives f, s.HasPad (f.ty.bits / 8) (ea i) := fun hea i hi =>
    hea i ((mem_actives s f i).1 hi).1 ((mem_actives s f i).1 hi).2
  have hloads : ∀ {i kind ea}, exec i s = .next (s.vload f kind ea) → loads i ea := fun hexec hea =>
    ⟨_, hexec, vload_spad hlen hprog ⟨hfall, hwatch⟩ (hpad hea) _⟩
  have hstores : ∀ {i ea}, exec i s = .next (s.vstore f ea) → stores i ea := fun hexec hea => by
    obtain ⟨lat, laneBusy, free, heq⟩ := vstore_spad hlen hprog ⟨hfall, hwatch⟩ (hpad hea)
    exact ⟨_, hexec.trans (congrArg Host.Outcome.next heq), rfl, rfl, rfl⟩
  have hunit : ∀ kind, s.vloadUnit f kind = s.vload f kind (s.unitEa f) := fun _ => if_neg hty
  have hshort : s.spanBreaks f = false → ∀ {body : State}, (if s.spanBreaks f then s.slotResop else body) = body := fun hspan {_} => by
    rw [hspan, if_neg Bool.false_ne_true]
  refine ⟨hloads (congrArg Host.Outcome.next (hunit .plain)), hloads (congrArg Host.Outcome.next (hunit .home)),
    hloads (congrArg Host.Outcome.next (hunit .last)), hloads (kind := .plain) rfl, hloads (kind := .home) rfl,
    fun hspan => ⟨hloads (congrArg Host.Outcome.next (hshort hspan)), hloads (congrArg Host.Outcome.next (hshort hspan))⟩,
    fun hvp hea => ?faultFirst, hstores (congrArg Host.Outcome.next (if_neg hty)), hstores rfl,
    fun hspan => hstores (congrArg Host.Outcome.next (hshort hspan))⟩
  case faultFirst =>
    have hrun := loadElems_spad ⟨hfall, hwatch⟩ .plain (f.ty.bits / 8) (s.unitEa f) (s.remaining f)
      (by rw [remaining_fresh hprog]; exact hpad hea)
    obtain ⟨hwhole, -, -⟩ := vldff_ends hlen hvp hrun
    have hplain := vload_eq hlen (kind := .plain) hrun
    rw [earlierAt_fresh hprog] at hplain
    exact ⟨_, (hwhole rfl).trans (congrArg Host.Outcome.next hplain.symm), vload_spad hlen hprog ⟨hfall, hwatch⟩ (hpad hea) .plain⟩

end Sys2Proof.Machine
end

section
/-! SUPPORT. Vector atomics (13 R303, R304; O39). -/

namespace Sys2Proof.Machine

/-- What element i of a vector atomic asks for (R303). -/
def State.vamoReq (s : State) (op : AmoOp) (ty : AmoTy) (f : VF) (i : Nat) : AmoReq :=
  { op, ty, sr := f.rm == .rst, far := false, v := s.elem .c f.c f.ty.bits i, expect := s.velem f.d f.ty.bits i,
    lane := some ((s.lane0 + i) % s.nLanes) }

/-- The state with the old values written, where the instruction returns them. -/
def State.vamoBack (s : State) (op : AmoOp) (f : VF) (es : List (Nat × Nat)) : State :=
  if f.ux || op == .cas then s.writeV f.d f.ty.bits es else s

theorem latchStore_ended (s : State) (f : VF) (bits : Nat) : ∃ lat n,
    ((s.latchStore f bits).busyFree bits).slotDone = (s.refree (s.free + 1)).ended { s.th.vec with lat } n := by
  obtain ⟨x, hx⟩ := latchStore_eq s f bits
  obtain ⟨n, hn⟩ := busyFree_slotDone_withVec s { s.th.vec with lat := x } bits
  exact ⟨x, n, by rw [hx, hn]⟩

theorem vamoBack_eq (s : State) (op : AmoOp) (f : VF) (es : List (Nat × Nat)) :
    s.vamoBack op f es = s.withVec { s.th.vec with v := (s.vamoBack op f es).th.vec.v } := by
  unfold State.vamoBack
  split
  · exact writeV_eq ..
  · rfl

/-- The registers after a vector atomic: v[d] holds the old values where they are returned. -/
theorem vamoBack_regs (s : State) (op : AmoOp) (f : VF) (es : List (Nat × Nat)) :
    (∀ k, (s.vamoBack op f es).velem f.d f.ty.bits k =
      match (if f.ux = true ∨ op = .cas then look es.reverse k else none) with
      | some v => v % 2 ^ f.ty.bits
      | none => s.velem f.d f.ty.bits k) ∧
    ∀ r, r ≠ f.d → (s.vamoBack op f es).vreg r = s.vreg r := by
  have hback : (f.ux || op == .cas) = true ↔ f.ux = true ∨ op = .cas := by rw [Bool.or_eq_true, beq_iff_eq]
  unfold State.vamoBack
  by_cases h : f.ux = true ∨ op = .cas
  · rw [if_pos (hback.2 h)]
    refine ⟨fun k => ?_, fun r hr => writeV_vreg_ne s _ es hr⟩
    rw [if_pos h, State.velem, writeV_data]
    exact getBits_putElems_look f.ty.bits es _ k
  · rw [if_neg (mt hback.1 h)]
    exact ⟨fun k => by rw [if_neg h], fun r _ => rfl⟩

/-- A vector atomic whose elements have been checked and, up to the first that fails, performed: done, or at that element (R304). -/
theorem vamo_ends {s : State} {f : VF} {op : AmoOp} {ty : AmoTy} (hty : AmoTy.ofEty f.ty = some ty) (hlen : s.tooLong [f.ty.bits] = false)
    (hspan : s.spanBreaks f = false) (hord : f.ord = true → s.th.vp = none) {s1 s2 : State} {ps : List (Nat × Target)}
    {e : Option (Nat × Trap)} {es : List (Nat × Nat)}
    (hcheck : s.checkElems (s.vamoReq op ty f) (s.indexEa f) (s.remaining f) = (s1, ps, e))
    (hperform : s1.performElems f.ord (s.vamoReq op ty f) ps.length ps = (s2, es)) :
    (e = none → s.vamo op f = (((s2.vamoBack op f es).latchStore f f.ty.bits).busyFree f.ty.bits).slotDone) ∧
    (∀ j x, e = some (j, x) → s.vamo op f = (s2.vamoBack op f es).elemFault j x) := by
  have hguard : ∀ body : State, (if f.ord then s.slotNotVp body else body) = body := fun body => by
    split <;> rename_i h
    · exact slotNotVp_thread (hord h) body
    · rfl
  have hreq : (fun i => AmoReq.mk op ty (f.rm == .rst) false (s.srcC f i) (getBits (s.vreg f.d).data (i * f.ty.bits) f.ty.bits)
      (some ((s.lane0 + i) % s.nLanes))) = s.vamoReq op ty f := rfl
  refine ⟨fun he => ?_, fun j x he => ?_⟩
  all_goals
    subst he
    unfold State.vamo
    rw [hty]
    dsimp only
    rw [hguard, hlen, hspan, Bool.or_self, if_neg Bool.false_ne_true, hreq, hcheck]
    dsimp only
    rw [hperform]
    rfl

/-- Settles O39: the elements are checked, then performed, then the old values written back, and the slot finishes or faults. -/
theorem vectorAtomics : Obligations.VectorAtomics := by
  intro s f op ty i hi hty hlen hspan hord bits q s1 ps e hcheck s2 es hperform back
  have hexec : exec i s = .next (s.vamo op f) := by
    rcases hi with ⟨rfl, rfl⟩ | ⟨rfl, rfl⟩ | ⟨rfl, rfl⟩ | ⟨rfl, rfl⟩ | ⟨rfl, rfl⟩ | ⟨rfl, rfl⟩ | ⟨rfl, rfl⟩ | ⟨rfl, rfl⟩ <;> rfl
  obtain ⟨hdone, hfault⟩ := vamo_ends hty hlen hspan hord hcheck hperform
  have hback := vamoBack_eq s2 op f es
  obtain ⟨helems, hothers⟩ := vamoBack_regs s2 op f es
  refine ⟨fun he => ?done, fun j x he => ?fault⟩
  case done =>
    obtain ⟨lat, n, hend⟩ := latchStore_ended (s2.vamoBack op f es) f bits
    obtain ⟨y, hy⟩ : ∃ y : VecState, y = { (s2.vamoBack op f es).th.vec with lat } := ⟨_, rfl⟩
    have hended : s.vamo op f = (s2.refree (s2.free + 1)).ended y n := by
      rw [hdone he, hend, ← hy, hback]
      exact ended_withVec (s2.refree (s2.free + 1)) _ y n
    have hregs : ∀ r, ((s2.refree (s2.free + 1)).ended y n).vreg r = (s2.vamoBack op f es).vreg r := fun r => by rw [hy]; rfl
    rw [hexec, hended]
    refine completes_next ⟨fun k => ?_, fun r hr => (hregs r).trans (hothers r hr), rfl, ended_slotOnly_refree s2 _ y n⟩
    exact (congrArg (fun x : VRegister => getBits x.data (k * bits) bits) (hregs f.d)).trans (helems k)
  case fault =>
    have hcond : (s2.vamoBack op f es) = if back then s2.writeV f.d bits es else s2 :=
      if_congr (by rw [Bool.or_eq_true, beq_iff_eq]) rfl rfl
    rw [hexec, hfault j x he, hcond]

end Sys2Proof.Machine
end

section
/-! SUPPORT. The other vector loads (07 R172, R176; 11 R264, R266; O36): `vldo`, the scratchpads of other cores, column order. -/

namespace Sys2Proof.Machine

/-! ## Operand-file entries (R172) -/

section
variable {s s1 : State} {f : VF} {r : ElemRun} (hvp : s.th.vp = none)
  (hload : s.loadElems .plain 8 (fun e => (s.pointer f.a + 8 * e) % 2 ^ 64)
    ((List.range s.nLanes).filter (fun e => decide (s.slotNow.prog ≤ e))) = (s1, r)) (hstop : r.stop = none)
include hvp hload hstop

theorem vldo_done :
    exec (.vldo f) s = .next ((s1.setO (Fin.ofNat 8 f.d.val) (putElems (rd s1.th.vec.o (Fin.ofNat 8 f.d.val)) 64 r.vals)).busyFree 64).slotDone := by
  change execVldo f s = _
  rw [execVldo, slotNotVp_thread hvp, hload]
  dsimp only
  rw [hstop]

theorem vldo_fills : Completes (exec (.vldo f) s) (fun t =>
      (∀ l, l < s.nLanes → getB (rd t.th.vec.o (Fin.ofNat 8 f.d.val)) (8 * l) 8 =
        (match look r.vals l with | some v => v % 2 ^ 64 | none => getB (rd s1.th.vec.o (Fin.ofNat 8 f.d.val)) (8 * l) 8)) ∧
      t.th.vec = { s1.th.vec with o := wr s1.th.vec.o (Fin.ofNat 8 f.d.val) (rd t.th.vec.o (Fin.ofNat 8 f.d.val)) } ∧
      t.th.s = s1.th.s ∧ SlotOnly s1 t) := by
  have hsorted : ((List.range s.nLanes).filter (fun e => decide (s.slotNow.prog ≤ e))).Pairwise (· < ·) := List.pairwise_lt_range.filter _
  obtain ⟨o, ho⟩ : ∃ o, o = Fin.ofNat 8 f.d.val := ⟨_, rfl⟩
  obtain ⟨y, hy⟩ : ∃ y, y = putElems (rd s1.th.vec.o o) 64 r.vals := ⟨_, rfl⟩
  obtain ⟨n, hn⟩ := busyFree_slotDone_withVec s1 { s1.th.vec with o := wr s1.th.vec.o o y } 64
  have hend : ((s1.setO o y).busyFree 64).slotDone = (s1.refree (s1.free + 1)).ended { s1.th.vec with o := wr s1.th.vec.o o y } n := hn
  rw [vldo_done hvp hload hstop, ← ho, ← hy, hend]
  obtain ⟨t, ht⟩ : ∃ t, t = (s1.refree (s1.free + 1)).ended { s1.th.vec with o := wr s1.th.vec.o o y } n := ⟨_, rfl⟩
  have hentry : rd t.th.vec.o o = y := by rw [ht]; exact rd_wr_same ..
  rw [← ht]
  refine completes_next ⟨fun l _ => ?_, by rw [hentry, ht]; rfl, by rw [ht]; rfl, ht ▸ ended_slotOnly_refree s1 _ _ n⟩
  have helem := getBits_putElems_look 64 r.vals (rd s1.th.vec.o o) l
  rw [look_reverse_of_nodup (loaded_nodup hsorted hload)] at helem
  rw [hentry, hy, getB_eq_getBits, getB_eq_getBits, show 8 * (8 * l) = l * 64 by omega, show 8 * 8 = 64 from rfl]
  exact helem

end

/-! ## The elements of a `.peer` slot (R176) -/

/-- In a rising list, what stands before the least element with a property, and that element. -/
theorem takeWhile_find_least {p : Nat → Bool} {l : List Nat} (hsorted : l.Pairwise (· < ·)) {e : Nat} (he : e ∈ l) (hp : p e = true)
    (hleast : ∀ i ∈ l, i < e → p i = false) :
    l.takeWhile (fun i => !p i) = l.filter (fun i => decide (i < e)) ∧ l.find? p = some e := by
  induction l with
  | nil => cases he
  | cons a l ih =>
    obtain ⟨ha, hl⟩ := List.pairwise_cons.1 hsorted
    by_cases hae : a = e
    · subst hae
      have hnone : l.filter (fun i => decide (i < a)) = [] := List.filter_eq_nil_iff.2 fun i hi => by
        have := ha i hi; simp only [decide_eq_true_eq]; omega
      simp [hp, hnone]
    · have hel : e ∈ l := (List.mem_cons.1 he).resolve_left (Ne.symm hae)
      have hlt := ha e hel
      have hpa := hleast a List.mem_cons_self hlt
      obtain ⟨htake, hfind⟩ := ih hl hel fun i hi => hleast i (List.mem_cons_of_mem _ hi)
      simp [hpa, hlt, htake, hfind]

theorem peerMisaligned_iff (s : State) (f : VF) (i : Nat) :
    s.peerMisaligned f i = true ↔ ∃ k off, s.peerPlace f i = some (k, off) ∧ off % (f.ty.bits / 8) ≠ 0 := by
  unfold State.peerMisaligned
  cases s.peerPlace f i with
  | none => simp
  | some p => obtain ⟨k, off⟩ := p; simp

theorem actives_sorted (s : State) (f : VF) : (s.actives f).Pairwise (· < ·) := List.pairwise_lt_range.filter _

theorem actives_below_vl (s : State) (f : VF) : (s.actives f).filter (fun i => decide (i < s.vl)) = s.actives f :=
  List.filter_eq_self.2 fun i hi => decide_eq_true ((mem_actives s f i).1 hi).1

section
variable {s : State} {f : VF} (hprog : s.slotNow.prog = 0)
include hprog

/-- With no misaligned element every active one is performed. -/
theorem peerElems_all (hgood : ∀ i ∈ s.actives f, s.peerMisaligned f i = false) : s.peerElems f = (s.actives f, none) := by
  unfold State.peerElems
  rw [remaining_fresh hprog]
  dsimp only
  rw [List.takeWhile_eq_self_iff.2 fun i hi => by rw [hgood i hi]; rfl,
    List.find?_eq_none.2 fun i hi => by rw [hgood i hi]; exact Bool.false_ne_true]
  rfl

/-- The elements below the lowest misaligned one are performed, and that one raises DALIGN. -/
theorem peerElems_first {e : Nat} (he : e ∈ s.actives f) (hbad : s.peerMisaligned f e = true)
    (hleast : ∀ i ∈ s.actives f, i < e → s.peerMisaligned f i = false) :
    s.peerElems f = ((s.actives f).filter (fun i => decide (i < e)), some (e, Cause.dalign (s.indexEa f e))) := by
  obtain ⟨htake, hfind⟩ := takeWhile_find_least (actives_sorted s f) he hbad hleast
  unfold State.peerElems
  rw [remaining_fresh hprog]
  dsimp only
  rw [htake, hfind]
  rfl

end

/-- A mask with the failure bits of the elements performed: bits at VL and above cleared (R162, R176). -/
theorem peerMask_eq (s : State) (f : VF) (m : Fin 8) (es : List Nat) : ∃ y, s.peerMask f m es = s.withVec { s.th.vec with m := wr s.th.vec.m m y } ∧
    ∀ i, bit y i = if i ∈ es then (s.peerPlace f i).isNone else decide (i < s.vl) && bit (s.mask m) i := by
  refine ⟨_, rfl, fun i => ?_⟩
  rw [bit_putEach]
  congr 1
  simp only [bit_eq_testBit, Nat.testBit_mod_two_pow]

/-! ## Loads from other scratchpads -/

/-- What the elements get that have a place. -/
def State.peerVals (s : State) (f : VF) (es : List Nat) : List (Nat × Nat) :=
  es.filterMap (fun i => (s.peerPlace f i).map (fun p => (i, (s.coreAt p.1).spad.readN p.2 (f.ty.bits / 8))))

theorem look_peerVals (s : State) (f : VF) (es : List Nat) (i : Nat) : look (s.peerVals f es).reverse i =
    if i ∈ es then (s.peerPlace f i).map (fun p => (s.coreAt p.1).spad.readN p.2 (f.ty.bits / 8)) else none := by
  have hkeys : i ∈ (s.peerVals f es).map Prod.fst ↔ i ∈ es ∧ (s.peerPlace f i).isSome = true := by
    rw [State.peerVals, List.map_filterMap]
    simp only [List.mem_filterMap, Option.map_map, Option.map_eq_some_iff, Function.comp_def, Option.isSome_iff_exists]
    constructor
    · rintro ⟨j, hj, p, hp, rfl⟩; exact ⟨hj, p, hp⟩
    · rintro ⟨hi, p, hp⟩; exact ⟨i, hi, p, hp, rfl⟩
  have hvals : ∀ p ∈ s.peerVals f es,
      p.2 = ((s.peerPlace f p.1).map (fun q => (s.coreAt q.1).spad.readN q.2 (f.ty.bits / 8))).getD 0 := fun p hp => by
    obtain ⟨j, -, hj⟩ := List.mem_filterMap.1 hp
    obtain ⟨q, hq, rfl⟩ := Option.map_eq_some_iff.1 hj
    rw [hq]; rfl
  by_cases hi : i ∈ es
  · rw [if_pos hi]
    cases hplace : s.peerPlace f i with
    | none => exact look_reverse_of_not_mem fun h => by rw [hkeys, hplace] at h; exact Bool.false_ne_true h.2
    | some p => rw [look_reverse_of_mem (g := fun i => ((s.peerPlace f i).map _).getD 0) hvals (hkeys.2 ⟨hi, by rw [hplace]; rfl⟩), hplace]; rfl
  · rw [if_neg hi]
    exact look_reverse_of_not_mem fun h => hi (hkeys.1 h).1

/-- The element is active and below `top`. -/
abbrev State.Performed (s : State) (f : VF) (top i : Nat) : Prop := (i < s.vl ∧ s.active f.msk i = true) ∧ i < top

theorem mem_actives_below (s : State) (f : VF) (top i : Nat) :
    i ∈ (s.actives f).filter (fun i => decide (i < top)) ↔ s.Performed f top i := by
  rw [List.mem_filter, mem_actives, decide_eq_true_eq]

/-- The bits of a failure mask once the elements below `top` have been performed (R176). -/
def FailureBits (s : State) (f : VF) (m : Fin 8) (top : Nat) (t : State) : Prop :=
  ∀ i, bit (t.mask m) i =
    if i < s.vl then (if s.Performed f top i then (s.peerPlace f i).isNone else bit (s.mask m) i) else false

theorem failureBits_of_mask {s t : State} {f : VF} {m : Fin 8} {top : Nat} (h : ∀ i, bit (t.mask m) i =
    if i ∈ (s.actives f).filter (fun i => decide (i < top)) then (s.peerPlace f i).isNone else decide (i < s.vl) && bit (s.mask m) i) :
    FailureBits s f m top t := fun i => by
  rw [h]
  simp only [mem_actives_below]
  by_cases hi : i < s.vl
  · rw [if_pos hi, decide_eq_true hi, Bool.true_and]
  · rw [if_neg hi, if_neg fun hp => hi hp.1.1, decide_eq_false hi, Bool.false_and]

/-- The registers once the elements below `top` have been loaded from other scratchpads. -/
def PeerLoaded (s : State) (f : VF) (m : Fin 8) (top : Nat) (t : State) : Prop :=
  (∀ i, t.velem f.d f.ty.bits i = match (if s.Performed f top i then s.peerPlace f i else none) with
    | some (k, off) => (s.coreAt k).spad.readN off (f.ty.bits / 8) % 2 ^ f.ty.bits
    | none => s.velem f.d f.ty.bits i) ∧
  FailureBits s f m top t ∧ (∀ q, q ≠ f.d → t.vreg q = s.vreg q) ∧ (∀ q, q ≠ m → t.mask q = s.mask q) ∧ t.th.s = s.th.s

/-- The state of a `.peer` load that has got the elements below `top`. -/
def State.peerLoad (s : State) (f : VF) (m : Fin 8) (top : Nat) : State :=
  (s.peerMask f m ((s.actives f).filter (fun i => decide (i < top)))).writeV f.d f.ty.bits
    (s.peerVals f ((s.actives f).filter (fun i => decide (i < top))))

theorem peerLoad_eq (s : State) (f : VF) (m : Fin 8) (top : Nat) : s.peerLoad f m top = s.withVec (s.peerLoad f m top).th.vec := by
  obtain ⟨y, hy, -⟩ := peerMask_eq s f m ((s.actives f).filter (fun i => decide (i < top)))
  rw [State.peerLoad, hy, writeV_eq]
  rfl

theorem peerLoad_loaded (s : State) (f : VF) (m : Fin 8) (top : Nat) : PeerLoaded s f m top (s.peerLoad f m top) := by
  obtain ⟨y, hy, hbits⟩ := peerMask_eq s f m ((s.actives f).filter (fun i => decide (i < top)))
  have hload : s.peerLoad f m top = (s.withVec { s.th.vec with m := wr s.th.vec.m m y }).writeV f.d f.ty.bits
    (s.peerVals f ((s.actives f).filter (fun i => decide (i < top)))) := congrArg (State.writeV · f.d f.ty.bits _) hy
  have hmask : ∀ q, (s.peerLoad f m top).mask q = rd (wr s.th.vec.m m y) q := fun q => by rw [hload, writeV_eq]; rfl
  refine ⟨fun i => ?elems, failureBits_of_mask fun i => ?failures, fun q hq => ?regs, fun q hq => ?masks, ?scalars⟩
  case elems =>
    rw [State.velem, hload, writeV_data, getBits_putElems_look, look_peerVals]
    simp only [mem_actives_below]
    by_cases hi : s.Performed f top i
    · rw [if_pos hi, if_pos hi]; cases s.peerPlace f i <;> rfl
    · rw [if_neg hi, if_neg hi]; rfl
  case failures => rw [hmask, rd_wr_same, hbits]
  case regs => rw [hload]; exact writeV_vreg_ne _ _ _ hq
  case masks => rw [hmask, rd_wr_ne _ _ _ _ hq]; rfl
  case scalars => rw [peerLoad_eq]; rfl

/-- The end of a memory slot leaves the registers and masks. -/
theorem PeerLoaded.memEnd {s t : State} {f : VF} {m : Fin 8} {top : Nat} (h : PeerLoaded s f m top t) (bits : Nat) :
    PeerLoaded s f m top (t.memEnd 2 f.d bits) := by
  obtain ⟨helems, hbits, hregs, hmasks, hscalars⟩ := h
  have hmask : ∀ q, (t.memEnd 2 f.d bits).mask q = t.mask q := fun q => by
    obtain ⟨n, hn⟩ := memEnd_eq t 2 f.d bits
    rw [hn, latchV_eq]; rfl
  refine ⟨fun i => ?_, fun i => (congrArg (bit · i) (hmask m)).trans (hbits i), fun q hq => (memEnd_vreg ..).trans (hregs q hq),
    fun q hq => (hmask q).trans (hmasks q hq), (memEnd_scalars ..).trans hscalars⟩
  exact (congrArg (fun x : VRegister => getBits x.data (i * f.ty.bits) f.ty.bits) (memEnd_vreg ..)).trans (helems i)

theorem vecFree_withVec {s t : State} {x : VecState} (h : t = s.withVec x) : VecFree s t := by
  subst h
  rfl

section
variable {s : State} {f : VF} (hlen : s.tooLong [f.ty.bits] = false) (hspan : s.spanBreaks f = false) {m : VReg} {c : Bool}
  (hc : f.c = .v m c)
include hlen hspan hc

theorem vldxPeer_eq {top : Nat} {stop : Option (Nat × Trap)}
    (hes : s.peerElems f = ((s.actives f).filter (fun i => decide (i < top)), stop)) : exec (.vldxPeer f) s =
      .next ((s.peerMask f (Fin.ofNat 8 m.val) ((s.actives f).filter (fun i => decide (i < top)))).loadEnd f f.ty.bits
        { vals := s.peerVals f ((s.actives f).filter (fun i => decide (i < top))), stop } false) := by
  change execVldxPeer f s = _
  unfold execVldxPeer
  rw [hes, hc, hlen, hspan]
  rfl

theorem vldxPeer_done (hes : s.peerElems f = (s.actives f, none)) : Completes (exec (.vldxPeer f) s) (fun t =>
    PeerLoaded s f (Fin.ofNat 8 m.val) s.vl t ∧ SlotOnly s t) := by
  rw [← actives_below_vl] at hes
  refine ⟨_, (vldxPeer_eq hlen hspan hc hes).trans (congrArg Host.Outcome.next (loadEnd_plain rfl _)),
    (peerLoad_loaded s f _ s.vl).memEnd f.ty.bits, ?_⟩
  exact memEnd_slotOnly (vecFree_withVec (peerLoad_eq s f (Fin.ofNat 8 m.val) s.vl)) 2 f.d f.ty.bits

theorem vldxPeer_fault {e : Nat} {x : Trap} (hes : s.peerElems f = ((s.actives f).filter (fun i => decide (i < e)), some (e, x))) :
    exec (.vldxPeer f) s = .next ((s.peerLoad f (Fin.ofNat 8 m.val) e).elemFault e x) :=
  (vldxPeer_eq hlen hspan hc hes).trans (congrArg Host.Outcome.next (loadEnd_fault rfl _ _))

end

/-! ## Stores to other scratchpads -/

/-- From s to t the bytes of scratchpads alone have changed. -/
structure PadsOnly (s t : State) : Prop where
  rest : t = { s with core := t.core, others := t.others }
  cores : ∀ k, t.coreAt k = { s.coreAt k with spad := (t.coreAt k).spad }

theorem PadsOnly.refl (s : State) : PadsOnly s s := ⟨rfl, fun _ => rfl⟩

/-- What the store of element i brings to the scratchpad m of core k. -/
def State.peerStore (s : State) (f : VF) (k : Nat) (m : Mem) (i : Nat) : Mem :=
  match s.peerPlace f i with
  | some (c, off) => if c = k then m.writeN off (f.ty.bits / 8) (s.srcC f i) else m
  | none => m

/-- The store of element i, whose place and data stand in s. -/
def State.peerStep (s : State) (f : VF) (t : State) (i : Nat) : State :=
  match s.peerPlace f i with
  | some (n, off) => t.spadWrite n off (f.ty.bits / 8) (s.srcC f i)
  | none => t

/-- The stores of these elements. -/
def State.peerStores (s : State) (f : VF) (es : List Nat) : State := es.foldl (s.peerStep f) s

theorem spadWrite_pads {s t : State} (h : PadsOnly s t) (c off n v : Nat) : PadsOnly s (t.spadWrite c off n v) ∧
    ∀ k, ((t.spadWrite c off n v).coreAt k).spad = if c = k then (t.coreAt k).spad.writeN off n v else (t.coreAt k).spad := by
  refine ⟨⟨?_, fun k => ?_⟩, fun k => ?_⟩
  · have hset : t.spadWrite c off n v = { t with core := (t.spadWrite c off n v).core, others := (t.spadWrite c off n v).others } := by
      unfold State.spadWrite State.setCore; dsimp only; split <;> rfl
    exact hset.trans (congrArg (fun x : State =>
      { x with core := (t.spadWrite c off n v).core, others := (t.spadWrite c off n v).others }) h.rest)
  · unfold State.spadWrite
    dsimp only
    by_cases hk : k = c
    · subst hk; rw [coreAt_setCore_same, h.cores k]
    · rw [coreAt_setCore_ne _ _ _ _ hk, h.cores k]
  · unfold State.spadWrite
    dsimp only
    by_cases hk : c = k
    · subst hk; rw [coreAt_setCore_same, if_pos rfl]
    · rw [coreAt_setCore_ne _ _ _ _ (Ne.symm hk), if_neg hk]

theorem peerStores_pads (s : State) (f : VF) (es : List Nat) : PadsOnly s (s.peerStores f es) ∧
    ∀ k, ((s.peerStores f es).coreAt k).spad = es.foldl (s.peerStore f k) (s.coreAt k).spad := by
  suffices h : ∀ t, PadsOnly s t → PadsOnly s (es.foldl (s.peerStep f) t) ∧
    ∀ k, ((es.foldl (s.peerStep f) t).coreAt k).spad = es.foldl (s.peerStore f k) (t.coreAt k).spad from h s (.refl s)
  induction es with
  | nil => exact fun t ht => ⟨ht, fun k => rfl⟩
  | cons i es ih =>
    intro t ht
    obtain ⟨hpads, hspad⟩ : PadsOnly s (s.peerStep f t i) ∧
        ∀ k, ((s.peerStep f t i).coreAt k).spad = s.peerStore f k (t.coreAt k).spad i := by
      unfold State.peerStep State.peerStore
      cases s.peerPlace f i with
      | none => exact ⟨ht, fun _ => rfl⟩
      | some p => exact spadWrite_pads ht p.1 p.2 (f.ty.bits / 8) (s.srcC f i)
    obtain ⟨hrest, hfold⟩ := ih _ hpads
    exact ⟨hrest, fun k => (hfold k).trans (by rw [hspad]; rfl)⟩

theorem PadsOnly.peerPlace {s t : State} (h : PadsOnly s t) (f : VF) (i : Nat) : t.peerPlace f i = s.peerPlace f i := by
  have hctx : t.core.sys = s.core.sys := by
    have hc := h.cores s.coreId
    have hid : t.coreId = s.coreId := by rw [h.rest]
    have ht : t.coreAt s.coreId = t.core := by rw [← hid, coreAt_self]
    rw [ht, coreAt_self] at hc
    rw [hc]
  have hindex : t.index f i = s.index f i ∧ t.pointer f.a = s.pointer f.a ∧ ∀ n, t.enabled n = s.enabled n := by
    rw [h.rest]; exact ⟨rfl, rfl, fun _ => rfl⟩
  obtain ⟨hi, hp, hen⟩ := hindex
  have hcore : ∀ n, (t.coreAt n).task = (s.coreAt n).task ∧ (t.coreAt n).sys = (s.coreAt n).sys ∧
      (t.coreAt n).spadSize = (s.coreAt n).spadSize := fun n => by rw [h.cores n]; exact ⟨rfl, rfl, rfl⟩
  unfold State.peerPlace
  dsimp only
  rw [hi, hp]
  cases linearOf (s.index f i / 2 ^ 53) with
  | none => rfl
  | some n =>
    obtain ⟨h1, h2, h3⟩ := hcore n
    dsimp only
    rw [hen, h1, h2, h3, hctx]

/-- The memories and registers once the elements below `top` have been stored to other scratchpads. -/
def PeerStored (s : State) (f : VF) (top : Nat) (t : State) : Prop :=
  (∀ k, (t.coreAt k).spad = ((s.actives f).filter (fun i => decide (i < top))).foldl (s.peerStore f k) (s.coreAt k).spad) ∧
  FailureBits s f (Fin.ofNat 8 f.d.val) top t ∧ (∀ q, t.vreg q = s.vreg q) ∧ t.th.s = s.th.s ∧ t.store = s.store ∧ t.fab = s.fab

/-- The state of a `.peer` store that has stored the elements below `top`. -/
def State.peerStored (s : State) (f : VF) (top : Nat) : State :=
  ((s.peerStores f ((s.actives f).filter (fun i => decide (i < top)))).peerMask f (Fin.ofNat 8 f.d.val)
    ((s.actives f).filter (fun i => decide (i < top)))).unspin

theorem peerStored_stored (s : State) (f : VF) (top : Nat) : PeerStored s f top (s.peerStored f top) := by
  obtain ⟨hpads, hspad⟩ := peerStores_pads s f ((s.actives f).filter (fun i => decide (i < top)))
  unfold State.peerStored
  generalize s.peerStores f _ = u at hpads hspad ⊢
  obtain ⟨y, hy, hbits⟩ := peerMask_eq u f (Fin.ofNat 8 f.d.val) ((s.actives f).filter (fun i => decide (i < top)))
  have hmask : (u.withVec { u.th.vec with m := wr u.th.vec.m (Fin.ofNat 8 f.d.val) y }).unspin.mask (Fin.ofNat 8 f.d.val) = y :=
    rd_wr_same ..
  have hth : u.th = s.th := by rw [hpads.rest]
  have hvl : u.vl = s.vl := by rw [hpads.rest]; rfl
  have hold : u.mask (Fin.ofNat 8 f.d.val) = s.mask (Fin.ofNat 8 f.d.val) := by rw [State.mask, hth]; rfl
  rw [hy]
  refine ⟨hspad, failureBits_of_mask fun i => ?_, fun q => ?_, ?_, ?_, ?_⟩
  · rw [hmask, hbits, hpads.peerPlace, hvl, hold]
  · change rd u.th.vec.v q = _; rw [hth]; rfl
  · change u.th.s = _; rw [hth]
  · change u.store = _; rw [hpads.rest]
  · change u.fab = _; rw [hpads.rest]

/-- The rest of a slot that only latches and keeps lanes busy. -/
theorem PeerStored.slotEnd {s t u : State} {f : VF} {top : Nat} (h : PeerStored s f top t) (hu : ∃ lat laneBusy issue convoy spin free, u = { t with
    th := { t.th with vec := { t.th.vec with lat }, laneBusy, issue, convoy, spin }, free }) : PeerStored s f top u := by
  obtain ⟨_, _, _, _, _, _, rfl⟩ := hu
  exact h

section
variable {s : State} {f : VF} (hlen : s.tooLong [f.ty.bits] = false) (hspan : s.spanBreaks f = false)
include hlen hspan

theorem vstxPeer_eq {top : Nat} {stop : Option (Nat × Trap)}
    (hes : s.peerElems f = ((s.actives f).filter (fun i => decide (i < top)), stop)) : exec (.vstxPeer f) s =
      .next (((s.peerStores f ((s.actives f).filter (fun i => decide (i < top)))).peerMask f (Fin.ofNat 8 f.d.val)
        ((s.actives f).filter (fun i => decide (i < top)))).storeEnd f f.ty.bits { stop }) := by
  change execVstxPeer f s = _
  unfold execVstxPeer
  rw [hlen, hspan, Bool.or_self, if_neg Bool.false_ne_true, hes]
  rfl

theorem vstxPeer_done (hes : s.peerElems f = (s.actives f, none)) : Completes (exec (.vstxPeer f) s) (PeerStored s f s.vl) := by
  rw [← actives_below_vl] at hes
  obtain ⟨lat, laneBusy, free, hend⟩ := storeEnd_spad ((s.peerStores f ((s.actives f).filter (fun i => decide (i < s.vl)))).peerMask f
    (Fin.ofNat 8 f.d.val) ((s.actives f).filter (fun i => decide (i < s.vl)))) f f.ty.bits (r := { stop := none }) rfl (by simp)
  exact ⟨_, (vstxPeer_eq hlen hspan hes).trans (congrArg Host.Outcome.next hend),
    (peerStored_stored s f s.vl).slotEnd ⟨lat, laneBusy, none, _, 0, free, rfl⟩⟩

theorem vstxPeer_fault {e : Nat} {x : Trap} (hes : s.peerElems f = ((s.actives f).filter (fun i => decide (i < e)), some (e, x))) :
    exec (.vstxPeer f) s = .next ((s.peerStored f e).elemFault e x) :=
  vstxPeer_eq hlen hspan hes

end

/-! ## Column order (R264, R266) -/

/-- Elements that the tensor has and that hold no poison are all gathered. -/
theorem gatherElems_all (s : State) {e die entry e0 : Nat} {l : List Nat}
    (h : ∀ i ∈ l, ∃ a, travAddr e die (e0 + i) = some a ∧ s.store.poison.contains (a / 32) = false) :
    s.gatherElems e die entry e0 l = { vals := l.map (fun i => (i, match travAddr e die (e0 + i) with
      | some a => s.store.media.readN a (travSize e)
      | none => 0)) } := by
  induction l with
  | nil => rfl
  | cons i l ih =>
    obtain ⟨a, ha, hpoison⟩ := h i List.mem_cons_self
    unfold State.gatherElems
    rw [ha]
    dsimp only
    rw [hpoison, if_neg Bool.false_ne_true, ih fun j hj => h j (List.mem_cons_of_mem _ hj), List.map_cons, ha]

theorem ldtFrom_done {s : State} {f : VF} {die entry e0 : Nat} (hact : s.actives f ≠ []) (hprog : s.slotNow.prog = 0)
    (hpresent : s.stackPresent die = true) (hvalid : travValid (s.travEntry die entry) = true)
    (hctx : travCtx (s.travEntry die entry) = s.core.sys.ctxid.toNat) (hsize : 8 * travSize (s.travEntry die entry) = f.ty.bits)
    (h : ∀ i ∈ s.actives f, ∃ a, travAddr (s.travEntry die entry) die (e0 + i) = some a ∧ s.store.poison.contains (a / 32) = false) :
    SlotWritesV s 2 f.d f.ty.bits 0 (s.onActive f (fun i => match travAddr (s.travEntry die entry) die (e0 + i) with
      | some a => s.store.media.readN a (travSize (s.travEntry die entry))
      | none => 0)) (s.ldtFrom f die entry e0) := by
  have hbody : s.ldtFrom f die entry e0 =
      s.loadEnd f f.ty.bits (s.gatherElems (s.travEntry die entry) die entry e0 (s.actives f)) false := by
    unfold State.ldtFrom
    rw [remaining_fresh hprog]
    cases hl : s.actives f with
    | nil => exact absurd hl hact
    | cons e es => simp only [hpresent, hvalid, hctx, hsize, Bool.not_true, Bool.false_eq_true, if_false, ne_eq, not_true_eq_false]
  rw [hbody, gatherElems_all s h, loadEnd_plain rfl]
  exact memEnd_writes s 2 f.d f.ty.bits fun i => by rw [look_actives]

theorem ldt_exec {s : State} {f : VF} (hvp : s.th.vp = none) (hlen : s.tooLong [f.ty.bits] = false) (hact : s.actives f ≠ []) {r : Reg}
    (hb : f.b = .s r) : exec (.ldt f) s = .next (s.ldtFrom f ((s.scalar .b r 0).toNat / 2 ^ 8 % 8) ((s.scalar .b r 0).toNat % 64)
      (match f.c with | .s q => (s.scalar .c q 0).toNat | _ => 0)) := by
  have hne : (s.actives f).isEmpty = false := by simpa using hact
  have hsel : s.bScalar f 0 = s.scalar .b r 0 := by rw [State.bScalar, hb]
  change execLdt f s = _
  rw [execLdt, slotNotVp_thread hvp, hne, if_neg Bool.false_ne_true, hlen, if_neg Bool.false_ne_true, hsel]
  have hentry : getBits (s.scalar .b r 0).toNat 0 6 = (s.scalar .b r 0).toNat % 64 := by
    rw [getBits, Nat.pow_zero, Nat.div_one]
    rfl
  dsimp only
  rw [hentry]
  cases f.c <;> rfl

/-- Settles O36: what each run of elements gets or stores, in the shape of its slot. -/
theorem vectorOtherLoads : Obligations.VectorOtherLoads := by
  intro s f
  refine ⟨fun hvp s1 r hload hstop => vldo_fills hvp hload hstop, fun hlen hspan hprog => ?peer, fun hvp hlen hact r hb => ?columns⟩
  case peer =>
    intro n act bad first loadsTo storesTo
    have hall : (∀ i, act i → ¬ bad i) → s.peerElems f = (s.actives f, none) := fun h => peerElems_all hprog fun i hi =>
      Bool.eq_false_iff.2 fun hm => h i ((mem_actives s f i).1 hi) ((peerMisaligned_iff s f i).1 hm)
    have hfirst : ∀ e, first e → s.peerElems f = ((s.actives f).filter (fun i => decide (i < e)), some (e, Cause.dalign (s.indexEa f e))) :=
      fun e ⟨he, hbad, hleast⟩ => peerElems_first hprog ((mem_actives s f e).2 he) ((peerMisaligned_iff s f e).2 hbad) fun i hi hlt =>
        Bool.eq_false_iff.2 fun hm => hleast i hlt ((mem_actives s f i).1 hi) ((peerMisaligned_iff s f i).1 hm)
    refine ⟨fun m c hc _ => ⟨fun h => vldxPeer_done hlen hspan hc (hall h), fun e he => ?_⟩, fun h => vstxPeer_done hlen hspan (hall h),
      fun e he => ?_⟩
    · exact ⟨_, peerLoad_eq s f _ e, peerLoad_loaded s f _ e, vldxPeer_fault hlen hspan hc (hfirst e he)⟩
    · exact ⟨_, peerStored_stored s f e, vstxPeer_fault hlen hspan (hfirst e he)⟩
  case columns =>
    intro sel die entry e e0 hpresent hvalid hctx hsize hprog helems
    exact ⟨_, ldt_exec hvp hlen hact hb, ldtFrom_done hact hprog hpresent hvalid hctx hsize helems⟩

end Sys2Proof.Machine
end
